-- ==== Sys2Proof/Word.lean ====
section
/-! DEFINITION. The machine's word and its plainest arithmetic (00 R2: little-endian, bit 0 least significant). -/

namespace Sys2Proof

/-- An x register, a CSR or an address while it is computed: 64 bits (R14). -/
abbrev Word := BitVec 64

/-- One byte of memory (R2). -/
abbrev Byte := BitVec 8

/-- A register field of an encoding: x, v, or a number of a smaller kind (R63, R70). -/
abbrev Reg := BitVec 5

end Sys2Proof
end

