-- ==== Sys2Proof/Machine/Flags.lean ====
section
/-! DEFINITION. Number formats, exact arithmetic, rounding and exception flags (02 R36 to R53, 05 R119). -/

namespace Sys2Proof.Machine

/-! ## Formats (R36, R37, R47) -/

inductive Fmt where
  | int (signed : Bool) (w : Nat)
  | f64 | f32 | f16 | b16 | e4m3 | e5m2
  | e4m3q | e5m2q
  | i4 | n4
  deriving DecidableEq, Repr

/-- R47: the format of a code; none for "not used" and the reserved codes. -/
def fmtOf (code : Nat) : Option Fmt :=
  match code with
  | 0x01 => some (.int true 8)
  | 0x02 => some (.int false 8)
  | 0x03 => some (.int true 16)
  | 0x04 => some (.int false 16)
  | 0x05 => some (.int true 32)
  | 0x06 => some (.int false 32)
  | 0x07 => some (.int true 64)
  | 0x08 => some (.int false 64)
  | 0x09 => some .f16
  | 0x0A => some .b16
  | 0x0B => some .f32
  | 0x0C => some .f64
  | 0x0D => some .e4m3
  | 0x0E => some .e5m2
  | 0x0F => some .e4m3q
  | 0x10 => some .e5m2q
  | 0x11 => some .i4
  | 0x12 => some .n4
  | _ => none

def Fmt.isInt : Fmt → Bool
  | .int _ _ | .i4 | .n4 => true
  | _ => false

def Fmt.isFloat (f : Fmt) : Bool := !f.isInt

def Fmt.isQ : Fmt → Bool
  | .e4m3q | .e5m2q => true
  | _ => false

def Fmt.is4 : Fmt → Bool
  | .i4 | .n4 => true
  | _ => false

/-- A Q format's decoded format, every other format itself (R41). -/
def Fmt.plain : Fmt → Fmt
  | .e4m3q => .e4m3
  | .e5m2q => .e5m2
  | f => f

/-- The element width in bits (R47); a 4-bit format's elements are 4 bits in memory (R36). -/
def Fmt.width : Fmt → Nat
  | .int _ w => w
  | .f64 => 64
  | .f32 => 32
  | .f16 | .b16 => 16
  | .e4m3 | .e5m2 | .e4m3q | .e5m2q => 8
  | .i4 | .n4 => 4

def Fmt.signed : Fmt → Bool
  | .int s _ => s
  | .i4 => true
  | _ => false

/-- Exponent bits and mantissa bits of a floating-point format (R37). -/
def Fmt.ebits : Fmt → Nat
  | .f64 => 11
  | .f32 | .b16 => 8
  | .f16 | .e5m2 | .e5m2q => 5
  | _ => 4

def Fmt.mbits : Fmt → Nat
  | .f64 => 52
  | .f32 => 23
  | .f16 => 10
  | .b16 => 7
  | .e5m2 | .e5m2q => 2
  | _ => 3

def Fmt.bias (f : Fmt) : Nat := 2 ^ (f.ebits - 1) - 1

/-- E4M3 has no infinity and one NaN of each sign (R37). -/
def Fmt.hasInf : Fmt → Bool
  | .e4m3 | .e4m3q => false
  | _ => true

/-- F64, F32, F16 and B16 have signalling NaNs (R37). -/
def Fmt.hasSnan : Fmt → Bool
  | .f64 | .f32 | .f16 | .b16 => true
  | _ => false

/-- The exponent of the smallest normal (R37). -/
def Fmt.emin (f : Fmt) : Int := 1 - (f.bias : Int)

/-- The largest finite value: significand and exponent of its last bit (R37). -/
def Fmt.maxSig (f : Fmt) : Nat := if f.hasInf then 2 ^ (f.mbits + 1) - 1 else 14
def Fmt.maxExp (f : Fmt) : Int :=
  (if f.hasInf then (2 ^ f.ebits - 2 : Nat) else 15 : Int) - (f.bias : Int) - (f.mbits : Int)

/-! ## Flags (R20) -/

/-- Flag bits: NX 1, UF 2, OF 4, DZ 8, NV 16, SAT 32. -/
abbrev Flags := BitVec 6
def fNX : Flags := 1#6
def fUF : Flags := 2#6
def fOF : Flags := 4#6
def fDZ : Flags := 8#6
def fNV : Flags := 16#6
def fSAT : Flags := 32#6

/-! ## Exact values -/

/-- An exact value: a NaN with its source's sign, mantissa, mantissa width and signalling bit (none for a NaN that an
operation makes), an infinity, or (−1)^neg × (m + ε) × 2^e with 0 < ε < 1 when more is set and ε = 0 otherwise. -/
inductive Val where
  | nan (src : Option (Bool × Nat × Nat)) (snan : Bool)
  | inf (neg : Bool)
  | num (neg : Bool) (m : Nat) (e : Int) (more : Bool)
  deriving DecidableEq, Repr

def Val.zero (neg : Bool) : Val := .num neg 0 0 false

def Val.finite : Val → Bool
  | .num _ _ _ _ => true
  | _ => false

def Val.isNan : Val → Bool
  | .nan _ _ => true
  | _ => false

def Val.isSnan : Val → Bool
  | .nan _ s => s
  | _ => false

def Val.isZero : Val → Bool
  | .num _ 0 _ false => true
  | _ => false

def Val.isInf : Val → Bool
  | .inf _ => true
  | _ => false

def Val.neg : Val → Bool
  | .nan (some (s, _, _)) _ => s
  | .nan none _ => false
  | .inf s => s
  | .num s _ _ _ => s

/-- A negation never alters a NaN (R117). -/
def Val.negate : Val → Val
  | .nan a b => .nan a b
  | .inf s => .inf (!s)
  | .num s m e k => .num (!s) m e k

/-- An exact scale by a power of two (R49): infinities, NaNs and zeros are unchanged. -/
def Val.scale (k : Int) : Val → Val
  | .num s 0 e false => .num s 0 e false
  | .num s m e more => .num s m (e + k) more
  | v => v

/-- A two's complement or unsigned pattern of w bits as an integer (R36). -/
def decodeInt (signed : Bool) (w n : Nat) : Int :=
  let v := n % 2 ^ w
  if signed && decide (2 ^ w ≤ 2 * v) then (v : Int) - (2 ^ w : Nat) else v

/-- A floating-point pattern's value (R37). -/
def decodeFloat (f : Fmt) (n : Nat) : Val :=
  let mb := f.mbits
  let m := n % 2 ^ mb
  let e := n / 2 ^ mb % 2 ^ f.ebits
  let s := n / 2 ^ (mb + f.ebits) % 2 == 1
  let top := 2 ^ f.ebits - 1
  if f.hasInf && e == top then
    if m = 0 then .inf s else .nan (some (s, m, mb)) (f.hasSnan && decide (m < 2 ^ (mb - 1)))
  else if !f.hasInf && e == top && m == 7 then .nan (some (s, m, mb)) false
  else if e = 0 then .num s m (f.emin - mb) false
  else .num s (2 ^ mb + m) ((e : Int) - f.bias - mb) false

/-- A denormal source reads as a zero of its sign under ftz (R50). -/
def ftzIn (ftz : Bool) (f : Fmt) : Val → Val
  | .num s m e k => if ftz && decide (m < 2 ^ f.mbits) then .num s 0 0 false else .num s m e k
  | v => v

/-- An integer as an exact value. -/
def Val.ofInt (v : Int) : Val := .num (decide (v < 0)) v.natAbs 0 false

/-- Any plain format's pattern as an exact value. -/
def decodeVal (ftz : Bool) (f : Fmt) (n : Nat) : Val :=
  match f with
  | .int s w => .ofInt (decodeInt s w n)
  | .i4 => .ofInt (decodeInt true 4 n)
  | .n4 => .ofInt (decodeInt false 4 n)
  | g => ftzIn ftz g (decodeFloat g n)

/-! ## Rounding (R50, R51, R52) -/

/-- Whether the rounded magnitude is the next one up: the discarded part against one half, the kept part's parity, and
the sign. cmp is −1, 0 or 1 for below, at or above a half; some says whether anything is discarded. -/
def roundUp (rm : Nat) (neg odd someLost : Bool) (cmp : Int) : Bool :=
  match rm with
  | 0 => decide (0 < cmp) || (cmp == 0 && odd)
  | 1 => false
  | 2 => neg && someLost
  | 3 => !neg && someLost
  | _ => decide (0 ≤ cmp) && someLost

/-- (m + ε) × 2^e as a multiple of 2^q: the multiple and whether it differs from the value. -/
def roundTo (rm : Nat) (neg : Bool) (m : Nat) (e : Int) (more : Bool) (q : Int) : Nat × Bool :=
  if q ≤ e then
    let k := m * 2 ^ (e - q).toNat
    (if roundUp rm neg (k % 2 == 1) more (-1) then k + 1 else k, more)
  else
    let s := (q - e).toNat
    let k := m / 2 ^ s
    let r := m % 2 ^ s
    let half := 2 ^ (s - 1)
    let cmp : Int := if r < half then -1 else if r = half ∧ !more then 0 else 1
    let lost := r != 0 || more
    (if roundUp rm neg (k % 2 == 1) lost cmp then k + 1 else k, lost)

/-- The exponent of a value's leading bit. -/
def leadExp (m : Nat) (e : Int) : Int := (Nat.log2 m : Int) + e

/-- The bits of a finite value k × 2^q of a format. -/
def packFinite (f : Fmt) (neg : Bool) (k : Nat) (q : Int) : Nat :=
  let sign := if neg then 2 ^ (f.mbits + f.ebits) else 0
  if k = 0 then sign
  else
    let l := Nat.log2 k
    let ex := (l : Int) + q
    if f.emin ≤ ex then
      let mant := if l ≤ f.mbits then k * 2 ^ (f.mbits - l) else k / 2 ^ (l - f.mbits)
      sign + (ex + f.bias).toNat * 2 ^ f.mbits + (mant - 2 ^ f.mbits)
    else sign + k * 2 ^ (q - (f.emin - f.mbits)).toNat

def packInf (f : Fmt) (neg : Bool) : Nat :=
  (if neg then 2 ^ (f.mbits + f.ebits) else 0) +
    (if f.hasInf then (2 ^ f.ebits - 1) * 2 ^ f.mbits else 2 ^ (f.mbits + f.ebits) - 1)

def packMax (f : Fmt) (neg : Bool) : Nat := packFinite f neg f.maxSig f.maxExp

/-- The canonical NaN (R38). -/
def canonicalNan (f : Fmt) : Nat :=
  if f.hasInf then (2 ^ f.ebits - 1) * 2 ^ f.mbits + 2 ^ (f.mbits - 1) else 0x7F

/-- The pattern of a NaN result (R38). -/
def packNan (f : Fmt) (nanprop : Bool) : Option (Bool × Nat × Nat) → Nat
  | some (s, m, w) =>
    if nanprop then
      let sign := if s then 2 ^ (f.mbits + f.ebits) else 0
      if f.hasInf then
        let quiet := m ||| 2 ^ (w - 1)
        let mant := if w ≤ f.mbits then quiet * 2 ^ (f.mbits - w) else quiet / 2 ^ (w - f.mbits)
        sign + (2 ^ f.ebits - 1) * 2 ^ f.mbits + mant
      else sign + 0x7F
    else canonicalNan f
  | none => canonicalNan f

/-- How a result is encoded: rounding mode, flush, saturation (sat, or sat8 on an 8-bit format), NaN propagation. -/
structure EncMode where
  rm      : Nat
  ftz     : Bool
  sat     : Bool
  nanprop : Bool
  deriving DecidableEq, Repr

/-- R51: what an overflow yields, with its flags. -/
def packOverflow (f : Fmt) (c : EncMode) (neg : Bool) : Nat × Flags :=
  if c.sat then (packMax f neg, fOF ||| fNX ||| fSAT)
  else
    let toInf := match c.rm with
      | 1 => false
      | 2 => neg
      | 3 => !neg
      | _ => true
    (if toInf then packInf f neg else packMax f neg, fOF ||| fNX)

/-- Round(fmt, x, rm) to prec significant bits with the format's own exponent range and denormal spacing (R50, R51,
R119): the pattern and the flags. -/
def encodeFloat (f : Fmt) (prec : Nat) (c : EncMode) (v : Val) : Nat × Flags :=
  match v with
  | .nan src _ => (packNan f c.nanprop src, 0#6)
  | .inf s =>
    if f.hasInf then (packInf f s, 0#6)
    else if c.sat then (packMax f s, fSAT) else (packInf f s, 0#6)
  | .num s m e more =>
    if m = 0 ∧ !more then (packFinite f s 0 0, 0#6)
    else
      let lead := leadExp m e
      let q := max (lead - (prec - 1 : Nat)) (f.emin - f.mbits)
      let r := roundTo c.rm s m e more q
      let u := roundTo c.rm s m e more (lead - (prec - 1 : Nat))
      let tiny := decide (lead < f.emin) && !(decide (f.emin ≤ leadExp u.1 (lead - (prec - 1 : Nat))))
      if r.1 ≠ 0 ∧ (f.maxExp < leadExp r.1 q - f.mbits ∨
          (f.maxExp = leadExp r.1 q - f.mbits ∧ (f.maxSig : Int) * 2 ^ (f.maxExp - q).toNat < r.1 * 2 ^ (q - f.maxExp).toNat)) then
        packOverflow f c s
      else if tiny && c.ftz then (packFinite f s 0 0, fUF ||| fNX)
      else (packFinite f s r.1 q,
        (if r.2 then fNX else 0#6) ||| (if tiny && r.2 then fUF else 0#6))

/-- An exact integer encoded to w bits, wrapping or clamping (R52). -/
def encodeInt (signed : Bool) (w : Nat) (sat : Bool) (v : Int) : Nat × Flags :=
  let lo : Int := if signed then -(2 ^ (w - 1) : Nat) else 0
  let hi : Int := if signed then (2 ^ (w - 1) : Nat) - 1 else (2 ^ w : Nat) - 1
  let wrap (x : Int) : Nat := (x % (2 ^ w : Nat)).toNat
  if sat then
    if v < lo then (wrap lo, fSAT) else if hi < v then (wrap hi, fSAT) else (wrap v, 0#6)
  else (wrap v, 0#6)

/-- An exact value rounded to an integer, and whether a fraction was discarded. -/
def roundInt (rm : Nat) (s : Bool) (m : Nat) (e : Int) (more : Bool) : Int × Bool :=
  let r := roundTo rm s m e more 0
  (if s then -(r.1 : Int) else r.1, r.2)

/-- A floating-point value converted to an integer format (R52, R123). -/
def floatToInt (signed : Bool) (w rm : Nat) (v : Val) : Nat × Flags :=
  let lo : Int := if signed then -(2 ^ (w - 1) : Nat) else 0
  let hi : Int := if signed then (2 ^ (w - 1) : Nat) - 1 else (2 ^ w : Nat) - 1
  let wrap (x : Int) : Nat := (x % (2 ^ w : Nat)).toNat
  match v with
  | .nan _ _ => (wrap hi, fNV)
  | .inf s => (wrap (if s then lo else hi), fNV)
  | .num s m e more =>
    let r := roundInt rm s m e more
    if r.1 < lo then (wrap lo, fNV)
    else if hi < r.1 then (wrap hi, fNV)
    else (wrap r.1, if r.2 then fNX else 0#6)

/-! ## Exact operations (R50, R53) -/

/-- The first NaN of the operands in the order of R38, or a NaN that the operation makes. -/
def firstNan : List Val → Val
  | [] => .nan none false
  | .nan src _ :: _ => .nan src false
  | _ :: l => firstNan l

/-- NV for a signalling source. -/
def snanFlag (l : List Val) : Flags := if l.any Val.isSnan then fNV else 0#6

/-- The exact sum of two finite values; an exact zero has the sign of R50. -/
def addNum (rm : Nat) (s1 : Bool) (m1 : Nat) (e1 : Int) (s2 : Bool) (m2 : Nat) (e2 : Int) : Val :=
  let e := min e1 e2
  let a : Int := m1 * 2 ^ (e1 - e).toNat
  let b : Int := m2 * 2 ^ (e2 - e).toNat
  let t := (if s1 then -a else a) + (if s2 then -b else b)
  if t = 0 then .zero (if s1 = s2 ∧ m1 = 0 ∧ m2 = 0 then s1 else rm == 2)
  else .num (decide (t < 0)) t.natAbs e false

def addVal (rm : Nat) (order : List Val) (a b : Val) : Val × Flags :=
  if a.isNan || b.isNan then (firstNan order, snanFlag order)
  else match a, b with
    | .inf s, .inf t => if s = t then (.inf s, 0#6) else (.nan none false, fNV)
    | .inf s, _ => (.inf s, 0#6)
    | _, .inf t => (.inf t, 0#6)
    | .num s1 m1 e1 _, .num s2 m2 e2 _ => (addNum rm s1 m1 e1 s2 m2 e2, 0#6)
    | _, _ => (.nan none false, 0#6)

def mulVal (order : List Val) (a b : Val) : Val × Flags :=
  if a.isNan || b.isNan then (firstNan order, snanFlag order)
  else match a, b with
    | .num s1 m1 e1 _, .num s2 m2 e2 _ => (.num (s1 != s2) (m1 * m2) (e1 + e2) false, 0#6)
    | x, y =>
      if x.isZero || y.isZero then (.nan none false, fNV) else (.inf (x.neg != y.neg), 0#6)

/-- ±(a × b) ± c, rounded once (R117). 0 × ∞ raises NV even with a quiet NaN c. -/
def fmaVal (rm : Nat) (negProduct negAddend : Bool) (a b c : Val) : Val × Flags :=
  let bad := (a.isZero && b.isInf) || (a.isInf && b.isZero)
  let order := [c, a, b]
  if order.any Val.isNan then (firstNan order, snanFlag order ||| (if bad then fNV else 0#6))
  else if bad then (.nan none false, fNV)
  else
    let p := (mulVal [a, b] a b).1
    let p' := if negProduct then p.negate else p
    let c' := if negAddend then c.negate else c
    addVal rm [c', p'] p' c'

/-- The quotient of two non-zero magnitudes with at least 128 bits, and whether it is truncated. -/
def divNum (m1 m2 : Nat) : Nat × Nat × Bool :=
  let k := 130 + Nat.log2 m2
  (m1 * 2 ^ k / m2, k, m1 * 2 ^ k % m2 != 0)

def divVal (a b : Val) : Val × Flags :=
  let order := [a, b]
  if a.isNan || b.isNan then (firstNan order, snanFlag order)
  else
    let s := a.neg != b.neg
    match a, b with
    | .inf _, .inf _ => (.nan none false, fNV)
    | .inf _, _ => (.inf s, 0#6)
    | _, .inf _ => (.zero s, 0#6)
    | .num _ m1 e1 _, .num _ m2 e2 _ =>
      if m2 = 0 then (if m1 = 0 then (.nan none false, fNV) else (.inf s, fDZ))
      else if m1 = 0 then (.zero s, 0#6)
      else
        let r := divNum m1 m2
        (.num s r.1 (e1 - e2 - r.2.1) r.2.2, 0#6)
    | _, _ => (.nan none false, 0#6)

/-- The integer square root, bit by bit from bit k downwards. -/
def isqrtFrom (n : Nat) : Nat → Nat → Nat
  | 0, r => r
  | k + 1, r =>
    let t := r + 2 ^ k
    isqrtFrom n k (if t * t ≤ n then t else r)

def isqrt (n : Nat) : Nat := isqrtFrom n (Nat.log2 n / 2 + 1) 0

/-- √(m × 2^e) for m > 0 with at least 128 bits. -/
def sqrtNum (m : Nat) (e : Int) : Nat × Int × Bool :=
  let m1 := if e % 2 = 0 then m else 2 * m
  let e1 := if e % 2 = 0 then e else e - 1
  let n := m1 * 2 ^ 256
  let r := isqrt n
  (r, e1 / 2 - 128, r * r != n)

def sqrtVal (a : Val) : Val × Flags :=
  match a with
  | .nan src sn => (.nan src false, if sn then fNV else 0#6)
  | .inf s => if s then (.nan none false, fNV) else (.inf false, 0#6)
  | .num s m e _ =>
    if m = 0 then (.zero s, 0#6)
    else if s then (.nan none false, fNV)
    else
      let r := sqrtNum m e
      (.num false r.1 r.2.1 r.2.2, 0#6)

/-! ## Estimates (R119) -/

def rcpVal (a : Val) : Val × Flags :=
  match a with
  | .nan src sn => (.nan src false, if sn then fNV else 0#6)
  | .inf s => (.zero s, 0#6)
  | .num s m e k => if m = 0 then (.inf s, fDZ) else divVal (.num false 1 0 false) (.num s m e k)

def rsqVal (a : Val) : Val × Flags :=
  match a with
  | .nan src sn => (.nan src false, if sn then fNV else 0#6)
  | .inf s => if s then (.nan none false, fNV) else (.zero false, 0#6)
  | .num s m e _ =>
    if m = 0 then (.inf s, fDZ)
    else if s then (.nan none false, fNV)
    else
      let m1 := if e % 2 = 0 then m else 2 * m
      let e1 := if e % 2 = 0 then e else e - 1
      let n := 2 * ((Nat.log2 m1 + 258) / 2)
      let r := isqrt (2 ^ n / m1)
      (.num false r (-(e1 / 2) - (n / 2 : Nat)) (r * r * m1 != 2 ^ n), 0#6)

/-- ln 2 in units of 2^−256, rounded down. -/
def ln2Fixed : Nat := 80260960185991308862233904206310070533990667611589946606122867505419956976171

/-- The terms of e^x from the k-th, x and the term in units of 2^−256. -/
def expTerms (x : Nat) : Nat → Nat → Nat → Nat
  | 0, _, _ => 0
  | fuel + 1, k, t => t + expTerms x fuel (k + 1) (t * x / (2 ^ 256 * k))

/-- 2^f for a fraction f in units of 2^−256, in the same units. -/
def exp2Fraction (f : Nat) : Nat := expTerms (f * ln2Fixed / 2 ^ 256) 80 1 (2 ^ 256)

/-- 2^a for a finite non-zero a; the result of a non-integer is never exact. Below 2^−100 in magnitude the result lies
next to 1, and from 2^14 on it lies beyond every format's range. -/
def exp2Num (s : Bool) (m : Nat) (e : Int) : Val :=
  let lead := leadExp m e
  if 14 ≤ lead then .num false 1 (if s then -20000 else 20000) false
  else if lead < -100 then .num false (if s then 2 ^ 256 - 1 else 2 ^ 256) (-256) true
  else
    let fx : Int := if 0 ≤ e + 256 then m * 2 ^ (e + 256).toNat else m / 2 ^ (-(e + 256)).toNat
    let x := if s then -fx else fx
    let i := x / (2 ^ 256 : Nat)
    let f := (x % (2 ^ 256 : Nat)).toNat
    if f = 0 then .num false 1 i false
    else .num false (exp2Fraction f / 2 ^ 64) (i - 192) true

def exp2Val (a : Val) : Val × Flags :=
  match a with
  | .nan src sn => (.nan src false, if sn then fNV else 0#6)
  | .inf s => if s then (.zero false, 0#6) else (.inf false, 0#6)
  | .num s m e _ => if m = 0 then (.num false 1 0 false, 0#6) else (exp2Num s m e, 0#6)

/-- n binary digits of log2 y for y in [1, 2), y in units of 2^−400. -/
def log2Digits : Nat → Nat → Nat → Nat
  | 0, _, acc => acc
  | n + 1, y, acc =>
    let z := y * y / 2 ^ 400
    if 2 ^ 401 ≤ z then log2Digits n (z / 2) (2 * acc + 1) else log2Digits n z (2 * acc)

/-- log2 of m × 2^e for m > 0: exact for a power of two only. -/
def log2Num (m : Nat) (e : Int) : Val :=
  let l := Nat.log2 m
  let i := (l : Int) + e
  if m = 2 ^ l then .ofInt i
  else
    let t := log2Digits 160 (m * 2 ^ 400 / 2 ^ l) 0
    if 0 ≤ i then .num false (i.toNat * 2 ^ 160 + t) (-160) true
    else .num true ((-i).toNat * 2 ^ 160 - t - 1) (-160) true

def log2Val (a : Val) : Val × Flags :=
  match a with
  | .nan src sn => (.nan src false, if sn then fNV else 0#6)
  | .inf s => if s then (.nan none false, fNV) else (.inf false, 0#6)
  | .num s m e _ =>
    if m = 0 then (.inf true, fDZ) else if s then (.nan none false, fNV) else (log2Num m e, 0#6)

/-! ## Comparisons (R113, R118, R120) -/

/-- The order of two finite values: −1, 0 or 1; −0 equals +0. -/
def cmpNum (s1 : Bool) (m1 : Nat) (e1 : Int) (s2 : Bool) (m2 : Nat) (e2 : Int) : Int :=
  let e := min e1 e2
  let a : Int := m1 * 2 ^ (e1 - e).toNat
  let b : Int := m2 * 2 ^ (e2 - e).toNat
  let x := if s1 then -a else a
  let y := if s2 then -b else b
  if x < y then -1 else if x = y then 0 else 1

/-- The order of two values that are not NaN. -/
def cmpVal (a b : Val) : Int :=
  match a, b with
  | .inf s, .inf t => if s = t then 0 else if s then -1 else 1
  | .inf s, _ => if s then -1 else 1
  | _, .inf t => if t then 1 else -1
  | .num s1 m1 e1 _, .num s2 m2 e2 _ => cmpNum s1 m1 e1 s2 m2 e2
  | _, _ => 0

/-- minimumNumber and maximumNumber (R118): −0 orders below +0. -/
def minMaxVal (isMax : Bool) (a b : Val) : Val × Flags :=
  let fl := snanFlag [a, b]
  if a.isNan && b.isNan then (firstNan [a, b], fl)
  else if a.isNan then (b, fl)
  else if b.isNan then (a, fl)
  else
    let c := cmpVal a b
    let aLess := decide (c < 0) || (c == 0 && a.neg)
    (if aLess != isMax then a else b, fl)

/-! ## Encoding to any register format -/

/-- The significand precision of a format, the implicit bit included (R119). -/
def Fmt.prec (f : Fmt) : Nat := f.mbits + 1

/-- An exact value encoded to a format: floating by Round, integer by the conversion rules (R123); exactInt says that
the source is an integer format, so that an integer destination wraps or clamps. -/
def encodeVal (f : Fmt) (c : EncMode) (exactInt : Bool) (v : Val) : Nat × Flags :=
  match f with
  | .int s w =>
    if exactInt then
      match v with
      | .num neg m e more =>
        let r := roundInt c.rm neg m e more
        let t := encodeInt s w c.sat r.1
        (t.1, t.2 ||| (if r.2 then fNX else 0#6))
      | _ => (0, 0#6)
    else floatToInt s w c.rm v
  | .i4 => if exactInt then
      match v with
      | .num neg m e more =>
        let r := roundInt c.rm neg m e more
        let t := encodeInt true 4 c.sat r.1
        (t.1, t.2 ||| (if r.2 then fNX else 0#6))
      | _ => (0, 0#6)
    else floatToInt true 4 c.rm v
  | .n4 => if exactInt then
      match v with
      | .num neg m e more =>
        let r := roundInt c.rm neg m e more
        let t := encodeInt false 4 c.sat r.1
        (t.1, t.2 ||| (if r.2 then fNX else 0#6))
      | _ => (0, 0#6)
    else floatToInt false 4 c.rm v
  | g => encodeFloat g g.prec c v

end Sys2Proof.Machine
end

