-- ==== Sys2Proof/Syntax.lean ====
section
/-! DEFINITION. The syntax of one step: the 32-bit instructions, the 64-bit W instructions and the device's own
events, one constructor of `Instr` per row of spec/opcode_table.json. -/

namespace Sys2Proof

/-- The raw fields of a W instruction beside its group and operation (R70). -/
structure WWord where
  aux9 : BitVec 9
  sat  : BitVec 1
  rm   : BitVec 3
  lqv  : BitVec 1
  em   : BitVec 1
  pe   : BitVec 4
  pg   : BitVec 4
  xp   : Reg
  vs3  : Reg
  vs2  : Reg
  vs1  : Reg
  vd   : Reg
  deriving DecidableEq, Repr

/-- A cluster's place: die 0 to 3, cluster 0 to 47 of the die (R23). -/
structure ClusterId where
  die     : Nat
  cluster : Nat
  deriving DecidableEq, Repr

/-- A core's place: core 0 to 7 of its cluster (R23). -/
structure CoreId where
  die     : Nat
  cluster : Nat
  core    : Nat
  deriving DecidableEq, Repr

/-- A compute hart's place: hart 0 to 7 of its core (R23). -/
structure HartId where
  die     : Nat
  cluster : Nat
  core    : Nat
  hart    : Nat
  deriving DecidableEq, Repr

/-- The kinds of graphics agent (R312). -/
inductive AgentKind where
  | distributor | rasteriser | blend
  deriving DecidableEq, Repr

/-- A graphics agent of a die: its kind and its index among that kind (R312). -/
structure AgentId where
  die   : Nat
  kind  : AgentKind
  index : Nat
  deriving DecidableEq, Repr

/-- One arrival at a channel (R164): its kind as hinfo names it (R167), what it came from (the ring, graph or wake
line that a later arrival must match; none for an HSEND), its length and its 64-byte record. -/
structure Arrival where
  chan   : Nat
  kind   : Nat
  source : Option Nat
  len    : Nat
  record : List Byte
  deriving DecidableEq, Repr

/-- What a peer device asks of this device's home (R400, R401). op, v and w name an atomic as this device's own requests
to a peer do. -/
inductive PeerRequest where
  | read  (offset size : Nat)
  | write (offset : Nat) (data : List Byte)
  | amo   (offset size op : Nat) (v w : Word)
  deriving DecidableEq, Repr

/-- The registers with no behaviour of their own that a Lantern, the host or a peer writes (R3), and the Lantern
firmware's tables of address spaces (R155, R255) and launch rings (R233): the events REGISTER_WRITE name them. -/
inductive DeviceReg where
  | bankctl (c : ClusterId)
  | pcsel (c : ClusterId)
  | pcidx (c : ClusterId)
  | pcctl (c : ClusterId)
  | budsel (c : ClusterId)
  | sdva (c : ClusterId)
  | sdcw (c : ClusterId)
  | mtimeout (c : ClusterId)
  | dxctl (c : ClusterId)
  | dxsel (c : ClusterId)
  | ageLimit (die : Nat)
  | placementMask (die : Nat) (high : Bool)
  | agent (a : AgentId) (offset : Nat)
  | hostbase
  | hsdva
  | hsdcw
  | devid
  | route (offset : Nat)
  | msixAddress (vector : Nat)
  | msixData (vector : Nat)
  | msixMask (vector : Nat)
  | spaceSatp (asid : Nat)
  | spaceSbase (asid : Nat)
  | spaceTrroute (asid : Nat)
  | launchRing (die ring asid : Nat)
  deriving DecidableEq, Repr

/-- What a measurement gives an attestation log entry (R432); index and chain are the log's own. -/
structure LogEntry where
  stage  : Nat
  status : Nat
  svn    : Nat
  digest : List Byte
  deriving DecidableEq, Repr

/-- The translation that mstatus.MPRV selects for a Lantern's own stores (R263): its satp, and the privilege of MPP with
SUM. -/
structure StoreView where
  satp : Word
  user : Bool
  sum  : Bool
  deriving DecidableEq, Repr

/-- A write of sdctl: the word, and the translation of the Lantern's stores if mstatus.MPRV selects one (R263). -/
structure SdctlWrite where
  word : Word
  view : Option StoreView
  deriving DecidableEq, Repr

/-- A boundary at which a hart takes a trap, and whether an uncorrectable error in its storage has been found there (R364,
R382). -/
structure TrapPoint where
  hart  : HartId
  error : Bool
  deriving DecidableEq, Repr

/-- One step of the device: an instruction of a compute hart or an event of the device itself (95). -/
inductive Instr where
  /-- DELTA_DRAIN: Writes the pending batch into free slots as one commit, once room exists, and notifies. (R340) -/
  | deltaDrain (ring : Nat)
  /-- QUIET_SET: The detector sets quiet and advances epoch after the graph's in-flight count reaches zero. (R349) -/
  | quietSet (asid graph : Nat)
  /-- COPY_HAND_OVER: A copy command dispatches to the copy engine as a release at cluster scope, after older accesses are performed. (R271) -/
  | copyHandOver (h : HartId)
  /-- COPY_COMPLETION: A finished copy command performs its writes, then its completion word, slot commit and notify. (R279) -/
  | copyCompletion (h : HartId) (n : Nat)
  /-- COLLECTIVE_USE_COMPLETE: A drained group use clears busy and advances uses once every packet and completion is done. (R287) -/
  | collectiveUseComplete (die : Nat) (group : Nat)
  /-- TRANSACTION_WAKE: A write to a marked line wakes the sleeping hart, or delivers a kind 3 arrival for a handler. (R211) -/
  | transactionWake (h : HartId) (line : Nat)
  /-- CHANNEL_ARRIVAL: An arrival is recorded in a slot of the channel's context, merged, or counted as overflow. (R164) -/
  | channelArrival (c : CoreId) (a : Arrival)
  /-- HANDLER_RUN_START: A dormant context with pending arrivals starts a run on its highest-priority channel. (R166) -/
  | handlerRunStart (h : HartId)
  /-- PLACE: The placement unit places gangs from its queues when resources free or an entry arrives. (R174) -/
  | place (die : Nat)
  /-- LAUNCH_RING_SERVICE: On a beacon or notify the launch unit reads committed packets, checks and queues them, and releases the slots. (R233) -/
  | launchRingService (die ring : Nat)
  /-- GANG_COMPLETION: When a gang's threads have ended its resources are released and completion records are written. (R159) -/
  | gangCompletion (gang : Nat)
  /-- DONE_RECORD_DRAIN: A held completion record is written once the done ring has a free slot. (R159) -/
  | doneRecordDrain (die : Nat)
  /-- RING_SERVICE_RESUME: The Lantern resumes a hart parked by RRES.t once the descriptor line is written. (R232) -/
  | ringServiceResume (h : HartId)
  /-- SHOOTDOWN_ACKNOWLEDGE: A core, cluster TLB or walker pool acknowledges once its covered translations and accesses are gone. (R264) -/
  | shootdownAcknowledge (unit : Nat) (party : Nat)
  /-- SHOOTDOWN_COMPLETE: With every acknowledgement in, the unit sets st and stores the completion word. (R263) -/
  | shootdownComplete (unit : Nat)
  /-- CONTAIN: Ends the launch of the selected hart without saving its state. (R383) -/
  | contain (c : ClusterId)
  /-- DRAW_RECORD: The mesh distributor turns a draw record into mesh-task records with attached batch reservations. (R318) -/
  | drawRecord (agent : AgentId)
  /-- BATCH_RECORD: A rasteriser rasterises a batch's primitives into fragment block records. (R320) -/
  | batchRecord (agent : AgentId)
  /-- BLEND_RECORD: The blend unit applies a blend record's pixels to the render target and releases the slot. (R323) -/
  | blendRecord (agent : AgentId)
  /-- AGENT_RING_SPACE: An agent that held its record for want of output space continues once space appears. (R316) -/
  | agentRingSpace (agent : AgentId)
  /-- AGENT_BEACON: A beacon register write wakes an idle agent to read its input ring. (R315) -/
  | agentBeacon (agent : AgentId)
  /-- ELEMENT_TRAIN: A destination performs a VSTR train segment at its homes in order and acknowledges it. (R402) -/
  | elementTrain (h : HartId)
  /-- TRAIN_ACKNOWLEDGEMENT: A destination's acknowledgement arrives, and VSTR completes when all have. (R187) -/
  | trainAcknowledgement (h : HartId)
  /-- WARM_RESET: A reset that keeps HBM contents, started by resetctl.warm, a freeze or an escalated lockstep mismatch. (R429) -/
  | warmReset
  /-- CORE_FREEZE: Stops a single core's harts and contains its launches. (R435) -/
  | coreFreeze (c : CoreId)
  /-- PEER_RESPONSE: A peer's home acknowledges a peer-window write or returns a peer-window read, making it performed at system scope. (R401) -/
  | peerResponse (id : Nat) (data : List Byte)
  /-- HOST_READ_COMPLETION: A PCI Express completion returns the data of a device read of the host window, including the zero-length read that a system-scope release waits for. (R408) -/
  | hostReadCompletion (id : Nat) (data : List Byte)
  /-- LANTERN_INTERRUPT: A Lantern hart takes a machine-mode interrupt for a parked trap, an agent error, a link-down, a machine check or a launch-unit report. (R371) -/
  | lanternInterrupt (c : ClusterId) (cause : Word)
  /-- STREAM_RUN_AHEAD: A load stream performs element loads ahead of the consuming instruction. (R150) -/
  | streamRunAhead (h : HartId) (st : BitVec 4)
  /-- STREAM_STORE_PERFORM: A store stream performs its appended elements to memory. (R152) -/
  | streamStorePerform (h : HartId) (st : BitVec 4)
  /-- ENQUEUE: A vector, matrix or copy instruction enters its queue and captures its operands. (R27) -/
  | enqueue (h : HartId)
  /-- OWNERSHIP_TIMEOUT: An MMAC's wait for operand slots exceeds mtimeout and faults. (R298) -/
  | ownershipTimeout (h : HartId)
  /-- EXPERIMENTAL_INSTRUCTION: Executes an encoding that the decode expansion table defines. (R75) -/
  | experimentalInstruction (grp : BitVec 3) (op : BitVec 6) (w : WWord)
  /-- GROUP_ENTRY_WRITE: A Lantern write to a multicast group entry, which completes joined CPYCs of an armed use with FORMAT. (R285) -/
  | groupEntryWrite (die : Nat) (group : Nat) (offset : Nat) (data : List Byte)
  /-- SUPERVISOR_TIMER_INTERRUPT: time reaches stimecmp and sets sip.STIP. (R13) -/
  | supervisorTimerInterrupt (h : HartId)
  /-- SSISET_WRITE: A Lantern write sets sip.SSIP of the named compute harts. (R13) -/
  | ssisetWrite (c : ClusterId) (v : Word)
  /-- TRAP_ENTRY: At a scalar boundary the hart stops its streams, detaches the frame, writes the trap CSRs and enters stvec or parks. (R364) -/
  | trapEntry (p : TrapPoint)
  /-- TRANSACTION_ABORT: An abort is delivered at a scalar boundary, restoring the checkpoint and jumping to the abort target. (R198) -/
  | transactionAbort (h : HartId)
  /-- TXDEADLINE_EXPIRY: A sleep's cycle bound runs out and the hart takes a TIMEOUT abort. (R211) -/
  | txdeadlineExpiry (h : HartId)
  /-- AGE_STEP: A candidate hart unselected for 4,096 cycles gains an age step. (R171) -/
  | ageStep (h : HartId)
  /-- TICK_BOUNDARY: At each tick the budget counters reset and pending budget writes take effect. (R172) -/
  | tickBoundary
  /-- FABRIC_SWEEP: In the last 256 cycles of a tick every router forwards flits along a fixed cycle. (R250) -/
  | fabricSweep (die : Nat)
  /-- RING_TABLE_WRITE: A store to a ring-table entry; a ctl write with loc 1 resets the slots' owner fields. (R218) -/
  | ringTableWrite (c : ClusterId) (offset : Nat) (data : List Byte)
  /-- BANKMODE_WRITE: A Lantern write requests bank mode switches and reports the outcome in bankctl. (R241) -/
  | bankmodeWrite (c : ClusterId) (v : Word)
  /-- SHOOTDOWN_ISSUE: A go write to sdctl issues a shootdown broadcast as a release at device scope. (R263) -/
  | shootdownIssue (c : ClusterId) (v : SdctlWrite)
  /-- SHOOTDOWN_TIMEOUT: An acknowledgement missing at the deadline completes the shootdown with TIMEOUT and a machine check. (R266) -/
  | shootdownTimeout (unit : Nat)
  /-- HOST_SHOOTDOWN_ISSUE: A host go write to hsdctl issues a device-reach shootdown. (R411) -/
  | hostShootdownIssue (v : Word)
  /-- PCDATA_WRITE: A Lantern write to a parked hart's selected register, frame word, slot-list or handler-table item. (R443) -/
  | pcdataWrite (c : ClusterId) (v : Word)
  /-- RESUME: Reattaches a parked hart's frame and continues it at the resume pc. (R372) -/
  | resume (c : ClusterId)
  /-- UPCALL: Delivers a parked trap to the hart's own S mode. (R374) -/
  | upcall (c : ClusterId)
  /-- STOP: Parks a running hart at its next scalar boundary. (R372) -/
  | stop (c : ClusterId)
  /-- AGENT_RESUME: Writing 1 to ctl.resume restarts a stalled agent at its current record. (R316) -/
  | agentResume (agent : AgentId)
  /-- AGENT_ENABLE: A write of ctl.enable starts or stops the agent. (R315) -/
  | agentEnable (agent : AgentId) (v : Word)
  /-- PEER_ACCESS: An inbound peer read, write or atomic is performed at this device's home. (R400) -/
  | peerAccess (a : PeerRequest)
  /-- LINK_DOWN: Retry fails for 2^20 cycles on every port to a destination, and outstanding requests are completed. (R403) -/
  | linkDown (device : Nat)
  /-- HOST_MEMORY_WRITE: A host write through BAR2 is performed at device scope as a release at system scope. (R408) -/
  | hostMemoryWrite (offset : Nat) (data : List Byte)
  /-- HOST_MEMORY_READ: A host read through BAR2 returns the home's value. (R408) -/
  | hostMemoryRead (offset size : Nat)
  /-- LAUNCH_BEACON_WRITE: A write to a launch beacon wakes the launch unit for that ring. (R406) -/
  | launchBeaconWrite (die ring : Nat) (v : Word)
  /-- HOST_BEACON_WRITE: A write to host beacon b stores the value and sends or pends MSI-X vector b. (R409) -/
  | hostBeaconWrite (beacon : Nat) (v : Word)
  /-- MSIX_UNMASK: Unmasking an MSI-X entry sends its pending message. (R409) -/
  | msixUnmask (vector : Nat)
  /-- BAR2CTL_WRITE: A write to bar2ctl sets the BAR2 base and skew, or is Ignored in full. (R407) -/
  | bar2ctlWrite (v : Word)
  /-- GET_VERSION: The root of trust answers with SPDM version 1.2. (R412) -/
  | getVersion (req : List Byte)
  /-- GET_CAPABILITIES: The root of trust answers with its SPDM capabilities. (R412) -/
  | getCapabilities (req : List Byte)
  /-- NEGOTIATE_ALGORITHMS: The root of trust negotiates Falcon-1024 over SHAKE256. (R412) -/
  | negotiateAlgorithms (req : List Byte)
  /-- GET_DIGESTS: The root of trust returns the digest of certificate slot 0. (R412) -/
  | getDigests (req : List Byte)
  /-- GET_CERTIFICATE: The root of trust returns the device identity chain. (R412) -/
  | getCertificate (req : List Byte)
  /-- CHALLENGE: The root of trust signs a challenge with the measurement summary. (R412) -/
  | challenge (req : List Byte)
  /-- GET_MEASUREMENTS: The root of trust returns one block per attestation log entry. (R412) -/
  | getMeasurements (req : List Byte)
  /-- UNSUPPORTED_REQUEST: Any other SPDM request is answered with ERROR, UnsupportedRequest. (R412) -/
  | unsupportedRequest (req : List Byte)
  /-- DOE_ABORT: A DOE abort discards the message in progress. (R412) -/
  | doeAbort
  /-- COLD_RESET: Power-good or fundamental reset returns every state to reset and runs the whole boot sequence. (R429) -/
  | coldReset
  /-- POWER_LIMIT_WRITE: The host sets the module power limit over I3C. (R433) -/
  | powerLimitWrite (watts : Nat)
  /-- CLOCK_STEP: Power above the limit or a junction above 95 °C steps the main clock down on every die together. (R433) -/
  | clockStep (up : Bool)
  /-- THERMAL_TRIP: A junction at 110 °C freezes the device and then warm-resets it. (R433) -/
  | thermalTrip
  /-- FREEZE: The FREEZE pin or the debug freeze command stops every clock within 8 cycles. (R435) -/
  | freeze
  /-- LOCKSTEP_MISMATCH: The Lantern pair's checker finds a mismatch, and the cluster is frozen and its launches contained. (R439) -/
  | lockstepMismatch (c : ClusterId)
  /-- DEBUG_HALT: The debug module halts a hart. (R440) -/
  | debugHalt (h : HartId)
  /-- ERRLOG_READ: Reading errlog returns the error counts and clears them. (R438) -/
  | errlogRead (c : ClusterId)
  /-- BUDVAL_WRITE: Sets the selected budget limit and slack, taking effect at the next tick. (R434) -/
  | budvalWrite (c : ClusterId) (v : Word)
  /-- FEATEN_WRITE: Clears enabled feature bits; it cannot set bits the fuses do not grant. (R420) -/
  | featenWrite (c : ClusterId) (v : Word)
  /-- DXENT_WRITE: Writes a decode expansion entry for an experimental combination, or sets st RESERVED. (R427) -/
  | dxentWrite (c : ClusterId) (v : Word)
  /-- REGISTER_WRITE: A write to a register with no behaviour of its own updates its RW fields. (R3) -/
  | registerWrite (r : DeviceReg) (v : Word)
  /-- PAUSE_EXPIRY: After 32 cycles the hart that executed PAUSE returns to issue selection. (R90) -/
  | pauseExpiry (h : HartId)
  /-- DEBUG_RESUME: The debug module resumes a halted hart under the RISC-V debug specification. (R440) -/
  | debugResume (h : HartId)
  /-- ATTESTATION_LOG_APPEND: A firmware stage asks the root of trust to append a measurement, which is refused with FULL at the 65th entry. (R432) -/
  | attestationLogAppend (entry : LogEntry)
  /-- SBIND: Performs pending store elements, then reads a stream descriptor into stN and resets its position. (R147) -/
  | sbind (st : BitVec 4) (rs1 : Reg)
  /-- SSET: Sets the base, position or palette of a bound stream. (R147) -/
  | sset (st : BitVec 4) (rs1 rs2 : Reg)
  /-- SFENCE: Discards a load stream's run-ahead, or completes a store stream's appended elements. (R147) -/
  | sfence (st : BitVec 4)
  /-- VBIND: Binds vector registers to the fields of a stream. (R147) -/
  | vbind (vm : Reg) (st : BitVec 4)
  /-- VUNBIND: Removes the binding that contains a vector register. (R147) -/
  | vunbind (vm : Reg)
  /-- CPYT: Enqueues a tensor copy command, conversion and relocation included. (R281) -/
  | cpyt (rs1 : Reg)
  /-- CPYG: Enqueues a gather or scatter copy driven by an index list. (R282) -/
  | cpyg (rs1 rs2 : Reg)
  /-- CPYC: Enqueues a multicast or reduction copy of a group use. (R286) -/
  | cpyc (rs1 : Reg)
  /-- MENA: Enables a tile in a mode and zeroes it. (R293) -/
  | mena (tile : BitVec 3) (mode : BitVec 2)
  /-- MDIS: Disables a tile and discards its contents. (R294) -/
  | mdis (tile : BitVec 3)
  /-- VADD: Adds integers element by element. (R111) -/
  | vadd (w : WWord)
  /-- VSUB: Subtracts integers element by element. (R111) -/
  | vsub (w : WWord)
  /-- VRSUB: Subtracts the first source from the second, element by element. (R111) -/
  | vrsub (w : WWord)
  /-- VMUL: Multiplies integers element by element. (R111) -/
  | vmul (w : WWord)
  /-- VMULH: Writes the high part of the integer products. (R111) -/
  | vmulh (w : WWord)
  /-- VMADD: Writes a × b + c for integer elements. (R111) -/
  | vmadd (w : WWord)
  /-- VDIV: Divides integers, truncating toward zero. (R112) -/
  | vdiv (w : WWord)
  /-- VREM: Writes the integer remainders. (R112) -/
  | vrem (w : WWord)
  /-- VMIN: Writes the smaller exact integer of each pair. (R111) -/
  | vmin (w : WWord)
  /-- VMAX: Writes the larger exact integer of each pair. (R111) -/
  | vmax (w : WWord)
  /-- VAND: ANDs the element bit patterns. (R111) -/
  | vand (w : WWord)
  /-- VOR: ORs the element bit patterns. (R111) -/
  | vor (w : WWord)
  /-- VXOR: XORs the element bit patterns. (R111) -/
  | vxor (w : WWord)
  /-- VSHL: Shifts integer elements left. (R111) -/
  | vshl (w : WWord)
  /-- VSHR: Shifts integer elements right. (R111) -/
  | vshr (w : WWord)
  /-- VABSD: Writes the absolute differences of integer elements. (R111) -/
  | vabsd (w : WWord)
  /-- VCMP: Compares integer elements into a predicate register. (R113) -/
  | vcmp (w : WWord)
  /-- VIDX: Writes an index sequence base + i × b. (R114) -/
  | vidx (w : WWord)
  /-- VNSHR: Narrows double-width integers by a rounding right shift. (R115) -/
  | vnshr (w : WWord)
  /-- VFADD: Adds floating-point elements. (R116) -/
  | vfadd (w : WWord)
  /-- VFSUB: Subtracts floating-point elements. (R116) -/
  | vfsub (w : WWord)
  /-- VFMUL: Multiplies floating-point elements. (R116) -/
  | vfmul (w : WWord)
  /-- VFDIV: Divides floating-point elements. (R116) -/
  | vfdiv (w : WWord)
  /-- VFSQRT: Takes the square root of floating-point elements. (R116) -/
  | vfsqrt (w : WWord)
  /-- VFMA: Computes a fused multiply-add, in one of four sign forms. (R117) -/
  | vfma (w : WWord)
  /-- VFMIN: Writes minimumNumber of each pair. (R118) -/
  | vfmin (w : WWord)
  /-- VFMAX: Writes maximumNumber of each pair. (R118) -/
  | vfmax (w : WWord)
  /-- VFRCP: Writes reciprocal estimates. (R119) -/
  | vfrcp (w : WWord)
  /-- VFRSQ: Writes reciprocal square-root estimates. (R119) -/
  | vfrsq (w : WWord)
  /-- VFEXP2: Writes 2^a estimates. (R119) -/
  | vfexp2 (w : WWord)
  /-- VFLOG2: Writes log2 estimates. (R119) -/
  | vflog2 (w : WWord)
  /-- VFCMP: Compares floating-point elements into a predicate register. (R120) -/
  | vfcmp (w : WWord)
  /-- VFCLASS: Writes the class number of each floating-point pattern. (R121) -/
  | vfclass (w : WWord)
  /-- VFSGN: Injects a new sign bit into each element. (R122) -/
  | vfsgn (w : WWord)
  /-- VCVT: Converts elements from fa to fd. (R123) -/
  | vcvt (w : WWord)
  /-- VSLUP: Slides elements up by n. (R126) -/
  | vslup (w : WWord)
  /-- VSLDN: Slides elements down by n. (R126) -/
  | vsldn (w : WWord)
  /-- VGATHR: Gathers elements by index within the register. (R126) -/
  | vgathr (w : WWord)
  /-- VCOMPR: Packs the active elements to the low end. (R126) -/
  | vcompr (w : WWord)
  /-- VEXPND: Expands low elements into the active positions. (R126) -/
  | vexpnd (w : WWord)
  /-- VSEL: Selects between two sources under a predicate. (R126) -/
  | vsel (w : WWord)
  /-- VBCAST: Broadcasts a value to the active elements. (R126) -/
  | vbcast (w : WWord)
  /-- VMVX: Copies one element into an x register once the vector stream produces it. (R127) -/
  | vmvx (w : WWord)
  /-- VMVQ: Appends one element to q4 to q7. (R127) -/
  | vmvq (w : WWord)
  /-- VPLOG: Applies a two-input truth table to predicates. (R128) -/
  | vplog (w : WWord)
  /-- VPCNT: Counts set active predicate bits into lq or a q register. (R129) -/
  | vpcnt (w : WWord)
  /-- VPFIRST: Writes a predicate that marks positions before, up to or at the first set bit. (R130) -/
  | vpfirst (w : WWord)
  /-- VPSCAN: Writes the prefix counts of set predicate bits. (R131) -/
  | vpscan (w : WWord)
  /-- VPSET: Sets the predicate bits below n. (R132) -/
  | vpset (w : WWord)
  /-- VMPUSH: Pushes a mask-stack entry narrowed by a predicate. (R137) -/
  | vmpush (w : WWord)
  /-- VMELSE: Replaces the top branch mask with the saved mask minus the condition. (R137) -/
  | vmelse (w : WWord)
  /-- VMPOP: Pops the mask stack. (R137) -/
  | vmpop (w : WWord)
  /-- VREDI: Reduces integer elements into element 0. (R133) -/
  | vredi (w : WWord)
  /-- VREDF: Reduces floating-point elements, by tree or ordered fold, into element 0. (R134) -/
  | vredf (w : WWord)
  /-- VQUAD: Swaps, broadcasts or differentiates within quads of four elements. (R135) -/
  | vquad (w : WWord)
  /-- VLD: Loads packed elements with conversion. (R142) -/
  | vld (w : WWord)
  /-- VST: Stores packed elements with conversion. (R142) -/
  | vst (w : WWord)
  /-- VLDS: Loads strided elements. (R142) -/
  | vlds (w : WWord)
  /-- VSTS: Stores strided elements. (R142) -/
  | vsts (w : WWord)
  /-- VLDX: Loads indexed elements. (R142) -/
  | vldx (w : WWord)
  /-- VSTX: Stores indexed elements. (R142) -/
  | vstx (w : WWord)
  /-- VLSEG: Loads records of 1 to 4 fields into consecutive registers. (R142) -/
  | vlseg (w : WWord)
  /-- VSSEG: Stores records of 1 to 4 fields from consecutive registers. (R142) -/
  | vsseg (w : WWord)
  /-- VAMO: Performs an atomic read-modify-write for each active element. (R186) -/
  | vamo (w : WWord)
  /-- VSTR: Sends element trains to each destination home and completes when all are acknowledged. (R187) -/
  | vstr (w : WWord)
  /-- VWACC: Accumulates elements into the accumulation window's private copies. (R192) -/
  | vwacc (w : WWord)
  /-- VPRF: Prefetches lines towards the level its scope chooses. (R144) -/
  | vprf (w : WWord)
  /-- MZERO: Zeroes a tile and starts its check state. (R305) -/
  | mzero (w : WWord)
  /-- MMAC: Takes operand groups from FIFO rings and applies one rank update to a tile. (R302) -/
  | mmac (w : WWord)
  /-- MMACV: Adds the outer product of two vector registers to a tile. (R304) -/
  | mmacv (w : WWord)
  /-- MSLCO: Moves a tile row or column into a vector register. (R306) -/
  | mslco (w : WWord)
  /-- MSLCI: Moves a vector register into a tile row or column. (R306) -/
  | mslci (w : WWord)
  /-- MLDT: Loads tile rows from scratch. (R307) -/
  | mldt (w : WWord)
  /-- MSTT: Stores tile rows to scratch. (R307) -/
  | mstt (w : WWord)
  /-- MSCAL: Scales tile rows or columns by vector elements. (R308) -/
  | mscal (w : WWord)
  /-- VTEX: Samples a texture with implicit level of detail. (R328) -/
  | vtex (w : WWord)
  /-- VTEXG: Samples a texture with explicit gradients. (R328) -/
  | vtexg (w : WWord)
  /-- VTEXQ: Gathers one channel of the four bilinear texels. (R328) -/
  | vtexq (w : WWord)
  /-- VTEXS: Samples a texture at an explicit level. (R328) -/
  | vtexs (w : WWord)
  /-- VINTP: Interpolates attributes, depth or barycentrics from a fragment record. (R331) -/
  | vintp (w : WWord)
  /-- VRAYI: Initialises ray queries. (R333) -/
  | vrayi (w : WWord)
  /-- VRAYT: Traverses the BVH until a candidate, the end, or the visit limit. (R333) -/
  | vrayt (w : WWord)
  /-- VRAYC: Commits the pending candidate hit. (R333) -/
  | vrayc (w : WWord)
  /-- VRAYA: Reads one field of the committed or candidate hit. (R333) -/
  | vraya (w : WWord)
  /-- DPUSH: Offers delta records to a ring's consolidation unit. (R353) -/
  | dpush (w : WWord)
  /-- DPOP: Acquires up to one batch of committed records into a record group. (R354) -/
  | dpop (w : WWord)
  /-- DSEAL: Seals the ring's open batch. (R355) -/
  | dseal (w : WWord)
  /-- DLOOK: Probes an arrangement for the first live record of each key. (R356) -/
  | dlook (w : WWord)
  /-- DNEXT: Continues a probe to the next live record of each key. (R356) -/
  | dnext (w : WWord)
  /-- DAPPLY: Adds records to an arrangement, creating live slots or tombstones. (R357) -/
  | dapply (w : WWord)
  /-- DSCAN: Scans an arrangement's live records from a position. (R358) -/
  | dscan (w : WWord)
  /-- DQSTAT: Reads a graph's quiet word with an acquire into a q register. (R359) -/
  | dqstat (w : WWord)
  /-- DBIND: Binds a ring or arrangement to a graph, or leaves a graph. (R360) -/
  | dbind (w : WWord)
  /-- CBO_INVAL: Acts on the 128-byte block as CBO.FLUSH does. (R254) -/
  | cboInval (rs1 : Reg)
  /-- CBO_CLEAN: Writes the block's dirty sectors to its home and keeps the copies. (R254) -/
  | cboClean (rs1 : Reg)
  /-- CBO_FLUSH: Writes the block's dirty sectors back, then drops the copies. (R254) -/
  | cboFlush (rs1 : Reg)
  /-- CBO_ZERO: Writes 128 zero bytes to the block. (R254) -/
  | cboZero (rs1 : Reg)
  /-- SC: Stores conditionally on the reservation, writes 0 or 1 to rd and clears the reservation. (R94) -/
  | sc (aq rl w : BitVec 1) (rd rs1 rs2 : Reg)
  /-- SFENCE_VMA: Drops the TLB entries of the hart's own core in S mode. (R12) -/
  | sfenceVma (rs1 rs2 : Reg)
  /-- CSRRW: Swaps a CSR with rs1, with the timing that the CSR's stream rule gives. (R19) -/
  | csrrw (csr : BitVec 12) (rd rs1 : Reg)
  /-- CSRRS: Reads a CSR and sets the bits given by rs1. (R19) -/
  | csrrs (csr : BitVec 12) (rd rs1 : Reg)
  /-- CSRRC: Reads a CSR and clears the bits given by rs1. (R19) -/
  | csrrc (csr : BitVec 12) (rd rs1 : Reg)
  /-- CSRRWI: Writes a 5-bit immediate to a CSR and reads its old value. (R19) -/
  | csrrwi (csr : BitVec 12) (rd uimm : Reg)
  /-- CSRRSI: Sets CSR bits from a 5-bit immediate. (R19) -/
  | csrrsi (csr : BitVec 12) (rd uimm : Reg)
  /-- CSRRCI: Clears CSR bits from a 5-bit immediate. (R19) -/
  | csrrci (csr : BitVec 12) (rd uimm : Reg)
  /-- VGRANT: Sets the element width and grant level, negotiating storage, once VQ and MQ are empty. (R97) -/
  | vgrant (rd : Reg) (level width : BitVec 2)
  /-- QPUSH: Appends an x register to q0 to q3, Held while the queue is full. (R102) -/
  | qpush (n rs1 : Reg)
  /-- QPOP: Removes the oldest entry of q4 to q7 into rd, Held while the queue is empty. (R102) -/
  | qpop (rd n : Reg)
  /-- HSEND: Sends a payload of 1 to 64 bytes to a channel's arrival area and records the outcome in hinfo. (R165) -/
  | hsend (rs1 rs2 : Reg)
  /-- TORELSE: Opens an alternative level with its own checkpoint and target. (R202) -/
  | torelse (off : BitVec 12)
  /-- OWNSET: Commits or releases the hart's entry for a FIFO slot named by address. (R288) -/
  | ownset (rs1 rs2 : Reg)
  /-- OWNTST: Reads a FIFO slot's owner field with an acquire at cluster scope. (R288) -/
  | owntst (rd rs1 : Reg)
  /-- XFSAVE: Writes the frame buffer as an image at xfbase and empties the buffer. (R376) -/
  | xfsave
  /-- XFLOAD: Checks a frame image at xfbase and loads it into the frame buffer. (R377) -/
  | xfload
  /-- LUI: Loads a 20-bit upper immediate into rd. (R89) -/
  | lui (rd : Reg) (imm : BitVec 20)
  /-- AUIPC: Adds a 20-bit upper immediate to pc and writes the sum to rd. (R89) -/
  | auipc (rd : Reg) (imm : BitVec 20)
  /-- JAL: Jumps pc-relative and writes the return address to rd. (R89) -/
  | jal (rd : Reg) (off : BitVec 20)
  /-- JALR: Jumps to rs1 plus an offset and writes the return address to rd. (R89) -/
  | jalr (rd rs1 : Reg) (imm : BitVec 12)
  /-- BEQ: Branches when rs1 equals rs2. (R89) -/
  | beq (rs1 rs2 : Reg) (off : BitVec 12)
  /-- BNE: Branches when rs1 differs from rs2. (R89) -/
  | bne (rs1 rs2 : Reg) (off : BitVec 12)
  /-- BLT: Branches when rs1 is below rs2 as signed values. (R89) -/
  | blt (rs1 rs2 : Reg) (off : BitVec 12)
  /-- BGE: Branches when rs1 is at least rs2 as signed values. (R89) -/
  | bge (rs1 rs2 : Reg) (off : BitVec 12)
  /-- BLTU: Branches when rs1 is below rs2 as unsigned values. (R89) -/
  | bltu (rs1 rs2 : Reg) (off : BitVec 12)
  /-- BGEU: Branches when rs1 is at least rs2 as unsigned values. (R89) -/
  | bgeu (rs1 rs2 : Reg) (off : BitVec 12)
  /-- LB: Loads a sign-extended byte. (R92) -/
  | lb (rd rs1 : Reg) (imm : BitVec 12)
  /-- LH: Loads a sign-extended halfword. (R92) -/
  | lh (rd rs1 : Reg) (imm : BitVec 12)
  /-- LW: Loads a sign-extended word. (R92) -/
  | lw (rd rs1 : Reg) (imm : BitVec 12)
  /-- LD: Loads a doubleword. (R92) -/
  | ld (rd rs1 : Reg) (imm : BitVec 12)
  /-- LBU: Loads a zero-extended byte. (R92) -/
  | lbu (rd rs1 : Reg) (imm : BitVec 12)
  /-- LHU: Loads a zero-extended halfword. (R92) -/
  | lhu (rd rs1 : Reg) (imm : BitVec 12)
  /-- LWU: Loads a zero-extended word. (R92) -/
  | lwu (rd rs1 : Reg) (imm : BitVec 12)
  /-- SB: Stores a byte. (R92) -/
  | sb (rs1 rs2 : Reg) (imm : BitVec 12)
  /-- SH: Stores a halfword. (R92) -/
  | sh (rs1 rs2 : Reg) (imm : BitVec 12)
  /-- SW: Stores a word. (R92) -/
  | sw (rs1 rs2 : Reg) (imm : BitVec 12)
  /-- SD: Stores a doubleword. (R92) -/
  | sd (rs1 rs2 : Reg) (imm : BitVec 12)
  /-- ADDI: Adds a sign-extended immediate to rs1. (R89) -/
  | addi (rd rs1 : Reg) (imm : BitVec 12)
  /-- SLTI: Sets rd when rs1 is below the immediate as signed values. (R89) -/
  | slti (rd rs1 : Reg) (imm : BitVec 12)
  /-- SLTIU: Sets rd when rs1 is below the immediate as unsigned values. (R89) -/
  | sltiu (rd rs1 : Reg) (imm : BitVec 12)
  /-- XORI: XORs rs1 with the immediate. (R89) -/
  | xori (rd rs1 : Reg) (imm : BitVec 12)
  /-- ORI: ORs rs1 with the immediate. (R89) -/
  | ori (rd rs1 : Reg) (imm : BitVec 12)
  /-- ANDI: ANDs rs1 with the immediate. (R89) -/
  | andi (rd rs1 : Reg) (imm : BitVec 12)
  /-- SLLI: Shifts rs1 left by an immediate amount. (R89) -/
  | slli (rd rs1 : Reg) (shamt : BitVec 6)
  /-- SRLI: Shifts rs1 right logically by an immediate amount. (R89) -/
  | srli (rd rs1 : Reg) (shamt : BitVec 6)
  /-- SRAI: Shifts rs1 right arithmetically by an immediate amount. (R89) -/
  | srai (rd rs1 : Reg) (shamt : BitVec 6)
  /-- RORI: Rotates rs1 right by an immediate amount. (R89) -/
  | rori (rd rs1 : Reg) (shamt : BitVec 6)
  /-- CLZ: Counts the leading zero bits of rs1. (R89) -/
  | clz (rd rs1 : Reg)
  /-- CTZ: Counts the trailing zero bits of rs1. (R89) -/
  | ctz (rd rs1 : Reg)
  /-- CPOP: Counts the set bits of rs1. (R89) -/
  | cpop (rd rs1 : Reg)
  /-- SEXT_B: Sign-extends the low byte of rs1. (R89) -/
  | sextB (rd rs1 : Reg)
  /-- SEXT_H: Sign-extends the low halfword of rs1. (R89) -/
  | sextH (rd rs1 : Reg)
  /-- ORC_B: Sets each byte of rd to all ones when the matching byte of rs1 is non-zero. (R89) -/
  | orcB (rd rs1 : Reg)
  /-- REV8: Reverses the byte order of rs1. (R89) -/
  | rev8 (rd rs1 : Reg)
  /-- ADDIW: Adds an immediate to rs1 in 32 bits and sign-extends the result. (R89) -/
  | addiw (rd rs1 : Reg) (imm : BitVec 12)
  /-- SLLIW: Shifts left in 32 bits by an immediate amount. (R89) -/
  | slliw (rd rs1 : Reg) (shamt : BitVec 5)
  /-- SRLIW: Shifts right logically in 32 bits by an immediate amount. (R89) -/
  | srliw (rd rs1 : Reg) (shamt : BitVec 5)
  /-- SRAIW: Shifts right arithmetically in 32 bits by an immediate amount. (R89) -/
  | sraiw (rd rs1 : Reg) (shamt : BitVec 5)
  /-- RORIW: Rotates right in 32 bits by an immediate amount. (R89) -/
  | roriw (rd rs1 : Reg) (shamt : BitVec 5)
  /-- SLLI_UW: Shifts the zero-extended low word of rs1 left by an immediate amount. (R89) -/
  | slliUw (rd rs1 : Reg) (shamt : BitVec 6)
  /-- CLZW: Counts the leading zeros of the low word of rs1. (R89) -/
  | clzw (rd rs1 : Reg)
  /-- CTZW: Counts the trailing zeros of the low word of rs1. (R89) -/
  | ctzw (rd rs1 : Reg)
  /-- CPOPW: Counts the set bits of the low word of rs1. (R89) -/
  | cpopw (rd rs1 : Reg)
  /-- ADD: Adds rs1 and rs2. (R89) -/
  | add (rd rs1 rs2 : Reg)
  /-- SLL: Shifts rs1 left by rs2. (R89) -/
  | sll (rd rs1 rs2 : Reg)
  /-- SLT: Sets rd when rs1 is below rs2 as signed values. (R89) -/
  | slt (rd rs1 rs2 : Reg)
  /-- SLTU: Sets rd when rs1 is below rs2 as unsigned values. (R89) -/
  | sltu (rd rs1 rs2 : Reg)
  /-- XOR: XORs rs1 and rs2. (R89) -/
  | xor (rd rs1 rs2 : Reg)
  /-- SRL: Shifts rs1 right logically by rs2. (R89) -/
  | srl (rd rs1 rs2 : Reg)
  /-- OR: ORs rs1 and rs2. (R89) -/
  | or (rd rs1 rs2 : Reg)
  /-- AND: ANDs rs1 and rs2. (R89) -/
  | and (rd rs1 rs2 : Reg)
  /-- SUB: Subtracts rs2 from rs1. (R89) -/
  | sub (rd rs1 rs2 : Reg)
  /-- SRA: Shifts rs1 right arithmetically by rs2. (R89) -/
  | sra (rd rs1 rs2 : Reg)
  /-- XNOR: Writes the complement of rs1 XOR rs2. (R89) -/
  | xnor (rd rs1 rs2 : Reg)
  /-- ORN: ORs rs1 with the complement of rs2. (R89) -/
  | orn (rd rs1 rs2 : Reg)
  /-- ANDN: ANDs rs1 with the complement of rs2. (R89) -/
  | andn (rd rs1 rs2 : Reg)
  /-- MUL: Multiplies rs1 by rs2 and keeps the low 64 bits. (R89) -/
  | mul (rd rs1 rs2 : Reg)
  /-- MULH: Writes the high 64 bits of the signed product of rs1 and rs2. (R89) -/
  | mulh (rd rs1 rs2 : Reg)
  /-- MULHSU: Writes the high 64 bits of the product of signed rs1 and unsigned rs2. (R89) -/
  | mulhsu (rd rs1 rs2 : Reg)
  /-- MULHU: Writes the high 64 bits of the unsigned product of rs1 and rs2. (R89) -/
  | mulhu (rd rs1 rs2 : Reg)
  /-- DIV: Divides rs1 by rs2 as signed values, without trapping. (R89) -/
  | div (rd rs1 rs2 : Reg)
  /-- DIVU: Divides rs1 by rs2 as unsigned values, without trapping. (R89) -/
  | divu (rd rs1 rs2 : Reg)
  /-- REM: Writes the signed remainder of rs1 divided by rs2. (R89) -/
  | rem (rd rs1 rs2 : Reg)
  /-- REMU: Writes the unsigned remainder of rs1 divided by rs2. (R89) -/
  | remu (rd rs1 rs2 : Reg)
  /-- SH1ADD: Adds rs1 shifted left by 1 to rs2. (R89) -/
  | sh1add (rd rs1 rs2 : Reg)
  /-- SH2ADD: Adds rs1 shifted left by 2 to rs2. (R89) -/
  | sh2add (rd rs1 rs2 : Reg)
  /-- SH3ADD: Adds rs1 shifted left by 3 to rs2. (R89) -/
  | sh3add (rd rs1 rs2 : Reg)
  /-- MIN: Writes the signed minimum of rs1 and rs2. (R89) -/
  | min (rd rs1 rs2 : Reg)
  /-- MINU: Writes the unsigned minimum of rs1 and rs2. (R89) -/
  | minu (rd rs1 rs2 : Reg)
  /-- MAX: Writes the signed maximum of rs1 and rs2. (R89) -/
  | max (rd rs1 rs2 : Reg)
  /-- MAXU: Writes the unsigned maximum of rs1 and rs2. (R89) -/
  | maxu (rd rs1 rs2 : Reg)
  /-- ROL: Rotates rs1 left by rs2. (R89) -/
  | rol (rd rs1 rs2 : Reg)
  /-- ROR: Rotates rs1 right by rs2. (R89) -/
  | ror (rd rs1 rs2 : Reg)
  /-- CZERO_EQZ: Writes zero when rs2 is zero, and rs1 otherwise. (R89) -/
  | czeroEqz (rd rs1 rs2 : Reg)
  /-- CZERO_NEZ: Writes zero when rs2 is non-zero, and rs1 otherwise. (R89) -/
  | czeroNez (rd rs1 rs2 : Reg)
  /-- ADDW: Adds in 32 bits and sign-extends the result. (R89) -/
  | addw (rd rs1 rs2 : Reg)
  /-- SLLW: Shifts left in 32 bits. (R89) -/
  | sllw (rd rs1 rs2 : Reg)
  /-- SRLW: Shifts right logically in 32 bits. (R89) -/
  | srlw (rd rs1 rs2 : Reg)
  /-- SUBW: Subtracts in 32 bits and sign-extends the result. (R89) -/
  | subw (rd rs1 rs2 : Reg)
  /-- SRAW: Shifts right arithmetically in 32 bits. (R89) -/
  | sraw (rd rs1 rs2 : Reg)
  /-- MULW: Multiplies in 32 bits and sign-extends the result. (R89) -/
  | mulw (rd rs1 rs2 : Reg)
  /-- DIVW: Divides in 32 bits as signed values. (R89) -/
  | divw (rd rs1 rs2 : Reg)
  /-- DIVUW: Divides in 32 bits as unsigned values. (R89) -/
  | divuw (rd rs1 rs2 : Reg)
  /-- REMW: Takes the signed remainder in 32 bits. (R89) -/
  | remw (rd rs1 rs2 : Reg)
  /-- REMUW: Takes the unsigned remainder in 32 bits. (R89) -/
  | remuw (rd rs1 rs2 : Reg)
  /-- ADD_UW: Adds the zero-extended low word of rs1 to rs2. (R89) -/
  | addUw (rd rs1 rs2 : Reg)
  /-- ZEXT_H: Zero-extends the low halfword of rs1. (R89) -/
  | zextH (rd rs1 : Reg)
  /-- SH1ADD_UW: Adds the zero-extended low word of rs1, shifted left by 1, to rs2. (R89) -/
  | sh1addUw (rd rs1 rs2 : Reg)
  /-- SH2ADD_UW: Adds the zero-extended low word of rs1, shifted left by 2, to rs2. (R89) -/
  | sh2addUw (rd rs1 rs2 : Reg)
  /-- SH3ADD_UW: Adds the zero-extended low word of rs1, shifted left by 3, to rs2. (R89) -/
  | sh3addUw (rd rs1 rs2 : Reg)
  /-- ROLW: Rotates left in 32 bits. (R89) -/
  | rolw (rd rs1 rs2 : Reg)
  /-- RORW: Rotates right in 32 bits. (R89) -/
  | rorw (rd rs1 rs2 : Reg)
  /-- FENCE: Orders the hart's accesses of the predecessor set before those of the successor set, at system scope. (R91) -/
  | fence (fm pred succ : BitVec 4) (rs1 rd : Reg)
  /-- PAUSE: Removes the hart from issue selection for 32 cycles, then ends. (R90) -/
  | pause
  /-- FENCE_I: Waits until older stores are performed at core scope, then discards the fetch buffer and the core's L1 instruction cache lines. (R253) -/
  | fenceI (imm : BitVec 12) (rs1 rd : Reg)
  /-- LR: Loads a value and places a reservation on its 128-byte line. (R94) -/
  | lr (aq rl w : BitVec 1) (rd rs1 : Reg)
  /-- AMOSWAP: Atomically swaps memory with rs2 at the line's home. (R93) -/
  | amoswap (aq rl w : BitVec 1) (rd rs1 rs2 : Reg)
  /-- AMOADD: Atomically adds rs2 to memory. (R93) -/
  | amoadd (aq rl w : BitVec 1) (rd rs1 rs2 : Reg)
  /-- AMOXOR: Atomically XORs rs2 into memory. (R93) -/
  | amoxor (aq rl w : BitVec 1) (rd rs1 rs2 : Reg)
  /-- AMOAND: Atomically ANDs rs2 into memory. (R93) -/
  | amoand (aq rl w : BitVec 1) (rd rs1 rs2 : Reg)
  /-- AMOOR: Atomically ORs rs2 into memory. (R93) -/
  | amoor (aq rl w : BitVec 1) (rd rs1 rs2 : Reg)
  /-- AMOMIN: Atomically stores the signed minimum of memory and rs2. (R93) -/
  | amomin (aq rl w : BitVec 1) (rd rs1 rs2 : Reg)
  /-- AMOMAX: Atomically stores the signed maximum of memory and rs2. (R93) -/
  | amomax (aq rl w : BitVec 1) (rd rs1 rs2 : Reg)
  /-- AMOMINU: Atomically stores the unsigned minimum of memory and rs2. (R93) -/
  | amominu (aq rl w : BitVec 1) (rd rs1 rs2 : Reg)
  /-- AMOMAXU: Atomically stores the unsigned maximum of memory and rs2. (R93) -/
  | amomaxu (aq rl w : BitVec 1) (rd rs1 rs2 : Reg)
  /-- ECALL: Raises an environment-call trap. (R89) -/
  | ecall
  /-- EBREAK: Raises a breakpoint trap. (R89) -/
  | ebreak
  /-- SRET: Returns from S mode to sepc, first reattaching a non-empty frame buffer once VQ and MQ are empty. (R378) -/
  | sret
  /-- WFI: Executes as a no-op when mstatus.TW is 0. (R90) -/
  | wfi
  /-- QSTAT: Returns a snapshot of a queue's entry count. (R102) -/
  | qstat (rd n : Reg)
  /-- VDRAIN: Waits until every older vector and matrix instruction has completed. (R103) -/
  | vdrain
  /-- LQPOP: Removes the oldest lq entry into rd, Held while lq is empty. (R102) -/
  | lqpop (rd : Reg)
  /-- VSPTR: Sets the four pointer steps, zeroes vl and returns the old vsptr. (R99) -/
  | vsptr (rd rs1 : Reg)
  /-- VSTRIP: Advances the pointer registers by the finished strip, then sets vl for the next strip or leaves the loop. (R100) -/
  | vstrip (rs1 rs2 : Reg) (off : BitVec 12)
  /-- BPANY: Branches when some element below vl is set under the current mask, once older vector instructions complete. (R104) -/
  | bpany (p : BitVec 4) (off : BitVec 12)
  /-- BPALL: Branches when no active element below vl is clear. (R104) -/
  | bpall (p : BitVec 4) (off : BitVec 12)
  /-- BPNONE: Branches when no active element below vl is set. (R104) -/
  | bpnone (p : BitVec 4) (off : BitVec 12)
  /-- RRES: Reserves a producer slot on a ring and returns its address. (R224) -/
  | rres (scope : BitVec 3) (svc : BitVec 1) (rd rs1 : Reg)
  /-- RCOM: Commits the oldest reserved slot of the ring, optionally as end of stream, and advances the tail. (R224) -/
  | rcom (scope : BitVec 3) (eos : BitVec 1) (rs1 : Reg)
  /-- RACQ: Acquires the next committed slot of the ring for the consumer. (R225) -/
  | racq (scope : BitVec 3) (rd rs1 : Reg)
  /-- RREL: Releases the oldest acquired slot of the ring and advances the head. (R225) -/
  | rrel (scope : BitVec 3) (rs1 : Reg)
  /-- RPUSH: Reserves, fills with 8 bytes and commits a slot in one step. (R226) -/
  | rpush (scope : BitVec 3) (rs1 rs2 : Reg)
  /-- RPOP: Acquires, loads 8 bytes from and releases a slot in one step. (R226) -/
  | rpop (scope : BitVec 3) (rd rs1 : Reg)
  /-- RSTAT: Returns the ring's state word. (R227) -/
  | rstat (scope : BitVec 3) (rd rs1 : Reg)
  /-- RCLOSE: Closes the producer or consumer side of the ring. (R228) -/
  | rclose (scope : BitVec 3) (cons : BitVec 1) (rs1 : Reg)
  /-- RBEACON: Writes a value to the beacon that the ring's notify names. (R229) -/
  | rbeacon (scope : BitVec 3) (rs1 rs2 : Reg)
  /-- HBIND: Binds or unbinds a channel of the core's handler table. (R163) -/
  | hbind (rs1 rs2 : Reg)
  /-- HDONE: Waits for the queues and store streams, releases at device scope, retires the slot list, and ends the handler run or the thread. (R168) -/
  | hdone
  /-- PCLAIM: Claims a sub-panel from the dispenser, or queries the panel's strides or shape. (R161) -/
  | pclaim (rd rs1 rs2 : Reg)
  /-- TBEGIN: Opens a transaction level, taking a checkpoint and an acquire at the outermost level. (R202) -/
  | tbegin (rd : Reg) (off : BitVec 12)
  /-- TEND: Closes the innermost level, committing the transaction at level 1. (R202) -/
  | tend
  /-- TRETRY: Rolls back to the innermost alternative level, or discards the attempt and sleeps, restarts or ends the handler run. (R203) -/
  | tretry
  /-- TABORT: Aborts the transaction with cause EXPLICIT and the given code. (R204) -/
  | tabort (code : BitVec 5)
  /-- FENCE_S: Orders the predecessor set before the successor set at the named scope, cumulatively. (R179) -/
  | fenceS (scope : BitVec 3) (succ pred : BitVec 4)
  /-- AMOINCW: Atomically increments memory, wrapping to 0 at an unsigned bound. (R188) -/
  | amoincw (aq rl : BitVec 1) (scope : BitVec 3) (width : BitVec 2) (rd rs1 rs2 : Reg)
  /-- AMOADDB: Atomically adds to memory only when the sum stays within an unsigned bound. (R189) -/
  | amoaddb (width : BitVec 2) (rd rs1 rs2 rs3 : Reg)
  /-- AWOPEN: Opens an accumulation window with private per-lane copies. (R191) -/
  | awopen (rs1 rs2 : Reg)
  /-- AWMERGE: Folds the window's touched copies into memory with atomic updates. (R193) -/
  | awmerge (scope : BitVec 3)
  /-- AWCLOSE: Discards the window's copies and closes the window. (R194) -/
  | awclose
  deriving DecidableEq, Repr

end Sys2Proof
end

