-- ==== Sys2Proof/WellFormed.lean ====
section
/-! DEFINITION. Well-formedness: the decode-time checks that fields of the syntax must pass (03 R64 to R69, R71 to
R73, and the field tables of the chapters that own each instruction), and the ranges of an event's operands. -/

namespace Sys2Proof

/-! ## Fields of a W instruction -/

/-- R54, R73: em names a predicate other than p0, and pe is 0 without em. -/
def WWord.emOk (w : WWord) : Bool := (w.em == 1#1) == (w.pe != 0#4)

/-- R70: the rounding modes 101 and 110 are Illegal at decode. -/
def WWord.rmOk (w : WWord) : Bool := w.rm != 5#3 && w.rm != 6#3

/-- An instruction that does not round (R73). -/
def WWord.rm0 (w : WWord) : Bool := w.rm == 0#3

def WWord.sat0 (w : WWord) : Bool := w.sat == 0#1
def WWord.lqv0 (w : WWord) : Bool := w.lqv == 0#1
def WWord.em0 (w : WWord) : Bool := w.em == 0#1 && w.pe == 0#4
def WWord.pg0 (w : WWord) : Bool := w.pg == 0#4
def WWord.xp0 (w : WWord) : Bool := w.xp == 0#5
def WWord.vs3z (w : WWord) : Bool := w.vs3 == 0#5
def WWord.vs2z (w : WWord) : Bool := w.vs2 == 0#5
def WWord.vs1z (w : WWord) : Bool := w.vs1 == 0#5
def WWord.vdz (w : WWord) : Bool := w.vd == 0#5
def WWord.auxz (w : WWord) : Bool := w.aux9 == 0#9

/-- The second operand's kind: aux9[1:0] (R71). -/
def WWord.kind (w : WWord) : Nat := (w.aux9.extractLsb' 0 2).toNat

/-- aux9[8:2]. -/
def WWord.auxHigh (w : WWord) : BitVec 7 := w.aux9.extractLsb' 2 7

/-- A register field that names a predicate: bit 4 clear (R124). -/
def predOk (r : Reg) : Bool := r < 16#5

/-- A predicate destination: p0 cannot be written (R113, R124). -/
def predDest (r : Reg) : Bool := predOk r && r != 0#5

/-- A tile field: bits [4:3] clear (R296). -/
def tileOk (r : Reg) : Bool := r < 8#5

/-- The second operand of R71 with aux9[8:2] unused beside kind 11. -/
def WWord.operandOk (w : WWord) : Bool :=
  match w.kind with
  | 0 | 1 => w.auxHigh == 0#7
  | 2 => w.auxHigh == 0#7 && w.vs2 < 4#5
  | _ => w.vs2 == 0#5

/-- As `operandOk`, for an instruction that assigns aux9[3:2] itself and takes no immediate (R117, R122). -/
def WWord.operandModOk (w : WWord) : Bool :=
  (w.aux9.extractLsb' 4 5) == 0#5 && w.kind != 3 && (w.kind != 2 || w.vs2 < 4#5)

/-- The second operand is one of the kinds named (R124). -/
def WWord.kinds (w : WWord) (ks : List Nat) : Bool := ks.contains w.kind && w.operandOk

/-- No second operand: aux9 and vs2 are 0 (R71). -/
def WWord.noOperand (w : WWord) : Bool := w.auxz && w.vs2z

/-- A group of n consecutive registers from r stays within v31 (R140, R327, R352). -/
def groupOk (r : Reg) (n : Nat) : Bool := r.toNat + n ≤ 32

/-! ## Group 3: the memory modifiers of R72 -/

def WWord.scope (w : WWord) : BitVec 3 := w.aux9.extractLsb' 0 3
def WWord.order (w : WWord) : BitVec 2 := w.aux9.extractLsb' 3 2
def WWord.sc (w : WWord) : BitVec 1 := w.aux9.extractLsb' 5 1
def WWord.ord (w : WWord) : BitVec 1 := w.aux9.extractLsb' 6 1
def WWord.fields (w : WWord) : Nat := (w.aux9.extractLsb' 7 2).toNat + 1

/-- A scope code is 0 to 5 (R69, R72). -/
def scopeOk (s : BitVec 3) : Bool := s < 6#3

def WWord.noFields (w : WWord) : Bool := w.fields == 1
def WWord.ord0 (w : WWord) : Bool := w.ord == 0#1
def WWord.sc0 (w : WWord) : Bool := w.sc == 0#1

/-- R185: a .sc access has scope .dev, no order and no .ord. -/
def WWord.scOk (w : WWord) : Bool := w.sc0 || (w.scope == 4#3 && w.order == 0#2 && w.ord0)

/-- Loads accept order none or acquire (R141). -/
def WWord.loadOrder (w : WWord) : Bool := scopeOk w.scope && w.order < 2#2

/-- Stores accept order none or release (R141). -/
def WWord.storeOrder (w : WWord) : Bool := scopeOk w.scope && (w.order == 0#2 || w.order == 2#2)

/-! ## The checks of each W instruction (R73) -/

namespace WWord

/-- Common to every instruction that rounds, saturates and may write an exception mask. -/
def rounds (w : WWord) : Bool := w.rmOk && w.emOk

/-- Integer arithmetic of R111: rm 0, vs3 unused. -/
def intBinary (w : WWord) : Bool := w.rm0 && w.emOk && w.operandOk && w.vs3z

/-- Logic of R111: also sat 0. -/
def intLogic (w : WWord) : Bool := w.intBinary && w.sat0

def intMadd (w : WWord) : Bool := w.rm0 && w.emOk && w.operandOk

/-- R113: vs3[2:0] is 0 to 5, the destination a predicate other than p0. -/
def intCompare (w : WWord) : Bool := w.rm0 && w.sat0 && w.emOk && w.operandOk && w.vs3 < 6#5 && predDest w.vd

/-- R115. -/
def intNarrow (w : WWord) : Bool := w.rounds && w.operandOk && w.vs3z

def fpBinary (w : WWord) : Bool := w.rounds && w.operandOk && w.vs3z
def fpUnary (w : WWord) : Bool := w.rounds && w.noOperand && w.vs3z

/-- R117: aux9[3:2] are the signs, and an immediate is Illegal. -/
def fpMadd (w : WWord) : Bool := w.rounds && w.operandModOk

/-- R120. -/
def fpCompare (w : WWord) : Bool := w.rm0 && w.sat0 && w.emOk && w.operandOk && w.vs3 < 8#5 && predDest w.vd

/-- R121. -/
def fpClass (w : WWord) : Bool := w.rm0 && w.sat0 && w.emOk && w.noOperand && w.vs3z

/-- R122: aux9[3:2] = 11 is Illegal. -/
def fpSign (w : WWord) : Bool :=
  w.rm0 && w.sat0 && w.emOk && w.operandModOk && w.vs3z && w.aux9.extractLsb' 2 2 != 3#2

/-- An element move of group 2: no palette, no rounding, no exception mask (R124). -/
def move (w : WWord) : Bool := w.rm0 && w.sat0 && w.em0 && w.xp0

/-- An instruction of group 2 that ignores vl and pg (R124). -/
def whole (w : WWord) : Bool := w.move && w.lqv0 && w.pg0

def slide (w : WWord) : Bool := w.move && w.kinds [1, 2, 3] && w.vs3z
def gather (w : WWord) : Bool := w.move && w.operandOk && w.vs3z
def pack (w : WWord) : Bool := w.move && w.noOperand && w.vs3z
def select (w : WWord) : Bool := w.move && w.operandOk && predOk w.vs3
def broadcast (w : WWord) : Bool := w.move && w.kinds [1, 2, 3] && w.vs3z && w.vs1z
def moveToX (w : WWord) : Bool := w.whole && w.kinds [1, 3] && w.vs3 < 2#5
def moveToQ (w : WWord) : Bool := w.whole && w.kinds [1, 3] && w.vs3 < 2#5 && 4#5 ≤ w.vd && w.vd < 8#5
def plog (w : WWord) : Bool :=
  w.move && w.auxz && predOk w.vs2 && predOk w.vs1 && predDest w.vd && w.vs3 < 16#5
def pcnt (w : WWord) : Bool :=
  w.move && w.noOperand && w.vs3z && predOk w.vs1 && (w.vdz || (4#5 ≤ w.vd && w.vd < 8#5))
def pfirst (w : WWord) : Bool := w.move && w.noOperand && w.vs3 < 3#5 && predOk w.vs1 && predDest w.vd
def pscan (w : WWord) : Bool := w.move && w.noOperand && w.vs3 < 2#5 && predOk w.vs1
def pset (w : WWord) : Bool := w.whole && w.kinds [1, 2, 3] && w.vs3z && w.vs1z && predDest w.vd
def maskPush (w : WWord) : Bool := w.whole && w.noOperand && w.vs3z && predOk w.vs1 && w.vdz
def maskOther (w : WWord) : Bool := w.whole && w.noOperand && w.vs3z && w.vs1z && w.vdz
def redInt (w : WWord) : Bool := w.rm0 && w.emOk && w.operandOk && w.vs3 < 6#5
def redFp (w : WWord) : Bool := w.rounds && w.operandOk && w.vs3 < 4#5
/-- R135: modes 0 to 3 move bit patterns, modes 4 to 7 subtract and round. -/
def quad (w : WWord) : Bool :=
  w.noOperand && w.vs3 < 8#5 && (if w.vs3 < 4#5 then w.move else w.rounds)

def load (w : WWord) : Bool := w.rounds && w.loadOrder && w.vs3z
def store (w : WWord) : Bool := w.rounds && w.storeOrder && w.vdz
def vld (w : WWord) : Bool := w.load && w.scOk && w.noFields && w.ord0 && w.vs2z
def vst (w : WWord) : Bool := w.store && w.scOk && w.noFields && w.ord0 && w.vs2z
def vlds (w : WWord) : Bool := w.load && w.scOk && w.noFields && w.ord0
def vsts (w : WWord) : Bool := w.store && w.scOk && w.noFields && w.ord0
def vldx (w : WWord) : Bool := w.load && w.scOk && w.noFields
def vstx (w : WWord) : Bool := w.store && w.scOk && w.noFields
def vlseg (w : WWord) : Bool := w.load && w.sc0 && w.ord0 && groupOk w.vd w.fields
def vsseg (w : WWord) : Bool := w.store && w.sc0 && w.ord0 && groupOk w.vs3 w.fields
/-- R186: vd[3:0] is the operation, which alone fixes whether rm and sat may be used. -/
def vamo (w : WWord) : Bool :=
  let op := w.vd.extractLsb' 0 4
  w.emOk && w.noFields && scopeOk w.scope && w.scOk && op < 8#4 &&
    (if op == 7#4 then w.rmOk else w.rm0) && (op == 1#4 || w.sat0)
/-- R187. -/
def vstr (w : WWord) : Bool := w.store && w.noFields && w.ord0 && w.sc0
/-- R192. -/
def vwacc (w : WWord) : Bool := w.vdz && w.vs1z && w.auxz && w.rm0 && w.sat0 && w.emOk
/-- R141, R144. -/
def vprf (w : WWord) : Bool :=
  w.noFields && w.ord0 && w.sc0 && w.order == 0#2 && scopeOk w.scope && w.pg0 && w.vdz && w.vs3z && w.xp0 &&
    w.rm0 && w.sat0 && w.em0 && w.lqv0

def mzero (w : WWord) : Bool :=
  tileOk w.vd && w.vs1z && w.vs2z && w.vs3z && w.auxz && w.pg0 && w.em0 && w.rm0 && w.sat0 && w.lqv0 && w.xp0
def mmac (w : WWord) : Bool :=
  tileOk w.vd && predOk w.vs3 && w.aux9 < 16#9 && w.emOk && w.rm0 && w.lqv0
def mmacv (w : WWord) : Bool := tileOk w.vd && w.vs3z && w.auxz && w.emOk && w.rm0 && w.lqv0
def mslco (w : WWord) : Bool := tileOk w.vs1 && w.vs3 < 2#5 && w.kinds [1, 3] && w.rounds
def mslci (w : WWord) : Bool := tileOk w.vd && w.vs3 < 2#5 && w.kinds [1, 3] && w.rounds
def mldt (w : WWord) : Bool :=
  tileOk w.vd && w.vs3z && w.auxz && w.em0 && w.rm0 && w.sat0 && w.lqv0 && w.xp0
def mscal (w : WWord) : Bool := tileOk w.vd && w.vs2z && w.vs3 < 2#5 && w.auxz && w.em0 && w.rmOk

/-- Texture and interpolation in common: sat 0 (R327). -/
def texture (w : WWord) : Bool := w.rounds && w.sat0
def nch (w : WWord) : Nat := (w.aux9.extractLsb' 0 2).toNat + 1
def vtex (w : WWord) : Bool := w.texture && w.vs2z && w.aux9 < 4#9 && groupOk w.vd w.nch && groupOk w.vs1 2
def vtexg (w : WWord) : Bool :=
  w.texture && w.aux9 < 4#9 && groupOk w.vd w.nch && groupOk w.vs1 2 && groupOk w.vs2 4
def vtexq (w : WWord) : Bool :=
  w.texture && w.vs2z && w.aux9 < 16#9 && w.nch == 4 && groupOk w.vd 4 && groupOk w.vs1 2
def vtexs (w : WWord) : Bool := w.texture && w.aux9 < 4#9 && groupOk w.vd w.nch && groupOk w.vs1 2
/-- R331: attr needs vertex values, the other selections none. -/
def vintp (w : WWord) : Bool := w.texture && w.vs2z && w.aux9 < 4#9 && ((w.aux9 == 0#9) != w.vs1z)
/-- Query and ray registers are multiples of 8 (R327). -/
def multipleOf8 (r : Reg) : Bool := r.extractLsb' 0 3 == 0#3
def ray (w : WWord) : Bool := w.rm0 && w.sat0 && w.em0 && w.xp0
def vrayi (w : WWord) : Bool := w.ray && multipleOf8 w.vd && multipleOf8 w.vs1 && w.vs2z && w.aux9 < 8#9
def vrayt (w : WWord) : Bool := w.ray && multipleOf8 w.vd && w.vs1z && w.vs2z && w.vs3z && w.auxz
def vraya (w : WWord) : Bool := w.ray && multipleOf8 w.vs1 && w.vs2z && w.vs3z && w.aux9 < 16#9

/-- Delta instructions in common (R352). -/
def delta (w : WWord) : Bool := w.rm0 && w.sat0 && w.em0 && w.xp0
def pgLqv0 (w : WWord) : Bool := w.pg0 && w.lqv0
def qDest (r : BitVec 3) : Bool := 4#3 ≤ r
def dpush (w : WWord) : Bool := w.delta && predOk w.vd && groupOk w.vs1 4 && w.vs2z && w.auxz
def dpop (w : WWord) : Bool :=
  w.delta && w.pgLqv0 && w.vs1z && w.vs2z && w.aux9 < 16#9 &&
    groupOk w.vd (if w.aux9.extractLsb' 3 1 == 1#1 then 5 else 4) &&
    (w.aux9.extractLsb' 0 3 == 0#3 || qDest (w.aux9.extractLsb' 0 3))
def dseal (w : WWord) : Bool := w.delta && w.pgLqv0 && w.vdz && w.vs1z && w.vs2z && w.auxz
def dlook (w : WWord) : Bool := w.delta && groupOk w.vd 4 && w.vs2z && w.auxz
def dapply (w : WWord) : Bool := w.delta && w.vdz && groupOk w.vs1 4 && w.vs2z && w.auxz
def dscan (w : WWord) : Bool :=
  w.delta && w.pgLqv0 && groupOk w.vd 4 && w.vs1z && w.aux9 < 8#9 && qDest (w.aux9.extractLsb' 0 3)
def dqstat (w : WWord) : Bool :=
  w.delta && w.pgLqv0 && 4#5 ≤ w.vd && w.vd < 8#5 && w.vs1z && w.vs2z && w.auxz
def dbind (w : WWord) : Bool :=
  w.delta && w.pgLqv0 && w.vdz && w.aux9 < 3#9 && (w.aux9 != 2#9 || w.vs1z)

end WWord

/-- R74, R75: op 56 to 63 of groups 0 to 6 and every op of group 7. -/
def experimental (grp : BitVec 3) (op : BitVec 6) : Bool := grp == 7#3 || 56#6 ≤ op

/-- aux9 of an experimental word, as R71 gives it for groups 0 to 2 and R72 for an operation of group 3 that is no segment
or ordered-index form (R73, R75). -/
def WWord.expAuxOk (w : WWord) (grp : BitVec 3) : Bool :=
  if grp.toNat < 3 then (w.kind != 2 || w.vs2.extractLsb' 2 3 == 0#3) && (w.kind != 3 || w.vs2 == 0#5)
  else if grp = 3#3 then w.aux9.extractLsb' 6 3 == 0#3 && w.aux9.extractLsb' 0 3 < 6#3
  else true

/-! ## Places -/

def ClusterId.wf (c : ClusterId) : Bool := c.die < 4 && c.cluster < 48
def CoreId.wf (c : CoreId) : Bool := c.die < 4 && c.cluster < 48 && c.core < 8
def HartId.wf (h : HartId) : Bool := h.die < 4 && h.cluster < 48 && h.core < 8 && h.hart < 8
def AgentId.wf (a : AgentId) : Bool :=
  a.die < 4 && (match a.kind with
    | .distributor => a.index == 0
    | .rasteriser => a.index < 8
    | .blend => a.index < 64)

/-- R101: the pointer registers are x1 to x28 and the count is none of them. -/
def stripOk (rs1 rs2 : Reg) : Bool :=
  rs2 == 0#5 || (rs2 < 29#5 && !(rs2.toNat ≤ rs1.toNat && rs1.toNat < rs2.toNat + 4))

/-- The decode-time checks of R69 and R73 for an instruction, and the ranges of an event's operands. A word
whose fields break one is Illegal, precise in the scalar stream (R35). -/
def Instr.wf : Instr → Bool
  | .deltaDrain _ => true
  | .quietSet _ _ => true
  | .copyHandOver h => h.wf
  | .copyCompletion h _ => h.wf
  | .collectiveUseComplete die _ => die < 4
  | .transactionWake h _ => h.wf
  | .channelArrival c _ => c.wf
  | .handlerRunStart h => h.wf
  | .place die => die < 4
  | .launchRingService die _ => die < 4
  | .gangCompletion _ => true
  | .doneRecordDrain die => die < 4
  | .ringServiceResume h => h.wf
  | .shootdownAcknowledge _ _ => true
  | .shootdownComplete _ => true
  | .contain c => c.wf
  | .drawRecord agent => agent.wf
  | .batchRecord agent => agent.wf
  | .blendRecord agent => agent.wf
  | .agentRingSpace agent => agent.wf
  | .agentBeacon agent => agent.wf
  | .elementTrain h => h.wf
  | .trainAcknowledgement h => h.wf
  | .warmReset => true
  | .coreFreeze c => c.wf
  | .peerResponse _ _ => true
  | .hostReadCompletion _ _ => true
  | .lanternInterrupt c _ => c.wf
  | .lui _ _ => true
  | .auipc _ _ => true
  | .jal _ _ => true
  | .jalr _ _ _ => true
  | .beq _ _ _ => true
  | .bne _ _ _ => true
  | .blt _ _ _ => true
  | .bge _ _ _ => true
  | .bltu _ _ _ => true
  | .bgeu _ _ _ => true
  | .lb _ _ _ => true
  | .lh _ _ _ => true
  | .lw _ _ _ => true
  | .ld _ _ _ => true
  | .lbu _ _ _ => true
  | .lhu _ _ _ => true
  | .lwu _ _ _ => true
  | .sb _ _ _ => true
  | .sh _ _ _ => true
  | .sw _ _ _ => true
  | .sd _ _ _ => true
  | .addi _ _ _ => true
  | .slti _ _ _ => true
  | .sltiu _ _ _ => true
  | .xori _ _ _ => true
  | .ori _ _ _ => true
  | .andi _ _ _ => true
  | .slli _ _ _ => true
  | .srli _ _ _ => true
  | .srai _ _ _ => true
  | .rori _ _ _ => true
  | .clz _ _ => true
  | .ctz _ _ => true
  | .cpop _ _ => true
  | .sextB _ _ => true
  | .sextH _ _ => true
  | .orcB _ _ => true
  | .rev8 _ _ => true
  | .addiw _ _ _ => true
  | .slliw _ _ _ => true
  | .srliw _ _ _ => true
  | .sraiw _ _ _ => true
  | .roriw _ _ _ => true
  | .slliUw _ _ _ => true
  | .clzw _ _ => true
  | .ctzw _ _ => true
  | .cpopw _ _ => true
  | .add _ _ _ => true
  | .sll _ _ _ => true
  | .slt _ _ _ => true
  | .sltu _ _ _ => true
  | .xor _ _ _ => true
  | .srl _ _ _ => true
  | .or _ _ _ => true
  | .and _ _ _ => true
  | .sub _ _ _ => true
  | .sra _ _ _ => true
  | .xnor _ _ _ => true
  | .orn _ _ _ => true
  | .andn _ _ _ => true
  | .mul _ _ _ => true
  | .mulh _ _ _ => true
  | .mulhsu _ _ _ => true
  | .mulhu _ _ _ => true
  | .div _ _ _ => true
  | .divu _ _ _ => true
  | .rem _ _ _ => true
  | .remu _ _ _ => true
  | .sh1add _ _ _ => true
  | .sh2add _ _ _ => true
  | .sh3add _ _ _ => true
  | .min _ _ _ => true
  | .minu _ _ _ => true
  | .max _ _ _ => true
  | .maxu _ _ _ => true
  | .rol _ _ _ => true
  | .ror _ _ _ => true
  | .czeroEqz _ _ _ => true
  | .czeroNez _ _ _ => true
  | .addw _ _ _ => true
  | .sllw _ _ _ => true
  | .srlw _ _ _ => true
  | .subw _ _ _ => true
  | .sraw _ _ _ => true
  | .mulw _ _ _ => true
  | .divw _ _ _ => true
  | .divuw _ _ _ => true
  | .remw _ _ _ => true
  | .remuw _ _ _ => true
  | .addUw _ _ _ => true
  | .zextH _ _ => true
  | .sh1addUw _ _ _ => true
  | .sh2addUw _ _ _ => true
  | .sh3addUw _ _ _ => true
  | .rolw _ _ _ => true
  | .rorw _ _ _ => true
  | .fence fm pred succ rs1 rd => !(fm == 0#4 && pred == 1#4 && succ == 0#4 && rs1 == 0#5 && rd == 0#5)
  | .pause => true
  | .fenceI _ _ _ => true
  | .cboInval _ => true
  | .cboClean _ => true
  | .cboFlush _ => true
  | .cboZero _ => true
  | .lr _ _ _ _ _ => true
  | .sc _ _ _ _ _ _ => true
  | .amoswap _ _ _ _ _ _ => true
  | .amoadd _ _ _ _ _ _ => true
  | .amoxor _ _ _ _ _ _ => true
  | .amoand _ _ _ _ _ _ => true
  | .amoor _ _ _ _ _ _ => true
  | .amomin _ _ _ _ _ _ => true
  | .amomax _ _ _ _ _ _ => true
  | .amominu _ _ _ _ _ _ => true
  | .amomaxu _ _ _ _ _ _ => true
  | .ecall => true
  | .ebreak => true
  | .sret => true
  | .wfi => true
  | .sfenceVma _ _ => true
  | .csrrw _ _ _ => true
  | .csrrs _ _ _ => true
  | .csrrc _ _ _ => true
  | .csrrwi _ _ _ => true
  | .csrrsi _ _ _ => true
  | .csrrci _ _ _ => true
  | .vgrant _ _ _ => true
  | .qpush n _ => n < 4#5
  | .qpop _ n => 4#5 ≤ n && n < 8#5
  | .qstat _ n => n < 8#5
  | .vdrain => true
  | .lqpop _ => true
  | .vsptr _ _ => true
  | .vstrip rs1 rs2 _ => stripOk rs1 rs2
  | .bpany _ _ => true
  | .bpall _ _ => true
  | .bpnone _ _ => true
  | .rres scope _ _ _ => scopeOk scope
  | .rcom scope _ _ => scopeOk scope
  | .racq scope _ _ => scopeOk scope
  | .rrel scope _ => scopeOk scope
  | .rpush scope _ _ => scopeOk scope
  | .rpop scope _ _ => scopeOk scope
  | .rstat scope _ _ => scopeOk scope
  | .rclose scope _ _ => scopeOk scope
  | .rbeacon scope _ _ => scopeOk scope
  | .hbind _ _ => true
  | .hdone => true
  | .hsend _ _ => true
  | .pclaim _ _ _ => true
  | .tbegin _ off => off.extractLsb' 0 1 == 0#1
  | .torelse off => off.extractLsb' 0 1 == 0#1
  | .tend => true
  | .tretry => true
  | .tabort _ => true
  | .fenceS scope _ _ => scopeOk scope
  | .amoincw _ _ scope _ _ _ _ => scopeOk scope
  | .amoaddb _ _ _ _ _ => true
  | .awopen _ _ => true
  | .awmerge scope => scopeOk scope
  | .awclose => true
  | .sbind _ _ => true
  | .sset _ _ _ => true
  | .sfence _ => true
  | .vbind _ _ => true
  | .vunbind _ => true
  | .cpyt _ => true
  | .cpyg _ _ => true
  | .cpyc _ => true
  | .ownset _ _ => true
  | .owntst _ _ => true
  | .mena _ mode => mode != 3#2
  | .mdis _ => true
  | .xfsave => true
  | .xfload => true
  | .vadd w => w.intBinary
  | .vsub w => w.intBinary
  | .vrsub w => w.intBinary
  | .vmul w => w.intBinary
  | .vmulh w => w.intBinary
  | .vmadd w => w.intMadd
  | .vdiv w => w.intBinary
  | .vrem w => w.intBinary
  | .vmin w => w.intBinary
  | .vmax w => w.intBinary
  | .vand w => w.intLogic
  | .vor w => w.intLogic
  | .vxor w => w.intLogic
  | .vshl w => w.intBinary
  | .vshr w => w.intBinary
  | .vabsd w => w.intBinary
  | .vcmp w => w.intCompare
  | .vidx w => w.intBinary
  | .vnshr w => w.intNarrow
  | .vfadd w => w.fpBinary
  | .vfsub w => w.fpBinary
  | .vfmul w => w.fpBinary
  | .vfdiv w => w.fpBinary
  | .vfsqrt w => w.fpUnary
  | .vfma w => w.fpMadd
  | .vfmin w => w.fpBinary
  | .vfmax w => w.fpBinary
  | .vfrcp w => w.fpUnary
  | .vfrsq w => w.fpUnary
  | .vfexp2 w => w.fpUnary
  | .vflog2 w => w.fpUnary
  | .vfcmp w => w.fpCompare
  | .vfclass w => w.fpClass
  | .vfsgn w => w.fpSign
  | .vcvt w => w.fpUnary
  | .vslup w => w.slide
  | .vsldn w => w.slide
  | .vgathr w => w.gather
  | .vcompr w => w.pack
  | .vexpnd w => w.pack
  | .vsel w => w.select
  | .vbcast w => w.broadcast
  | .vmvx w => w.moveToX
  | .vmvq w => w.moveToQ
  | .vplog w => w.plog
  | .vpcnt w => w.pcnt
  | .vpfirst w => w.pfirst
  | .vpscan w => w.pscan
  | .vpset w => w.pset
  | .vmpush w => w.maskPush
  | .vmelse w => w.maskOther
  | .vmpop w => w.maskOther
  | .vredi w => w.redInt
  | .vredf w => w.redFp
  | .vquad w => w.quad
  | .vld w => w.vld
  | .vst w => w.vst
  | .vlds w => w.vlds
  | .vsts w => w.vsts
  | .vldx w => w.vldx
  | .vstx w => w.vstx
  | .vlseg w => w.vlseg
  | .vsseg w => w.vsseg
  | .vamo w => w.vamo
  | .vstr w => w.vstr
  | .vwacc w => w.vwacc
  | .vprf w => w.vprf
  | .mzero w => w.mzero
  | .mmac w => w.mmac
  | .mmacv w => w.mmacv
  | .mslco w => w.mslco
  | .mslci w => w.mslci
  | .mldt w => w.mldt
  | .mstt w => w.mldt
  | .mscal w => w.mscal
  | .vtex w => w.vtex
  | .vtexg w => w.vtexg
  | .vtexq w => w.vtexq
  | .vtexs w => w.vtexs
  | .vintp w => w.vintp
  | .vrayi w => w.vrayi
  | .vrayt w => w.vrayt
  | .vrayc w => w.vrayt
  | .vraya w => w.vraya
  | .dpush w => w.dpush
  | .dpop w => w.dpop
  | .dseal w => w.dseal
  | .dlook w => w.dlook
  | .dnext w => w.dlook
  | .dapply w => w.dapply
  | .dscan w => w.dscan
  | .dqstat w => w.dqstat
  | .dbind w => w.dbind
  | .streamRunAhead h _ => h.wf
  | .streamStorePerform h _ => h.wf
  | .enqueue h => h.wf
  | .ownershipTimeout h => h.wf
  | .experimentalInstruction grp op w => experimental grp op && w.rmOk && w.emOk && w.expAuxOk grp
  | .groupEntryWrite die _ _ _ => die < 4
  | .supervisorTimerInterrupt h => h.wf
  | .ssisetWrite c _ => c.wf
  | .trapEntry p => p.hart.wf
  | .transactionAbort h => h.wf
  | .txdeadlineExpiry h => h.wf
  | .ageStep h => h.wf
  | .tickBoundary => true
  | .fabricSweep die => die < 4
  | .ringTableWrite c _ _ => c.wf
  | .bankmodeWrite c _ => c.wf
  | .shootdownIssue c _ => c.wf
  | .shootdownTimeout _ => true
  | .hostShootdownIssue _ => true
  | .pcdataWrite c _ => c.wf
  | .resume c => c.wf
  | .upcall c => c.wf
  | .stop c => c.wf
  | .agentResume agent => agent.wf
  | .agentEnable agent _ => agent.wf
  | .peerAccess _ => true
  | .linkDown _ => true
  | .hostMemoryWrite _ _ => true
  | .hostMemoryRead _ _ => true
  | .launchBeaconWrite die ring _ => die < 4 && ring < 16
  | .hostBeaconWrite beacon _ => beacon < 256
  | .msixUnmask vector => vector < 256
  | .bar2ctlWrite _ => true
  | .getVersion _ => true
  | .getCapabilities _ => true
  | .negotiateAlgorithms _ => true
  | .getDigests _ => true
  | .getCertificate _ => true
  | .challenge _ => true
  | .getMeasurements _ => true
  | .unsupportedRequest _ => true
  | .doeAbort => true
  | .coldReset => true
  | .powerLimitWrite _ => true
  | .clockStep _ => true
  | .thermalTrip => true
  | .freeze => true
  | .lockstepMismatch c => c.wf
  | .debugHalt h => h.wf
  | .errlogRead c => c.wf
  | .budvalWrite c _ => c.wf
  | .featenWrite c _ => c.wf
  | .dxentWrite c _ => c.wf
  | .registerWrite _ _ => true
  | .pauseExpiry h => h.wf
  | .debugResume h => h.wf
  | .attestationLogAppend _ => true

end Sys2Proof
end

