-- ==== Sys2Proof/Decode.lean ====
section
/-! DEFINITION. The decoder of instruction bytes, total and rejecting by name (03 R61 to R76, 04 R89), and after it the
encoder, written from the same tables. -/

namespace Sys2Proof

/-- Why a pattern is not an instruction. Every one is an illegal-instruction trap of the scalar stream (R35), but for
`truncated`, which no fetch of whole parcels gives. -/
inductive DecodeError where
  /-- Fewer bytes than the instruction's length: only a caller that hands over too few. -/
  | truncated
  /-- [1:0] is not 0b11: a 16-bit length (R61). -/
  | length16
  /-- A 48-bit length (R61). -/
  | length48
  /-- 80 bits or more, or any other length (R61). -/
  | lengthLong
  /-- No instruction has this pattern (R76). -/
  | unassigned
  /-- A W combination that R74 marks Illegal. -/
  | unassignedW
  /-- A field breaks R69 or R73. -/
  | badField
  deriving DecidableEq, Repr

/-! ## Fields of the 32-bit layouts (R63) -/

/-- The six fields that every 32-bit layout cuts a word into: [31:25], [24:20], [19:15], [14:12], [11:7], [6:0]. -/
structure Fields where
  f7  : BitVec 7
  b   : Reg
  a   : Reg
  f3  : BitVec 3
  d   : Reg
  opc : BitVec 7
  deriving DecidableEq, Repr

def Fields.of (w : BitVec 32) : Fields :=
  { f7 := w.extractLsb' 25 7, b := w.extractLsb' 20 5, a := w.extractLsb' 15 5,
    f3 := w.extractLsb' 12 3, d := w.extractLsb' 7 5, opc := w.extractLsb' 0 7 }

def Fields.word (x : Fields) : BitVec 32 := x.f7 ++ x.b ++ x.a ++ x.f3 ++ x.d ++ x.opc

/-- imm12 of the I layout. -/
def Fields.immI (x : Fields) : BitVec 12 := x.f7 ++ x.b

/-- imm12 of the S layout. -/
def Fields.immS (x : Fields) : BitVec 12 := x.f7 ++ x.d

/-- The B layout's offset in units of 2 bytes: imm[12:1]. -/
def Fields.offB (x : Fields) : BitVec 12 :=
  x.f7.extractLsb' 6 1 ++ x.d.extractLsb' 0 1 ++ x.f7.extractLsb' 0 6 ++ x.d.extractLsb' 1 4

/-- The U layout's [31:12]. -/
def Fields.immU (x : Fields) : BitVec 20 := x.f7 ++ x.b ++ x.a ++ x.f3

/-- The J layout's offset in units of 2 bytes: imm[20:1], where [31:12] holds imm[20], [10:1], [11], [19:12]. -/
def Fields.offJ (x : Fields) : BitVec 20 :=
  x.f7.extractLsb' 6 1 ++ (x.a ++ x.f3) ++ x.b.extractLsb' 0 1 ++ x.f7.extractLsb' 0 6 ++ x.b.extractLsb' 1 4

/-- The I layout with an immediate. -/
def Fields.i (opc : BitVec 7) (f3 : BitVec 3) (d a : Reg) (imm : BitVec 12) : Fields :=
  { f7 := imm.extractLsb' 5 7, b := imm.extractLsb' 0 5, a := a, f3 := f3, d := d, opc := opc }

/-- The R layout. -/
def Fields.r (opc : BitVec 7) (f3 : BitVec 3) (f7 : BitVec 7) (d a b : Reg) : Fields :=
  { f7 := f7, b := b, a := a, f3 := f3, d := d, opc := opc }

/-- The S layout. -/
def Fields.s (opc : BitVec 7) (f3 : BitVec 3) (a b : Reg) (imm : BitVec 12) : Fields :=
  { f7 := imm.extractLsb' 5 7, b := b, a := a, f3 := f3, d := imm.extractLsb' 0 5, opc := opc }

/-- The B layout, its offset in units of 2 bytes. -/
def Fields.br (opc : BitVec 7) (f3 : BitVec 3) (a b : Reg) (off : BitVec 12) : Fields :=
  { f7 := off.extractLsb' 11 1 ++ off.extractLsb' 4 6, b := b, a := a, f3 := f3,
    d := off.extractLsb' 0 4 ++ off.extractLsb' 10 1, opc := opc }

/-- The U layout. -/
def Fields.u (opc : BitVec 7) (d : Reg) (imm : BitVec 20) : Fields :=
  { f7 := imm.extractLsb' 13 7, b := imm.extractLsb' 8 5, a := imm.extractLsb' 3 5, f3 := imm.extractLsb' 0 3,
    d := d, opc := opc }

/-- The J layout, its offset in units of 2 bytes. -/
def Fields.j (opc : BitVec 7) (d : Reg) (off : BitVec 20) : Fields :=
  { f7 := off.extractLsb' 19 1 ++ off.extractLsb' 4 6, b := off.extractLsb' 0 4 ++ off.extractLsb' 10 1,
    a := off.extractLsb' 14 5, f3 := off.extractLsb' 11 3, d := d, opc := opc }

/-- The I layout of a 64-bit shift: imm[11:6] and a 6-bit amount. -/
def Fields.sh (opc : BitVec 7) (f3 : BitVec 3) (f6 : BitVec 6) (d a : Reg) (shamt : BitVec 6) : Fields :=
  { f7 := f6 ++ shamt.extractLsb' 5 1, b := shamt.extractLsb' 0 5, a := a, f3 := f3, d := d, opc := opc }

/-! ## 32-bit instructions -/

/-- OP-IMM (R89). -/
noncomputable def decodeOpImm (x : Fields) : Option Instr :=
  match x.f3 with
  | 0#3 => some (.addi x.d x.a x.immI)
  | 2#3 => some (.slti x.d x.a x.immI)
  | 3#3 => some (.sltiu x.d x.a x.immI)
  | 4#3 => some (.xori x.d x.a x.immI)
  | 6#3 => some (.ori x.d x.a x.immI)
  | 7#3 => some (.andi x.d x.a x.immI)
  | 1#3 =>
    if x.f7.extractLsb' 1 6 = 0#6 then some (.slli x.d x.a (x.f7.extractLsb' 0 1 ++ x.b))
    else if x.f7 = 0x30#7 then
      match x.b with
      | 0#5 => some (.clz x.d x.a)
      | 1#5 => some (.ctz x.d x.a)
      | 2#5 => some (.cpop x.d x.a)
      | 4#5 => some (.sextB x.d x.a)
      | 5#5 => some (.sextH x.d x.a)
      | _ => none
    else none
  | _ =>
    if x.f7.extractLsb' 1 6 = 0#6 then some (.srli x.d x.a (x.f7.extractLsb' 0 1 ++ x.b))
    else if x.f7.extractLsb' 1 6 = 0x10#6 then some (.srai x.d x.a (x.f7.extractLsb' 0 1 ++ x.b))
    else if x.f7.extractLsb' 1 6 = 0x18#6 then some (.rori x.d x.a (x.f7.extractLsb' 0 1 ++ x.b))
    else if x.f7 = 0x14#7 ∧ x.b = 7#5 then some (.orcB x.d x.a)
    else if x.f7 = 0x35#7 ∧ x.b = 0x18#5 then some (.rev8 x.d x.a)
    else none

/-- OP-IMM-32 (R89). -/
noncomputable def decodeOpImm32 (x : Fields) : Option Instr :=
  match x.f3 with
  | 0#3 => some (.addiw x.d x.a x.immI)
  | 1#3 =>
    if x.f7 = 0#7 then some (.slliw x.d x.a x.b)
    else if x.f7.extractLsb' 1 6 = 2#6 then some (.slliUw x.d x.a (x.f7.extractLsb' 0 1 ++ x.b))
    else if x.f7 = 0x30#7 then
      match x.b with
      | 0#5 => some (.clzw x.d x.a)
      | 1#5 => some (.ctzw x.d x.a)
      | 2#5 => some (.cpopw x.d x.a)
      | _ => none
    else none
  | 5#3 =>
    match x.f7 with
    | 0#7 => some (.srliw x.d x.a x.b)
    | 0x20#7 => some (.sraiw x.d x.a x.b)
    | 0x30#7 => some (.roriw x.d x.a x.b)
    | _ => none
  | _ => none

/-- OP (R89). -/
noncomputable def decodeOp (x : Fields) : Option Instr :=
  match x.f7 with
  | 0#7 =>
    match x.f3 with
    | 0#3 => some (.add x.d x.a x.b)
    | 1#3 => some (.sll x.d x.a x.b)
    | 2#3 => some (.slt x.d x.a x.b)
    | 3#3 => some (.sltu x.d x.a x.b)
    | 4#3 => some (.xor x.d x.a x.b)
    | 5#3 => some (.srl x.d x.a x.b)
    | 6#3 => some (.or x.d x.a x.b)
    | _ => some (.and x.d x.a x.b)
  | 0x20#7 =>
    match x.f3 with
    | 0#3 => some (.sub x.d x.a x.b)
    | 5#3 => some (.sra x.d x.a x.b)
    | 4#3 => some (.xnor x.d x.a x.b)
    | 6#3 => some (.orn x.d x.a x.b)
    | 7#3 => some (.andn x.d x.a x.b)
    | _ => none
  | 1#7 =>
    match x.f3 with
    | 0#3 => some (.mul x.d x.a x.b)
    | 1#3 => some (.mulh x.d x.a x.b)
    | 2#3 => some (.mulhsu x.d x.a x.b)
    | 3#3 => some (.mulhu x.d x.a x.b)
    | 4#3 => some (.div x.d x.a x.b)
    | 5#3 => some (.divu x.d x.a x.b)
    | 6#3 => some (.rem x.d x.a x.b)
    | _ => some (.remu x.d x.a x.b)
  | 0x10#7 =>
    match x.f3 with
    | 2#3 => some (.sh1add x.d x.a x.b)
    | 4#3 => some (.sh2add x.d x.a x.b)
    | 6#3 => some (.sh3add x.d x.a x.b)
    | _ => none
  | 5#7 =>
    match x.f3 with
    | 4#3 => some (.min x.d x.a x.b)
    | 5#3 => some (.minu x.d x.a x.b)
    | 6#3 => some (.max x.d x.a x.b)
    | 7#3 => some (.maxu x.d x.a x.b)
    | _ => none
  | 0x30#7 =>
    match x.f3 with
    | 1#3 => some (.rol x.d x.a x.b)
    | 5#3 => some (.ror x.d x.a x.b)
    | _ => none
  | 7#7 =>
    match x.f3 with
    | 5#3 => some (.czeroEqz x.d x.a x.b)
    | 7#3 => some (.czeroNez x.d x.a x.b)
    | _ => none
  | _ => none

/-- OP-32 (R89). -/
noncomputable def decodeOp32 (x : Fields) : Option Instr :=
  match x.f7 with
  | 0#7 =>
    match x.f3 with
    | 0#3 => some (.addw x.d x.a x.b)
    | 1#3 => some (.sllw x.d x.a x.b)
    | 5#3 => some (.srlw x.d x.a x.b)
    | _ => none
  | 0x20#7 =>
    match x.f3 with
    | 0#3 => some (.subw x.d x.a x.b)
    | 5#3 => some (.sraw x.d x.a x.b)
    | _ => none
  | 1#7 =>
    match x.f3 with
    | 0#3 => some (.mulw x.d x.a x.b)
    | 4#3 => some (.divw x.d x.a x.b)
    | 5#3 => some (.divuw x.d x.a x.b)
    | 6#3 => some (.remw x.d x.a x.b)
    | 7#3 => some (.remuw x.d x.a x.b)
    | _ => none
  | 4#7 =>
    match x.f3 with
    | 0#3 => some (.addUw x.d x.a x.b)
    | 4#3 => if x.b = 0#5 then some (.zextH x.d x.a) else none
    | _ => none
  | 0x10#7 =>
    match x.f3 with
    | 2#3 => some (.sh1addUw x.d x.a x.b)
    | 4#3 => some (.sh2addUw x.d x.a x.b)
    | 6#3 => some (.sh3addUw x.d x.a x.b)
    | _ => none
  | 0x30#7 =>
    match x.f3 with
    | 1#3 => some (.rolw x.d x.a x.b)
    | 5#3 => some (.rorw x.d x.a x.b)
    | _ => none
  | _ => none

/-- MISC-MEM (R89). PAUSE is the FENCE with pred = W, succ = 0, fm = 0 and no registers (R90). -/
noncomputable def decodeMiscMem (x : Fields) : Option Instr :=
  match x.f3 with
  | 0#3 =>
    if x.immI = 0x010#12 ∧ x.a = 0#5 ∧ x.d = 0#5 then some .pause
    else some (.fence (x.f7.extractLsb' 3 4) (x.f7.extractLsb' 0 3 ++ x.b.extractLsb' 4 1)
      (x.b.extractLsb' 0 4) x.a x.d)
  | 1#3 => some (.fenceI x.immI x.a x.d)
  | 2#3 =>
    if x.d = 0#5 then
      match x.immI with
      | 0#12 => some (.cboInval x.a)
      | 1#12 => some (.cboClean x.a)
      | 2#12 => some (.cboFlush x.a)
      | 4#12 => some (.cboZero x.a)
      | _ => none
    else none
  | _ => none

/-- AMO (R89): funct3 010 is .W and 011 is .D; funct5, aq, rl are [31:27], [26], [25]. -/
noncomputable def decodeAmo (x : Fields) : Option Instr :=
  if x.f3.extractLsb' 1 2 = 1#2 then
    let w := x.f3.extractLsb' 0 1
    let aq := x.f7.extractLsb' 1 1
    let rl := x.f7.extractLsb' 0 1
    match x.f7.extractLsb' 2 5 with
    | 2#5 => if x.b = 0#5 then some (.lr aq rl w x.d x.a) else none
    | 3#5 => some (.sc aq rl w x.d x.a x.b)
    | 1#5 => some (.amoswap aq rl w x.d x.a x.b)
    | 0#5 => some (.amoadd aq rl w x.d x.a x.b)
    | 4#5 => some (.amoxor aq rl w x.d x.a x.b)
    | 12#5 => some (.amoand aq rl w x.d x.a x.b)
    | 8#5 => some (.amoor aq rl w x.d x.a x.b)
    | 16#5 => some (.amomin aq rl w x.d x.a x.b)
    | 20#5 => some (.amomax aq rl w x.d x.a x.b)
    | 24#5 => some (.amominu aq rl w x.d x.a x.b)
    | 28#5 => some (.amomaxu aq rl w x.d x.a x.b)
    | _ => none
  else none

/-- SYSTEM (R89). -/
def decodeSystem (x : Fields) : Option Instr :=
  match x.f3 with
  | 0#3 =>
    if x.d = 0#5 then
      if x.f7 = 9#7 then some (.sfenceVma x.a x.b)
      else if x.a = 0#5 then
        match x.immI with
        | 0#12 => some .ecall
        | 1#12 => some .ebreak
        | 0x102#12 => some .sret
        | 0x105#12 => some .wfi
        | _ => none
      else none
    else none
  | 1#3 => some (.csrrw x.immI x.d x.a)
  | 2#3 => some (.csrrs x.immI x.d x.a)
  | 3#3 => some (.csrrc x.immI x.d x.a)
  | 5#3 => some (.csrrwi x.immI x.d x.a)
  | 6#3 => some (.csrrsi x.immI x.d x.a)
  | 7#3 => some (.csrrci x.immI x.d x.a)
  | _ => none

/-- custom-0 (R65). -/
noncomputable def decodeCustom0 (x : Fields) : Option Instr :=
  match x.f3 with
  | 0#3 =>
    if x.a = 0#5 ∧ x.f7.extractLsb' 0 5 = 0#5 ∧ x.b.extractLsb' 2 3 = 0#3 then
      some (.vgrant x.d (x.f7.extractLsb' 5 2) (x.b.extractLsb' 0 2))
    else none
  | 1#3 =>
    if x.b = 0#5 then
      match x.f7 with
      | 0#7 => some (.qpush x.d x.a)
      | 1#7 => some (.qpop x.d x.a)
      | 2#7 => some (.qstat x.d x.a)
      | 3#7 => if x.d = 0#5 ∧ x.a = 0#5 then some .vdrain else none
      | 4#7 => if x.a = 0#5 then some (.lqpop x.d) else none
      | 5#7 => some (.vsptr x.d x.a)
      | _ => none
    else none
  | 2#3 => some (.vstrip x.a x.b x.offB)
  | 4#3 =>
    if x.b = 0#5 ∧ x.a.extractLsb' 4 1 = 0#1 then some (.bpany (x.a.extractLsb' 0 4) x.offB) else none
  | 5#3 =>
    if x.b = 0#5 ∧ x.a.extractLsb' 4 1 = 0#1 then some (.bpall (x.a.extractLsb' 0 4) x.offB) else none
  | 6#3 =>
    if x.b = 0#5 ∧ x.a.extractLsb' 4 1 = 0#1 then some (.bpnone (x.a.extractLsb' 0 4) x.offB) else none
  | _ => none

/-- custom-1 (R66): funct7 = operation × 8 + scope for the ring operations. -/
noncomputable def decodeCustom1 (x : Fields) : Option Instr :=
  match x.f3 with
  | 0#3 =>
    let k := x.f7.extractLsb' 0 3
    let flag := x.b.extractLsb' 0 1
    let flagOk := x.b.extractLsb' 1 4 = 0#4
    match x.f7.extractLsb' 3 4 with
    | 0#4 => if flagOk then some (.rres k flag x.d x.a) else none
    | 1#4 => if flagOk ∧ x.d = 0#5 then some (.rcom k flag x.a) else none
    | 2#4 => if x.b = 0#5 then some (.racq k x.d x.a) else none
    | 3#4 => if x.b = 0#5 ∧ x.d = 0#5 then some (.rrel k x.a) else none
    | 4#4 => if x.d = 0#5 then some (.rpush k x.a x.b) else none
    | 5#4 => if x.b = 0#5 then some (.rpop k x.d x.a) else none
    | 6#4 => if x.b = 0#5 then some (.rstat k x.d x.a) else none
    | 7#4 => if flagOk ∧ x.d = 0#5 then some (.rclose k flag x.a) else none
    | 8#4 => if x.d = 0#5 then some (.rbeacon k x.a x.b) else none
    | _ => none
  | 1#3 =>
    if x.d = 0#5 then
      match x.f7 with
      | 0#7 => some (.hbind x.a x.b)
      | 1#7 => if x.a = 0#5 ∧ x.b = 0#5 then some .hdone else none
      | 2#7 => some (.hsend x.a x.b)
      | _ => none
    else none
  | 2#3 => if x.f7 = 0#7 then some (.pclaim x.d x.a x.b) else none
  | _ => none

/-- custom-2 (R67). -/
noncomputable def decodeCustom2 (x : Fields) : Option Instr :=
  match x.f3 with
  | 0#3 => if x.a = 0#5 then some (.tbegin x.d x.immI) else none
  | 1#3 => if x.a = 0#5 ∧ x.d = 0#5 then some (.torelse x.immI) else none
  | 2#3 =>
    match x.f7 with
    | 0#7 => if x.d = 0#5 ∧ x.a = 0#5 ∧ x.b = 0#5 then some .tend else none
    | 1#7 => if x.d = 0#5 ∧ x.a = 0#5 ∧ x.b = 0#5 then some .tretry else none
    | 2#7 => if x.d = 0#5 ∧ x.a = 0#5 then some (.tabort x.b) else none
    | 3#7 =>
      if x.d.extractLsb' 4 1 = 0#1 ∧ x.a.extractLsb' 4 1 = 0#1 ∧ x.b.extractLsb' 3 2 = 0#2 then
        some (.fenceS (x.b.extractLsb' 0 3) (x.a.extractLsb' 0 4) (x.d.extractLsb' 0 4))
      else none
    | _ => none
  | 3#3 =>
    some (.amoincw (x.f7.extractLsb' 6 1) (x.f7.extractLsb' 5 1) (x.f7.extractLsb' 2 3) (x.f7.extractLsb' 0 2)
      x.d x.a x.b)
  | 4#3 => some (.amoaddb (x.f7.extractLsb' 0 2) x.d x.a x.b (x.f7.extractLsb' 2 5))
  | 5#3 =>
    match x.f7 with
    | 0#7 => if x.d = 0#5 then some (.awopen x.a x.b) else none
    | 1#7 =>
      if x.d = 0#5 ∧ x.a = 0#5 ∧ x.b.extractLsb' 3 2 = 0#2 then some (.awmerge (x.b.extractLsb' 0 3)) else none
    | 2#7 => if x.d = 0#5 ∧ x.a = 0#5 ∧ x.b = 0#5 then some .awclose else none
    | _ => none
  | _ => none

/-- custom-3 (R68). -/
def decodeCustom3 (x : Fields) : Option Instr :=
  match x.f3 with
  | 0#3 =>
    match x.f7 with
    | 0#7 =>
      if x.b = 0#5 ∧ x.d.extractLsb' 4 1 = 0#1 then some (.sbind (x.d.extractLsb' 0 4) x.a) else none
    | 1#7 => if x.d.extractLsb' 4 1 = 0#1 then some (.sset (x.d.extractLsb' 0 4) x.a x.b) else none
    | 2#7 =>
      if x.a = 0#5 ∧ x.b = 0#5 ∧ x.d.extractLsb' 4 1 = 0#1 then some (.sfence (x.d.extractLsb' 0 4)) else none
    | 3#7 =>
      if x.b = 0#5 ∧ x.a.extractLsb' 4 1 = 0#1 then some (.vbind x.d (x.a.extractLsb' 0 4)) else none
    | 4#7 => if x.a = 0#5 ∧ x.b = 0#5 then some (.vunbind x.d) else none
    | _ => none
  | 1#3 =>
    match x.f7 with
    | 0#7 => if x.d = 0#5 ∧ x.b = 0#5 then some (.cpyt x.a) else none
    | 1#7 => if x.d = 0#5 then some (.cpyg x.a x.b) else none
    | 2#7 => if x.d = 0#5 ∧ x.b = 0#5 then some (.cpyc x.a) else none
    | 3#7 => if x.d = 0#5 then some (.ownset x.a x.b) else none
    | 4#7 => if x.b = 0#5 then some (.owntst x.d x.a) else none
    | _ => none
  | 2#3 =>
    if x.b = 0#5 ∧ x.d.extractLsb' 3 2 = 0#2 then
      match x.f7 with
      | 0#7 =>
        if x.a.extractLsb' 2 3 = 0#3 then some (.mena (x.d.extractLsb' 0 3) (x.a.extractLsb' 0 2)) else none
      | 1#7 => if x.a = 0#5 then some (.mdis (x.d.extractLsb' 0 3)) else none
      | _ => none
    else none
  | 3#3 =>
    if x.d = 0#5 ∧ x.a = 0#5 ∧ x.b = 0#5 then
      match x.f7 with
      | 0#7 => some .xfsave
      | 1#7 => some .xfload
      | _ => none
    else none
  | _ => none

/-- BRANCH (R89). -/
def decodeBranch (x : Fields) : Option Instr :=
  match x.f3 with
  | 0#3 => some (.beq x.a x.b x.offB)
  | 1#3 => some (.bne x.a x.b x.offB)
  | 4#3 => some (.blt x.a x.b x.offB)
  | 5#3 => some (.bge x.a x.b x.offB)
  | 6#3 => some (.bltu x.a x.b x.offB)
  | 7#3 => some (.bgeu x.a x.b x.offB)
  | _ => none

/-- LOAD (R89). -/
def decodeLoad (x : Fields) : Option Instr :=
  match x.f3 with
  | 0#3 => some (.lb x.d x.a x.immI)
  | 1#3 => some (.lh x.d x.a x.immI)
  | 2#3 => some (.lw x.d x.a x.immI)
  | 3#3 => some (.ld x.d x.a x.immI)
  | 4#3 => some (.lbu x.d x.a x.immI)
  | 5#3 => some (.lhu x.d x.a x.immI)
  | 6#3 => some (.lwu x.d x.a x.immI)
  | _ => none

/-- STORE (R89). -/
def decodeStore (x : Fields) : Option Instr :=
  match x.f3 with
  | 0#3 => some (.sb x.a x.b x.immS)
  | 1#3 => some (.sh x.a x.b x.immS)
  | 2#3 => some (.sw x.a x.b x.immS)
  | 3#3 => some (.sd x.a x.b x.immS)
  | _ => none

/-- The 32-bit instruction that the fields stand for, before the checks of R69 (R76). -/
noncomputable def decodeFields (x : Fields) : Option Instr :=
  match x.opc with
  | 0x37#7 => some (.lui x.d x.immU)
  | 0x17#7 => some (.auipc x.d x.immU)
  | 0x6F#7 => some (.jal x.d x.offJ)
  | 0x67#7 => if x.f3 = 0#3 then some (.jalr x.d x.a x.immI) else none
  | 0x63#7 => decodeBranch x
  | 0x03#7 => decodeLoad x
  | 0x23#7 => decodeStore x
  | 0x13#7 => decodeOpImm x
  | 0x1B#7 => decodeOpImm32 x
  | 0x33#7 => decodeOp x
  | 0x3B#7 => decodeOp32 x
  | 0x0F#7 => decodeMiscMem x
  | 0x2F#7 => decodeAmo x
  | 0x73#7 => decodeSystem x
  | 0x0B#7 => decodeCustom0 x
  | 0x2B#7 => decodeCustom1 x
  | 0x5B#7 => decodeCustom2 x
  | 0x7B#7 => decodeCustom3 x
  | _ => none

/-- A 32-bit word that passes the checks is that instruction; any other is Illegal (R69, R76). -/
noncomputable def decode32 (w : BitVec 32) : Except DecodeError Instr :=
  match decodeFields (Fields.of w) with
  | none => .error .unassigned
  | some i => if i.wf then .ok i else .error .badField

/-! ## 64-bit instructions (R70) -/

/-- A 64-bit instruction cut into its group, its operation and its other fields. -/
structure WFields where
  grp : BitVec 3
  op  : BitVec 6
  w   : WWord
  deriving DecidableEq, Repr

def WFields.of (v : BitVec 64) : WFields :=
  { grp := v.extractLsb' 12 3, op := v.extractLsb' 49 6,
    w := { aux9 := v.extractLsb' 55 9, sat := v.extractLsb' 48 1, rm := v.extractLsb' 45 3,
           lqv := v.extractLsb' 44 1, em := v.extractLsb' 43 1, pe := v.extractLsb' 39 4,
           pg := v.extractLsb' 35 4, xp := v.extractLsb' 30 5, vs3 := v.extractLsb' 25 5,
           vs2 := v.extractLsb' 20 5, vs1 := v.extractLsb' 15 5, vd := v.extractLsb' 7 5 } }

/-- The word of the fields, [6:0] = 0111111. -/
def WFields.word (x : WFields) : BitVec 64 :=
  x.w.aux9 ++ x.op ++ x.w.sat ++ x.w.rm ++ x.w.lqv ++ x.w.em ++ x.w.pe ++ x.w.pg ++ x.w.xp ++ x.w.vs3 ++
    x.w.vs2 ++ x.w.vs1 ++ x.grp ++ x.w.vd ++ 0x3F#7

/-- Group 0, integer (R74). -/
def decodeW0 (op : BitVec 6) (w : WWord) : Option Instr :=
  match op with
  | 0#6 => some (.vadd w)
  | 1#6 => some (.vsub w)
  | 2#6 => some (.vrsub w)
  | 3#6 => some (.vmul w)
  | 4#6 => some (.vmulh w)
  | 5#6 => some (.vmadd w)
  | 6#6 => some (.vdiv w)
  | 7#6 => some (.vrem w)
  | 8#6 => some (.vmin w)
  | 9#6 => some (.vmax w)
  | 10#6 => some (.vand w)
  | 11#6 => some (.vor w)
  | 12#6 => some (.vxor w)
  | 13#6 => some (.vshl w)
  | 14#6 => some (.vshr w)
  | 15#6 => some (.vabsd w)
  | 16#6 => some (.vcmp w)
  | 17#6 => some (.vidx w)
  | 18#6 => some (.vnshr w)
  | _ => none

/-- Group 1, floating point (R74). -/
def decodeW1 (op : BitVec 6) (w : WWord) : Option Instr :=
  match op with
  | 0#6 => some (.vfadd w)
  | 1#6 => some (.vfsub w)
  | 2#6 => some (.vfmul w)
  | 3#6 => some (.vfdiv w)
  | 4#6 => some (.vfsqrt w)
  | 5#6 => some (.vfma w)
  | 6#6 => some (.vfmin w)
  | 7#6 => some (.vfmax w)
  | 8#6 => some (.vfrcp w)
  | 9#6 => some (.vfrsq w)
  | 10#6 => some (.vfexp2 w)
  | 11#6 => some (.vflog2 w)
  | 12#6 => some (.vfcmp w)
  | 13#6 => some (.vfclass w)
  | 14#6 => some (.vfsgn w)
  | 15#6 => some (.vcvt w)
  | _ => none

/-- Group 2, movement, predicates, reductions (R74). -/
def decodeW2 (op : BitVec 6) (w : WWord) : Option Instr :=
  match op with
  | 0#6 => some (.vslup w)
  | 1#6 => some (.vsldn w)
  | 2#6 => some (.vgathr w)
  | 3#6 => some (.vcompr w)
  | 4#6 => some (.vexpnd w)
  | 5#6 => some (.vsel w)
  | 6#6 => some (.vbcast w)
  | 7#6 => some (.vmvx w)
  | 8#6 => some (.vmvq w)
  | 9#6 => some (.vplog w)
  | 10#6 => some (.vpcnt w)
  | 11#6 => some (.vpfirst w)
  | 12#6 => some (.vpscan w)
  | 13#6 => some (.vpset w)
  | 14#6 => some (.vmpush w)
  | 15#6 => some (.vmelse w)
  | 16#6 => some (.vmpop w)
  | 17#6 => some (.vredi w)
  | 18#6 => some (.vredf w)
  | 19#6 => some (.vquad w)
  | _ => none

/-- Group 3, memory (R74). -/
def decodeW3 (op : BitVec 6) (w : WWord) : Option Instr :=
  match op with
  | 0#6 => some (.vld w)
  | 1#6 => some (.vst w)
  | 2#6 => some (.vlds w)
  | 3#6 => some (.vsts w)
  | 4#6 => some (.vldx w)
  | 5#6 => some (.vstx w)
  | 6#6 => some (.vlseg w)
  | 7#6 => some (.vsseg w)
  | 8#6 => some (.vamo w)
  | 9#6 => some (.vstr w)
  | 10#6 => some (.vwacc w)
  | 11#6 => some (.vprf w)
  | _ => none

/-- Group 4, matrix (R74). -/
def decodeW4 (op : BitVec 6) (w : WWord) : Option Instr :=
  match op with
  | 0#6 => some (.mzero w)
  | 1#6 => some (.mmac w)
  | 2#6 => some (.mmacv w)
  | 3#6 => some (.mslco w)
  | 4#6 => some (.mslci w)
  | 5#6 => some (.mldt w)
  | 6#6 => some (.mstt w)
  | 7#6 => some (.mscal w)
  | _ => none

/-- Group 5, graphics (R74). -/
def decodeW5 (op : BitVec 6) (w : WWord) : Option Instr :=
  match op with
  | 0#6 => some (.vtex w)
  | 1#6 => some (.vtexg w)
  | 2#6 => some (.vtexq w)
  | 3#6 => some (.vtexs w)
  | 4#6 => some (.vintp w)
  | 5#6 => some (.vrayi w)
  | 6#6 => some (.vrayt w)
  | 7#6 => some (.vrayc w)
  | 8#6 => some (.vraya w)
  | _ => none

/-- Group 6, delta (R74). -/
def decodeW6 (op : BitVec 6) (w : WWord) : Option Instr :=
  match op with
  | 0#6 => some (.dpush w)
  | 1#6 => some (.dpop w)
  | 2#6 => some (.dseal w)
  | 3#6 => some (.dlook w)
  | 4#6 => some (.dnext w)
  | 5#6 => some (.dapply w)
  | 6#6 => some (.dscan w)
  | 7#6 => some (.dqstat w)
  | 8#6 => some (.dbind w)
  | _ => none

/-- The W instruction that a group and an operation name, before the checks of R73; an experimental combination is
the instruction that the decode expansion table may define (R74, R75). -/
def decodeWFields (x : WFields) : Option Instr :=
  if experimental x.grp x.op then some (.experimentalInstruction x.grp x.op x.w)
  else
    match x.grp with
    | 0#3 => decodeW0 x.op x.w
    | 1#3 => decodeW1 x.op x.w
    | 2#3 => decodeW2 x.op x.w
    | 3#3 => decodeW3 x.op x.w
    | 4#3 => decodeW4 x.op x.w
    | 5#3 => decodeW5 x.op x.w
    | _ => decodeW6 x.op x.w

/-- A 64-bit word that passes the checks is that instruction; any other is Illegal (R73, R76). -/
def decode64 (v : BitVec 64) : Except DecodeError Instr :=
  match decodeWFields (WFields.of v) with
  | none => .error .unassignedW
  | some i => if i.wf then .ok i else .error .badField

/-! ## Bytes -/

/-- Little-endian bytes as one number (R2). -/
def bytesToNat : List Byte → Nat
  | [] => 0
  | b :: bs => b.toNat + 256 * bytesToNat bs

/-- The n low bytes of a number, little-endian (R2). -/
def natToBytes : Nat → Nat → List Byte
  | 0, _ => []
  | n + 1, v => BitVec.ofNat 8 v :: natToBytes n (v / 256)

/-- The length in bytes that the first parcel gives, or why it has none (R61). -/
def parcelLength (p : BitVec 32) : Except DecodeError Nat :=
  if p.extractLsb' 0 2 ≠ 3#2 then .error .length16
  else if p.extractLsb' 2 3 ≠ 7#3 then .ok 4
  else if p.extractLsb' 0 7 = 0x3F#7 then .ok 8
  else if p.extractLsb' 0 6 = 0x1F#6 then .error .length48
  else .error .lengthLong

/-- Decodes the instruction at the head of the bytes, and gives its length in bytes. -/
noncomputable def decode (bs : List Byte) : Except DecodeError (Instr × Nat) :=
  if bs.length < 4 then .error .truncated
  else
    match parcelLength (BitVec.ofNat 32 (bytesToNat (bs.take 4))) with
    | .error e => .error e
    | .ok 4 => (decode32 (BitVec.ofNat 32 (bytesToNat (bs.take 4)))).map fun i => (i, 4)
    | .ok _ =>
      if bs.length < 8 then .error .truncated
      else (decode64 (BitVec.ofNat 64 (bytesToNat (bs.take 8)))).map fun i => (i, 8)

/-- What the decoder reads from an instruction whose bits are w, numbered as spec/opcode_table.json numbers them. The
bits above nbits are 0. -/
noncomputable def decodeTableWord (nbits w : Nat) : Option Instr :=
  match decode (natToBytes 8 (w % 2 ^ nbits)) with
  | .ok (i, _) => some i
  | .error _ => none

/-! ## The encoder -/

/-- The fields of a 32-bit instruction; none for a 64-bit one or an event (R65 to R68, R89). -/
def encodeFields : Instr → Option Fields
  | .lui rd imm => some (.u 0x37#7 rd imm)
  | .auipc rd imm => some (.u 0x17#7 rd imm)
  | .jal rd off => some (.j 0x6F#7 rd off)
  | .jalr rd rs1 imm => some (.i 0x67#7 0#3 rd rs1 imm)
  | .beq rs1 rs2 off => some (.br 0x63#7 0#3 rs1 rs2 off)
  | .bne rs1 rs2 off => some (.br 0x63#7 1#3 rs1 rs2 off)
  | .blt rs1 rs2 off => some (.br 0x63#7 4#3 rs1 rs2 off)
  | .bge rs1 rs2 off => some (.br 0x63#7 5#3 rs1 rs2 off)
  | .bltu rs1 rs2 off => some (.br 0x63#7 6#3 rs1 rs2 off)
  | .bgeu rs1 rs2 off => some (.br 0x63#7 7#3 rs1 rs2 off)
  | .lb rd rs1 imm => some (.i 0x03#7 0#3 rd rs1 imm)
  | .lh rd rs1 imm => some (.i 0x03#7 1#3 rd rs1 imm)
  | .lw rd rs1 imm => some (.i 0x03#7 2#3 rd rs1 imm)
  | .ld rd rs1 imm => some (.i 0x03#7 3#3 rd rs1 imm)
  | .lbu rd rs1 imm => some (.i 0x03#7 4#3 rd rs1 imm)
  | .lhu rd rs1 imm => some (.i 0x03#7 5#3 rd rs1 imm)
  | .lwu rd rs1 imm => some (.i 0x03#7 6#3 rd rs1 imm)
  | .sb rs1 rs2 imm => some (.s 0x23#7 0#3 rs1 rs2 imm)
  | .sh rs1 rs2 imm => some (.s 0x23#7 1#3 rs1 rs2 imm)
  | .sw rs1 rs2 imm => some (.s 0x23#7 2#3 rs1 rs2 imm)
  | .sd rs1 rs2 imm => some (.s 0x23#7 3#3 rs1 rs2 imm)
  | .addi rd rs1 imm => some (.i 0x13#7 0#3 rd rs1 imm)
  | .slti rd rs1 imm => some (.i 0x13#7 2#3 rd rs1 imm)
  | .sltiu rd rs1 imm => some (.i 0x13#7 3#3 rd rs1 imm)
  | .xori rd rs1 imm => some (.i 0x13#7 4#3 rd rs1 imm)
  | .ori rd rs1 imm => some (.i 0x13#7 6#3 rd rs1 imm)
  | .andi rd rs1 imm => some (.i 0x13#7 7#3 rd rs1 imm)
  | .slli rd rs1 shamt => some (.sh 0x13#7 1#3 0#6 rd rs1 shamt)
  | .srli rd rs1 shamt => some (.sh 0x13#7 5#3 0#6 rd rs1 shamt)
  | .srai rd rs1 shamt => some (.sh 0x13#7 5#3 16#6 rd rs1 shamt)
  | .rori rd rs1 shamt => some (.sh 0x13#7 5#3 24#6 rd rs1 shamt)
  | .clz rd rs1 => some (.r 0x13#7 1#3 0x30#7 rd rs1 0#5)
  | .ctz rd rs1 => some (.r 0x13#7 1#3 0x30#7 rd rs1 1#5)
  | .cpop rd rs1 => some (.r 0x13#7 1#3 0x30#7 rd rs1 2#5)
  | .sextB rd rs1 => some (.r 0x13#7 1#3 0x30#7 rd rs1 4#5)
  | .sextH rd rs1 => some (.r 0x13#7 1#3 0x30#7 rd rs1 5#5)
  | .orcB rd rs1 => some (.r 0x13#7 5#3 0x14#7 rd rs1 7#5)
  | .rev8 rd rs1 => some (.r 0x13#7 5#3 0x35#7 rd rs1 24#5)
  | .addiw rd rs1 imm => some (.i 0x1B#7 0#3 rd rs1 imm)
  | .slliw rd rs1 shamt => some (.r 0x1B#7 1#3 0x0#7 rd rs1 shamt)
  | .srliw rd rs1 shamt => some (.r 0x1B#7 5#3 0x0#7 rd rs1 shamt)
  | .sraiw rd rs1 shamt => some (.r 0x1B#7 5#3 0x20#7 rd rs1 shamt)
  | .roriw rd rs1 shamt => some (.r 0x1B#7 5#3 0x30#7 rd rs1 shamt)
  | .slliUw rd rs1 shamt => some (.sh 0x1B#7 1#3 2#6 rd rs1 shamt)
  | .clzw rd rs1 => some (.r 0x1B#7 1#3 0x30#7 rd rs1 0#5)
  | .ctzw rd rs1 => some (.r 0x1B#7 1#3 0x30#7 rd rs1 1#5)
  | .cpopw rd rs1 => some (.r 0x1B#7 1#3 0x30#7 rd rs1 2#5)
  | .add rd rs1 rs2 => some (.r 0x33#7 0#3 0x0#7 rd rs1 rs2)
  | .sll rd rs1 rs2 => some (.r 0x33#7 1#3 0x0#7 rd rs1 rs2)
  | .slt rd rs1 rs2 => some (.r 0x33#7 2#3 0x0#7 rd rs1 rs2)
  | .sltu rd rs1 rs2 => some (.r 0x33#7 3#3 0x0#7 rd rs1 rs2)
  | .xor rd rs1 rs2 => some (.r 0x33#7 4#3 0x0#7 rd rs1 rs2)
  | .srl rd rs1 rs2 => some (.r 0x33#7 5#3 0x0#7 rd rs1 rs2)
  | .or rd rs1 rs2 => some (.r 0x33#7 6#3 0x0#7 rd rs1 rs2)
  | .and rd rs1 rs2 => some (.r 0x33#7 7#3 0x0#7 rd rs1 rs2)
  | .sub rd rs1 rs2 => some (.r 0x33#7 0#3 0x20#7 rd rs1 rs2)
  | .sra rd rs1 rs2 => some (.r 0x33#7 5#3 0x20#7 rd rs1 rs2)
  | .xnor rd rs1 rs2 => some (.r 0x33#7 4#3 0x20#7 rd rs1 rs2)
  | .orn rd rs1 rs2 => some (.r 0x33#7 6#3 0x20#7 rd rs1 rs2)
  | .andn rd rs1 rs2 => some (.r 0x33#7 7#3 0x20#7 rd rs1 rs2)
  | .mul rd rs1 rs2 => some (.r 0x33#7 0#3 0x1#7 rd rs1 rs2)
  | .mulh rd rs1 rs2 => some (.r 0x33#7 1#3 0x1#7 rd rs1 rs2)
  | .mulhsu rd rs1 rs2 => some (.r 0x33#7 2#3 0x1#7 rd rs1 rs2)
  | .mulhu rd rs1 rs2 => some (.r 0x33#7 3#3 0x1#7 rd rs1 rs2)
  | .div rd rs1 rs2 => some (.r 0x33#7 4#3 0x1#7 rd rs1 rs2)
  | .divu rd rs1 rs2 => some (.r 0x33#7 5#3 0x1#7 rd rs1 rs2)
  | .rem rd rs1 rs2 => some (.r 0x33#7 6#3 0x1#7 rd rs1 rs2)
  | .remu rd rs1 rs2 => some (.r 0x33#7 7#3 0x1#7 rd rs1 rs2)
  | .sh1add rd rs1 rs2 => some (.r 0x33#7 2#3 0x10#7 rd rs1 rs2)
  | .sh2add rd rs1 rs2 => some (.r 0x33#7 4#3 0x10#7 rd rs1 rs2)
  | .sh3add rd rs1 rs2 => some (.r 0x33#7 6#3 0x10#7 rd rs1 rs2)
  | .min rd rs1 rs2 => some (.r 0x33#7 4#3 0x5#7 rd rs1 rs2)
  | .minu rd rs1 rs2 => some (.r 0x33#7 5#3 0x5#7 rd rs1 rs2)
  | .max rd rs1 rs2 => some (.r 0x33#7 6#3 0x5#7 rd rs1 rs2)
  | .maxu rd rs1 rs2 => some (.r 0x33#7 7#3 0x5#7 rd rs1 rs2)
  | .rol rd rs1 rs2 => some (.r 0x33#7 1#3 0x30#7 rd rs1 rs2)
  | .ror rd rs1 rs2 => some (.r 0x33#7 5#3 0x30#7 rd rs1 rs2)
  | .czeroEqz rd rs1 rs2 => some (.r 0x33#7 5#3 0x7#7 rd rs1 rs2)
  | .czeroNez rd rs1 rs2 => some (.r 0x33#7 7#3 0x7#7 rd rs1 rs2)
  | .addw rd rs1 rs2 => some (.r 0x3B#7 0#3 0x0#7 rd rs1 rs2)
  | .sllw rd rs1 rs2 => some (.r 0x3B#7 1#3 0x0#7 rd rs1 rs2)
  | .srlw rd rs1 rs2 => some (.r 0x3B#7 5#3 0x0#7 rd rs1 rs2)
  | .subw rd rs1 rs2 => some (.r 0x3B#7 0#3 0x20#7 rd rs1 rs2)
  | .sraw rd rs1 rs2 => some (.r 0x3B#7 5#3 0x20#7 rd rs1 rs2)
  | .mulw rd rs1 rs2 => some (.r 0x3B#7 0#3 0x1#7 rd rs1 rs2)
  | .divw rd rs1 rs2 => some (.r 0x3B#7 4#3 0x1#7 rd rs1 rs2)
  | .divuw rd rs1 rs2 => some (.r 0x3B#7 5#3 0x1#7 rd rs1 rs2)
  | .remw rd rs1 rs2 => some (.r 0x3B#7 6#3 0x1#7 rd rs1 rs2)
  | .remuw rd rs1 rs2 => some (.r 0x3B#7 7#3 0x1#7 rd rs1 rs2)
  | .addUw rd rs1 rs2 => some (.r 0x3B#7 0#3 0x4#7 rd rs1 rs2)
  | .sh1addUw rd rs1 rs2 => some (.r 0x3B#7 2#3 0x10#7 rd rs1 rs2)
  | .sh2addUw rd rs1 rs2 => some (.r 0x3B#7 4#3 0x10#7 rd rs1 rs2)
  | .sh3addUw rd rs1 rs2 => some (.r 0x3B#7 6#3 0x10#7 rd rs1 rs2)
  | .rolw rd rs1 rs2 => some (.r 0x3B#7 1#3 0x30#7 rd rs1 rs2)
  | .rorw rd rs1 rs2 => some (.r 0x3B#7 5#3 0x30#7 rd rs1 rs2)
  | .zextH rd rs1 => some (.r 0x3B#7 4#3 4#7 rd rs1 0#5)
  | .fence fm pred succ rs1 rd => some (.r 0x0F#7 0#3 (fm ++ pred.extractLsb' 1 3) rd rs1 (pred.extractLsb' 0 1 ++ succ))
  | .pause => some (.r 0x0F#7 0#3 0#7 0#5 0#5 0x10#5)
  | .fenceI imm rs1 rd => some (.i 0x0F#7 1#3 rd rs1 imm)
  | .cboInval rs1 => some (.r 0x0F#7 2#3 0#7 0#5 rs1 0#5)
  | .cboClean rs1 => some (.r 0x0F#7 2#3 0#7 0#5 rs1 1#5)
  | .cboFlush rs1 => some (.r 0x0F#7 2#3 0#7 0#5 rs1 2#5)
  | .cboZero rs1 => some (.r 0x0F#7 2#3 0#7 0#5 rs1 4#5)
  | .lr aq rl w rd rs1 => some (.r 0x2F#7 (1#2 ++ w) (2#5 ++ aq ++ rl) rd rs1 0#5)
  | .sc aq rl w rd rs1 rs2 => some (.r 0x2F#7 (1#2 ++ w) (3#5 ++ aq ++ rl) rd rs1 rs2)
  | .amoswap aq rl w rd rs1 rs2 => some (.r 0x2F#7 (1#2 ++ w) (1#5 ++ aq ++ rl) rd rs1 rs2)
  | .amoadd aq rl w rd rs1 rs2 => some (.r 0x2F#7 (1#2 ++ w) (0#5 ++ aq ++ rl) rd rs1 rs2)
  | .amoxor aq rl w rd rs1 rs2 => some (.r 0x2F#7 (1#2 ++ w) (4#5 ++ aq ++ rl) rd rs1 rs2)
  | .amoand aq rl w rd rs1 rs2 => some (.r 0x2F#7 (1#2 ++ w) (12#5 ++ aq ++ rl) rd rs1 rs2)
  | .amoor aq rl w rd rs1 rs2 => some (.r 0x2F#7 (1#2 ++ w) (8#5 ++ aq ++ rl) rd rs1 rs2)
  | .amomin aq rl w rd rs1 rs2 => some (.r 0x2F#7 (1#2 ++ w) (16#5 ++ aq ++ rl) rd rs1 rs2)
  | .amomax aq rl w rd rs1 rs2 => some (.r 0x2F#7 (1#2 ++ w) (20#5 ++ aq ++ rl) rd rs1 rs2)
  | .amominu aq rl w rd rs1 rs2 => some (.r 0x2F#7 (1#2 ++ w) (24#5 ++ aq ++ rl) rd rs1 rs2)
  | .amomaxu aq rl w rd rs1 rs2 => some (.r 0x2F#7 (1#2 ++ w) (28#5 ++ aq ++ rl) rd rs1 rs2)
  | .ecall => some (.r 0x73#7 0#3 0x0#7 0#5 0#5 0#5)
  | .ebreak => some (.r 0x73#7 0#3 0x0#7 0#5 0#5 1#5)
  | .sret => some (.r 0x73#7 0#3 0x8#7 0#5 0#5 2#5)
  | .wfi => some (.r 0x73#7 0#3 0x8#7 0#5 0#5 5#5)
  | .sfenceVma rs1 rs2 => some (.r 0x73#7 0#3 9#7 0#5 rs1 rs2)
  | .csrrw csr rd rs1 => some (.i 0x73#7 1#3 rd rs1 csr)
  | .csrrs csr rd rs1 => some (.i 0x73#7 2#3 rd rs1 csr)
  | .csrrc csr rd rs1 => some (.i 0x73#7 3#3 rd rs1 csr)
  | .csrrwi csr rd uimm => some (.i 0x73#7 5#3 rd uimm csr)
  | .csrrsi csr rd uimm => some (.i 0x73#7 6#3 rd uimm csr)
  | .csrrci csr rd uimm => some (.i 0x73#7 7#3 rd uimm csr)
  | .vgrant rd level width => some (.r 0x0B#7 0#3 (level ++ 0#5) rd 0#5 (0#3 ++ width))
  | .qpush n rs1 => some (.r 0x0B#7 1#3 0#7 n rs1 0#5)
  | .qpop rd n => some (.r 0x0B#7 1#3 1#7 rd n 0#5)
  | .qstat rd n => some (.r 0x0B#7 1#3 2#7 rd n 0#5)
  | .vdrain => some (.r 0x0B#7 1#3 3#7 0#5 0#5 0#5)
  | .lqpop rd => some (.r 0x0B#7 1#3 4#7 rd 0#5 0#5)
  | .vsptr rd rs1 => some (.r 0x0B#7 1#3 5#7 rd rs1 0#5)
  | .vstrip rs1 rs2 off => some (.br 0x0B#7 2#3 rs1 rs2 off)
  | .bpany p off => some (.br 0x0B#7 4#3 (0#1 ++ p) 0#5 off)
  | .bpall p off => some (.br 0x0B#7 5#3 (0#1 ++ p) 0#5 off)
  | .bpnone p off => some (.br 0x0B#7 6#3 (0#1 ++ p) 0#5 off)
  | .rres scope svc rd rs1 => some (.r 0x2B#7 0#3 (0#4 ++ scope) rd rs1 (0#4 ++ svc))
  | .rcom scope eos rs1 => some (.r 0x2B#7 0#3 (1#4 ++ scope) 0#5 rs1 (0#4 ++ eos))
  | .racq scope rd rs1 => some (.r 0x2B#7 0#3 (2#4 ++ scope) rd rs1 0#5)
  | .rrel scope rs1 => some (.r 0x2B#7 0#3 (3#4 ++ scope) 0#5 rs1 0#5)
  | .rpush scope rs1 rs2 => some (.r 0x2B#7 0#3 (4#4 ++ scope) 0#5 rs1 rs2)
  | .rpop scope rd rs1 => some (.r 0x2B#7 0#3 (5#4 ++ scope) rd rs1 0#5)
  | .rstat scope rd rs1 => some (.r 0x2B#7 0#3 (6#4 ++ scope) rd rs1 0#5)
  | .rclose scope cons rs1 => some (.r 0x2B#7 0#3 (7#4 ++ scope) 0#5 rs1 (0#4 ++ cons))
  | .rbeacon scope rs1 rs2 => some (.r 0x2B#7 0#3 (8#4 ++ scope) 0#5 rs1 rs2)
  | .hbind rs1 rs2 => some (.r 0x2B#7 1#3 0#7 0#5 rs1 rs2)
  | .hdone => some (.r 0x2B#7 1#3 1#7 0#5 0#5 0#5)
  | .hsend rs1 rs2 => some (.r 0x2B#7 1#3 2#7 0#5 rs1 rs2)
  | .pclaim rd rs1 rs2 => some (.r 0x2B#7 2#3 0#7 rd rs1 rs2)
  | .tbegin rd off => some (.i 0x5B#7 0#3 rd 0#5 off)
  | .torelse off => some (.i 0x5B#7 1#3 0#5 0#5 off)
  | .tend => some (.r 0x5B#7 2#3 0#7 0#5 0#5 0#5)
  | .tretry => some (.r 0x5B#7 2#3 1#7 0#5 0#5 0#5)
  | .tabort code => some (.r 0x5B#7 2#3 2#7 0#5 0#5 code)
  | .fenceS scope succ pred => some (.r 0x5B#7 2#3 3#7 (0#1 ++ pred) (0#1 ++ succ) (0#2 ++ scope))
  | .amoincw aq rl scope width rd rs1 rs2 => some (.r 0x5B#7 3#3 (aq ++ rl ++ scope ++ width) rd rs1 rs2)
  | .amoaddb width rd rs1 rs2 rs3 => some (.r 0x5B#7 4#3 (rs3 ++ width) rd rs1 rs2)
  | .awopen rs1 rs2 => some (.r 0x5B#7 5#3 0#7 0#5 rs1 rs2)
  | .awmerge scope => some (.r 0x5B#7 5#3 1#7 0#5 0#5 (0#2 ++ scope))
  | .awclose => some (.r 0x5B#7 5#3 2#7 0#5 0#5 0#5)
  | .sbind st rs1 => some (.r 0x7B#7 0#3 0#7 (0#1 ++ st) rs1 0#5)
  | .sset st rs1 rs2 => some (.r 0x7B#7 0#3 1#7 (0#1 ++ st) rs1 rs2)
  | .sfence st => some (.r 0x7B#7 0#3 2#7 (0#1 ++ st) 0#5 0#5)
  | .vbind vm st => some (.r 0x7B#7 0#3 3#7 vm (0#1 ++ st) 0#5)
  | .vunbind vm => some (.r 0x7B#7 0#3 4#7 vm 0#5 0#5)
  | .cpyt rs1 => some (.r 0x7B#7 1#3 0#7 0#5 rs1 0#5)
  | .cpyg rs1 rs2 => some (.r 0x7B#7 1#3 1#7 0#5 rs1 rs2)
  | .cpyc rs1 => some (.r 0x7B#7 1#3 2#7 0#5 rs1 0#5)
  | .ownset rs1 rs2 => some (.r 0x7B#7 1#3 3#7 0#5 rs1 rs2)
  | .owntst rd rs1 => some (.r 0x7B#7 1#3 4#7 rd rs1 0#5)
  | .mena tile mode => some (.r 0x7B#7 2#3 0#7 (0#2 ++ tile) (0#3 ++ mode) 0#5)
  | .mdis tile => some (.r 0x7B#7 2#3 1#7 (0#2 ++ tile) 0#5 0#5)
  | .xfsave => some (.r 0x7B#7 3#3 0#7 0#5 0#5 0#5)
  | .xfload => some (.r 0x7B#7 3#3 1#7 0#5 0#5 0#5)
  | .deltaDrain _ => none
  | .quietSet _ _ => none
  | .copyHandOver _ => none
  | .copyCompletion _ _ => none
  | .collectiveUseComplete _ _ => none
  | .transactionWake _ _ => none
  | .channelArrival _ _ => none
  | .handlerRunStart _ => none
  | .place _ => none
  | .launchRingService _ _ => none
  | .gangCompletion _ => none
  | .doneRecordDrain _ => none
  | .ringServiceResume _ => none
  | .shootdownAcknowledge _ _ => none
  | .shootdownComplete _ => none
  | .contain _ => none
  | .drawRecord _ => none
  | .batchRecord _ => none
  | .blendRecord _ => none
  | .agentRingSpace _ => none
  | .agentBeacon _ => none
  | .elementTrain _ => none
  | .trainAcknowledgement _ => none
  | .warmReset => none
  | .coreFreeze _ => none
  | .peerResponse _ _ => none
  | .hostReadCompletion _ _ => none
  | .lanternInterrupt _ _ => none
  | .vadd _ => none
  | .vsub _ => none
  | .vrsub _ => none
  | .vmul _ => none
  | .vmulh _ => none
  | .vmadd _ => none
  | .vdiv _ => none
  | .vrem _ => none
  | .vmin _ => none
  | .vmax _ => none
  | .vand _ => none
  | .vor _ => none
  | .vxor _ => none
  | .vshl _ => none
  | .vshr _ => none
  | .vabsd _ => none
  | .vcmp _ => none
  | .vidx _ => none
  | .vnshr _ => none
  | .vfadd _ => none
  | .vfsub _ => none
  | .vfmul _ => none
  | .vfdiv _ => none
  | .vfsqrt _ => none
  | .vfma _ => none
  | .vfmin _ => none
  | .vfmax _ => none
  | .vfrcp _ => none
  | .vfrsq _ => none
  | .vfexp2 _ => none
  | .vflog2 _ => none
  | .vfcmp _ => none
  | .vfclass _ => none
  | .vfsgn _ => none
  | .vcvt _ => none
  | .vslup _ => none
  | .vsldn _ => none
  | .vgathr _ => none
  | .vcompr _ => none
  | .vexpnd _ => none
  | .vsel _ => none
  | .vbcast _ => none
  | .vmvx _ => none
  | .vmvq _ => none
  | .vplog _ => none
  | .vpcnt _ => none
  | .vpfirst _ => none
  | .vpscan _ => none
  | .vpset _ => none
  | .vmpush _ => none
  | .vmelse _ => none
  | .vmpop _ => none
  | .vredi _ => none
  | .vredf _ => none
  | .vquad _ => none
  | .vld _ => none
  | .vst _ => none
  | .vlds _ => none
  | .vsts _ => none
  | .vldx _ => none
  | .vstx _ => none
  | .vlseg _ => none
  | .vsseg _ => none
  | .vamo _ => none
  | .vstr _ => none
  | .vwacc _ => none
  | .vprf _ => none
  | .mzero _ => none
  | .mmac _ => none
  | .mmacv _ => none
  | .mslco _ => none
  | .mslci _ => none
  | .mldt _ => none
  | .mstt _ => none
  | .mscal _ => none
  | .vtex _ => none
  | .vtexg _ => none
  | .vtexq _ => none
  | .vtexs _ => none
  | .vintp _ => none
  | .vrayi _ => none
  | .vrayt _ => none
  | .vrayc _ => none
  | .vraya _ => none
  | .dpush _ => none
  | .dpop _ => none
  | .dseal _ => none
  | .dlook _ => none
  | .dnext _ => none
  | .dapply _ => none
  | .dscan _ => none
  | .dqstat _ => none
  | .dbind _ => none
  | .streamRunAhead _ _ => none
  | .streamStorePerform _ _ => none
  | .enqueue _ => none
  | .ownershipTimeout _ => none
  | .experimentalInstruction _ _ _ => none
  | .groupEntryWrite _ _ _ _ => none
  | .supervisorTimerInterrupt _ => none
  | .ssisetWrite _ _ => none
  | .trapEntry _ => none
  | .transactionAbort _ => none
  | .txdeadlineExpiry _ => none
  | .ageStep _ => none
  | .tickBoundary => none
  | .fabricSweep _ => none
  | .ringTableWrite _ _ _ => none
  | .bankmodeWrite _ _ => none
  | .shootdownIssue _ _ => none
  | .shootdownTimeout _ => none
  | .hostShootdownIssue _ => none
  | .pcdataWrite _ _ => none
  | .resume _ => none
  | .upcall _ => none
  | .stop _ => none
  | .agentResume _ => none
  | .agentEnable _ _ => none
  | .peerAccess _ => none
  | .linkDown _ => none
  | .hostMemoryWrite _ _ => none
  | .hostMemoryRead _ _ => none
  | .launchBeaconWrite _ _ _ => none
  | .hostBeaconWrite _ _ => none
  | .msixUnmask _ => none
  | .bar2ctlWrite _ => none
  | .getVersion _ => none
  | .getCapabilities _ => none
  | .negotiateAlgorithms _ => none
  | .getDigests _ => none
  | .getCertificate _ => none
  | .challenge _ => none
  | .getMeasurements _ => none
  | .unsupportedRequest _ => none
  | .doeAbort => none
  | .coldReset => none
  | .powerLimitWrite _ => none
  | .clockStep _ => none
  | .thermalTrip => none
  | .freeze => none
  | .lockstepMismatch _ => none
  | .debugHalt _ => none
  | .errlogRead _ => none
  | .budvalWrite _ _ => none
  | .featenWrite _ _ => none
  | .dxentWrite _ _ => none
  | .registerWrite _ _ => none
  | .pauseExpiry _ => none
  | .debugResume _ => none
  | .attestationLogAppend _ => none

/-- The fields of a 64-bit instruction; none for any other (R74). -/
def encodeWFields : Instr → Option WFields
  | .deltaDrain _ => none
  | .quietSet _ _ => none
  | .copyHandOver _ => none
  | .copyCompletion _ _ => none
  | .collectiveUseComplete _ _ => none
  | .transactionWake _ _ => none
  | .channelArrival _ _ => none
  | .handlerRunStart _ => none
  | .place _ => none
  | .launchRingService _ _ => none
  | .gangCompletion _ => none
  | .doneRecordDrain _ => none
  | .ringServiceResume _ => none
  | .shootdownAcknowledge _ _ => none
  | .shootdownComplete _ => none
  | .contain _ => none
  | .drawRecord _ => none
  | .batchRecord _ => none
  | .blendRecord _ => none
  | .agentRingSpace _ => none
  | .agentBeacon _ => none
  | .elementTrain _ => none
  | .trainAcknowledgement _ => none
  | .warmReset => none
  | .coreFreeze _ => none
  | .peerResponse _ _ => none
  | .hostReadCompletion _ _ => none
  | .lanternInterrupt _ _ => none
  | .lui _ _ => none
  | .auipc _ _ => none
  | .jal _ _ => none
  | .jalr _ _ _ => none
  | .beq _ _ _ => none
  | .bne _ _ _ => none
  | .blt _ _ _ => none
  | .bge _ _ _ => none
  | .bltu _ _ _ => none
  | .bgeu _ _ _ => none
  | .lb _ _ _ => none
  | .lh _ _ _ => none
  | .lw _ _ _ => none
  | .ld _ _ _ => none
  | .lbu _ _ _ => none
  | .lhu _ _ _ => none
  | .lwu _ _ _ => none
  | .sb _ _ _ => none
  | .sh _ _ _ => none
  | .sw _ _ _ => none
  | .sd _ _ _ => none
  | .addi _ _ _ => none
  | .slti _ _ _ => none
  | .sltiu _ _ _ => none
  | .xori _ _ _ => none
  | .ori _ _ _ => none
  | .andi _ _ _ => none
  | .slli _ _ _ => none
  | .srli _ _ _ => none
  | .srai _ _ _ => none
  | .rori _ _ _ => none
  | .clz _ _ => none
  | .ctz _ _ => none
  | .cpop _ _ => none
  | .sextB _ _ => none
  | .sextH _ _ => none
  | .orcB _ _ => none
  | .rev8 _ _ => none
  | .addiw _ _ _ => none
  | .slliw _ _ _ => none
  | .srliw _ _ _ => none
  | .sraiw _ _ _ => none
  | .roriw _ _ _ => none
  | .slliUw _ _ _ => none
  | .clzw _ _ => none
  | .ctzw _ _ => none
  | .cpopw _ _ => none
  | .add _ _ _ => none
  | .sll _ _ _ => none
  | .slt _ _ _ => none
  | .sltu _ _ _ => none
  | .xor _ _ _ => none
  | .srl _ _ _ => none
  | .or _ _ _ => none
  | .and _ _ _ => none
  | .sub _ _ _ => none
  | .sra _ _ _ => none
  | .xnor _ _ _ => none
  | .orn _ _ _ => none
  | .andn _ _ _ => none
  | .mul _ _ _ => none
  | .mulh _ _ _ => none
  | .mulhsu _ _ _ => none
  | .mulhu _ _ _ => none
  | .div _ _ _ => none
  | .divu _ _ _ => none
  | .rem _ _ _ => none
  | .remu _ _ _ => none
  | .sh1add _ _ _ => none
  | .sh2add _ _ _ => none
  | .sh3add _ _ _ => none
  | .min _ _ _ => none
  | .minu _ _ _ => none
  | .max _ _ _ => none
  | .maxu _ _ _ => none
  | .rol _ _ _ => none
  | .ror _ _ _ => none
  | .czeroEqz _ _ _ => none
  | .czeroNez _ _ _ => none
  | .addw _ _ _ => none
  | .sllw _ _ _ => none
  | .srlw _ _ _ => none
  | .subw _ _ _ => none
  | .sraw _ _ _ => none
  | .mulw _ _ _ => none
  | .divw _ _ _ => none
  | .divuw _ _ _ => none
  | .remw _ _ _ => none
  | .remuw _ _ _ => none
  | .addUw _ _ _ => none
  | .zextH _ _ => none
  | .sh1addUw _ _ _ => none
  | .sh2addUw _ _ _ => none
  | .sh3addUw _ _ _ => none
  | .rolw _ _ _ => none
  | .rorw _ _ _ => none
  | .fence _ _ _ _ _ => none
  | .pause => none
  | .fenceI _ _ _ => none
  | .cboInval _ => none
  | .cboClean _ => none
  | .cboFlush _ => none
  | .cboZero _ => none
  | .lr _ _ _ _ _ => none
  | .sc _ _ _ _ _ _ => none
  | .amoswap _ _ _ _ _ _ => none
  | .amoadd _ _ _ _ _ _ => none
  | .amoxor _ _ _ _ _ _ => none
  | .amoand _ _ _ _ _ _ => none
  | .amoor _ _ _ _ _ _ => none
  | .amomin _ _ _ _ _ _ => none
  | .amomax _ _ _ _ _ _ => none
  | .amominu _ _ _ _ _ _ => none
  | .amomaxu _ _ _ _ _ _ => none
  | .ecall => none
  | .ebreak => none
  | .sret => none
  | .wfi => none
  | .sfenceVma _ _ => none
  | .csrrw _ _ _ => none
  | .csrrs _ _ _ => none
  | .csrrc _ _ _ => none
  | .csrrwi _ _ _ => none
  | .csrrsi _ _ _ => none
  | .csrrci _ _ _ => none
  | .vgrant _ _ _ => none
  | .qpush _ _ => none
  | .qpop _ _ => none
  | .qstat _ _ => none
  | .vdrain => none
  | .lqpop _ => none
  | .vsptr _ _ => none
  | .vstrip _ _ _ => none
  | .bpany _ _ => none
  | .bpall _ _ => none
  | .bpnone _ _ => none
  | .rres _ _ _ _ => none
  | .rcom _ _ _ => none
  | .racq _ _ _ => none
  | .rrel _ _ => none
  | .rpush _ _ _ => none
  | .rpop _ _ _ => none
  | .rstat _ _ _ => none
  | .rclose _ _ _ => none
  | .rbeacon _ _ _ => none
  | .hbind _ _ => none
  | .hdone => none
  | .hsend _ _ => none
  | .pclaim _ _ _ => none
  | .tbegin _ _ => none
  | .torelse _ => none
  | .tend => none
  | .tretry => none
  | .tabort _ => none
  | .fenceS _ _ _ => none
  | .amoincw _ _ _ _ _ _ _ => none
  | .amoaddb _ _ _ _ _ => none
  | .awopen _ _ => none
  | .awmerge _ => none
  | .awclose => none
  | .sbind _ _ => none
  | .sset _ _ _ => none
  | .sfence _ => none
  | .vbind _ _ => none
  | .vunbind _ => none
  | .cpyt _ => none
  | .cpyg _ _ => none
  | .cpyc _ => none
  | .ownset _ _ => none
  | .owntst _ _ => none
  | .mena _ _ => none
  | .mdis _ => none
  | .xfsave => none
  | .xfload => none
  | .vadd w => some { grp := 0#3, op := 0#6, w := w }
  | .vsub w => some { grp := 0#3, op := 1#6, w := w }
  | .vrsub w => some { grp := 0#3, op := 2#6, w := w }
  | .vmul w => some { grp := 0#3, op := 3#6, w := w }
  | .vmulh w => some { grp := 0#3, op := 4#6, w := w }
  | .vmadd w => some { grp := 0#3, op := 5#6, w := w }
  | .vdiv w => some { grp := 0#3, op := 6#6, w := w }
  | .vrem w => some { grp := 0#3, op := 7#6, w := w }
  | .vmin w => some { grp := 0#3, op := 8#6, w := w }
  | .vmax w => some { grp := 0#3, op := 9#6, w := w }
  | .vand w => some { grp := 0#3, op := 10#6, w := w }
  | .vor w => some { grp := 0#3, op := 11#6, w := w }
  | .vxor w => some { grp := 0#3, op := 12#6, w := w }
  | .vshl w => some { grp := 0#3, op := 13#6, w := w }
  | .vshr w => some { grp := 0#3, op := 14#6, w := w }
  | .vabsd w => some { grp := 0#3, op := 15#6, w := w }
  | .vcmp w => some { grp := 0#3, op := 16#6, w := w }
  | .vidx w => some { grp := 0#3, op := 17#6, w := w }
  | .vnshr w => some { grp := 0#3, op := 18#6, w := w }
  | .vfadd w => some { grp := 1#3, op := 0#6, w := w }
  | .vfsub w => some { grp := 1#3, op := 1#6, w := w }
  | .vfmul w => some { grp := 1#3, op := 2#6, w := w }
  | .vfdiv w => some { grp := 1#3, op := 3#6, w := w }
  | .vfsqrt w => some { grp := 1#3, op := 4#6, w := w }
  | .vfma w => some { grp := 1#3, op := 5#6, w := w }
  | .vfmin w => some { grp := 1#3, op := 6#6, w := w }
  | .vfmax w => some { grp := 1#3, op := 7#6, w := w }
  | .vfrcp w => some { grp := 1#3, op := 8#6, w := w }
  | .vfrsq w => some { grp := 1#3, op := 9#6, w := w }
  | .vfexp2 w => some { grp := 1#3, op := 10#6, w := w }
  | .vflog2 w => some { grp := 1#3, op := 11#6, w := w }
  | .vfcmp w => some { grp := 1#3, op := 12#6, w := w }
  | .vfclass w => some { grp := 1#3, op := 13#6, w := w }
  | .vfsgn w => some { grp := 1#3, op := 14#6, w := w }
  | .vcvt w => some { grp := 1#3, op := 15#6, w := w }
  | .vslup w => some { grp := 2#3, op := 0#6, w := w }
  | .vsldn w => some { grp := 2#3, op := 1#6, w := w }
  | .vgathr w => some { grp := 2#3, op := 2#6, w := w }
  | .vcompr w => some { grp := 2#3, op := 3#6, w := w }
  | .vexpnd w => some { grp := 2#3, op := 4#6, w := w }
  | .vsel w => some { grp := 2#3, op := 5#6, w := w }
  | .vbcast w => some { grp := 2#3, op := 6#6, w := w }
  | .vmvx w => some { grp := 2#3, op := 7#6, w := w }
  | .vmvq w => some { grp := 2#3, op := 8#6, w := w }
  | .vplog w => some { grp := 2#3, op := 9#6, w := w }
  | .vpcnt w => some { grp := 2#3, op := 10#6, w := w }
  | .vpfirst w => some { grp := 2#3, op := 11#6, w := w }
  | .vpscan w => some { grp := 2#3, op := 12#6, w := w }
  | .vpset w => some { grp := 2#3, op := 13#6, w := w }
  | .vmpush w => some { grp := 2#3, op := 14#6, w := w }
  | .vmelse w => some { grp := 2#3, op := 15#6, w := w }
  | .vmpop w => some { grp := 2#3, op := 16#6, w := w }
  | .vredi w => some { grp := 2#3, op := 17#6, w := w }
  | .vredf w => some { grp := 2#3, op := 18#6, w := w }
  | .vquad w => some { grp := 2#3, op := 19#6, w := w }
  | .vld w => some { grp := 3#3, op := 0#6, w := w }
  | .vst w => some { grp := 3#3, op := 1#6, w := w }
  | .vlds w => some { grp := 3#3, op := 2#6, w := w }
  | .vsts w => some { grp := 3#3, op := 3#6, w := w }
  | .vldx w => some { grp := 3#3, op := 4#6, w := w }
  | .vstx w => some { grp := 3#3, op := 5#6, w := w }
  | .vlseg w => some { grp := 3#3, op := 6#6, w := w }
  | .vsseg w => some { grp := 3#3, op := 7#6, w := w }
  | .vamo w => some { grp := 3#3, op := 8#6, w := w }
  | .vstr w => some { grp := 3#3, op := 9#6, w := w }
  | .vwacc w => some { grp := 3#3, op := 10#6, w := w }
  | .vprf w => some { grp := 3#3, op := 11#6, w := w }
  | .mzero w => some { grp := 4#3, op := 0#6, w := w }
  | .mmac w => some { grp := 4#3, op := 1#6, w := w }
  | .mmacv w => some { grp := 4#3, op := 2#6, w := w }
  | .mslco w => some { grp := 4#3, op := 3#6, w := w }
  | .mslci w => some { grp := 4#3, op := 4#6, w := w }
  | .mldt w => some { grp := 4#3, op := 5#6, w := w }
  | .mstt w => some { grp := 4#3, op := 6#6, w := w }
  | .mscal w => some { grp := 4#3, op := 7#6, w := w }
  | .vtex w => some { grp := 5#3, op := 0#6, w := w }
  | .vtexg w => some { grp := 5#3, op := 1#6, w := w }
  | .vtexq w => some { grp := 5#3, op := 2#6, w := w }
  | .vtexs w => some { grp := 5#3, op := 3#6, w := w }
  | .vintp w => some { grp := 5#3, op := 4#6, w := w }
  | .vrayi w => some { grp := 5#3, op := 5#6, w := w }
  | .vrayt w => some { grp := 5#3, op := 6#6, w := w }
  | .vrayc w => some { grp := 5#3, op := 7#6, w := w }
  | .vraya w => some { grp := 5#3, op := 8#6, w := w }
  | .dpush w => some { grp := 6#3, op := 0#6, w := w }
  | .dpop w => some { grp := 6#3, op := 1#6, w := w }
  | .dseal w => some { grp := 6#3, op := 2#6, w := w }
  | .dlook w => some { grp := 6#3, op := 3#6, w := w }
  | .dnext w => some { grp := 6#3, op := 4#6, w := w }
  | .dapply w => some { grp := 6#3, op := 5#6, w := w }
  | .dscan w => some { grp := 6#3, op := 6#6, w := w }
  | .dqstat w => some { grp := 6#3, op := 7#6, w := w }
  | .dbind w => some { grp := 6#3, op := 8#6, w := w }
  | .streamRunAhead _ _ => none
  | .streamStorePerform _ _ => none
  | .enqueue _ => none
  | .ownershipTimeout _ => none
  | .experimentalInstruction grp op w => some { grp := grp, op := op, w := w }
  | .groupEntryWrite _ _ _ _ => none
  | .supervisorTimerInterrupt _ => none
  | .ssisetWrite _ _ => none
  | .trapEntry _ => none
  | .transactionAbort _ => none
  | .txdeadlineExpiry _ => none
  | .ageStep _ => none
  | .tickBoundary => none
  | .fabricSweep _ => none
  | .ringTableWrite _ _ _ => none
  | .bankmodeWrite _ _ => none
  | .shootdownIssue _ _ => none
  | .shootdownTimeout _ => none
  | .hostShootdownIssue _ => none
  | .pcdataWrite _ _ => none
  | .resume _ => none
  | .upcall _ => none
  | .stop _ => none
  | .agentResume _ => none
  | .agentEnable _ _ => none
  | .peerAccess _ => none
  | .linkDown _ => none
  | .hostMemoryWrite _ _ => none
  | .hostMemoryRead _ _ => none
  | .launchBeaconWrite _ _ _ => none
  | .hostBeaconWrite _ _ => none
  | .msixUnmask _ => none
  | .bar2ctlWrite _ => none
  | .getVersion _ => none
  | .getCapabilities _ => none
  | .negotiateAlgorithms _ => none
  | .getDigests _ => none
  | .getCertificate _ => none
  | .challenge _ => none
  | .getMeasurements _ => none
  | .unsupportedRequest _ => none
  | .doeAbort => none
  | .coldReset => none
  | .powerLimitWrite _ => none
  | .clockStep _ => none
  | .thermalTrip => none
  | .freeze => none
  | .lockstepMismatch _ => none
  | .debugHalt _ => none
  | .errlogRead _ => none
  | .budvalWrite _ _ => none
  | .featenWrite _ _ => none
  | .dxentWrite _ _ => none
  | .registerWrite _ _ => none
  | .pauseExpiry _ => none
  | .debugResume _ => none
  | .attestationLogAppend _ => none

/-- The bytes of an instruction, lowest address first (R62); an event has none. -/
def encode (i : Instr) : List Byte :=
  match encodeFields i with
  | some x => natToBytes 4 x.word.toNat
  | none =>
    match encodeWFields i with
    | some x => natToBytes 8 x.word.toNat
    | none => []

/-- The length of an instruction in bytes; an event has none. -/
def Instr.bytes (i : Instr) : Nat := (encode i).length

/-- The constructor stands for an instruction of a hart, not for an event of the device. -/
def Instr.isProgram (i : Instr) : Bool := (encodeFields i).isSome || (encodeWFields i).isSome

end Sys2Proof
end

