-- ==== Sys2Proof/Config.lean ====
section
/-! DEFINITION. What an implementation fixes and the free values: constants with no body, so that no proof sees what
they are (log entries 1, 12, 14). -/

namespace Sys2Proof

/-- A free value of w bits for the n-th draw: a value that the manual leaves open after an operation that completes
(log entry 12). -/
opaque Config.freeNat : Nat → Nat → Nat

/-- The bytes of the boot ROM (R234, R430), which the manual does not give. -/
opaque Config.bootRom : Nat → Byte

/-- The enabled-die fuses (R407, R429), one bit per compute die. -/
opaque Config.diesFuse : BitVec 4

/-- The feature fuses (R420). -/
opaque Config.featureFuse : BitVec 11

/-- The device's SVN fuses and the key hash fuses (R431). -/
opaque Config.svnFuse : Nat
opaque Config.keyFuse : List Byte

/-- The digest of the boot ROM, which the ROM writes to the log (R430). -/
opaque Config.romDigest : List Byte

/-- SHAKE256 with a digest of n bytes (R432): a function the manual names and does not define. -/
opaque Config.shake256 : Nat → List Byte → List Byte

/-- Whether a Falcon-1024 signature of a digest verifies under a key (R431). -/
opaque Config.falconVerify : List Byte → List Byte → List Byte → Bool

/-- A Falcon-1024 signature under the device's identity key (R412). -/
opaque Config.falconSign : List Byte → List Byte

/-- The device identity chain of certificate slot 0 (R412). -/
opaque Config.identityChain : List Byte

/-- The firmware images in slots A and B of the boot flash: header and payload (R430, R431). -/
opaque Config.bootFlash : Bool → List Byte

/-- The check word of a frame image over its bytes 64 onwards (R375), computed by the device. -/
opaque Config.frameCheck : List Byte → Word

/-- The body of a frame image, which is not architectural (R375): the device's own writing of the k-th frame it has
saved. -/
opaque Config.frameBody : Nat → List Byte

/-- The progress word of a copy command (R291): the manual says what it holds, a descriptor address, the next position or
record and the flags so far, and not where; and the position and the flags that a word given back names. -/
opaque Config.progressWord : Word → Nat → BitVec 6 → Word
opaque Config.progressNext : Word → Nat
opaque Config.progressFlags : Word → BitVec 6

/-- The bucket that a coarse wake table hashes a line's address to (R211): the manual gives 256 buckets and no hash. -/
opaque Config.lineBucket : Nat → Fin 256

/-- Registry identifier and further bytes of the SPDM algorithm response that the manual names and does not list
(R412). -/
opaque Config.spdmBytes : Nat → List Byte

/-- The size of BAR2 that the module's configuration fixes, 1 GiB to 1 TiB (R405): the exponent of the power of two, and the
size in GiB. -/
opaque Config.bar2Log : Fin 11
def Config.bar2Gib : Nat := 2 ^ Config.bar2Log.val

/-- Whether the debug module is enabled by the fuses or the signed firmware (R440). -/
opaque Config.debugEnabled : Bool

end Sys2Proof
end

