-- ==== Sys2Proof/Machine/State.lean ====
section
/-! DEFINITION. The state of the device as plain data, its reasons to stop, and the state right after reset. -/

namespace Sys2Proof.Machine

/-! ## Reasons to stop -/

/-- Why the machine stops with a fault. -/
inductive Fault where
  /-- Raised by nothing the manual lets a program reach: an event names a hart, cluster or unit the device does not
  have, so the outside world offered an input that cannot occur. Safe: the device has no such input. -/
  | noSuchUnit
  deriving DecidableEq, Repr

/-- Why the model has no meaning for a step. -/
inductive Refusal where
  /-- An arm of exec with no meaning yet. Safe. -/
  | notModelled (mnemonic : String)
  /-- EXPERIMENTAL_INSTRUCTION on a combination that the decode expansion table defines: the effect is the
  firmware's, and R427 calls the body not architectural. Safe. -/
  | expansionBody
  deriving DecidableEq, Repr

/-- The physical memory: (address, byte) pairs, addresses strictly rising, no entry equal to what an unlisted address
reads as (`Memory.wf`). -/
abbrev Memory := List Host.Cell

/-! ## A compute hart -/

/-- U and S mode (R10). -/
inductive Priv where
  | user | supervisor
  deriving DecidableEq, Repr

/-- What an instruction captures as it enters its queue (R27): its x operands, the palette word, vl, the width and
level codes of vgrant, vfrm and vxmask. -/
structure Captured where
  x1     : Word
  x2     : Word
  x3     : Word
  pal    : Word
  vl     : Nat
  width  : BitVec 2
  level  : BitVec 2
  vfrm   : BitVec 3
  vxmask : BitVec 6
  deriving DecidableEq, Repr

/-- An entry of VQ, MQ or CQ: the instruction, its address, its place in program order, what it captured, the
restart element of an entry that came back from a frame (R365, R378), whether it has dispatched, and the element at which
it began: a dispatched entry holds the vl and the q operand it popped (R28). -/
structure QEntry where
  pc    : Word
  instr : Instr
  cap   : Captured
  seq   : Nat
  start : Option Nat
  ready : Bool
  first : Nat := 0
  deriving DecidableEq, Repr

/-- A fault of a queued instruction, waiting for a scalar boundary (R364, R366). -/
structure StreamFault where
  seq    : Nat
  pc     : Word
  stream : Nat
  cause  : Nat
  sub    : Nat
  addr   : Word
  tval   : Word
  vstart : Nat
  deriving DecidableEq, Repr

/-- A TLB entry: the column slice that holds it in a core's TLB, its tag, page and what it grants (R261). -/
structure TlbEntry where
  slice : Nat
  asid  : Nat
  glob  : Bool
  va    : Nat
  bits  : Nat
  pa    : Nat
  read  : Bool
  write : Bool
  exec  : Bool
  user  : Bool
  dirty : Bool
  skew  : Nat
  dup   : Bool
  deriving DecidableEq, Repr

/-- The kinds of access that a translation tells apart (R256). -/
inductive Access where
  | fetch | load | store
  deriving DecidableEq, Repr

/-- Why an access fails, at which virtual address (R92, R256, R382). -/
inductive MemFault where
  | page (a : Access) (va : Word)
  | access (a : Access) (va : Word)
  | misaligned (a : Access) (va : Word)
  | poison (a : Access) (va : Word)
  deriving DecidableEq, Repr

/-- What a translation has done to the machine: an entry dropped from the TLBs of a core and of a cluster, or a walk that
has set A (and D) in the entry at an address, on behalf of a hart if it was one's own access, and filled the TLBs (R259,
R261). -/
inductive WalkNote where
  | drop (core : Option CoreId) (cluster : Option ClusterId) (e : TlbEntry)
  | fill (core : Option CoreId) (cluster : Option ClusterId) (e : TlbEntry) (pte : Nat) (bits : Word) (self : Option HartId)
  deriving DecidableEq, Repr

/-- A stream descriptor as SBIND read it, rm resolved (R145, R146). -/
structure StreamDesc where
  base    : Word
  pal     : Word
  stride1 : Word
  stride2 : Word
  stride0 : BitVec 32
  count0  : Nat
  count1  : Nat
  count2  : Nat
  store   : Bool
  fields  : Nat
  rm      : BitVec 3
  sat     : Bool
  scope   : Nat
  deriving DecidableEq, Repr

/-- An element that a load stream has loaded ahead: field, position and the raw memory bits (R150), or the fault that its
translation met, which is taken when the element is consumed (R262). -/
structure AheadElem where
  field : Nat
  pos   : Nat
  raw   : Nat
  fault : Option MemFault
  deriving DecidableEq, Repr

/-- An element appended to a store stream and not yet performed: where and what; half says which nibble of the byte a
4-bit element is (R149, R152). An element that has been in a frame has no translation left and is translated again when it
is performed (R264, R265, log entry 44). -/
structure AppendedElem where
  va   : Word
  pa   : Option Nat
  size : Nat
  data : Nat
  half : Option Bool
  deriving DecidableEq, Repr

/-- A stream register: its descriptor, the position of each field, run-ahead data, appended elements, and the translations
that it keeps ready, at most three (R262). -/
structure StreamReg where
  desc     : Option StreamDesc
  pos      : List Nat
  ahead    : List AheadElem
  appended : List AppendedElem
  ready    : List TlbEntry
  deriving DecidableEq, Repr

/-- A vector register bound to a field of a stream (R147). -/
structure Binding where
  reg    : Nat
  stream : Nat
  field  : Nat
  deriving DecidableEq, Repr

/-- A mask-stack entry: the saved mask S and the branch mask T (R136). -/
structure MaskEntry where
  saved  : BitVec 2048
  branch : BitVec 2048
  deriving DecidableEq, Repr

/-- The decoupled frame (R365). -/
structure Frame where
  vq       : List QEntry
  mq       : List QEntry
  cq       : List QEntry
  restart  : Nat
  faults   : List StreamFault
  masks    : List MaskEntry
  takenAt  : Nat
  vmsp     : Nat
  q        : Vector (List Word) 8
  lq       : List (BitVec 32)
  bindings : List Binding
  pos      : List (List Nat)
  ahead    : List (List AheadElem)
  appended : List (List AppendedElem)
  level    : BitVec 2
  vfpc     : Word
  vfcause  : Word
  vfaddr   : Word
  deriving DecidableEq, Repr

/-- A slot-list entry: handle, side (consumer or producer) and counter (R222). -/
structure SlotEntry where
  handle   : Word
  consumer : Bool
  counter  : Nat
  deriving DecidableEq, Repr

/-- A level of a transaction with its checkpoint (R197). -/
structure TxLevel where
  alt    : Bool
  x      : Vector Word 32
  vl     : Nat
  target : Word
  deriving DecidableEq, Repr

/-- A mark for a line at its home: the line, the virtual address read there first, and the translation of its page, whose
SKEW says which home it has (R207, R211) and which a shootdown may cover (R264). -/
structure Mark where
  line : Nat
  va   : Word
  page : Option TlbEntry
  deriving DecidableEq, Repr

/-- A write-set entry: a 32-byte sector, a virtual address in it with its page, the level that wrote it, and its bytes by
offset in the sector, each with the bits of it that are written: all of them, or one nibble (R36, R206). The entry of an owner-bit flip
has no bytes (R205). -/
structure TxWrite where
  sector : Nat
  va     : Word
  page   : Option TlbEntry
  level  : Nat
  bytes  : List (Nat × Byte × Byte)
  deriving DecidableEq, Repr

/-- What a commit does after its writes: an HSEND with its payload, an RBEACON, a ring's notification, or the seal that
the close of a delta ring brings (R205, R228, R341). -/
inductive Deferred where
  | hsend (level : Nat) (target : Word) (payload : List Byte)
  | beacon (level : Nat) (pa : Nat) (v : Word) (scope : Nat)
  | notify (level : Nat) (handle : Word)
  | close (level : Nat) (handle : Word)
  deriving DecidableEq, Repr

/-- A change of an owner field that occurs at commit (R205, R232). -/
structure OwnerFlip where
  level : Nat
  pa    : Nat
  owned : Bool
  deriving DecidableEq, Repr

/-- An open transaction: its levels innermost first, its sets, what it defers, whether it is doomed (and by a write
of which line's virtual address, none if a bucket of a coarse table doomed it) or ordered, and where it began (R197 to
R213). slots is the slot list it would leave at commit, with the level that changed it; taken lists the attachments that a
commit takes, as (level, ring, counter). -/
structure Tx where
  levels  : List TxLevel
  reads   : List Mark
  writes  : List TxWrite
  sends   : List Deferred
  flips   : List OwnerFlip
  slots   : List (Nat × List SlotEntry)
  taken   : List (Nat × Nat × Nat)
  doomed  : Bool
  doomVa  : Option Word
  ordered : Bool
  begin_  : Word
  rd      : Reg
  deriving DecidableEq, Repr

/-- An accumulation window: base, control word, and the private copies, each a list of (offset, value) in ascending
order for its touched elements (R190 to R192). -/
structure AccWindow where
  base   : Word
  ctl    : Word
  copies : List (List (Nat × Word))
  next   : Nat
  deriving DecidableEq, Repr

/-- Tile modes (R292, R293). -/
inductive TileMode where
  | f64 | i64 | f32p
  deriving DecidableEq, Repr

/-- A column's check state: sum, bound and skip bit (R309). -/
structure ColumnCheck where
  sum   : Word
  bound : Word
  skip  : Bool
  deriving DecidableEq, Repr

/-- An enabled tile: mode, 32 rows of 32 slots of 64 bits (slot s in bits [64s+63:64s]), and its check state. -/
structure Tile where
  mode   : TileMode
  rows   : Vector (BitVec 2048) 32
  chk    : Bool
  checks : List ColumnCheck
  deriving DecidableEq, Repr

/-- An operand group that the matrix engine holds for a hart (R298): the ring's handle, the first counter, and its ring
slots as physical addresses. -/
structure OperandGroup where
  handle : Word
  first  : Nat
  pas    : List Nat
  deriving DecidableEq, Repr

/-- LR's reservation: the line, and the address and size that an SC must match (R94). -/
structure Reservation where
  line : Nat
  addr : Word
  size : Nat
  deriving DecidableEq, Repr

/-- An element train of a VSTR (R187, R402): its destination, its elements as (address, size, data) in index order, and
whether the destination has performed them. -/
structure Train where
  dest  : Nat
  elems : List (Nat × Nat × Nat)
  done_ : Bool
  deriving DecidableEq, Repr

/-- What a stream of a hart waits for (R5 Held); line is a line that an ordered attempt holds, with the number that says
who waits for it first (R212). -/
inductive Held where
  | queueFull | queueEmpty | lqEmpty | lqFull | drain | older | memory | remote | release | copy | wait | frozen
  | line (l ticket : Nat)
  deriving DecidableEq, Repr

/-- Whether a hart can issue (R158, R170, R211, R371, R440). -/
inductive RunState where
  | idle | starting | running | paused | dormant | sleeping | parked | halted | ended
  deriving DecidableEq, Repr

/-- Whose work a hart does (R153 to R158): the launch and gang by number, thread or context, its number, stage, class,
priorities, tiles, and the lane groups of its seats. -/
structure Placed where
  launch : Nat
  gang   : Nat
  ctx    : Bool
  number : Nat
  stage  : Nat
  vclass : Nat
  prio   : Nat
  bclass : Nat
  tiles  : Nat
  groups : List Nat
  deriving DecidableEq, Repr

/-- A request to the host or a peer that waits for its answer: the hart whose access it is, or the hart whose copy command
made it, kind, address, size, and the data once it has come (R401, R404, R408); whether a link-down has completed it with
poison, or dropped it (R403). -/
structure RemoteRequest where
  id      : Nat
  hart    : Option HartId
  engine  : Option HartId
  write   : Bool
  amo     : Bool
  pa      : Nat
  size    : Nat
  data    : Option Nat
  poison  : Bool
  dropped : Bool
  deriving DecidableEq, Repr

/-- Where a sleeping attempt goes on when its deadline ends it: the abort target, rd, and whether the attempt ran in ordered
mode (R199, R211). -/
structure SleepTarget where
  target  : Word
  rd      : Reg
  ordered : Bool
  deriving DecidableEq, Repr

/-- A compute hart (R14 and the chapters after it). -/
structure Hart where
  id        : HartId
  run       : RunState
  held      : Option Held
  x         : Vector Word 32
  pc        : Word
  priv      : Priv
  -- S-mode CSRs (R10, R442)
  sstatus   : Word
  sie       : Word
  ssip      : Bool
  stvec     : Word
  sscratch  : Word
  sepc      : Word
  scause    : Word
  stval     : Word
  satp      : Word
  scounteren : Word
  senvcfg   : Word
  stimecmp  : Word
  mstatusTw : Bool
  -- Xrelte CSRs (R19)
  vpal      : Word
  vfrm      : BitVec 3
  vfflags   : BitVec 6
  vstart    : Nat
  vxmask    : BitVec 6
  vmspill   : Word
  vsptr     : Word
  rstat     : Word
  txstat    : Word
  txdeadline : Word
  hinfo     : Word
  awst      : BitVec 3
  vl        : Nat
  vgrant    : Word
  coord     : Word
  stage     : Word
  launchTag : Word
  xfbase    : Word
  vfpc      : Word
  vfcause   : Word
  vfaddr    : Word
  trroute   : Word
  hbase     : Word
  sbase     : Word
  instret   : Nat
  -- vector and matrix state (R14, R136, R145, R292, R298)
  v         : Vector (BitVec 16384) 32
  p         : Vector (BitVec 2048) 16
  vmsp      : Nat
  masks     : List MaskEntry
  st        : Vector StreamReg 16
  bindings  : List Binding
  q         : Vector (List Word) 8
  lq        : List (BitVec 32)
  vq        : List QEntry
  mq        : List QEntry
  cq        : List QEntry
  seq       : Nat
  faults    : List StreamFault
  frame     : Option Frame
  tiles     : Vector (Option Tile) 8
  groupA    : Option OperandGroup
  groupB    : Option OperandGroup
  window    : Option AccWindow
  trains    : List Train
  -- waiting and ordering
  reservation : Option Reservation
  fetchBuf  : List (Nat × Nat)
  slots     : List SlotEntry
  spareSlots : List (Nat × Word)
  tx        : Option Tx
  lastBegin : Option Word
  sleepTarget : Option SleepTarget
  footprint : List Nat
  acquiring : List Nat
  marks     : List Mark
  deadline  : Option Nat
  hostDirty : Bool
  -- scheduling (R153 to R172)
  placed    : Option Placed
  age       : Nat
  unselected : Nat
  serving   : Option (Nat × Nat × Nat)
  graphs    : List Nat
  -- parked context (R371)
  resumePc  : Word
  parkCause : Nat
  deriving DecidableEq, Repr

/-! ## A core -/

/-- One unserved or running arrival of a context's arrival area (R164). -/
structure ArrivalSlot where
  slot    : Nat
  chan    : Nat
  kind    : Nat
  source  : Option Nat
  len     : Nat
  running : Bool
  deriving DecidableEq, Repr

/-- An entry of the handler table (R162, R163): the entry word, its gang, and the overflow flag. -/
structure Channel where
  entry    : Word
  gang     : Nat
  overflow : Nat
  deriving DecidableEq, Repr

/-- A channel that waits on lines (R213). -/
structure WakeReg where
  chan     : Nat
  ctx      : Nat
  lines    : List Mark
  pc       : Word
  deadline : Option Nat
  deriving DecidableEq, Repr

/-- How a copy command ended: its status, the position or record that the status names, and the conversion flags (R278). -/
structure CopyEnd where
  status : Nat
  detail : Nat
  flags  : BitVec 6
  deriving DecidableEq, Repr

/-- A copy command in flight (R271): its hart, its queue entry, the descriptor as the engine read it, the address space
and privilege it works under, the slot it commits, whether it has joined a group use (R286), whether pre-emption has
stopped it, and the next position and the flags of its progress word (R291); how it has ended once its data has moved
(R279, R287), and whether it wrote to the host, whose writes it then waits for (R404, R408). -/
structure CopyCmd where
  hart    : HartId
  entry   : QEntry
  desc    : Nat
  gang    : Option Nat
  satp    : Word
  sbase   : Word
  priv    : Priv
  sum     : Bool
  mxr     : Bool
  slot    : Option SlotEntry
  joined  : Bool
  stopped : Bool
  next    : Nat
  flags   : BitVec 6
  ended   : Option CopyEnd
  host    : Bool
  deriving DecidableEq, Repr

/-- A core (R162 to R172, R213, R261, R271, R435). lastPicks holds the hart selected last at each priority level, and first
the hart that has the first of the two issue slots of the cycle under way (R170). -/
structure Core where
  channels : List (Nat × Channel)
  arrivals : List (Nat × ArrivalSlot)
  wakes    : List WakeReg
  tlb      : List TlbEntry
  copies   : List CopyCmd
  used     : List (Nat × Nat)
  frozen   : Bool
  lastPicks : List (Nat × Nat)
  first    : Option Nat
  deriving DecidableEq, Repr

/-! ## A cluster and its Lantern -/

/-- A budget of R434: limit and slack, what takes effect at the next tick, and what is used. -/
structure Budget where
  unit    : Nat
  cls     : Nat
  sub     : Nat
  limit   : Nat
  slack   : Bool
  pending : Option (Nat × Bool)
  used    : Nat
  deriving DecidableEq, Repr

/-- An entry of the decode expansion table (R427). -/
structure DxEntry where
  grp  : BitVec 3
  op   : BitVec 6
  word : Word
  deriving DecidableEq, Repr

/-- A bank set aside for VREG use, by the gang it is set aside for, and the harts that hold regions of it (R98). -/
structure SetAside where
  bank    : Nat
  gang    : Nat
  holders : List HartId
  deriving DecidableEq, Repr

/-- A reservation attached to a slot (R313): the slot's ring by the physical address of its descriptor, its counter, and
the producer entry it carries. -/
structure Attachment where
  ring    : Nat
  counter : Nat
  entry   : SlotEntry
  deriving DecidableEq, Repr

/-- A shootdown that has been broadcast: its registers at the go write, and the parties that have still to acknowledge
(R263, R264); cword is the physical address that its completion word had then, none where it had none, and order says which
of the shootdowns that are pending came first (R267). Parties are numbered: core k of cluster c is 8 × c + k, device-wide,
and the TLB of cluster c is 1,536 + c. -/
structure Broadcast where
  va     : Word
  ctl    : Word
  cword  : Option Nat
  silent : List Nat
  order  : Nat
  deriving DecidableEq, Repr

/-- The shootdown registers of a Lantern or of the host, and the shootdown that is PENDING (R263 to R266, R411). -/
structure Shootdown where
  va      : Word
  ctl     : Word
  cword   : Word
  issued  : Option Broadcast
  deriving DecidableEq, Repr

structure Cluster where
  bankmode  : Word
  bankst    : Word
  mincache  : Nat
  lanternBanks : List Nat
  setAside  : List SetAside
  tlb       : List TlbEntry
  owners    : List Nat
  pcsel     : Word
  pcidx     : Word
  pcst      : Nat
  budsel    : Word
  budgets   : List Budget
  errlog    : Word
  sd        : Shootdown
  mtimeout  : Word
  featen    : BitVec 11
  dxset     : BitVec 16
  dxst      : Nat
  dxsel     : Word
  dxtable   : List DxEntry
  irqs      : List Word
  wakeup    : List (HartId × Nat)
  stopped   : Bool
  deriving DecidableEq, Repr

/-! ## A die -/

/-- A launch share waiting in a placement queue (R174): launch number, gangs placed and left, pass count, queue. -/
structure Share where
  launch : Nat
  gangs  : Nat
  left   : Nat
  pass   : Nat
  high   : Bool
  deriving DecidableEq, Repr

/-- A completion record that waits for a free slot of its done ring (R159): its launch tag, the address space and handle
of the ring, its bytes, and the line of the ring's descriptor. -/
structure DoneRecord where
  tag   : Word
  asid  : Nat
  ring  : Word
  bytes : List Byte
  line  : Nat
  deriving DecidableEq, Repr

/-- A graphics agent: its registers (R315) and how far it has got. outs holds out0 to out8. counter is the input slot it
works on; progress is its next task or primitive and part the next block of that primitive; reserved lists the output slots
that it has reserved for later consumers and not yet used (R313); waits is the line of the descriptor whose space it waits
for. -/
structure Agent where
  ctl      : Word
  state    : Nat
  error    : Nat
  skipped  : BitVec 32
  inp      : Word
  eaddr    : Word
  outs     : List Word
  cfg      : Word
  counter  : Option Nat
  progress : Nat
  part     : Nat
  reserved : List SlotEntry
  waits    : Option Nat
  deriving DecidableEq, Repr

/-- A batch slot reserved for a draw, or a batch that rasterisers of its mask have still to finish (R318, R320): its ring
and counter, the draw's user word if a draw reserved it, whether a rasteriser has acquired it, its mask as that one read it,
and those that have finished with it. -/
structure Batch where
  ring    : Nat
  counter : Nat
  user    : Option Word
  opened  : Bool
  mask    : Nat
  done_   : Nat
  deriving DecidableEq, Repr

/-- A launch ring that firmware lists: ring index, handle, asid (R233). -/
structure LaunchRing where
  ring   : Nat
  handle : Word
  asid   : Nat
  deriving DecidableEq, Repr

structure Die where
  rings     : List LaunchRing
  high      : List Share
  normal    : List Share
  ageLimit  : Nat
  maskHigh  : Nat
  maskNorm  : Nat
  slots     : List Nat
  done      : List DoneRecord
  agents    : List (Nat × Agent)
  batches   : List Batch
  deriving DecidableEq, Repr

/-! ## The device -/

/-- An entry of the Lanterns' address-space table (R155, R255, R370). -/
structure AddressSpace where
  asid    : Nat
  satp    : Word
  sbase   : Word
  trroute : Option Word
  deriving DecidableEq, Repr

/-- A launch: its packet, what its address space gives, its panel dispenser, and its progress. -/
structure Launch where
  number   : Nat
  packet   : List Byte
  entries  : List (Word × Nat)
  satp     : Word
  sbase    : Word
  trroute  : Word
  slot     : Option Nat
  band     : Nat
  col      : Nat
  complete : Nat
  lost     : Nat
  contained : Bool
  deriving DecidableEq, Repr

/-- A placed gang (R153, R158, R245, R247): where it is and what it holds. units lists the scratch units as
(quad, slot), banks the FIFO banks in ascending order; the banks set aside for VREG use stand with the cluster. -/
structure Gang where
  number  : Nat
  launch  : Nat
  index   : Nat
  die     : Nat
  cluster : Nat
  units   : List (Nat × Nat)
  banks   : List Nat
  hctx    : Nat
  harts   : List HartId
  deriving DecidableEq, Repr

/-- A delta record (R336). -/
structure DeltaRec where
  key   : Word
  plo   : Word
  phi   : Word
  mult  : Int
  stage : Nat
  split : Bool
  deriving DecidableEq, Repr

/-- A delta ring's set of batches at its consolidation unit, by the physical address of its descriptor (R340, R342), with
the handle, the address space and the gang through which the last push reached it. -/
structure DeltaRing where
  pa       : Nat
  unit     : Nat
  open_    : List DeltaRec
  pending  : Option (List DeltaRec)
  sealNext : Bool
  handle   : Word
  satp     : Word
  sbase    : Word
  gang     : Option Nat
  priv     : Priv
  sum      : Bool
  die      : Nat
  deriving DecidableEq, Repr

/-- A ring's graph, by physical addresses, with the graph's virtual address and address space as DBIND named it; it stays
with the ring when its set of batches frees (R342, R348). -/
structure GraphMember where
  pa    : Nat
  graph : Nat
  va    : Word
  asid  : Nat
  deriving DecidableEq, Repr

/-- A graph's detector (R349): by the physical address of its descriptor; the quiet word as the detector has written it,
whether it has been cleared since the last set, and whether the count has been zero since the last clear. -/
structure Graph where
  pa      : Nat
  va      : Word
  asid    : Nat
  quiet   : Word
  cleared : Bool
  zero    : Bool
  deriving DecidableEq, Repr

/-- A multicast or reduction group at work (R285 to R287): the uses it has completed, whether a use is armed or
draining, that use's count, the CPYCs that have joined it as (cluster, hart, sequence number), whether its data has moved,
and how many of its completions are written. -/
structure GroupUse where
  die    : Nat
  group  : Nat
  uses   : Nat
  busy   : Bool
  count  : Nat
  joined : List (Nat × HartId × Nat)
  moved  : Bool
  done_  : Nat
  deriving DecidableEq, Repr

/-- A vector of the MSI-X table (R406, R409). -/
structure MsixVector where
  vector  : Nat
  addr    : Word
  data    : BitVec 32
  masked  : Bool
  pending : Bool
  deriving DecidableEq, Repr

/-- A ray hit (R333): t, u and v as F32 patterns, the ids of its leaf, the id of its instance if it lies in one, and the
offsets of its instance (0 for none) and leaf, which order equal hits (R334). -/
structure RayHit where
  t     : Nat
  u     : Nat
  v     : Nat
  prim  : Nat
  geom  : Nat
  inst  : Option Nat
  front : Bool
  key   : Nat × Nat
  deriving DecidableEq, Repr

/-- A record that a traversal has still to visit: the base of its BVH, its reference, the ray it is tested with (eight F32
patterns), and the instance it lies in as (offset, id, flags). -/
structure RayWork where
  base : Word
  ref  : Nat
  ray  : List Nat
  inst : Option (Nat × Nat × Nat)
  deriving DecidableEq, Repr

/-- What a query block's element stands for (R333): status, flags (cull 1, first 2, opq 4), tcur, the committed hit, the
pending candidate, and the records still to visit, next first. -/
structure RayQuery where
  status : Nat
  flags  : Nat
  tcur   : Nat
  hit    : Option RayHit
  cand   : Option RayHit
  work   : List RayWork
  deriving DecidableEq, Repr

/-- What the device sends out: MSI-X messages, posted host writes, requests to the host and to peers, what it answers to
host and peer reads (with their poison), to peer writes and atomics, what a Lantern's read of a CSR returns, the FULL of a
refused measurement (R432), and completer aborts. -/
inductive Output where
  | msix (vector : Nat)
  | hostWrite (addr : Nat) (bytes : List Byte)
  | hostRead (id addr size : Nat)
  | readData (bytes : List Byte) (poison : Bool)
  | peerWrite (id device offset : Nat) (bytes : List Byte)
  | peerRead (id device offset size : Nat)
  | peerAmo (id device offset size op : Nat) (v w : Word)
  | peerAck
  | csrValue (v : Word)
  | logFull
  | peerData (v : Word)
  | abort_
  deriving DecidableEq, Repr

/-- How far the device has got (R429, R430, R435). -/
inductive BootState where
  | running | recovery | frozen
  deriving DecidableEq, Repr

structure Device where
  devid     : Nat
  dies      : BitVec 4
  bar2ctl   : Word
  hostbase  : Word
  hsd       : Shootdown
  beacons   : List (Nat × Word)
  msix      : List MsixVector
  spdm      : List Byte
  mailbox   : List Byte
  log       : List LogEntry
  watts     : Nat
  mhz       : Nat
  refTime   : Nat
  refPart   : Nat
  boot      : BootState
  spaces    : List AddressSpace
  launches  : List Launch
  gangs     : List Gang
  nextId    : Nat
  rings     : List DeltaRing
  members   : List GraphMember
  graphs    : List Graph
  uses      : List GroupUse
  attached  : List Attachment
  images    : List (Frame × List Byte)
  queries   : List RayQuery
  requests  : List RemoteRequest
  coarse    : List Nat
  scTicket  : Nat
  outputs   : List Output
  deriving DecidableEq, Repr

/-- The whole machine. hart is the compute hart whose turn it is and others are the other harts that hold work; mem is
the physical address space in canonical form (`Memory.wf`); poison lists the poisoned sectors. inbox, clock, free, selected
and walks are the model's own: the inputs and agents' moves that the next steps take, the cycle count, the counter of
free values, whether the next turn is `hart`'s own (with an empty inbox the next step then runs `hart` whatever issue
selection says), and what the translations of this turn have done, which an instruction that ends early leaves done (log
entries 4, 6, 12, 3, 7). -/
structure State where
  hart     : Hart
  others   : List Hart
  mem      : Memory
  poison   : List Nat
  cores    : List (CoreId × Core)
  clusters : List (ClusterId × Cluster)
  diesSt   : List (Nat × Die)
  dev      : Device
  inbox    : List Instr
  clock    : Nat
  free     : Nat
  selected : Bool
  walks    : List WalkNote
  deriving DecidableEq, Repr

/-! ## Reset -/

/-- An unbound stream register (R14). -/
def StreamReg.empty : StreamReg := { desc := none, pos := [], ahead := [], appended := [], ready := [] }

/-- R370: the routing word where the address-space entry supplies none. -/
def trrouteDefault : Word := 0x0001_0000_0300_B000#64

/-- A hart as it stands before a thread is placed on it: the values of R14, R19 and R442 at thread start, and zero where
those come from a launch (log entry 2). -/
def Hart.reset (id : HartId) : Hart :=
  { id := id, run := .idle, held := none, x := Vector.replicate 32 0#64, pc := 0#64, priv := .user,
    sstatus := 0#64, sie := 0#64, ssip := false, stvec := 0#64, sscratch := 0#64, sepc := 0#64, scause := 0#64,
    stval := 0#64, satp := 0#64, scounteren := 7#64, senvcfg := 0#64, stimecmp := BitVec.allOnes 64,
    mstatusTw := false, vpal := 0#64, vfrm := 0#3, vfflags := 0#6, vstart := 0, vxmask := 0x3C#6, vmspill := 0#64,
    vsptr := 0#64, rstat := 0#64, txstat := 0#64, txdeadline := 0#64, hinfo := 0#64, awst := 0#3, vl := 0,
    vgrant := 0#64, coord := 0#64, stage := 0#64, launchTag := 0#64, xfbase := 0#64, vfpc := 0#64, vfcause := 0#64,
    vfaddr := 0#64, trroute := trrouteDefault, hbase := 0#64, sbase := 0#64, instret := 0,
    v := Vector.replicate 32 0#16384, p := Vector.ofFn fun i => if i.val = 0 then BitVec.allOnes 2048 else 0#2048,
    vmsp := 0, masks := [], st := Vector.replicate 16 StreamReg.empty, bindings := [],
    q := Vector.replicate 8 [], lq := [], vq := [], mq := [], cq := [], seq := 0, faults := [], frame := none,
    tiles := Vector.replicate 8 none, groupA := none, groupB := none, window := none, trains := [], reservation := none,
    fetchBuf := [], slots := [], spareSlots := [], tx := none, lastBegin := none,
    sleepTarget := none, footprint := [], acquiring := [], marks := [], deadline := none,
    hostDirty := false, placed := none, age := 0, unselected := 0, serving := none, graphs := [],
    resumePc := 0#64, parkCause := 0 }

def Core.reset : Core :=
  { channels := [], arrivals := [], wakes := [], tlb := [], copies := [], used := [], frozen := false,
    lastPicks := [], first := none }

def Shootdown.reset : Shootdown := { va := 0#64, ctl := 0#64, cword := 0#64, issued := none }

def Cluster.reset : Cluster :=
  { bankmode := 0#64, bankst := 0#64, mincache := 4, lanternBanks := [], setAside := [], tlb := [], owners := [],
    pcsel := 0#64, pcidx := 0#64, pcst := 0, budsel := 0#64, budgets := [], errlog := 0#64,
    sd := Shootdown.reset, mtimeout := 0x4000#64, featen := Config.featureFuse, dxset := 0#16, dxst := 0,
    dxsel := 0#64, dxtable := [], irqs := [], wakeup := [], stopped := false }

def Agent.reset : Agent :=
  { ctl := 0#64, state := 0, error := 0, skipped := 0#32, inp := 0#64, eaddr := 0#64,
    outs := List.replicate 9 0#64, cfg := 0#64, counter := none, progress := 0, part := 0, reserved := [],
    waits := none }

def Die.reset : Die :=
  { rings := [], high := [], normal := [], ageLimit := 16, maskHigh := 2 ^ 48 - 1, maskNorm := 2 ^ 48 - 1,
    slots := [], done := [], agents := [], batches := [] }

def Device.reset : Device :=
  { devid := 0, dies := Config.diesFuse, bar2ctl := 0#64, hostbase := 0#64, hsd := Shootdown.reset, beacons := [],
    msix := [], spdm := [], mailbox := [], log := [], watts := 2900, mhz := 2000, refTime := 0,
    refPart := 0, boot := .running, spaces := [], launches := [], gangs := [], nextId := 0, rings := [],
    members := [], graphs := [], uses := [], attached := [], images := [], queries := [], requests := [],
    coarse := [], scTicket := 0, outputs := [] }

/-- The device right after reset: no thread placed, memory with nothing listed, every register at the value R14, R19,
R20, R442 and the registers' own tables give (log entries 1 to 3). -/
def State.reset : State :=
  { hart := Hart.reset { die := 0, cluster := 0, core := 0, hart := 0 }, others := [], mem := [], poison := [],
    cores := [], clusters := [], diesSt := [], dev := Device.reset, inbox := [], clock := 0, free := 0,
    selected := false, walks := [] }

end Sys2Proof.Machine
end

