-- ==== Sys2Proof/Machine/Memory.lean ====
section
/-! DEFINITION. The physical address space: bytes in one canonical list, the map of 11 R234, and the records of cores,
clusters and dies by their place. -/

namespace Sys2Proof.Machine

/-! ## Cells -/

/-- What a byte that nothing has written reads as: the boot ROM's own byte, and zero everywhere else (log entry 1). -/
def blank (a : Nat) : Byte := if a < 0x1000_0000 then Config.bootRom a else 0#8

def Memory.get : Memory → Nat → Byte
  | [], a => blank a
  | (k, b) :: m, a => if a < k then blank a else if a = k then b else Memory.get m a

def Memory.set : Memory → Nat → Byte → Memory
  | [], a, b => if b = blank a then [] else [(a, b)]
  | (k, c) :: m, a, b =>
    if a < k then (if b = blank a then (k, c) :: m else (a, b) :: (k, c) :: m)
    else if a = k then (if b = blank a then m else (a, b) :: m)
    else (k, c) :: Memory.set m a b

/-- Every address is above the bound, addresses rise strictly, and no entry is blank. -/
def Memory.wfFrom : Nat → Memory → Bool
  | _, [] => true
  | lo, (k, b) :: m => decide (lo ≤ k) && b != blank k && Memory.wfFrom (k + 1) m

/-- The canonical form. -/
def Memory.wf (m : Memory) : Bool := Memory.wfFrom 0 m

/-- n bytes from a, little-endian (R2). -/
def Memory.read (m : Memory) : Nat → Nat → Nat
  | _, 0 => 0
  | a, n + 1 => (m.get a).toNat + 256 * m.read (a + 1) n

/-- The n low bytes of v to a, little-endian (R2). -/
def Memory.write : Memory → Nat → Nat → Nat → Memory
  | m, _, 0, _ => m
  | m, a, n + 1, v => Memory.write (m.set a (BitVec.ofNat 8 v)) (a + 1) n (v / 256)

/-- Bytes to consecutive addresses. -/
def Memory.writeBytes : Memory → Nat → List Byte → Memory
  | m, _, [] => m
  | m, a, b :: bs => Memory.writeBytes (m.set a b) (a + 1) bs

/-- Drops every listed address in a range: those bytes read as blank again. -/
def Memory.clear (m : Memory) (lo hi : Nat) : Memory := m.filter fun c => c.1 < lo || hi ≤ c.1

/-! ## The physical map (R234) -/

inductive Region where
  | bootRom
  | agent
  | aperture (cluster off : Nat)
  | hbm (die : Nat)
  | host (off : Nat)
  | peer (device off : Nat)
  | none
  deriving DecidableEq, Repr

def region (pa : Nat) : Region :=
  if pa < 0x1000_0000 then .bootRom
  else if pa < 0x4000_0000 then .agent
  else if pa < 0x7000_0000 then .aperture ((pa - 0x4000_0000) / 0x40_0000) ((pa - 0x4000_0000) % 0x40_0000)
  else if pa < 0x10_0000_0000 then .none
  else if pa < 0xD0_0000_0000 then .hbm ((pa - 0x10_0000_0000) / 0x30_0000_0000)
  else if pa < 0x100_0000_0000 then .none
  else if pa < 0x200_0000_0000 then .host (pa - 0x100_0000_0000)
  else if 2 ^ 55 ≤ pa ∧ pa < 2 ^ 56 then .peer (pa / 2 ^ 44 % 2048) (pa % 2 ^ 44)
  else .none

/-- What an agent-range address names (R218, R285, R315, R399, R406). -/
inductive AgentReg where
  | ringTable (cluster entry off : Nat)
  | group (die group off : Nat)
  | graphics (a : AgentId) (off : Nat)
  | hostBeacon (b : Nat)
  | launchBeacon (die ring : Nat)
  | route (off : Nat)
  | reserved
  deriving DecidableEq, Repr

/-- The base of the agent register blocks of a die and the offsets of R315. -/
def agentAt (o : Nat) : Option (AgentId × Nat) :=
  let die := o / 0x1_0000
  let r := o % 0x1_0000
  if die < 4 then
    if r < 0x800 then some ({ die := die, kind := .distributor, index := 0 }, r)
    else if r < 0x4800 then some ({ die := die, kind := .rasteriser, index := r / 0x800 - 1 }, r % 0x800)
    else if 0x8000 ≤ r ∧ r < 0xC000 then
      some ({ die := die, kind := .blend, index := (r - 0x8000) / 0x100 }, r % 0x100)
    else none
  else none

def agentReg (pa : Nat) : AgentReg :=
  if pa < 0x1000_0000 + 0x1_0000 * 192 then
    let o := pa - 0x1000_0000
    if o % 0x1_0000 < 4096 then .ringTable (o / 0x1_0000) (o % 0x1_0000 / 64) (o % 64) else .reserved
  else if 0x2000_0000 ≤ pa ∧ pa < 0x2000_8000 then
    let o := pa - 0x2000_0000
    .group (o / 0x2000) (o % 0x2000 / 32) (o % 32)
  else if 0x3000_0000 ≤ pa ∧ pa < 0x3004_0000 then
    match agentAt (pa - 0x3000_0000) with
    | some (a, off) => .graphics a off
    | none => .reserved
  else if 0x3800_0000 ≤ pa ∧ pa < 0x3800_0800 then .hostBeacon ((pa - 0x3800_0000) / 8)
  else if 0x3901_0000 ≤ pa ∧ pa < 0x3901_0200 then
    let o := pa - 0x3901_0000
    .launchBeacon (o / 0x80) (o % 0x80 / 8)
  else if 0x3A00_0000 ≤ pa ∧ pa < 0x3A00_4008 then .route (pa - 0x3A00_0000)
  else .reserved

/-- The physical address of a cluster's aperture byte, of a ring-table entry, of a group's entry and of the route
table. -/
def apertureBase (cluster : Nat) : Nat := 0x4000_0000 + 0x40_0000 * cluster
def ringTableEntry (cluster i : Nat) : Nat := 0x1000_0000 + 0x1_0000 * cluster + 64 * i
def groupEntry (die g : Nat) : Nat := 0x2000_0000 + 0x2000 * die + 32 * g
def routeTable : Nat := 0x3A00_0000

/-- The 128-byte line and the 32-byte sector of an address. -/
def lineOf (pa : Nat) : Nat := pa / 128
def sectorOf (pa : Nat) : Nat := pa / 32

/-! ## Places -/

/-! The functions of a place stand in the namespace of its type. -/

end Sys2Proof.Machine

namespace Sys2Proof

def ClusterId.index (c : ClusterId) : Nat := c.die * 48 + c.cluster
def ClusterId.ofIndex (n : Nat) : ClusterId := { die := n / 48, cluster := n % 48 }
def HartId.coreId (h : HartId) : CoreId := { die := h.die, cluster := h.cluster, core := h.core }
def HartId.clusterId (h : HartId) : ClusterId := { die := h.die, cluster := h.cluster }
/-- A hart of a core. -/
def CoreId.hart (c : CoreId) (n : Nat) : HartId := { die := c.die, cluster := c.cluster, core := c.core, hart := n }
/-- Cores and harts counted through the device. -/
def CoreId.number (c : CoreId) : Nat := 8 * (48 * c.die + c.cluster) + c.core
def HartId.number (h : HartId) : Nat := 8 * h.coreId.number + h.hart
def CoreId.clusterId (c : CoreId) : ClusterId := { die := c.die, cluster := c.cluster }

/-- An agent's number in its die's list: distributor 0, rasterisers 1 to 8, blend units 9 onwards. -/
def AgentId.number (a : AgentId) : Nat :=
  match a.kind with
  | .distributor => 0
  | .rasteriser => 1 + a.index
  | .blend => 9 + a.index

/-- The agent of a die with a number. -/
def AgentId.ofNumber (die n : Nat) : AgentId :=
  if n = 0 then { die := die, kind := .distributor, index := 0 }
  else if n ≤ 8 then { die := die, kind := .rasteriser, index := n - 1 }
  else { die := die, kind := .blend, index := n - 9 }

end Sys2Proof

namespace Sys2Proof.Machine

/-- Looks a key up in an association list. -/
def assocGet {α β : Type} [DecidableEq α] (k : α) (d : β) : List (α × β) → β
  | [] => d
  | (a, b) :: l => if a = k then b else assocGet k d l

/-- Replaces the value of a key, or adds it. -/
def assocSet {α β : Type} [DecidableEq α] (k : α) (v : β) : List (α × β) → List (α × β)
  | [] => [(k, v)]
  | (a, b) :: l => if a = k then (a, v) :: l else (a, b) :: assocSet k v l

def State.core (s : State) (c : CoreId) : Core := assocGet c Core.reset s.cores
def State.setCore (s : State) (c : CoreId) (v : Core) : State := { s with cores := assocSet c v s.cores }
def State.cluster (s : State) (c : ClusterId) : Cluster := assocGet c Cluster.reset s.clusters
def State.setCluster (s : State) (c : ClusterId) (v : Cluster) : State :=
  { s with clusters := assocSet c v s.clusters }
def State.die (s : State) (d : Nat) : Die := assocGet d Die.reset s.diesSt
def State.setDie (s : State) (d : Nat) (v : Die) : State := { s with diesSt := assocSet d v s.diesSt }
def State.modCore (s : State) (c : CoreId) (f : Core → Core) : State := s.setCore c (f (s.core c))
def State.modCluster (s : State) (c : ClusterId) (f : Cluster → Cluster) : State := s.setCluster c (f (s.cluster c))
def State.modDie (s : State) (d : Nat) (f : Die → Die) : State := s.setDie d (f (s.die d))

def State.agent (s : State) (a : AgentId) : Agent := assocGet a.number Agent.reset (s.die a.die).agents
def State.setAgent (s : State) (a : AgentId) (v : Agent) : State :=
  s.modDie a.die fun d => { d with agents := assocSet a.number v d.agents }

/-- Every hart that holds work. -/
def State.harts (s : State) : List Hart := s.hart :: s.others

def State.findHart (s : State) (id : HartId) : Option Hart := s.harts.find? fun h => h.id == id

/-- Applies f to every hart. -/
def State.mapHarts (s : State) (f : Hart → Hart) : State := { s with hart := f s.hart, others := s.others.map f }

/-- Applies f to one hart. -/
def State.modHart (s : State) (id : HartId) (f : Hart → Hart) : State :=
  s.mapHarts fun h => if h.id = id then f h else h

/-- Makes a hart the one whose turn it is. A hart that holds no work yet stands at its reset values. -/
def State.focus (s : State) (id : HartId) : State :=
  if s.hart.id = id then s
  else
    match s.others.find? fun h => h.id == id with
    | some h => { s with hart := h, others := s.hart :: s.others.filter fun o => o.id != id }
    | none => { s with hart := Hart.reset id, others := s.hart :: s.others }

/-- Queues events for the next steps, oldest first. -/
def State.post (s : State) (is : List Instr) : State := { s with inbox := s.inbox ++ is }

/-- A free value of w bits (log entry 12), and the state with the next draw. -/
def State.freeValue (s : State) (w : Nat) : Nat × State :=
  (Config.freeNat w s.free % 2 ^ w, { s with free := s.free + 1 })

/-! ## Time (R1, R19, R25) -/

/-- tick: the tick count in [63:16] and the cycle of the tick in [15:0] (R25), a tick being 65,536 cycles (R1). -/
def State.tickWord (s : State) : Word :=
  BitVec.ofNat 64 s.clock

/-- time: the count of the 100 MHz reference (R19, R433). -/
def State.time (s : State) : Word := BitVec.ofNat 64 s.dev.refTime

/-- A budget after a tick: what was written takes effect and the count starts again (R172, R434). -/
def Budget.tick (b : Budget) : Budget :=
  match b.pending with
  | some (limit, slack) => { b with limit := limit, slack := slack, pending := none, used := 0 }
  | none => { b with used := 0 }

/-- The state at the start of a tick. -/
def State.newTick (s : State) : State :=
  { s with cores := s.cores.map fun c => (c.1, { c.2 with used := [] }),
           clusters := s.clusters.map fun c => (c.1, { c.2 with budgets := c.2.budgets.map Budget.tick }) }

/-- The cycle count reaches a value; crossing the start of a tick is a new tick. -/
def State.reach (s : State) (cycle : Nat) : State :=
  if cycle ≤ s.clock then s
  else if s.clock / 65536 < cycle / 65536 then { s with clock := cycle }.newTick
  else { s with clock := cycle }

/-- One cycle passes: the main clock runs at mhz, the reference at 100 MHz (R1, R433). -/
def State.cycle (s : State) : State :=
  let t := s.reach (s.clock + 1)
  let part := s.dev.refPart + 100
  { t with dev :=
    if part < s.dev.mhz then { t.dev with refPart := part }
    else { t.dev with refPart := part - s.dev.mhz, refTime := t.dev.refTime + 1 } }

/-- Word and list helpers. -/
def wordOf (n : Nat) : Word := BitVec.ofNat 64 n

/-- The bits [lo + len - 1 : lo] of a word as a number. -/
def fieldOf (v : Word) (lo len : Nat) : Nat := (v.extractLsb' lo len).toNat

/-- A word with the field [lo + len - 1 : lo] replaced. -/
def setField (v : Word) (lo len n : Nat) : Word :=
  let m : Word := BitVec.ofNat 64 ((2 ^ len - 1) * 2 ^ lo)
  (v &&& ~~~m) ||| (BitVec.ofNat 64 (n % 2 ^ len * 2 ^ lo))

end Sys2Proof.Machine
end

