-- ==== Sys2Proof/Machine/Marks.lean ====
section
/-! DEFINITION. Lines at their homes: home slices (11 R236), wake tables (09 R207, R211), lines that ordered attempts hold
(R212), and every consequence of a write of a line. -/

namespace Sys2Proof.Machine

/-! ## Homes (R235, R236) -/

/-- The device slice (die × 64 + slice) that is home to an HBM address under a page's SKEW (R236). -/
def homeSlice (pa skew : Nat) : Nat :=
  let d := (pa - 0x10_0000_0000) / 0x30_0000_0000
  let l := pa / 128 % 2 ^ 33
  let f (lo n : Nat) : Nat := l / 2 ^ lo % 2 ^ n
  match skew with
  | 0 => 64 * d + (f 0 6 ^^^ f 6 6 ^^^ f 12 6 ^^^ f 18 6 ^^^ f 24 6 ^^^ f 30 3)
  | 1 => 64 * d + f 0 6
  | 2 => 64 * d + l % 61
  | 3 => f 0 8 ^^^ f 8 8 ^^^ f 16 8 ^^^ f 24 8 ^^^ f 32 1
  | _ => l % 251

/-- The wake table that serves a line under a SKEW (R207, R211): an L2 slice, 0 to 255, for a line of HBM, and cluster c as
256 + c for its scratch aperture, FIFO banks and ring table. -/
def wakeHome (line skew : Nat) : Nat :=
  match region (128 * line) with
  | .aperture c _ => 256 + c
  | .agent => 256 + (128 * line - 0x1000_0000) / 0x1_0000
  | _ => homeSlice (128 * line) skew

def Mark.skew (m : Mark) : Nat := (m.page.map TlbEntry.skew).getD 0

def Mark.home (m : Mark) : Nat := wakeHome m.line m.skew

/-! ## Wake tables (R211) -/

/-- The marks that a hart has at homes: those of its open transaction and those of its sleep. -/
def Hart.allMarks (h : Hart) : List Mark := ((h.tx.map Tx.reads).getD []) ++ h.marks

/-- The entries in a wake table: one for each line and waiter. -/
def State.tableUse (s : State) (home : Nat) : Nat :=
  ((s.harts.flatMap Hart.allMarks ++ s.cores.flatMap fun c => c.2.wakes.flatMap WakeReg.lines).filter
    fun m => m.home == home).length

/-- The entries that a wake table has. -/
def tableSize (home : Nat) : Nat := if home < 256 then 4096 else 512

/-- The coarse tables once a new mark is to enter a table: one that is full becomes coarse, and one that is empty is exact
again. -/
def State.coarseAfter (s : State) (home : Nat) : List Nat :=
  let n := s.tableUse home
  if n = 0 then s.dev.coarse.filter fun k => k != home
  else if tableSize home ≤ n then home :: s.dev.coarse.filter fun k => k != home
  else s.dev.coarse

/-- A write of a line reaches a mark: it is the mark's line, or its table is coarse and the line falls into the same
bucket. -/
def Mark.hit (coarse : List Nat) (m : Mark) (line : Nat) : Bool :=
  m.line == line || (coarse.contains m.home && wakeHome line m.skew == m.home &&
    Config.lineBucket line == Config.lineBucket m.line)

/-- The mark that a write of a line reaches, if any, the line's own mark before those of its bucket. -/
def hitMark (coarse : List Nat) (l : List Mark) (line : Nat) : Option Mark :=
  (l.find? fun m => m.line == line).or (l.find? fun m => m.hit coarse line)

/-! ## Lines of ordered attempts (R212) -/

/-- The lines that a hart's ordered attempt holds at their homes, or has acquired on its way into one. -/
def Hart.heldLines (h : Hart) : List Nat :=
  match h.tx with
  | some t => if t.ordered then h.footprint ++ t.reads.map Mark.line ++ t.writes.map (fun w => w.sector / 4) else []
  | none => h.acquiring

/-- The number under which a hart waits for a line that was held. -/
def Hart.ticket (h : Hart) (line : Nat) : Option Nat :=
  match h.held with
  | some (.line l n) => if l = line ∧ h.run = .running then some n else none
  | _ => none

/-- A hart's ticket for a line is older than another's, or the other has none. -/
def older (a b : Option Nat) : Bool :=
  match a, b with
  | some m, some n => decide (m < n)
  | some _, none => true
  | none, _ => false

/-- The line is not the party's to take: another hart's ordered attempt holds it, or another hart has waited for it for
longer (R212). -/
def State.lineHeld (s : State) (self : Option HartId) (line : Nat) : Bool :=
  let own := (s.harts.find? fun h => some h.id == self).bind fun h => h.ticket line
  s.harts.any fun h => some h.id != self && (h.heldLines.contains line || older (h.ticket line) own)

/-- The wait of the hart whose turn it is for a line: it keeps the number it has, and otherwise comes last. -/
def State.lineWait (s : State) (line : Nat) : Held :=
  .line line ((s.hart.ticket line).getD
    (s.harts.foldl (fun n h => max n ((h.ticket line).map (· + 1) |>.getD 0)) 0))

/-! ## A write of a line -/

/-- What a write of a line by a party means to one hart: the reservation is lost (R94), and a transaction that has read
the line is doomed if the write is another party's (R207). -/
def Hart.seesWrite (coarse : List Nat) (h : Hart) (self : Option HartId) (line : Nat) : Hart :=
  let h1 := match h.reservation with
    | some r => if r.line = line then { h with reservation := none } else h
    | none => h
  match h1.tx with
  | some t =>
    match hitMark coarse t.reads line with
    | some m =>
      if some h.id ≠ self then
        { h1 with tx := some { t with
          doomed := true, doomVa := if t.doomed then t.doomVa else if m.line = line then some m.va else none } }
      else h1
    | none => h1
  | none => h1

/-- The events that a write of a line brings about: the wakes of sleeping harts, of channels and of parked RRES.t
(R211, R213, R232). -/
def State.wakesOf (s : State) (line : Nat) : List Instr :=
  (s.harts.filter fun h => h.run == .sleeping && (hitMark s.dev.coarse h.marks line).isSome).map
      (fun h => Instr.transactionWake h.id line) ++
  s.cores.flatMap (fun c => (c.2.wakes.filter fun w => (hitMark s.dev.coarse w.lines line).isSome).map fun w =>
      Instr.transactionWake { die := c.1.die, cluster := c.1.cluster, core := c.1.core, hart := w.ctx } line) ++
  s.clusters.flatMap (fun c => (c.2.wakeup.filter fun w => w.2 == line).map fun w => Instr.ringServiceResume w.1) ++
  s.diesSt.flatMap (fun d => (d.2.agents.filter fun a => a.2.waits == some line).map fun a =>
      Instr.agentRingSpace (AgentId.ofNumber d.1 a.1)) ++
  (s.diesSt.filter fun d => d.2.done.any fun r => r.line == line).map fun d => Instr.doneRecordDrain d.1

/-- Every consequence of a write of one line by a party. -/
def State.noteLine (s : State) (self : Option HartId) (line : Nat) : State :=
  ((s.mapHarts fun h => h.seesWrite s.dev.coarse self line)).post (s.wakesOf line)

/-- The consequences of a walker's update of a line: those of a write by another party for every hart but the one that it
walks for (R94, R207, log entry 35). -/
def State.noteWalk (s : State) (self : Option HartId) (line : Nat) : State :=
  (s.mapHarts fun h => if some h.id = self then h else h.seesWrite s.dev.coarse self line).post (s.wakesOf line)

/-- The lines that n bytes at pa touch. -/
def linesOf (pa n : Nat) : List Nat := (List.range ((pa + n + 127) / 128 - pa / 128)).map fun k => pa / 128 + k

end Sys2Proof.Machine
end

