-- ==== Sys2Proof/Machine/Translate.lean ====
section
/-! DEFINITION. Address translation (12 R255 to R262, R268) and the gang window (11 R245, R247). -/

namespace Sys2Proof.Machine

/-- On whose behalf an address is translated: the address space, the gang whose window it may use, the privilege, the core
and cluster whose TLBs serve it with the column slice of the core's, and the hart if it is one's own access. Every access
of a hart uses the slice of its first lane group (R261, log entry 7). -/
structure TransCtx where
  satp    : Word
  sbase   : Word
  gang    : Option Nat
  priv    : Priv
  sum     : Bool
  mxr     : Bool
  core    : Option CoreId
  cluster : Option ClusterId
  die     : Nat
  slice   : Nat
  self    : Option HartId
  deriving DecidableEq, Repr

def Hart.ctx (h : Hart) : TransCtx :=
  { satp := h.satp, sbase := h.sbase, gang := h.placed.map Placed.gang, priv := h.priv,
    sum := h.sstatus.getLsbD 18, mxr := h.sstatus.getLsbD 19, core := some h.id.coreId,
    cluster := some h.id.clusterId, die := h.id.die,
    slice := ((h.placed.map Placed.groups).getD []).headD 0, self := some h.id }

/-- A gang's placed record. -/
def State.gang (s : State) (n : Nat) : Option Gang := s.dev.gangs.find? fun g => g.number == n

def State.launch (s : State) (n : Nat) : Option Launch := s.dev.launches.find? fun l => l.number == n

/-! ## The gang window -/

/-- The physical aperture address of a window offset (R245 to R247). -/
def scratchMap (g : Gang) (off : Nat) : Option Nat :=
  let base := apertureBase (g.die * 48 + g.cluster)
  if off < 0x8000 * g.units.length then
    match g.units[off / 0x8000]? with
    | some (quad, slot) =>
      let w := off % 0x8000
      some (base + (4 * quad + w / 128 % 4) * 0x2_0000 + 0x2000 * slot + 128 * (w / 512) + w % 128)
    | none => none
  else if 0x40_0000 ≤ off ∧ off < 0x40_0000 + 0x2_0000 * g.banks.length then
    let f := off - 0x40_0000
    match g.banks[f / 0x2_0000]? with
    | some b => some (base + b * 0x2_0000 + f % 0x2_0000)
    | none => none
  else none

/-- A virtual address lies in the scratch window of the context's address space (R256): its offset. -/
def TransCtx.windowOff (c : TransCtx) (va : Word) : Option Nat :=
  if (va - c.sbase).toNat < 0x80_0000 then some (va - c.sbase).toNat else none

/-! ## Page table entries (R257, R258) -/

/-- The page-table levels of satp.MODE, or none for a mode that no entry has (R255). -/
def satpLevels (satp : Word) : Option Nat :=
  match fieldOf satp 60 4 with
  | 9 => some 4
  | 10 => some 5
  | _ => none

/-- R256: the address is canonical for its mode. -/
def canonical (levels : Nat) (va : Word) : Bool :=
  if levels = 4 then fieldOf va 47 17 == 0 || fieldOf va 47 17 == 0x1FFFF
  else fieldOf va 56 8 == 0 || fieldOf va 56 8 == 0xFF

/-- What a leaf grants an access under SUM and MXR (R258); DUP denies every store (R268). -/
def permits (c : TransCtx) (a : Access) (r w x u dup : Bool) : Bool :=
  (match a with
    | .fetch => x
    | .load => r || (c.mxr && x)
    | .store => w && !dup) &&
  (match c.priv with
    | .user => u
    | .supervisor => !u || (a != .fetch && c.sum))

/-- The fields of a leaf entry at a level, as a TLB entry, or none for a malformed leaf (R258). -/
def leafEntry (asid : Nat) (va : Word) (level : Nat) (pte : Word) : Option TlbEntry :=
  let n := pte.getLsbD 63
  let ppn := fieldOf pte 10 44
  let skew := fieldOf pte 58 3
  let dup := pte.getLsbD 57
  let bits := if n then 16 else 12 + 9 * level
  let pa := ppn * 4096 / 2 ^ bits * 2 ^ bits
  let inHbm := match region pa with
    | .hbm _ => true
    | _ => false
  if level > 3 then none
  else if n && !(level == 0 && ppn % 16 == 8) then none
  else if ppn % 2 ^ (9 * level) ≠ 0 then none
  else if skew > 4 then none
  else if dup && (skew > 2 || !inHbm) then none
  else some { slice := 0, asid := asid, glob := pte.getLsbD 5, va := va.toNat / 2 ^ bits * 2 ^ bits, bits := bits, pa := pa,
              read := pte.getLsbD 1, write := pte.getLsbD 2, exec := pte.getLsbD 3, user := pte.getLsbD 4,
              dirty := pte.getLsbD 7, skew := skew, dup := dup }

/-- What one level of the walk finds: a fault, the next table, or a leaf with its entry's address and word. -/
inductive WalkStep where
  | pageFault
  | accessFault
  | next (table : Nat)
  | leaf (e : TlbEntry) (addr : Nat) (pte : Word)
  deriving DecidableEq, Repr

/-- Reads and checks the entry of one level (R258, R260). -/
def walkStep (m : Memory) (asid : Nat) (va : Word) (level table : Nat) : WalkStep :=
  let addr := table + 8 * fieldOf va (12 + 9 * level) 9
  match region addr with
  | .hbm _ =>
    let pte := wordOf (m.read addr 8)
    let r := pte.getLsbD 1
    let w := pte.getLsbD 2
    let x := pte.getLsbD 3
    if !pte.getLsbD 0 || (w && !r) then .pageFault
    else if fieldOf pte 61 2 ≠ 0 ∨ fieldOf pte 54 3 ≠ 0 then .pageFault
    else if r || x then
      match leafEntry asid va level pte with
      | some e => .leaf e addr pte
      | none => .pageFault
    else if pte.getLsbD 63 || fieldOf pte 57 4 ≠ 0 || pte.getLsbD 7 || pte.getLsbD 6 || pte.getLsbD 4 then .pageFault
    else if level = 0 then .pageFault
    else .next (fieldOf pte 10 44 * 4096)
  | _ => .accessFault

/-- The walk from a level down to its leaf. -/
def walkFrom (m : Memory) (asid : Nat) (va : Word) : Nat → Nat → WalkStep
  | 0, table => walkStep m asid va 0 table
  | level + 1, table =>
    match walkStep m asid va (level + 1) table with
    | .next t => walkFrom m asid va level t
    | other => other

/-! ## TLBs (R261) -/

def TlbEntry.hits (e : TlbEntry) (asid : Nat) (va : Word) : Bool :=
  (e.glob || e.asid == asid) && va.toNat / 2 ^ e.bits * 2 ^ e.bits == e.va

/-- The physical address that an entry gives a party on a die: DUP picks the die's own copy (R268). -/
def TlbEntry.target (e : TlbEntry) (die : Nat) (va : Word) : Nat :=
  let pa := e.pa + va.toNat % 2 ^ e.bits
  if e.dup then
    match region pa with
    | .hbm d => pa + 0x30_0000_0000 * die - 0x30_0000_0000 * d
    | _ => pa
  else pa

/-- The entries that serve a context: those of its column slice, then the cluster's. -/
def State.tlb (s : State) (c : TransCtx) : List TlbEntry :=
  (match c.core with
    | some k => (s.core k).tlb.filter fun e => e.slice == c.slice
    | none => []) ++
  (match c.cluster with
    | some k => (s.cluster k).tlb
    | none => [])

/-- Two entries are the same translation, whichever slice holds them. -/
def TlbEntry.same (e f : TlbEntry) : Bool := { e with slice := 0 } == { f with slice := 0 }

/-- Changes the TLBs of a core and of a cluster. -/
def State.modTlbs (s : State) (core : Option CoreId) (cluster : Option ClusterId) (f g : List TlbEntry → List TlbEntry) :
    State :=
  let s1 := match core with
    | some k => s.modCore k fun v => { v with tlb := f v.tlb }
    | none => s
  match cluster with
  | some k => s1.modCluster k fun v => { v with tlb := g v.tlb }
  | none => s1

/-- An entry enters its slice, of 64 entries, newest first (R261, log entry 7). -/
def fillSlice (e : TlbEntry) (l : List TlbEntry) : List TlbEntry :=
  (e :: l.filter fun f => f.slice == e.slice).take 64 ++ l.filter fun f => f.slice != e.slice

/-- What a note of the walker does: an entry leaves the TLBs, or the entry of the page table takes its A and D bits, as an
atomic update at its home, and the translation enters the TLBs: 64 entries in each of a core's four slices and 2,048 in a
cluster (R259, R261). -/
def State.walked (s : State) : WalkNote → State
  | .drop core cluster e =>
    s.modTlbs core cluster (fun l => l.filter fun f => !f.same e) (fun l => l.filter fun f => !f.same e)
  | .fill core cluster e addr bits self =>
    let old := wordOf (s.mem.read addr 8)
    let s1 := if old ||| bits = old then s
      else ({ s with mem := s.mem.write addr 8 (old ||| bits).toNat } : State).noteWalk self (lineOf addr)
    s1.modTlbs core cluster (fillSlice e) (fun l => (e :: l).take 2048)

/-- A note that changes nothing: no TLB serves its party, and the entry of the page table has its bits. -/
def State.idleNote (s : State) : WalkNote → Bool
  | .drop core cluster _ => core.isNone && cluster.isNone
  | .fill core cluster _ addr bits _ =>
    core.isNone && cluster.isNone && (wordOf (s.mem.read addr 8) ||| bits) == wordOf (s.mem.read addr 8)

/-- The walker does something, and the machine remembers that it has (log entry 7). -/
def State.noteTlb (s : State) (w : WalkNote) : State :=
  if s.idleNote w then s else { s.walked w with walks := s.walks ++ [w] }

/-- What the translations of an instruction have done stays done when the instruction ends early: A bits that they have
set and entries that they have dropped or filled (R259, R261). -/
def State.keepWalks (s after : State) : State := (after.walks.drop s.walks.length).foldl State.noteTlb s

/-- The bits that an access sets in the entry of its page: A, and D for a store (R259). -/
def accessBits (a : Access) : Word := if a = .store then 0xC0#64 else 0x40#64

/-- What a translation gives: the physical address and the page's SKEW. -/
structure Translation where
  pa   : Nat
  skew : Nat
  deriving DecidableEq, Repr

/-- A walk, its permission check, the A and D bits and the fill (R258, R259, R261). -/
def walk (s : State) (c : TransCtx) (levels : Nat) (va : Word) (a : Access) :
    Except (MemFault × State) (Translation × State) :=
  let asid := fieldOf c.satp 44 16
  match walkFrom s.mem asid va (levels - 1) (fieldOf c.satp 0 44 * 4096) with
  | .leaf e addr _ =>
    if permits c a e.read e.write e.exec e.user e.dup then
      .ok ({ pa := e.target c.die va, skew := e.skew },
        s.noteTlb (.fill c.core c.cluster { e with slice := c.slice, dirty := e.dirty || a == .store } addr (accessBits a) c.self))
    else .error (.page a va, s)
  | .accessFault => .error (.access a va, s)
  | _ => .error (.page a va, s)

/-- Translates one address for an access (R256): the gang window, the canonical check, the TLBs, the walk. An entry that
denies the access, or that a store finds clean, is dropped and the walk repeated (R259, R261). -/
def translate (s : State) (c : TransCtx) (va : Word) (a : Access) : Except (MemFault × State) (Translation × State) :=
  match c.windowOff va with
  | some off =>
    match (c.gang.bind s.gang).bind fun g => scratchMap g off with
    | some pa => .ok ({ pa := pa, skew := 0 }, s)
    | none => .error (.access a va, s)
  | none =>
    match satpLevels c.satp with
    | none => .error (.page a va, s)
    | some levels =>
      if canonical levels va then
        match (s.tlb c).find? fun e => e.hits (fieldOf c.satp 44 16) va with
        | some e =>
          if permits c a e.read e.write e.exec e.user e.dup ∧ (a = .store → e.dirty = true) then
            .ok ({ pa := e.target c.die va, skew := e.skew }, s)
          else walk (s.noteTlb (.drop c.core c.cluster e)) c levels va a
        | none => walk s c levels va a
      else .error (.page a va, s)

/-- The translation of the page through which an address has just given a physical one; none for the scratch window and a
ring table. -/
def State.pageAt (s : State) (c : TransCtx) (va : Word) (pa : Nat) : Option TlbEntry :=
  match c.windowOff va with
  | some _ => none
  | none => ((s.tlb c).find? fun e => e.hits (fieldOf c.satp 44 16) va).filter fun e => e.target c.die va == pa

end Sys2Proof.Machine
end

