-- ==== Sys2Proof/Machine/Ops.lean ====
section
/-! DEFINITION. The shared operations: registers, one access to memory, taking a trap, aborting a transaction, and the
runner that turns an instruction's effect into an outcome. -/

namespace Sys2Proof.Machine

/-! ## Ends of an instruction -/

/-- What a trap from a stream other than the scalar one records beside scause and stval (R368). -/
structure Vf where
  pc     : Word
  stream : Nat
  sub    : Nat
  addr   : Word
  vstart : Option Nat
  deriving DecidableEq, Repr

/-- A trap before it is taken: exception cause, stval, and the vf registers' values where the cause writes them. -/
structure Trap where
  cause : Nat
  tval  : Word
  vf    : Option Vf
  deriving DecidableEq, Repr

/-- Why an instruction ends before it completes (R5). -/
inductive Exit where
  | trap (t : Trap)
  | mem (f : MemFault)
  | stream (cause sub : Nat) (addr tval : Word)
  | held (h : Held)
  | abort (cause code : Nat)
  | conflict (lines : List Nat)
  | stop (f : Fault)
  | refuse (r : Refusal)
  deriving DecidableEq, Repr

/-- An effect on the machine that may end early. A thrown Exit keeps the effects made so far; the runners say which of
them stay. -/
abbrev M := EStateM Exit State

def getH : M Hart := do return (← get).hart
def modH (f : Hart → Hart) : M Unit := modify fun s => { s with hart := f s.hart }
def trap {α : Type} (cause : Nat) (tval : Word) : M α := throw (.trap { cause := cause, tval := tval, vf := none })
def hold {α : Type} (h : Held) : M α := throw (.held h)

/-- A free word (log entry 12). -/
def freeWord : M Word := fun s =>
  let r := s.freeValue 64
  .ok (wordOf r.1) r.2

/-- Runs f on every element of a list in order. -/
def forM' {α : Type} (f : α → M Unit) : List α → M Unit
  | [] => pure ()
  | a :: l => do f a; forM' f l

/-- The encoding of an instruction as stval shows it (R62). -/
def encodingOf (i : Instr) : Word := wordOf (bytesToNat (encode i))

/-- An illegal-instruction trap of the scalar stream (R5, R35, R62). -/
def illegal {α : Type} (i : Instr) : M α := trap 2 (encodingOf i)

/-! ## Registers -/

/-- x0 reads 0 (R14). -/
def Hart.rx (h : Hart) (r : Reg) : Word := if r = 0 then 0#64 else h.x[r.toNat]

/-- Writes to x0 are Ignored (R14). -/
def Hart.wx (h : Hart) (r : Reg) (v : Word) : Hart := if r = 0 then h else { h with x := h.x.set r.toNat v }

def State.rx (s : State) (r : Reg) : Word := s.hart.rx r
def State.wx (s : State) (r : Reg) (v : Word) : State := { s with hart := s.hart.wx r v }

def readX (r : Reg) : M Word := do return (← get).rx r
def writeX (r : Reg) (v : Word) : M Unit := modify fun s => s.wx r v

/-- The instruction leaves the scalar stream: pc moves past its n bytes and instret counts it (R19). -/
def State.advance (s : State) (n : Nat) : State :=
  { s with hart := { s.hart with pc := s.hart.pc + BitVec.ofNat 64 n, instret := s.hart.instret + 1 } }

/-- The instruction leaves the scalar stream and pc takes a new value. -/
def State.jump (s : State) (target : Word) : State :=
  { s with hart := { s.hart with pc := target, instret := s.hart.instret + 1 } }

def advance (n : Nat) : M Unit := modify fun s => s.advance n
def jump (target : Word) : M Unit := modify fun s => s.jump target

/-- The element width in bits, the grant level and the VLMAX they give (R15, R22). -/
def widthBits (code : Nat) : Nat := 8 * 2 ^ code
def vlmaxOf (width level : Nat) : Nat := 2048 * 2 ^ level / widthBits width
def Hart.width (h : Hart) : Nat := fieldOf h.vgrant 0 2
def Hart.level (h : Hart) : Nat := fieldOf h.vgrant 2 2
def Hart.vlmax (h : Hart) : Nat := vlmaxOf h.width h.level

/-- Open transaction levels: txnest (R19). -/
def Hart.txnest (h : Hart) : Nat := (h.tx.map fun t => t.levels.length).getD 0

/-! ## Parties and writes -/

/-- On whose behalf an access is made (R176): the translation it uses, the compute hart whose own access it is (none for
an engine, an agent or a device unit), whether it bypasses the transaction (a spill or refill, R205), the hart whose
copy command it belongs to, for the copy engine, and whether it is an element that the engine moves, which neither the agent
register range nor the boot ROM serves (R281). -/
structure Party where
  ctx    : TransCtx
  self   : Option HartId
  plain  : Bool
  engine : Option HartId := none
  moves  : Bool := false
  deriving DecidableEq, Repr

def ownParty : M Party := do
  let h ← getH
  return { ctx := h.ctx, self := some h.id, plain := false }

def spillParty : M Party := do
  let h ← getH
  return { ctx := h.ctx, self := some h.id, plain := true }

/-- The party accesses memory inside its own transaction. -/
def State.inTx (s : State) (p : Party) : Bool := !p.plain && p.self == some s.hart.id && s.hart.tx.isSome

/-- A write of n bytes clears the poison of every sector it covers whole and keeps that of the others (R382). -/
def clearPoison (poison : List Nat) (pa n : Nat) : List Nat :=
  poison.filter fun k => !(decide (pa ≤ 32 * k) && decide (32 * k + 32 ≤ pa + n))

/-- A write of the n low bytes of v at a physical address, performed for every party at once. -/
def State.physStore (s : State) (self : Option HartId) (pa n v : Nat) : State :=
  (linesOf pa n).foldl (fun t l => t.noteLine self l)
    { s with mem := s.mem.write pa n v, poison := clearPoison s.poison pa n }

def State.physLoad (s : State) (pa n : Nat) : Nat := s.mem.read pa n

/-- Some byte of a range lies in a poisoned sector (R382). -/
def State.poisoned (s : State) (pa n : Nat) : Bool :=
  s.poison.any fun k => decide (pa < 32 * k + 32) && decide (32 * k < pa + n)

/-! ## Agent registers and beacons -/

/-- MSI-X on a write of host beacon b: the message, or its pending bit while the entry is masked (R409). -/
def Device.raiseMsix (d : Device) (b : Nat) : Device :=
  match d.msix.find? fun v => v.vector == b with
  | some v =>
    if v.masked then
      { d with msix := d.msix.map fun w => if w.vector = b then { w with pending := true } else w }
    else { d with outputs := d.outputs ++ [.msix b] }
  | none =>
    { d with msix := d.msix ++ [{ vector := b, addr := 0#64, data := 0#32, masked := true, pending := true }] }

/-- A write of a host beacon (R409); unit marks the shootdown unit and firmware, which alone write 254 and 255. -/
def State.writeHostBeacon (s : State) (unit : Bool) (b : Nat) (v : Word) : State :=
  if 254 ≤ b ∧ !unit then s
  else { s with dev := { s.dev with beacons := assocSet b v s.dev.beacons }.raiseMsix b }

/-- A Lantern interrupt on its way (R371). -/
def State.interruptLantern (s : State) (c : ClusterId) (cause : Word) : State := s.post [.lanternInterrupt c cause]

/-- The value of a graphics agent's register (R315). -/
def Agent.read (a : Agent) (off : Nat) : Word :=
  if off = 0x00 then a.ctl &&& 0xFFFF_3F00_0000_0001#64
  else if off = 0x08 then
    setField (setField (setField 0#64 32 32 a.skipped.toNat) 8 8 a.error) 0 3 a.state
  else if off = 0x10 then a.inp
  else if off = 0x20 then a.eaddr
  else if 0x28 ≤ off ∧ off ≤ 0x68 then a.outs.getD ((off - 0x28) / 8) 0#64
  else if off = 0x70 then a.cfg
  else 0#64

/-- The event of an agent's next record. -/
def recordEvent (a : AgentId) : Instr :=
  match a.kind with
  | .distributor => .drawRecord a
  | .rasteriser => .batchRecord a
  | .blend => .blendRecord a

/-- The fields of an agent register that a kind of agent has: a blend unit's out0 is aligned to 64, out1 to out8 and cfg
are the distributor's alone (R315, R4). -/
def keepField (k : AgentKind) (off : Nat) (v : Word) : Word :=
  match k with
  | .distributor => if off = 0x70 then v &&& 0xFF#64 else v
  | .rasteriser => if off = 0x10 ∨ off = 0x28 then v else 0#64
  | .blend => if off = 0x10 then v else if off = 0x28 then v &&& ~~~0x3F#64 else 0#64

/-- A write of ctl (R315, R316): enable starts or stops the agent, resume restarts a stalled one. An agent that waits for
space in a ring goes on waiting unless it is stopped or restarted. -/
def State.writeAgentCtl (s : State) (id : AgentId) (v : Word) : State :=
  let a := s.agent id
  let on := v.getLsbD 0
  let resume := v.getLsbD 1 && a.state == 3 && on
  let a1 := { a with
    ctl := v &&& 0xFFFF_3F00_0000_0001#64,
    state := if !on then 0 else if a.state = 0 then 1 else if resume then 2 else a.state,
    error := if resume then 0 else a.error,
    progress := if on && a.state != 0 then a.progress else 0,
    part := if on && a.state != 0 then a.part else 0,
    waits := if on && !resume then a.waits else none }
  let s1 := s.setAgent id a1
  if resume then s1.post [recordEvent id] else s1

/-- A write of a graphics agent's register (R315). -/
def State.writeAgent (s : State) (id : AgentId) (off : Nat) (v : Word) : State :=
  let a := s.agent id
  let w := keepField id.kind off v
  let free := !a.ctl.getLsbD 0
  if off = 0 then s.writeAgentCtl id v
  else if off = 0x18 then
    (if a.state = 1 then (s.setAgent id { a with state := 2 }).post [recordEvent id] else s)
  else if off = 0x10 ∧ free then
    s.setAgent id { a with inp := w, counter := none, progress := 0, part := 0 }
  else if 0x28 ≤ off ∧ off ≤ 0x68 ∧ free then s.setAgent id { a with outs := a.outs.set ((off - 0x28) / 8) w }
  else if off = 0x70 ∧ free then s.setAgent id { a with cfg := w }
  else s

/-- The placed gang that owns a ring-table entry of a cluster (R218). -/
def State.entryGang (s : State) (cluster entry : Nat) : Option Gang :=
  s.dev.gangs.find? fun g => g.die * 48 + g.cluster == cluster && g.banks.contains (entry / 2)

/-- The physical address of an offset of a gang's FIFO storage (R247). -/
def Gang.fifoPa (g : Gang) (off : Nat) : Option Nat := scratchMap g (0x40_0000 + off)

/-- After a hart's store of a ring-table entry's ctl word with loc 1, the owner field of each slot is 0 (R218), and an
owner field that changes is a write of its slot's line (R207). -/
def State.resetOwners (s : State) (self : Option HartId) (cluster entry : Nat) : State :=
  match s.entryGang cluster entry with
  | some g =>
    let e := ringTableEntry cluster entry
    let ctl := wordOf (s.physLoad e 8)
    let base := s.physLoad (e + 8) 8
    let size := 2 ^ fieldOf ctl 32 4
    if fieldOf ctl 4 4 = 1 then
      let pas := (List.range (fieldOf ctl 16 16 + 1)).filterMap fun k => g.fifoPa (base + k * size)
      let c := s.cluster (ClusterId.ofIndex cluster)
      (c.owners.filter fun o => pas.contains o).foldl (fun t o => t.noteLine self (lineOf o))
        (s.setCluster (ClusterId.ofIndex cluster) { c with owners := c.owners.filter fun o => !pas.contains o })
    else s
  | none => s

/-- A store to a ring-table entry (R218): Ignored from a hart whose gang does not own the entry. -/
def State.storeRingTable (s : State) (p : Party) (gang : Option Nat) (pa n v : Nat) (cluster entry off : Nat) : State :=
  if p.self.isNone || ((s.entryGang cluster entry).map Gang.number == gang && gang.isSome) then
    let s1 := s.physStore p.self pa n v
    if off < 8 then s1.resetOwners p.self cluster entry else s1
  else s

/-! ## One physical access -/

/-- The mode of a cluster bank (R241). -/
def State.bankMode (s : State) (cluster bank : Nat) : Nat :=
  fieldOf (s.cluster (ClusterId.ofIndex cluster)).bankmode (2 * bank) 2

/-- The aperture byte lies in a bank in SCRATCH or FIFO mode (R246). -/
def State.apertureOpen (s : State) (cluster off : Nat) : Bool :=
  let m := s.bankMode cluster (off / 0x2_0000)
  m == 1 || m == 2

def newRequest (p : Party) (id : Nat) (write amo : Bool) (pa n : Nat) : RemoteRequest :=
  { id := id, hart := p.self, engine := p.engine, write := write, amo := amo, pa := pa, size := n, data := none, poison := false,
    dropped := false }

def Output.isAmo : Output → Bool
  | .peerAmo _ _ _ _ _ _ _ => true
  | _ => false

/-- The request of a hart or unit for a remote read or atomic whose answer has come, taken out of the list; or the wait
for it, after sending it the first time (R401, R408). -/
def remoteRead (p : Party) (va : Word) (a : Access) (pa n : Nat) (send : Nat → Output) : M Nat := do
  let s ← get
  match s.dev.requests.find? fun r =>
      r.hart == p.self && r.engine == p.engine && r.pa == pa && r.size == n && !r.write with
  | some r =>
    if r.poison then throw (.mem (.poison a va))
    match r.data with
    | some v =>
      set { s with dev := { s.dev with requests := s.dev.requests.filter fun q => q != r } }
      return v
    | none => hold .remote
  | none =>
    let id := s.dev.nextId
    set { s with dev := { s.dev with
      nextId := id + 1,
      requests := s.dev.requests ++ [newRequest p id false (send id).isAmo pa n],
      outputs := s.dev.outputs ++ [send id] } }
    hold .remote

/-- A peer address that a route reaches and whose offset a peer serves (R400). -/
def State.peerOk (s : State) (device off : Nat) : Bool :=
  decide (device < 1536) && (wordOf (s.mem.read (routeTable + 8 * device) 8)).getLsbD 63 &&
  (match region off with
    | .hbm _ => true
    | .aperture _ _ => true
    | _ => false)

/-- The marks that a read of n bytes at an address places: one for each line, with the virtual address of its first byte
in the range. -/
def State.marksOf (s : State) (p : Party) (va : Word) (pa n : Nat) : List Mark :=
  (linesOf pa n).map fun l =>
    let k := max pa (128 * l) - pa
    let v := va + BitVec.ofNat 64 k
    { line := l, va := v, page := s.pageAt p.ctx v (pa + k) }

/-- Adds a line to the read set (R206), at most 96 of them (R200), and its mark to the table of its home (R207, R211). -/
def State.addMark (s : State) (m : Mark) : Option State :=
  match s.hart.tx with
  | some t =>
    if t.reads.any fun r => r.line == m.line then some s
    else if 96 ≤ t.reads.length then none
    else some { s with
      hart := { s.hart with tx := some { t with reads := t.reads ++ [m] } },
      dev := { s.dev with coarse := s.coarseAfter m.home } }
  | none => some s

/-- A byte with the bits of a mask replaced. -/
def mergeByte (old new mask : Byte) : Byte := (old &&& ~~~mask) ||| (new &&& mask)

/-- The byte at an address as the transaction sees it: memory's, with its own writes of it in order (R206). -/
def Tx.byteAt (t : Tx) (m : Memory) (a : Nat) : Byte :=
  t.writes.foldl (fun b w =>
    if w.sector = a / 32 then
      match w.bytes.lookup (a % 32) with
      | some x => mergeByte b x.1 x.2
      | none => b
    else b) (m.get a)

def Tx.readFrom (t : Tx) (m : Memory) : Nat → Nat → Nat
  | _, 0 => 0
  | a, n + 1 => (t.byteAt m a).toNat + 256 * t.readFrom m (a + 1) n

/-- The bits of a byte that the transaction has written. -/
def Tx.bitsWritten (t : Tx) (a : Nat) : Byte :=
  t.writes.foldl (fun k w => if w.sector = a / 32 then k ||| ((w.bytes.lookup (a % 32)).map Prod.snd).getD 0#8 else k) 0#8

/-- The level that owns a new write: that of the innermost alternative, or the outermost (R197, R206). -/
def Tx.level (t : Tx) : Nat :=
  match t.levels.findIdx? TxLevel.alt with
  | some i => t.levels.length - i
  | none => 1

/-- Applies a change to the entry of a sector at the level in force, a new one if there is none; at most 48 entries (R200,
R206). -/
def Tx.modEntry (t : Tx) (sector : Nat) (va : Word) (page : Option TlbEntry)
    (f : List (Nat × Byte × Byte) → List (Nat × Byte × Byte)) : Option Tx :=
  let lv := t.level
  if t.writes.any fun w => w.sector == sector && w.level == lv then
    some { t with writes := t.writes.map fun w =>
      if w.sector = sector ∧ w.level = lv then { w with bytes := f w.bytes } else w }
  else if 48 ≤ t.writes.length then none
  else some { t with writes := t.writes ++ [{ sector := sector, va := va, page := page, level := lv, bytes := f [] }] }

/-- Adds bits of one byte to the bytes of an entry. -/
def putByte (off : Nat) (b mask : Byte) (l : List (Nat × Byte × Byte)) : List (Nat × Byte × Byte) :=
  match l.lookup off with
  | some x => assocSet off (mergeByte x.1 b mask, x.2 ||| mask) l
  | none => assocSet off (b, mask) l

/-- Adds one byte, or bits of it, to the write set. -/
def Tx.addByte (t : Tx) (a : Nat) (va : Word) (page : Option TlbEntry) (b mask : Byte) : Option Tx :=
  t.modEntry (a / 32) va page (putByte (a % 32) b mask)

def Tx.addBytes (t : Tx) (page : Option TlbEntry) : Nat → Word → Nat → Nat → Option Tx
  | _, _, 0, _ => some t
  | a, va, n + 1, v =>
    match t.addByte a va page (BitVec.ofNat 8 v) 0xFF#8 with
    | some t' => t'.addBytes page (a + 1) (va + 1#64) n (v / 256)
    | none => none

/-- The transaction touches the lines of a range: another ordered attempt that holds one aborts an ordered attempt and
holds up any other (R212). -/
def txTouch (p : Party) (pa n : Nat) : M Unit := do
  let s ← get
  if (linesOf pa n).any fun l => s.lineHeld p.self l then
    match s.hart.tx with
    | some t => if t.ordered then throw (.conflict (linesOf pa n)) else pure ()
    | none => pure ()

/-- A transactional read (R206). -/
def txRead (p : Party) (va : Word) (pa n : Nat) : M Nat := do
  txTouch p pa n
  let s ← get
  match (s.marksOf p va pa n).foldlM State.addMark s with
  | some u => do
    set u
    return ((u.hart.tx.map fun t => t.readFrom u.mem pa n).getD (u.physLoad pa n))
  | none => throw (.abort 2 0)

/-- Changes the open transaction, or aborts it for want of room (R200). -/
def modTx (f : Tx → Option Tx) : M Unit := do
  match (← getH).tx with
  | some t =>
    match f t with
    | some t' => modH fun h => { h with tx := some t' }
    | none => throw (.abort 2 0)
  | none => pure ()

/-- A transactional write (R206). -/
def txWrite (p : Party) (va : Word) (pa n v : Nat) : M Unit := do
  txTouch p pa n
  let page := (← get).pageAt p.ctx va pa
  modTx fun t => t.addBytes page pa va n v

/-- A transactional write of some bits of a byte (R36, R206). -/
def txWriteBits (p : Party) (va : Word) (pa : Nat) (b mask : Byte) : M Unit := do
  txTouch p pa 1
  let page := (← get).pageAt p.ctx va pa
  modTx fun t => t.addByte pa va page b mask

/-- A change of an owner field that the commit makes, which enters the write set with its slot (R205), or, with the address
of a ring-table entry, the reset of its slots' owner fields (R218). -/
def txFlip (va : Word) (pa : Nat) (owned : Bool) : M Unit :=
  modTx fun t => (t.modEntry (pa / 32) va none id).map fun u =>
    { u with flips := u.flips ++ [{ level := u.level, pa := pa, owned := owned }] }

/-- A party's write of lines waits while another hart's ordered attempt holds one, in arrival order (R212). -/
def awaitLines (p : Party) (pa n : Nat) : M Unit := do
  let s ← get
  match (linesOf pa n).find? fun l => s.lineHeld p.self l with
  | some l => hold (s.lineWait l)
  | none => pure ()

/-- A write by a party to memory that a home serves. -/
def plainWrite (p : Party) (pa n v : Nat) : M Unit := do
  awaitLines p pa n
  modify fun s => s.physStore p.self pa n v

def plainRead (va : Word) (a : Access) (pa n : Nat) : M Nat := do
  let s ← get
  if s.poisoned pa n then throw (.mem (.poison a va))
  return s.physLoad pa n

/-- The remote accesses abort a transaction (R200, R205). -/
def noTx (p : Party) : M Unit := do
  if (← get).inTx p then throw (.abort 10 0)

/-- An access to the agent register range is naturally aligned (R92). -/
def natAligned (va : Word) (n : Nat) : Bool := (n == 1 || n == 2 || n == 4 || n == 8) && va.toNat % n == 0

/-- The fault of an access to an aperture bank that is closed: a fetch takes that of a load (R246). -/
def closedBank (a : Access) (va : Word) : MemFault := .access (if a = .fetch then .load else a) va

/-- Whether a party may make an access, natural or not, at a physical address: a remote one aborts a transaction first
(R200, R205), and the others have the faults of R92, R234, R246 and R400. -/
def checkPa (p : Party) (a : Access) (va : Word) (pa : Nat) (natural : Bool) : M Unit := do
  let s ← get
  match region pa with
  | .hbm _ => pure ()
  | .aperture c off => if !s.apertureOpen c off then throw (.mem (closedBank a va))
  | .agent => do
    match agentReg pa with
    | .ringTable _ _ _ => pure ()
    | _ => noTx p
    if p.moves || !natural then throw (.mem (.access a va))
  | .host _ => noTx p
  | .peer d off => do
    noTx p
    if !s.peerOk d off then throw (.mem (.access a va))
  | .bootRom => do
    noTx p
    if p.moves || a == .store then throw (.mem (.access a va))
  | .none => throw (.mem (.access a va))

/-- A read of the agent register range (R218, R285, R315, R399, R406). -/
def agentLoad (p : Party) (va : Word) (a : Access) (pa n : Nat) : M Nat := do
  let s ← get
  match agentReg pa with
  | .ringTable _ _ _ => if s.inTx p then txRead p va pa n else return s.physLoad pa n
  | .group _ _ _ | .route _ => return s.physLoad pa n
  | .graphics id off => do
    if n ≠ 8 then throw (.mem (.access a va))
    return ((s.agent id).read off).toNat
  | .hostBeacon b => return (assocGet b 0#64 s.dev.beacons).toNat / 2 ^ (8 * (pa % 8)) % 2 ^ (8 * n)
  | .launchBeacon _ _ | .reserved => return 0

/-- A write of the agent register range. A group entry and the route table are the Lantern's alone (R285, R399). -/
def agentStore (p : Party) (va : Word) (pa n v : Nat) : M Unit := do
  let s ← get
  match agentReg pa with
  | .ringTable c e off =>
    if s.inTx p then do
      txWrite p va pa n v
      if off < 8 then txFlip va (ringTableEntry c e) false
    else do
      awaitLines p pa n
      set (s.storeRingTable p p.ctx.gang pa n v c e off)
  | .group _ _ _ | .route _ | .reserved => pure ()
  | .graphics id off => do
    if n ≠ 8 then throw (.mem (.access .store va))
    set (s.writeAgent id off (wordOf v))
  | .hostBeacon b => set (s.writeHostBeacon false b (wordOf v))
  | .launchBeacon d r => set (s.post [.launchRingService d r])

/-- The open transaction of a party, if it accesses memory inside it. -/
def State.txOf (s : State) (p : Party) : Option Tx := if s.inTx p then s.hart.tx else none

/-- A read of n bytes would consume poison: a byte of a poisoned sector, but one that the party's own transaction has
written (R206, R382). -/
def State.consumes (s : State) (p : Party) (pa n : Nat) : Bool :=
  match s.txOf p with
  | some t => (List.range n).any fun k => s.poison.contains ((pa + k) / 32) && t.bitsWritten (pa + k) != 0xFF#8
  | none => s.poisoned pa n

/-- A read of n bytes of memory that a home serves. -/
def homeLoad (p : Party) (va : Word) (a : Access) (pa n : Nat) : M Nat := do
  let s ← get
  if s.consumes p pa n then throw (.mem (.poison a va))
  else if s.inTx p then txRead p va pa n
  else return s.physLoad pa n

/-- A read of n bytes, all in one line, at a physical address (R234). -/
def loadPa (p : Party) (va : Word) (a : Access) (pa n : Nat) (natural : Bool) : M Nat := do
  checkPa p a va pa natural
  match region pa with
  | .hbm _ | .aperture _ _ => homeLoad p va a pa n
  | .bootRom => plainRead va a pa n
  | .agent => agentLoad p va a pa n
  | .host off => remoteRead p va a pa n fun id => .hostRead id off n
  | .peer d off => remoteRead p va a pa n fun id => .peerRead id d off n
  | .none => throw (.mem (.access a va))

/-- The n low bytes of a number, lowest first. -/
def lowBytes (n v : Nat) : List Byte := (List.range n).map fun k => BitVec.ofNat 8 (v / 256 ^ k)

/-- A posted write to the host window (R408), which a later system-scope release of any hart covers (R179, log entry 45),
and a write to a peer that waits for its acknowledgement (R401). -/
def State.sendWrite (s : State) (p : Party) (pa n v : Nat) : State :=
  match region pa with
  | .peer d off =>
    let id := s.dev.nextId
    { s with dev := { s.dev with
      nextId := id + 1,
      requests := s.dev.requests ++ [newRequest p id true false pa n],
      outputs := s.dev.outputs ++ [.peerWrite id d off (lowBytes n v)] } }
  | .host off =>
    ({ s with dev := { s.dev with outputs := s.dev.outputs ++ [.hostWrite off (lowBytes n v)] } } : State).mapHarts
      fun h => { h with hostDirty := true }
  | _ => s

/-- A write of n bytes, all in one line, at a physical address (R234). -/
def storePa (p : Party) (va : Word) (pa n v : Nat) (natural : Bool) : M Unit := do
  checkPa p .store va pa natural
  let s ← get
  match region pa with
  | .hbm _ | .aperture _ _ => if s.inTx p then txWrite p va pa n v else plainWrite p pa n v
  | .agent => agentStore p va pa n v
  | .host _ | .peer _ _ => set (s.sendWrite p pa n v)
  | .bootRom | .none => pure ()

/-- A write of some bits of one byte, which keeps the others: in one step at the byte's home, and through a read of the
byte in host and peer memory (R36, log entry 46). A byte written in part keeps its sector's poison (R382). -/
def storeBits (p : Party) (va : Word) (pa : Nat) (b mask : Byte) : M Unit := do
  checkPa p .store va pa true
  let s ← get
  match region pa with
  | .hbm _ | .aperture _ _ =>
    if s.inTx p then txWriteBits p va pa b mask
    else plainWrite p pa 1 (mergeByte (s.mem.get pa) b mask).toNat
  | .host _ | .peer _ _ => do
    let old ← loadPa p va .store pa 1 true
    modify fun s => s.sendWrite p pa 1 (mergeByte (BitVec.ofNat 8 old) b mask).toNat
  | .agent | .bootRom | .none => pure ()

/-- A 4-bit element changes its half of the byte alone (R36). -/
def storeNibble (p : Party) (va : Word) (pa : Nat) (hi : Bool) (v : Nat) : M Unit :=
  storeBits p va pa (BitVec.ofNat 8 (if hi then 16 * (v % 16) else v % 16)) (if hi then 0xF0#8 else 0x0F#8)

/-! ## Waits and retries -/

/-- A request for data, which stays sent when the instruction that waits for it starts again. -/
def Output.asks : Output → Bool
  | .hostRead _ _ _ => true
  | .peerRead _ _ _ _ => true
  | .peerAmo _ _ _ _ _ _ _ => true
  | _ => false

/-- What remains of a wait: what its translations have done, the requests for data sent, and the answers that the wait
would have taken. -/
def State.keepRequests (s after : State) : State :=
  let t := s.keepWalks after
  { t with dev := { t.dev with
      requests := s.dev.requests ++ after.dev.requests.filter fun r => decide (s.dev.nextId ≤ r.id) && !r.write,
      outputs := s.dev.outputs ++ (after.dev.outputs.drop s.dev.outputs.length).filter Output.asks,
      nextId := after.dev.nextId } }

/-- An effect that leaves nothing behind when it ends early but the requests it has sent. -/
def atomically {α : Type} (m : M α) : M α := fun s =>
  match m s with
  | .ok a t => .ok a t
  | .error e t => .error e (s.keepRequests t)

/-! ## Accesses at virtual addresses -/

/-- One translation for an access. -/
def translateM (c : TransCtx) (va : Word) (a : Access) : M Translation := do
  match translate (← get) c va a with
  | .ok (t, s) => do set s; return t
  | .error (f, s) => do set s; throw (.mem f)

/-- The pieces of n bytes at an address, one for each 128-byte line: address and size (R92). -/
def piecesFrom : Nat → Word → Nat → List (Word × Nat)
  | 0, _, _ => []
  | fuel + 1, va, n =>
    if n = 0 then []
    else
      let k := min n (128 - va.toNat % 128)
      (va, k) :: piecesFrom fuel (va + BitVec.ofNat 64 k) (n - k)

def pieces (va : Word) (n : Nat) : List (Word × Nat) := piecesFrom (n / 128 + 2) va n

/-- Every piece with its physical address, each translated and checked, the lowest first, before any is performed (R92). -/
def locate (p : Party) (a : Access) (natural : Bool) : List (Word × Nat) → M (List (Word × Nat × Nat))
  | [] => return []
  | (va, n) :: l => do
    let t ← translateM p.ctx va a
    checkPa p a va t.pa natural
    let rest ← locate p a natural l
    return (va, t.pa, n) :: rest

/-- A hart's own store makes its streams load again what they have run ahead (R151). -/
def dropAhead (p : Party) : M Unit := do
  let h ← getH
  if p.self == some h.id && h.st.toList.any fun r => !r.ahead.isEmpty then
    modH fun h => { h with st := h.st.map fun r => { r with ahead := [] } }

/-- One appended element is performed (R149, R152). A 4-bit element changes its half of the byte alone (R44). An element
that has lost its translation in a frame is translated again (R264, log entry 44). -/
def performElem (p : Party) (e : AppendedElem) : M Unit := do
  let pa ← (match e.pa with
    | some pa => pure pa
    | none => do return (← translateM p.ctx e.va .store).pa : M Nat)
  match e.half with
  | none => storePa p e.va pa e.size e.data true
  | some hi => storeNibble p e.va pa hi e.data

/-- The appended elements of a store stream are performed, oldest first (R149, R152), outside any transaction; what the
hart's streams have run ahead is loaded again (R151). -/
def performAppended (st : Nat) : M Unit := atomically do
  let h ← getH
  if hst : st < 16 then
    let r := h.st[st]
    if !r.appended.isEmpty then
      let p := { ctx := h.ctx, self := some h.id, plain := true : Party }
      modH fun h => { h with st := h.st.set st { r with appended := [] } }
      dropAhead p
      forM' (performElem p) r.appended
  else pure ()

/-- A physical address that a link lies before. -/
def isRemote (pa : Nat) : Bool :=
  match region pa with
  | .host _ | .peer _ _ => true
  | _ => false

/-- An appended element goes to host or peer memory. -/
def State.remoteElem (s : State) (p : Party) (e : AppendedElem) : Bool :=
  match e.pa with
  | some pa => isRemote pa
  | none =>
    match translate s p.ctx e.va .store with
    | .ok (t, _) => isRemote t.pa
    | .error _ => false

/-- The streams of a hart that have appended elements. -/
def Hart.appendedTo (h : Hart) : List Nat :=
  (List.range 16).filter fun k => (h.st.toList[k]?.map fun r => !r.appended.isEmpty).getD false

/-- The hart's own accesses see every element its streams have appended, in program order (R32, R152). While some go to
host or peer memory, the hart waits until events have performed them, so that what it does next comes after them. -/
def settleStreams (p : Party) : M Unit := do
  let s ← get
  if p.self == some s.hart.id && !s.hart.appendedTo.isEmpty then
    if s.hart.st.toList.any fun r => r.appended.any (s.remoteElem p) then hold .older
    forM' performAppended s.hart.appendedTo

/-- A load of n bytes: what memory holds, as a little-endian number. -/
def loadVa (p : Party) (va : Word) (a : Access) (n : Nat) : M Nat := do
  settleStreams p
  let nat := natAligned va n
  let ps ← locate p a nat (pieces va n)
  let vs ← ps.mapM fun q => do return (q.2.2, ← loadPa p q.1 a q.2.1 q.2.2 nat)
  return vs.foldr (fun x acc => x.2 + 2 ^ (8 * x.1) * acc) 0

/-- Stores the pieces in order, the low bytes first. -/
def storePieces (p : Party) (natural : Bool) : List (Word × Nat × Nat) → Nat → M Unit
  | [], _ => pure ()
  | (va, pa, n) :: l, v => do
    storePa p va pa n v natural
    storePieces p natural l (v / 2 ^ (8 * n))

/-- A store of the n low bytes of v: both pieces are checked before either is performed (R92). -/
def storeVa (p : Party) (va : Word) (n v : Nat) : M Unit := do
  settleStreams p
  dropAhead p
  let nat := natAligned va n
  let ps ← locate p .store nat (pieces va n)
  storePieces p nat ps v

/-- A load of bytes as a list. -/
def loadBytes (p : Party) (va : Word) (n : Nat) : M (List Byte) := do
  return lowBytes n (← loadVa p va .load n)

/-- A store of bytes. -/
def storeBytes (p : Party) (va : Word) (bs : List Byte) : M Unit := storeVa p va bs.length (bytesToNat bs)

/-- What an atomic does to the value it finds: what it writes, if it writes. -/
abbrev Rmw := Nat → Option Nat

/-- One indivisible read-modify-write of n bytes (R93, R186, R188, R189): the old value. op, v and w name it to a peer. -/
def atomicVa (p : Party) (va : Word) (n : Nat) (f : Rmw) (op : Nat) (v w : Word) : M Nat := do
  if va.toNat % n ≠ 0 then throw (.mem (.misaligned .store va))
  settleStreams p
  dropAhead p
  let t ← translateM p.ctx va .store
  let perform : M Nat := do
    let s ← get
    if s.consumes p t.pa n then throw (.mem (.poison .store va))
    if s.inTx p then do
      let old ← txRead p va t.pa n
      match f old with
      | some new => txWrite p va t.pa n new
      | none => pure ()
      return old
    else do
      let old := s.physLoad t.pa n
      match f old with
      | some new => plainWrite p t.pa n new
      | none => pure ()
      return old
  let s ← get
  match region t.pa with
  | .hbm _ => perform
  | .aperture c off => if s.apertureOpen c off then perform else throw (.mem (.access .store va))
  | .peer d off => do
    noTx p
    if !s.peerOk d off then throw (.mem (.access .store va))
    remoteRead p va .store t.pa n fun id => .peerAmo id d off n op v w
  | .host _ | .agent | .bootRom => do noTx p; throw (.mem (.access .store va))
  | .none => throw (.mem (.access .store va))

/-! ## Releases (R180, R401, R408) -/

/-- A release at system scope waits for the acknowledgement of every earlier peer write and, after host-window writes of
any party, for a zero-length read to complete (R179, R401, R408; log entry 45); peers says that writes to peers are among what
it orders. Every narrower release is complete at once:
the model performs each access for every party at once (log entry 5). -/
def releaseOf (scope : Nat) (peers : Bool) : M Unit := do
  if scope = 5 then
    let s ← get
    if peers && s.dev.requests.any fun r => r.write then hold .release
    if s.hart.hostDirty then
      let p := { ctx := s.hart.ctx, self := some s.hart.id, plain := true : Party }
      let _ ← remoteRead p 0#64 .load 0x100_0000_0000 0 fun id => .hostRead id 0 0
      modH fun h => { h with hostDirty := false }

def release (scope : Nat) : M Unit := releaseOf scope true

/-! ## Taking a trap (R364 to R371) -/

/-- There is nothing to detach: the frame buffer stays empty. A CQ entry that has been handed over is engine work
(R364). -/
def Hart.detached (h : Hart) : Bool :=
  h.vq.isEmpty && h.mq.isEmpty && h.cq.all QEntry.ready && h.faults.isEmpty && h.vmsp == 0 && h.lq.isEmpty &&
  h.bindings.isEmpty && h.q.toList.all List.isEmpty &&
  h.st.toList.all (fun r => r.pos.all (· == 0) && r.ahead.isEmpty && r.appended.isEmpty)

/-- What a stream has run ahead without the faults it has recorded: a trap has taken the one that was consumed, and the
others are met again by a new walk (R262, R270, log entry 50). -/
def StreamReg.dropRecorded (r : StreamReg) : StreamReg := { r with ahead := r.ahead.filter fun a => a.fault.isNone }

/-- Moves the decoupled state into the frame buffer and clears it from the hart (R365). The frame holds no translations
(R265). -/
def Hart.detach (h : Hart) : Hart :=
  if h.detached then h
  else
    { h with
      frame := some {
        vq := h.vq, mq := h.mq, cq := h.cq.filter fun e => !e.ready,
        restart := match h.vq with
          | [] => 0
          | e :: _ => e.start.getD h.vstart,
        faults := h.faults, masks := h.masks, takenAt := h.vmsp, vmsp := h.vmsp, q := h.q, lq := h.lq,
        bindings := h.bindings, pos := h.st.toList.map StreamReg.pos, ahead := h.st.toList.map fun r => r.dropRecorded.ahead,
        appended := h.st.toList.map fun r => r.appended.map fun e => { e with pa := none }, level := BitVec.ofNat 2 h.level,
        vfpc := h.vfpc, vfcause := h.vfcause, vfaddr := h.vfaddr },
      vq := [], mq := [], cq := h.cq.filter QEntry.ready, faults := [], masks := [], vmsp := 0, q := Vector.replicate 8 [], lq := [],
      bindings := [],
      st := h.st.map fun r => { r with pos := r.pos.map fun _ => 0, ahead := [], appended := [], ready := [] } }

/-- vfcause (R367). -/
def vfcauseOf (cause : Nat) (other : Bool) (stream sub : Nat) : Word :=
  setField (setField (setField (setField 0#64 24 8 cause) 16 1 (if other then 1 else 0)) 8 2 stream) 0 8 sub

/-- Writes the CSRs of R368: vfcause.cause holds every cause of 24 and above. -/
def Hart.recordTrap (h : Hart) (interrupt : Bool) (t : Trap) (sepc : Word) (other : Bool) : Hart :=
  let h1 := { h with
    sepc := sepc, stval := t.tval,
    scause := wordOf t.cause ||| (if interrupt then 0x8000_0000_0000_0000#64 else 0#64) }
  match t.vf with
  | some f => { h1 with
      vfpc := f.pc, vfcause := vfcauseOf t.cause other f.stream f.sub, vfaddr := f.addr,
      vstart := f.vstart.getD h1.vstart }
  | none => { h1 with vfcause := if !interrupt && decide (24 ≤ t.cause) then setField h1.vfcause 24 8 t.cause else h1.vfcause }

/-- S-mode entry at stvec, as the RISC-V privileged architecture has it: SPIE := SIE, SIE := 0, SPP := the mode; a
vectored stvec sends interrupts to base + 4 × code (log entry 15). -/
def Hart.enterS (h : Hart) (interrupt : Bool) (cause : Nat) : Hart :=
  let st := setField (setField (setField h.sstatus 5 1 (fieldOf h.sstatus 1 1)) 1 1 0) 8 1
    (if h.priv = .supervisor then 1 else 0)
  let base := h.stvec &&& ~~~3#64
  { h with
    sstatus := st, priv := .supervisor, run := .running, fetchBuf := [],
    pc := if interrupt && fieldOf h.stvec 0 2 == 1 then base + wordOf (4 * cause) else base }

/-- The trap goes to the Lantern (R232, R370, R379, R382). -/
def Hart.toLantern (h : Hart) (interrupt : Bool) (t : Trap) : Bool :=
  h.frame.isSome || (!interrupt && (t.cause == 48 || (t.cause == 26 && t.tval == 0#64) || h.trroute.getLsbD t.cause))

/-- A frame as the trap that takes it leaves it: the vf registers of the trap, and the fault it takes among those that
are pending in it (R365, R375). -/
def Frame.atTrap (f : Frame) (h : Hart) (t : Trap) : Frame :=
  let f1 := { f with vfpc := h.vfpc, vfcause := h.vfcause, vfaddr := h.vfaddr }
  match t.vf with
  | some v =>
    if v.stream = 0 ∨ (v.stream = 3 ∧ v.sub = 3) then f1
    else { f1 with faults := f1.faults ++ [{
      seq := 0, pc := v.pc, stream := v.stream, cause := t.cause, sub := v.sub, addr := v.addr, tval := t.tval,
      vstart := h.vstart }] }
  | none => f1

/-- The instructions that a trap abandons ask again for what they read; so does an atomic whose answer came poisoned
(R364, R382, R403). -/
def State.dropReads (s : State) (id : HartId) : State :=
  { s with dev := { s.dev with
      requests := s.dev.requests.filter fun r => !(r.hart == some id && !r.write && (!r.amo || r.poison)) } }

/-- Takes a trap at a scalar boundary: detach, record, route, enter S mode or park (R364 to R371). -/
def State.takeTrap (s : State) (interrupt : Bool) (t : Trap) (sepc : Word) : State :=
  let h := s.hart
  let other := !h.faults.isEmpty
  let d := if h.frame.isSome then h else h.detach
  let r0 := { d with held := none, reservation := none, acquiring := [] }.recordTrap interrupt t sepc other
  let r := if h.frame.isSome then r0 else { r0 with frame := r0.frame.map fun f => f.atTrap r0 t }
  let s := s.dropReads h.id
  if h.toLantern interrupt t then
    { s with hart := { r with run := .parked, resumePc := sepc, parkCause := t.cause } }.interruptLantern
      h.id.clusterId (setField r.scause 32 6 (8 * h.id.core + h.id.hart))
  else { s with hart := r.enterS interrupt t.cause }

/-! ## Aborting a transaction (R198 to R200, R212) -/

/-- The lines of a transaction's read and write sets: the footprint of its attempt (R212). -/
def Tx.lines (t : Tx) : List Nat := (t.reads.map Mark.line ++ t.writes.map fun (w : TxWrite) => w.sector / 4).eraseDups

/-- What a delivered abort does (R198, R199). -/
def State.abortTx (s : State) (cause code : Nat) : State :=
  let h := s.hart
  match h.tx with
  | none => s
  | some t =>
    let c := if t.doomed then 1 else cause
    let old := fieldOf h.txstat 24 8
    let conflicts := if c = 1 then (if h.lastBegin = some t.begin_ then min (old + 1) 255 else 1) else 0
    let stat := setField (setField (setField (setField (setField 0#64 24 8 conflicts) 23 1 (if t.ordered then 1 else 0))
      16 3 t.levels.length) 8 8 (if c = cause then code else 0)) 0 8 c
    let cp := t.levels.getLast?.getD { alt := false, x := h.x, vl := h.vl, target := h.pc }
    let h1 := { h with
      tx := none, txstat := stat, x := cp.x, vl := min cp.vl h.vlmax, vstart := 0, pc := cp.target, held := none,
      vq := [], mq := [], faults := [], lastBegin := some t.begin_,
      footprint := t.lines }
    { s with hart := h1.wx t.rd stat }

/-- The abort of a fault inside a transaction (R209): vfpc, vfcause and vfaddr, then the abort; POISON-CONSUMED is then
also taken, with sepc at the abort target. -/
def State.abortFault (s : State) (t : Trap) (pc : Word) : State :=
  let h := s.hart
  let h1 := match t.vf with
    | some f => { h with
        vfpc := if f.stream = 0 then pc else f.pc,
        vfcause := if f.stream = 0 then 0#64 else vfcauseOf t.cause false f.stream f.sub, vfaddr := f.addr }
    | none => { h with vfpc := pc, vfcause := 0#64, vfaddr := t.tval }
  let s1 := { s with hart := h1 }.abortTx 4 t.cause
  if t.cause = 48 then s1.takeTrap false t s1.hart.pc else s1

/-- A fault at a scalar boundary: an abort inside a transaction, a trap otherwise. -/
def State.fault (s : State) (t : Trap) (sepc : Word) : State :=
  if s.hart.tx.isSome then s.abortFault t sepc else s.takeTrap false t sepc

/-! ## Pending stream faults and interrupts -/

/-- The oldest pending fault in program order (R366). -/
def oldestFault : List StreamFault → Option StreamFault
  | [] => none
  | f :: l => match oldestFault l with
    | some g => if g.seq < f.seq then some g else some f
    | none => some f

/-- The trap of a stream's fault (R368). -/
def StreamFault.trap (f : StreamFault) : Trap :=
  { cause := f.cause, tval := f.tval,
    vf := some { pc := f.pc, stream := f.stream, sub := f.sub, addr := f.addr, vstart := some f.vstart } }

/-- Takes the oldest pending stream fault, if any, at this boundary (R364, R366). -/
def State.settle (s : State) : State :=
  match oldestFault s.hart.faults with
  | none => s
  | some f =>
    let s1 := { s with hart := { s.hart with faults := s.hart.faults.filter fun g => g != f } }
    s1.fault f.trap s1.hart.pc

/-- The supervisor interrupt to take now, if any (R13): software before timer. -/
def State.pendingInterrupt (s : State) : Option Nat :=
  let h := s.hart
  let stip := decide (h.stimecmp.toNat ≤ s.dev.refTime)
  if h.priv = .user ∨ h.sstatus.getLsbD 1 then
    if h.ssip && h.sie.getLsbD 1 then some 1
    else if stip && h.sie.getLsbD 5 then some 5
    else none
  else none

/-- Takes an interrupt: a transaction aborts with cause INTERRUPT first, and a sleeping hart loses its registration
(R209, R210). -/
def State.takeInterrupt (s : State) (code : Nat) : State :=
  let s1 := if s.hart.tx.isSome then s.abortTx 13 0 else s
  let s2 := { s1 with hart := { s1.hart with marks := [], sleepTarget := none, deadline := none } }
  s2.takeTrap true { cause := code, tval := 0#64, vf := none } s2.hart.pc

/-! ## Runners -/

/-- The trap of a failed access of the scalar stream (R92, R256, R382). -/
def MemFault.trap : MemFault → Trap
  | .page .fetch va => { cause := 12, tval := va, vf := none }
  | .page .load va => { cause := 13, tval := va, vf := none }
  | .page .store va => { cause := 15, tval := va, vf := none }
  | .access .fetch va => { cause := 1, tval := va, vf := none }
  | .access .load va => { cause := 5, tval := va, vf := none }
  | .access .store va => { cause := 7, tval := va, vf := none }
  | .misaligned .fetch va => { cause := 0, tval := va, vf := none }
  | .misaligned .load va => { cause := 4, tval := va, vf := none }
  | .misaligned .store va => { cause := 6, tval := va, vf := none }
  | .poison a va =>
    { cause := 48, tval := va,
      vf := some { pc := 0#64, stream := 0, sub := if a = .fetch then 4 else 1, addr := va, vstart := none } }

/-- An instruction that waits (R5, R105): nothing of it has happened but the requests it has sent and the lines that it has
acquired (R212); a doomed transaction aborts instead of waiting (R207). -/
def State.hold (s : State) (after : State) (w : Held) : State :=
  if (s.hart.tx.map Tx.doomed).getD false then s.abortTx 1 0
  else { s.keepRequests after with hart := { s.hart with held := some w, acquiring := after.hart.acquiring } }

/-- The abort of an ordered attempt that touched lines another one holds: the next attempt's footprint has them
(R212). -/
def State.abortConflict (s : State) (lines : List Nat) : State :=
  let more : List Mark := lines.map fun l => { line := l, va := 0#64, page := none }
  let h := { s.hart with tx := s.hart.tx.map fun t => { t with reads := t.reads ++ more } }
  ({ s with hart := h }).abortTx 1 0

/-- The outcome of a scalar instruction that began in a state and ended early: a fault or an abort leaves nothing of it
but the trap or the abort, and what its translations have done (R259, R261). -/
def State.ended (s : State) (e : Exit) (t : State) : Host.Outcome State Fault Refusal :=
  let r := s.keepWalks t
  match e with
  | .trap f => .next (r.fault f r.hart.pc)
  | .mem f => .next (r.fault f.trap r.hart.pc)
  | .stream cause sub addr tval =>
    let f : Vf := { pc := r.hart.pc, stream := 0, sub := sub, addr := addr, vstart := if cause = 28 then some 0 else none }
    .next (r.fault { cause := cause, tval := tval, vf := some f } r.hart.pc)
  | .held w => .next (s.hold t w)
  | .abort c k => .next (r.abortTx c k)
  | .conflict l => .next (r.abortConflict l)
  | .stop f => .fault f
  | .refuse r => .refused r

/-- The scalar stream goes on: it waits for nothing. -/
def State.goesOn (s : State) : State := { s with hart := { s.hart with held := none } }

/-- Runs a scalar instruction's effect. -/
def runScalar (m : M Unit) (s : State) : Host.Outcome State Fault Refusal :=
  match m s with
  | .ok _ t => .next t.goesOn
  | .error e t => s.ended e t

/-- Runs an event's effect. A wait leaves the event to the end of the inbox, after a hart has had a turn. -/
def runEvent (i : Instr) (m : M Unit) (s : State) : Host.Outcome State Fault Refusal :=
  match m s with
  | .ok _ t => .next t
  | .error (.held _) t =>
    .next { (s.post [i]).keepRequests t with selected := true }
  | .error (.stop f) _ => .fault f
  | .error (.refuse r) _ => .refused r
  | .error _ t => .next t

/-- Runs an effect with another hart as the one whose turn it is, and gives the turn back. -/
def onHart (id : HartId) (m : M Unit) : M Unit := do
  let me := (← getH).id
  modify fun s => s.focus id
  m
  modify fun s => s.focus me

/-! ## Waits for the streams (R30) -/

/-- VQ and MQ are empty. -/
def Hart.drained (h : Hart) : Bool := h.vq.isEmpty && h.mq.isEmpty

/-- Held until VQ and MQ are empty. -/
def drain : M Unit := do
  if !(← getH).drained then hold .drain

/-- The instruction aborts a transaction with the cause given (R205). -/
def abortIfTx (cause : Nat) : M Unit := do
  if (← getH).tx.isSome then throw (.abort cause 0)

end Sys2Proof.Machine
end

