-- ==== Sys2Proof/Machine/Operands.lean ====
section
/-! DEFINITION. What a dispatched vector or matrix instruction works with: the palette word, its element registers, the
second operand, the active elements and the element loop (01 R27 to R29, 02 R46 to R49, R54, R55, 03 R71, 05 R106 to
R108). -/

namespace Sys2Proof.Machine

/-! ## Elements of registers -/

/-- Element i of a register of elements of w bits. -/
def elem {n : Nat} (v : BitVec n) (w i : Nat) : Nat := (v.extractLsb' (i * w) w).toNat

/-- The register with element i replaced. -/
def setElem {n : Nat} (v : BitVec n) (w i x : Nat) : BitVec n :=
  let m : BitVec n := BitVec.ofNat n ((2 ^ w - 1) * 2 ^ (i * w))
  (v &&& ~~~m) ||| BitVec.ofNat n (x % 2 ^ w * 2 ^ (i * w))

def Hart.rv (h : Hart) (r : Nat) : BitVec 16384 := h.v.toList.getD r 0#16384
def Hart.wv (h : Hart) (r : Nat) (x : BitVec 16384) : Hart :=
  if hr : r < 32 then { h with v := h.v.set r x } else h

/-- p0 reads all ones (R14). -/
def Hart.rp (h : Hart) (p : Nat) : BitVec 2048 := if p = 0 then BitVec.allOnes 2048 else h.p.toList.getD p 0#2048

/-- Writes to p0 are Ignored (R14). -/
def Hart.wp (h : Hart) (p : Nat) (x : BitVec 2048) : Hart :=
  if hp : 0 < p ∧ p < 16 then { h with p := h.p.set p x } else h

/-- One bit of a mask set or cleared. -/
def setBit (x : BitVec 2048) (i : Nat) (b : Bool) : BitVec 2048 :=
  if b then x ||| BitVec.ofNat 2048 (2 ^ i) else x &&& ~~~(BitVec.ofNat 2048 (2 ^ i))

/-- The low n bits of a mask. -/
def lowMask (n : Nat) : BitVec 2048 := BitVec.ofNat 2048 (2 ^ n - 1)

/-- The current mask of the mask stack (R136). -/
def Hart.currentMask (h : Hart) : BitVec 2048 :=
  match h.masks with
  | [] => BitVec.allOnes 2048
  | e :: _ => e.branch

/-! ## The palette word (R46 to R49) -/

def palFd (p : Word) : Nat := fieldOf p 0 5
def palFa (p : Word) : Nat := fieldOf p 5 5
def palFb (p : Word) : Nat := fieldOf p 10 5
def palFc (p : Word) : Nat := fieldOf p 15 5
def palXi (p : Word) : Bool := p.getLsbD 20
def palZr (p : Word) : Bool := p.getLsbD 21
def palSa (p : Word) : Int := decodeInt true 6 (fieldOf p 28 6)
def palSb (p : Word) : Int := decodeInt true 6 (fieldOf p 34 6)
def palSd (p : Word) : Int := decodeInt true 6 (fieldOf p 40 6)
def palNanprop (p : Word) : Bool := p.getLsbD 46
def palFtz (p : Word) : Bool := p.getLsbD 47
def palSat8 (p : Word) : Bool := p.getLsbD 48

/-- The reserved bits are 0 and every format field holds a defined code (R46, R47). -/
def palDefined (p : Word) : Bool :=
  fieldOf p 49 15 == 0 && fieldOf p 24 4 == 0 && fieldOf p 22 2 == 0 &&
  decide (palFd p < 0x13) && decide (palFa p < 0x13) && decide (palFb p < 0x13) && decide (palFc p < 0x13)

/-- The palette of an instruction that reads no coded and no 4-bit element: no field names such a format, one that the
instruction does not read included (R44, R109, R143, log entry 47). -/
def palPlain (p : Word) : Bool :=
  palDefined p && decide (palFd p < 0x0F) && decide (palFa p < 0x0F) && decide (palFb p < 0x0F) && decide (palFc p < 0x0F)

/-- A register format of a computing instruction: neither coded nor 4 bits (R109). -/
def regFmt (code : Nat) : Option Fmt :=
  match fmtOf code with
  | some f => if f.isQ || f.is4 then none else some f
  | none => none

/-- The scale fields outside a list of used ones are 0 (R49, R109). -/
def scalesZero (p : Word) (a b d : Bool) : Bool :=
  (a || palSa p == 0) && (b || palSb p == 0) && (d || palSd p == 0)

/-- The encoding mode of an instruction's result: sat8 acts on the 8-bit formats alone (R51). -/
def encMode (p : Word) (f : Fmt) (rm : Nat) (sat : Bool) : EncMode :=
  { rm := rm, ftz := palFtz p, sat := sat || (palSat8 p && (f == .e4m3 || f == .e5m2)), nanprop := palNanprop p }

/-- A source element: decoded, flushed and scaled exactly (R49, R50). -/
def decodeScaled (p : Word) (f : Fmt) (scale : Int) (bits : Nat) : Val := (decodeVal (palFtz p) f bits).scale scale

/-! ## Dispatch (R28, R29) -/

/-- A dispatched instruction: its fields, its queue entry, what it computes under, and whether a fault, a wait or a trap
has stopped it before with elements of it done. -/
structure VCtx where
  w     : WWord
  e     : QEntry
  vl    : Nat
  vlmax : Nat
  bits  : Nat
  mask  : BitVec 2048
  rm    : Nat
  again : Bool
  deriving Repr

def VCtx.pal (c : VCtx) : Word := c.e.cap.pal
def VCtx.sat (c : VCtx) : Bool := c.w.sat == 1#1
def VCtx.active (c : VCtx) (i : Nat) : Bool := c.mask.getLsbD i

/-- Illegal at dispatch: precise in its stream, with vstart = 0 and the encoding in stval and vfaddr (log entry 17). -/
def illegalV {α : Type} (e : QEntry) : M α := do
  modH fun h => { h with vstart := 0 }
  throw (.stream 2 0 (encodingOf e.instr) (encodingOf e.instr))

/-- A VECTOR-FAULT of the instruction (R369), at the element that vstart names. -/
def vfault {α : Type} (sub : Nat) (addr : Word) : M α := throw (.stream 24 sub addr addr)

def requireV (e : QEntry) (b : Bool) : M Unit := if b then pure () else illegalV e

/-- The rounding mode in force: rm = 111 takes the captured vfrm, which must be 000 to 100 (R21, R28). -/
def roundingMode (e : QEntry) (rm : Nat) : M Nat :=
  if rm = 7 then
    if e.cap.vfrm.toNat ≤ 4 then return e.cap.vfrm.toNat else illegalV e
  else return rm

/-- The entry at the head of VQ, replaced. -/
def setVqHead (e : QEntry) : M Unit := modH fun h =>
  match h.vq with
  | [] => h
  | _ :: l => { h with vq := e :: l }

/-- lq for an lqv instruction (R29): one entry is popped, and an empty lq is Illegal. -/
def popLq (e : QEntry) (vlmax : Nat) : M Nat := do
  let h ← getH
  match h.lq with
  | [] => illegalV e
  | n :: l => do
    modH fun h => { h with lq := l }
    return min n.toNat vlmax

/-- q0 to q3 as a second operand (R28, R30): one entry is popped, Held while the queue is empty. -/
def popQ (k : Nat) : M Word := do
  let h ← getH
  if hk : k < 8 then
    match h.q[k] with
    | [] => hold .queueEmpty
    | v :: l => do
      modH fun h => { h with q := h.q.set k l }
      return v
  else return 0#64

/-- The first dispatch of an entry: lqv and a q operand are popped into it, all or nothing; a second dispatch after a
wait, a fault or a resume finds them there. usesQ says that the instruction takes its second operand from a q register
when its kind is 10. -/
def popOperands (w : WWord) (e : QEntry) (usesQ : Bool) : M QEntry := do
  if e.ready then return e
  let first := (← getH).vstart
  atomically do
    let vlmax := vlmaxOf e.cap.width.toNat e.cap.level.toNat
    let vl ← if w.lqv = 1#1 then popLq e vlmax else pure e.cap.vl
    let x2 ← if usesQ && w.kind == 2 then popQ (w.vs2.toNat % 4) else pure e.cap.x2
    let e1 := { e with ready := true, first := first, cap := { e.cap with vl := vl, x2 := x2 } }
    setVqHead e1
    return e1

/-- Dispatches a vector instruction: the restart element of an entry that came back from a frame, the operands it pops,
the rounding mode and the mask (R28, R106, R378). -/
def dispatchV (w : WWord) (e : QEntry) (usesQ : Bool) : M VCtx := do
  match e.start with
  | some r => modH fun h => { h with vstart := r }
  | none => pure ()
  let rm ← roundingMode e w.rm.toNat
  let e0 := { e with start := none }
  if e.start.isSome then setVqHead e0
  let e1 ← popOperands w e0 usesQ
  let h ← getH
  return { w := w, e := e1, vl := e1.cap.vl, vlmax := vlmaxOf e1.cap.width.toNat e1.cap.level.toNat,
           bits := widthBits e1.cap.width.toNat, mask := h.rp w.pg.toNat &&& h.currentMask, rm := rm,
           again := e.ready && decide (e.first < h.vstart) }

/-- Completion: flags are already in vfflags; vstart becomes 0 (R106). -/
def completeV : M Unit := modH fun h => { h with vstart := 0 }

/-- Flags OR-ed into vfflags (R55). -/
def raise (f : Flags) : M Unit := modH fun h => { h with vfflags := h.vfflags ||| f }

/-- The em bit of element i (R54, R106). -/
def emBit (c : VCtx) (i : Nat) (f : Flags) : M Unit :=
  if c.w.em = 1#1 then
    modH fun h => h.wp c.w.pe.toNat (setBit (h.rp c.w.pe.toNat) i (f &&& c.e.cap.vxmask != 0#6))
  else pure ()

/-- The em bits from max(vl, vstart) upwards, and those at VLMAX and above, are Zeroed at completion (R54, R106, R15). -/
def emTail (c : VCtx) (from_ : Nat) : M Unit :=
  if c.w.em = 1#1 then modH fun h => h.wp c.w.pe.toNat (h.rp c.w.pe.toNat &&& lowMask (min from_ c.vlmax)) else pure ()

/-! ## The second operand (R71, R107) -/

/-- The sign-extended immediate of kind 11. -/
def WWord.imm (w : WWord) : Int := decodeInt true 7 w.auxHigh.toNat

/-- The immediate in a format (R107): wrapped to an integer format, rounded to a floating one. -/
def immIn (f : Fmt) (v : Int) : Nat :=
  if f.isInt then (encodeInt f.signed f.width false v).1
  else (encodeFloat f f.prec { rm := 0, ftz := false, sat := false, nanprop := false } (.ofInt v)).1

/-- Element i of the second operand as a pattern of w bits: src is the vector source as it stood at dispatch. -/
def VCtx.operand (c : VCtx) (f : Fmt) (src : BitVec 16384) (i : Nat) : Nat :=
  match c.w.kind with
  | 0 => elem src c.bits i
  | 3 => immIn f (WWord.imm c.w)
  | _ => c.e.cap.x2.toNat % 2 ^ c.bits

/-- The second operand of group 2 as a 64-bit value (R124): a negative immediate is a very large one. -/
def VCtx.scalar (c : VCtx) : Word :=
  if c.w.kind = 3 then BitVec.ofInt 64 (WWord.imm c.w) else c.e.cap.x2

/-! ## Register groups (R108) -/

/-- The register and element that element i of a group of 2^k registers from base lies in. -/
def groupAt (c : VCtx) (base k i : Nat) : Nat × Nat :=
  let per := c.vlmax / 2 ^ k
  (base + i / per, i % per)

/-- The element loop: f runs on each element from vstart to hi − 1, with vstart naming it, all or nothing; an element
that ends early leaves the elements below it done (R106, R148). -/
def elemLoop (f : Nat → M Unit) : Nat → Nat → M Unit
  | 0, _ => pure ()
  | n + 1, i => do
    modH fun h => { h with vstart := i }
    atomically (f i)
    elemLoop f n (i + 1)

end Sys2Proof.Machine
end

