-- ==== Sys2Proof/Machine/Streams.lean ====
section
/-! DEFINITION. Coded blocks (02 R39 to R45), conversion between memory and register formats (05 R123, 06 R140), stream
registers, delivery and appending (06 R145 to R152), and the stream instructions (R147). -/

namespace Sys2Proof.Machine

/-! ## Q blocks (R39 to R43) -/

/-- The code words of a prefix table, leftmost bit first, with d = e − base; none is the escape (R40). -/
def qTable (tid : Nat) : List (List Bool × Option Int) :=
  let o := false
  let i := true
  match tid with
  | 0 => [([o], some 0), ([i, o, o], some (-1)), ([i, o, i], some 1), ([i, i, o, o], some (-2)),
          ([i, i, o, i], some 2), ([i, i, i, o, o], some (-3)), ([i, i, i, o, i], some 3), ([i, i, i, i], none)]
  | 1 => [([o, o], some 0), ([o, i], some (-1)), ([i, o, o], some (-2)), ([i, o, i], some (-3)),
          ([i, i, o, o], some (-4)), ([i, i, o, i], some (-5)), ([i, i, i, o, o], some (-6)),
          ([i, i, i, o, i], some (-7)), ([i, i, i, i, o], some (-8)), ([i, i, i, i, i], none)]
  | _ => [([o, o], some 0), ([o, i, o], some (-1)), ([o, i, i], some 1), ([i, o, o, o], some (-2)),
          ([i, o, o, i], some 2), ([i, o, i, o], some (-3)), ([i, o, i, i], some 3), ([i, i, o, o, o], some (-4)),
          ([i, i, o, o, i], some 4), ([i, i, o, i, o], some (-5)), ([i, i, o, i, i], some 5),
          ([i, i, i, o, o], some (-6)), ([i, i, i, o, i], some 6), ([i, i, i, i, o], some (-7)),
          ([i, i, i, i, i], none)]

/-- n bits of a bit string from position p. -/
def bitsAt (s p n : Nat) : Nat := s / 2 ^ p % 2 ^ n

/-- A code word stands at position p. -/
def codeAt (s : Nat) : Nat → List Bool → Bool
  | _, [] => true
  | p, b :: l => (bitsAt s p 1 == (if b then 1 else 0)) && codeAt s (p + 1) l

/-- The token at p: its exponent field (possibly outside the field's range) and the next position (R41). -/
def readToken (s tid base ew p : Nat) : Int × Nat :=
  if tid = 3 then (bitsAt s p ew, p + ew)
  else
    match (qTable tid).find? fun c => codeAt s p c.1 with
    | some (code, some d) => ((base : Int) + d, p + code.length)
    | some (code, none) => (bitsAt s (p + code.length) ew, p + code.length + ew)
    | none => (-1, p)

/-- The exponent width and plane width of a Q format (R39). -/
def qWidths (f : Fmt) : Nat × Nat := if f = .e4m3q then (4, 4) else (5, 3)

/-- Elements i to 31 of a block; none is a reserved element code (R41). -/
def decodeTokens (f : Fmt) (s tid base stop : Nat) : Nat → Nat → Nat → List (Option Nat)
  | 0, _, _ => []
  | n + 1, i, p =>
    let ew := (qWidths f).1
    let pw := (qWidths f).2
    let t := readToken s tid base ew p
    if stop < t.2 then List.replicate (n + 1) none
    else
      let sm := bitsAt s (16 + i * pw) pw
      let v := if t.1 < 0 ∨ (2 ^ ew : Nat) - 1 < t.1 then none
        else some (sm / 2 ^ (pw - 1) * 128 + t.1.toNat * 2 ^ (7 - ew) + sm % 2 ^ (pw - 1))
      v :: decodeTokens f s tid base stop n (i + 1) t.2

/-- DecodeQBlock on a block's bit string, room bits of which lie before the frame's end (R41). -/
def decodeQBlock (f : Fmt) (s room : Nat) : List (Option Nat) :=
  let p := 16 + 32 * (qWidths f).2
  if room < p then List.replicate 32 none
  else decodeTokens f s (bitsAt s 14 2) (bitsAt s 9 5) (min (p + bitsAt s 0 9) room) 32 0 p

/-- A frame's header: its sectors, offsets word and whether it is reserved for a format (R42). -/
def frameReserved (f : Fmt) (h : Nat) : Bool :=
  bitsAt h 96 32 != 0 || bitsAt h 84 4 != 0 || bitsAt h 88 8 == 0 || bitsAt h 0 10 != 0 ||
  bitsAt h 80 4 != (if f = .e4m3q then 1 else 2)

/-- The address of frame k of a sequence from a base, walking the headers; none when an earlier frame has no length, with
that frame's address (R42, log entry 18). -/
def frameWalk (p : Party) : Nat → Word → M (Word × Bool)
  | 0, a => return (a, true)
  | k + 1, a => do
    let h ← loadVa p a .load 16
    let sectors := bitsAt h 88 8
    if sectors = 0 then return (a, false) else frameWalk p k (a + wordOf (32 * sectors))

/-- The address of frame k through the index table at an address (R43): none where no such frame exists. A data base that
is no multiple of 32 is used as it stands (log entry 18). -/
def frameIndexed (p : Party) (k : Nat) (table : Word) : M (Option Word) := do
  let head ← loadVa p table .load 32
  if bitsAt head 64 32 ≤ k ∨ bitsAt head 96 160 ≠ 0 then return none
  else
    let off ← loadVa p (table + wordOf (32 + 4 * k)) .load 4
    return some (wordOf (bitsAt head 0 64 + 32 * off))

/-- The address of frame k of a coded tensor, or of the frame or table that keeps it from being found (R42, R43). -/
def qFrame (p : Party) (indexed : Bool) (base : Word) (k : Nat) : M (Word × Bool) := do
  if indexed then
    match ← frameIndexed p k base with
    | some a => return (a, true)
    | none => return (base, false)
  else frameWalk p k base

/-- Element n of a coded tensor (R42, R43, R45): its decoded pattern, or the frame's (or table's) address when it is a
reserved element code. -/
def qElement (p : Party) (f : Fmt) (indexed : Bool) (base : Word) (n : Nat) : M (Except Word Nat) := do
  let place ← qFrame p indexed base (n / 256)
  if !place.2 then return .error place.1
  let a := place.1
  let h ← loadVa p a .load 16
  if frameReserved f h then return .error a
  let lim := 256 * bitsAt h 88 8
  let b0 := 128 + 6 * bitsAt h (10 * (n % 256 / 32)) 10
  if lim ≤ b0 then return .error a
  let bytes := min ((lim - b0 / 8 * 8) / 8) 84
  let raw ← loadVa p (a + wordOf (b0 / 8)) .load bytes
  match (decodeQBlock f (raw / 2 ^ (b0 % 8)) (lim - b0)).getD (n % 32) none with
  | some v => return .ok v
  | none => return .error a

/-! ## Conversion (R123, R140) -/

/-- One element from a source format to a destination format: the bits are copied where the formats are equal and both
scales are 0. -/
def convertElem (pal : Word) (fa fd : Fmt) (rm : Nat) (sat : Bool) (bits : Nat) : Nat × Flags :=
  if fa = fd ∧ palSa pal = 0 ∧ palSd pal = 0 then (bits, 0#6)
  else
    let v := decodeScaled pal fa.plain (palSa pal) bits
    let r := encodeVal fd (encMode pal fd rm sat) fa.isInt (v.scale (palSd pal))
    (r.1, r.2 ||| (if v.isSnan then fNV else 0#6))

/-- The scale fields of a conversion that is no VCVT: 0 beside an integer format (R49). A stream's palette is held to it
by the instruction that reads or writes a bound register, and a copy's by the copy engine (log entry 48). -/
def convScales (pal : Word) (fa fd : Fmt) : Bool :=
  (fa.isFloat || palSa pal == 0) && (fd.isFloat || palSd pal == 0) && palSb pal == 0

/-! ## Vector element accesses (R142) -/

/-- The checks of an element's address: alignment, translation, and not in the agent register range. -/
def checkElemBy (tr : M Translation) (p : Party) (a : Access) (va : Word) (size : Nat) : M Nat := do
  if va.toNat % size ≠ 0 then throw (.mem (.misaligned a va))
  let t ← tr
  if region t.pa = .agent then do noTx p; throw (.mem (.access a va))
  checkPa p a va t.pa true
  return t.pa

def checkElem (p : Party) (a : Access) (va : Word) (size : Nat) : M Nat := checkElemBy (translateM p.ctx va a) p a va size

def loadElem (p : Party) (va : Word) (size : Nat) : M Nat := do
  settleStreams p
  let pa ← checkElem p .load va size
  loadPa p va .load pa size true

def storeElem (p : Party) (va : Word) (size v : Nat) : M Unit := do
  settleStreams p
  dropAhead p
  let pa ← checkElem p .store va size
  storePa p va pa size v true

/-! ## Stream positions (R145) -/

def StreamDesc.total (d : StreamDesc) : Nat := d.count0 * d.count1 * d.count2

/-- The memory format: fa of a load stream, fd of a store stream. -/
def StreamDesc.memFmt (d : StreamDesc) : Option Fmt := fmtOf (if d.store then palFd d.pal else palFa d.pal)

/-- The register format. -/
def StreamDesc.regFmt (d : StreamDesc) : Option Fmt := fmtOf (if d.store then palFa d.pal else palFd d.pal)

/-- Bytes of a memory element; a 4-bit element is addressed by its byte. -/
def Fmt.bytes (f : Fmt) : Nat := max (f.width / 8) 1

/-- The address of field f at position n; a 4-bit element's is that of its byte. -/
def StreamDesc.addr (d : StreamDesc) (f n : Nat) : Word :=
  match d.memFmt with
  | some m =>
    let n0 := n % d.count0
    let row := d.base + wordOf (n / (d.count0 * d.count1)) * d.stride2 + wordOf (n / d.count0 % d.count1) * d.stride1
    if m.is4 then row + wordOf (n0 / 2)
    else
      let s0 : Word := if d.stride0 = 0#32 then wordOf (d.fields * m.bytes) else d.stride0.signExtend 64
      row + wordOf n0 * s0 + wordOf (f * m.bytes)
  | none => d.base

/-- The 4-bit element at position n lies in the high half of its byte (R36, R145). -/
def StreamDesc.high (d : StreamDesc) (n : Nat) : Bool := n % d.count0 % 2 == 1

def Hart.stream (h : Hart) (st : Nat) : StreamReg := h.st.toList.getD st StreamReg.empty
def Hart.setStream (h : Hart) (st : Nat) (r : StreamReg) : Hart :=
  if hst : st < 16 then { h with st := h.st.set st r } else h

def Hart.binding (h : Hart) (reg : Nat) : Option Binding := h.bindings.find? fun b => b.reg == reg

/-- A stream's translation of an address: by one that it keeps ready, or as any access, and then it keeps that one among
its newest three (R262). -/
def streamTranslate (st : Nat) (p : Party) (a : Access) (va : Word) : M Translation := do
  let h ← getH
  let c := p.ctx
  match (if (c.windowOff va).isSome then none else
      (h.stream st).ready.find? fun e => e.hits (fieldOf c.satp 44 16) va && permits c a e.read e.write e.exec e.user e.dup &&
        (a != .store || e.dirty)) with
  | some e => return { pa := e.target c.die va, skew := e.skew }
  | none => do
    let t ← translateM c va a
    let s ← get
    if (c.windowOff va).isNone then
      match (s.tlb c).find? fun e => e.hits (fieldOf c.satp 44 16) va with
      | some e => modH fun h =>
          let r := h.stream st
          h.setStream st { r with ready := (e :: r.ready.filter fun x => x != e).take 3 }
      | none => pure ()
    return t

/-- One element of a stream from memory. -/
def streamLoad (st : Nat) (p : Party) (va : Word) (size : Nat) : M Nat := do
  settleStreams p
  let pa ← checkElemBy (streamTranslate st p .load va) p .load va size
  loadPa p va .load pa size true

/-- The raw memory bits of field f at position n, as the stream loads them; a coded element is decoded (R148). -/
def streamRaw (st : Nat) (p : Party) (d : StreamDesc) (f n : Nat) : M (Nat × Flags) := do
  match d.memFmt with
  | some m =>
    if m.isQ then
      if d.base.toNat % 32 ≠ 0 then throw (.mem (.misaligned .load d.base))
      match ← qElement p m (palXi d.pal) d.base n with
      | .ok v => return (v, 0#6)
      | .error a => if palZr d.pal then return (0, fNV) else vfault 5 a
    else if m.is4 then
      let b ← streamLoad st p (d.addr f n) 1
      return (if d.high n then b / 16 else b % 16, 0#6)
    else return (← streamLoad st p (d.addr f n) m.bytes, 0#6)
  | none => vfault 7 d.base

/-- The element of field f at position n, from what the stream has loaded ahead or from memory, converted (R148); a fault
that run-ahead has recorded is taken here (R262). -/
def streamElem (st : Nat) (d : StreamDesc) (f n : Nat) : M (Nat × Flags) := do
  let r := (← getH).stream st
  let raw ← match r.ahead.find? fun a => a.field == f && a.pos == n with
    | some a =>
      match a.fault with
      | some x => throw (.mem x)
      | none => pure (a.raw, 0#6)
    | none => do streamRaw st (← ownParty) d f n
  match d.memFmt, d.regFmt with
  | some fa, some fd => do
    let rm := d.rm.toNat
    let v := convertElem d.pal fa fd rm d.sat raw.1
    return (v.1, v.2 ||| raw.2)
  | _, _ => vfault 7 d.base

/-! ## Delivery (R148) -/

/-- What a bound source register receives for elements from lo upwards: the patterns with their flags, and why it stops
before hi, if it does. -/
structure Delivery where
  reg    : Nat
  stream : Nat
  field  : Nat
  vals   : List (Nat × Flags)
  stop   : Option Exit
  deriving Repr

/-- Loads elements of a field one after another until one fails. The state it began with is kept but for requests. -/
def peekFrom (st : Nat) (d : StreamDesc) (f : Nat) : Nat → Nat → M (List (Nat × Flags) × Option Exit)
  | 0, _ => return ([], none)
  | k + 1, n =>
    if d.total ≤ n then return (List.replicate (k + 1) (0, 0#6), none)
    else fun s =>
      match streamElem st d f n s with
      | .ok v t =>
        match peekFrom st d f k (n + 1) t with
        | .ok (l, e) u => .ok (v :: l, e) u
        | .error e u => .ok ([v], some e) u
      | .error e t => .ok ([], some e) (s.keepRequests t)

/-- A register named by an instruction inside a transaction is bound to a stream: abort, ENGINE (R205). -/
def boundAborts : M Unit := do
  if (← getH).tx.isSome then throw (.abort 7 0)

/-- The scales of a stream's palette are 0 beside an integer format (R49, log entry 48). -/
def StreamDesc.scalesOk (d : StreamDesc) : Bool :=
  match fmtOf (palFa d.pal), fmtOf (palFd d.pal) with
  | some fa, some fd => convScales d.pal fa fd
  | _, _ => false

/-- A bound register may be read or written: the register format has the width in force, and the scales are as R49 has
them (R148, R149). -/
def StreamDesc.usable (d : StreamDesc) (bits : Nat) : Bool := (d.regFmt.map Fmt.width).getD 0 == bits && d.scalesOk

/-- The delivery of one register, none where it is not bound to a load stream. An instruction that has had elements of the
stream before it was stopped does not overrun it (R148, log entry 19). -/
def deliver (c : VCtx) (lo hi reg : Nat) : M (Option Delivery) := do
  let h ← getH
  match h.binding reg with
  | none => return none
  | some b => do
    boundAborts
    let r := h.stream b.stream
    match r.desc with
    | none => return none
    | some d =>
      if d.store then return none
      requireV c.e (d.usable c.bits)
      let pos := r.pos.getD b.field 0
      if lo < hi ∧ d.total ≤ pos ∧ !c.again then
        return some { reg := reg, stream := b.stream, field := b.field, vals := [],
                      stop := some (.stream 24 6 (d.addr b.field d.total) (d.addr b.field d.total)) }
      let l ← peekFrom b.stream d b.field (hi - lo) pos
      return some { reg := reg, stream := b.stream, field := b.field, vals := l.1, stop := l.2 }

/-- The sources of an instruction as they stand at dispatch, with what their streams deliver. -/
structure Sources where
  regs : List (Nat × BitVec 16384)
  dels : List Delivery
  lo   : Nat
  bits : Nat
  deriving Repr

/-- A source register's contents. -/
def Sources.get (s : Sources) (r : Nat) : BitVec 16384 := (s.regs.lookup r).getD 0#16384

/-- Writes delivered patterns into elements from i upwards. -/
def patch (bits : Nat) : List (Nat × Flags) → Nat → BitVec 16384 → BitVec 16384
  | [], _, v => v
  | x :: l, i, v => patch bits l (i + 1) (setElem v bits i x.1)

/-- Reads the sources of elements lo to hi − 1; a register named twice is delivered once (R148). -/
def sources (c : VCtx) (regs : List Nat) (lo hi : Nat) : M Sources := do
  let rs := regs.eraseDups
  let ds ← rs.filterMapM fun r => deliver c lo hi r
  let h ← getH
  return { regs := rs.map fun r =>
             match ds.find? fun d => d.reg == r with
             | some d => (r, patch c.bits d.vals lo (h.rv r))
             | none => (r, h.rv r),
           dels := ds, lo := lo, bits := c.bits }

/-- Field positions move by one, up to the stream's end. -/
def bump (r : StreamReg) (field : Nat) : StreamReg :=
  let n := r.pos.getD field 0
  let total := (r.desc.map StreamDesc.total).getD 0
  { r with pos := r.pos.set field (min (n + 1) total),
           ahead := r.ahead.filter fun a => !(a.field == field && a.pos == n) }

/-- Element i is delivered: into its register, with the stream's position past it and its flags raised; a delivery that
stops at i ends the instruction there. -/
def consume (s : Sources) (i : Nat) : M Unit :=
  forM' (fun d => do
    match d.vals[i - s.lo]? with
    | some v =>
      modH fun h =>
        let h1 := h.wv d.reg (setElem (h.rv d.reg) s.bits i v.1)
        { h1.setStream d.stream (bump (h1.stream d.stream) d.field) with vfflags := h.vfflags ||| v.2 }
    | none =>
      match d.stop with
      | some e => throw e
      | none => pure ()) s.dels

/-- For the instructions that start at vstart = 0 (R124): every element is delivered or none is. -/
def consumeAll (s : Sources) (n : Nat) : M Unit := do
  forM' (fun d => match d.stop with
    | some e => throw e
    | none => pure ()) s.dels
  forM' (fun i => consume s i) (List.range n)

/-! ## Appending (R149) -/

/-- The destination register may be written: it is not bound to a load stream, and a store stream's register format has
the width in force (R149). -/
def checkDest (c : VCtx) (reg : Nat) : M Unit := do
  let h ← getH
  match h.binding reg with
  | none => pure ()
  | some b => do
    boundAborts
    match (h.stream b.stream).desc with
    | some d => requireV c.e (d.store && d.usable c.bits)
    | none => pure ()

/-- Element with pattern x takes the next position of the field that a destination register is bound to. The flags of its
conversion go to vfflags and into no em bit, as those of a delivery do (R54, R148, log entry 49). What the hart's streams
have run ahead is loaded again (R151). -/
def append (reg : Nat) (active : Bool) (x : Nat) : M Unit := do
  let h ← getH
  match h.binding reg with
  | none => pure ()
  | some b =>
    let r := h.stream b.stream
    match r.desc with
    | none => pure ()
    | some d =>
      let n := r.pos.getD b.field 0
      if d.total ≤ n then vfault 6 (d.addr b.field d.total)
      match d.regFmt, d.memFmt with
      | some fa, some fd => do
        if active then
          let p ← ownParty
          let a := d.addr b.field n
          let pa ← checkElemBy (streamTranslate b.stream p .store a) p .store a fd.bytes
          let v := convertElem d.pal fa fd d.rm.toNat d.sat x
          raise v.2
          modH fun h =>
            let r := h.stream b.stream
            h.setStream b.stream { r with appended := r.appended ++
              [{ va := a, pa := some pa, size := fd.bytes, data := v.1,
                 half := if fd.is4 then some (d.high n) else none }] }
          dropAhead p
        modH fun h => h.setStream b.stream (bump (h.stream b.stream) b.field)
      | _, _ => vfault 7 d.base

/-! ## The common element loops -/

/-- Writes element i of a destination register, and appends it to its stream. -/
def writeElem (c : VCtx) (reg i x : Nat) : M Unit := do
  modH fun h => h.wv reg (setElem (h.rv reg) c.bits i x)
  append reg true x

/-- An element-wise instruction with a vector destination: f gives element i's pattern and flags from the sources. -/
def elementwise (c : VCtx) (srcs : List Nat) (dst : Nat) (f : Sources → Nat → Nat × Flags) : M Unit := do
  let lo := (← getH).vstart
  checkDest c dst
  let s ← sources c srcs lo c.vl
  elemLoop (fun i => do
    consume s i
    if c.active i then
      let r := f s i
      writeElem c dst i r.1
      raise r.2
      emBit c i r.2
    else
      append dst false 0
      emBit c i 0#6) (c.vl - lo) lo
  emTail c (max c.vl lo)
  completeV

/-- A comparing instruction: f gives element i's bit and flags. Bits at VLMAX and above are Zeroed (R15, R113); the em
bits are written last (R54). -/
def comparing (c : VCtx) (srcs : List Nat) (dst : Nat) (f : Sources → Nat → Bool × Flags) : M Unit := do
  let lo := (← getH).vstart
  let s ← sources c srcs lo c.vl
  elemLoop (fun i => do
    consume s i
    if c.active i then
      let r := f s i
      modH fun h => h.wp dst (setBit (h.rp dst) i r.1)
      raise r.2
      emBit c i r.2
    else emBit c i 0#6) (c.vl - lo) lo
  modH fun h => h.wp dst (h.rp dst &&& lowMask c.vlmax)
  emTail c (max c.vl lo)
  completeV

/-! ## The stream instructions (R146, R147) -/

/-- A palette is allowed in a descriptor (R145, R146). -/
def streamPalOk (store : Bool) (fields count1 count2 : Nat) (stride0 : BitVec 32) (p : Word) : Bool :=
  match fmtOf (palFa p), fmtOf (palFd p) with
  | some fa, some fd =>
    palDefined p && palFb p == 0 && palFc p == 0 && !fd.isQ &&
    (!fa.isQ || (!store && fields == 1 && count1 == 1 && count2 == 1 && stride0 == 0#32)) &&
    (!(fa.is4 || fd.is4) || (fields == 1 && stride0 == 0#32))
  | _, _ => false

/-- The descriptor that 64 bytes give, or none for a malformed one (R145, R146); vfrm is the captured one. -/
def parseDesc (b : Nat) (vfrm : BitVec 3) : Option StreamDesc :=
  let f (off n : Nat) : Nat := bitsAt b (8 * off) (8 * n)
  let ctl := f 48 2
  let fields := bitsAt ctl 1 2 + 1
  let rm0 := bitsAt ctl 3 3
  let rm := if rm0 = 7 then vfrm.toNat else rm0
  let store := bitsAt ctl 0 1 == 1
  let pal := wordOf (f 8 8)
  if f 50 14 = 0 ∧ bitsAt ctl 10 6 = 0 ∧ f 36 4 ≠ 0 ∧ f 40 4 ≠ 0 ∧ f 44 4 ≠ 0 ∧ f 36 4 * f 40 4 * f 44 4 < 2 ^ 48 ∧
      rm ≤ 4 ∧ bitsAt ctl 7 3 ≤ 5 ∧ streamPalOk store fields (f 40 4) (f 44 4) (BitVec.ofNat 32 (f 32 4)) pal then
    some { base := wordOf (f 0 8), pal := pal, stride1 := wordOf (f 16 8), stride2 := wordOf (f 24 8),
           stride0 := BitVec.ofNat 32 (f 32 4), count0 := f 36 4, count1 := f 40 4, count2 := f 44 4, store := store,
           fields := fields, rm := BitVec.ofNat 3 rm, sat := bitsAt ctl 6 1 == 1, scope := bitsAt ctl 7 3 }
  else none

/-- vstart at 0. -/
def atStart : M Unit := modH fun h => { h with vstart := 0 }

/-- Every fault of an instruction has vstart = 0, whatever it has undone (R147). -/
def faultsAtStart (m : M Unit) : M Unit := fun s =>
  match m s with
  | .error (.held w) t => .error (.held w) t
  | .error x t => .error x { t with hart := { t.hart with vstart := 0 } }
  | r => r

/-- SBIND (R147): the appended elements are performed first, whatever the descriptor brings. -/
def runSbind (st : Nat) (e : QEntry) : M Unit := faultsAtStart do
  performAppended st
  atomically do
    let p ← ownParty
    let a := e.cap.x1
    if a.toNat % 64 ≠ 0 then throw (.mem (.misaligned .load a))
    let b ← loadVa p a .load 64
    match parseDesc b e.cap.vfrm with
    | none => vfault 7 a
    | some d =>
      modH fun h =>
        { h.setStream st { desc := some d, pos := List.replicate d.fields 0, ahead := [], appended := [], ready := [] } with
          bindings := h.bindings.filter fun x => !(x.stream == st && decide (d.fields ≤ x.field)) }

/-- SSET (R147). -/
def runSset (st : Nat) (e : QEntry) : M Unit := faultsAtStart do
  let r := (← getH).stream st
  match r.desc with
  | none => vfault 7 (← freeWord)
  | some d =>
    if 2 < e.cap.x1.toNat then vfault 7 (← freeWord)
    if e.cap.x1 = 2#64 ∧ !streamPalOk d.store d.fields d.count1 d.count2 d.stride0 e.cap.x2 then vfault 7 (← freeWord)
    performAppended st
    modH fun h =>
      let r := h.stream st
      h.setStream st (
        if e.cap.x1 = 0#64 then
          { r with desc := some { d with base := e.cap.x2 }, pos := List.replicate d.fields 0, ahead := [], ready := [] }
        else if e.cap.x1 = 1#64 then
          { r with pos := List.replicate d.fields (min e.cap.x2.toNat d.total), ahead := [] }
        else { r with desc := some { d with pal := e.cap.x2 }, ahead := [] })

/-- SFENCE (R147). -/
def runSfence (st : Nat) (_e : QEntry) : M Unit := faultsAtStart do
  performAppended st
  modH fun h => h.setStream st { h.stream st with ahead := [] }

/-- VBIND (R147). -/
def runVbind (reg st : Nat) (_e : QEntry) : M Unit := faultsAtStart do
  let h ← getH
  match (h.stream st).desc with
  | none => vfault 7 (← freeWord)
  | some d =>
    if 31 < reg + d.fields - 1 then vfault 7 (← freeWord)
    let mine (b : Binding) : Bool := b.stream == st || (decide (reg ≤ b.reg) && decide (b.reg < reg + d.fields))
    let gone := h.bindings.filter mine
    modH fun h => { h with
      bindings := (h.bindings.filter fun b => !(gone.any fun g => g.stream == b.stream)) ++
        (List.range d.fields).map fun f => { reg := reg + f, stream := st, field := f } }

/-- VUNBIND (R147). -/
def runVunbind (reg : Nat) (_e : QEntry) : M Unit :=
  modH fun h =>
    match h.binding reg with
    | some b => { h with bindings := h.bindings.filter fun x => x.stream != b.stream }
    | none => h

/-! ## Events of the stream units -/

/-- The fault of a run-ahead's translation is recorded; any other is met again when the element is consumed (R150,
R262). -/
def MemFault.recorded (f : MemFault) : Bool :=
  match f with
  | .page _ _ => true
  | .access _ _ => true
  | _ => false

/-- A load stream takes the element of a field that follows those it has, ahead of its consumption: its raw bits, or the
fault of its translation. An access that would wait has no effect. The access has the place of the reset, so it is no part
of a transaction (R150). -/
def aheadElem (st : Nat) (d : StreamDesc) (f : Nat) : M Unit := fun s =>
  let r := s.hart.stream st
  let n := r.pos.getD f 0 + (r.ahead.filter fun a => a.field == f).length
  let keep (t : State) (x : AheadElem) : State :=
    { t with hart := t.hart.setStream st { t.hart.stream st with ahead := (t.hart.stream st).ahead ++ [x] } }
  if d.total ≤ n then .ok () s
  else
    let p : Party := { ctx := s.hart.ctx, self := some s.hart.id, plain := true }
    match streamRaw st p d f n s with
    | .ok raw t => if raw.2 = 0#6 then .ok () (keep t { field := f, pos := n, raw := raw.1, fault := none }) else .ok () s
    | .error (.mem x) t =>
      .ok () (if x.recorded then keep (s.keepWalks t) { field := f, pos := n, raw := 0, fault := some x } else s.keepWalks t)
    | .error _ t => .ok () (s.keepWalks t)

/-- The stream makes the translation of a page ready; one that faults leaves nothing (R262). -/
def readyPage (st : Nat) (d : StreamDesc) (va : Word) : M Unit := fun s =>
  match streamTranslate st { ctx := s.hart.ctx, self := some s.hart.id, plain := true } (if d.store then .store else .load) va s with
  | .ok _ t => .ok () t
  | .error _ t => .ok () (s.keepWalks t)

/-- STREAM_RUN_AHEAD (R150, R262): a load stream takes the next element of each of its fields, and any stream makes the
translations of its next two pages ready (log entry 50). -/
def runAhead (st : Nat) : M Unit := do
  let r := (← getH).stream st
  match r.desc with
  | some d => do
    if !d.store then forM' (aheadElem st d) (List.range d.fields)
    let at_ := d.addr 0 (r.pos.headD 0)
    if r.pos.headD 0 < d.total then
      readyPage st d (at_ + 0x2000#64)
      readyPage st d (at_ + 0x1000#64)
  | none => pure ()

end Sys2Proof.Machine
end

