-- ==== Sys2Proof/Machine/Astc.lean ====
section
/-! DEFINITION. The ASTC LDR profile decode of one texel of a 4 × 4 or 8 × 8 block as UNORM16 (15 R329). R329 names the
decode and does not define it: this is the one of the Khronos Data Format Specification (log entry 24). -/

namespace Sys2Proof.Machine

/-! ## Integer sequences -/

/-- The encodings of integer sequences in ascending order of their ranges: 0 bits alone, 1 with a trit, 2 with a quint; and
the bits of an element. -/
structure IseCode where
  kind : Nat
  bits : Nat
  deriving DecidableEq, Repr

def iseCodes : List IseCode :=
  [⟨0, 1⟩, ⟨1, 0⟩, ⟨0, 2⟩, ⟨2, 0⟩, ⟨1, 1⟩, ⟨0, 3⟩, ⟨2, 1⟩, ⟨1, 2⟩, ⟨0, 4⟩, ⟨2, 2⟩, ⟨1, 3⟩, ⟨0, 5⟩, ⟨2, 3⟩, ⟨1, 4⟩, ⟨0, 6⟩,
   ⟨2, 4⟩, ⟨1, 5⟩, ⟨0, 7⟩, ⟨2, 5⟩, ⟨1, 6⟩, ⟨0, 8⟩]

def iseCode (q : Nat) : IseCode := iseCodes.getD q ⟨0, 1⟩

/-- The length of a sequence of n elements. -/
def IseCode.length (c : IseCode) (n : Nat) : Nat :=
  c.bits * n + (match c.kind with
    | 0 => 0
    | 1 => (8 * n + 4) / 5
    | _ => (7 * n + 2) / 3)

/-- The five trits of a packed byte. -/
def tritsOf (t : Nat) : List Nat :=
  let b (n k : Nat) : Nat := bitsAt t n k
  let hi : Nat × Nat × Nat :=
    if b 2 3 = 7 then (b 0 2 + 4 * b 5 3, 2, 2)
    else if b 5 2 = 3 then (b 0 5, b 7 1, 2)
    else (b 0 5, b 5 2, b 7 1)
  let c (n k : Nat) : Nat := bitsAt hi.1 n k
  let lo : List Nat :=
    if c 0 2 = 3 then [2 * c 3 1 + c 2 1 * (1 - c 3 1), c 4 1, 2]
    else if c 2 2 = 3 then [c 0 2, 2, 2]
    else [2 * c 1 1 + c 0 1 * (1 - c 1 1), c 2 2, c 4 1]
  lo ++ [hi.2.1, hi.2.2]

/-- The three quints of seven packed bits. -/
def quintsOf (q : Nat) : List Nat :=
  let b (n k : Nat) : Nat := bitsAt q n k
  if b 1 2 = 3 ∧ b 5 2 = 0 then [4, 4, 4 * b 0 1 + (2 * b 4 1 + b 3 1) * (1 - b 0 1)]
  else
    let hi : Nat × Nat := if b 1 2 = 3 then (b 0 1 + 2 * (3 - b 5 2) + 8 * b 3 2, 4) else (b 0 5, b 5 2)
    let c (n k : Nat) : Nat := bitsAt hi.1 n k
    if c 0 3 = 5 then [c 3 2, 4, hi.2] else [c 0 3, c 3 2, hi.2]

/-- Where the packed bits of a group's elements stand: the place of each piece in the packed number and its length. -/
def IseCode.pieces (c : IseCode) : List (Nat × Nat) :=
  match c.kind with
  | 1 => [(0, 2), (2, 2), (4, 1), (5, 2), (7, 1)]
  | _ => [(0, 3), (3, 2), (5, 2)]

/-- Element i of a sequence of n elements from bit p: its trit or quint, and its bits. -/
def IseCode.elem (c : IseCode) (raw p n i : Nat) : Nat × Nat :=
  if c.kind = 0 then (0, bitsAt raw (p + i * c.bits) c.bits)
  else
    let g := c.pieces.length
    let start := p + i / g * (g * c.bits + (if c.kind = 1 then 8 else 7))
    let packed := ((List.range g).filter fun k => decide (i / g * g + k < n)).foldl (fun acc k =>
      let x := c.pieces.getD k (0, 0)
      acc + bitsAt raw (start + (k + 1) * c.bits + x.1) x.2 * 2 ^ x.1) 0
    let j := i % g
    ((if c.kind = 1 then tritsOf packed else quintsOf packed).getD j 0,
     bitsAt raw (start + j * c.bits + (c.pieces.getD j (0, 0)).1) c.bits)

/-- b bits repeated until they fill w bits. -/
def replicateBits (v b w : Nat) : Nat :=
  let r := (w + b - 1) / b
  ((List.range r).foldl (fun acc _ => acc * 2 ^ b + v) 0) / 2 ^ (r * b - w)

/-- The common step of both unquantisations: the digit times c plus b, turned over by the lowest bit. -/
def unquantise (ones keep : Nat) (low digit b c : Nat) : Nat :=
  let a := if low = 1 then ones else 0
  (a &&& keep) ||| (((digit * c + b) ^^^ a) / 4)

/-- A weight, 0 to 64. -/
def IseCode.weight (c : IseCode) (x : Nat × Nat) : Nat :=
  let h := x.2 / 2
  let w := match c.kind, c.bits with
    | 0, n => replicateBits x.2 n 6
    | 1, 0 => [0, 32, 63].getD x.1 0
    | _, 0 => [0, 16, 32, 47, 63].getD x.1 0
    | 1, 1 => unquantise 0x7F 0x20 (x.2 % 2) x.1 0 50
    | 1, 2 => unquantise 0x7F 0x20 (x.2 % 2) x.1 (69 * h) 23
    | 1, _ => unquantise 0x7F 0x20 (x.2 % 2) x.1 (33 * h) 11
    | _, 1 => unquantise 0x7F 0x20 (x.2 % 2) x.1 0 28
    | _, _ => unquantise 0x7F 0x20 (x.2 % 2) x.1 (66 * h) 13
  if 32 < w then w + 1 else w

/-- A colour value, 0 to 255. -/
def IseCode.colour (c : IseCode) (x : Nat × Nat) : Nat :=
  let h := x.2 / 2
  let go (b k : Nat) : Nat := unquantise 0x1FF 0x80 (x.2 % 2) x.1 b k
  match c.kind, c.bits with
  | 0, n => replicateBits x.2 n 8
  | 1, 1 => go 0 204
  | 1, 2 => go (278 * h) 93
  | 1, 3 => go (133 * h) 44
  | 1, 4 => go (65 * h) 22
  | 1, 5 => go (32 * h + h / 4) 11
  | 1, _ => go (16 * h + h / 16) 5
  | _, 1 => go 0 113
  | _, 2 => go (268 * h) 54
  | _, 3 => go (130 * h + h / 2) 26
  | _, 4 => go (64 * h + h / 2) 13
  | _, _ => go (32 * h + h / 8) 6

/-! ## Blocks -/

/-- The weight grid of a block mode. -/
structure AstcGrid where
  w    : Nat
  h    : Nat
  code : IseCode
  dual : Bool
  deriving DecidableEq, Repr

def AstcGrid.count (g : AstcGrid) : Nat := g.w * g.h * (if g.dual then 2 else 1)
def AstcGrid.bits (g : AstcGrid) : Nat := g.code.length g.count

/-- The width, height, range and planes of a block mode; none for a reserved one. -/
def gridOf (m : Nat) : Option AstcGrid :=
  let b (n k : Nat) : Nat := bitsAt m n k
  let a := b 5 2
  let make (r w h high : Nat) (dual : Bool) : Option AstcGrid :=
    some { w := w, h := h, code := iseCode (r - 2 + 6 * high), dual := dual }
  if b 0 2 ≠ 0 then
    let r := b 4 1 + 2 * b 0 2
    let c := b 7 2
    match b 2 2 with
    | 0 => make r (c + 4) (a + 2) (b 9 1) (b 10 1 == 1)
    | 1 => make r (c + 8) (a + 2) (b 9 1) (b 10 1 == 1)
    | 2 => make r (a + 2) (c + 8) (b 9 1) (b 10 1 == 1)
    | _ =>
      if b 8 1 = 1 then make r (c % 2 + 2) (a + 2) (b 9 1) (b 10 1 == 1)
      else make r (a + 2) (c % 2 + 6) (b 9 1) (b 10 1 == 1)
  else if b 2 2 = 0 then none
  else
    let r := b 4 1 + 2 * b 2 2
    match b 7 2 with
    | 0 => make r 12 (a + 2) (b 9 1) (b 10 1 == 1)
    | 1 => make r (a + 2) 12 (b 9 1) (b 10 1 == 1)
    | 2 => make r (a + 6) (b 9 2 + 6) 0 false
    | _ =>
      match a with
      | 0 => make r 6 10 (b 9 1) (b 10 1 == 1)
      | 1 => make r 10 6 (b 9 1) (b 10 1 == 1)
      | _ => none

/-- The grid fits a block of a side and the limits of the weight data. -/
def AstcGrid.ok (g : AstcGrid) (side : Nat) : Bool :=
  decide (g.w ≤ side) && decide (g.h ≤ side) && decide (g.count ≤ 64) && decide (24 ≤ g.bits) && decide (g.bits ≤ 96)

/-- The block's bits in reverse: the weights are read from its end. -/
def reverseBlock (raw : Nat) : Nat := (List.range 128).foldl (fun acc k => 2 * acc + bitsAt raw k 1) 0

/-- The weight of a texel in a plane, by bilinear infill. -/
def AstcGrid.weightAt (g : AstcGrid) (side rev x y plane : Nat) : Nat :=
  let d := (1024 + side / 2) / (side - 1)
  let gs := (d * x * (g.w - 1) + 32) / 64
  let gt := (d * y * (g.h - 1) + 32) / 64
  let fs := gs % 16
  let ft := gt % 16
  let w11 := (fs * ft + 8) / 16
  let at_ (i : Nat) : Nat :=
    let n := if g.dual then 2 * i + plane else i
    if n < g.count then g.code.weight (g.code.elem rev 0 g.count n) else 0
  let v := gs / 16 + gt / 16 * g.w
  (at_ v * (16 - fs - ft + w11) + at_ (v + 1) * (fs - w11) + at_ (v + g.w) * (ft - w11) + at_ (v + g.w + 1) * w11 + 8) / 16

/-- The hash of a partition seed. -/
def hash52 (seed : Nat) : BitVec 32 :=
  let p : BitVec 32 := BitVec.ofNat 32 seed
  let p := p ^^^ (p >>> 15)
  let p := p - (p <<< 17)
  let p := p + (p <<< 7)
  let p := p + (p <<< 4)
  let p := p ^^^ (p >>> 5)
  let p := p + (p <<< 16)
  let p := p ^^^ (p >>> 7)
  let p := p ^^^ (p >>> 3)
  let p := p ^^^ (p <<< 6)
  p ^^^ (p >>> 17)

/-- The partition of a texel. -/
def partitionOf (seed x y count : Nat) (small : Bool) : Nat :=
  let x := if small then 2 * x else x
  let y := if small then 2 * y else y
  let r := (hash52 (seed + (count - 1) * 1024)).toNat
  let long := if count = 3 then 6 else 5
  let short := if seed.testBit 1 then 4 else 5
  let sh1 := if seed.testBit 0 then short else long
  let sh2 := if seed.testBit 0 then long else short
  let s (k : Nat) : Nat := bitsAt r (4 * k) 4 * bitsAt r (4 * k) 4 / 2 ^ (if k % 2 = 0 then sh1 else sh2)
  let a := (s 0 * x + s 1 * y + r / 2 ^ 14) % 64
  let b := (s 2 * x + s 3 * y + r / 2 ^ 10) % 64
  let c := if count < 3 then 0 else (s 4 * x + s 5 * y + r / 2 ^ 6) % 64
  let d := if count < 4 then 0 else (s 6 * x + s 7 * y + r / 2 ^ 2) % 64
  if b ≤ a ∧ c ≤ a ∧ d ≤ a then 0 else if c ≤ b ∧ d ≤ b then 1 else if d ≤ c then 2 else 3

/-! ## Colour end points -/

def clamp8 (v : Int) : Nat := (min (max v 0) 255).toNat

/-- The top bit of the offset moves to the base, and the offset becomes signed: base and offset. -/
def bitTransfer (offset base : Nat) : Int × Int :=
  let a := (offset / 2) % 64
  ((base / 2 + offset / 128 * 128 : Nat), if a < 32 then (a : Int) else (a : Int) - 64)

/-- Red and green moved half way to blue. -/
def blueContract : List Int → List Int
  | [r, g, b, a] => [(r + b) / 2, (g + b) / 2, b, a]
  | l => l

/-- The two end points of a partition from its values; none for a mode of the HDR profile. -/
def endPoints (mode : Nat) (l : List Nat) : Option (List Nat × List Nat) :=
  let v (k : Nat) : Nat := l.getD k 0
  let i (k : Nat) : Int := v k
  let fin (a b : List Int) : Option (List Nat × List Nat) := some (a.map clamp8, b.map clamp8)
  let scaled (k : Nat) : Int := (v k * v 3 / 256 : Nat)
  let t (k : Nat) : Int × Int := bitTransfer (v (2 * k + 1)) (v (2 * k))
  let direct (a0 a1 : Int) : Option (List Nat × List Nat) :=
    if v 0 + v 2 + v 4 ≤ v 1 + v 3 + v 5 then fin [i 0, i 2, i 4, a0] [i 1, i 3, i 5, a1]
    else fin (blueContract [i 1, i 3, i 5, a1]) (blueContract [i 0, i 2, i 4, a0])
  let offset (a0 a1 : Int) : Option (List Nat × List Nat) :=
    let p := [(t 0).1, (t 1).1, (t 2).1, a0]
    let q := [(t 0).1 + (t 0).2, (t 1).1 + (t 1).2, (t 2).1 + (t 2).2, a1]
    if 0 ≤ (t 0).2 + (t 1).2 + (t 2).2 then fin p q else fin (blueContract q) (blueContract p)
  match mode with
  | 0 => fin [i 0, i 0, i 0, 255] [i 1, i 1, i 1, 255]
  | 1 =>
    let l0 : Int := (v 0 / 4 + v 1 / 64 * 64 : Nat)
    let l1 : Int := l0 + (v 1 % 64 : Nat)
    fin [l0, l0, l0, 255] [l1, l1, l1, 255]
  | 4 => fin [i 0, i 0, i 0, i 2] [i 1, i 1, i 1, i 3]
  | 5 =>
    let l1 := (t 0).1 + (t 0).2
    fin [(t 0).1, (t 0).1, (t 0).1, (t 1).1] [l1, l1, l1, (t 1).1 + (t 1).2]
  | 6 => fin [scaled 0, scaled 1, scaled 2, 255] [i 0, i 1, i 2, 255]
  | 8 => direct 255 255
  | 9 => offset 255 255
  | 10 => fin [scaled 0, scaled 1, scaled 2, i 4] [i 0, i 1, i 2, i 5]
  | 12 => direct (i 6) (i 7)
  | 13 => offset (t 3).1 ((t 3).1 + (t 3).2)
  | _ => none

/-- The end-point modes of the partitions, and the bits below the weights that they take. -/
def endPointModes (raw count weightBits : Nat) : List Nat × Nat :=
  if count = 1 then ([bitsAt raw 13 4], 0)
  else
    let extra := 3 * count - 4
    let e := bitsAt raw 23 6 + 64 * bitsAt raw (128 - weightBits - extra) extra
    if e % 4 = 0 then (List.replicate count (bitsAt e 2 4), 0)
    else ((List.range count).map fun k =>
      4 * (bitsAt e (2 + k) 1 + e % 4 - 1) + bitsAt e (2 + count + 2 * k) 2, extra)

/-- The values that an end-point mode takes. -/
def modeValues (mode : Nat) : Nat := 2 * (mode / 4) + 2

/-- The largest range, of 6 values or more, in which a number of values fits into a number of bits. -/
def colourCode (n room : Nat) : Option IseCode :=
  ((List.range 17).reverse.find? fun k => decide ((iseCode (k + 4)).length n ≤ room)).map fun k => iseCode (k + 4)

/-- A void-extent block: its colour, unless it is an HDR one or its extent is none. -/
def voidExtent (raw : Nat) : Option (List Nat) :=
  let f (k : Nat) : Nat := bitsAt raw (12 + 13 * k) 13
  if bitsAt raw 9 3 ≠ 6 then none
  else if (List.range 4).all (fun k => f k == 0x1FFF) || (decide (f 0 < f 1) && decide (f 2 < f 3)) then
    some ((List.range 4).map fun k => bitsAt raw (64 + 16 * k) 16)
  else none

/-- Texel (x, y) of a block: its four channels as UNORM16; none for an invalid or an HDR block. -/
def astcBlock (side raw x y : Nat) : Option (List Nat) :=
  if bitsAt raw 0 9 = 0x1FC then voidExtent raw
  else
    match gridOf (bitsAt raw 0 11) with
    | none => none
    | some g =>
      let count := bitsAt raw 11 2 + 1
      let modes := endPointModes raw count g.bits
      let values := (modes.1.map modeValues).sum
      let room := (if count = 1 then 111 else 99) - g.bits - modes.2 - (if g.dual then 2 else 0)
      if !g.ok side || (g.dual && count == 4) || decide (18 < values) then none
      else
        match colourCode values room with
        | none => none
        | some c =>
          let start := if count = 1 then 17 else 29
          let all := (List.range values).map fun k => c.colour (c.elem raw start values k)
          let points := (List.range count).map fun k =>
            let m := modes.1.getD k 0
            endPoints m ((all.drop ((modes.1.take k).map modeValues).sum).take (modeValues m))
          if points.any Option.isNone then none
          else
            let part := if count = 1 then 0 else partitionOf (bitsAt raw 13 10) x y count (side == 4)
            match points.getD part none with
            | none => none
            | some (p, q) =>
              let rev := reverseBlock raw
              let second := bitsAt raw (128 - g.bits - modes.2 - 2) 2
              some ((List.range 4).map fun ch =>
                let w := g.weightAt side rev x y (if g.dual && ch == second then 1 else 0)
                (257 * p.getD ch 0 * (64 - w) + 257 * q.getD ch 0 * w + 32) / 64)

/-- The channels of a texel: (1, 0, 1, 1) for an invalid or an HDR block (R329). -/
def astcTexel (side raw x y : Nat) : List Nat := (astcBlock side raw x y).getD [0xFFFF, 0, 0xFFFF, 0xFFFF]

end Sys2Proof.Machine
end

