-- ==== Sys2Proof/Machine/VectorInt.lean ====
section
/-! DEFINITION. W group 0: integer arithmetic, logic, shifts, comparison and index generation (05 R111 to R115), each as
the run of a dispatched queue entry. -/

namespace Sys2Proof.Machine

/-- The signedness of an integer register format of a width (R109). -/
def intFmt (code bits : Nat) : Option Bool :=
  match fmtOf code with
  | some (.int s w) => if w = bits then some s else none
  | _ => none

/-- A palette field names a register format of a width (R109). -/
def anyFmt (code bits : Nat) : Bool := ((regFmt code).map Fmt.width).getD 0 == bits

/-- The width in force at an entry's capture. -/
def QEntry.bits (e : QEntry) : Nat := widthBits e.cap.width.toNat

/-- The vector registers that supply the sources: vs1, and vs2 for a vector second operand. -/
def sourceRegs (w : WWord) : List Nat := w.vs1.toNat :: (if w.kind = 0 then [w.vs2.toNat] else [])

/-- The decoded operands of one element, with b's pattern, the width, and the encoder of the result. -/
structure IntArgs where
  a    : Int
  b    : Int
  c    : Int
  bPat : Nat
  bits : Nat
  enc  : Int → Nat × Flags

/-- A three-operand integer instruction (R111): fc and vs3 take part when useC is set. -/
def intOp (w : WWord) (e : QEntry) (useC : Bool) (f : IntArgs → Nat × Flags) : M Unit := do
  let p := e.cap.pal
  let bits := e.bits
  match intFmt (palFa p) bits, intFmt (palFb p) bits, intFmt (palFd p) bits,
      (if useC then intFmt (palFc p) bits else some false) with
  | some sa, some sb, some sd, some sc => do
    requireV e (palPlain p && scalesZero p false false false)
    let c ← dispatchV w e true
    elementwise c ((sourceRegs w) ++ (if useC then [w.vs3.toNat] else [])) w.vd.toNat fun s i =>
      let b := c.operand (.int sb bits) (s.get w.vs2.toNat) i
      f { a := decodeInt sa bits (elem (s.get w.vs1.toNat) bits i), b := decodeInt sb bits b,
          c := if useC then decodeInt sc bits (elem (s.get w.vs3.toNat) bits i) else 0, bPat := b, bits := bits,
          enc := encodeInt sd bits c.sat }
  | _, _, _, _ => illegalV e

/-- The shift amount: the low log2(w) bits of b's pattern (R111). -/
def IntArgs.amount (x : IntArgs) : Nat := x.bPat % x.bits

def runVadd (w : WWord) (e : QEntry) : M Unit := intOp w e false fun x => x.enc (x.a + x.b)
def runVsub (w : WWord) (e : QEntry) : M Unit := intOp w e false fun x => x.enc (x.a - x.b)
def runVrsub (w : WWord) (e : QEntry) : M Unit := intOp w e false fun x => x.enc (x.b - x.a)
def runVmul (w : WWord) (e : QEntry) : M Unit := intOp w e false fun x => x.enc (x.a * x.b)
def runVmulh (w : WWord) (e : QEntry) : M Unit := intOp w e false fun x => x.enc (x.a * x.b / (2 ^ x.bits : Nat))
def runVmadd (w : WWord) (e : QEntry) : M Unit := intOp w e true fun x => x.enc (x.a * x.b + x.c)

/-- R112: b = 0 gives all ones, with DZ unless a = 0. -/
def runVdiv (w : WWord) (e : QEntry) : M Unit := intOp w e false fun x =>
  if x.b = 0 then (2 ^ x.bits - 1, if x.a = 0 then 0#6 else fDZ) else x.enc (x.a.tdiv x.b)

/-- R112: b = 0 gives a, with DZ unless a = 0. -/
def runVrem (w : WWord) (e : QEntry) : M Unit := intOp w e false fun x =>
  if x.b = 0 then ((x.enc x.a).1, (x.enc x.a).2 ||| (if x.a = 0 then 0#6 else fDZ)) else x.enc (x.a.tmod x.b)

def runVmin (w : WWord) (e : QEntry) : M Unit := intOp w e false fun x => x.enc (if x.a ≤ x.b then x.a else x.b)
def runVmax (w : WWord) (e : QEntry) : M Unit := intOp w e false fun x => x.enc (if x.a ≤ x.b then x.b else x.a)
def runVshl (w : WWord) (e : QEntry) : M Unit := intOp w e false fun x => x.enc (x.a * (2 ^ x.amount : Nat))
def runVshr (w : WWord) (e : QEntry) : M Unit := intOp w e false fun x => x.enc (x.a / (2 ^ x.amount : Nat))
def runVabsd (w : WWord) (e : QEntry) : M Unit := intOp w e false fun x => x.enc ((x.a - x.b).natAbs : Int)

/-- A logic instruction acts on bit patterns of any register formats (R111). -/
def logicOp (w : WWord) (e : QEntry) (f : Nat → Nat → Nat) : M Unit := do
  let p := e.cap.pal
  let bits := e.bits
  requireV e (palPlain p && scalesZero p false false false && anyFmt (palFa p) bits && anyFmt (palFb p) bits &&
    anyFmt (palFd p) bits)
  let c ← dispatchV w e true
  elementwise c (sourceRegs w) w.vd.toNat fun s i =>
    (f (elem (s.get w.vs1.toNat) bits i)
      (c.operand ((regFmt (palFb p)).getD .f64) (s.get w.vs2.toNat) i), 0#6)

def runVand (w : WWord) (e : QEntry) : M Unit := logicOp w e fun a b => a &&& b
def runVor (w : WWord) (e : QEntry) : M Unit := logicOp w e fun a b => a ||| b
def runVxor (w : WWord) (e : QEntry) : M Unit := logicOp w e fun a b => a ^^^ b

/-- A comparison by its code 0 to 5: eq, ne, lt, le, gt, ge (R113). -/
def compareBy (cc : Nat) (a b : Int) : Bool :=
  match cc with
  | 0 => a == b
  | 1 => a != b
  | 2 => decide (a < b)
  | 3 => decide (a ≤ b)
  | 4 => decide (b < a)
  | _ => decide (b ≤ a)

def runVcmp (w : WWord) (e : QEntry) : M Unit := do
  let p := e.cap.pal
  let bits := e.bits
  match intFmt (palFa p) bits, intFmt (palFb p) bits with
  | some sa, some sb => do
    requireV e (palPlain p && scalesZero p false false false)
    let c ← dispatchV w e true
    comparing c (sourceRegs w) w.vd.toNat fun s i =>
      (compareBy w.vs3.toNat (decodeInt sa bits (elem (s.get w.vs1.toNat) bits i))
        (decodeInt sb bits (c.operand (.int sb bits) (s.get w.vs2.toNat) i)), 0#6)
  | _, _ => illegalV e

/-- R114: base + i × b, base being the x register that vs1 names. -/
def runVidx (w : WWord) (e : QEntry) : M Unit := do
  let p := e.cap.pal
  let bits := e.bits
  match intFmt (palFa p) bits, intFmt (palFb p) bits, intFmt (palFd p) bits with
  | some sa, some sb, some sd => do
    requireV e (palPlain p && scalesZero p false false false)
    let c ← dispatchV w e true
    elementwise c (if w.kind = 0 then [w.vs2.toNat] else []) w.vd.toNat fun s i =>
      encodeInt sd bits c.sat (decodeInt sa bits e.cap.x1.toNat +
        (i : Int) * decodeInt sb bits (c.operand (.int sb bits) (s.get w.vs2.toNat) i))
  | _, _, _ => illegalV e

/-- A group of 2^k registers is aligned and within the register file (R108). A stream bound to a register of it delivers
or takes elements of the width in force, as for any register (R148, R149, log entry 19). -/
def groupOk (base k : Nat) : Bool := base % 2 ^ k == 0 && decide (base + 2 ^ k ≤ 32)

/-- The registers of a group. -/
def groupRegs (base k : Nat) : List Nat := (List.range (2 ^ k)).map fun j => base + j

/-- Element i of a group of elements of 2^k times the width. -/
def groupElem (c : VCtx) (s : Sources) (base k i : Nat) : Nat :=
  let at_ := groupAt c base k i
  elem (s.get at_.1) (c.bits * 2 ^ k) at_.2

/-- R115: the double-width quotient rounded by rm. -/
def runVnshr (w : WWord) (e : QEntry) : M Unit := do
  let p := e.cap.pal
  let bits := e.bits
  match intFmt (palFa p) (2 * bits), intFmt (palFb p) bits, intFmt (palFd p) bits with
  | some sa, some sb, some sd => do
    requireV e (palPlain p && scalesZero p false false false && groupOk w.vs1.toNat 1)
    let c ← dispatchV w e true
    elementwise c (groupRegs w.vs1.toNat 1 ++ (if w.kind = 0 then [w.vs2.toNat] else [])) w.vd.toNat fun s i =>
      let a := decodeInt sa (2 * bits) (groupElem c s w.vs1.toNat 1 i)
      let n := c.operand (.int sb bits) (s.get w.vs2.toNat) i % (2 * bits)
      let r := roundInt c.rm (decide (a < 0)) a.natAbs (-(n : Int)) false
      let t := encodeInt sd bits c.sat r.1
      (t.1, t.2 ||| (if r.2 then fNX else 0#6))
  | _, _, _ => illegalV e

end Sys2Proof.Machine
end

