-- ==== Sys2Proof/Machine/VectorFp.lean ====
section
/-! DEFINITION. W group 1: floating-point arithmetic, estimates, comparison, classification, sign injection and
conversion (05 R116 to R123), each as the run of a dispatched queue entry. -/

namespace Sys2Proof.Machine

/-- A floating-point register format of a width (R116). -/
def floatFmt (code bits : Nat) : Option Fmt :=
  match regFmt code with
  | some f => if f.isFloat && f.width == bits then some f else none
  | none => none

/-- An exact result scaled by 2^sd and encoded, with the operation's own flags (R49, R116). -/
def finishFp (c : VCtx) (fd : Fmt) (prec : Nat) (r : Val × Flags) : Nat × Flags :=
  let x := encodeFloat fd prec (encMode c.pal fd c.rm c.sat) (r.1.scale (palSd c.pal))
  (x.1, x.2 ||| r.2)

/-- Element i of a floating-point source, scaled. -/
def fpSource (c : VCtx) (f : Fmt) (scale : Int) (v : BitVec 16384) (i : Nat) : Val :=
  decodeScaled c.pal f scale (elem v c.bits i)

/-- Element i of the second operand, scaled. -/
def fpOperand (c : VCtx) (f : Fmt) (v : BitVec 16384) (i : Nat) : Val :=
  decodeScaled c.pal f (palSb c.pal) (c.operand f v i)

/-- A two-operand floating-point instruction (R116). -/
def fpBinary (w : WWord) (e : QEntry) (op : Nat → Val → Val → Val × Flags) : M Unit := do
  let p := e.cap.pal
  match floatFmt (palFa p) e.bits, floatFmt (palFb p) e.bits, floatFmt (palFd p) e.bits with
  | some fa, some fb, some fd => do
    requireV e (palPlain p)
    let c ← dispatchV w e true
    elementwise c (sourceRegs w) w.vd.toNat fun s i =>
      finishFp c fd fd.prec
        (op c.rm (fpSource c fa (palSa p) (s.get w.vs1.toNat) i) (fpOperand c fb (s.get w.vs2.toNat) i))
  | _, _, _ => illegalV e

/-- A one-operand floating-point instruction; limit caps the significand precision of an estimate (R116, R119). -/
def fpUnary (w : WWord) (e : QEntry) (limit : Nat) (op : Val → Val × Flags) : M Unit := do
  let p := e.cap.pal
  match floatFmt (palFa p) e.bits, floatFmt (palFd p) e.bits with
  | some fa, some fd => do
    requireV e (palPlain p && scalesZero p true false true)
    let c ← dispatchV w e false
    elementwise c [w.vs1.toNat] w.vd.toNat fun s i =>
      finishFp c fd (min fd.prec limit) (op (fpSource c fa (palSa p) (s.get w.vs1.toNat) i))
  | _, _ => illegalV e

def runVfadd (w : WWord) (e : QEntry) : M Unit := fpBinary w e fun rm a b => addVal rm [a, b] a b
def runVfsub (w : WWord) (e : QEntry) : M Unit := fpBinary w e fun rm a b => addVal rm [a, b] a b.negate
def runVfmul (w : WWord) (e : QEntry) : M Unit := fpBinary w e fun _ a b => mulVal [a, b] a b
def runVfdiv (w : WWord) (e : QEntry) : M Unit := fpBinary w e fun _ a b => divVal a b
def runVfsqrt (w : WWord) (e : QEntry) : M Unit := fpUnary w e 64 sqrtVal
def runVfmin (w : WWord) (e : QEntry) : M Unit := fpBinary w e fun _ a b => minMaxVal false a b
def runVfmax (w : WWord) (e : QEntry) : M Unit := fpBinary w e fun _ a b => minMaxVal true a b
def runVfrcp (w : WWord) (e : QEntry) : M Unit := fpUnary w e 12 rcpVal
def runVfrsq (w : WWord) (e : QEntry) : M Unit := fpUnary w e 12 rsqVal
def runVfexp2 (w : WWord) (e : QEntry) : M Unit := fpUnary w e 12 exp2Val
def runVflog2 (w : WWord) (e : QEntry) : M Unit := fpUnary w e 12 log2Val

/-- R117: aux9[2] negates the product and aux9[3] the addend. -/
def runVfma (w : WWord) (e : QEntry) : M Unit := do
  let p := e.cap.pal
  match floatFmt (palFa p) e.bits, floatFmt (palFb p) e.bits, floatFmt (palFc p) e.bits,
      floatFmt (palFd p) e.bits with
  | some fa, some fb, some fc, some fd => do
    requireV e (palPlain p)
    let c ← dispatchV w e true
    elementwise c ((sourceRegs w) ++ [w.vs3.toNat]) w.vd.toNat fun s i =>
      finishFp c fd fd.prec
        (fmaVal c.rm (w.aux9.getLsbD 2) (w.aux9.getLsbD 3) (fpSource c fa (palSa p) (s.get w.vs1.toNat) i)
          (fpOperand c fb (s.get w.vs2.toNat) i) (fpSource c fc 0 (s.get w.vs3.toNat) i))
  | _, _, _, _ => illegalV e

/-- R120: the bit and NV for a comparison by its code. -/
def fpCompareBy (cc : Nat) (a b : Val) : Bool × Flags :=
  let sn := snanFlag [a, b]
  if a.isNan || b.isNan then
    match cc with
    | 0 => (false, sn)
    | 1 => (true, sn)
    | 6 => (true, sn)
    | 7 => (false, sn)
    | _ => (false, fNV)
  else
    let k := cmpVal a b
    match cc with
    | 6 => (false, 0#6)
    | 7 => (true, 0#6)
    | n => (compareBy n k 0, 0#6)

def runVfcmp (w : WWord) (e : QEntry) : M Unit := do
  let p := e.cap.pal
  match floatFmt (palFa p) e.bits, floatFmt (palFb p) e.bits with
  | some fa, some fb => do
    requireV e (palPlain p && scalesZero p true true false)
    let c ← dispatchV w e true
    comparing c (sourceRegs w) w.vd.toNat fun s i =>
      fpCompareBy w.vs3.toNat (fpSource c fa (palSa p) (s.get w.vs1.toNat) i) (fpOperand c fb (s.get w.vs2.toNat) i)
  | _, _ => illegalV e

/-- The class number of a raw pattern (R121). -/
def classOf (f : Fmt) (bits : Nat) : Nat :=
  match decodeFloat f bits with
  | .nan _ sn => if sn then 8 else 9
  | .inf s => if s then 0 else 7
  | .num s m _ _ =>
    if m = 0 then (if s then 3 else 4)
    else if m < 2 ^ f.mbits then (if s then 2 else 5)
    else (if s then 1 else 6)

def runVfclass (w : WWord) (e : QEntry) : M Unit := do
  let p := e.cap.pal
  match floatFmt (palFa p) e.bits, intFmt (palFd p) e.bits with
  | some fa, some _ => do
    requireV e (palPlain p && scalesZero p false false false)
    let c ← dispatchV w e false
    elementwise c [w.vs1.toNat] w.vd.toNat fun s i => (classOf fa (elem (s.get w.vs1.toNat) c.bits i), 0#6)
  | _, _ => illegalV e

/-- R122: the sign bit is that of b, its inverse, or the exclusive or of both. -/
def runVfsgn (w : WWord) (e : QEntry) : M Unit := do
  let p := e.cap.pal
  match floatFmt (palFa p) e.bits with
  | some fa => do
    requireV e (palPlain p && scalesZero p false false false && palFb p == palFa p && palFd p == palFa p)
    let c ← dispatchV w e true
    elementwise c (sourceRegs w) w.vd.toNat fun s i =>
      let top := 2 ^ (c.bits - 1)
      let a := elem (s.get w.vs1.toNat) c.bits i
      let b := c.operand fa (s.get w.vs2.toNat) i
      let sb := b / top % 2
      let sign := match (w.aux9.extractLsb' 2 2).toNat with
        | 0 => sb
        | 1 => 1 - sb
        | _ => (a / top + sb) % 2
      (a % top + sign * top, 0#6)
  | none => illegalV e

/-- The group exponent of a wide operand: 2^k times the width in force. -/
def wideBy (bits width : Nat) : Option Nat :=
  if width = bits then some 0
  else if width = 2 * bits then some 1
  else if width = 4 * bits then some 2
  else if width = 8 * bits then some 3
  else none

/-- R123: the element is always decoded and encoded; one side may be a group of wider elements. -/
def convertVal (c : VCtx) (fa fd : Fmt) (bits : Nat) : Nat × Flags :=
  let v := decodeScaled c.pal fa (palSa c.pal) bits
  let r := encodeVal fd (encMode c.pal fd c.rm c.sat) fa.isInt (v.scale (palSd c.pal))
  (r.1, r.2 ||| (if v.isSnan then fNV else 0#6))

def runVcvt (w : WWord) (e : QEntry) : M Unit := do
  let p := e.cap.pal
  match regFmt (palFa p), regFmt (palFd p) with
  | some fa, some fd =>
    match wideBy e.bits fa.width, wideBy e.bits fd.width with
    | some ka, some kd => do
      requireV e (palPlain p && scalesZero p true false true && (ka == 0 || kd == 0) &&
        groupOk w.vs1.toNat ka && groupOk w.vd.toNat kd)
      let c ← dispatchV w e false
      if kd = 0 then
        elementwise c (groupRegs w.vs1.toNat ka) w.vd.toNat fun s i =>
          convertVal c fa fd (groupElem c s w.vs1.toNat ka i)
      else do
        let lo := (← getH).vstart
        forM' (checkDest c) (groupRegs w.vd.toNat kd)
        let s ← sources c [w.vs1.toNat] lo c.vl
        elemLoop (fun i => do
          consume s i
          let at_ := groupAt c w.vd.toNat kd i
          if c.active i then
            let r := convertVal c fa fd (elem (s.get w.vs1.toNat) c.bits i)
            modH fun h => h.wv at_.1 (setElem (h.rv at_.1) (c.bits * 2 ^ kd) at_.2 r.1)
            append at_.1 true (r.1 % 2 ^ c.bits)
            raise r.2
            emBit c i r.2
          else
            append at_.1 false 0
            emBit c i 0#6) (c.vl - lo) lo
        emTail c (max c.vl lo)
        completeV
    | _, _ => illegalV e
  | _, _ => illegalV e

end Sys2Proof.Machine
end

