-- ==== Sys2Proof/Machine/VectorMove.lean ====
section
/-! DEFINITION. W group 2: element moves, predicates, the mask stack, reductions and quads (06 R124 to R139), each as the
run of a dispatched queue entry. -/

namespace Sys2Proof.Machine

/-- The instruction combines elements, and is Illegal at dispatch with vstart ≠ 0 (R124). -/
def wholeVector (e : QEntry) : M Unit := do
  let h ← getH
  requireV e ((e.start.getD h.vstart) == 0)

/-- The second operand as a natural number (R126). -/
def VCtx.amount (c : VCtx) : Nat := c.scalar.toNat

/-! ## Rearranging elements (R126) -/

def runVslup (w : WWord) (e : QEntry) : M Unit := do
  let c ← dispatchV w e true
  let n := c.amount
  elementwise c [w.vs1.toNat, w.vd.toNat] w.vd.toNat fun s i =>
    (if n ≤ i then elem (s.get w.vs1.toNat) c.bits (i - n) else elem (s.get w.vd.toNat) c.bits i, 0#6)

def runVsldn (w : WWord) (e : QEntry) : M Unit := do
  let c ← dispatchV w e true
  let n := c.amount
  elementwise c [w.vs1.toNat] w.vd.toNat fun s i =>
    (if i + n < c.vlmax then elem (s.get w.vs1.toNat) c.bits (i + n) else 0, 0#6)

def runVgathr (w : WWord) (e : QEntry) : M Unit := do
  let c ← dispatchV w e true
  elementwise c (sourceRegs w) w.vd.toNat fun s i =>
    let j := if w.kind = 0 then elem (s.get w.vs2.toNat) c.bits i else c.amount
    (if j < c.vlmax then elem (s.get w.vs1.toNat) c.bits j else 0, 0#6)

def runVsel (w : WWord) (e : QEntry) : M Unit := do
  let c ← dispatchV w e true
  let sel := (← getH).rp w.vs3.toNat
  elementwise c (sourceRegs w) w.vd.toNat fun s i =>
    (if sel.getLsbD i then elem (s.get w.vs1.toNat) c.bits i
     else c.operand (.int true c.bits) (s.get w.vs2.toNat) i, 0#6)

def runVbcast (w : WWord) (e : QEntry) : M Unit := do
  let c ← dispatchV w e true
  elementwise c [] w.vd.toNat fun s i => (c.operand (.int true c.bits) (s.get 0) i, 0#6)

/-- The active elements below n, in order. -/
def VCtx.actives (c : VCtx) (n : Nat) : List Nat := (List.range n).filter c.active

/-- A whole-vector instruction's effect, all or nothing, with vstart = 0. -/
def whole (m : M Unit) : M Unit := do
  atomically m
  completeV

/-- Writes given elements of a destination and appends one position for each element below vl: those written are stored,
the others are left (R149, log entry 19). -/
def writeSome (c : VCtx) (dst : Nat) (vals : List (Nat × Nat)) : M Unit := do
  forM' (fun x => modH fun h => h.wv dst (setElem (h.rv dst) c.bits x.1 x.2)) vals
  forM' (fun i =>
    match vals.lookup i with
    | some x => append dst true x
    | none => append dst false 0) (List.range c.vl)

/-- Each value with its place in the list. -/
def numbered {α : Type} : Nat → List α → List (Nat × α)
  | _, [] => []
  | n, a :: l => (n, a) :: numbered (n + 1) l

def runVcompr (w : WWord) (e : QEntry) : M Unit := do
  wholeVector e
  let c ← dispatchV w e false
  checkDest c w.vd.toNat
  let s ← sources c [w.vs1.toNat] 0 c.vl
  whole do
    consumeAll s c.vl
    writeSome c w.vd.toNat (numbered 0 ((c.actives c.vl).map fun i => elem (s.get w.vs1.toNat) c.bits i))

def runVexpnd (w : WWord) (e : QEntry) : M Unit := do
  wholeVector e
  let c ← dispatchV w e false
  checkDest c w.vd.toNat
  let s ← sources c [w.vs1.toNat] 0 c.vl
  whole do
    consumeAll s c.vl
    writeSome c w.vd.toNat ((numbered 0 (c.actives c.vl)).map fun x => (x.2, elem (s.get w.vs1.toNat) c.bits x.1))

/-! ## To the scalar stream (R127) -/

/-- Element j of a register extended to 64 bits; 0 at VLMAX and above. -/
def extendElem (v : BitVec 16384) (bits vlmax j : Nat) (unsigned : Bool) : Word :=
  if vlmax ≤ j then 0#64
  else
    let x := elem v bits j
    if unsigned then wordOf x else BitVec.ofInt 64 (decodeInt true bits x)

/-- What VMVX and VMVQ read: they ignore vstart, so a bound load stream delivers elements 0 to vl − 1, all of them or
none (R127, R148, log entry 19). -/
def wholeSource (c : VCtx) (reg : Nat) : M Sources := do
  modH fun h => { h with vstart := 0 }
  sources c [reg] 0 c.vl

def runVmvq (w : WWord) (e : QEntry) : M Unit := do
  let c ← dispatchV w e false
  let s ← wholeSource c w.vs1.toNat
  let h ← getH
  let k := w.vd.toNat
  if hk : k < 8 then
    if 8 ≤ h.q[k].length then hold .queueFull
    consumeAll s c.vl
    let v := extendElem (s.get w.vs1.toNat) c.bits c.vlmax c.amount (w.vs3 == 1#5)
    modH fun h => { h with q := h.q.set k (h.q[k] ++ [v]) }
    completeV
  else illegalV e

/-! ## Predicates (R128 to R132) -/

def runVplog (w : WWord) (e : QEntry) : M Unit := do
  let c ← dispatchV w e false
  let h ← getH
  let a := h.rp w.vs1.toNat
  let b := h.rp w.vs2.toNat
  comparing c [] w.vd.toNat fun _ i =>
    (w.vs3.getLsbD ((if a.getLsbD i then 2 else 0) + (if b.getLsbD i then 1 else 0)), 0#6)

/-- The elements below vl that are active and set in a predicate. -/
def VCtx.setIn (c : VCtx) (p : BitVec 2048) : List Nat := (c.actives c.vl).filter fun i => p.getLsbD i

def runVpcnt (w : WWord) (e : QEntry) : M Unit := do
  wholeVector e
  let c ← dispatchV w e false
  let h ← getH
  let n := (c.setIn (h.rp w.vs1.toNat)).length
  let k := w.vd.toNat
  if k = 0 then
    if 8 ≤ h.lq.length then hold .lqFull
    modH fun h => { h with lq := h.lq ++ [BitVec.ofNat 32 n] }
    completeV
  else if hk : k < 8 then
    if 8 ≤ h.q[k].length then hold .queueFull
    modH fun h => { h with q := h.q.set k (h.q[k] ++ [wordOf n]) }
    completeV
  else illegalV e

def runVpfirst (w : WWord) (e : QEntry) : M Unit := do
  wholeVector e
  let c ← dispatchV w e false
  let h ← getH
  let f := ((c.setIn (h.rp w.vs1.toNat)).head?).getD c.vl
  let bit (i : Nat) : Bool := match w.vs3.toNat with
    | 0 => decide (i < f)
    | 1 => decide (i ≤ f)
    | _ => i == f
  let d := w.vd.toNat
  modH fun h => h.wp d (((List.range c.vl).foldl (fun x i => setBit x i (c.active i && bit i)) (h.rp d)) &&&
    lowMask c.vlmax)
  completeV

def runVpscan (w : WWord) (e : QEntry) : M Unit := do
  wholeVector e
  let c ← dispatchV w e false
  let set := c.setIn ((← getH).rp w.vs1.toNat)
  let incl := w.vs3 == 1#5
  checkDest c w.vd.toNat
  whole (writeSome c w.vd.toNat ((c.actives c.vl).map fun i =>
    (i, (set.filter fun j => decide (j < i) || (incl && j == i)).length % 2 ^ c.bits)))

def runVpset (w : WWord) (e : QEntry) : M Unit := do
  let c ← dispatchV w e true
  modH fun h => h.wp w.vd.toNat (lowMask (min c.amount c.vlmax))
  completeV

/-! ## The mask stack (R136 to R139) -/

/-- Bytes of a mask, lowest first. -/
def maskBytes (m : BitVec 2048) : List Byte := lowBytes 256 m.toNat

/-- The spill address of the entry at a depth (R138). -/
def spillAddr (base : Word) (d : Nat) : Word := base + wordOf (512 * (d - 1))

def spillMask (d : Nat) (m : MaskEntry) : M Unit := do
  let p ← spillParty
  let h ← getH
  storeBytes p (spillAddr h.vmspill d) (maskBytes m.saved ++ maskBytes m.branch)

def refillMask (d : Nat) : M MaskEntry := do
  let p ← spillParty
  let h ← getH
  let s ← loadVa p (spillAddr h.vmspill d) .load 256
  let t ← loadVa p (spillAddr h.vmspill d + 256#64) .load 256
  return { saved := BitVec.ofNat 2048 s, branch := BitVec.ofNat 2048 t }

def maskLimit {α : Type} : M α := do
  atStart
  throw (.stream 27 0 0#64 0#64)

def runVmpush (w : WWord) (e : QEntry) : M Unit := do
  let _ ← dispatchV w e false
  atStart
  atomically do
    let h ← getH
    if h.vmsp = 256 then maskLimit
    if 16 ≤ h.vmsp then
      match h.masks.getLast? with
      | some m => spillMask (h.vmsp - 15) m
      | none => pure ()
    let cur := h.currentMask
    modH fun h => { h with
      masks := { saved := cur, branch := cur &&& (h.rp w.vs1.toNat &&& lowMask (256 * 2 ^ h.level)) } ::
        h.masks.take 15,
      vmsp := h.vmsp + 1 }
  completeV

def runVmelse (w : WWord) (e : QEntry) : M Unit := do
  let _ ← dispatchV w e false
  atStart
  modH fun h =>
    match h.masks with
    | m :: l => { h with masks := { m with branch := m.saved &&& ~~~m.branch } :: l }
    | [] => h
  if (← getH).vmsp = 0 then maskLimit
  completeV

def runVmpop (w : WWord) (e : QEntry) : M Unit := do
  let _ ← dispatchV w e false
  atStart
  atomically do
    let h ← getH
    if h.vmsp = 0 then maskLimit
    modH fun h => { h with masks := h.masks.drop 1, vmsp := h.vmsp - 1 }
    if 16 ≤ h.vmsp - 1 then
      let m ← refillMask (h.vmsp - 1 - 15)
      modH fun h => { h with masks := h.masks ++ [m] }
  completeV

/-- A new depth for the mask stack: the held entries to their spill slots for the depth they have, the depth, then the
newest entries back (R139, R378). -/
def setMaskDepth (held : List MaskEntry) (old new : Nat) : M (List MaskEntry) := do
  forM' (fun x => spillMask (old - x.1) x.2) (numbered 0 held)
  let l ← (List.range (min new 16)).mapM fun k => refillMask (new - k)
  return l

/-! ## Reductions (R133, R134) -/

/-- Element 0 of the destination, the flags and em bit of a reduction (R133). -/
def finishReduction (c : VCtx) (dst : Nat) (r : Nat × Flags) : M Unit := do
  writeSome c dst [(0, r.1)]
  raise r.2
  if c.w.em = 1#1 then
    modH fun h => h.wp c.w.pe.toNat (setBit 0#2048 0 (r.2 &&& c.e.cap.vxmask != 0#6))

/-- Exact integer reduction by code 0 to 2, patterns by code 3 to 5. -/
def reduceInt (cc : Nat) (init : Int) (l : List Int) : Int :=
  match cc with
  | 0 => l.foldl (· + ·) init
  | 1 => l.foldl (fun a b => if b < a then b else a) init
  | _ => l.foldl (fun a b => if a < b then b else a) init

def reducePat (cc : Nat) (init : Nat) (l : List Nat) : Nat :=
  match cc with
  | 3 => l.foldl (fun a b => a &&& b) init
  | 4 => l.foldl (fun a b => a ||| b) init
  | _ => l.foldl (fun a b => a ^^^ b) init

def runVredi (w : WWord) (e : QEntry) : M Unit := do
  let p := e.cap.pal
  let bits := e.bits
  match intFmt (palFa p) bits, intFmt (palFb p) bits, intFmt (palFd p) bits with
  | some sa, some sb, some sd => do
    requireV e (palPlain p && scalesZero p false false false)
    wholeVector e
    let c ← dispatchV w e true
    checkDest c w.vd.toNat
    let s ← sources c (sourceRegs w) 0 c.vl
    whole do
      consumeAll s c.vl
      let pats := (c.actives c.vl).map fun i => elem (s.get w.vs1.toNat) bits i
      let init := c.operand (.int sb bits) (s.get w.vs2.toNat) 0
      finishReduction c w.vd.toNat
        (if w.vs3.toNat < 3 then
          encodeInt sd bits c.sat (reduceInt w.vs3.toNat (decodeInt sb bits init) (pats.map (decodeInt sa bits)))
        else (reducePat w.vs3.toNat init pats, 0#6))
  | _, _, _ => illegalV e

/-- A value on its way through a reduction: as it is, the pattern of the rounded sum that it comes from, if it is one, and
the flags raised so far. -/
structure Partial where
  val   : Val
  bits  : Option Nat
  flags : Flags

/-- One rounded sum in fd, decoded again (R56, R57). -/
def roundedAdd (c : VCtx) (fd : Fmt) (u v : Partial) : Partial :=
  let r := addVal c.rm [u.val, v.val] u.val v.val
  let x := encodeFloat fd fd.prec (encMode c.pal fd c.rm c.sat) r.1
  { val := decodeFloat fd x.1, bits := some x.1, flags := u.flags ||| v.flags ||| r.2 ||| x.2 }

/-- Combine (R57): an absent side is the identity. -/
def combine (c : VCtx) (fd : Fmt) : Option Partial → Option Partial → Option Partial
  | some u, some v => some (roundedAdd c fd u v)
  | some u, none => some u
  | none, v => v

/-- One level of the tree: neighbours combined. -/
def pairUp (c : VCtx) (fd : Fmt) : List (Option Partial) → List (Option Partial)
  | a :: b :: l => combine c fd a b :: pairUp c fd l
  | l => l

/-- n levels of the tree. -/
def treeLevels (c : VCtx) (fd : Fmt) : Nat → List (Option Partial) → List (Option Partial)
  | 0, l => l
  | n + 1, l => treeLevels c fd n (pairUp c fd l)

/-- A value that no sum has rounded. -/
def Partial.of (v : Val) : Partial := { val := v, bits := none, flags := 0#6 }

def reduceFp (c : VCtx) (fd : Fmt) (cc : Nat) (init : Val) (xs : List (Nat × Val)) : Partial :=
  match cc with
  | 0 =>
    let leaves := (List.range c.vlmax).map fun i => (xs.lookup i).map Partial.of
    (combine c fd (some (.of init)) ((treeLevels c fd 11 leaves).headD none)).getD (.of init)
  | 1 => xs.foldl (fun a x => roundedAdd c fd a (.of x.2)) (.of init)
  | k => xs.foldl (fun a x =>
      let r := minMaxVal (k == 3) a.val x.2
      { val := r.1, bits := none, flags := a.flags ||| r.2 }) (.of init)

/-- The result in fd: the pattern that the last sum was rounded to, or the value encoded if there was none (R57, R134). -/
def Partial.encode (c : VCtx) (fd : Fmt) (r : Partial) : Nat × Flags :=
  match r.bits with
  | some x => (x, r.flags)
  | none =>
    let x := encodeFloat fd fd.prec (encMode c.pal fd c.rm c.sat) r.val
    (x.1, x.2 ||| r.flags)

def runVredf (w : WWord) (e : QEntry) : M Unit := do
  let p := e.cap.pal
  match floatFmt (palFa p) e.bits, floatFmt (palFb p) e.bits, floatFmt (palFd p) e.bits with
  | some fa, some fb, some fd => do
    requireV e (palPlain p && scalesZero p true true false)
    wholeVector e
    let c ← dispatchV w e true
    checkDest c w.vd.toNat
    let s ← sources c (sourceRegs w) 0 c.vl
    whole do
      consumeAll s c.vl
      let init := fpOperand c fb (s.get w.vs2.toNat) 0
      let xs := (c.actives c.vl).map fun i => (i, fpSource c fa (palSa p) (s.get w.vs1.toNat) i)
      let x := (reduceFp c fd w.vs3.toNat init xs).encode c fd
      finishReduction c w.vd.toNat (x.1, x.2 ||| snanFlag (init :: xs.map Prod.snd))
  | _, _, _ => illegalV e

/-! ## Quads (R135) -/

/-- The two partners of element i: minuend and subtrahend for the derivative modes, the source in both for the moves. -/
def quadPartners (mode i : Nat) : Nat × Nat :=
  let q := i / 4 * 4
  let j := i % 4
  match mode with
  | 0 => (q + (j ^^^ 1), 0)
  | 1 => (q + (j ^^^ 2), 0)
  | 2 => (q + (j ^^^ 3), 0)
  | 3 => (q, 0)
  | 4 => (q + (j &&& 2) + 1, q + (j &&& 2))
  | 5 => (q + (j &&& 1) + 2, q + (j &&& 1))
  | 6 => (q + 1, q)
  | _ => (q + 2, q)

def runVquad (w : WWord) (e : QEntry) : M Unit := do
  let mode := w.vs3.toNat
  if mode < 4 then
    let c ← dispatchV w e false
    elementwise c [w.vs1.toNat] w.vd.toNat fun s i =>
      (elem (s.get w.vs1.toNat) c.bits (quadPartners mode i).1, 0#6)
  else
    let p := e.cap.pal
    match floatFmt (palFa p) e.bits, floatFmt (palFd p) e.bits with
    | some fa, some fd => do
      requireV e (palPlain p && scalesZero p true false true)
      let c ← dispatchV w e false
      elementwise c [w.vs1.toNat] w.vd.toNat fun s i =>
        let q := quadPartners mode i
        let a := fpSource c fa (palSa p) (s.get w.vs1.toNat) q.1
        let b := fpSource c fa (palSa p) (s.get w.vs1.toNat) q.2
        finishFp c fd fd.prec (addVal c.rm [a, b] a b.negate)
    | _, _ => illegalV e

end Sys2Proof.Machine
end

