-- ==== Sys2Proof/Machine/Queues.lean ====
section
/-! DEFINITION. Which stream an instruction belongs to (01 R26), what older queued work a scalar instruction waits for
(R30, R32, 08 R179), and the reattachment of a decoupled frame (17 R378). -/

namespace Sys2Proof.Machine

/-! ## Streams (R26) -/

/-- The stream of an instruction: 0 scalar, 1 vector, 2 matrix, 3 copy. -/
def streamOf (i : Instr) : Nat :=
  match i with
  | .sbind .. | .sset .. | .sfence .. | .vbind .. | .vunbind .. => 1
  | .mena .. | .mdis .. => 2
  | .cpyt .. | .cpyg .. | .cpyc .. => 3
  | _ =>
    match encodeWFields i with
    | some f => if f.grp = 4#3 then 2 else 1
    | none => 0

/-- An entry of an experimental combination, which the table's firmware expands as its stream executes it (R75, R427). -/
def QEntry.expands (e : QEntry) : Bool :=
  match e.instr with
  | .experimentalInstruction _ _ _ => true
  | _ => false

/-- The vector registers that are bound to a stream, or that a queued VBIND may yet bind, four at most (R147). -/
def Hart.boundRegs (h : Hart) : List Nat :=
  h.bindings.map Binding.reg ++ h.vq.flatMap fun e =>
    match e.instr with
    | .vbind vm _ => (List.range 4).map fun k => vm.toNat + k
    | _ => []

/-- A register that a W instruction's fields can name is bound to a stream, or may be once it dispatches. -/
def namesBound (h : Hart) (i : Instr) : Bool :=
  match encodeWFields i with
  | some f => h.boundRegs.any fun r =>
      r == f.w.vd.toNat || r == f.w.vs1.toNat || r == f.w.vs2.toNat || r == f.w.vs3.toNat
  | none => false

/-- The classes of the accesses that a queued instruction makes for the hart in program order, as bits I, O, R, W from [3]
down (R32, R91): groups 3, 5 and 6, SBIND, the stream instructions that perform appended elements, MLDT and MSTT, the
descriptor accesses of MMAC (R295), spills, and any instruction that names a bound register. The contents of MMAC's operand
slots are ordered by their owner bits (R33); the matrix stream's accesses are to scratch, and a vector access may be to the
host window. -/
def accessClasses (h : Hart) (i : Instr) : BitVec 4 :=
  match i with
  | .mldt .. => 2#4
  | .mstt .. => 1#4
  | .mmac .. => 3#4
  | .sbind .. | .sset .. | .sfence .. | .vmpush .. | .vmpop .. => 15#4
  | .vprf .. => 0#4
  | .vwacc .. | .vrayi .. | .vrayc .. | .vraya .. => if namesBound h i then 15#4 else 0#4
  | .vld .. | .vlds .. | .vldx .. | .vlseg .. => if namesBound h i then 15#4 else 10#4
  | .vst .. | .vsts .. | .vstx .. | .vsseg .. | .vstr .. => if namesBound h i then 15#4 else 5#4
  | _ =>
    if namesBound h i then 15#4
    else
      match encodeWFields i with
      | some f => if f.grp = 3#3 ∨ f.grp = 5#3 ∨ f.grp = 6#3 then 15#4 else 0#4
      | none => 0#4

/-- A queued instruction that accesses memory for the hart in program order. -/
def accessesMemory (h : Hart) (i : Instr) : Bool := accessClasses h i != 0#4

/-- An older vector or matrix access of one of the classes has not been performed. -/
def Hart.queuedIn (h : Hart) (classes : BitVec 4) : Bool :=
  (h.vq ++ h.mq).any fun e => accessClasses h e.instr &&& classes != 0#4

/-- An older vector or matrix memory access has not been performed. -/
def Hart.memoryQueued (h : Hart) : Bool := h.queuedIn 15#4

/-- A scalar memory access takes effect after the older ones of the queues (R32, R184). -/
def waitOlder : M Unit := do
  if (← getH).memoryQueued then hold .older

/-- The release that a scalar instruction carries (R180): the hart's older accesses of every stream first, its appended
elements among them (R151). -/
def scalarRelease (scope : Nat) : M Unit := do
  waitOlder
  settleStreams (← ownParty)
  release scope

/-! ## Reattaching a frame (R378) -/

/-- The mask entries that a frame brings back: those it holds, or after an edit of its depth what a write of vmsp would
leave (R139). -/
def frameMasks (f : Frame) : M (List MaskEntry) :=
  if f.vmsp = f.takenAt then return f.masks else setMaskDepth f.masks f.takenAt f.vmsp

/-- The restart element of a frame's head entry. -/
def restartHead (restart : Nat) : List QEntry → List QEntry
  | [] => []
  | e :: l => { e with start := some restart } :: l

/-- The faults that a frame brings back: a command that completed with a status it could not report (R289). The other
instructions execute again (R366). -/
def Frame.unreported (f : Frame) : List StreamFault := f.faults.filter fun x => x.stream == 3 && x.sub == 3

/-- The frame's state on the hart again; entries the handler has left in CQ stay behind the frame's. -/
def Hart.reattached (h : Hart) (f : Frame) (masks : List MaskEntry) : Hart :=
  { h with
    frame := none,
    vq := restartHead f.restart f.vq ++ h.vq, mq := f.mq ++ h.mq,
    cq := h.cq.filter QEntry.ready ++ f.cq ++ h.cq.filter fun e => !e.ready,
    faults := h.faults ++ f.unreported,
    masks := masks, vmsp := f.vmsp, q := f.q, lq := f.lq, bindings := f.bindings,
    st := Vector.ofFn fun i =>
      { h.st[i] with
        pos := f.pos.getD i.val h.st[i].pos,
        ahead := f.ahead.getD i.val [],
        appended := f.appended.getD i.val [],
        ready := [] } }

/-- Reattaches the frame buffer; a fault of the spill and refill accesses leaves it where it is. -/
def reattach : M Unit := do
  match (← getH).frame with
  | none => pure ()
  | some f => do
    let l ← frameMasks f
    modH fun h => h.reattached f l
    modify fun s => if f.cq.isEmpty then s else s.post [.copyHandOver s.hart.id]

end Sys2Proof.Machine
end

