-- ==== Sys2Proof/Machine/Scalar.lean ====
section
/-! DEFINITION. The scalar integer instructions of R89: RV64I, M, Zba, Zbb and Zicond arithmetic, each with rd written
and pc past its four bytes. -/

namespace Sys2Proof.Machine

/-! ## Shared arithmetic -/

/-- A scalar instruction whose whole effect is a value for rd (R14, R89). -/
def State.scalar (s : State) (rd : Reg) (v : Word) : Host.Outcome State Fault Refusal :=
  .next ((s.wx rd v).advance 4).goesOn

/-- The low 32 bits sign-extended. -/
def sext32 (v : Word) : Word := (v.extractLsb' 0 32).signExtend 64

/-- The low 32 bits zero-extended. -/
def zext32 (v : Word) : Word := (v.extractLsb' 0 32).zeroExtend 64

def low32 (v : Word) : BitVec 32 := v.extractLsb' 0 32

def immWord (imm : BitVec 12) : Word := imm.signExtend 64

def boolWord (b : Bool) : Word := if b then 1#64 else 0#64

/-- Rotations by an amount below the width. -/
def rotateR {n : Nat} (v : BitVec n) (k : Nat) : BitVec n := (v >>> k) ||| (v <<< (n - k))
def rotateL {n : Nat} (v : BitVec n) (k : Nat) : BitVec n := (v <<< k) ||| (v >>> (n - k))

/-- Shift amounts: the low 6 or 5 bits of rs2. -/
def shamt6 (v : Word) : Nat := fieldOf v 0 6
def shamt5 (v : Word) : Nat := fieldOf v 0 5

/-- Zero bits above the highest set bit, and below the lowest one; the width for 0. -/
def leadingZeros (w v : Nat) : Nat := if v = 0 then w else w - 1 - Nat.log2 v
def trailingZeros (w v : Nat) : Nat := ((List.range w).find? fun k => v.testBit k).getD w
def bitCount (w v : Nat) : Nat := ((List.range w).filter fun k => v.testBit k).length

/-- Division as the M extension has it: all ones for a zero divisor, the dividend in the overflowing case (R89). -/
def divSigned {n : Nat} (a b : BitVec n) : BitVec n := if b = 0#n then BitVec.allOnes n else a.sdiv b
def remSigned {n : Nat} (a b : BitVec n) : BitVec n := if b = 0#n then a else a.srem b
def divUnsigned {n : Nat} (a b : BitVec n) : BitVec n := if b = 0#n then BitVec.allOnes n else a / b
def remUnsigned {n : Nat} (a b : BitVec n) : BitVec n := if b = 0#n then a else a % b

/-- Bytes of a word, lowest first, and the word of bytes. -/
def wordBytes (v : Word) : List Byte := lowBytes 8 v.toNat
def ofWordBytes (l : List Byte) : Word := wordOf (bytesToNat l)

/-! ## The instructions -/

def execLui (rd : Reg) (imm : BitVec 20) (s : State) : Host.Outcome State Fault Refusal :=
  s.scalar rd ((imm ++ 0#12).signExtend 64)

def execAuipc (rd : Reg) (imm : BitVec 20) (s : State) : Host.Outcome State Fault Refusal :=
  s.scalar rd (s.hart.pc + (imm ++ 0#12).signExtend 64)

def execAddi (rd rs1 : Reg) (imm : BitVec 12) (s : State) : Host.Outcome State Fault Refusal :=
  s.scalar rd (s.rx rs1 + immWord imm)

def execSlti (rd rs1 : Reg) (imm : BitVec 12) (s : State) : Host.Outcome State Fault Refusal :=
  s.scalar rd (boolWord ((s.rx rs1).slt (immWord imm)))

def execSltiu (rd rs1 : Reg) (imm : BitVec 12) (s : State) : Host.Outcome State Fault Refusal :=
  s.scalar rd (boolWord ((s.rx rs1).ult (immWord imm)))

def execXori (rd rs1 : Reg) (imm : BitVec 12) (s : State) : Host.Outcome State Fault Refusal :=
  s.scalar rd (s.rx rs1 ^^^ immWord imm)

def execOri (rd rs1 : Reg) (imm : BitVec 12) (s : State) : Host.Outcome State Fault Refusal :=
  s.scalar rd (s.rx rs1 ||| immWord imm)

def execAndi (rd rs1 : Reg) (imm : BitVec 12) (s : State) : Host.Outcome State Fault Refusal :=
  s.scalar rd (s.rx rs1 &&& immWord imm)

def execSlli (rd rs1 : Reg) (shamt : BitVec 6) (s : State) : Host.Outcome State Fault Refusal :=
  s.scalar rd (s.rx rs1 <<< shamt.toNat)

def execSrli (rd rs1 : Reg) (shamt : BitVec 6) (s : State) : Host.Outcome State Fault Refusal :=
  s.scalar rd (s.rx rs1 >>> shamt.toNat)

def execSrai (rd rs1 : Reg) (shamt : BitVec 6) (s : State) : Host.Outcome State Fault Refusal :=
  s.scalar rd ((s.rx rs1).sshiftRight shamt.toNat)

def execRori (rd rs1 : Reg) (shamt : BitVec 6) (s : State) : Host.Outcome State Fault Refusal :=
  s.scalar rd (rotateR (s.rx rs1) shamt.toNat)

def execClz (rd rs1 : Reg) (s : State) : Host.Outcome State Fault Refusal :=
  s.scalar rd (wordOf (leadingZeros 64 (s.rx rs1).toNat))

def execCtz (rd rs1 : Reg) (s : State) : Host.Outcome State Fault Refusal :=
  s.scalar rd (wordOf (trailingZeros 64 (s.rx rs1).toNat))

def execCpop (rd rs1 : Reg) (s : State) : Host.Outcome State Fault Refusal :=
  s.scalar rd (wordOf (bitCount 64 (s.rx rs1).toNat))

def execSextB (rd rs1 : Reg) (s : State) : Host.Outcome State Fault Refusal :=
  s.scalar rd (((s.rx rs1).extractLsb' 0 8).signExtend 64)

def execSextH (rd rs1 : Reg) (s : State) : Host.Outcome State Fault Refusal :=
  s.scalar rd (((s.rx rs1).extractLsb' 0 16).signExtend 64)

def execOrcB (rd rs1 : Reg) (s : State) : Host.Outcome State Fault Refusal :=
  s.scalar rd (ofWordBytes ((wordBytes (s.rx rs1)).map fun x => if x = 0#8 then 0#8 else 0xFF#8))

def execRev8 (rd rs1 : Reg) (s : State) : Host.Outcome State Fault Refusal :=
  s.scalar rd (ofWordBytes (wordBytes (s.rx rs1)).reverse)

def execAddiw (rd rs1 : Reg) (imm : BitVec 12) (s : State) : Host.Outcome State Fault Refusal :=
  s.scalar rd (sext32 (s.rx rs1 + immWord imm))

def execSlliw (rd rs1 : Reg) (shamt : BitVec 5) (s : State) : Host.Outcome State Fault Refusal :=
  s.scalar rd ((low32 (s.rx rs1) <<< shamt.toNat).signExtend 64)

def execSrliw (rd rs1 : Reg) (shamt : BitVec 5) (s : State) : Host.Outcome State Fault Refusal :=
  s.scalar rd ((low32 (s.rx rs1) >>> shamt.toNat).signExtend 64)

def execSraiw (rd rs1 : Reg) (shamt : BitVec 5) (s : State) : Host.Outcome State Fault Refusal :=
  s.scalar rd (((low32 (s.rx rs1)).sshiftRight shamt.toNat).signExtend 64)

def execRoriw (rd rs1 : Reg) (shamt : BitVec 5) (s : State) : Host.Outcome State Fault Refusal :=
  s.scalar rd ((rotateR (low32 (s.rx rs1)) shamt.toNat).signExtend 64)

def execSlliUw (rd rs1 : Reg) (shamt : BitVec 6) (s : State) : Host.Outcome State Fault Refusal :=
  s.scalar rd (zext32 (s.rx rs1) <<< shamt.toNat)

def execClzw (rd rs1 : Reg) (s : State) : Host.Outcome State Fault Refusal :=
  s.scalar rd (wordOf (leadingZeros 32 (low32 (s.rx rs1)).toNat))

def execCtzw (rd rs1 : Reg) (s : State) : Host.Outcome State Fault Refusal :=
  s.scalar rd (wordOf (trailingZeros 32 (low32 (s.rx rs1)).toNat))

def execCpopw (rd rs1 : Reg) (s : State) : Host.Outcome State Fault Refusal :=
  s.scalar rd (wordOf (bitCount 32 (low32 (s.rx rs1)).toNat))

def execAdd (rd rs1 rs2 : Reg) (s : State) : Host.Outcome State Fault Refusal :=
  s.scalar rd (s.rx rs1 + s.rx rs2)

def execSll (rd rs1 rs2 : Reg) (s : State) : Host.Outcome State Fault Refusal :=
  s.scalar rd (s.rx rs1 <<< shamt6 (s.rx rs2))

def execSlt (rd rs1 rs2 : Reg) (s : State) : Host.Outcome State Fault Refusal :=
  s.scalar rd (boolWord ((s.rx rs1).slt (s.rx rs2)))

def execSltu (rd rs1 rs2 : Reg) (s : State) : Host.Outcome State Fault Refusal :=
  s.scalar rd (boolWord ((s.rx rs1).ult (s.rx rs2)))

def execXor (rd rs1 rs2 : Reg) (s : State) : Host.Outcome State Fault Refusal :=
  s.scalar rd (s.rx rs1 ^^^ s.rx rs2)

def execSrl (rd rs1 rs2 : Reg) (s : State) : Host.Outcome State Fault Refusal :=
  s.scalar rd (s.rx rs1 >>> shamt6 (s.rx rs2))

def execOr (rd rs1 rs2 : Reg) (s : State) : Host.Outcome State Fault Refusal :=
  s.scalar rd (s.rx rs1 ||| s.rx rs2)

def execAnd (rd rs1 rs2 : Reg) (s : State) : Host.Outcome State Fault Refusal :=
  s.scalar rd (s.rx rs1 &&& s.rx rs2)

def execSub (rd rs1 rs2 : Reg) (s : State) : Host.Outcome State Fault Refusal :=
  s.scalar rd (s.rx rs1 - s.rx rs2)

def execSra (rd rs1 rs2 : Reg) (s : State) : Host.Outcome State Fault Refusal :=
  s.scalar rd ((s.rx rs1).sshiftRight (shamt6 (s.rx rs2)))

def execXnor (rd rs1 rs2 : Reg) (s : State) : Host.Outcome State Fault Refusal :=
  s.scalar rd (~~~(s.rx rs1 ^^^ s.rx rs2))

def execOrn (rd rs1 rs2 : Reg) (s : State) : Host.Outcome State Fault Refusal :=
  s.scalar rd (s.rx rs1 ||| ~~~(s.rx rs2))

def execAndn (rd rs1 rs2 : Reg) (s : State) : Host.Outcome State Fault Refusal :=
  s.scalar rd (s.rx rs1 &&& ~~~(s.rx rs2))

def execMul (rd rs1 rs2 : Reg) (s : State) : Host.Outcome State Fault Refusal :=
  s.scalar rd (s.rx rs1 * s.rx rs2)

def execMulh (rd rs1 rs2 : Reg) (s : State) : Host.Outcome State Fault Refusal :=
  s.scalar rd ((((s.rx rs1).signExtend 128) * ((s.rx rs2).signExtend 128)).extractLsb' 64 64)

def execMulhsu (rd rs1 rs2 : Reg) (s : State) : Host.Outcome State Fault Refusal :=
  s.scalar rd ((((s.rx rs1).signExtend 128) * ((s.rx rs2).zeroExtend 128)).extractLsb' 64 64)

def execMulhu (rd rs1 rs2 : Reg) (s : State) : Host.Outcome State Fault Refusal :=
  s.scalar rd ((((s.rx rs1).zeroExtend 128) * ((s.rx rs2).zeroExtend 128)).extractLsb' 64 64)

def execDiv (rd rs1 rs2 : Reg) (s : State) : Host.Outcome State Fault Refusal :=
  s.scalar rd (divSigned (s.rx rs1) (s.rx rs2))

def execDivu (rd rs1 rs2 : Reg) (s : State) : Host.Outcome State Fault Refusal :=
  s.scalar rd (divUnsigned (s.rx rs1) (s.rx rs2))

def execRem (rd rs1 rs2 : Reg) (s : State) : Host.Outcome State Fault Refusal :=
  s.scalar rd (remSigned (s.rx rs1) (s.rx rs2))

def execRemu (rd rs1 rs2 : Reg) (s : State) : Host.Outcome State Fault Refusal :=
  s.scalar rd (remUnsigned (s.rx rs1) (s.rx rs2))

def execSh1add (rd rs1 rs2 : Reg) (s : State) : Host.Outcome State Fault Refusal :=
  s.scalar rd ((s.rx rs1 <<< 1) + s.rx rs2)

def execSh2add (rd rs1 rs2 : Reg) (s : State) : Host.Outcome State Fault Refusal :=
  s.scalar rd ((s.rx rs1 <<< 2) + s.rx rs2)

def execSh3add (rd rs1 rs2 : Reg) (s : State) : Host.Outcome State Fault Refusal :=
  s.scalar rd ((s.rx rs1 <<< 3) + s.rx rs2)

def execMin (rd rs1 rs2 : Reg) (s : State) : Host.Outcome State Fault Refusal :=
  s.scalar rd (if (s.rx rs2).slt (s.rx rs1) then s.rx rs2 else s.rx rs1)

def execMinu (rd rs1 rs2 : Reg) (s : State) : Host.Outcome State Fault Refusal :=
  s.scalar rd (if (s.rx rs2).ult (s.rx rs1) then s.rx rs2 else s.rx rs1)

def execMax (rd rs1 rs2 : Reg) (s : State) : Host.Outcome State Fault Refusal :=
  s.scalar rd (if (s.rx rs1).slt (s.rx rs2) then s.rx rs2 else s.rx rs1)

def execMaxu (rd rs1 rs2 : Reg) (s : State) : Host.Outcome State Fault Refusal :=
  s.scalar rd (if (s.rx rs1).ult (s.rx rs2) then s.rx rs2 else s.rx rs1)

def execRol (rd rs1 rs2 : Reg) (s : State) : Host.Outcome State Fault Refusal :=
  s.scalar rd (rotateL (s.rx rs1) (shamt6 (s.rx rs2)))

def execRor (rd rs1 rs2 : Reg) (s : State) : Host.Outcome State Fault Refusal :=
  s.scalar rd (rotateR (s.rx rs1) (shamt6 (s.rx rs2)))

def execCzeroEqz (rd rs1 rs2 : Reg) (s : State) : Host.Outcome State Fault Refusal :=
  s.scalar rd (if s.rx rs2 = 0#64 then 0#64 else s.rx rs1)

def execCzeroNez (rd rs1 rs2 : Reg) (s : State) : Host.Outcome State Fault Refusal :=
  s.scalar rd (if s.rx rs2 = 0#64 then s.rx rs1 else 0#64)

def execAddw (rd rs1 rs2 : Reg) (s : State) : Host.Outcome State Fault Refusal :=
  s.scalar rd ((low32 (s.rx rs1) + low32 (s.rx rs2)).signExtend 64)

def execSllw (rd rs1 rs2 : Reg) (s : State) : Host.Outcome State Fault Refusal :=
  s.scalar rd ((low32 (s.rx rs1) <<< shamt5 (s.rx rs2)).signExtend 64)

def execSrlw (rd rs1 rs2 : Reg) (s : State) : Host.Outcome State Fault Refusal :=
  s.scalar rd ((low32 (s.rx rs1) >>> shamt5 (s.rx rs2)).signExtend 64)

def execSubw (rd rs1 rs2 : Reg) (s : State) : Host.Outcome State Fault Refusal :=
  s.scalar rd ((low32 (s.rx rs1) - low32 (s.rx rs2)).signExtend 64)

def execSraw (rd rs1 rs2 : Reg) (s : State) : Host.Outcome State Fault Refusal :=
  s.scalar rd (((low32 (s.rx rs1)).sshiftRight (shamt5 (s.rx rs2))).signExtend 64)

def execMulw (rd rs1 rs2 : Reg) (s : State) : Host.Outcome State Fault Refusal :=
  s.scalar rd ((low32 (s.rx rs1) * low32 (s.rx rs2)).signExtend 64)

def execDivw (rd rs1 rs2 : Reg) (s : State) : Host.Outcome State Fault Refusal :=
  s.scalar rd ((divSigned (low32 (s.rx rs1)) (low32 (s.rx rs2))).signExtend 64)

def execDivuw (rd rs1 rs2 : Reg) (s : State) : Host.Outcome State Fault Refusal :=
  s.scalar rd ((divUnsigned (low32 (s.rx rs1)) (low32 (s.rx rs2))).signExtend 64)

def execRemw (rd rs1 rs2 : Reg) (s : State) : Host.Outcome State Fault Refusal :=
  s.scalar rd ((remSigned (low32 (s.rx rs1)) (low32 (s.rx rs2))).signExtend 64)

def execRemuw (rd rs1 rs2 : Reg) (s : State) : Host.Outcome State Fault Refusal :=
  s.scalar rd ((remUnsigned (low32 (s.rx rs1)) (low32 (s.rx rs2))).signExtend 64)

def execAddUw (rd rs1 rs2 : Reg) (s : State) : Host.Outcome State Fault Refusal :=
  s.scalar rd (zext32 (s.rx rs1) + s.rx rs2)

def execZextH (rd rs1 : Reg) (s : State) : Host.Outcome State Fault Refusal :=
  s.scalar rd (((s.rx rs1).extractLsb' 0 16).zeroExtend 64)

def execSh1addUw (rd rs1 rs2 : Reg) (s : State) : Host.Outcome State Fault Refusal :=
  s.scalar rd ((zext32 (s.rx rs1) <<< 1) + s.rx rs2)

def execSh2addUw (rd rs1 rs2 : Reg) (s : State) : Host.Outcome State Fault Refusal :=
  s.scalar rd ((zext32 (s.rx rs1) <<< 2) + s.rx rs2)

def execSh3addUw (rd rs1 rs2 : Reg) (s : State) : Host.Outcome State Fault Refusal :=
  s.scalar rd ((zext32 (s.rx rs1) <<< 3) + s.rx rs2)

def execRolw (rd rs1 rs2 : Reg) (s : State) : Host.Outcome State Fault Refusal :=
  s.scalar rd ((rotateL (low32 (s.rx rs1)) (shamt5 (s.rx rs2))).signExtend 64)

def execRorw (rd rs1 rs2 : Reg) (s : State) : Host.Outcome State Fault Refusal :=
  s.scalar rd ((rotateR (low32 (s.rx rs1)) (shamt5 (s.rx rs2))).signExtend 64)

end Sys2Proof.Machine
end

