-- ==== Sys2Proof/Machine/Control.lean ====
section
/-! DEFINITION. Jumps, branches, environment calls, the return from S mode, waits, TLB maintenance and fences of the
scalar stream (01 R12, 03 R64, 04 R89 to R91, 08 R179, 11 R253, 17 R378). -/

namespace Sys2Proof.Machine

/-! ## Jumps and branches (R64, R89) -/

/-- A byte offset of a B-layout immediate: bit 0 is implied zero, the top bit extends. -/
def branchOffset (off : BitVec 12) : Word := (off ++ 0#1).signExtend 64

/-- Goes to a target, with a value for rd first; a target that is no multiple of 4 is an instruction-address-misaligned
fault before any effect. -/
def State.goto (s : State) (rd : Reg) (link target : Word) : Host.Outcome State Fault Refusal :=
  if target.toNat % 4 = 0 then .next ((s.wx rd link).jump target).goesOn
  else .next (s.fault { cause := 0, tval := target, vf := none } s.hart.pc)

/-- A conditional branch. -/
def State.branch (s : State) (taken : Bool) (off : BitVec 12) : Host.Outcome State Fault Refusal :=
  if taken then s.goto 0#5 0#64 (s.hart.pc + branchOffset off) else .next (s.advance 4).goesOn

def execJal (rd : Reg) (off : BitVec 20) (s : State) : Host.Outcome State Fault Refusal :=
  s.goto rd (s.hart.pc + 4#64) (s.hart.pc + (off ++ 0#1).signExtend 64)

def execJalr (rd rs1 : Reg) (imm : BitVec 12) (s : State) : Host.Outcome State Fault Refusal :=
  s.goto rd (s.hart.pc + 4#64) ((s.rx rs1 + immWord imm) &&& ~~~1#64)

def execBeq (rs1 rs2 : Reg) (off : BitVec 12) (s : State) : Host.Outcome State Fault Refusal :=
  s.branch (s.rx rs1 == s.rx rs2) off

def execBne (rs1 rs2 : Reg) (off : BitVec 12) (s : State) : Host.Outcome State Fault Refusal :=
  s.branch (s.rx rs1 != s.rx rs2) off

def execBlt (rs1 rs2 : Reg) (off : BitVec 12) (s : State) : Host.Outcome State Fault Refusal :=
  s.branch ((s.rx rs1).slt (s.rx rs2)) off

def execBge (rs1 rs2 : Reg) (off : BitVec 12) (s : State) : Host.Outcome State Fault Refusal :=
  s.branch (!(s.rx rs1).slt (s.rx rs2)) off

def execBltu (rs1 rs2 : Reg) (off : BitVec 12) (s : State) : Host.Outcome State Fault Refusal :=
  s.branch ((s.rx rs1).ult (s.rx rs2)) off

def execBgeu (rs1 rs2 : Reg) (off : BitVec 12) (s : State) : Host.Outcome State Fault Refusal :=
  s.branch (!(s.rx rs1).ult (s.rx rs2)) off

/-! ## Calls of the environment -/

/-- ECALL: environment call from U mode (8) or S mode (9). -/
def execEcall (s : State) : Host.Outcome State Fault Refusal :=
  runScalar (do
    abortIfTx 6
    trap (if s.hart.priv = .user then 8 else 9) 0#64) s

/-- EBREAK: breakpoint (3), with stval at the instruction (log entry 15). -/
def execEbreak (s : State) : Host.Outcome State Fault Refusal :=
  runScalar (do
    abortIfTx 6
    trap 3 s.hart.pc) s

/-! ## S mode -/

/-- An instruction of S mode: it aborts a transaction with SYSTEM (R205), in either mode (log entry 8), and outside one it
is Illegal in U mode (R12). -/
def supervisorOnly (i : Instr) : M Unit := do
  abortIfTx 6
  if (← getH).priv = .user then illegal i

/-- The status of sstatus after SRET: SIE := SPIE, SPIE := 1, SPP := U. -/
def sretStatus (v : Word) : Word := setField (setField (setField v 1 1 (fieldOf v 5 1)) 5 1 1) 8 1 0

/-- The return from S mode, as the RISC-V privileged architecture has it. -/
def Hart.returnS (h : Hart) : Hart :=
  { h with
    sstatus := sretStatus h.sstatus, priv := if h.sstatus.getLsbD 8 then .supervisor else .user, pc := h.sepc,
    fetchBuf := [], instret := h.instret + 1 }

/-- SRET (R378): a non-empty frame buffer is reattached first. -/
def execSret (s : State) : Host.Outcome State Fault Refusal :=
  runScalar (do
    supervisorOnly .sret
    if (← getH).frame.isSome then
      drain
      reattach
    modH Hart.returnS) s

/-- WFI (R12, R90). -/
def execWfi (s : State) : Host.Outcome State Fault Refusal :=
  runScalar (do
    if (← getH).mstatusTw then illegal .wfi
    advance 4) s

/-- PAUSE (R90): the hart leaves issue selection for 32 cycles, until PAUSE_EXPIRY. -/
def execPause (s : State) : Host.Outcome State Fault Refusal :=
  runScalar (do
    modH fun h => { h with run := .paused, deadline := some (s.clock + 32) }
    advance 4) s

/-- The TLB entries that SFENCE.VMA names: by address unless rs1 is x0, by ASID and not global unless rs2 is x0. -/
def sfenceCovers (va asid : Option Word) (e : TlbEntry) : Bool :=
  (match va with
    | some v => v.toNat / 2 ^ e.bits * 2 ^ e.bits == e.va
    | none => true) &&
  (match asid with
    | some a => !e.glob && e.asid == fieldOf a 0 16
    | none => true)

/-- SFENCE.VMA (R12): only the TLB entries of the hart's own core. -/
def execSfenceVma (rs1 rs2 : Reg) (s : State) : Host.Outcome State Fault Refusal :=
  runScalar (do
    supervisorOnly (.sfenceVma rs1 rs2)
    let va := if rs1 = 0#5 then none else some (s.rx rs1)
    let asid := if rs2 = 0#5 then none else some (s.rx rs2)
    modify fun s => s.modCore s.hart.id.coreId fun c => { c with tlb := c.tlb.filter fun e => !sfenceCovers va asid e }
    advance 4) s

/-! ## Fences -/

/-- A fence between two sets, of bits I, O, R and W from [3] down, at a scope (R91, R179). The model performs each access at
once for every party, so that only queued accesses of the classes in pred, appended elements and writes beyond the device
remain to wait for (log entry 5). -/
def fenceOp (pred succ : BitVec 4) (scope : Nat) : M Unit := do
  if pred ≠ 0#4 ∧ succ ≠ 0#4 then
    if (← getH).queuedIn pred then hold .older
    settleStreams (← ownParty)
    if pred &&& 5#4 ≠ 0#4 then releaseOf scope (pred.getLsbD 0)

/-- FENCE (R91): FENCE.TSO executes as RW, RW. -/
def execFence (fm pred succ : BitVec 4) (_rs1 _rd : Reg) (s : State) : Host.Outcome State Fault Refusal :=
  runScalar (do
    abortIfTx 6
    if fm = 8#4 then fenceOp 3#4 3#4 5 else fenceOp pred succ 5
    advance 4) s

/-- FENCE.S (R179): Ignored inside a transaction at device scope or narrower, SYSTEM at system scope. -/
def execFenceS (scope : BitVec 3) (succ pred : BitVec 4) (s : State) : Host.Outcome State Fault Refusal :=
  runScalar (do
    if scope = 5#3 then abortIfTx 6
    if (← getH).tx.isNone then fenceOp pred succ scope.toNat
    advance 4) s

/-- FENCE.I (R253). -/
def execFenceI (_imm : BitVec 12) (_rs1 _rd : Reg) (s : State) : Host.Outcome State Fault Refusal :=
  runScalar (do
    abortIfTx 6
    waitOlder
    settleStreams (← ownParty)
    modH fun h => { h with fetchBuf := [] }
    advance 4) s

end Sys2Proof.Machine
end

