-- ==== Sys2Proof/Machine/ScalarMem.lean ====
section
/-! DEFINITION. Scalar loads, stores, atomics, load-reserved and store-conditional, cache-block operations (04 R92 to
R95, 11 R254) and the bounded atomics (08 R188, R189). -/

namespace Sys2Proof.Machine

/-! ## Loads and stores (R92) -/

/-- A scalar load of n bytes at rs1 + imm, extended. -/
def loadOp (rd rs1 : Reg) (imm : BitVec 12) (n : Nat) (signed : Bool) : M Unit := do
  waitOlder
  let p ← ownParty
  let v ← loadVa p ((← readX rs1) + immWord imm) .load n
  writeX rd (BitVec.ofInt 64 (decodeInt signed (8 * n) v))
  advance 4

/-- A scalar store of the n low bytes of rs2 at rs1 + imm. -/
def storeOp (rs1 rs2 : Reg) (imm : BitVec 12) (n : Nat) : M Unit := do
  waitOlder
  let p ← ownParty
  storeVa p ((← readX rs1) + immWord imm) n (← readX rs2).toNat
  advance 4

def execLb (rd rs1 : Reg) (imm : BitVec 12) (s : State) : Host.Outcome State Fault Refusal :=
  runScalar (loadOp rd rs1 imm 1 true) s
def execLh (rd rs1 : Reg) (imm : BitVec 12) (s : State) : Host.Outcome State Fault Refusal :=
  runScalar (loadOp rd rs1 imm 2 true) s
def execLw (rd rs1 : Reg) (imm : BitVec 12) (s : State) : Host.Outcome State Fault Refusal :=
  runScalar (loadOp rd rs1 imm 4 true) s
def execLd (rd rs1 : Reg) (imm : BitVec 12) (s : State) : Host.Outcome State Fault Refusal :=
  runScalar (loadOp rd rs1 imm 8 true) s
def execLbu (rd rs1 : Reg) (imm : BitVec 12) (s : State) : Host.Outcome State Fault Refusal :=
  runScalar (loadOp rd rs1 imm 1 false) s
def execLhu (rd rs1 : Reg) (imm : BitVec 12) (s : State) : Host.Outcome State Fault Refusal :=
  runScalar (loadOp rd rs1 imm 2 false) s
def execLwu (rd rs1 : Reg) (imm : BitVec 12) (s : State) : Host.Outcome State Fault Refusal :=
  runScalar (loadOp rd rs1 imm 4 false) s
def execSb (rs1 rs2 : Reg) (imm : BitVec 12) (s : State) : Host.Outcome State Fault Refusal :=
  runScalar (storeOp rs1 rs2 imm 1) s
def execSh (rs1 rs2 : Reg) (imm : BitVec 12) (s : State) : Host.Outcome State Fault Refusal :=
  runScalar (storeOp rs1 rs2 imm 2) s
def execSw (rs1 rs2 : Reg) (imm : BitVec 12) (s : State) : Host.Outcome State Fault Refusal :=
  runScalar (storeOp rs1 rs2 imm 4) s
def execSd (rs1 rs2 : Reg) (imm : BitVec 12) (s : State) : Host.Outcome State Fault Refusal :=
  runScalar (storeOp rs1 rs2 imm 8) s

/-! ## LR and SC (R93, R94) -/

/-- Bytes of an AMO's width bit. -/
def amoBytes (w : BitVec 1) : Nat := if w = 1#1 then 8 else 4

/-- A target that LR and SC accept: HBM, or the aperture of an open bank (R93). -/
def reservable (va : Word) (pa : Nat) (a : Access) : M Unit := do
  match region pa with
  | .hbm _ => pure ()
  | .aperture c off => if (← get).apertureOpen c off then pure () else throw (.mem (.access a va))
  | _ => throw (.mem (.access a va))

/-- The release of an rl bit, at system scope (R91, R180). -/
def releaseBit (rl : BitVec 1) (scope : Nat) : M Unit := do
  if rl = 1#1 ∧ (← getH).tx.isNone then scalarRelease scope

def lrOp (rl w : BitVec 1) (rd rs1 : Reg) : M Unit := do
  abortIfTx 6
  waitOlder
  let p ← ownParty
  let n := amoBytes w
  let va ← readX rs1
  if va.toNat % n ≠ 0 then throw (.mem (.misaligned .load va))
  releaseBit rl 5
  let t ← translateM p.ctx va .load
  reservable va t.pa .load
  settleStreams p
  let v ← plainRead va .load t.pa n
  modH fun h => { h with reservation := some { line := lineOf t.pa, addr := va, size := n } }
  writeX rd (BitVec.ofInt 64 (decodeInt true (8 * n) v))
  advance 4

def scOp (rl w : BitVec 1) (rd rs1 rs2 : Reg) : M Unit := do
  abortIfTx 6
  waitOlder
  let p ← ownParty
  let n := amoBytes w
  let va ← readX rs1
  if va.toNat % n ≠ 0 then throw (.mem (.misaligned .store va))
  releaseBit rl 5
  let t ← translateM p.ctx va .store
  reservable va t.pa .store
  settleStreams p
  let r := (← getH).reservation
  if r = some { line := lineOf t.pa, addr := va, size := n } then
    dropAhead p
    plainWrite p t.pa n ((← readX rs2).toNat % 2 ^ (8 * n))
    writeX rd 0#64
  else writeX rd 1#64
  modH fun h => { h with reservation := none }
  advance 4

def execLr (_aq rl w : BitVec 1) (rd rs1 : Reg) (s : State) : Host.Outcome State Fault Refusal :=
  runScalar (lrOp rl w rd rs1) s
def execSc (_aq rl w : BitVec 1) (rd rs1 rs2 : Reg) (s : State) : Host.Outcome State Fault Refusal :=
  runScalar (scOp rl w rd rs1 rs2) s

/-! ## Atomic memory operations (R93) -/

/-- An AMO: f gives the new value from the old one and rs2's low bytes; op is its number towards a peer. -/
def amoOp (rl w : BitVec 1) (rd rs1 rs2 : Reg) (op : Nat) (f : Nat → Nat → Nat → Nat) : M Unit := do
  waitOlder
  let p ← ownParty
  let n := amoBytes w
  let va ← readX rs1
  let d := (← readX rs2).toNat % 2 ^ (8 * n)
  if va.toNat % n ≠ 0 then throw (.mem (.misaligned .store va))
  releaseBit rl 5
  let old ← atomicVa p va n (fun o => some (f (8 * n) o d)) op (wordOf d) 0#64
  writeX rd (BitVec.ofInt 64 (decodeInt true (8 * n) old))
  advance 4

def amoMin (bits a b : Nat) : Nat := if decodeInt true bits b < decodeInt true bits a then b else a
def amoMax (bits a b : Nat) : Nat := if decodeInt true bits a < decodeInt true bits b then b else a

def execAmoswap (_aq rl w : BitVec 1) (rd rs1 rs2 : Reg) (s : State) : Host.Outcome State Fault Refusal :=
  runScalar (amoOp rl w rd rs1 rs2 0 fun _ _ d => d) s
def execAmoadd (_aq rl w : BitVec 1) (rd rs1 rs2 : Reg) (s : State) : Host.Outcome State Fault Refusal :=
  runScalar (amoOp rl w rd rs1 rs2 1 fun b o d => (o + d) % 2 ^ b) s
def execAmoxor (_aq rl w : BitVec 1) (rd rs1 rs2 : Reg) (s : State) : Host.Outcome State Fault Refusal :=
  runScalar (amoOp rl w rd rs1 rs2 2 fun _ o d => o ^^^ d) s
def execAmoand (_aq rl w : BitVec 1) (rd rs1 rs2 : Reg) (s : State) : Host.Outcome State Fault Refusal :=
  runScalar (amoOp rl w rd rs1 rs2 3 fun _ o d => o &&& d) s
def execAmoor (_aq rl w : BitVec 1) (rd rs1 rs2 : Reg) (s : State) : Host.Outcome State Fault Refusal :=
  runScalar (amoOp rl w rd rs1 rs2 4 fun _ o d => o ||| d) s
def execAmomin (_aq rl w : BitVec 1) (rd rs1 rs2 : Reg) (s : State) : Host.Outcome State Fault Refusal :=
  runScalar (amoOp rl w rd rs1 rs2 5 amoMin) s
def execAmomax (_aq rl w : BitVec 1) (rd rs1 rs2 : Reg) (s : State) : Host.Outcome State Fault Refusal :=
  runScalar (amoOp rl w rd rs1 rs2 6 amoMax) s
def execAmominu (_aq rl w : BitVec 1) (rd rs1 rs2 : Reg) (s : State) : Host.Outcome State Fault Refusal :=
  runScalar (amoOp rl w rd rs1 rs2 7 fun _ o d => Nat.min o d) s
def execAmomaxu (_aq rl w : BitVec 1) (rd rs1 rs2 : Reg) (s : State) : Host.Outcome State Fault Refusal :=
  runScalar (amoOp rl w rd rs1 rs2 8 fun _ o d => Nat.max o d) s

/-! ## Bounded atomics (R188, R189) -/

def execAmoincw (_aq rl : BitVec 1) (scope : BitVec 3) (width : BitVec 2) (rd rs1 rs2 : Reg) (s : State) :
    Host.Outcome State Fault Refusal :=
  runScalar (do
    waitOlder
    let p ← ownParty
    let n := 2 ^ width.toNat
    let va ← readX rs1
    let b := (← readX rs2).toNat % 2 ^ (8 * n)
    if va.toNat % n ≠ 0 then throw (.mem (.misaligned .store va))
    releaseBit rl scope.toNat
    let old ← atomicVa p va n (fun o => some (if b ≤ o then 0 else o + 1)) 9 (wordOf b) 0#64
    writeX rd (wordOf old)
    advance 4) s

def execAmoaddb (width : BitVec 2) (rd rs1 rs2 rs3 : Reg) (s : State) : Host.Outcome State Fault Refusal :=
  runScalar (do
    waitOlder
    let p ← ownParty
    let n := 2 ^ width.toNat
    let va ← readX rs1
    let d := (← readX rs2).toNat % 2 ^ (8 * n)
    let b := (← readX rs3).toNat % 2 ^ (8 * n)
    let old ← atomicVa p va n (fun o => if o + d ≤ b then some (o + d) else none) 10 (wordOf d) (wordOf b)
    writeX rd (wordOf old)
    advance 4) s

/-! ## Cache-block operations (R95, R254) -/

/-- The 128-byte block of an address. -/
def blockOf (va : Word) : Word := va &&& ~~~0x7F#64

/-- A fault of a cache-block operation is a store fault at rs1 (R254). -/
def asStoreFault {α : Type} (va : Word) (m : M α) : M α := fun s =>
  match m s with
  | .ok a t => .ok a t
  | .error (.mem (.page _ _)) t => .error (.mem (.page .store va)) t
  | .error (.mem (.access _ _)) t => .error (.mem (.access .store va)) t
  | .error e t => .error e t

/-- The translation of CBO.CLEAN, FLUSH and INVAL, which a block that may be loaded or stored permits. -/
def cboTranslate (c : TransCtx) (va : Word) : M Translation := fun s =>
  match translateM c va .load s with
  | .ok t u => .ok t u
  | .error _ u => translateM c va .store u

/-- CBO.CLEAN, FLUSH and INVAL at a target: no cache holds a copy in the model, so nothing changes where they are
allowed (log entry 5). -/
def cboTarget (va : Word) (pa : Nat) : M Unit := do
  match region pa with
  | .hbm _ | .host _ | .aperture _ _ => pure ()
  | .peer d off => if (← get).peerOk d off then pure () else throw (.mem (.access .store va))
  | .agent | .bootRom | .none => throw (.mem (.access .store va))

/-- A cache-block instruction that U mode may use when allowed holds (R95). -/
def cboOp (i : Instr) (rs1 : Reg) (allowed : Bool) (act : Party → Word → M Unit) : M Unit := do
  abortIfTx 6
  if (← getH).priv = .user ∧ !allowed then illegal i
  waitOlder
  let p ← ownParty
  settleStreams p
  let va ← readX rs1
  asStoreFault va (act p va)
  advance 4

def cboManage (p : Party) (va : Word) : M Unit := do
  let t ← cboTranslate p.ctx (blockOf va)
  cboTarget va t.pa

/-- The zero bytes of CBO.ZERO: agent registers and the boot ROM fault. -/
def cboZero (p : Party) (va : Word) : M Unit := do
  let t ← translateM p.ctx (blockOf va) .store
  match region t.pa with
  | .agent => throw (.mem (.access .store va))
  | _ => storeVa p (blockOf va) 128 0

def execCboInval (rs1 : Reg) (s : State) : Host.Outcome State Fault Refusal :=
  runScalar (cboOp (.cboInval rs1) rs1 (s.hart.senvcfg.getLsbD 4) cboManage) s
def execCboClean (rs1 : Reg) (s : State) : Host.Outcome State Fault Refusal :=
  runScalar (cboOp (.cboClean rs1) rs1 (s.hart.senvcfg.getLsbD 6) cboManage) s
def execCboFlush (rs1 : Reg) (s : State) : Host.Outcome State Fault Refusal :=
  runScalar (cboOp (.cboFlush rs1) rs1 (s.hart.senvcfg.getLsbD 6) cboManage) s
def execCboZero (rs1 : Reg) (s : State) : Host.Outcome State Fault Refusal :=
  runScalar (cboOp (.cboZero rs1) rs1 (s.hart.senvcfg.getLsbD 7) cboZero) s

end Sys2Proof.Machine
end

