-- ==== Sys2Proof/Machine/Rings.lean ====
section
/-! DEFINITION. Rings (10 R214 to R232): handles, descriptors, the checks of R219, the transitions of a descriptor, owner
fields, notifications and attached reservations, and the slot list of a hart. -/

namespace Sys2Proof.Machine

/-! ## Descriptors (R214 to R217) -/

/-- A ring descriptor (R215). -/
structure RingDesc where
  ctl    : Word
  base   : Word
  head   : Nat
  acq    : Nat
  tail   : Nat
  resv   : Nat
  cmask  : Word
  rmask  : Word
  notify : Word
  eosidx : Nat
  window : Nat
  last   : Nat
  deriving DecidableEq, Repr

def RingDesc.ofNat (b : Nat) : RingDesc :=
  let f (off n : Nat) : Nat := bitsAt b (8 * off) (8 * n)
  { ctl := wordOf (f 0 8), base := wordOf (f 8 8), head := f 16 4, acq := f 20 4, tail := f 24 4, resv := f 28 4,
    cmask := wordOf (f 32 8), rmask := wordOf (f 40 8), notify := wordOf (f 48 8), eosidx := f 56 4, window := f 60 2,
    last := f 62 2 }

/-- The eight words of a descriptor. -/
def RingDesc.words (d : RingDesc) : List Nat :=
  [d.ctl.toNat, d.base.toNat, d.head + 2 ^ 32 * d.acq, d.tail + 2 ^ 32 * d.resv, d.cmask.toNat, d.rmask.toNat,
   d.notify.toNat, d.eosidx + 2 ^ 32 * d.window + 2 ^ 48 * d.last]

def RingDesc.kind (d : RingDesc) : Nat := fieldOf d.ctl 0 4
def RingDesc.loc (d : RingDesc) : Nat := fieldOf d.ctl 4 4
def RingDesc.n (d : RingDesc) : Nat := fieldOf d.ctl 16 16 + 1
def RingDesc.m (d : RingDesc) : Nat := 2 * d.n
def RingDesc.size (d : RingDesc) : Nat := 2 ^ fieldOf d.ctl 32 4
def RingDesc.pscope (d : RingDesc) : Nat := fieldOf d.ctl 36 3
def RingDesc.cscope (d : RingDesc) : Nat := fieldOf d.ctl 39 3
def RingDesc.pclosed (d : RingDesc) : Bool := d.ctl.getLsbD 42
def RingDesc.cclosed (d : RingDesc) : Bool := d.ctl.getLsbD 43
def RingDesc.eosv (d : RingDesc) : Bool := d.ctl.getLsbD 44

/-- Counter differences modulo 2n. -/
def RingDesc.diff (d : RingDesc) (a b : Nat) : Nat := (a + d.m - b % d.m) % d.m

/-- Byte offset of the slot with a counter from the base. -/
def RingDesc.slotOff (d : RingDesc) (c : Nat) : Nat := c % d.n * d.size

/-- The kind and loc of a handle are assigned and its where field is well formed (R214, R219 reason 1). -/
def handleOk (h : Word) : Bool :=
  decide (fieldOf h 60 4 ≤ 3) &&
  ((fieldOf h 56 4 == 0 && fieldOf h 0 6 == 0) ||
   (fieldOf h 56 4 == 1 && decide (fieldOf h 6 8 ≤ 191) && fieldOf h 14 42 == 0))

/-- The zero fields of notify (R217). -/
def notifyOk (v : Word) : Bool :=
  fieldOf v 56 6 == 0 &&
  (if v.getLsbD 62 then fieldOf v 0 3 == 0 else fieldOf v 16 40 == 0)

/-- The counter relations of R215. -/
def RingDesc.countersOk (d : RingDesc) : Bool :=
  let a := d.diff d.acq d.head
  let b := d.diff d.tail d.acq
  let c := d.diff d.resv d.tail
  decide (d.head < d.m) && decide (d.acq < d.m) && decide (d.tail < d.m) && decide (d.resv < d.m) &&
  decide (a + b + c ≤ d.n) && decide (a ≤ 64) && decide (c ≤ 64)

/-- The descriptor fits its handle (R219 reason 2, R230). -/
def RingDesc.ok (d : RingDesc) (h : Word) : Bool :=
  fieldOf d.ctl 45 19 == 0 && fieldOf d.ctl 8 8 == 0 && d.last == 0 &&
  d.kind == fieldOf h 60 4 && d.loc == fieldOf h 56 4 &&
  decide (3 ≤ fieldOf d.ctl 32 4) && decide (fieldOf d.ctl 32 4 ≤ 9) &&
  decide (2 ≤ d.n) && (d.loc == 0 || decide (d.n ≤ 4096)) &&
  decide (d.pscope ≤ 5) && decide (d.cscope ≤ 5) &&
  (if d.kind = 1 then decide (1 ≤ d.window) && decide (d.window ≤ 256) else d.window == 0) &&
  d.base.toNat % d.size == 0 && d.countersOk && notifyOk d.notify &&
  (d.kind != 3 || (d.size == 128 && d.loc == 0))

/-! ## Reaching a descriptor (R219, R220) -/

/-- A ring as an operation has found it: the handle, the virtual address of its descriptor (for a ring-table entry, which has
none, its physical address; log entry 52), its physical address, and the cluster and gang of a loc 1 ring. -/
structure RingRef where
  handle  : Word
  va      : Word
  pa      : Nat
  cluster : Nat
  gang    : Option Gang
  deriving DecidableEq, Repr

/-- A RING-SERVICE fault (R219). -/
def ringFault {α : Type} (reason : Nat) : M α := trap 26 (wordOf reason)

/-- The limit of a gang's ring slots: its FIFO storage below the arrival areas of its contexts (R162). -/
def Gang.ringLimit (g : Gang) : Nat := 0x2_0000 * g.banks.length - 4096 * g.hctx

/-- The descriptor line of a handle. A loc 1 entry belongs to the gang of the context, where the context is a gang's. -/
def ringPlace (p : Party) (h : Word) : M RingRef := do
  if !handleOk h then ringFault 1
  let whr := fieldOf h 0 56
  if fieldOf h 56 4 = 0 then
    let va := wordOf whr
    let t ← translateM p.ctx va .store
    match region t.pa with
    | .agent | .host _ => do noTx p; throw (.mem (.access .store va))
    | _ => return { handle := h, va := va, pa := t.pa, cluster := 0, gang := none }
  else
    let c := whr / 64
    let e := whr % 64
    match (← get).entryGang c e with
    | none => ringFault 6
    | some g =>
      if p.ctx.gang.isSome ∧ p.ctx.gang ≠ some g.number then ringFault 6
      return { handle := h, va := wordOf (ringTableEntry c e), pa := ringTableEntry c e, cluster := c, gang := some g }

/-- Another operation on a ring in peer memory is under way: its read of the descriptor, or writes that the peer has not
acknowledged (R220, R231). -/
def State.ringBusy (s : State) (p : Party) (pa : Nat) : Bool :=
  match region pa with
  | .peer _ _ => s.dev.requests.any fun q =>
      (q.write && lineOf q.pa == lineOf pa) || (q.pa == pa && q.size == 64 && (q.hart != p.self || q.engine != p.engine))
  | _ => false

/-- The 64 bytes of a descriptor. Operations of this device on one ring in peer memory follow one another (log entry 36). -/
def ringBytes (p : Party) (r : RingRef) : M Nat := do
  let s ← get
  if r.gang.isSome then (if s.inTx p then txRead p r.va r.pa 64 else return s.physLoad r.pa 64)
  else
    if s.ringBusy p r.pa then hold .remote
    loadPa p r.va .store r.pa 64 true

/-- Opens a ring: every check of R219 that does not depend on the operation. -/
def openRing (p : Party) (h : Word) : M (RingRef × RingDesc) := do
  let r ← ringPlace p h
  let d := RingDesc.ofNat (← ringBytes p r)
  if !d.ok h then ringFault 2
  match r.gang with
  | some g => if g.ringLimit < d.base.toNat + d.n * d.size then ringFault 6
  | none => pure ()
  return (r, d)

/-- Writes the words of a descriptor that an operation has changed. -/
def saveRing (p : Party) (r : RingRef) (old new : RingDesc) : M Unit :=
  forM' (fun (k : Nat) => do
    let a := old.words.getD k 0
    let b := new.words.getD k 0
    if a ≠ b then
      if r.gang.isSome then
        (if (← get).inTx p then txWrite p (r.va + wordOf (8 * k)) (r.pa + 8 * k) 8 b else plainWrite p (r.pa + 8 * k) 8 b)
      else storePa p (r.va + wordOf (8 * k)) (r.pa + 8 * k) 8 b true) (List.range 8)

/-- The virtual address of a slot: for loc 1, its place in the gang window (R247). -/
def slotAddr (c : TransCtx) (d : RingDesc) (k : Nat) : Word :=
  (if d.loc = 0 then d.base else c.sbase + 0x40_0000#64 + d.base) + wordOf (d.slotOff k)

/-! ## Transitions of a descriptor (R224, R225) -/

/-- Ring statuses (R221). -/
def stOk : Nat := 0
def stFull : Nat := 1
def stEmpty : Nat := 2
def stClosed : Nat := 3

/-- What a reservation or an acquisition finds: status, counter, and whether the slot is the end of stream. -/
structure RingTaken where
  st      : Nat
  counter : Nat
  eos     : Bool
  deriving DecidableEq, Repr

def RingDesc.reserve (d : RingDesc) : RingTaken × RingDesc :=
  if d.pclosed || d.cclosed then ({ st := stClosed, counter := 0, eos := false }, d)
  else if d.diff d.resv d.head = d.n ∨ d.diff d.resv d.tail = 64 then
    ({ st := stFull, counter := 0, eos := false }, d)
  else ({ st := stOk, counter := d.resv, eos := false }, { d with resv := (d.resv + 1) % d.m })

/-- Moves a counter past the run of set bits at the low end of a mask. -/
def passRun (m : Nat) : Nat → Word → Nat → Word × Nat
  | 0, mask, c => (mask, c)
  | fuel + 1, mask, c => if mask.getLsbD 0 then passRun m fuel (mask >>> 1) ((c + 1) % m) else (mask, c)

def RingDesc.commit (d : RingDesc) (c : Nat) (eos : Bool) : RingDesc :=
  let j := d.diff c d.tail
  let mask := if j < 64 then setField d.cmask j 1 1 else d.cmask
  let run := passRun d.m 64 mask d.tail
  let d1 := { d with cmask := run.1, tail := run.2 }
  let d2 := if eos && !d.eosv then { d1 with eosidx := c, ctl := setField d1.ctl 44 1 1 } else d1
  if eos then { d2 with ctl := setField d2.ctl 42 1 1 } else d2

def RingDesc.acquire (d : RingDesc) : RingTaken × RingDesc :=
  if d.cclosed then ({ st := stClosed, counter := 0, eos := false }, d)
  else if d.acq ≠ d.tail ∧ d.diff d.acq d.head < 64 then
    ({ st := stOk, counter := d.acq, eos := d.eosv && d.acq == d.eosidx }, { d with acq := (d.acq + 1) % d.m })
  else if d.pclosed && d.acq == d.tail && d.resv == d.tail then ({ st := stClosed, counter := 0, eos := false }, d)
  else ({ st := stEmpty, counter := 0, eos := false }, d)

def RingDesc.release (d : RingDesc) (c : Nat) : RingDesc :=
  let j := d.diff c d.head
  let mask := if j < 64 then setField d.rmask j 1 1 else d.rmask
  let run := passRun d.m 64 mask d.head
  { d with rmask := run.1, head := run.2 }

/-- RSTAT's state word (R227). -/
def RingDesc.state (d : RingDesc) : Word :=
  let w := setField (setField (setField (setField 0#64 60 4 d.kind) 56 4 d.loc) 50 1 (if d.cclosed then 1 else 0))
    49 1 (if d.pclosed then 1 else 0)
  setField (setField (setField (setField (setField w 48 1 (if d.eosv then 1 else 0)) 41 7 (d.diff d.acq d.head))
    34 7 (d.diff d.resv d.tail)) 17 17 (d.n - d.diff d.resv d.head)) 0 17 (d.diff d.tail d.acq)

/-! ## Owner fields (R232) -/

/-- The owner field of a slot changes, which is a write of the slot's line (R207). -/
def State.setOwner (s : State) (self : Option HartId) (cluster pa : Nat) (owned : Bool) : State :=
  (s.modCluster (ClusterId.ofIndex cluster) fun k =>
    { k with owners := if owned then (k.owners.filter fun o => o != pa) ++ [pa] else k.owners.filter fun o => o != pa }).noteLine
    self (lineOf pa)

/-- The owner field of a slot of a loc 1 ring changes: at once, or at the commit of the party's transaction (R205). -/
def flipOwner (p : Party) (r : RingRef) (d : RingDesc) (c : Nat) (owned : Bool) : M Unit := do
  match r.gang.bind fun g => g.fifoPa (d.base.toNat + d.slotOff c) with
  | none => pure ()
  | some pa =>
    if (← get).inTx p then txFlip (slotAddr p.ctx d c) pa owned
    else do
      awaitLines p pa 1
      modify fun s => s.setOwner p.self r.cluster pa owned

/-! ## Beacons and notifications (R217, R228, R229) -/

/-- A hardware write of a beacon register: a host beacon, a launch beacon or a graphics agent's beacon; nothing else is
a beacon. -/
def writeBeacon (pa : Nat) (v : Word) : M Unit := do
  match region pa with
  | .agent =>
    match agentReg pa with
    | .hostBeacon b => modify fun s => s.writeHostBeacon false b v
    | .launchBeacon d r => modify fun s => s.post [.launchRingService d r]
    | .graphics id 0x18 => modify fun s => s.writeAgent id 0x18 v
    | _ => pure ()
  | _ => pure ()

/-- The core that a target word names (R165), and its channel. -/
def targetCore (w : Word) : CoreId := { die := fieldOf w 14 2, cluster := fieldOf w 8 6, core := fieldOf w 5 3 }
def targetChan (w : Word) : Nat := fieldOf w 0 5

/-- The record of a ring commit (R228); its tick is filled in at delivery. -/
def commitRecord (h : Word) (d : RingDesc) : List Byte :=
  lowBytes 8 h.toNat ++ lowBytes 4 d.tail ++ lowBytes 4 1 ++ lowBytes 8 0 ++
  lowBytes 2 ((if d.pclosed then 1 else 0) + (if d.eosv then 2 else 0)) ++ List.replicate 38 0#8

/-- An arrival on its way to the channel that a target word names. One to a cluster that no die has reaches no core (log
entry 51). -/
def postArrival (target : Word) (a : Arrival) : M Unit := do
  if (targetCore target).cluster < 48 then modify fun s => s.post [.channelArrival (targetCore target) a]

/-- Sends the notification of an event on a ring, if notify is enabled. -/
def sendNotify (h : Word) (pa : Nat) (d : RingDesc) : M Unit := do
  if d.notify.getLsbD 63 then
    if d.notify.getLsbD 62 then writeBeacon (fieldOf d.notify 0 56) (wordOf d.tail)
    else
      postArrival d.notify
        { chan := targetChan d.notify, kind := 1, source := some pa, len := 64, record := commitRecord h d }

/-- Adds a deferred action to the transaction (R205). -/
def deferSend (f : Nat → Deferred) : M Unit := modH fun h =>
  match h.tx with
  | some t => { h with tx := some { t with sends := t.sends ++ [f t.level] } }
  | none => h

/-- A notification, at once or after the commit of the party's transaction. -/
def notifyRing (p : Party) (r : RingRef) (d : RingDesc) : M Unit := do
  if (← get).inTx p then
    if d.notify.getLsbD 63 then deferSend fun lv => .notify lv r.handle
  else sendNotify r.handle r.pa d

/-! ## Operations of a party without a slot list -/

/-- Commits the slot with a counter: its bit, its owner field, and the notification of a tail advance or an end of
stream. The answer is the status. -/
def commitSlot (p : Party) (r : RingRef) (d : RingDesc) (c : Nat) (eos : Bool) : M Nat := do
  let d1 := d.commit c eos
  saveRing p r d d1
  flipOwner p r d c true
  if d1.tail ≠ d.tail ∨ eos then notifyRing p r d1
  return if d.cclosed then stClosed else stOk

/-- Releases the slot with a counter. -/
def releaseSlot (p : Party) (r : RingRef) (d : RingDesc) (c : Nat) : M Unit := do
  saveRing p r d (d.release c)
  flipOwner p r d c false

/-! ## The slot list (R222) -/

/-- The slot list as the hart sees it: inside a transaction, as the commit would leave it. -/
def Hart.slotList (h : Hart) : List SlotEntry :=
  match h.tx with
  | some t => match t.slots.getLast? with
    | some l => l.2
    | none => h.slots
  | none => h.slots

def Hart.setSlotList (h : Hart) (l : List SlotEntry) : Hart :=
  match h.tx with
  | some t => { h with tx := some { t with slots := t.slots ++ [(t.level, l)] } }
  | none => { h with slots := l }

/-- Without the first entry equal to one. -/
def dropEntry (e : SlotEntry) : List SlotEntry → List SlotEntry
  | [] => []
  | f :: l => if f = e then l else f :: dropEntry e l

/-- rstat (R221). -/
def rstatWord (op st index : Nat) (eos : Bool) : Word :=
  setField (setField (setField (setField 0#64 32 32 index) 8 5 op) 4 1 (if eos then 1 else 0)) 0 4 st

def setRstat (op st index : Nat) (eos : Bool) : M Unit := modH fun h => { h with rstat := rstatWord op st index eos }

/-! ## Attached reservations (R313) -/

def State.attachment (s : State) (ring counter : Nat) : Option SlotEntry :=
  (s.dev.attached.find? fun a => a.ring == ring && a.counter == counter).map Attachment.entry

/-- Takes an attachment off its slot: at once, or at the commit. -/
def takeAttachment (p : Party) (ring counter : Nat) : M Unit := do
  if (← get).inTx p then
    modH fun h =>
      match h.tx with
      | some t => { h with tx := some { t with taken := t.taken ++ [(t.level, ring, counter)] } }
      | none => h
  else
    modify fun s => { s with dev := { s.dev with
      attached := s.dev.attached.filter fun a => !(a.ring == ring && a.counter == counter) } }

/-! ## The instructions -/

/-- R205: system scope aborts a transaction with SYSTEM. R230: what a kind allows. R32: older accesses first. -/
def ringStart (scope : BitVec 3) : M Party := do
  if scope = 5#3 then abortIfTx 6
  waitOlder
  let p ← ownParty
  settleStreams p
  return p

/-- The kinds that allow an operation (R230). -/
def ringAllows (kind op : Nat) : Bool :=
  match kind with
  | 1 => [6, 7, 8].contains op
  | 3 => [0, 1, 4, 6, 8].contains op
  | _ => true

/-- Opens the ring that an instruction names, for an operation. -/
def openFor (p : Party) (h : Word) (op : Nat) : M (RingRef × RingDesc) := do
  let x ← openRing p h
  if !ringAllows x.2.kind op then ringFault 3
  return x

/-- The release role of an operation, outside a transaction (R205, R220). -/
def ringRelease (scope : BitVec 3) : M Unit := do
  if (← getH).tx.isNone then scalarRelease scope.toNat

/-- RRES (R224). -/
def rresOp (scope : BitVec 3) (svc : BitVec 1) (rd rs1 : Reg) : M Unit := do
  let p ← ringStart scope
  let x ← openFor p (← readX rs1) 0
  let t := x.2.reserve
  let h ← getH
  if t.1.st = stFull ∧ svc = 1#1 ∧ x.2.kind = 2 ∧ h.tx.isNone then ringFault 0
  if t.1.st = stOk then
    if 8 ≤ h.slotList.length then ringFault 5
    saveRing p x.1 x.2 t.2
    modH fun k => k.setSlotList (k.slotList ++ [{ handle := x.1.handle, consumer := false, counter := t.1.counter }])
  setRstat 0 t.1.st t.1.counter false
  writeX rd (if t.1.st = stOk then slotAddr p.ctx x.2 t.1.counter else 0#64)
  advance 4

/-- The descriptor line that a full RRES.t waits for (R232). -/
def waitLine (s : State) (handle : Word) : Option Nat :=
  match (do return (← ringPlace (← ownParty) handle).pa : M Nat) s with
  | .ok pa _ => some (lineOf pa)
  | .error _ _ => none

/-- RRES. A full agent ring under .t parks the hart, and the Lantern wakes it when the descriptor line is written
(R232). -/
def execRres (scope : BitVec 3) (svc : BitVec 1) (rd rs1 : Reg) (s : State) : Host.Outcome State Fault Refusal :=
  match rresOp scope svc rd rs1 s with
  | .ok _ t => .next t.goesOn
  | .error e t =>
    match waitLine s (s.rx rs1), e with
    | some line, .trap { cause := 26, tval := 0, vf := _ } =>
      let u := (s.keepWalks t).fault { cause := 26, tval := 0#64, vf := none } s.hart.pc
      .next (u.modCluster s.hart.id.clusterId fun c => { c with wakeup := c.wakeup ++ [(s.hart.id, line)] })
    | _, _ => s.ended e t

/-- RCOM (R224). -/
def execRcom (scope : BitVec 3) (eos : BitVec 1) (rs1 : Reg) (s : State) : Host.Outcome State Fault Refusal :=
  runScalar (do
    let p ← ringStart scope
    let x ← openFor p (← readX rs1) 1
    let l := (← getH).slotList
    match l.find? fun e => e.handle == x.1.handle && !e.consumer with
    | none => ringFault 4
    | some e => do
      ringRelease scope
      modH fun h => h.setSlotList (dropEntry e l)
      let st ← commitSlot p x.1 x.2 e.counter (eos == 1#1)
      setRstat 1 st e.counter false
      advance 4) s

/-- RACQ (R225, R313). -/
def execRacq (scope : BitVec 3) (rd rs1 : Reg) (s : State) : Host.Outcome State Fault Refusal :=
  runScalar (do
    let p ← ringStart scope
    let x ← openFor p (← readX rs1) 2
    let t := x.2.acquire
    if t.1.st = stOk then
      let l := (← getH).slotList
      let att := (← get).attachment x.1.pa t.1.counter
      let more := [{ handle := x.1.handle, consumer := true, counter := t.1.counter }] ++ att.toList
      if 8 < l.length + more.length then ringFault 5
      saveRing p x.1 x.2 t.2
      modH fun h => h.setSlotList (l ++ more)
      if att.isSome then takeAttachment p x.1.pa t.1.counter
    setRstat 2 t.1.st t.1.counter t.1.eos
    writeX rd (if t.1.st = stOk then slotAddr p.ctx x.2 t.1.counter else 0#64)
    advance 4) s

/-- RREL (R225). -/
def execRrel (scope : BitVec 3) (rs1 : Reg) (s : State) : Host.Outcome State Fault Refusal :=
  runScalar (do
    let p ← ringStart scope
    let x ← openFor p (← readX rs1) 3
    let l := (← getH).slotList
    match l.find? fun e => e.handle == x.1.handle && e.consumer with
    | none => ringFault 4
    | some e => do
      ringRelease scope
      modH fun h => h.setSlotList (dropEntry e l)
      releaseSlot p x.1 x.2 e.counter
      setRstat 3 stOk e.counter false
      advance 4) s

/-- RPUSH (R226). -/
def execRpush (scope : BitVec 3) (rs1 rs2 : Reg) (s : State) : Host.Outcome State Fault Refusal :=
  runScalar (do
    let p ← ringStart scope
    let x ← openFor p (← readX rs1) 4
    ringRelease scope
    let t := x.2.reserve
    if t.1.st = stOk then
      storeVa p (slotAddr p.ctx x.2 t.1.counter) 8 (← readX rs2).toNat
      let d1 := t.2.commit t.1.counter false
      saveRing p x.1 x.2 d1
      flipOwner p x.1 x.2 t.1.counter true
      if d1.tail ≠ x.2.tail then notifyRing p x.1 d1
    setRstat 4 t.1.st t.1.counter false
    advance 4) s

/-- RPOP (R226, R313). -/
def execRpop (scope : BitVec 3) (rd rs1 : Reg) (s : State) : Host.Outcome State Fault Refusal :=
  runScalar (do
    let p ← ringStart scope
    let x ← openFor p (← readX rs1) 5
    let t := x.2.acquire
    if t.1.st = stOk then
      let l := (← getH).slotList
      let att := (← get).attachment x.1.pa t.1.counter
      if att.isSome && decide (8 < l.length + 2) then ringFault 5
      let v ← loadVa p (slotAddr p.ctx x.2 t.1.counter) .load 8
      saveRing p x.1 x.2 (t.2.release t.1.counter)
      flipOwner p x.1 x.2 t.1.counter false
      if att.isSome then
        modH fun h => h.setSlotList (l ++ att.toList)
        takeAttachment p x.1.pa t.1.counter
      writeX rd (wordOf v)
    else writeX rd 0#64
    setRstat 5 t.1.st t.1.counter t.1.eos
    advance 4) s

/-- RSTAT (R227). -/
def execRstat (scope : BitVec 3) (rd rs1 : Reg) (s : State) : Host.Outcome State Fault Refusal :=
  runScalar (do
    let p ← ringStart scope
    let x ← openFor p (← readX rs1) 6
    setRstat 6 stOk 0 false
    writeX rd x.2.state
    advance 4) s

/-- RBEACON (R229): deferred inside a transaction, at most four deferred sends (R200, R205). -/
def deferredSends (t : Tx) : Nat :=
  (t.sends.filter fun d => match d with
    | .notify _ _ | .close _ _ => false
    | _ => true).length

def execRbeacon (scope : BitVec 3) (rs1 rs2 : Reg) (s : State) : Host.Outcome State Fault Refusal :=
  runScalar (do
    let p ← ringStart scope
    let x ← openFor p (← readX rs1) 8
    ringRelease scope
    if x.2.notify.getLsbD 62 then
      let pa := fieldOf x.2.notify 0 56
      let v ← readX rs2
      match (← getH).tx with
      | some t =>
        if 4 ≤ deferredSends t then throw (.abort 2 0)
        deferSend fun lv => .beacon lv pa v scope.toNat
      | none => writeBeacon pa v
    setRstat 8 stOk 0 false
    advance 4) s

/-! ## Retirement at HDONE (R223, R314) -/

/-- One entry of the slot list is retired at its side's scope; an invalid descriptor or a faulting access drops it. -/
def retireEntry (p : Party) (e : SlotEntry) : M Unit := fun s =>
  match (do
      let x ← openRing p e.handle
      release (if e.consumer then x.2.cscope else x.2.pscope)
      if e.consumer then releaseSlot p x.1 x.2 e.counter
      else
        if x.2.kind = 2 then storeVa p (slotAddr p.ctx x.2 e.counter) 8 0
        let _ ← commitSlot p x.1 x.2 e.counter false
        pure () : M Unit) s with
  | .ok _ t => .ok () t
  | .error (.held w) t => .error (.held w) t
  | .error _ t => .ok () (s.keepWalks t)

/-- Every entry, oldest first: whether all have been retired. Where one must wait after others have gone, those stay gone,
so that what they have written can be waited for, and the instruction executes again for the rest. -/
def retireSlots (p : Party) : Bool → List SlotEntry → M Bool
  | _, [] => do
    modH fun h => { h with slots := [] }
    return true
  | some_, e :: l => fun s =>
    match retireEntry p e s with
    | .ok _ t => retireSlots p true l t
    | .error x t => if some_ then .ok false { s with hart := { s.hart with slots := e :: l } } else .error x t

/-! ## Owner fields by address (R288, R289) -/

/-- The handle, descriptor and slot index of the loc 1 ring of the hart's gang in which a window address lies. -/
def ringAtAddr (p : Party) (va : Word) : M (Option (RingRef × RingDesc × Nat)) := do
  let s ← get
  match p.ctx.gang.bind s.gang with
  | none => return none
  | some g =>
    let off := (va - p.ctx.sbase - 0x40_0000#64).toNat
    let cluster := g.die * 48 + g.cluster
    let found := (g.banks.flatMap fun b => [2 * b, 2 * b + 1]).findSome? fun e =>
      let pa := ringTableEntry cluster e
      let d := RingDesc.ofNat (s.physLoad pa 64)
      if d.loc = 1 ∧ 3 ≤ fieldOf d.ctl 32 4 ∧ fieldOf d.ctl 32 4 ≤ 9 ∧ d.base.toNat ≤ off ∧
          off < d.base.toNat + d.n * d.size then
        some (({ handle := wordOf (d.kind * 2 ^ 60 + 2 ^ 56 + 64 * cluster + e), va := wordOf pa, pa := pa,
                 cluster := cluster, gang := some g } : RingRef), d, (off - d.base.toNat) / d.size)
      else none
    return found

end Sys2Proof.Machine
end

