-- ==== Sys2Proof/Machine/Graphs.lean ====
section
/-! DEFINITION. Delta graphs (16 R346 to R351): the in-flight count, the quiet word, and the harts that are active in a
graph. -/

namespace Sys2Proof.Machine

/-! ## The quiet word (R347, R349) -/

/-- The physical address of the quiet word of a graph. -/
def quietPa (graph : Nat) : Nat := graph + 128

/-- Changes the quiet word as the detector has it; a write replaces what software has stored there meanwhile (R346). -/
def State.setQuiet (s : State) (graph : Nat) (f : Word → Word) : State :=
  match s.dev.graphs.find? fun g => g.pa == graph with
  | some g =>
    let new := f g.quiet
    if new = g.quiet then s
    else ({ s with dev := { s.dev with
        graphs := s.dev.graphs.map fun g => if g.pa = graph then { g with quiet := new } else g } } : State).physStore none
      (quietPa graph) 8 new.toNat
  | none => s

/-- A ring or an arrangement is bound to a graph: the detector goes on from where it was, or from the descriptor as it
stands if it has not seen the graph before or if software has written the quiet word since the last object left
(R346, R349, log entry 53). -/
def State.openGraph (s : State) (graph : Nat) (va : Word) (asid : Nat) : State :=
  let word := wordOf (s.physLoad (quietPa graph) 8)
  let bound := s.dev.members.any fun x => x.graph == graph
  if s.dev.graphs.any fun g => g.pa == graph && (bound || g.quiet == word) then s
  else { s with dev := { s.dev with
    graphs := (s.dev.graphs.filter fun g => g.pa != graph) ++
      [{ pa := graph, va := va, asid := asid, quiet := word, cleared := false, zero := false }] } }

/-- The records of a ring that its graph counts (R348). -/
def State.ringCount (s : State) (pa : Nat) : Nat :=
  let d := RingDesc.ofNat (s.physLoad pa 64)
  (match s.dev.rings.find? fun r => r.pa == pa with
    | some r => r.open_.length + ((r.pending.map List.length).getD 0)
    | none => 0) + d.diff d.tail d.acq

/-- A graph's in-flight count (R348). -/
def State.graphCount (s : State) (graph : Nat) : Nat :=
  ((s.dev.members.filter fun m => m.graph == graph).map fun m => s.ringCount m.pa).sum +
  (s.harts.filter fun h => h.graphs.contains graph).length

def State.modGraph (s : State) (graph : Nat) (f : Graph → Graph) : State :=
  { s with dev := { s.dev with graphs := s.dev.graphs.map fun g => if g.pa = graph then f g else g } }

/-- Clears quiet (R349). -/
def State.clearQuiet (s : State) (graph : Nat) : State :=
  (s.setQuiet graph fun v => v &&& ~~~1#64).modGraph graph fun g => { g with cleared := true, zero := false }

/-- The count may have reached zero: the detector sees the instant and sets quiet in an event of its own (R349). -/
def State.noteGraph (s : State) (graph : Nat) : State :=
  match s.dev.graphs.find? fun g => g.pa == graph with
  | some g =>
    if g.cleared && !g.zero && s.graphCount graph == 0 then
      (s.modGraph graph fun g => { g with zero := true }).post [.quietSet g.asid g.va.toNat]
    else s
  | none => s

/-- A flag bit of the quiet word, which stays set. -/
def State.graphFlag (s : State) (graph bit : Nat) : State := s.setQuiet graph fun v => setField v bit 1 1

/-- Records of an arrangement or ring were kept split (R340, R345). -/
def State.graphOvf (s : State) (graph : Nat) : State := s.graphFlag graph 1

/-- QUIET_SET (R349): epoch counts the sets. -/
def execQuietSet (asid graph : Nat) (s : State) : Host.Outcome State Fault Refusal :=
  match s.dev.graphs.find? fun g => g.asid == asid && g.va.toNat == graph with
  | some g =>
    if g.cleared && g.zero then
      .next ((s.setQuiet g.pa fun v => setField (setField v 32 32 (fieldOf v 32 32 + 1)) 0 1 1).modGraph g.pa
        fun g => { g with cleared := false, zero := false })
    else .next s
  | none => .next s

/-! ## Active harts (R348) -/

/-- A hart becomes active in a graph. -/
def State.enterGraph (s : State) (id : HartId) (graph : Nat) : State :=
  if ((s.findHart id).map fun h => h.graphs.contains graph).getD false then s
  else (s.modHart id fun h => { h with graphs := h.graphs ++ [graph] }).clearQuiet graph

/-- The graph of a ring, by the ring's descriptor. -/
def State.graphOf (s : State) (pa : Nat) : Option GraphMember := s.dev.members.find? fun m => m.pa == pa

/-- A hart stops being active in a list of graphs. -/
def State.leaveGraphs (s : State) (id : HartId) (graphs : List Nat) : State :=
  graphs.foldl (fun t g => t.noteGraph g)
    (s.modHart id fun h => { h with graphs := h.graphs.filter fun g => !graphs.contains g })

/-- A contained hart stops being active; its graphs show the fault (R351). -/
def State.faultGraphs (s : State) (id : HartId) : State :=
  let gs := ((s.findHart id).map Hart.graphs).getD []
  (gs.foldl (fun t g => t.graphFlag g 2) s).leaveGraphs id gs

end Sys2Proof.Machine
end

