-- ==== Sys2Proof/Machine/Units.lean ====
section
/-! DEFINITION. The consolidation unit of a delta ring (16 R336 to R343): records, hash order, Offer, Seal and Drain; and
RCLOSE, which seals (10 R228). -/

namespace Sys2Proof.Machine

/-! ## Records (R336 to R338) -/

/-- The record of 32 zero bytes. -/
def DeltaRec.zero : DeltaRec := { key := 0#64, plo := 0#64, phi := 0#64, mult := 0, stage := 0, split := false }

/-- h of a key (R338). -/
def deltaHash (key : Word) : Nat := (fieldOf key 0 32 ^^^ fieldOf key 32 32) * 0x9E37_79B1 % 2 ^ 32

/-- Two records are equal (R336). -/
def DeltaRec.same (a b : DeltaRec) : Bool := a.key == b.key && a.plo == b.plo && a.phi == b.phi

/-- Strictly before in hash order (R338). -/
def DeltaRec.before (a b : DeltaRec) : Bool :=
  let ha := deltaHash a.key
  let hb := deltaHash b.key
  let pa := a.plo.toNat + 2 ^ 64 * a.phi.toNat
  let pb := b.plo.toNat + 2 ^ 64 * b.phi.toNat
  if ha ≠ hb then decide (ha < hb)
  else if a.key ≠ b.key then decide (a.key.toNat < b.key.toNat)
  else if pa ≠ pb then decide (pa < pb)
  else decide (a.mult < b.mult)

/-- Puts a record into a list in hash order, behind those it is not before. -/
def insertRec (r : DeltaRec) : List DeltaRec → List DeltaRec
  | [] => [r]
  | a :: l => if r.before a then r :: a :: l else a :: insertRec r l

/-- Hash order. -/
def hashOrder (l : List DeltaRec) : List DeltaRec := l.foldl (fun acc r => insertRec r acc) []

/-- meta of a record in a ring slot or an arrangement slot (R337). -/
def metaWord (r : DeltaRec) (eob : Bool) (state : Nat) : Nat :=
  r.stage % 256 + state * 2 ^ 24 + (if eob then 2 ^ 26 else 0) + (if r.split then 2 ^ 27 else 0)

/-- The 32 bytes of a record. -/
def DeltaRec.bytes (r : DeltaRec) (eob : Bool) (state : Nat) : List Byte :=
  lowBytes 8 r.key.toNat ++ lowBytes 8 r.plo.toNat ++ lowBytes 8 r.phi.toNat ++
  lowBytes 4 (r.mult % (2 ^ 32 : Nat)).toNat ++ lowBytes 4 (metaWord r eob state)

/-- The record that 32 bytes hold, with its meta word. -/
def DeltaRec.ofNat (b : Nat) : DeltaRec × Nat :=
  ({ key := wordOf (bitsAt b 0 64), plo := wordOf (bitsAt b 64 64), phi := wordOf (bitsAt b 128 64),
     mult := decodeInt true 32 (bitsAt b 192 32), stage := bitsAt b 224 8, split := bitsAt b 251 1 == 1 },
   bitsAt b 224 32)

/-- A multiplicity fits 32 bits. -/
def fitsMult (m : Int) : Bool := decide (-(2 ^ 31 : Int) ≤ m) && decide (m < (2 ^ 31 : Int))

/-! ## A ring at its unit (R339, R342) -/

/-- A delta ring as an operation has found it. -/
structure DeltaAt where
  p    : Party
  r    : RingRef
  unit : Nat
  deriving DecidableEq, Repr

/-- The unit of a loc 0 ring: its descriptor line's home slice; of a loc 1 ring: its cluster (R342). -/
def unitOf (r : RingRef) (skew : Nat) : Nat := if r.gang.isSome then 1000 + r.cluster else homeSlice r.pa skew

def State.deltaRing (s : State) (d : DeltaAt) : DeltaRing :=
  (s.dev.rings.find? fun x => x.pa == d.r.pa).getD
    { pa := d.r.pa, unit := d.unit, open_ := [], pending := none, sealNext := false, handle := d.r.handle,
      satp := d.p.ctx.satp, sbase := d.p.ctx.sbase, gang := d.p.ctx.gang, priv := d.p.ctx.priv, sum := d.p.ctx.sum,
      die := d.p.ctx.die }

/-- Keeps a ring's set of batches while it holds any (R342). -/
def State.setDelta (s : State) (x : DeltaRing) : State :=
  let rest := s.dev.rings.filter fun y => y.pa != x.pa
  { s with dev := { s.dev with rings := if x.open_.isEmpty && x.pending.isNone then rest else rest ++ [x] } }

/-- The descriptor as it stands. -/
def DeltaAt.desc (d : DeltaAt) : M RingDesc := do return RingDesc.ofNat (← ringBytes d.p d.r)

/-- Writes a record into the slot with a counter. -/
def DeltaAt.put (d : DeltaAt) (q : RingDesc) (k : Nat) (bytes : List Byte) : M Unit := do
  match d.r.gang with
  | some g =>
    match g.fifoPa (q.base.toNat + q.slotOff k) with
    | some pa => plainWrite d.p pa 32 (bytesToNat bytes)
    | none => pure ()
  | none => storeBytes d.p (slotAddr d.p.ctx q k) bytes

/-- Reads the slot with a counter. -/
def DeltaAt.slot (d : DeltaAt) (q : RingDesc) (k : Nat) : M Nat := do
  match d.r.gang with
  | some g =>
    match g.fifoPa (q.base.toNat + q.slotOff k) with
    | some pa => plainRead (wordOf pa) .load pa 32
    | none => return 0
  | none => loadVa d.p (slotAddr d.p.ctx q k) .load 32

/-- Free slots (R227). -/
def RingDesc.free (q : RingDesc) : Nat := q.n - q.diff q.resv q.head

/-- The arrival of a drained batch (R343); its tick is filled in at delivery. -/
def batchRecord (handle graph : Word) (first : Nat) (l : List DeltaRec) (pclosed : Bool) : List Byte :=
  lowBytes 8 handle.toNat ++ lowBytes 8 graph.toNat ++ lowBytes 4 first ++ lowBytes 4 l.length ++ lowBytes 4 1 ++
  lowBytes 4 ((if l.any DeltaRec.split then 1 else 0) + (if pclosed then 2 else 0)) ++ lowBytes 8 0 ++ lowBytes 24 0

/-- The notification of a Drain (R343). -/
def DeltaAt.notify (d : DeltaAt) (q : RingDesc) (first : Nat) (l : List DeltaRec) : M Unit := do
  if q.notify.getLsbD 63 then
    if q.notify.getLsbD 62 then writeBeacon (fieldOf q.notify 0 56) (wordOf q.tail)
    else
      let va := (((← get).graphOf d.r.pa).map GraphMember.va).getD 0#64
      postArrival q.notify
        { chan := targetChan q.notify, kind := 2, source := some d.r.pa, len := 64,
          record := batchRecord d.r.handle va first l q.pclosed }

/-- Writes the pending batch into free slots, if they suffice (R340). -/
def DeltaAt.drainOnce (d : DeltaAt) : M Bool := do
  let x := (← get).deltaRing d
  match x.pending with
  | none => return false
  | some l => do
    let q ← d.desc
    if q.free < l.length then return false
    forM' (fun k => d.put q ((q.tail + k) % q.m) ((l.getD k DeltaRec.zero).bytes (k + 1 == l.length) 1))
      (List.range l.length)
    let t := (q.tail + l.length) % q.m
    let q1 := { q with tail := t, resv := t }
    saveRing d.p d.r q q1
    forM' (fun k => flipOwner d.p d.r q ((q.tail + k) % q.m) true) (List.range l.length)
    d.notify q1 q.tail l
    modify fun s => s.setDelta { x with pending := none }
    return true

/-- The open batch becomes the pending one, or waits for it (R340). -/
def DeltaAt.promote (d : DeltaAt) : M Bool := do
  let x := (← get).deltaRing d
  if x.open_.isEmpty then return false
  else if x.pending.isSome then
    modify fun s => s.setDelta { x with sealNext := true }
    return false
  else
    modify fun s => s.setDelta { x with pending := some (hashOrder x.open_), open_ := [], sealNext := false }
    return true

/-- Drain (R340): a batch marked "seal next" follows the one drained. At most two batches are there. -/
def DeltaAt.drain (d : DeltaAt) : M Unit := do
  if ← d.drainOnce then
    if ((← get).deltaRing d).sealNext then
      if ← d.promote then
        let _ ← d.drainOnce

/-- Seal (R340). -/
def DeltaAt.seal (d : DeltaAt) : M Unit := do
  if ← d.promote then d.drain

/-- Merges a record into the first equal one whose sum fits; none where there is none. -/
def mergeRec (r : DeltaRec) : List DeltaRec → Option (List DeltaRec)
  | [] => none
  | q :: l =>
    if q.same r && fitsMult (q.mult + r.mult) then
      some (if q.mult + r.mult = 0 then l else { q with mult := q.mult + r.mult } :: l)
    else (mergeRec r l).map fun m => q :: m

/-- Offer (R340, R342). -/
def DeltaAt.offer (d : DeltaAt) (r : DeltaRec) : M Bool := do
  let q ← d.desc
  if q.pclosed || q.cclosed then return false
  if r.mult = 0 then return true
  let s ← get
  let x := s.deltaRing d
  match mergeRec r x.open_ with
  | some l => do
    set (s.setDelta { x with open_ := l })
    return true
  | none =>
    let full := (s.dev.rings.filter fun y => y.unit == d.unit).length
    if q.window ≤ x.open_.length then return false
    else if 64 ≤ full ∧ !(s.dev.rings.any fun y => y.pa == d.r.pa) then return false
    else do
      let twin := x.open_.any fun y => y.same r
      let l := if twin then (x.open_.map fun y => if y.same r then { y with split := true } else y) ++ [{ r with split := true }]
        else x.open_ ++ [r]
      set (s.setDelta { x with open_ := l })
      if twin then
        modify fun s => match s.graphOf d.r.pa with
          | some m => s.graphOvf m.graph
          | none => s
      if q.window ≤ l.length then d.seal
      return true

/-- The seal and drain of a close (R341). -/
def DeltaAt.close (d : DeltaAt) : M Unit := do
  d.seal
  d.drain

/-- The unit of a ring that an operation has opened. -/
def deltaAt (p : Party) (r : RingRef) : M DeltaAt := do
  if r.gang.isSome then return { p := p, r := r, unit := unitOf r 0 }
  else
    let t ← translateM p.ctx r.va .store
    return { p := p, r := r, unit := unitOf r t.skew }

/-! ## RCLOSE (R228, R341) -/

def execRclose (scope : BitVec 3) (cons : BitVec 1) (rs1 : Reg) (s : State) : Host.Outcome State Fault Refusal :=
  runScalar (do
    let p ← ringStart scope
    let x ← openFor p (← readX rs1) 7
    ringRelease scope
    let bit := if cons = 1#1 then 43 else 42
    if !x.2.ctl.getLsbD bit then
      let d1 := { x.2 with ctl := setField x.2.ctl bit 1 1 }
      saveRing p x.1 x.2 d1
      if d1.kind = 1 then
        if (← get).inTx p then deferSend fun lv => .close lv x.1.handle
        else (← deltaAt p x.1).close
      if cons = 0#1 then notifyRing p x.1 (RingDesc.ofNat (← ringBytes p x.1))
    setRstat 7 stOk 0 false
    advance 4) s

end Sys2Proof.Machine
end

