-- ==== Sys2Proof/Machine/Handlers.lean ====
section
/-! DEFINITION. Channels, arrivals, handler runs, HBIND, HSEND, HDONE and PCLAIM (07 R160 to R169). -/

namespace Sys2Proof.Machine

/-! ## The handler table (R162, R163) -/

def entryCtx (w : Word) : Nat := fieldOf w 61 3
def entryPrio (w : Word) : Nat := fieldOf w 58 3
def entryValid (w : Word) : Bool := w.getLsbD 57

/-- Entry pc [56:2], sign-extended from bit 56. -/
def entryPc (w : Word) : Word := ((w.extractLsb' 0 57) &&& ~~~3#57).signExtend 64

/-- The channel as bound, if it is. -/
def Core.channel (k : Core) (c : Nat) : Option Channel :=
  match k.channels.find? fun x => x.1 == c with
  | some x => if entryValid x.2.entry then some x.2 else none
  | none => none

/-- The unserved records of a channel in arrival order, each with the context in whose arrival area it lies: a channel that
is bound again to another context keeps the records it has (R163, log entry 54). -/
def Core.unserved (k : Core) (c : Nat) : List (Nat × ArrivalSlot) :=
  k.arrivals.filter fun a => a.2.chan == c && !a.2.running

/-- The pending count: unserved records, plus one while the overflow flag is set, at most 255 (R164). -/
def Core.pending (k : Core) (c : Nat) : Nat :=
  match k.channel c with
  | some ch => min 255 ((k.unserved c).length + (if ch.overflow = 0 then 0 else 1))
  | none => 0

/-- What an idle place of the device holds as a hart. -/
def State.hartAt (s : State) (id : HartId) : Hart := (s.findHart id).getD (Hart.reset id)

/-- A gang is pre-empted when a STOP has parked one of its harts and none of them runs (R385, R388). -/
def State.preempted (s : State) (g : Gang) : Bool :=
  (g.harts.any fun h => (s.hartAt h).run == .parked && (s.hartAt h).parkCause == 255) &&
  g.harts.all fun h => [.parked, .ended, .dormant, .idle].contains (s.hartAt h).run

/-! ## Arrivals (R164) -/

/-- The physical address of a slot of a context's arrival area (R162). -/
def arrivalPa (g : Gang) (k slot : Nat) : Option Nat :=
  g.fifoPa (0x2_0000 * g.banks.length - 4096 * (k + 1) + 64 * slot)

/-- A free slot of a context's area. -/
def Core.freeSlot (k : Core) (ctx : Nat) : Option Nat :=
  (List.range 64).find? fun n => !(k.arrivals.any fun a => a.1 == ctx && a.2.slot == n)

/-- Sets the overflow flag of a channel. -/
def Core.overflowed (k : Core) (c : Nat) : Core :=
  { k with channels := k.channels.map fun x => if x.1 = c then (x.1, { x.2 with overflow := x.2.overflow + 1 }) else x }

/-- Byte offset of the count in the record of an arrival kind (R213, R228, R343). -/
def countOffset (kind : Nat) : Nat := if kind = 2 then 24 else 12

/-- Byte offset of the tick in the record of an arrival kind; none for an HSEND. -/
def tickOffset (kind : Nat) : Option Nat :=
  match kind with
  | 1 | 3 => some 16
  | 2 => some 32
  | _ => none

/-- Replaces bytes of a record. -/
def patchBytes (l : List Byte) (off : Nat) (bs : List Byte) : List Byte := l.take off ++ bs ++ l.drop (off + bs.length)

/-- The record as delivered now: kinds 1 to 3 show the tick CSR of the delivery. -/
def State.stamp (s : State) (a : Arrival) : List Byte :=
  match tickOffset a.kind with
  | some o => patchBytes a.record o (lowBytes 8 s.tickWord.toNat)
  | none => a.record

/-- Where an arrival goes: into an unserved record of its own source, a free slot of the context's area, or nowhere. -/
inductive ArrivalPlace where
  | unbound
  | full
  | merged (pa : Nat)
  | fresh (ctx slot pa : Nat)
  deriving DecidableEq, Repr

/-- The unserved record of a channel that an arrival adds to (R164). -/
def Core.sameSource (k : Core) (a : Arrival) : Option (Nat × ArrivalSlot) :=
  (k.unserved a.chan).find? fun r => a.kind != 0 && r.2.kind == a.kind && r.2.source.isSome && r.2.source == a.source

/-- The physical address of a slot of the arrival area of a context. -/
def State.areaPa (s : State) (id : HartId) (slot : Nat) : Option Nat :=
  match (s.hartAt id).placed with
  | some p => (s.gang p.gang).bind fun g => arrivalPa g p.number slot
  | none => none

/-- Where an arrival on a channel of a core goes (R164). -/
def State.arrivalPlace (s : State) (core : CoreId) (a : Arrival) : ArrivalPlace :=
  let k := s.core core
  match k.channel a.chan with
  | none => .unbound
  | some ch =>
    let ctx := entryCtx ch.entry
    match ((s.hartAt (core.hart ctx)).placed.map Placed.gang).bind s.gang with
    | none => .unbound
    | some g =>
      match k.sameSource a with
      | some r => ((s.areaPa (core.hart r.1) r.2.slot).map ArrivalPlace.merged).getD .unbound
      | none =>
        match (if s.preempted g then none else k.freeSlot ctx) with
        | some slot => ((s.areaPa (core.hart ctx) slot).map (ArrivalPlace.fresh ctx slot)).getD .unbound
        | none => .full

/-- The context of a channel may have a run to start. -/
def State.startChannel (s : State) (core : CoreId) (c : Nat) : State :=
  match (s.core core).channel c with
  | some ch =>
    let id := core.hart (entryCtx ch.entry)
    if (s.core core).pending c ≠ 0 ∧ (s.hartAt id).run = .dormant then s.post [.handlerRunStart id] else s
  | none => s

/-- Records an arrival: the state, and the status an HSEND reports (0 OK, 1 FULL, 2 UNBOUND). -/
def State.arrive (s : State) (core : CoreId) (a : Arrival) : State × Nat :=
  match s.arrivalPlace core a with
  | .unbound => (s, 2)
  | .merged pa =>
    let n := s.physLoad (pa + countOffset a.kind) 4
    let s1 := s.physStore none (pa + countOffset a.kind) 4 (n + 1)
    let fl := s.physLoad (pa + 28) 4 ||| bytesToNat ((a.record.drop 28).take 4)
    (if a.kind = 2 then s1.physStore none (pa + 28) 4 fl else s1, 0)
  | .fresh ctx slot pa =>
    let s1 := s.physStore none pa 64 (bytesToNat ((s.stamp a) ++ List.replicate (64 - a.record.length) 0#8))
    let rec_ : ArrivalSlot :=
      { slot := slot, chan := a.chan, kind := a.kind, source := a.source, len := a.len, running := false }
    ((s1.modCore core fun k => { k with arrivals := k.arrivals ++ [(ctx, rec_)] }).startChannel core a.chan, 0)
  | .full =>
    if a.kind = 0 then (s, 1)
    else ((s.modCore core fun k => k.overflowed a.chan).startChannel core a.chan, 1)

/-- The same, once no ordered attempt holds the line of the record (R212). -/
def deliverArrival (core : CoreId) (a : Arrival) : M Nat := do
  let s ← get
  match s.arrivalPlace core a with
  | .merged pa | .fresh _ _ pa => if s.lineHeld none (lineOf pa) then hold (s.lineWait (lineOf pa))
  | _ => pure ()
  set (s.arrive core a).1
  return (s.arrive core a).2

/-- CHANNEL_ARRIVAL (R164). -/
def execChannelArrival (c : CoreId) (a : Arrival) (s : State) : Host.Outcome State Fault Refusal :=
  runEvent (.channelArrival c a) (do let _ ← deliverArrival c a) s

/-! ## HBIND (R163) -/

/-- A CHANNEL-FAULT with its reason (R368). -/
def channelFault {α : Type} (reason : Nat) : M α := trap 29 (wordOf reason)

/-- Writes an entry of the handler table; an unbinding discards the channel's pending arrivals. -/
def Core.bind (k : Core) (c gang : Nat) (entry : Word) : Core :=
  let lostBefore := ((k.channels.find? fun x => x.1 == c).map fun x => x.2.overflow).getD 0
  if entryValid entry then
    { k with channels := assocSet c { entry := entry, gang := gang, overflow := lostBefore } k.channels }
  else
    { k with channels := assocSet c { entry := entry, gang := gang, overflow := 0 } k.channels,
             arrivals := k.arrivals.filter fun a => !(a.2.chan == c && !a.2.running) }

/-- A hart of the core is a handler context of a gang. -/
def State.isContext (s : State) (id : HartId) (gang : Nat) : Bool :=
  match (s.hartAt id).placed with
  | some p => p.ctx && p.gang == gang
  | none => false

/-- The channel is bound by another gang that is still placed. -/
def State.boundElsewhere (s : State) (core : CoreId) (c gang : Nat) : Bool :=
  match (s.core core).channel c with
  | some ch => ch.gang != gang && (s.gang ch.gang).isSome
  | none => false

def execHbind (rs1 rs2 : Reg) (s : State) : Host.Outcome State Fault Refusal :=
  runScalar (do
    abortIfTx 6
    let chan ← readX rs1
    let entry ← readX rs2
    let s ← get
    let core := s.hart.id.coreId
    let gang := (s.hart.placed.map Placed.gang).getD 0
    if fieldOf chan 5 59 ≠ 0 then channelFault 1
    if !s.isContext (core.hart (entryCtx entry)) gang then channelFault 2
    if s.boundElsewhere core (fieldOf chan 0 5) gang then channelFault 3
    if fieldOf entry 0 2 ≠ 0 then channelFault 4
    let c := fieldOf chan 0 5
    set ((s.modCore core fun k => k.bind c gang entry).startChannel core c)
    advance 4) s

/-! ## HSEND (R165) -/

def setSstat (st : Nat) : M Unit := modH fun h => { h with hinfo := setField h.hinfo 8 3 st }

/-- Delivers a payload to the channel of a target word. -/
def deliverSend (target : Word) (payload : List Byte) : M Unit := do
  let st ← deliverArrival (targetCore target)
    { chan := targetChan target, kind := 0, source := none, len := payload.length, record := payload }
  setSstat st

def execHsend (rs1 rs2 : Reg) (s : State) : Host.Outcome State Fault Refusal :=
  runScalar (do
    let target ← readX rs1
    let va ← readX rs2
    let len := fieldOf target 16 6 + 1
    if fieldOf target 22 42 ≠ 0 ∨ 47 < fieldOf target 8 6 then channelFault 5
    if 128 < va.toNat % 128 + len then throw (.mem (.misaligned .load va))
    waitOlder
    let p ← ownParty
    let payload ← loadBytes p va len
    match (← getH).tx with
    | some t =>
      if 4 ≤ deferredSends t then throw (.abort 2 0)
      deferSend fun lv => .hsend lv target payload
      setSstat 3
    | none => do
      scalarRelease 4
      deliverSend target payload
    advance 4) s

/-! ## Handler runs (R166) and HDONE (R168) -/

/-- The channel that a dormant context serves next: the highest priority, then the lowest number. -/
def Core.nextChannel (k : Core) (ctx : Nat) : Option Nat :=
  let mine := (List.range 32).filter fun c =>
    match k.channel c with
    | some ch => entryCtx ch.entry == ctx && decide (0 < k.pending c)
    | none => false
  mine.foldl (fun best c =>
    match best with
    | none => some c
    | some b => if ((k.channel b).map fun x => entryPrio x.entry).getD 0 <
        ((k.channel c).map fun x => entryPrio x.entry).getD 0 then some c else best) none

/-- hinfo at the start of a run (R167); sstat is the hart's own. -/
def runInfo (old : Word) (pending chan kind len : Nat) (ovf : Bool) : Word :=
  setField (setField (setField (setField (setField (setField (setField 0#64 32 8 pending) 31 1 (if ovf then 1 else 0))
    24 3 kind) 16 5 chan) 8 3 (fieldOf old 8 3)) 7 1 1) 0 7 len

/-- The registers of a context at the start of a run (R166). -/
def Hart.startRun (h : Hart) (pc a0 info : Word) (prio : Nat) (serving : Nat × Nat × Nat) : Hart :=
  let h1 := ((h.wx 10#5 a0).wx 11#5 info).wx 17#5 h.coord
  { h1 with
    run := .running, held := none, pc := pc, hinfo := info, vl := 0, vstart := 0, masks := [], vmsp := 0, age := 0,
    unselected := 0, fetchBuf := [], serving := some serving,
    placed := h.placed.map fun p => { p with prio := prio } }

/-- A run starts on a context, if it is dormant and has something to serve: the oldest record of the channel, or an
overflow run once no record is left. -/
def State.startRun (s : State) (id : HartId) : State :=
  let core := id.coreId
  let k := s.core core
  let h := s.hartAt id
  if h.run ≠ .dormant then s
  else
    match k.nextChannel id.hart with
    | none => s
    | some c =>
      match k.channel c with
      | none => s
      | some ch =>
        match k.unserved c with
        | (area, r) :: _ =>
          let k1 := { k with arrivals := k.arrivals.map fun a =>
            if a.1 = area ∧ a.2.slot = r.slot then (a.1, { a.2 with running := true }) else a }
          let info := runInfo h.hinfo (k1.pending c) c r.kind (if r.kind = 0 then r.len else 64) false
          let a0 := (s.hartAt (core.hart area)).hbase + wordOf (64 * r.slot)
          let t := (s.setCore core k1).modHart id fun h =>
            h.startRun (entryPc ch.entry) a0 info (entryPrio ch.entry) (c, area, r.slot)
          match (if r.kind = 2 then r.source.bind t.graphOf else none) with
          | some m => t.enterGraph id m.graph
          | none => t
        | [] =>
          let k1 := { k with channels := k.channels.map fun x =>
            if x.1 = c then (x.1, { x.2 with overflow := 0 }) else x }
          let info := runInfo h.hinfo (k1.pending c) c 7 64 true
          (s.setCore core k1).modHart id fun h =>
            h.startRun (entryPc ch.entry) 0#64 info (entryPrio ch.entry) (c, id.hart, 64)

/-- The hart stands without bindings and without a window (R152, R194). -/
def Hart.unbound (h : Hart) : Hart := { h with bindings := [], window := none }

/-- The threads of a gang have all ended and no context runs (R159). -/
def State.gangDone (s : State) (g : Gang) : Bool :=
  g.harts.all fun id =>
    let h := s.hartAt id
    match h.placed with
    | some p => if p.ctx then h.run == .dormant else h.run == .ended
    | none => true

/-- A gang that may have completed is looked at by the placement unit (R159). -/
def State.checkGang (s : State) (gang : Nat) : State :=
  match s.gang gang with
  | some g => if s.gangDone g then s.post [.gangCompletion gang] else s
  | none => s

/-- HDONE's own effect after its release and the retirements (R168): the end of a handler run, or of a thread. -/
def finishRun : M Unit := do
  modH fun h => { h.unbound with tiles := Vector.replicate 8 none }
  modify fun s => s.leaveGraphs s.hart.id s.hart.graphs
  let h ← getH
  let gang := (h.placed.map Placed.gang).getD 0
  match h.serving with
  | some (_, area, slot) => do
    modify fun s => (s.modCore h.id.coreId fun k => { k with
      arrivals := k.arrivals.filter fun a => !(a.1 == area && a.2.slot == slot) })
    modH fun k => { k with
      run := .dormant, serving := none, hinfo := setField k.hinfo 7 1 0, instret := k.instret + 1 }
    modify fun s => (s.post [.handlerRunStart h.id]).checkGang gang
  | none => do
    modH fun k => { k with run := .ended, instret := k.instret + 1 }
    modify fun s => s.checkGang gang

/-- The waits, the release, the retirements and the end of HDONE: whether it has got to its end. -/
def leaveRun : M Bool := do
  drain
  settleStreams (← ownParty)
  release 4
  let p ← ownParty
  let done ← retireSlots p false (← getH).slots
  if done then finishRun
  return done

/-! ## PCLAIM (R160, R161) -/

/-- Fields of a launch packet (R155). -/
def Launch.field (l : Launch) (off n : Nat) : Nat := bytesToNat ((l.packet.drop off).take n)

def Launch.rows (l : Launch) : Nat := l.field 28 4
def Launch.cols (l : Launch) : Nat := l.field 32 4

/-- The lowest die of a die mask. -/
def lowestDie (mask : Nat) : Nat := ((List.range 4).find? fun d => mask.testBit d).getD 0

/-- The panel handle of a launch (R160). -/
def Launch.panel (l : Launch) : Word :=
  setField (wordOf (lowestDie (l.field 26 1))) 8 8 (l.slot.getD 0)

/-- The panel that a handle names for a hart: its own launch's, or none. -/
def State.panelOf (s : State) (h : Hart) (handle : Word) : Option Launch :=
  match h.placed.bind fun p => s.launch p.launch with
  | some l => if l.slot.isSome && l.panel == handle then some l else none
  | none => none

def State.setLaunch (s : State) (l : Launch) : State :=
  { s with dev := { s.dev with launches := s.dev.launches.map fun m => if m.number = l.number then l else m } }

/-- A claim's grant word, its columns, and the dispenser after it (R161); none once the panel is exhausted. -/
def Launch.claim (l : Launch) (req vlmax : Nat) : Option (Word × Nat × Launch) :=
  if l.rows ≤ 32 * l.band ∨ l.cols = 0 then none
  else
    let r := if req = 0 ∨ vlmax < req then vlmax else req
    let n := min r (l.cols - l.col)
    let rw := min 32 (l.rows - 32 * l.band)
    let grant := setField (setField (wordOf l.band) 27 5 (rw - 1)) 32 32 l.col
    let c := l.col + n
    some (grant, n, if c = l.cols then { l with col := 0, band := l.band + 1 } else { l with col := c })

/-- PCLAIM's result: the value for rd, the new vl where a claim sets it, and the launch after it. -/
def pclaimResult (panel : Option Launch) (op : Word) (vlmax : Nat) : Word × Option Nat × Option Launch :=
  let exhausted : Word × Option Nat × Option Launch := (BitVec.allOnes 64, some 0, none)
  match fieldOf op 62 2, panel with
  | 0, some l =>
    if fieldOf op 16 46 = 0 then
      match l.claim (fieldOf op 0 16) vlmax with
      | some (g, n, l') => (g, some n, some l')
      | none => exhausted
    else exhausted
  | 0, none => exhausted
  | 1, some l => (wordOf (l.field 40 8), none, none)
  | 2, some l => (wordOf (l.field 48 8), none, none)
  | 3, some l => (wordOf (l.rows * 2 ^ 32 + l.cols), none, none)
  | _, _ => (0#64, none, none)

def execPclaim (rd rs1 rs2 : Reg) (s : State) : Host.Outcome State Fault Refusal :=
  runScalar (do
    abortIfTx 6
    let s ← get
    let r := pclaimResult (s.panelOf s.hart (s.rx rs1)) (s.rx rs2) s.hart.vlmax
    match r.2.2 with
    | some l => set (s.setLaunch l)
    | none => pure ()
    match r.2.1 with
    | some n => modH fun h => { h with vl := n }
    | none => pure ()
    writeX rd r.1
    advance 4) s

end Sys2Proof.Machine
end

