-- ==== Sys2Proof/Machine/Tx.lean ====
section
/-! DEFINITION. Transactions (09 R197 to R213): the five instructions, the commit, sleeping and waking, and HDONE with
the start of a handler run (07 R166, R168). -/

namespace Sys2Proof.Machine

/-! ## HDONE and the start of a run -/

/-- HDONE (R168). -/
def execHdone (s : State) : Host.Outcome State Fault Refusal :=
  runScalar (do
    abortIfTx 6
    let _ ← leaveRun) s

/-- HANDLER_RUN_START (R166). -/
def execHandlerRunStart (h : HartId) (s : State) : Host.Outcome State Fault Refusal := .next (s.startRun h)

/-! ## TBEGIN and TORELSE (R202) -/

/-- A level's checkpoint of the hart as it stands. -/
def Hart.checkpoint (h : Hart) (alt : Bool) (target : Word) : TxLevel :=
  { alt := alt, x := h.x, vl := h.vl, target := target }

/-- The attempt that begins at an address runs in ordered mode (R202, R212). -/
def Hart.orderedAt (h : Hart) (pc : Word) : Bool := decide (8 ≤ fieldOf h.txstat 24 8) && h.lastBegin == some pc

/-- A fresh transaction at its level 1. -/
def Tx.start (h : Hart) (target : Word) (rd : Reg) : Tx :=
  { levels := [h.checkpoint false target], reads := [], writes := [], sends := [], flips := [], slots := [],
    taken := [], doomed := false, doomVa := none, ordered := h.orderedAt h.pc, begin_ := h.pc, rd := rd }

/-- Opens a level. -/
def openLevel (l : TxLevel) : M Unit := modH fun h => { h with
  tx := h.tx.map fun t => { t with levels := l :: t.levels } }

/-- Acquires lines at their homes one after the other, waiting in arrival order at each while it keeps those before it
(R212). -/
def acquireLines : List Nat → M Unit
  | [] => pure ()
  | l :: ls => do
    let s ← get
    if !s.hart.acquiring.contains l then
      if s.lineHeld (some s.hart.id) l then hold (s.lineWait l)
      modH fun h => { h with acquiring := h.acquiring ++ [l] }
    acquireLines ls

/-- AcquireFootprint: the lines of the footprint in ascending order (R212). -/
def acquireFootprint : M Unit := do acquireLines ((← getH).footprint.insertionSort fun a b => decide (a ≤ b))

def execTbegin (rd : Reg) (off : BitVec 12) (s : State) : Host.Outcome State Fault Refusal :=
  runScalar (do
    drain
    let h ← getH
    let target := h.pc + branchOffset off
    if h.txnest = 4 then throw (.abort 11 0)
    if h.txnest = 0 then
      if h.orderedAt h.pc then acquireFootprint
      modH fun k => { k with tx := some (Tx.start h target rd), acquiring := [] }
    else openLevel (h.checkpoint false target)
    writeX rd 0#64
    advance 4) s

def execTorelse (off : BitVec 12) (s : State) : Host.Outcome State Fault Refusal :=
  runScalar (do
    drain
    if (← getH).tx.isNone then illegal (.torelse off)
    let h ← getH
    if h.txnest = 4 then throw (.abort 11 0)
    openLevel (h.checkpoint true (h.pc + branchOffset off))
    advance 4) s

/-! ## Closing a level -/

/-- Adds a write-set entry to a list, into the entry of the same sector and level if there is one; what it writes is the
newer. -/
def addWrite (w : TxWrite) : List TxWrite → List TxWrite
  | [] => [w]
  | v :: l =>
    if v.sector = w.sector ∧ v.level = w.level then
      { v with bytes := w.bytes.foldl (fun bs b => putByte b.1 b.2.1 b.2.2 bs) v.bytes } :: l
    else v :: addWrite w l

/-- A deferred send with another level. -/
def Deferred.relevel (f : Nat → Nat) : Deferred → Deferred
  | .hsend lv t p => .hsend (f lv) t p
  | .beacon lv pa v sc => .beacon (f lv) pa v sc
  | .notify lv h => .notify (f lv) h
  | .close lv h => .close (f lv) h

def Deferred.level : Deferred → Nat
  | .hsend lv _ _ => lv
  | .beacon lv _ _ _ => lv
  | .notify lv _ => lv
  | .close lv _ => lv

/-- The transaction after its innermost level has closed into the enclosing one. -/
def Tx.merge (t : Tx) : Tx :=
  let n := t.levels.length
  let t1 := { t with levels := t.levels.drop 1 }
  let f := fun lv => if n ≤ lv then t1.level else lv
  { t1 with
    writes := t.writes.foldl (fun l w => addWrite { w with level := f w.level } l) [],
    sends := t.sends.map (Deferred.relevel f),
    flips := t.flips.map fun x => { x with level := f x.level },
    slots := t.slots.map fun x => (f x.1, x.2),
    taken := t.taken.map fun x => (f x.1, x.2) }

/-- A sector all of whose bits a write-set entry writes: its poison goes (R382). -/
def TxWrite.whole (w : TxWrite) : Bool :=
  (List.range 32).all fun k => ((w.bytes.lookup k).map Prod.snd).getD 0#8 == 0xFF#8

/-- What a write-set entry does to memory. -/
def TxWrite.perform (w : TxWrite) (m : Memory) : Memory :=
  w.bytes.foldl (fun m b => m.set (32 * w.sector + b.1) (mergeByte (m.get (32 * w.sector + b.1)) b.2.1 b.2.2)) m

/-- A ring-table entry's stores are the owning gang's alone (R218); every other address takes all stores. -/
def State.takesStore (s : State) (gang : Option Nat) (pa : Nat) : Bool :=
  match region pa with
  | .agent =>
    match agentReg pa with
    | .ringTable c e _ => gang.isSome && (s.entryGang c e).map Gang.number == gang
    | _ => false
  | _ => true

/-- The write of one sector of the write set (R208, R218). -/
def commitWrite (self : HartId) (gang : Option Nat) (w : TxWrite) (s : State) : State :=
  if s.takesStore gang (32 * w.sector) then
    ({ s with
      mem := w.perform s.mem,
      poison := if w.whole then clearPoison s.poison (32 * w.sector) 32 else s.poison } : State).noteLine
      (some self) (w.sector / 4)
  else s

/-- An owner field as the commit leaves it, or the reset of the slots of a ring-table entry that the gang owns (R218). -/
def commitFlip (self : HartId) (gang : Option Nat) (f : OwnerFlip) (s : State) : State :=
  match region f.pa with
  | .agent =>
    match agentReg f.pa with
    | .ringTable c e _ => if s.takesStore gang f.pa then s.resetOwners (some self) c e else s
    | _ => s
  | .aperture c _ => s.setOwner (some self) c f.pa f.owned
  | _ => s

/-- One deferred send after the writes (R208). A notification or a close whose ring no longer opens has
no effect. -/
def deliverDeferred : Deferred → M Unit
  | .hsend _ target payload => deliverSend target payload
  | .beacon _ pa v _ => writeBeacon pa v
  | .notify _ handle => fun s =>
    match (do
        let p ← ownParty
        let x ← openRing p handle
        sendNotify handle x.1.pa x.2 : M Unit) s with
    | .ok _ t => .ok () t
    | .error _ t => .ok () (s.keepWalks t)
  | .close _ handle => fun s =>
    match (do
        let p ← ownParty
        let x ← openRing p handle
        (← deltaAt p x.1).close : M Unit) s with
    | .ok _ t => .ok () t
    | .error _ t => .ok () (s.keepWalks t)

/-- Every change of the commit at once (R208, R212). -/
def performCommit (t : Tx) : M Unit := do
  let h ← getH
  let gang := h.placed.map Placed.gang
  modify fun s => { s with hart := { s.hart with
    tx := none, txstat := setField s.hart.txstat 24 8 0,
    slots := (t.slots.getLast?.map Prod.snd).getD s.hart.slots } }
  modify fun s => t.writes.foldl (fun u w => commitWrite h.id gang w u) s
  modify fun s => t.flips.foldl (fun u f => commitFlip h.id gang f u) s
  modify fun s => { s with dev := { s.dev with
    attached := s.dev.attached.filter fun a => !(t.taken.any fun x => x.2 == (a.ring, a.counter)) } }
  forM' deliverDeferred t.sends

def execTend (s : State) : Host.Outcome State Fault Refusal :=
  runScalar (do
    drain
    match (← getH).tx with
    | none => illegal .tend
    | some t => do
      if 1 < t.levels.length then modH fun h => { h with tx := some t.merge }
      else
        if t.doomed then throw (.abort 1 0)
        settleStreams (← ownParty)
        let s ← get
        match t.writes.find? fun w => s.lineHeld (some s.hart.id) (w.sector / 4) with
        | some w => hold (s.lineWait (w.sector / 4))
        | none => performCommit t
      advance 4) s

/-! ## TRETRY (R203, R211, R213) -/

/-- The hart's registers as a checkpoint has them. -/
def Hart.restore (h : Hart) (c : TxLevel) : Hart := { h with x := c.x, vl := min c.vl h.vlmax }

/-- Without what was written and deferred at levels from lv up. -/
def Tx.dropFrom (t : Tx) (lv : Nat) : Tx :=
  { t with
    levels := t.levels.drop (t.levels.length + 1 - lv),
    writes := t.writes.filter fun w => decide (w.level < lv),
    sends := t.sends.filter fun d => decide (d.level < lv),
    flips := t.flips.filter fun x => decide (x.level < lv),
    slots := t.slots.filter fun x => decide (x.1 < lv),
    taken := t.taken.filter fun x => decide (x.1 < lv) }

/-- The record of a transaction wake (R213); its tick is filled in at delivery. -/
def wakeRecord (va : Word) (flags : Nat) (pc : Word) : List Byte :=
  lowBytes 8 va.toNat ++ lowBytes 2 flags ++ lowBytes 2 0 ++ lowBytes 4 1 ++ lowBytes 8 0 ++ lowBytes 8 pc.toNat ++
  List.replicate 32 0#8

/-- The address of the line of an address. -/
def lineVa (va : Word) : Word := va &&& ~~~127#64

/-- A kind 3 arrival on a channel, for a write of a line, known by a virtual address in it, or none through a bucket or at
a deadline. Wakes of one line are of one source, and so are all coarse wakes of the channel (R213). -/
def wakeArrival (chan : Nat) (va : Option Word) (flags : Nat) (pc : Word) : Arrival :=
  { chan := chan, kind := 3,
    source := match va with
      | some v => some ((lineVa v).toNat / 128)
      | none => if flags.testBit 0 then some (2 ^ 57) else none,
    len := 64, record := wakeRecord ((va.map lineVa).getD 0#64) flags pc }

/-- The deadline of a sleep that starts now (R211). -/
def State.sleepDeadline (s : State) : Option Nat :=
  if s.hart.txdeadline = 0#64 then none else some (s.clock + s.hart.txdeadline.toNat)

/-- The end of an attempt at level 1: registers from its checkpoint, and no line held any more. The footprint stays that of
the last aborted attempt (R212). -/
def leaveAttempt (c : TxLevel) : M Unit := modH fun h => { (h.restore c) with tx := none }

/-- TRETRY at level 1 in a handler run (R213), of the hart as it was in the transaction; that transaction stays while the
slots of the run are being retired. -/
def retryInRun (before : Hart) (t : Tx) : M Unit := do
  let s ← get
  let h := s.hart
  let chan := (h.serving.map Prod.fst).getD 0
  let dl := s.sleepDeadline
  if !(← leaveRun) then modH fun h => { before with slots := h.slots, reservation := h.reservation }
  else if t.doomed then
    let _ ← deliverArrival h.id.coreId (wakeArrival chan t.doomVa (if t.doomVa.isSome then 4 else 5) t.begin_)
  else
    modify fun s => s.modCore h.id.coreId fun k => { k with
      wakes := k.wakes ++ [{ chan := chan, ctx := h.id.hart, lines := t.reads, pc := t.begin_, deadline := dl }] }

/-- TRETRY at level 1 outside a run: restart at once, or sleep. -/
def retryOutside (t : Tx) (target : Word) : M Unit := do
  let dl := (← get).sleepDeadline
  jump t.begin_
  if !t.doomed then
    modH fun h => { h with
      run := .sleeping, marks := t.reads, deadline := dl,
      sleepTarget := some { target := target, rd := t.rd, ordered := t.ordered } }

/-- An entry is executing: its stream has dispatched its head (R28). -/
def Hart.executing (h : Hart) : Bool := ((h.vq.head?.map QEntry.ready).getD false) || ((h.mq.head?.map QEntry.ready).getD false)

/-- TRETRY in a transaction (R203): its innermost alternative ends, or the attempt. -/
def retry (t : Tx) : M Unit := do
  match t.levels.findIdx? TxLevel.alt with
  | some i => do
    let c := t.levels.getD i ((← getH).checkpoint true 0#64)
    modH fun h => { h.restore c with tx := some (t.dropFrom (t.levels.length - i)) }
    jump c.target
  | none => do
    let before ← getH
    let c := t.levels.getLast?.getD (before.checkpoint false 0#64)
    leaveAttempt c
    if (← getH).hinfo.getLsbD 7 then retryInRun before t else retryOutside t c.target

/-- TRETRY (R203): the pending entries of VQ and MQ go, outside a transaction too, where it is then Illegal. -/
def execTretry (s : State) : Host.Outcome State Fault Refusal :=
  runScalar (do
    if (← getH).executing then hold .drain
    modH fun h => { h with vq := [], mq := [] }
    match (← getH).tx with
    | none => modify fun s => s.fault { cause := 2, tval := encodingOf .tretry, vf := none } s.hart.pc
    | some t => retry t) s

/-- TABORT (R204). -/
def execTabort (code : BitVec 5) (s : State) : Host.Outcome State Fault Refusal :=
  if s.hart.tx.isSome then .next (s.abortTx 3 code.toNat) else .next (s.advance 4).goesOn

/-! ## Events -/

/-- The hart wakes and executes its outermost TBEGIN again. -/
def Hart.wake (h : Hart) : Hart :=
  { h with run := .running, held := none, marks := [], sleepTarget := none, deadline := none }

/-- The first registration of a context on a core for which a function has an answer. -/
def State.registration {α : Type} (s : State) (id : HartId) (f : WakeReg → Option α) : Option (WakeReg × α) :=
  ((s.core id.coreId).wakes.filter fun w => w.ctx == id.hart).findSome? fun w => (f w).map fun x => (w, x)

/-- Delivers a registration's arrival and removes it. -/
def deliverWake (id : HartId) (w : WakeReg) (va : Option Word) (flags : Nat) : M Unit := do
  let _ ← deliverArrival id.coreId (wakeArrival w.chan va flags w.pc)
  modify fun s => s.modCore id.coreId fun k => { k with wakes := k.wakes.filter fun x => x != w }

/-- TRANSACTION_WAKE (R211, R213): a write has reached the marks of a sleeping hart or of a context's registration. -/
def execTransactionWake (h : HartId) (line : Nat) (s : State) : Host.Outcome State Fault Refusal :=
  runEvent (.transactionWake h line) (do
    modify fun s =>
      if (s.hartAt h).run == .sleeping && (hitMark s.dev.coarse (s.hartAt h).marks line).isSome then s.modHart h Hart.wake
      else s
    let s ← get
    match s.registration h fun w => hitMark s.dev.coarse w.lines line with
    | some (w, m) => if m.line = line then deliverWake h w (some m.va) 0 else deliverWake h w none 1
    | none => pure ()) s

/-- Applies a function of the state with another hart as the one whose turn it is. -/
def State.asHart (s : State) (id : HartId) (f : State → State) : State :=
  let me := s.hart.id
  (f (s.focus id)).focus me

/-- TRANSACTION_ABORT: a doomed transaction's CONFLICT is delivered at this boundary (R207). -/
def execTransactionAbort (h : HartId) (s : State) : Host.Outcome State Fault Refusal :=
  .next (if ((s.hartAt h).tx.map Tx.doomed).getD false then s.asHart h fun t => t.abortTx 1 0 else s)

/-- The TIMEOUT of a sleep (R211): the abort of the attempt that slept, with depth 1. -/
def Hart.timeout (h : Hart) (t : SleepTarget) : Hart :=
  let stat := setField (setField (setField 0#64 23 1 (if t.ordered then 1 else 0)) 16 3 1) 0 8 12
  ({ h.wake with
    txstat := stat, lastBegin := some h.pc, pc := t.target, vstart := 0, footprint := h.marks.map Mark.line }).wx t.rd stat

/-- The registration of a context whose deadline comes first. -/
def earliest : List WakeReg → Option WakeReg
  | [] => none
  | w :: l =>
    match w.deadline, earliest l with
    | none, r => r
    | some _, none => some w
    | some d, some r => if (r.deadline.getD 0) < d then some r else some w

/-- TXDEADLINE_EXPIRY (R211, R213): the deadline of the hart's sleep, or the first deadline of its registrations, has
come. -/
def execTxdeadlineExpiry (h : HartId) (s : State) : Host.Outcome State Fault Refusal :=
  let k := s.hartAt h
  match k.run, k.deadline, k.sleepTarget with
  | .sleeping, some d, some t => .next ((s.reach d).modHart h fun k => k.timeout t)
  | _, _, _ =>
    runEvent (.txdeadlineExpiry h) (do
      match earliest ((s.core h.coreId).wakes.filter fun w => w.ctx == h.hart) with
      | some w => do
        modify fun s => s.reach (w.deadline.getD 0)
        deliverWake h w none 2
      | none => pure ()) s

end Sys2Proof.Machine
end

