-- ==== Sys2Proof/Machine/Copy.lean ====
section
/-! DEFINITION. The copy engine (13 R271 to R291): the descriptor, the hand-over, transfers, relocations, group uses,
completion, and OWNSET and OWNTST. -/

namespace Sys2Proof.Machine

/-! ## The descriptor (R273, R274) -/

def cdCtl (b : Nat) : Word := wordOf (bitsAt b 0 64)
def cdPal (b : Nat) : Word := wordOf (bitsAt b 64 64)
def cdSrc (b : Nat) : Word := wordOf (bitsAt b 128 64)
def cdDst (b : Nat) : Word := wordOf (bitsAt b 192 64)
def cdCword (b : Nat) : Word := wordOf (bitsAt b 256 64)
def cdSlot (b : Nat) : Word := wordOf (bitsAt b 320 64)
def cdNotify (b : Nat) : Word := wordOf (bitsAt b 384 32)
def cdAux (b : Nat) : Nat := bitsAt b 416 32
def cdReloc (b : Nat) : Word := wordOf (bitsAt b 448 64)
def cdNdims (b : Nat) : Nat := fieldOf (cdCtl b) 0 4
def cdComp (b : Nat) : Nat := fieldOf (cdCtl b) 4 2
def cdScope (b : Nat) : Nat := fieldOf (cdCtl b) 12 3

/-- One dimension: count, the bytes that must be 0, and the two strides. -/
structure CopyDim where
  count : Nat
  zero  : Nat
  ss    : Word
  ds    : Word
  deriving DecidableEq, Repr

def cdDims (b : Nat) : List CopyDim :=
  (List.range (cdNdims b)).map fun d =>
    let at_ (off n : Nat) : Nat := bitsAt b (8 * (64 + 24 * d + off)) (8 * n)
    { count := at_ 0 4, zero := at_ 4 4, ss := wordOf (at_ 8 8), ds := wordOf (at_ 16 8) }

def cdTotal (b : Nat) : Nat := (cdDims b).foldl (fun n d => n * d.count) 1

/-- The rows of R276. -/
inductive CopyKind where
  | bytes
  | same (f : Fmt)
  | coded
  | decode (f fd : Fmt)
  | convert (fa fd : Fmt)
  deriving DecidableEq, Repr

/-- The transfer that a palette selects; none for a palette R277 refuses. -/
def copyKind (p : Word) : Option CopyKind :=
  if !palDefined p || palFb p ≠ 0 || palFc p ≠ 0 || palSb p ≠ 0 then none
  else if palFa p = 0 ∧ palFd p = 0 then (if palSa p = 0 ∧ palSd p = 0 then some .bytes else none)
  else
    match fmtOf (palFa p), fmtOf (palFd p) with
    | some fa, some fd =>
      if fa.isQ ∧ fa = fd then some .coded
      else if fd.isQ then none
      else if fa.isQ then (if fd.is4 || !convScales p fa fd then none else some (.decode fa fd))
      else if !convScales p fa fd then none
      else if fa = fd ∧ palSa p = 0 ∧ palSd p = 0 then some (.same fa)
      else some (.convert fa fd)
    | _, _ => none

/-- The element size of a side in bytes; a 4-bit side is laid out by its bytes. -/
def CopyKind.size (k : CopyKind) (source : Bool) : Nat :=
  match k with
  | .bytes => 1
  | .same f => f.bytes
  | .coded => 32
  | .decode _ fd => if source then 1 else fd.bytes
  | .convert fa fd => if source then fa.bytes else fd.bytes

/-- The side holds 4-bit elements. -/
def CopyKind.is4 (k : CopyKind) (source : Bool) : Bool :=
  match k with
  | .same f => f.is4
  | .convert fa fd => if source then fa.is4 else fd.is4
  | _ => false

/-- The base and strides of a side. -/
def cdBase (b : Nat) (source : Bool) : Word := if source then cdSrc b else cdDst b
def CopyDim.stride (d : CopyDim) (source : Bool) : Word := if source then d.ss else d.ds

/-- The alignment of a side's places: of a coded source, that of its frame. -/
def CopyKind.unit (k : CopyKind) (source : Bool) : Nat :=
  match k, source with
  | .decode _ _, true => 32
  | _, _ => k.size source

/-- What a command uses of a side: nothing where a group's op does not read it (R286), its places, or its places from a base
that the list of CPYG supplies (R282). -/
inductive SideUse where
  | unread | fixed | indexed
  deriving DecidableEq, Repr

/-- A side is well formed: its elements are aligned at every position (R277; on the indexed side of CPYG the list decides
where they begin), a 4-bit side is packed with an even count0, and the strides of a coded side are what R276 asks. -/
def CopyKind.sideOk (k : CopyKind) (b : Nat) (source : Bool) (u : SideUse) : Bool :=
  let ds := cdDims b
  u == .unread ||
  ((u == .indexed || (cdBase b source).toNat % k.unit source == 0) &&
   (match k, source with
    | .decode _ _, true => ds.all fun d => d.ss == 0#64
    | .coded, _ => ds.all fun d => (d.stride source).toNat % 32 == 0
    | _, _ => ds.all fun d => d.count == 1 || (d.stride source).toNat % k.size source == 0) &&
   (!k.is4 source || (ds.take 1).all fun d => d.stride source == 0#64 && d.count % 2 == 0))

/-- The rounding mode of a command: none where R277 refuses it. -/
def copyRm (b : Nat) (vfrm : BitVec 3) : Option Nat :=
  let rm := fieldOf (cdCtl b) 8 3
  if rm = 7 then (if vfrm.toNat < 5 then some vfrm.toNat else none)
  else if rm < 5 then some rm else none

/-- Which copy instruction a command is. -/
inductive CopyOp where
  | tensor | gather | collective
  deriving DecidableEq, Repr

def copyOp (i : Instr) : CopyOp :=
  match i with
  | .cpyg _ _ => .gather
  | .cpyc _ => .collective
  | _ => .tensor

def CopyOp.dimsOk (o : CopyOp) (n : Nat) : Bool :=
  match o with
  | .tensor => decide (1 ≤ n) && decide (n ≤ 10)
  | .gather => n == 2
  | .collective => n == 1

/-- The fields that a copy instruction's descriptor holds at zero (R273, R277, R286). -/
def CopyOp.fieldsOk (o : CopyOp) (b : Nat) : Bool :=
  let ctl := cdCtl b
  let relocate := ctl.getLsbD 6
  match o with
  | .tensor => !ctl.getLsbD 15 && (!relocate || (cdReloc b).toNat % 8 == 0)
  | .gather => cdAux b == 0 && cdReloc b == 0#64 && !relocate
  | .collective => !ctl.getLsbD 15 && cdReloc b == 0#64 && !relocate && bitsAt (cdAux b) 13 19 == 0 &&
      decide (3 ≤ cdScope b)

/-- The reductions that R286 allows for ops 1 and 2. -/
def collectiveOk (b : Nat) (k : CopyKind) : Bool :=
  let op := bitsAt (cdAux b) 8 2
  if op = 0 then true
  else if op = 3 then false
  else
    bitsAt (cdAux b) 10 3 < 3 && palSa (cdPal b) == 0 && palSd (cdPal b) == 0 &&
    (match k with
      | .same (.int _ _) => true
      | .same f => f == .f16 || f == .b16 || f == .f32 || f == .f64
      | _ => false)

/-- The use of a side: of a group's member, root or not (R286), and of CPYG's indexed side (R282). -/
def CopyOp.use (o : CopyOp) (b : Nat) (root source : Bool) : SideUse :=
  let op := bitsAt (cdAux b) 8 2
  match o with
  | .tensor => .fixed
  | .gather => if (cdCtl b).getLsbD 15 != source then .indexed else .fixed
  | .collective => if !root && ((op == 0 && source) || (op == 1 && !source)) then .unread else .fixed

/-- R277: the descriptor is well formed for its instruction; root says that the command's cluster is its group's root. -/
def copyWellFormed (o : CopyOp) (root : Bool) (e : QEntry) (b : Nat) : Option (CopyKind × Nat) :=
  match copyKind (cdPal b), copyRm b e.cap.vfrm with
  | some k, some rm =>
    let dims := cdDims b
    let relocate := (cdCtl b).getLsbD 6
    let listOk := o != .gather || (e.cap.x2.toNat % 8 == 0 &&
      (match dims with
        | [_, d1] => if (cdCtl b).getLsbD 15 then d1.ds == 0#64 else d1.ss == 0#64
        | _ => true))
    if fieldOf (cdCtl b) 16 48 = 0 ∧ o.dimsOk (cdNdims b) ∧ cdComp b ≠ 3 ∧ cdScope b < 6 ∧ o.fieldsOk b ∧
        fieldOf (cdNotify b) 16 15 = 0 ∧ dims.all (fun d => d.zero == 0 && d.count != 0) ∧ cdTotal b < 2 ^ 40 ∧
        k.sideOk b true (o.use b root true) ∧ k.sideOk b false (o.use b root false) ∧ listOk ∧
        (o ≠ .collective ∨ collectiveOk b k) ∧
        (!relocate || (cdNdims b == 1 && cdPal b == 0#64 && (dims.all fun d => d.ds == 0#64))) then
      some (k, rm)
    else none
  | _, _ => none

/-! ## Engine accesses -/

/-- The party that a command's own accesses belong to: the engine, in the hart's address space. -/
def CopyCmd.party (c : CopyCmd) : Party :=
  { ctx := { satp := c.satp, sbase := c.sbase, gang := c.gang, priv := c.priv, sum := c.sum, mxr := c.mxr,
             core := some c.hart.coreId, cluster := some c.hart.clusterId, die := c.hart.die, slice := 0,
             self := none },
    self := none, plain := true, engine := some c.hart }

/-- The party of the elements that it moves (R281). -/
def CopyCmd.mover (c : CopyCmd) : Party := { c.party with moves := true }

/-- Runs m; a fault comes back as a value with nothing of m left, a wait goes on. -/
def attempt {α : Type} (m : M α) : M (Except MemFault α) := fun s =>
  match m s with
  | .ok a t => .ok (.ok a) t
  | .error (.mem f) t => .ok (.error f) (s.keepRequests t)
  | .error e t => .error e t

/-- The data that a remote read has brought with poison (R403). -/
def takePoisoned (p : Party) (pa n : Nat) : M (Option Nat) := do
  let s ← get
  match s.dev.requests.find? fun r =>
      r.hart == p.self && r.engine == p.engine && r.pa == pa && r.size == n && !r.write && r.poison with
  | some r => do
    set { s with dev := { s.dev with requests := s.dev.requests.filter fun q => q != r } }
    return some (r.data.getD 0)
  | none => return none

/-- An element's bits, and whether they are poisoned; where take is false, poison fails the access. -/
def engineRead (p : Party) (va : Word) (size : Nat) (take : Bool) : M (Nat × Bool) := do
  let t ← translateM p.ctx va .load
  checkPa p .load va t.pa true
  let s ← get
  if take && s.poisoned t.pa size then return (s.physLoad t.pa size, true)
  else
    match ← (if take then takePoisoned p t.pa size else return none : M (Option Nat)) with
    | some v => return (v, true)
    | none => return (← loadPa p va .load t.pa size true, false)

/-- Marks the sectors of a range poisoned. -/
def State.taint (s : State) (pa n : Nat) : State :=
  { s with poison := (s.poison ++ (List.range ((pa + n + 31) / 32 - pa / 32)).map fun k => pa / 32 + k).eraseDups }

def engineWrite (p : Party) (va : Word) (size v : Nat) (poison : Bool) : M Unit := do
  let t ← translateM p.ctx va .store
  storePa p va t.pa size v true
  if poison then
    match region t.pa with
    | .hbm _ | .aperture _ _ => modify fun s => s.taint t.pa size
    | _ => pure ()

/-! ## Positions (R275, R282) -/

/-- The indices of a position, dimension 0 fastest. -/
def indices : List CopyDim → Nat → List Nat
  | [], _ => []
  | d :: l, n => n % d.count :: indices l (n / d.count)

/-- Where an element lies: its byte address and, for a 4-bit side, its half. -/
structure ElemPlace where
  va : Word
  hi : Option Bool
  deriving DecidableEq, Repr

/-- The place of position n on one side; off replaces the step of dimension 1 on the indexed side of CPYG. -/
def elemPlace (b : Nat) (k : CopyKind) (source : Bool) (off : Option Word) (n : Nat) : ElemPlace :=
  let dims := cdDims b
  let idx := indices dims n
  let step (d : Nat) : Word := match dims[d]? with
    | some x => if source then x.ss else x.ds
    | none => 0#64
  let i0 := idx.getD 0 0
  let base := if source then cdSrc b else cdDst b
  let rest := (List.range idx.length).foldl (fun a d =>
    if d = 0 then a
    else if d = 1 then a + off.getD (wordOf (idx.getD 1 0) * step 1)
    else a + wordOf (idx.getD d 0) * step d) base
  if k.is4 source then { va := rest + wordOf (i0 / 2), hi := some (i0 % 2 == 1) }
  else
    let s0 : Word := if step 0 = 0#64 then wordOf (k.size source) else step 0
    { va := rest + wordOf i0 * s0, hi := none }

/-! ## Statuses -/

def csOk : Nat := 0
def csFormat : Nat := 1
def csXlate : Nat := 2
def csQcode : Nat := 3
def csRange : Nat := 4
def csType : Nat := 5
def csPoison : Nat := 6
def csBusy : Nat := 7

/-- The status of a failed access. -/
def statusOf : MemFault → Nat
  | .poison _ _ => csPoison
  | _ => csXlate

/-! ## The transfer (R276, R281, R282) -/

/-- What the engine has read for a position: the source bits, their poison, and the flag of a coded element read as
zero. -/
structure ElemRead where
  bits   : Nat
  poison : Bool
  flags  : Flags
  deriving DecidableEq, Repr

/-- The kind copies its elements as they are, and their poison with them (R281). -/
def CopyKind.unchanged : CopyKind → Bool
  | .bytes | .same _ | .coded => true
  | .decode _ _ | .convert _ _ => false

/-- Reads position n: the element, or the status it fails with; take says that poison is no failure. -/
def readPosition (p : Party) (b : Nat) (k : CopyKind) (take : Bool) (off : Option Word) (n : Nat) :
    M (Except Nat ElemRead) := do
  let pl := elemPlace b k true off n
  match k with
  | .decode f _ => do
    let first := match off with
      | some o => (cdSrc b + o, n % ((cdDims b).map CopyDim.count).headD 1)
      | none => (cdSrc b, n)
    match ← attempt (qElement p f (palXi (cdPal b)) first.1 first.2) with
    | .ok (.ok v) => return .ok { bits := v, poison := false, flags := 0#6 }
    | .ok (.error _) =>
      if palZr (cdPal b) then return .ok { bits := 0, poison := false, flags := fNV } else return .error csQcode
    | .error e => return .error (statusOf e)
  | _ => do
    match ← attempt (engineRead p pl.va (k.size true) take) with
    | .ok (v, poison) =>
      let bits := match pl.hi with
        | some true => v / 16
        | some false => v % 16
        | none => v
      return .ok { bits := bits, poison := poison, flags := 0#6 }
    | .error e => return .error (statusOf e)

/-- The destination pattern of an element (R276). -/
def convertPosition (b : Nat) (k : CopyKind) (rm : Nat) (r : ElemRead) : Nat × Flags :=
  let c := match k with
    | .decode f fd => convertElem (cdPal b) f fd rm ((cdCtl b).getLsbD 11) r.bits
    | .convert fa fd => convertElem (cdPal b) fa fd rm ((cdCtl b).getLsbD 11) r.bits
    | _ => (r.bits, 0#6)
  (c.1, c.2 ||| r.flags)

/-- Writes position n, or with a pair the byte of a 4-bit side that begins there: done, or the status it fails with. -/
def writePosition (p : Party) (b : Nat) (k : CopyKind) (off : Option Word) (n v : Nat) (pair poison : Bool) :
    M (Option Nat) := do
  let pl := elemPlace b k false off n
  match ← attempt (match pl.hi with
      | some hi =>
        if pair then engineWrite p pl.va 1 v poison
        else do
          let t ← translateM p.ctx pl.va .store
          storeNibble p pl.va t.pa hi v
      | none => engineWrite p pl.va (k.size false) v poison) with
  | .ok _ => return none
  | .error e => return some (statusOf e)

/-- The list's run of a position and its offset, where CPYG indexes the side. -/
def runOffset (b : Nat) (list : List Word) (n : Nat) : Option Word :=
  match cdDims b with
  | d0 :: _ => list[n / d0.count]?
  | [] => none

/-- Reads m positions from n in order until one fails. -/
def readAll (p : Party) (b : Nat) (k : CopyKind) (take : Bool) (off : Nat → Option Word) :
    Nat → Nat → M (List ElemRead × Option (Nat × Nat))
  | 0, _ => return ([], none)
  | m + 1, n => do
    match ← readPosition p b k take (off n) n with
    | .error st => return ([], some (st, n))
    | .ok r => do
      let rest ← readAll p b k take off m (n + 1)
      return (r :: rest.1, rest.2)

/-- Writes elements in order from position n until one fails; the flags of those written. The two elements of a 4-bit side's
byte are written together (R276). -/
def writeAll (p : Party) (b : Nat) (k : CopyKind) (rm : Nat) (off : Nat → Option Word) :
    List ElemRead → Nat → Flags → M (Flags × Option (Nat × Nat))
  | [], _, fl => return (fl, none)
  | [r], n, fl => do
    let c := convertPosition b k rm r
    match ← writePosition p b k (off n) n c.1 false r.poison with
    | some st => return (fl, some (st, n))
    | none => return (fl ||| c.2, none)
  | r :: q :: l, n, fl => do
    let c := convertPosition b k rm r
    if k.is4 false && n % 2 == 0 then
      let d := convertPosition b k rm q
      match ← writePosition p b k (off n) n (c.1 % 16 + 16 * (d.1 % 16)) true (r.poison || q.poison) with
      | some st => return (fl, some (st, n))
      | none => writeAll p b k rm off l (n + 2) (fl ||| c.2 ||| d.2)
    else
      match ← writePosition p b k (off n) n c.1 false r.poison with
      | some st => return (fl, some (st, n))
      | none => writeAll p b k rm off (q :: l) (n + 1) (fl ||| c.2)

/-- The transfer of positions start to n − 1: every source element is read before any destination is written (R290). -/
def transfer (p : Party) (b : Nat) (k : CopyKind) (rm start n : Nat) (fl : Flags) (soff doff : Nat → Option Word) :
    M CopyEnd := do
  let r ← readAll p b k k.unchanged soff (n - start) start
  let w ← writeAll p b k rm doff r.1 start fl
  match w.2, r.2 with
  | some (st, d), _ => return { status := st, detail := d, flags := w.1 }
  | none, some (st, d) => return { status := st, detail := d, flags := w.1 }
  | none, none => return { status := csOk, detail := 0, flags := w.1 }

/-! ## Relocations (R87, R284, R424) -/

/-- A copy record (R417). -/
structure CopyRec where
  off  : Nat
  type : Nat
  link : Nat
  sa   : Word
  deriving DecidableEq, Repr

def CopyRec.ofNat (b : Nat) : CopyRec :=
  { off := bitsAt b 0 32, type := bitsAt b 32 8, link := bitsAt b 40 24, sa := wordOf (bitsAt b 64 64) }

/-- Length and alignment of the field of a type (R424). -/
def relocLen (t : Nat) : Nat × Nat :=
  match t with
  | 0 => (0, 1)
  | 1 => (8, 8)
  | 12 => (8, 4)
  | _ => (4, 4)

/-- The bits [11:0] of a word, sign-extended. -/
def low12 (v : Word) : Nat := fieldOf v 0 12

/-- The 20 upper bits of a HI field (R87). -/
def hi20 (v : Word) : Nat := fieldOf (v + 0x800#64) 12 20

def inRange (v : Word) (lo hi : Int) : Bool := decide (lo ≤ v.toInt) && decide (v.toInt ≤ hi)

/-- The range of a type's value (R87), for the value before its field is cut from it. -/
def relocInRange (t : Nat) (v : Word) : Bool :=
  match t with
  | 2 => inRange v (-(2 ^ 31)) (2 ^ 32 - 1)
  | 3 => inRange v (-(2 ^ 31)) (2 ^ 31 - 1)
  | 4 | 7 | 12 => inRange v (-(2 ^ 31) - 0x800) (2 ^ 31 - 0x801)
  | 10 | 13 => v.toNat % 4 == 0 && inRange v (-4096) 4092
  | 11 => v.toNat % 4 == 0 && inRange v (-(2 ^ 20)) (2 ^ 20 - 4)
  | _ => true

/-- A 32-bit word with its I-layout, S-layout, B-layout, J-layout or U-layout immediate replaced. -/
def putI (w imm : Nat) : Nat := w % 2 ^ 20 + imm % 2 ^ 12 * 2 ^ 20
def putS (w imm : Nat) : Nat :=
  bitsAt w 0 7 + bitsAt imm 0 5 * 2 ^ 7 + bitsAt w 12 13 * 2 ^ 12 + bitsAt imm 5 7 * 2 ^ 25
def putB (w v : Nat) : Nat :=
  bitsAt w 0 7 + bitsAt v 11 1 * 2 ^ 7 + bitsAt v 1 4 * 2 ^ 8 + bitsAt w 12 13 * 2 ^ 12 + bitsAt v 5 6 * 2 ^ 25 +
  bitsAt v 12 1 * 2 ^ 31
def putJ (w v : Nat) : Nat :=
  bitsAt w 0 12 + bitsAt v 12 8 * 2 ^ 12 + bitsAt v 11 1 * 2 ^ 20 + bitsAt v 1 10 * 2 ^ 21 + bitsAt v 20 1 * 2 ^ 31
def putU (w hi : Nat) : Nat := w % 2 ^ 12 + hi % 2 ^ 20 * 2 ^ 12

/-- The new bytes of the field, from its old ones: v is S + A, S + A − P, or for types 8 and 9 the HI record's S + A − H. -/
def relocField (t old : Nat) (v : Word) : Nat :=
  match t with
  | 1 => v.toNat
  | 2 | 3 => v.toNat % 2 ^ 32
  | 4 | 7 => putU old (hi20 v)
  | 5 | 8 => putI old (low12 v)
  | 6 | 9 => putS old (low12 v)
  | 10 => putB old v.toNat
  | 11 => putJ old v.toNat
  | 12 => putU (bitsAt old 0 32) (hi20 v) + 2 ^ 32 * putI (bitsAt old 32 32) (low12 v)
  | 13 => putI old (fieldOf v 1 12)
  | _ => old

/-- A type's value is relative to P. -/
def relocRelative (t : Nat) : Bool := [3, 7, 10, 11, 12, 13].contains t

/-- Record j of a command; none where it cannot be read. -/
def readRecord (p : Party) (b j : Nat) : M (Option CopyRec) := do
  match ← attempt (loadVa p (cdReloc b + wordOf (16 * j)) .load 16) with
  | .ok v => return some (CopyRec.ofNat v)
  | .error _ => return none

/-- Applies record j: done, or the status it stops with. -/
def applyRecord (p : Party) (b n j : Nat) : M (Option (Nat × Nat)) := do
  match ← readRecord p b j with
  | none => return some (csXlate, n + j)
  | some r => do
    let la := relocLen r.type
    let place := cdDst b + wordOf r.off
    if 13 < r.type then return some (csType, j)
    if place.toNat % la.2 ≠ 0 ∨ n < r.off + la.1 then return some (csRange, j)
    let linked := r.type == 8 || r.type == 9
    if !linked && r.link ≠ 0 then return some (csType, j)
    let v ← (do
      if linked then
        if j ≤ r.link then return none
        match ← readRecord p b r.link with
        | some h => return if h.type = 7 ∨ h.type = 12 then some (h.sa - (cdDst b + wordOf h.off)) else none
        | none => return none
      else return some (if relocRelative r.type then r.sa - place else r.sa) : M (Option Word))
    match v with
    | none => return some (csType, j)
    | some v => do
      if !relocInRange r.type v then return some (csRange, j)
      match ← attempt (do
          let old ← loadVa p place .load la.1
          storeVa p place la.1 (relocField r.type old v)) with
      | .ok _ => return none
      | .error _ => return some (csXlate, n + j)

def applyRecords (p : Party) (b n : Nat) : Nat → Nat → M (Option (Nat × Nat))
  | 0, _ => return none
  | m + 1, j => do
    match ← applyRecord p b n j with
    | some e => return some e
    | none => applyRecords p b n m (j + 1)

/-- CPYT after its hand-over (R281), from the position or record of its progress word (R291). -/
def runTensor (p : Party) (b : Nat) (k : CopyKind) (rm start : Nat) (fl : Flags) : M CopyEnd := do
  let n := cdTotal b
  let e ← transfer p b k rm start n fl (fun _ => none) (fun _ => none)
  if e.status = csOk ∧ (cdCtl b).getLsbD 6 then
    match ← applyRecords { p with moves := false } b n (cdAux b - (start - n)) (start - n) with
    | some (st, d) => return { e with status := st, detail := d }
    | none => return e
  else return e

/-- The list of CPYG, up to the first offset that cannot be read. -/
def readList (p : Party) (list : Word) : Nat → Nat → M (List Word)
  | 0, _ => return []
  | m + 1, j => do
    match ← attempt (loadVa p (list + wordOf (8 * j)) .load 8) with
    | .error _ => return []
    | .ok v => return wordOf v :: (← readList p list m (j + 1))

/-- The runs before the first whose offset misaligns the elements of the indexed side (R282). -/
def goodRuns (base : Word) (list : List Word) (size : Nat) : Nat :=
  (list.takeWhile fun o => (base + o).toNat % size == 0).length

/-- CPYG after its hand-over (R282): the runs before the first that has no good offset, and then its failure. -/
def runGather (p : Party) (b : Nat) (k : CopyKind) (rm : Nat) (list : Word) (start : Nat) (fl : Flags) : M CopyEnd := do
  let c0 := ((cdDims b).map CopyDim.count).getD 0 1
  let c1 := ((cdDims b).map CopyDim.count).getD 1 1
  let scatter := (cdCtl b).getLsbD 15
  let l ← readList { p with moves := false } list c1 0
  let runs := goodRuns (cdBase b !scatter) l (k.unit !scatter)
  let off := fun n => runOffset b l n
  let none_ : Nat → Option Word := fun _ => none
  let e ← transfer p b k rm start (runs * c0) fl (if scatter then none_ else off) (if scatter then off else none_)
  if e.status = csOk ∧ runs < c1 then return { e with status := csXlate, detail := runs * c0 } else return e

/-! ## Groups (R285 to R287) -/

/-- A group's entry. -/
structure GroupEntry where
  members : Nat
  root    : Nat
  asid    : Nat
  stline  : Nat
  deriving DecidableEq, Repr

def State.groupEntryOf (s : State) (die g : Nat) : GroupEntry :=
  let b := s.mem.read (groupEntry die g) 32
  { members := bitsAt b 0 48, root := bitsAt b 64 6, asid := bitsAt b 80 16, stline := bitsAt b 128 64 }

def GroupEntry.clusters (e : GroupEntry) : List Nat := (List.range 48).filter fun c => e.members.testBit c

def GroupUse.idle (die g : Nat) : GroupUse :=
  { die := die, group := g, uses := 0, busy := false, count := 0, joined := [], moved := false, done_ := 0 }

def State.groupUse (s : State) (die g : Nat) : GroupUse :=
  (s.dev.uses.find? fun u => u.die == die && u.group == g).getD (GroupUse.idle die g)

def State.setGroupUse (s : State) (u : GroupUse) : State :=
  { s with dev := { s.dev with uses := (s.dev.uses.filter fun v => !(v.die == u.die && v.group == u.group)) ++ [u] } }

/-- Writes the group's status word (R285). -/
def State.writeUseStatus (s : State) (stline : Nat) (u : GroupUse) : State :=
  match region stline with
  | .hbm _ => s.physStore none stline 8 (u.uses % 2 ^ 32 * 2 ^ 32 + (if u.busy then 1 else 0))
  | _ => s

/-- A use drains: every member has joined (R287). -/
def GroupUse.full (u : GroupUse) (e : GroupEntry) : Bool := u.busy && decide (e.clusters.length ≤ u.joined.length)

/-- The group of a CPYC. -/
def CopyCmd.group (c : CopyCmd) : Nat := bitsAt (cdAux c.desc) 0 8

/-- The command's cluster is the root of its group. -/
def State.isRoot (s : State) (c : CopyCmd) : Bool := (s.groupEntryOf c.hart.die c.group).root == c.hart.cluster

/-- Resolves a CPYC against its group (R287): the status that ends it at once, or the use with the command in it. -/
def State.joinUse (s : State) (h : HartId) (seq g asid count : Nat) : Except Nat GroupUse :=
  let e := s.groupEntryOf h.die g
  let u := s.groupUse h.die g
  if e.members = 0 ∨ !(e.clusters.contains h.cluster) ∨ e.asid ≠ asid then .error csFormat
  else if !u.busy then .ok { u with busy := true, count := count, joined := [(h.cluster, h, seq)], moved := false, done_ := 0 }
  else if u.full e ∨ (u.joined.any fun j => j.1 == h.cluster) then .error csBusy
  else if u.count ≠ count then .error csFormat
  else .ok { u with joined := u.joined ++ [(h.cluster, h, seq)] }

/-- One reduction step of a use (R56, R286). -/
def foldElem (b : Nat) (f : Fmt) (rm : Nat) (x y : Nat) : Nat × Flags :=
  let pal := cdPal b
  let sat := (cdCtl b).getLsbD 11
  let c := encMode pal f rm sat
  let op := bitsAt (cdAux b) 10 3
  match f with
  | .int s w =>
    let a := decodeInt s w x
    let d := decodeInt s w y
    match op with
    | 0 => encodeInt s w sat (a + d)
    | 1 => (if d < a then y else x, 0#6)
    | _ => (if a < d then y else x, 0#6)
  | _ =>
    let a := decodeVal (palFtz pal) f x
    let d := decodeVal (palFtz pal) f y
    let r := match op with
      | 0 => addVal rm [a, d] a d
      | 1 => minMaxVal false a d
      | _ => minMaxVal true a d
    let e := encodeFloat f f.prec c r.1
    (e.1, e.2 ||| r.2)

/-- A list of equally long rows, one for each member, folded position by position. -/
def foldRows (b : Nat) (f : Fmt) (rm : Nat) : List (List ElemRead) → List ElemRead
  | [] => []
  | [r] => r
  | r :: rest =>
    rest.foldl (fun acc row => List.zipWith (fun x y =>
      let v := foldElem b f rm x.bits y.bits
      ({ bits := v.1, poison := x.poison || y.poison, flags := x.flags ||| v.2 } : ElemRead)) acc row) r

/-- The command of a joined member. -/
def State.copyOf (s : State) (h : HartId) (seq : Nat) : Option CopyCmd :=
  (s.core h.coreId).copies.find? fun c => c.hart == h && c.entry.seq == seq

/-- A member's command with its transfer. -/
structure Member where
  cluster : Nat
  cmd     : CopyCmd
  kind    : CopyKind
  rm      : Nat
  deriving Repr

def State.members (s : State) (u : GroupUse) : List Member :=
  (u.joined.filterMap fun j =>
    (s.copyOf j.2.1 j.2.2).bind fun c => (copyWellFormed .collective (s.isRoot c) c.entry c.desc).map fun k =>
      ({ cluster := j.1, cmd := c, kind := k.1, rm := k.2 } : Member))

/-- Members in ascending cluster order. -/
def orderMembers (l : List Member) : List Member :=
  (List.range 48).flatMap fun c => l.filter fun m => m.cluster == c

/-- Reads the sources of members: their rows, or the first failure. -/
def readMembers (n : Nat) (take : Bool) : List Member → M (List (List ElemRead) × Option (Nat × Nat))
  | [] => return ([], none)
  | m :: l => do
    let r ← readAll m.cmd.mover m.cmd.desc m.kind (take && m.kind.unchanged) (fun _ => none) n 0
    let rest ← readMembers n take l
    let worst := match r.2, rest.2 with
      | some a, some b => some (if b.2 < a.2 then b else a)
      | some a, none => some a
      | none, x => x
    return (r.1 :: rest.1, worst)

/-- The end of a member that writes rows and shares the failure of the reads. -/
def writeMember (rows : List ElemRead) (fail : Option (Nat × Nat)) (m : Member) : M CopyEnd := do
  let w ← writeAll m.cmd.mover m.cmd.desc m.kind m.rm (fun _ => none) (rows.take ((fail.map Prod.snd).getD rows.length)) 0 0#6
  let e := (w.2.or fail).getD (csOk, 0)
  return { status := e.1, detail := e.2, flags := w.1 }

/-- The ends of a use's members, as (cluster, end): those that dest holds of write, the others share what the reads met. -/
def writeMembers (rows : List ElemRead) (fail : Option (Nat × Nat)) (dest : Member → Bool) :
    List Member → M (List (Nat × CopyEnd))
  | [] => return []
  | m :: l => do
    let e ← (if dest m then writeMember rows fail m
      else return { status := (fail.getD (csOk, 0)).1, detail := (fail.getD (csOk, 0)).2, flags := 0#6 } : M CopyEnd)
    let rest ← writeMembers rows fail dest l
    return (m.cluster, e) :: rest

/-- The data of a whole use: what each member's command ends with (R286). A reduction consumes its elements' poison
(R382). -/
def runUse (e : GroupEntry) (u : GroupUse) : M (List (Nat × CopyEnd)) := do
  let ms := orderMembers ((← get).members u)
  let isRoot := fun (m : Member) => m.cluster == e.root
  match ms with
  | [] => return []
  | m :: _ => do
    let op := bitsAt (cdAux m.cmd.desc) 8 2
    if op = 0 then
      let r ← readMembers u.count true (ms.filter isRoot)
      writeMembers (r.1.headD []) r.2 (fun _ => true) ms
    else
      let r ← readMembers u.count false ms
      let f := match m.kind with
        | .same f => f
        | _ => .int false 8
      writeMembers (foldRows m.cmd.desc f m.rm r.1) r.2 (fun x => op == 2 || isRoot x) ms

/-! ## Completion (R278, R279) -/

/-- The completion word. -/
def completionWord (b : Nat) (e : CopyEnd) : Word :=
  setField (setField (setField (setField (setField 0#64 63 1 1) 62 1
    (if (cdCtl b).getLsbD 7 ∧ e.status = csOk then 1 else 0)) 16 40 e.detail) 8 6 e.flags.toNat) 0 8 e.status

/-- Runs m for its effect; a fault leaves nothing of it. -/
def ifItCan (m : M Unit) : M Unit := fun s =>
  match m s with
  | .ok _ t => .ok () t
  | .error (.held w) t => .error (.held w) t
  | .error _ t => .ok () (s.keepRequests t)

/-- Takes a completed command off its core, its entry off CQ, and the poisoned answers that it has not used. -/
def State.dropCopy (s : State) (c : CopyCmd) : State :=
  let s0 := { s with dev := { s.dev with
    requests := s.dev.requests.filter fun r => !(r.engine == some c.hart && !r.write && r.poison) } }
  let s1 := s0.modCore c.hart.coreId fun k => { k with
    copies := k.copies.filter fun d => !(d.hart == c.hart && d.entry.seq == c.entry.seq) }
  let s2 := s1.modHart c.hart fun h => { h with cq := h.cq.filter fun e => !(e.ready && e.seq == c.entry.seq) }
  match c.gang with
  | some g => s2.checkGang g
  | none => s2

/-- The fault of a command that had no way to report its status (R289). -/
def unreportedFault (c : CopyCmd) : StreamFault :=
  { seq := c.entry.seq, pc := c.entry.pc, stream := 3, cause := 28, sub := 3, addr := c.entry.cap.x1, tval := 0#64,
    vstart := 0 }

/-- A command completes (R279). -/
def completeCopy (c : CopyCmd) (e : CopyEnd) : M Unit := do
  let p := c.party
  let b := c.desc
  let w := completionWord b e
  let comp := cdComp b
  if (comp = 0 ∨ comp = 2) ∧ cdCword b ≠ 0#64 then ifItCan (storeVa p (cdCword b) 8 w.toNat)
  if comp = 1 ∨ comp = 2 then
    match c.slot with
    | some sl => ifItCan (do
        let x ← openRing p sl.handle
        let _ ← commitSlot p x.1 x.2 sl.counter false
        pure ())
    | none => pure ()
  if (cdNotify b).getLsbD 31 then
    if (targetCore (cdNotify b)).cluster < 48 then
      let _ ← deliverArrival (targetCore (cdNotify b))
        { chan := targetChan (cdNotify b), kind := 0, source := none, len := 16,
          record := lowBytes 8 w.toNat ++ lowBytes 8 c.entry.cap.x1.toNat }
  if comp = 1 ∧ e.status ≠ csOk then
    modify fun s => s.modHart c.hart fun h => { h with faults := h.faults ++ [unreportedFault c] }
  if e.status = csPoison then
    modify fun s => s.interruptLantern c.hart.clusterId
      (setField (wordOf 48) 32 6 (8 * c.hart.core + c.hart.hart))
  modify fun s => s.dropCopy c

/-- The completion of a member of a use, counted; the last one lets the use complete (R287). -/
def completeMember (c : CopyCmd) (e : CopyEnd) : M Unit := do
  completeCopy c e
  modify fun s =>
    let u := s.groupUse c.hart.die c.group
    let v := { u with done_ := u.done_ + 1 }
    let s1 := s.setGroupUse v
    if v.joined.length ≤ v.done_ then s1.post [.collectiveUseComplete c.hart.die c.group] else s1

/-- A write by a hart's commands to a peer has still to be acknowledged. -/
def State.enginePending (s : State) (h : HartId) : Bool := s.dev.requests.any fun r => r.engine == some h && r.write

/-- A host write among outputs. -/
def Output.isHostWrite : Output → Bool
  | .hostWrite _ _ => true
  | _ => false

/-- The completion of a command whose data has moved: once every write to a peer is acknowledged, and after writes to the
host a zero-length read (R279, R404, R408). -/
def completeEnded (c : CopyCmd) (e : CopyEnd) : M Unit := do
  if (← get).enginePending c.hart then hold .release
  if c.host then
    let _ ← remoteRead c.party 0#64 .load 0x100_0000_0000 0 fun id => .hostRead id 0 0
  if c.joined then completeMember c e else completeCopy c e

/-- Commands end: each completes now, or later in an event of its own where it waits for acknowledgements. -/
def endCopies (before : Nat) (l : List (CopyCmd × CopyEnd)) : M Unit := do
  let s ← get
  let host := (s.dev.outputs.drop before).any Output.isHostWrite
  if host || l.any fun x => s.enginePending x.1.hart then
    forM' (fun x => modify fun s =>
      (s.modCore x.1.hart.coreId fun k => { k with copies := k.copies.map fun d =>
        if d.hart = x.1.hart ∧ d.entry.seq = x.1.entry.seq then { d with ended := some x.2, host := host } else d }).post
        [.copyCompletion x.1.hart 0]) l
  else forM' (fun x => if x.1.joined then completeMember x.1 x.2 else completeCopy x.1 x.2) l

/-- The end of a command that has moved nothing. -/
def formatEnd (status : Nat) : CopyEnd := { status := status, detail := 0, flags := 0#6 }

/-- A command can complete now: it is not stopped, and its use, if it has joined one, drains. -/
def State.finishable (s : State) (c : CopyCmd) : Bool :=
  !c.stopped &&
  (!c.joined || ((s.groupUse c.hart.die c.group).full (s.groupEntryOf c.hart.die c.group)))

/-- Every member of a draining use completes, after the whole use's data has moved (R286). -/
def finishUse (die g : Nat) : M Unit := do
  let s ← get
  let u := s.groupUse die g
  if !u.moved then
    let ends ← runUse (s.groupEntryOf die g) u
    modify fun t => t.setGroupUse { u with moved := true }
    endCopies s.dev.outputs.length ((orderMembers (s.members u)).map fun m =>
      (m.cmd, (ends.lookup m.cluster).getD (formatEnd csFormat)))

/-- The work of a command that can complete. -/
def finishCopy (c : CopyCmd) : M Unit := do
  let b := c.desc
  match c.ended with
  | some e => completeEnded c e
  | none =>
    if c.joined then finishUse c.hart.die c.group
    else
      match copyWellFormed (copyOp c.entry.instr) ((← get).isRoot c) c.entry b with
      | none => completeCopy c (formatEnd csFormat)
      | some (k, rm) => do
        let n := (← get).dev.outputs.length
        let e ← match copyOp c.entry.instr with
          | .gather => runGather c.mover b k rm c.entry.cap.x2 c.next c.flags
          | _ => runTensor c.mover b k rm c.next c.flags
        endCopies n [(c, e)]

/-- COPY_COMPLETION (R279): the first command of the hart, counted from the n-th, that can complete. -/
def execCopyCompletion (h : HartId) (n : Nat) (s : State) : Host.Outcome State Fault Refusal :=
  runEvent (.copyCompletion h n) (do
    let s ← get
    let mine := (s.core h.coreId).copies.filter fun c => c.hart == h
    match (mine.drop n ++ mine.take n).find? s.finishable with
    | some c => finishCopy c
    | none => pure ()) s

/-- COLLECTIVE_USE_COMPLETE (R287). -/
def execCollectiveUseComplete (die g : Nat) (s : State) : Host.Outcome State Fault Refusal :=
  let u := s.groupUse die g
  if u.busy && u.moved && decide (u.joined.length ≤ u.done_) then
    let v := { GroupUse.idle die g with uses := u.uses + 1 }
    .next ((s.setGroupUse v).writeUseStatus (s.groupEntryOf die g).stline v)
  else .next s

/-- GROUP_ENTRY_WRITE (R285, R287): the Lantern rewrites bytes of an entry; the CPYCs that an armed use has joined
complete with FORMAT. -/
def execGroupEntryWrite (die g off : Nat) (data : List Byte) (s : State) : Host.Outcome State Fault Refusal :=
  let u := s.groupUse die g
  let e := s.groupEntryOf die g
  let s1 := { s with mem := s.mem.writeBytes (groupEntry die g + off) (data.take (32 - off)) }
  if u.busy && !u.moved then
    let s2 := u.joined.foldl (fun (t : State) j =>
      (t.modCore j.2.1.coreId fun k => { k with copies := k.copies.map fun c =>
        if c.hart = j.2.1 ∧ c.entry.seq = j.2.2 then { c with ended := some (formatEnd csFormat), joined := false } else c }).post
        [.copyCompletion j.2.1 0]) s1
    let v := { GroupUse.idle die g with uses := u.uses }
    .next ((s2.setGroupUse v).writeUseStatus e.stline v)
  else .next s1

/-! ## Hand-over (R271, R279, R289) -/

/-- A fault of the copy stream that stays with its entry. -/
def copyFault (e : QEntry) (sub : Nat) : M Unit := modH fun h => { h with
  faults := h.faults ++ [{ seq := e.seq, pc := e.pc, stream := 3, cause := 28, sub := sub, addr := e.cap.x1,
                           tval := 0#64, vstart := 0 }] }

/-- The descriptor's bytes; none where its read faults. -/
def readDescriptor (p : Party) (d : Word) : M (Option Nat) := do
  match ← attempt (do
      let b ← loadVa p d .load 64
      let more ← loadVa p (d + 64#64) .load (24 * cdNdims b)
      return b + 2 ^ 512 * more) with
  | .ok v => return some v
  | .error _ => return none

/-- The completion word can be written (R289). -/
def cwordOk (p : Party) (va : Word) : M Bool := do
  if va = 0#64 then return true
  if va.toNat % 8 ≠ 0 then return false
  match ← attempt (do
      let t ← translateM p.ctx va .store
      checkPa p .store va t.pa true) with
  | .ok _ => return true
  | .error _ => return false

/-- The producer entry of the slot list that holds a window address (R279). -/
def heldSlot (p : Party) (va : Word) : List SlotEntry → M (Option SlotEntry)
  | [] => return none
  | e :: l => fun s =>
    match (do
        let x ← openRing p e.handle
        return !e.consumer && x.1.gang.isSome && slotAddr p.ctx x.2 e.counter == va : M Bool) s with
    | .ok true t => .ok (some e) t
    | .ok false t => heldSlot p va l t
    | .error _ t => heldSlot p va l (s.keepWalks t)

/-- The engine takes an entry over, with the slot it commits and what its group says. -/
def takeOver (e : QEntry) (b : Nat) (slot : Option SlotEntry) : M Unit := do
  let h ← getH
  let cmd : CopyCmd :=
    { hart := h.id, entry := e, desc := b, gang := h.placed.map Placed.gang, satp := h.satp, sbase := h.sbase,
      priv := h.priv, sum := h.sstatus.getLsbD 18, mxr := h.sstatus.getLsbD 19, slot := slot,
      joined := false, stopped := false, next := 0, flags := 0#6, ended := none, host := false }
  modH fun k => { k with
    cq := k.cq.map fun x => if x.seq = e.seq then { x with ready := true } else x,
    slots := match slot with
      | some sl => dropEntry sl k.slots
      | none => k.slots }
  let add := fun (c : CopyCmd) => modify fun s => s.modCore h.id.coreId fun k => { k with copies := k.copies ++ [c] }
  let s ← get
  if copyOp e.instr = .collective ∧ (copyWellFormed .collective (s.isRoot cmd) e b).isSome then
    let g := cmd.group
    match s.joinUse h.id e.seq g (fieldOf h.satp 44 16) (cdTotal b) with
    | .error st => do
      add { cmd with ended := some (formatEnd st) }
      modify fun s => s.post [.copyCompletion h.id 0]
    | .ok u => do
      add { cmd with joined := true }
      let en := s.groupEntryOf h.id.die g
      modify fun s =>
        let s1 := s.setGroupUse u
        let s2 := if u.joined.length = 1 then s1.writeUseStatus en.stline u else s1
        if u.full en then s2.post [.copyCompletion h.id 0] else s2
  else do
    add cmd
    modify fun s => s.post [.copyCompletion h.id 0]

/-- The hand-over of the oldest command that has not been handed over: Held until the accesses before it are performed;
a command that could not report stays, with its fault (R271, R289). -/
def handOver : M Unit := do
  let h ← getH
  match h.cq.find? fun e => !e.ready with
  | none => pure ()
  | some e =>
    if h.faults.any fun f => f.seq == e.seq then pure ()
    else do
      if (h.vq ++ h.mq).any fun x => decide (x.seq < e.seq) && accessesMemory h x.instr then hold .older
      let own ← ownParty
      settleStreams own
      let p : Party := { ctx := { own.ctx with self := none }, self := none, plain := true, engine := some h.id }
      let d := e.cap.x1
      let raw ← (if d.toNat % 64 = 0 then readDescriptor p d else return none : M (Option Nat))
      match raw with
      | none => copyFault e 1
      | some b => do
        let comp := cdComp b
        let wordOk ← (if comp = 0 ∨ comp = 2 then cwordOk p (cdCword b) else return true : M Bool)
        let slot ← (if comp = 1 ∨ comp = 2 then heldSlot p (cdSlot b) h.slots else return none : M (Option SlotEntry))
        if comp = 3 ∨ !wordOk ∨ ((comp = 1 ∨ comp = 2) ∧ slot.isNone) then copyFault e 2
        else do
          takeOver e b slot
          if ((← getH).cq.any fun x => !x.ready) then modify fun s => s.post [.copyHandOver h.id]

/-- COPY_HAND_OVER (R271). What the copy stream makes of an experimental combination is the firmware's (R427). -/
def execCopyHandOver (h : HartId) (s : State) : Host.Outcome State Fault Refusal :=
  if (s.hartAt h).cq.isEmpty then .next s
  else if (((s.hartAt h).cq.find? fun e => !e.ready).map QEntry.expands).getD false then .refused .expansionBody
  else runEvent (.copyHandOver h) (onHart h handOver) s

/-! ## Owner bits by address (R288) -/

/-- The loc 1 ring and slot that an address names; an ENGINE-FAULT where it names none. -/
def ownedSlot (p : Party) (va : Word) : M (RingRef × RingDesc × Nat) := do
  match ← ringAtAddr p va with
  | some x => return x
  | none => throw (.stream 28 4 va 0#64)

def execOwnset (rs1 rs2 : Reg) (s : State) : Host.Outcome State Fault Refusal :=
  runScalar (do
    abortIfTx 7
    waitOlder
    let p ← ownParty
    let va ← readX rs1
    let v ← readX rs2
    let x ← ownedSlot p va
    if 1 < v.toNat then throw (.stream 28 5 va 0#64)
    let r ← openRing p x.1.handle
    let l := (← getH).slots
    match l.find? fun e => e.handle == r.1.handle && e.consumer == (v == 0#64) && e.counter % r.2.n == x.2.2 with
    | none => throw (.stream 28 5 va 0#64)
    | some e => do
      scalarRelease 2
      modH fun h => { h with slots := dropEntry e l }
      if v = 1#64 then
        let st ← commitSlot p r.1 r.2 e.counter false
        setRstat 1 st e.counter false
      else
        releaseSlot p r.1 r.2 e.counter
        setRstat 3 stOk e.counter false
      advance 4) s

def execOwntst (rd rs1 : Reg) (s : State) : Host.Outcome State Fault Refusal :=
  runScalar (do
    abortIfTx 7
    waitOlder
    let p ← ownParty
    let x ← ownedSlot p (← readX rs1)
    let s ← get
    let owned := match x.1.gang.bind fun g => g.fifoPa (x.2.1.base.toNat + x.2.1.slotOff x.2.2) with
      | some pa => (s.cluster (ClusterId.ofIndex x.1.cluster)).owners.contains pa
      | none => false
    writeX rd (if owned then 1#64 else 0#64)
    advance 4) s

end Sys2Proof.Machine
end

