-- ==== Sys2Proof/Machine/Texture.lean ====
section
/-! DEFINITION. W group 5, textures: bindings, texel addresses and formats, the sampler and its four instructions
(15 R325 to R330). -/

namespace Sys2Proof.Machine

/-! ## Texels (R325, R326, R329) -/

/-! The sRGB transfer function of n/255, rounded to F32 (R329): entry n of the table as an F32 pattern (log entry 23). -/

def srgbPart0 : List Nat := [
  0x00000000, 0x399F22B4, 0x3A1F22B4, 0x3A6EB40E, 0x3A9F22B4, 0x3AC6EB61, 0x3AEEB40E, 0x3B0B3E5D,
  0x3B1F22B4, 0x3B33070A, 0x3B46EB61, 0x3B5B518E, 0x3B70F18F, 0x3B83E1C6, 0x3B8FE616, 0x3B9C87FD,
  0x3BA9C9B6, 0x3BB7AD6F, 0x3BC6354A, 0x3BD56360, 0x3BE539C1, 0x3BF5BA71, 0x3C0373B6, 0x3C0C6153,
  0x3C15A705, 0x3C1F45BE, 0x3C293E6B, 0x3C3391F7, 0x3C3E4149, 0x3C494D44, 0x3C54B6C9, 0x3C607EB4]

def srgbPart1 : List Nat := [
  0x3C6CA5DF, 0x3C792D22, 0x3C830AA9, 0x3C89AF9F, 0x3C9085DC, 0x3C978DC6, 0x3C9EC7C2, 0x3CA63433,
  0x3CADD37D, 0x3CB5A602, 0x3CBDAC21, 0x3CC5E63A, 0x3CCE54AC, 0x3CD6F7D5, 0x3CDFD010, 0x3CE8DDBA,
  0x3CF2212D, 0x3CFB9AC3, 0x3D02A56A, 0x3D0798DD, 0x3D0CA7E6, 0x3D11D2AF, 0x3D171964, 0x3D1C7C30,
  0x3D21FB3C, 0x3D2796B2, 0x3D2D4EBB, 0x3D332381, 0x3D39152B, 0x3D3F23E4, 0x3D454FD2, 0x3D4B991D]

def srgbPart2 : List Nat := [
  0x3D51FFEC, 0x3D588468, 0x3D5F26B6, 0x3D65E6FD, 0x3D6CC563, 0x3D73C20E, 0x3D7ADD24, 0x3D810B65,
  0x3D84B793, 0x3D88732E, 0x3D8C3E48, 0x3D9018F4, 0x3D940344, 0x3D97FD49, 0x3D9C0715, 0x3DA020BA,
  0x3DA44A4A, 0x3DA883D6, 0x3DACCD6F, 0x3DB12727, 0x3DB5910F, 0x3DBA0B38, 0x3DBE95B3, 0x3DC33090,
  0x3DC7DBE0, 0x3DCC97B4, 0x3DD1641D, 0x3DD6412B, 0x3DDB2EEE, 0x3DE02D76, 0x3DE53CD4, 0x3DEA5D18]

def srgbPart3 : List Nat := [
  0x3DEF8E51, 0x3DF4D090, 0x3DFA23E5, 0x3DFF885E, 0x3E027F06, 0x3E05427F, 0x3E080EA2, 0x3E0AE377,
  0x3E0DC104, 0x3E10A753, 0x3E13966A, 0x3E168E51, 0x3E198F0F, 0x3E1C98AC, 0x3E1FAB30, 0x3E22C6A1,
  0x3E25EB07, 0x3E29186A, 0x3E2C4ED0, 0x3E2F8E42, 0x3E32D6C5, 0x3E362862, 0x3E39831F, 0x3E3CE703,
  0x3E405417, 0x3E43CA60, 0x3E4749E6, 0x3E4AD2AF, 0x3E4E64C3, 0x3E520029, 0x3E55A4E7, 0x3E595305]

def srgbPart4 : List Nat := [
  0x3E5D0A89, 0x3E60CB7A, 0x3E6495DF, 0x3E6869BE, 0x3E6C471F, 0x3E702E07, 0x3E741E7E, 0x3E78188B,
  0x3E7C1C33, 0x3E8014BF, 0x3E822039, 0x3E84308B, 0x3E8645B8, 0x3E885FC3, 0x3E8A7EB0, 0x3E8CA281,
  0x3E8ECB3B, 0x3E90F8DF, 0x3E932B72, 0x3E9562F6, 0x3E979F6F, 0x3E99E0E0, 0x3E9C274C, 0x3E9E72B6,
  0x3EA0C321, 0x3EA31890, 0x3EA57307, 0x3EA7D288, 0x3EAA3716, 0x3EACA0B6, 0x3EAF0F68, 0x3EB18332]

def srgbPart5 : List Nat := [
  0x3EB3FC15, 0x3EB67A14, 0x3EB8FD34, 0x3EBB8576, 0x3EBE12DE, 0x3EC0A56E, 0x3EC33D2A, 0x3EC5DA14,
  0x3EC87C30, 0x3ECB2380, 0x3ECDD008, 0x3ED081CA, 0x3ED338C9, 0x3ED5F508, 0x3ED8B68A, 0x3EDB7D52,
  0x3EDE4963, 0x3EE11ABF, 0x3EE3F169, 0x3EE6CD65, 0x3EE9AEB5, 0x3EEC955B, 0x3EEF815C, 0x3EF272B8,
  0x3EF56974, 0x3EF86593, 0x3EFB6716, 0x3EFE6E00, 0x3F00BD2B, 0x3F02460C, 0x3F03D1A5, 0x3F055FF7]

def srgbPart6 : List Nat := [
  0x3F06F104, 0x3F0884CD, 0x3F0A1B54, 0x3F0BB499, 0x3F0D509F, 0x3F0EEF65, 0x3F1090EF, 0x3F12353D,
  0x3F13DC50, 0x3F15862A, 0x3F1732CC, 0x3F18E237, 0x3F1A946E, 0x3F1C4970, 0x3F1E0140, 0x3F1FBBDE,
  0x3F21794D, 0x3F23398C, 0x3F24FC9F, 0x3F26C285, 0x3F288B41, 0x3F2A56D2, 0x3F2C253C, 0x3F2DF67F,
  0x3F2FCA9C, 0x3F31A194, 0x3F337B6A, 0x3F35581D, 0x3F3737B0, 0x3F391A24, 0x3F3AFF7A, 0x3F3CE7B2]

def srgbPart7 : List Nat := [
  0x3F3ED2CF, 0x3F40C0D2, 0x3F42B1BC, 0x3F44A58E, 0x3F469C49, 0x3F4895EF, 0x3F4A9280, 0x3F4C91FF,
  0x3F4E946C, 0x3F5099C9, 0x3F52A216, 0x3F54AD56, 0x3F56BB88, 0x3F58CCAF, 0x3F5AE0CC, 0x3F5CF7DF,
  0x3F5F11EA, 0x3F612EEF, 0x3F634EEE, 0x3F6571E9, 0x3F6797E0, 0x3F69C0D5, 0x3F6BECCA, 0x3F6E1BBF,
  0x3F704DB5, 0x3F7282AE, 0x3F74BAAB, 0x3F76F5AE, 0x3F7933B6, 0x3F7B74C6, 0x3F7DB8DE, 0x3F800000]
def srgbTable : List Nat :=
  srgbPart0 ++ srgbPart1 ++ srgbPart2 ++ srgbPart3 ++ srgbPart4 ++ srgbPart5 ++ srgbPart6 ++ srgbPart7

/-- The position of pixel (x, y) of a 4 × 4 block in the element order (R325). -/
def quadIndex (x y : Nat) : Nat := 4 * (2 * (y / 2 % 2) + x / 2 % 2) + 2 * (y % 2) + x % 2

/-- The pixel (x, y) of element i of a block (R325). -/
def quadPixel (i : Nat) : Nat × Nat := (2 * (i / 4 % 2) + i % 2, 2 * (i / 8 % 2) + i / 2 % 2)

/-- The bytes of a texel, and the sides of a block in texels (R326): an ASTC block is read whole. -/
def texelBytes (fmt : Nat) : Nat := [4, 4, 8, 16, 4, 1, 2, 4, 4, 16, 16].getD fmt 0
def blockSide (fmt : Nat) : Nat := if fmt = 10 then 8 else 4

/-- A channel value times 65,535, which makes n/255, c/65,535 and every float a dyadic number. -/
def unorm8 (n : Nat) : Val := .num false (257 * n) 0 false
def unormFloat (f : Fmt) (bits : Nat) : Val :=
  match decodeFloat f bits with
  | .num s m e more => .num s (65535 * m) e more
  | v => v
def unormOne : Val := .num false 65535 0 false

/-- A texel's four channels, times 65,535, from its bytes; x and y are its place in an ASTC block (R329, log entry 24). -/
def texelDecode (fmt raw x y : Nat) : List Val :=
  let z := Val.zero false
  let c8 (k : Nat) : Nat := bitsAt raw (8 * k) 8
  let c16 (k : Nat) : Val := unormFloat .f16 (bitsAt raw (16 * k) 16)
  let c32 (k : Nat) : Val := unormFloat .f32 (bitsAt raw (32 * k) 32)
  let srgb (k : Nat) : Val := unormFloat .f32 (srgbTable.getD (c8 k) 0)
  match fmt with
  | 0 => [unorm8 (c8 0), unorm8 (c8 1), unorm8 (c8 2), unorm8 (c8 3)]
  | 1 => [srgb 0, srgb 1, srgb 2, unorm8 (c8 3)]
  | 2 => [c16 0, c16 1, c16 2, c16 3]
  | 3 => [c32 0, c32 1, c32 2, c32 3]
  | 4 => [c16 0, c16 1, z, unormOne]
  | 5 => [unorm8 (c8 0), z, z, unormOne]
  | 6 => [c16 0, z, z, unormOne]
  | 7 => [c32 0, z, z, unormOne]
  | 8 => [c32 0, z, z, unormOne]
  | _ => (astcTexel (blockSide fmt) raw x y).map fun n => .num false n 0 false

/-! ## Bindings (R326, R330) -/

/-- A binding as the sampler read it. -/
structure TexBinding where
  at_     : Word
  base    : Word
  fmt     : Nat
  levels  : Nat
  dim     : Nat
  w       : Nat
  h       : Nat
  layers  : Nat
  lstride : Nat
  mag     : Nat
  small   : Nat
  mip     : Nat
  au      : Nat
  av      : Nat
  cmp     : Nat
  bias    : Val
  minlod  : Val
  maxlod  : Val
  border  : List Val
  deriving DecidableEq, Repr

def TexBinding.ofBytes (a : Word) (b : Nat) : TexBinding :=
  let f (off n : Nat) : Nat := bitsAt b (8 * off) (8 * n)
  let fl (off : Nat) : Val := decodeFloat .f32 (f off 4)
  { at_ := a, base := wordOf (f 0 8), fmt := f 8 1, levels := f 9 1, dim := f 10 1, w := f 12 2 + 1, h := f 14 2 + 1,
    layers := f 16 2 + 1, lstride := f 24 8, mag := f 64 1 % 4, small := f 64 1 / 4 % 4, mip := f 64 1 / 16 % 4,
    au := f 65 1 % 4, av := f 65 1 / 4 % 4, cmp := f 66 1, bias := fl 68, minlod := fl 72, maxlod := fl 76,
    border := (List.range 4).map fun k => unormFloat .f32 (f (80 + 4 * k) 4) }

/-- The texture descriptor and the bytes beyond both descriptors are in range (R326). -/
def textureOk (b : Nat) : Bool :=
  let f (off n : Nat) : Nat := bitsAt b (8 * off) (8 * n)
  f 0 8 % 256 == 0 && decide (f 8 1 ≤ 10) && decide (1 ≤ f 9 1) && decide (f 9 1 ≤ 16) && decide (f 10 1 ≤ 1) &&
  f 11 1 == 0 && (f 10 1 == 1 || f 16 2 == 0) && f 18 6 == 0 && f 24 8 % 256 == 0 && f 32 32 == 0 && f 96 32 == 0

/-- The sampler descriptor is in range (R326). -/
def samplerOk (b : Nat) : Bool :=
  let f (off n : Nat) : Nat := bitsAt b (8 * off) (8 * n)
  let filter := f 64 1
  decide (filter % 4 ≤ 1) && decide (filter / 4 % 4 ≤ 1) && decide (filter / 16 ≤ 2) && decide (f 65 1 < 16) &&
  decide (f 66 1 ≤ 8) && f 67 1 == 0 &&
  !(decodeFloat .f32 (f 68 4)).isNan && !(decodeFloat .f32 (f 72 4)).isNan && !(decodeFloat .f32 (f 76 4)).isNan

/-- A GRAPHICS-FAULT (R330, R335). -/
def graphicsFault {α : Type} (sub : Nat) (addr : Word) : M α := throw (.stream 30 sub addr addr)

/-- A read at dispatch: a fault of it has vstart 0 (R330, R331). -/
def readAtDispatch (va : Word) (align n : Nat) : M Nat := do
  let lo := (← getH).vstart
  atStart
  if va.toNat % align ≠ 0 then throw (.mem (.misaligned .load va))
  let b ← loadVa (← ownParty) va .load n
  modH fun h => { h with vstart := lo }
  return b

/-- Reads and checks a binding (R330). -/
def readBinding (va : Word) : M TexBinding := do
  let b ← readAtDispatch va 128 128
  if !textureOk b then do atStart; graphicsFault 1 va
  if !samplerOk b then do atStart; graphicsFault 2 va
  return TexBinding.ofBytes va b

/-! ## Addressing (R326, R328) -/

def TexBinding.width (t : TexBinding) (l : Nat) : Nat := max 1 (t.w / 2 ^ l)
def TexBinding.height (t : TexBinding) (l : Nat) : Nat := max 1 (t.h / 2 ^ l)

/-- The blocks of a side of n texels. -/
def TexBinding.blocks (t : TexBinding) (n : Nat) : Nat := (n + blockSide t.fmt - 1) / blockSide t.fmt

def TexBinding.blockBytes (t : TexBinding) : Nat := if 9 ≤ t.fmt then 16 else 16 * texelBytes t.fmt

/-- The offset of a level in a layer. -/
def TexBinding.levelOff (t : TexBinding) : Nat → Nat
  | 0 => 0
  | l + 1 =>
    let n := t.levelOff l + t.blocks (t.width l) * t.blocks (t.height l) * t.blockBytes
    (n + 255) / 256 * 256

/-- A texel index under an address mode; none is the border. -/
def addressTexel (mode : Nat) (i : Int) (n : Nat) : Option Nat :=
  match mode with
  | 0 => some (i % (n : Int)).toNat
  | 1 => some (min (max i 0) ((n : Int) - 1)).toNat
  | 2 =>
    let t := (i % (2 * n : Int)).toNat
    some (if t < n then t else 2 * n - 1 - t)
  | _ => if 0 ≤ i ∧ i < (n : Int) then some i.toNat else none

/-- The function of a compare code (R322, R323): a NaN fails every function but always. -/
def compareFn (code : Nat) (a b : Val) : Bool :=
  if code = 8 then true
  else if code = 1 || a.isNan || b.isNan then false
  else
    let c := cmpVal a b
    match code with
    | 2 => decide (c < 0)
    | 3 => c == 0
    | 4 => decide (c ≤ 0)
    | 5 => decide (0 < c)
    | 6 => c != 0
    | _ => decide (0 ≤ c)

/-- The texel at indices of a level of a layer, after the compare: its channels times 65,535. -/
def TexBinding.texel (t : TexBinding) (layer l : Nat) (x y : Int) (ref : Val) : M (List Val) := do
  let v ← match addressTexel t.au x (t.width l), addressTexel t.av y (t.height l) with
    | some i, some j => do
      let side := blockSide t.fmt
      let block := j / side * t.blocks (t.width l) + i / side
      let inner := if 9 ≤ t.fmt then 0 else quadIndex i j * texelBytes t.fmt
      let off := layer * t.lstride + t.levelOff l + block * t.blockBytes + inner
      let raw ← loadElem (← ownParty) (t.base + wordOf off) (texelBytes t.fmt)
      pure (texelDecode t.fmt raw (i % side) (j % side))
    | _, _ => pure t.border
  if t.cmp = 0 then return v
  else
    let r := if compareFn t.cmp (mulVal [] ref unormOne).1 (v.getD 0 (Val.zero false)) then unormOne else Val.zero false
    return [r, r, r, v.getD 3 unormOne]

/-! ## Coordinates and levels (R328) -/

/-- The largest finite F32 value. -/
def f32Max (neg : Bool) : Val := .num neg (2 ^ 24 - 1) 104 false

/-- A NaN coordinate is 0, an infinite one the largest finite value of its sign. -/
def finiteCoord : Val → Val
  | .nan _ _ => Val.zero false
  | .inf s => f32Max s
  | v => v

/-- ⌊v⌋ of a finite value. -/
def Val.floor : Val → Int
  | .num s m e more => (roundInt 2 s m e more).1
  | _ => 0

def Val.plus (a b : Val) : Val := (addVal 0 [a, b] a b).1
def Val.minus (a b : Val) : Val := a.plus b.negate
def Val.times (a b : Val) : Val := (mulVal [a, b] a b).1

def clampVal (x lo hi : Val) : Val :=
  let y := if cmpVal x lo < 0 then lo else x
  if cmpVal hi y < 0 then hi else y

/-- The square of one axis of ρ. -/
def rhoSquare (du dv : Val) (w h : Nat) : Val :=
  let a := du.times (.ofInt w)
  let b := dv.times (.ofInt h)
  (a.times a).plus (b.times b)

/-- log2 ρ from ρ², to the nearest multiple of 2^−8: ρ² is dyadic, so no tie arises. A NaN gradient gives a NaN. -/
def lodOf (a b : Val) : Val :=
  if a.isNan || b.isNan then .nan none false
  else
    match (if cmpVal a b < 0 then b else a) with
    | .num _ m e _ =>
      if m = 0 then .inf true
      else
        let n := ((Nat.log2 (m ^ 256) : Int) + 256 * e + 1) / 2
        .num (decide (n < 0)) n.natAbs (-8) false
    | v => v

/-- λ after bias and clamp. -/
def TexBinding.lod (t : TexBinding) (lam : Val) : Val :=
  let s := lam.plus t.bias
  clampVal (if s.isNan then t.minlod else s) t.minlod t.maxlod

/-- The level that a value names, at most levels − 1. -/
def TexBinding.levelAt (t : TexBinding) (v : Val) : Nat :=
  match v with
  | .inf s => if s then 0 else t.levels - 1
  | _ => (min (max v.floor 0) ((t.levels : Int) - 1)).toNat

/-- The levels used with their weights. λ = −∞ leaves b open (log entry 25). -/
def TexBinding.mips (t : TexBinding) (lam : Val) : M (List (Nat × Val)) := do
  let one : Val := .ofInt 1
  match t.mip with
  | 0 => return [(0, one)]
  | 1 => return [(t.levelAt (lam.plus (.num false 1 (-1) false)), one)]
  | _ => do
    let l0 := t.levelAt lam
    let l1 := min (l0 + 1) (t.levels - 1)
    let b ← match lam with
      | .num _ _ _ _ => pure (lam.minus (.ofInt lam.floor))
      | _ => if l0 = l1 then pure (Val.zero false) else do
          let r ← freeWord
          pure (Val.num false (fieldOf r 0 32) (-32) false)
    return [(l0, one.minus b), (l1, b)]

/-- A linear filter's first index and its weight for the second one, in 256ths. -/
def linearAt (u : Val) (n : Nat) : Int × Nat :=
  match (u.times (.ofInt n)).minus (.num false 1 (-1) false) with
  | .num s m e more =>
    let k := (roundInt 0 s m (e + 8) more).1
    (k / 256, (k % 256).toNat)
  | _ => (0, 0)

/-- The texels of one level with their weights. -/
def TexBinding.footprint (t : TexBinding) (linear : Bool) (u v : Val) (l : Nat) : List (Int × Int × Val) :=
  if linear then
    let x := linearAt u (t.width l)
    let y := linearAt v (t.height l)
    let wt (a b : Nat) : Val := .num false (a * b) (-16) false
    [(x.1, y.1, wt (256 - x.2) (256 - y.2)), (x.1 + 1, y.1, wt x.2 (256 - y.2)),
     (x.1, y.1 + 1, wt (256 - x.2) y.2), (x.1 + 1, y.1 + 1, wt x.2 y.2)]
  else [((u.times (.ofInt (t.width l))).floor, (v.times (.ofInt (t.height l))).floor, .ofInt 1)]

/-! ## The result (R328) -/

/-- The exact weighted sum of one channel, times 65,535, with its flags. -/
def weightedSum (rm : Nat) (items : List (Val × Val)) : Val × Flags :=
  let live := items.filter fun x => !x.1.isZero
  let vals := live.map Prod.snd
  if vals.any Val.isNan then (firstNan vals, snanFlag vals)
  else
    match live.map fun x => x.1.times x.2 with
    | [] => (Val.zero false, 0#6)
    | a :: l => l.foldl (fun acc x =>
        if acc.1.isNan then acc
        else
          let r := addVal rm [acc.1, x] acc.1 x
          (r.1, acc.2 ||| r.2)) (a, 0#6)

/-- A channel's result: the quotient by 65,535, rounded once. -/
def roundChannel (c : VCtx) (fd : Fmt) (v : Val × Flags) : Nat × Flags :=
  let q := match v.1 with
    | .num _ _ _ _ => (divVal v.1 (.ofInt 65535)).1
    | x => x
  let r := encodeFloat fd fd.prec (encMode c.pal fd c.rm false) q
  (r.1, r.2 ||| v.2)

/-- The four operations. -/
inductive TexOp where
  | implicit | gradient | gather | level
  deriving DecidableEq, Repr

/-- The element of a coordinate register. -/
def coordOf (c : VCtx) (fa : Fmt) (s : Sources) (r i : Nat) : Val :=
  decodeVal (palFtz c.pal) fa (elem (s.get r) c.bits i)

/-- λ before the bias. -/
def texLambda (c : VCtx) (fa : Fmt) (t : TexBinding) (op : TexOp) (s : Sources) (i : Nat) : Val :=
  let co (r k : Nat) : Val := coordOf c fa s r k
  let v1 := c.w.vs1.toNat
  let v2 := c.w.vs2.toNat
  match op with
  | .level => co v2 i
  | .gradient => lodOf (rhoSquare (co v2 i) (co (v2 + 1) i) t.w t.h) (rhoSquare (co (v2 + 2) i) (co (v2 + 3) i) t.w t.h)
  | _ =>
    let q := 4 * (i / 4)
    let f (r k : Nat) : Val := finiteCoord (co r k)
    lodOf (rhoSquare ((f v1 (q + 1)).minus (f v1 q)) ((f (v1 + 1) (q + 1)).minus (f (v1 + 1) q)) t.w t.h)
      (rhoSquare ((f v1 (q + 2)).minus (f v1 q)) ((f (v1 + 1) (q + 2)).minus (f (v1 + 1) q)) t.w t.h)

/-- The layer of an element. -/
def layerOf (t : TexBinding) (v : Val) : Nat :=
  match finiteCoord v with
  | .num s m e more => (min (max (roundInt 0 s m e more).1 0) ((t.layers : Int) - 1)).toNat
  | _ => 0

/-- One element: its results in register order. -/
def texElement (c : VCtx) (fa fd : Fmt) (t : TexBinding) (op : TexOp) (nch : Nat) (s : Sources) (i : Nat) :
    M (List (Nat × Flags)) := do
  let v1 := c.w.vs1.toNat
  let u := finiteCoord (coordOf c fa s v1 i)
  let v := finiteCoord (coordOf c fa s (v1 + 1) i)
  let layer := if t.dim = 0 then 0 else layerOf t (coordOf c fa s (v1 + 2) i)
  let ref := if t.cmp = 0 then Val.zero false else coordOf c fa s (v1 + 2 + t.dim) i
  if op = .gather then
    let x := (linearAt u t.w).1
    let y := (linearAt v t.h).1
    let ch := (c.w.aux9.extractLsb' 2 2).toNat
    [(x, y + 1), (x + 1, y + 1), (x + 1, y), (x, y)].mapM fun (p : Int × Int) => do
      let px ← t.texel layer 0 p.1 p.2 ref
      return roundChannel c fd (weightedSum c.rm [(.ofInt 1, px.getD ch (Val.zero false))])
  else do
    let lam := t.lod (texLambda c fa t op s i)
    let linear := (if cmpVal lam (Val.zero false) ≤ 0 then t.mag else t.small) == 1
    let mips ← t.mips lam
    let points := mips.flatMap fun m => (t.footprint linear u v m.1).map fun x => (m.1, x.1, x.2.1, m.2.times x.2.2)
    let items ← points.mapM fun p => do
      return (p.2.2.2, ← t.texel layer p.1 p.2.1 p.2.2.1 ref)
    return (List.range nch).map fun ch =>
      roundChannel c fd (weightedSum c.rm (items.map fun x => (x.1, x.2.getD ch (Val.zero false))))

/-- Writes an element's results to consecutive registers. -/
def writeResults (c : VCtx) (i : Nat) : Nat → List (Nat × Flags) → M Flags
  | _, [] => return 0#6
  | reg, r :: l => do
    writeElem c reg i r.1
    let f ← writeResults c i (reg + 1) l
    return r.2 ||| f

/-- The palette of the sampler and of VINTP (R327). -/
def texFmts (e : QEntry) : Option (Fmt × Fmt) :=
  let p := e.cap.pal
  match floatFmt (palFa p) e.bits, floatFmt (palFd p) e.bits with
  | some fa, some fd =>
    if palPlain p && palFb p == 0 && palFc p == 0 && scalesZero p false false false && (fa == .f32 || fa == .f16) &&
        (fd == .f32 || fd == .f16 || fd == .b16) then some (fa, fd)
    else none
  | _, _ => none

/-- The coordinate registers that a binding asks for, and the operation's own. -/
def texSources (w : WWord) (t : TexBinding) (op : TexOp) : List Nat :=
  let n := 2 + t.dim + (if t.cmp = 0 then 0 else 1)
  ((List.range n).map fun k => w.vs1.toNat + k) ++
  (match op with
    | .level => [w.vs2.toNat]
    | .gradient => (List.range 4).map fun k => w.vs2.toNat + k
    | _ => [])

/-- A texture instruction (R327, R328, R330). -/
def sampleWith (w : WWord) (e : QEntry) (op : TexOp) : M Unit := do
  if (← getH).tx.isSome then throw (.abort 7 0)
  match texFmts e with
  | none => illegalV e
  | some (fa, fd) => do
    let c ← dispatchV w e false
    let nch := (w.aux9.extractLsb' 0 2).toNat + 1
    let dsts := (List.range nch).map fun k => w.vd.toNat + k
    let lo := (← getH).vstart
    if c.vl = 0 then pure ()
    else do
      let t ← readBinding e.cap.x3
      let regs := texSources w t op
      requireV e (regs.all fun r => decide (r < 32))
      forM' (checkDest c) dsts
      let s ← sources c regs lo c.vl
      elemLoop (fun i => do
        consume s i
        if c.active i then
          let r ← texElement c fa fd t op nch s i
          let f ← writeResults c i w.vd.toNat r
          raise f
          emBit c i f
        else
          forM' (fun x => append x false 0) dsts
          emBit c i 0#6) (c.vl - lo) lo
    emTail c (max c.vl lo)
    completeV

def runVtex (w : WWord) (e : QEntry) : M Unit := sampleWith w e .implicit
def runVtexg (w : WWord) (e : QEntry) : M Unit := sampleWith w e .gradient
def runVtexq (w : WWord) (e : QEntry) : M Unit := sampleWith w e .gather
def runVtexs (w : WWord) (e : QEntry) : M Unit := sampleWith w e .level

end Sys2Proof.Machine
end

