-- ==== Sys2Proof/Machine/Rays.lean ====
section
/-! DEFINITION. W group 5, interpolation and ray queries (15 R331 to R335). -/

namespace Sys2Proof.Machine

/-! ## VINTP (R331) -/

/-- Steps of a computation whose operands are not all finite, with the flags they raise. -/
def addF (rm : Nat) (a b : Val × Flags) : Val × Flags :=
  let r := addVal rm [a.1, b.1] a.1 b.1
  (r.1, a.2 ||| b.2 ||| r.2)
def mulF (a b : Val × Flags) : Val × Flags :=
  let r := mulVal [a.1, b.1] a.1 b.1
  (r.1, a.2 ||| b.2 ||| r.2)
def divF (a b : Val × Flags) : Val × Flags :=
  let r := divVal a.1 b.1
  (r.1, a.2 ||| b.2 ||| r.2)
def negF (a : Val × Flags) : Val × Flags := (a.1.negate, a.2)
def pureF (a : Val) : Val × Flags := (a, 0#6)

/-- Plane k of a fragment record at a pixel centre. -/
def planeAt (rm rec_ k : Nat) (px py : Val) : Val × Flags :=
  let f (j : Nat) : Val × Flags := pureF (decodeFloat .f32 (bitsAt rec_ (8 * (64 + 12 * k + 4 * j)) 32))
  addF rm (addF rm (mulF (f 0) (pureF px)) (mulF (f 1) (pureF py))) (f 2)

/-- The centre of the pixel of an element in a fragment record's block. -/
def pixelCentre (rec_ i : Nat) : Val × Val :=
  let xy := quadPixel (i % 16)
  (.num false (2 * (4 * bitsAt rec_ (8 * 16 + 32) 16 + xy.1) + 1) (-1) false,
   .num false (2 * (4 * bitsAt rec_ (8 * 16 + 48) 16 + xy.2) + 1) (-1) false)

/-- A0 + λ1 (A1 − A0) + λ2 (A2 − A0), rounded nowhere: over the common denominator where every operand is finite. -/
def attrExact (rm : Nat) (a0 a1 a2 : Val) (q1 q2 qw : Val × Flags) : Val × Flags :=
  if [a0, a1, a2, q1.1, q2.1, qw.1].all Val.finite then
    let n := (a0.times qw.1).plus ((q1.1.times (a1.minus a0)).plus (q2.1.times (a2.minus a0)))
    let r := divVal n qw.1
    (if r.1.isZero then .zero (rm == 2 && !a0.isZero) else r.1, r.2)
  else
    let d (a : Val) : Val × Flags := addF rm (pureF a) (negF (pureF a0))
    addF rm (addF rm (pureF a0) (mulF (divF q1 qw) (d a1))) (mulF (divF q2 qw) (d a2))

/-- The exact result of an element, before its one rounding. -/
def interpolate (sel rm rec_ i : Nat) (a0 a1 a2 : Val) : Val × Flags :=
  let xy := pixelCentre rec_ i
  let p (k : Nat) : Val × Flags := planeAt rm rec_ k xy.1 xy.2
  if sel = 1 then p 3
  else if (p 2).1.isZero then (.nan none false, fNV)
  else
    match sel with
    | 0 => attrExact rm a0 a1 a2 (p 0) (p 1) (p 2)
    | 2 => divF (p 0) (p 2)
    | _ => divF (p 1) (p 2)

def runVintp (w : WWord) (e : QEntry) : M Unit := do
  if (← getH).tx.isSome then throw (.abort 7 0)
  match texFmts e with
  | none => illegalV e
  | some (fa, fd) => do
    let c ← dispatchV w e false
    let sel := (w.aux9.extractLsb' 0 2).toNat
    let rec_ ← readAtDispatch e.cap.x3 64 128
    elementwise c (if sel = 0 then [w.vs1.toNat] else []) w.vd.toNat fun s i =>
      let a (k : Nat) : Val := coordOf c fa s w.vs1.toNat k
      let r := interpolate sel c.rm rec_ i (a 0) (a 1) (a 2)
      let x := encodeFloat fd fd.prec (encMode c.pal fd c.rm false) r.1
      (x.1, x.2 ||| r.2)

/-! ## Query blocks (R333, log entry 26) -/

/-- The query of a block of zeros. -/
def RayQuery.none : RayQuery := { status := 0, flags := 0, tcur := 0, hit := .none, cand := .none, work := [] }

/-- The query that eight element words name: words 0 and 1 are the number of an entry of the device's queries, counted
from 1, and the others are zero. -/
def State.queryOf (s : State) (ws : List Nat) : Option RayQuery :=
  let n := ws.getD 0 0 + 2 ^ 32 * ws.getD 1 0
  if (ws.drop 2).any (· != 0) then .none
  else if n = 0 then some RayQuery.none
  else s.dev.queries[n - 1]?

/-- The words of element i of a block of eight registers. -/
def blockWords (h : Hart) (reg i : Nat) : List Nat := (List.range 8).map fun k => elem (h.rv (reg + k)) 32 i

/-- The query of an element's words; no valid state is a GRAPHICS-FAULT (R335). -/
def readQuery (words : List Nat) : M RayQuery := do
  match (← get).queryOf words with
  | some q => return q
  | .none => graphicsFault 4 (← freeWord)

/-- The words of a new entry of the device's queries. -/
def newQuery (q : RayQuery) : M (List Nat) := do
  let s ← get
  let n := s.dev.queries.length + 1
  set { s with dev := { s.dev with queries := s.dev.queries ++ [q] } }
  return [n % 2 ^ 32, n / 2 ^ 32, 0, 0, 0, 0, 0, 0]

/-- The registers of a query block. -/
def blockRegs (reg : Nat) : List Nat := (List.range 8).map fun k => reg + k

/-- Writes an element's words into its block, whose registers take the next positions of the streams they are bound to
(R149). -/
def writeWords (c : VCtx) (reg i : Nat) (words : List Nat) : M Unit :=
  forM' (fun k => writeElem c (reg + k) i (words.getD k 0)) (List.range 8)

/-- Writes an element's query. -/
def writeQuery (c : VCtx) (reg i : Nat) (q : RayQuery) : M Unit := do writeWords c reg i (← newQuery q)

/-- An inactive element of a written block (R149). -/
def passQuery (reg : Nat) : M Unit := forM' (fun r => append r false 0) (blockRegs reg)

/-! ## Exact geometry (R334) -/

/-- A finite F32 pattern as a whole number of units of 2^−149; none for the others. -/
def f32Units (bits : Nat) : Option Int :=
  match decodeFloat .f32 bits with
  | .num s m e _ => some (let v : Int := (m * 2 ^ (e + 149).toNat : Nat); if s then -v else v)
  | _ => .none

/-- The order of two F32 patterns that are no NaN. -/
def f32Le (a b : Nat) : Bool :=
  let x := decodeFloat .f32 a
  let y := decodeFloat .f32 b
  !x.isNan && !y.isNan && decide (cmpVal x y ≤ 0)
def f32Lt (a b : Nat) : Bool := f32Le a b && !f32Le b a

/-- F32 nearest to a quotient of integers (RNE). -/
def f32Quotient (n d : Int) : Nat :=
  let v := if n = 0 then Val.zero false
    else (divVal (.num (decide (n < 0) != decide (d < 0)) n.natAbs 0 false) (.num false d.natAbs 0 false)).1
  (encodeFloat .f32 24 { rm := 0, ftz := false, sat := false, nanprop := false } v).1

/-- The three components of a vector of patterns, in units. -/
def units3 (l : List Nat) (k : Nat) : Option (Int × Int × Int) := do
  let x ← f32Units (l.getD k 0)
  let y ← f32Units (l.getD (k + 1) 0)
  let z ← f32Units (l.getD (k + 2) 0)
  return (x, y, z)

def sub3 (a b : Int × Int × Int) : Int × Int × Int := (a.1 - b.1, a.2.1 - b.2.1, a.2.2 - b.2.2)
def dot3 (a b : Int × Int × Int) : Int := a.1 * b.1 + a.2.1 * b.2.1 + a.2.2 * b.2.2
def cross3 (a b : Int × Int × Int) : Int × Int × Int :=
  (a.2.1 * b.2.2 - a.2.2 * b.2.1, a.2.2 * b.1 - a.1 * b.2.2, a.1 * b.2.1 - a.2.1 * b.1)

/-- An end of a slab interval: −∞, +∞ or the quotient n/d with d > 0. -/
inductive Bound where
  | below
  | above
  | at_ (n d : Int)
  deriving DecidableEq, Repr

def Bound.le (a b : Bound) : Bool :=
  match a, b with
  | .below, _ => true
  | _, .above => true
  | .at_ n d, .at_ m k => decide (n * k ≤ m * d)
  | _, _ => false

/-- An F32 pattern that is no NaN as a bound. -/
def boundOf (bits : Nat) : Bound :=
  match decodeFloat .f32 bits with
  | .inf s => if s then .below else .above
  | _ => .at_ ((f32Units bits).getD 0) (2 ^ 149)

/-- The quotient (b − o) / d of a box side with a ray axis, d ≠ 0. -/
def sideAt (b : Nat) (o d : Int) : Bound :=
  match decodeFloat .f32 b with
  | .inf s => if s != decide (d < 0) then .below else .above
  | _ =>
    let n := (f32Units b).getD 0 - o
    if d < 0 then .at_ (-n) (-d) else .at_ n d

/-- The interval of one axis; none where it is empty. -/
def axisInterval (lo hi : Nat) (o d : Int) : Option (Bound × Bound) :=
  if d = 0 then
    let ou := Bound.at_ o (2 ^ 149)
    if (boundOf lo).le ou && ou.le (boundOf hi) then some (.below, .above) else .none
  else
    let a := sideAt lo o d
    let b := sideAt hi o d
    let r := if d < 0 then (b, a) else (a, b)
    if r.1.le r.2 then some r else .none

/-- A box of six patterns meets [tmin, tcur] on a ray; none when an operand leaves that open. -/
def slabMeets (box ray : List Nat) (tcur : Nat) : Option Bool :=
  if box.any fun b => (decodeFloat .f32 b).isNan then .none
  else
    match units3 ray 0, units3 ray 3 with
    | some o, some d =>
      let ax (k : Nat) (ok dk : Int) : Option (Bound × Bound) := axisInterval (box.getD k 0) (box.getD (k + 3) 0) ok dk
      match ax 0 o.1 d.1, ax 1 o.2.1 d.2.1, ax 2 o.2.2 d.2.2 with
      | some x, some y, some z =>
        let los := [x.1, y.1, z.1, boundOf (ray.getD 6 0)]
        let his := [x.2, y.2, z.2, boundOf tcur]
        some (los.all fun a => his.all fun b => a.le b)
      | _, _, _ => some false
    | _, _ => .none

/-- A triangle's hit: t, u and v as rounded patterns and the side; none for no hit, with the case of an operand that is
not finite apart. -/
def triangleHit (tri ray : List Nat) : Option (Option (Nat × Nat × Nat × Bool)) :=
  match units3 ray 0, units3 ray 3, units3 tri 0, units3 tri 3, units3 tri 6 with
  | some o, some d, some v0, some v1, some v2 =>
    let e1 := sub3 v1 v0
    let e2 := sub3 v2 v0
    let p := cross3 d e2
    let det := dot3 e1 p
    let s := sub3 o v0
    let q := cross3 s e1
    let sgn : Int := if det < 0 then -1 else 1
    let u := sgn * dot3 s p
    let v := sgn * dot3 d q
    if det = 0 ∨ u < 0 ∨ v < 0 ∨ sgn * det < u + v then some .none
    else some (some (f32Quotient (sgn * dot3 e2 q) (sgn * det), f32Quotient u (sgn * det), f32Quotient v (sgn * det),
                     decide (0 < det)))
  | _, _, _, _, _ => .none

/-- One transformed component: the exact sum of products, rounded to F32. -/
def transformRow (m : List Nat) (row : Nat) (v : List Nat) (at_ : Nat) (withOffset : Bool) : Nat :=
  let f (b : Nat) : Val := decodeFloat .f32 b
  let term (k : Nat) : Val := (f (m.getD (4 * row + k) 0)).times (f (v.getD (at_ + k) 0))
  let sum := ((term 0).plus (term 1)).plus (term 2)
  let r := if withOffset then sum.plus (f (m.getD (4 * row + 3) 0)) else sum
  (encodeFloat .f32 24 { rm := 0, ftz := false, sat := false, nanprop := false } r).1

/-- A ray under an instance's matrix; t keeps its meaning. -/
def transformRay (m ray : List Nat) : List Nat :=
  ((List.range 3).map fun k => transformRow m k ray 0 true) ++
  ((List.range 3).map fun k => transformRow m k ray 3 false) ++ ray.drop 6

/-! ## Traversal (R332, R334, R335) -/

/-- A hit would replace the committed one. -/
def RayQuery.improves (q : RayQuery) (h : RayHit) : Bool :=
  match q.hit with
  | .none => true
  | some c => f32Lt h.t c.t || (f32Le h.t c.t && (decide (h.key.1 < c.key.1) ||
      (h.key.1 == c.key.1 && decide (h.key.2 < c.key.2))))

def RayQuery.commit (q : RayQuery) (h : RayHit) : RayQuery := { q with hit := some h, tcur := h.t }

/-- A reference's type and byte offset (R332). -/
def refType (r : Nat) : Nat := r / 2 ^ 30 % 4
def refOff (r : Nat) : Nat := r % 2 ^ 30

/-- The record that a piece of work names. -/
def RayWork.addr (w : RayWork) : Word := w.base + wordOf (64 * refOff w.ref)

/-- Reads a record of a BVH. -/
def bvhRead (a : Word) (n : Nat) : M Nat := do loadVa (← ownParty) a .load n

/-- 32-bit words of a record from one on. -/
def recordWords (b first n : Nat) : List Nat := (List.range n).map fun k => bitsAt b (32 * (first + k)) 32

/-- A free bit (log entry 27). -/
def freeBit : M Bool := do return (← freeWord).getLsbD 0

/-- A node: the children whose boxes the ray enters come next, child 0 first. -/
def visitNode (q : RayQuery) (w : RayWork) (rest : List RayWork) : M RayQuery := do
  let b ← bvhRead w.addr 128
  if bitsAt b (8 * 112) 128 ≠ 0 then graphicsFault 3 w.addr
  let kids ← (List.range 4).filterMapM fun k => do
    let ref := bitsAt b (8 * (96 + 4 * k)) 32
    if refType ref = 0 then return none
    else
      let inside ← match slabMeets (recordWords b (6 * k) 6) w.ray q.tcur with
        | some x => pure x
        | .none => freeBit
      return if inside then some { w with ref := ref } else none
  return { q with work := kids ++ rest }

/-- The hit of a leaf on a ray, in range and on a side that counts. -/
def leafHit (q : RayQuery) (w : RayWork) (b : Nat) : M (Option RayHit) := do
  let r ← match triangleHit (recordWords b 0 9) w.ray with
    | some x => pure x
    | .none => do
      let hit ← freeBit
      let t ← freeWord
      let uv ← freeWord
      let front ← freeBit
      pure (if hit then some (fieldOf t 0 32, fieldOf uv 0 32, fieldOf uv 32 32, front) else none)
  match r with
  | .none => return none
  | some (t, u, v, front) =>
    let noCull := (w.inst.map fun x => x.2.2.testBit 1).getD false
    if !(f32Le (w.ray.getD 6 0) t && f32Le t q.tcur) then return none
    else if q.flags.testBit 0 && !front && !noCull then return none
    else
      return some { t := t, u := u, v := v, prim := bitsAt b (8 * 36) 32, geom := bitsAt b (8 * 40) 32,
                    inst := w.inst.map fun x => x.2.1, front := front,
                    key := ((w.inst.map fun x => x.1).getD 0, refOff w.ref) }

/-- A triangle leaf: an opaque hit commits, another becomes the candidate. -/
def visitLeaf (q : RayQuery) (w : RayWork) (rest : List RayWork) : M RayQuery := do
  let b ← bvhRead w.addr 64
  if bitsAt b (8 * 48) 128 ≠ 0 then graphicsFault 3 w.addr
  let opaque_ := bitsAt b (8 * 44) 1 == 1 || (w.inst.map fun x => x.2.2.testBit 0).getD false || q.flags.testBit 2
  let q1 := { q with work := rest }
  match ← leafHit q w b with
  | .none => return q1
  | some h =>
    if !q.improves h then return q1
    else if opaque_ then return q1.commit h
    else return { q1 with status := 2, cand := some h }

/-- An instance: the root of its BVH comes next, under the transformed ray. -/
def visitInstance (q : RayQuery) (w : RayWork) (rest : List RayWork) : M RayQuery := do
  if w.inst.isSome then graphicsFault 3 w.addr
  let b ← bvhRead w.addr 64
  if bitsAt b (8 * 59) 8 ≠ 0 then graphicsFault 3 w.addr
  let base := wordOf (bitsAt b (8 * 48) 64)
  return { q with work := { base := base, ref := 2 ^ 30, ray := transformRay (recordWords b 0 12) w.ray,
                            inst := some (refOff w.ref, bitsAt b (8 * 56) 24, bitsAt b (8 * 60) 32) } :: rest }

/-- Visits the next record. -/
def visit (q : RayQuery) (w : RayWork) (rest : List RayWork) : M RayQuery := do
  match refType w.ref with
  | 1 => do
    if w.base.toNat % 128 ≠ 0 then graphicsFault 3 w.base
    if refOff w.ref % 2 = 1 then graphicsFault 3 w.addr
    visitNode q w rest
  | 2 => visitLeaf q w rest
  | 3 => visitInstance q w rest
  | _ => return { q with work := rest }

/-- Traverses until a candidate, the end of the BVH or the limit; a read that fails leaves the progress up to it. -/
def traverse : Nat → RayQuery → M (RayQuery × Option Exit)
  | 0, q => return (q, none)
  | n + 1, q =>
    match q.work with
    | [] => return ({ q with status := if q.hit.isSome then 3 else 4 }, none)
    | w :: rest => fun s =>
      match visit q w rest s with
      | .ok q' t => if q'.status = 2 then .ok (q', none) t else traverse n q' t
      | .error e t => .ok (q, some e) (s.keepRequests t)

/-! ## The instructions (R333) -/

/-- The dispatch of a ray instruction: elements of 32 bits. -/
def dispatchRay (w : WWord) (e : QEntry) : M VCtx := do
  if (← getH).tx.isSome then throw (.abort 7 0)
  requireV e (e.bits == 32)
  dispatchV w e false

/-- The query that VRAYI starts. -/
def startQuery (w : WWord) (root : Word) (ray : List Nat) : RayQuery :=
  let q : RayQuery := { status := 1, flags := (w.aux9.extractLsb' 0 3).toNat, tcur := ray.getD 7 0, hit := .none,
                        cand := .none, work := [{ base := root, ref := 2 ^ 30, ray := ray, inst := .none }] }
  let nan := ray.any fun b => (decodeFloat .f32 b).isNan
  if nan || f32Lt (ray.getD 6 0) 0 || f32Lt (ray.getD 7 0) (ray.getD 6 0) then { q with status := 4, work := [] } else q

def runVrayi (w : WWord) (e : QEntry) : M Unit := do
  let c ← dispatchRay w e
  let lo := (← getH).vstart
  forM' (checkDest c) (blockRegs w.vd.toNat)
  let s ← sources c (blockRegs w.vs1.toNat) lo c.vl
  elemLoop (fun i => do
    consume s i
    if c.active i then
      writeQuery c w.vd.toNat i (startQuery w e.cap.x3 ((blockRegs w.vs1.toNat).map fun r => elem (s.get r) 32 i))
    else passQuery w.vd.toNat) (c.vl - lo) lo
  completeV

/-- VRAYT's element loop: an element that ends early keeps its query's progress in its registers (R335). -/
def traverseFrom (c : VCtx) (reg : Nat) : Nat → Nat → M Unit
  | 0, _ => pure ()
  | n + 1, i => do
    modH fun h => { h with vstart := i }
    if c.active i then
      let words := blockWords (← getH) reg i
      let q ← readQuery words
      if q.status = 1 ∨ q.status = 2 then
        let r ← traverse 65536 { q with status := 1, cand := .none }
        match r.2 with
        | some x => do
          let ws ← newQuery r.1
          modH fun h => (List.range 8).foldl (fun h k =>
            h.wv (reg + k) (setElem (h.rv (reg + k)) c.bits i (ws.getD k 0))) h
          throw x
        | .none => atomically (writeQuery c reg i r.1)
      else atomically (writeWords c reg i words)
    else passQuery reg
    traverseFrom c reg n (i + 1)

def runVrayt (w : WWord) (e : QEntry) : M Unit := do
  let c ← dispatchRay w e
  let lo := (← getH).vstart
  forM' (checkDest c) (blockRegs w.vd.toNat)
  traverseFrom c w.vd.toNat (c.vl - lo) lo
  completeV

def runVrayc (w : WWord) (e : QEntry) : M Unit := do
  let c ← dispatchRay w e
  let lo := (← getH).vstart
  forM' (checkDest c) (blockRegs w.vd.toNat)
  elemLoop (fun i => do
    if c.active i then
      let words := blockWords (← getH) w.vd.toNat i
      let q ← readQuery words
      match q.status, q.cand with
      | 2, some h =>
        writeQuery c w.vd.toNat i { q.commit h with cand := .none, status := if q.flags.testBit 1 then 3 else 1 }
      | _, _ => writeWords c w.vd.toNat i words
    else passQuery w.vd.toNat) (c.vl - lo) lo
  completeV

/-- A field of a query (R333). -/
def queryField (q : RayQuery) (cand : Bool) (field : Nat) : Nat :=
  let h := if cand then q.cand else q.hit
  let absent := 0xFFFF_FFFF
  match field with
  | 0 => q.status
  | 1 => (h.map RayHit.t).getD q.tcur
  | 2 => (h.map RayHit.u).getD absent
  | 3 => (h.map RayHit.v).getD absent
  | 4 => (h.map RayHit.prim).getD absent
  | 5 => (h.map RayHit.geom).getD absent
  | 6 => (h.bind RayHit.inst).getD absent
  | _ => (h.map fun x => if x.front then 1 else 0).getD absent

def runVraya (w : WWord) (e : QEntry) : M Unit := do
  let c ← dispatchRay w e
  let lo := (← getH).vstart
  checkDest c w.vd.toNat
  let s ← sources c (blockRegs w.vs1.toNat) lo c.vl
  elemLoop (fun i => do
    consume s i
    if c.active i then
      let q ← readQuery ((blockRegs w.vs1.toNat).map fun r => elem (s.get r) 32 i)
      writeElem c w.vd.toNat i (queryField q (w.aux9.getLsbD 3) (w.aux9.extractLsb' 0 3).toNat)
    else append w.vd.toNat false 0) (c.vl - lo) lo
  completeV

end Sys2Proof.Machine
end

