-- ==== Sys2Proof/Machine/Agents.lean ====
section
/-! DEFINITION. The graphics agents (15 R312, R315 to R324): the mesh distributor, the rasterisers, the blend units, and
their register events. -/

namespace Sys2Proof.Machine

/-! ## An agent at work (R315, R316) -/

/-- The party that an agent is: it translates under the asid of its ctl (R315). -/
def State.agentParty (s : State) (id : AgentId) : Option Party :=
  let a := s.agent id
  (s.dev.spaces.find? fun x => x.asid == fieldOf a.ctl 48 16).map fun x =>
    { ctx := { satp := x.satp, sbase := x.sbase, gang := none, priv := .user, sum := false, mxr := false, core := none,
               cluster := none, die := id.die, slice := 0, self := none },
      self := none, plain := true }

def modAgent (id : AgentId) (f : Agent → Agent) : M Unit := modify fun s => s.setAgent id (f (s.agent id))

def MemFault.va : MemFault → Word
  | .page _ va | .access _ va | .misaligned _ va | .poison _ va => va

/-- The error code of an end that stalls an agent, with eaddr where it records one. -/
def stallCode : Exit → Option (Nat × Option Word)
  | .mem (.poison _ _) => some (4, none)
  | .mem f => some (1, some f.va)
  | .trap t => if t.cause = 26 then some (3, none) else some (1, some t.tval)
  | _ => none

/-- STALLED, with the interrupt to the Lantern that ctl names. -/
def State.stallAgent (s : State) (id : AgentId) (code : Nat) (addr : Option Word) : State :=
  let a := s.agent id
  (s.setAgent id { a with state := 3, error := code, eaddr := addr.getD a.eaddr, progress := 0, part := 0 }).interruptLantern
    { die := id.die, cluster := fieldOf a.ctl 40 6 } (setField (wordOf (64 + code)) 32 8 id.number)

/-- One piece of an agent's work, if it is BUSY or wakes: a piece that stalls leaves nothing behind but the stall. -/
def agentWork (id : AgentId) (m : Party → M Unit) : M Unit := fun s =>
  let a := s.agent id
  if a.state = 0 ∨ a.state = 3 then .ok () s
  else
    match s.agentParty id with
    | none => .ok () (s.stallAgent id 1 (some a.inp))
    | some p =>
      match m p (s.setAgent id { a with state := 2, waits := none }) with
      | .ok _ t => .ok () t
      | .error e t =>
        match stallCode e with
        | some (code, addr) => .ok () ((s.keepRequests t).stallAgent id code addr)
        | none => .error e t

/-- The agent goes on with its next piece of work. -/
def agentAgain (id : AgentId) : M Unit := modify fun s => s.post [recordEvent id]

/-- The agent has nothing to do. -/
def agentIdle (id : AgentId) : M Unit := modAgent id fun a => { a with state := 1 }

/-- The agent waits for space on a ring (R316). -/
def agentWaits (id : AgentId) (r : RingRef) : M Unit := modAgent id fun a => { a with waits := some (lineOf r.pa) }

/-- Opens a ring of the pipeline: an agent ring in memory with its stage's slot size (R312). -/
def agentRing (p : Party) (h : Word) (size : Nat) : M (RingRef × RingDesc) := do
  if fieldOf h 60 4 ≠ 2 ∨ fieldOf h 56 4 ≠ 0 then ringFault 1
  let x ← openRing p h
  if x.2.size ≠ size then ringFault 2
  return x

/-- Reserves a slot of an output ring: a closed side is a RING error, a full ring gives none. -/
def agentReserve (p : Party) (h : Word) (size : Nat) : M (Except RingRef SlotEntry) := do
  let (r, d) ← agentRing p h size
  let t := d.reserve
  if t.1.st = stClosed then ringFault 2
  else if t.1.st = stOk then
    saveRing p r d t.2
    return .ok { handle := h, consumer := false, counter := t.1.counter }
  else return .error r

/-- Writes the record of a reserved slot, attaches a reservation to it and commits it (R313, R316). -/
def agentCommit (p : Party) (e : SlotEntry) (size : Nat) (bytes : List Byte) (attached : SlotEntry) : M Unit := do
  let (r, d) ← agentRing p e.handle size
  if d.cclosed || d.pclosed then ringFault 2
  storeBytes p (slotAddr p.ctx d e.counter) bytes
  modify fun s => { s with dev := { s.dev with
    attached := s.dev.attached ++ [{ ring := r.pa, counter := e.counter, entry := attached }] } }
  let _ ← commitSlot p r d e.counter false

/-- The slot that an agent works on: the one it has acquired, or the next one, acquired now; none when the ring has no
committed slot. -/
def agentInput (id : AgentId) (p : Party) (size : Nat) : M (Option (RingRef × RingDesc × Nat)) := do
  let a := (← get).agent id
  let (r, d) ← agentRing p a.inp size
  match a.counter with
  | some c => return some (r, d, c)
  | none =>
    let t := d.acquire
    if t.1.st = stOk then
      saveRing p r d t.2
      modAgent id fun a => { a with counter := some t.1.counter, progress := 0, part := 0 }
      return some (r, t.2, t.1.counter)
    else return none

/-- The record is done: its slot is released and the agent goes on. -/
def agentRelease (id : AgentId) (p : Party) (r : RingRef) (d : RingDesc) (c : Nat) : M Unit := do
  releaseSlot p r d c
  modAgent id fun a => { a with counter := none, progress := 0, part := 0 }
  agentAgain id

/-- RECORD: counted, with no other effect (R316). -/
def countSkipped (id : AgentId) : M Unit := modAgent id fun a => { a with skipped := a.skipped + 1, error := 2 }

/-! ## The mesh distributor (R317, R318) -/

/-- rmask, target and rstate are in range. -/
def stateOk (target rstate : Nat) : Bool := decide (target ≤ 63) && decide (rstate < 8) && rstate % 4 != 3

/-- A draw record is well formed (R317). -/
def drawOk (b : Nat) : Bool :=
  let f (off n : Nat) : Nat := bitsAt b (8 * off) (8 * n)
  f 0 1 == 1 && stateOk (f 2 1) (f 3 1) && decide (1 ≤ f 4 4) && decide (f 4 4 ≤ 2 ^ 24) && f 20 4 == 0 && f 32 32 == 0

/-- The mesh-task record of task t (R318). -/
def taskRecord (b t : Nat) (rmask : Nat) (batch : Word) : List Byte :=
  let f (off n : Nat) : Nat := bitsAt b (8 * off) (8 * n)
  lowBytes 8 (f 8 8) ++ lowBytes 4 t ++ lowBytes 4 (f 16 4) ++ lowBytes 8 batch.toNat ++ lowBytes 1 rmask ++
  lowBytes 1 (f 2 1) ++ lowBytes 1 (f 3 1) ++ lowBytes 5 0 ++ lowBytes 8 (f 24 8) ++ List.replicate 88 0#8

/-- A slot of a ring reserved for the record at hand: one that the agent has reserved there before a stall or a wait, or
one reserved now. -/
def reserveHere (id : AgentId) (p : Party) (h : Word) (size : Nat) : M (Except RingRef SlotEntry) := do
  match ((← get).agent id).reserved.find? fun e => e.handle == h with
  | some e => return .ok e
  | none =>
    match ← agentReserve p h size with
    | .ok e => do
      modAgent id fun a => { a with reserved := a.reserved ++ [e] }
      return .ok e
    | .error r => return .error r

/-- A reserved slot has found its record. -/
def Agent.use (a : Agent) (e : SlotEntry) : Agent := { a with reserved := a.reserved.filter fun x => x != e }

/-- The virtual address of a reserved slot, and its ring's place. -/
def slotVa (p : Party) (e : SlotEntry) (size : Nat) : M (Word × Nat) := do
  let x ← agentRing p e.handle size
  return (slotAddr p.ctx x.2 e.counter, x.1.pa)

/-- The batch slot of a ring with a counter. -/
def Batch.is (b : Batch) (ring counter : Nat) : Bool := b.ring == ring && b.counter == counter

/-- Replaces the record of a batch slot. -/
def setBatch (die : Nat) (b : Batch) : M Unit := modify fun s => s.modDie die fun k =>
  { k with batches := (k.batches.filter fun x => !x.is b.ring b.counter) ++ [b] }
def dropBatch (die ring counter : Nat) : M Unit := modify fun s => s.modDie die fun k =>
  { k with batches := k.batches.filter fun x => !x.is ring counter }

/-- One task of a draw. -/
def drawTask (id : AgentId) (p : Party) (b t : Nat) : M Unit := do
  let a := (← get).agent id
  let handles := (a.outs.drop 1).filter (· != 0#64)
  if handles.isEmpty then ringFault 1
  match ← reserveHere id p (a.outs.getD 0 0#64) 64 with
  | .error r => agentWaits id r
  | .ok batch =>
    match ← agentReserve p (handles.getD (t % handles.length) 0#64) 128 with
    | .error r => agentWaits id r
    | .ok task => do
      let rmask := if bitsAt b 8 8 = 0 then fieldOf a.cfg 0 8 else bitsAt b 8 8
      let va ← slotVa p batch 64
      agentCommit p task 128 (taskRecord b t rmask va.1) batch
      setBatch id.die { ring := va.2, counter := batch.counter, user := some (wordOf (bitsAt b (8 * 24) 64)),
                        opened := false, mask := 0, done_ := 0 }
      modAgent id fun a => { a.use batch with progress := t + 1 }
      agentAgain id

def runDraw (id : AgentId) (p : Party) : M Unit := do
  match ← agentInput id p 64 with
  | none => agentIdle id
  | some (r, d, c) => do
    let b ← loadVa p (slotAddr p.ctx d c) .load 64
    let t := ((← get).agent id).progress
    if !drawOk b then
      countSkipped id
      agentRelease id p r d c
    else if bitsAt b 32 32 ≤ t then agentRelease id p r d c
    else drawTask id p b t

/-- DRAW_RECORD (R318): the next task of the current draw, or the next draw. -/
def execDrawRecord (id : AgentId) (s : State) : Host.Outcome State Fault Refusal :=
  runEvent (.drawRecord id) (agentWork id (runDraw id)) s

/-! ## The rasterisers (R319, R320) -/

/-- A batch record is well formed; an empty one is whatever its other bytes hold (R314, R319). -/
def batchOk (b : Nat) : Bool :=
  let f (off n : Nat) : Nat := bitsAt b (8 * off) (8 * n)
  f 0 4 == 0 ||
  (decide (f 0 4 ≤ 65536) && stateOk (f 5 1) (f 6 1) && f 7 1 == 0 && f 8 8 % 64 == 0 && f 20 44 == 0)

/-- A screen position in units of 2^−8, ties to even. -/
def snap (bits : Nat) : Option Int :=
  match decodeFloat .f32 bits with
  | .num s m e more => some (roundInt 0 s m (e + 8) more).1
  | _ => none

/-- A primitive as the rasteriser works with it: snapped positions, twice the area, z and rw patterns. -/
structure Prim where
  x    : List Int
  y    : List Int
  area : Int
  z    : List Nat
  rw_  : List Nat
  id   : Nat
  deriving DecidableEq, Repr

/-- A primitive record's primitive; none for one with a reserved byte or a position that is not finite. -/
def primOf (b : Nat) : Option Prim :=
  let w (k : Nat) : Nat := bitsAt b (32 * k) 32
  match snap (w 0), snap (w 1), snap (w 4), snap (w 5), snap (w 8), snap (w 9) with
  | some x0, some y0, some x1, some y1, some x2, some y2 =>
    if bitsAt b (8 * 52) 96 ≠ 0 then none
    else some { x := [x0, x1, x2], y := [y0, y1, y2], area := (x1 - x0) * (y2 - y0) - (x2 - x0) * (y1 - y0),
                z := [w 2, w 6, w 10], rw_ := [w 3, w 7, w 11], id := w 12 }
  | _, _, _, _, _, _ => none

def Prim.front (q : Prim) (rstate : Nat) : Bool := decide (0 < q.area) != rstate.testBit 2

/-- The primitive is culled (R320). -/
def Prim.culled (q : Prim) (rstate : Nat) : Bool :=
  q.area == 0 || (rstate % 4 == 1 && !q.front rstate) || (rstate % 4 == 2 && q.front rstate)

/-- A centre lies inside an edge of a triangle of positive area, or on a top or left one. -/
def insideEdge (ax ay bx by_ px py : Int) : Bool :=
  let e := (bx - ax) * (py - ay) - (by_ - ay) * (px - ax)
  decide (0 < e) || (e == 0 && (decide (by_ < ay) || (by_ == ay && decide (ax < bx))))

/-- The pixel is covered (R320). -/
def Prim.covers (q : Prim) (px py : Nat) : Bool :=
  let k := if 0 < q.area then [0, 1, 2] else [0, 2, 1]
  let vx (n : Nat) : Int := q.x.getD (k.getD n 0) 0
  let vy (n : Nat) : Int := q.y.getD (k.getD n 0) 0
  let cx : Int := 256 * px + 128
  let cy : Int := 256 * py + 128
  insideEdge (vx 0) (vy 0) (vx 1) (vy 1) cx cy && insideEdge (vx 1) (vy 1) (vx 2) (vy 2) cx cy &&
  insideEdge (vx 2) (vy 2) (vx 0) (vy 0) cx cy

/-- The coverage of a block, bit i for element i. -/
def Prim.coverage (q : Prim) (bx by_ : Nat) : Nat :=
  (List.range 16).foldl (fun acc i =>
    let xy := quadPixel i
    if q.covers (4 * bx + xy.1) (4 * by_ + xy.2) then acc + 2 ^ i else acc) 0

/-- The rasterisers of a mask, in ascending order. -/
def maskMembers (m : Nat) : List Nat := (List.range 8).filter m.testBit

/-- The rasteriser that owns a block's screen tile (R320). -/
def tileOwner (mask bx by_ : Nat) : Nat :=
  let l := maskMembers mask
  l.getD ((bx / 8 + 3 * (by_ / 8)) % l.length) 0

/-- Block numbers of a range of snapped positions, those of the 16-bit block fields alone (R321). -/
def blockRange (l : List Int) : List Nat :=
  let lo := l.foldl min (l.getD 0 0)
  let hi := l.foldl max (l.getD 0 0)
  let a := (max (lo / 1024) 0).toNat
  let b := (min (hi / 1024) 65535 + 1).toNat
  (List.range (b - a)).map fun k => a + k

/-- The blocks of a primitive that a rasteriser produces: ascending by (by, bx). -/
def Prim.blocks (q : Prim) (mask r : Nat) : List (Nat × Nat × Nat) :=
  (blockRange q.y).flatMap fun by_ => (blockRange q.x).filterMap fun bx =>
    if tileOwner mask bx by_ = r then
      let m := q.coverage bx by_
      if m = 0 then none else some (bx, by_, m)
    else none

/-- One plane's three coefficients through values at the three vertices, each rounded once (R320). -/
def planeBytes (q : Prim) (f : List Val) : List Byte :=
  let x (k : Nat) : Int := q.x.getD k 0
  let y (k : Nat) : Int := q.y.getD k 0
  let v (k : Nat) : Val := f.getD k (Val.zero false)
  let d1 := (v 1).minus (v 0)
  let d2 := (v 2).minus (v 0)
  let na := (d1.times (.ofInt (y 2 - y 0))).minus (d2.times (.ofInt (y 1 - y 0)))
  let nb := (d2.times (.ofInt (x 1 - x 0))).minus (d1.times (.ofInt (x 2 - x 0)))
  let nc := ((v 0).times (.ofInt q.area)).minus ((na.times (.ofInt (x 0))).plus (nb.times (.ofInt (y 0))))
  let out (n : Val) (scale : Int) : List Byte :=
    let r := (divVal (n.times (.ofInt scale)) (.ofInt q.area)).1
    lowBytes 4 (encodeFloat .f32 24 { rm := 0, ftz := false, sat := false, nanprop := false } r).1
  out na 256 ++ out nb 256 ++ out nc 1

/-- A fragment block record (R320). -/
def fragmentRecord (q : Prim) (rstate target draw : Nat) (user : Word) (bx by_ mask : Nat) (bslot bring : Word) :
    List Byte :=
  let z := Val.zero false
  let rw_ (k : Nat) : Val := decodeFloat .f32 (q.rw_.getD k 0)
  let zz (k : Nat) : Val := decodeFloat .f32 (q.z.getD k 0)
  lowBytes 8 bslot.toNat ++ lowBytes 8 bring.toNat ++
  lowBytes 8 (target + 2 ^ 16 * mask + 2 ^ 32 * bx + 2 ^ 48 * by_) ++ lowBytes 4 q.id ++ lowBytes 4 draw ++
  lowBytes 8 user.toNat ++ lowBytes 4 (if q.front rstate then 1 else 0) ++ lowBytes 20 0 ++
  planeBytes q [z, rw_ 1, z] ++ planeBytes q [z, z, rw_ 2] ++ planeBytes q [rw_ 0, rw_ 1, rw_ 2] ++
  planeBytes q [zz 0, zz 1, zz 2] ++ lowBytes 16 0

/-- The base of the render-target table that a die's rasterisers read: that of its first enabled blend unit (log entry
28). -/
def State.targetTable (s : State) (die : Nat) : Word :=
  match (List.range 64).find? fun k => (s.agent { die := die, kind := .blend, index := k }).ctl.getLsbD 0 with
  | some k => (s.agent { die := die, kind := .blend, index := k }).outs.getD 0 0#64
  | none => 0#64

/-- Bytes of a block of a target format (R322). -/
def targetBlock (fmt : Nat) : Nat := if fmt = 2 then 128 else 64

/-- The blend ring of the slice that is home to a block's colour line (R312). -/
def homeRing (id : AgentId) (p : Party) (target bx by_ : Nat) : M Word := do
  let e ← loadVa p ((← get).targetTable id.die + wordOf (64 * target)) .load 64
  let off := (by_ * bitsAt e 128 32 + bx) * targetBlock (bitsAt e 160 8)
  let va := wordOf (bitsAt e 0 64 + off)
  let t ← translateM p.ctx va .load
  match region t.pa with
  | .hbm _ =>
    let h := homeSlice t.pa t.skew
    return ((← get).agent { die := h / 64, kind := .blend, index := h % 64 }).inp
  | _ => throw (.mem (.access .load va))

/-- The counter of the batch that a rasteriser takes next, in counter order: one whose mask has it and that it has not
finished, or the next one that no rasteriser has acquired; none when there is neither (R320). -/
def batchCounter (die : Die) (r : RingRef) (d : RingDesc) (index : Nat) : Option Nat :=
  ((List.range (d.diff d.tail d.head)).map fun k => (d.head + k) % d.m).find? fun c =>
    (c == d.acq && d.acq != d.tail) ||
    die.batches.any fun b => b.is r.pa c && b.opened && b.mask.testBit index && !b.done_.testBit index

/-- The rasteriser is done with a batch and looks for the next one. -/
def passBatch (id : AgentId) : M Unit := do
  modAgent id fun a => { a with counter := none, progress := 0, part := 0 }
  agentAgain id

/-- Marks a rasteriser as finished with a batch; the last one of the mask releases it. -/
def finishBatch (id : AgentId) (p : Party) (r : RingRef) (d : RingDesc) (b : Batch) : M Unit := do
  let done_ := b.done_ ||| 2 ^ id.index
  if b.mask &&& done_ = b.mask then
    dropBatch id.die r.pa b.counter
    releaseSlot p r d b.counter
  else setBatch id.die { b with done_ := done_ }
  passBatch id

/-- One block of a primitive, or the next primitive. A batch that no draw reserved gives its fragments no user word: a
free one (log entry 28). -/
def rasterise (id : AgentId) (p : Party) (b k : Nat) (user : Option Word) : M Unit := do
  let f (off n : Nat) : Nat := bitsAt b (8 * off) (8 * n)
  let mask := f 4 1
  let next : M Unit := do
    modAgent id fun a => { a with progress := k + 1, part := 0 }
    agentAgain id
  match primOf (← loadVa p (wordOf (f 8 8 + 64 * k)) .load 64) with
  | none => do
    countSkipped id
    next
  | some q =>
    let a := (← get).agent id
    let blocks := if q.culled (f 6 1) then [] else q.blocks mask id.index
    match blocks[a.part]? with
    | none => next
    | some (bx, by_, m) => do
      let ring ← homeRing id p (f 5 1) bx by_
      match ← reserveHere id p ring 256 with
      | .error r => agentWaits id r
      | .ok blend =>
        match ← agentReserve p (a.outs.getD 0 0#64) 128 with
        | .error r => agentWaits id r
        | .ok slot => do
          let va ← slotVa p blend 256
          let u ← match user with
            | some u => pure u
            | none => freeWord
          agentCommit p slot 128
            (fragmentRecord q (f 6 1) (f 5 1) (f 16 4) u bx by_ m va.1 blend.handle) blend
          modAgent id fun a => { a.use blend with part := a.part + 1 }
          agentAgain id

/-- The batch that no rasteriser has acquired: the first that looks at it acquires it, releases it if it is empty or not
well formed, and otherwise wakes the rasterisers of its mask (log entry 28). -/
def openBatch (id : AgentId) (p : Party) (r : RingRef) (d : RingDesc) : M Unit := do
  let c := d.acq
  let t := d.acquire
  if t.1.st ≠ stOk then agentWaits id r
  else do
    saveRing p r d t.2
    let b ← loadVa p (slotAddr p.ctx t.2 c) .load 64
    let mask := bitsAt b 32 8
    if !batchOk b || bitsAt b 0 32 == 0 || mask == 0 then
      if !batchOk b then countSkipped id
      dropBatch id.die r.pa c
      releaseSlot p r t.2 c
    else do
      let known := ((← get).die id.die).batches.find? fun b => b.is r.pa c
      setBatch id.die { ring := r.pa, counter := c, user := known.bind Batch.user, opened := true, mask := mask, done_ := 0 }
      forM' (fun k => agentAgain { id with index := k }) ((maskMembers mask).filter fun k => k != id.index)
    passBatch id

/-- The open batch at a counter: its next block, or its end. -/
def runBatchAt (id : AgentId) (p : Party) (r : RingRef) (d : RingDesc) (slot : Batch) : M Unit := do
  let b ← loadVa p (slotAddr p.ctx d slot.counter) .load 64
  modAgent id fun a => { a with counter := some slot.counter }
  let k := ((← get).agent id).progress
  if bitsAt b 0 32 ≤ k then finishBatch id p r d slot else rasterise id p b k slot.user

def runBatch (id : AgentId) (p : Party) : M Unit := do
  let a := (← get).agent id
  let (r, d) ← agentRing p a.inp 64
  let die := (← get).die id.die
  match a.counter.or (batchCounter die r d id.index) with
  | none => agentIdle id
  | some c =>
    match die.batches.find? fun b => b.is r.pa c && b.opened with
    | some slot => runBatchAt id p r d slot
    | none => openBatch id p r d

/-- BATCH_RECORD (R320): the next block of the current batch, or the next batch. -/
def execBatchRecord (id : AgentId) (s : State) : Host.Outcome State Fault Refusal :=
  runEvent (.batchRecord id) (agentWork id (runBatch id)) s

/-! ## The blend units (R321 to R323) -/

/-- A blend record's header and its table entry are in range (R321, R322). -/
def blendOk (hdr e : Nat) : Bool :=
  let f (off n : Nat) : Nat := bitsAt e (8 * off) (8 * n)
  bitsAt hdr 9 7 == 0 && decide (bitsAt hdr 0 8 ≤ 63) &&
  f 0 8 % 256 == 0 && f 0 8 != 0 && f 8 8 % 256 == 0 && decide (f 20 1 ≤ 2) && decide (f 21 1 ≤ 4) &&
  bitsAt (f 22 1) 4 3 == 0 && decide (bitsAt (f 22 1) 0 4 ≤ 8) && decide (f 23 1 < 16) &&
  decide (bitsAt hdr 32 16 < f 24 2) && decide (bitsAt hdr 48 16 < f 26 2) && f 28 36 == 0

/-- The blend operation on exact values of one scale; one is 1 in that scale, and over's product is scaled back by the
caller's rescale. -/
def blendVal (op : Nat) (s d sa one : Val) : Val :=
  match op with
  | 0 => s.times one
  | 1 => (s.times one).plus (d.times (one.minus sa))
  | 2 => (s.plus d).times one
  | 3 => (minMaxVal false s d).1.times one
  | _ => (minMaxVal true s d).1.times one

/-- A finite non-negative value as a whole number of units of 2^−100. -/
def unitsOf : Val → Int
  | .num s m e _ => (let v : Int := (if 0 ≤ e + 100 then m * 2 ^ (e + 100).toNat else m / 2 ^ (-(e + 100)).toNat : Nat)
                     if s then -v else v)
  | _ => 0

/-- n/255 nearest to a value scaled by 65,535², clamped to [0, 1], ties to even. -/
def nearest255 (v : Val) : Nat :=
  let top : Int := 65535 * 65535 * 2 ^ 100
  let u := min (max (unitsOf v) 0) top
  let q := (255 * u) / top
  let r := (255 * u) % top
  (if top < 2 * r ∨ (2 * r = top ∧ q % 2 = 1) then q + 1 else q).toNat

/-- The sRGB entry nearest to a value scaled by 65,535², ties to even. -/
def nearestSrgb (v : Val) : Nat :=
  let u := unitsOf v
  let dist (n : Nat) : Nat := (unitsOf ((unormFloat .f32 (srgbTable.getD n 0)).times unormOne) - u).natAbs
  (List.range 256).foldl (fun best n =>
    if dist n < dist best ∨ (dist n = dist best ∧ n % 2 = 0 ∧ best % 2 = 1) then n else best) 0

/-- The channels of an element of a target format: times 65,535 for the 8-bit formats. -/
def targetDecode (fmt raw : Nat) : List Val :=
  if fmt = 2 then (List.range 4).map fun k => decodeFloat .f16 (bitsAt raw (16 * k) 16) else texelDecode fmt raw 0 0

/-- One channel of the blended element, encoded. -/
def blendChannel (fmt op ch : Nat) (s d : List Val) : Nat :=
  let z := Val.zero false
  let one := if fmt = 2 then .ofInt 1 else unormOne
  let r := blendVal op (s.getD ch z) (d.getD ch z) (s.getD 3 z) one
  if fmt = 2 then (encodeFloat .f16 11 { rm := 0, ftz := false, sat := false, nanprop := false } r).1
  else if fmt = 1 ∧ ch < 3 then nearestSrgb r
  else nearest255 r

/-- A blended element, the channels of wmask new and the others old. -/
def blendElement (fmt op wmask src dst : Nat) : Nat :=
  let w := if fmt = 2 then 16 else 8
  let s := targetDecode fmt src
  let d := targetDecode fmt dst
  (List.range 4).foldl (fun acc ch =>
    acc + 2 ^ (w * ch) * (if wmask.testBit ch then blendChannel fmt op ch s d else bitsAt dst (w * ch) w)) 0

/-- One element of a record: its depth test, then its colour. slot is the record's address, hdr its header word and e the
table entry; of the record it reads what the element needs (R323, R382). -/
def blendPixel (p : Party) (slot : Word) (hdr e i : Nat) : M Unit := do
  let f (off n : Nat) : Nat := bitsAt e (8 * off) (8 * n)
  let block := bitsAt hdr 48 16 * f 16 4 + bitsAt hdr 32 16
  let zfn := bitsAt (f 22 1) 0 4
  let za := wordOf (f 8 8 + 64 * block + 4 * i)
  let tested := zfn != 0 && f 8 8 != 0 && bitsAt hdr 8 1 == 1
  let pass ← if tested then do
      let depth ← loadVa p (slot + wordOf (64 + 4 * i)) .load 4
      let old ← loadVa p za .load 4
      let pass := compareFn zfn (decodeFloat .f32 depth) (decodeFloat .f32 old)
      if pass && (f 22 1).testBit 7 then storeVa p za 4 depth
      pure pass
    else pure true
  if pass then
    let n := targetBlock (f 20 1) / 16
    let ca := wordOf (f 0 8 + targetBlock (f 20 1) * block + n * i)
    let new ← loadVa p (slot + wordOf (128 + n * i)) .load n
    let old ← loadVa p ca .load n
    if f 23 1 ≠ 0 then storeVa p ca n (blendElement (f 20 1) (f 21 1) (f 23 1) new old)

def runBlend (id : AgentId) (p : Party) : M Unit := do
  match ← agentInput id p 256 with
  | none => agentIdle id
  | some (r, d, c) => do
    let slot := slotAddr p.ctx d c
    let hdr ← loadVa p slot .load 8
    let mask := bitsAt hdr 16 16
    if mask ≠ 0 then
      let e ← if bitsAt hdr 0 8 ≤ 63 then
          loadVa p (((← get).agent id).outs.getD 0 0#64 + wordOf (64 * bitsAt hdr 0 8)) .load 64
        else pure 0
      if blendOk hdr e then
        forM' (fun i => if mask.testBit i then blendPixel p slot hdr e i else pure ()) (List.range 16)
      else countSkipped id
    agentRelease id p r d c

/-- BLEND_RECORD (R323): the next committed slot, whole. -/
def execBlendRecord (id : AgentId) (s : State) : Host.Outcome State Fault Refusal :=
  runEvent (.blendRecord id) (agentWork id (runBlend id)) s

/-! ## Register events (R315, R316) -/

/-- AGENT_RING_SPACE (R316): an agent that waits for space goes on. -/
def execAgentRingSpace (id : AgentId) (s : State) : Host.Outcome State Fault Refusal :=
  let a := s.agent id
  .next (if a.state = 2 ∧ a.waits.isSome then (s.setAgent id { a with waits := none }).post [recordEvent id] else s)

/-- AGENT_BEACON (R315). -/
def execAgentBeacon (id : AgentId) (s : State) : Host.Outcome State Fault Refusal := .next (s.writeAgent id 0x18 0#64)

/-- AGENT_RESUME (R316): a write of ctl with resume set. -/
def execAgentResume (id : AgentId) (s : State) : Host.Outcome State Fault Refusal :=
  .next (s.writeAgent id 0 ((s.agent id).ctl ||| 2#64))

/-- AGENT_ENABLE (R315): a write of ctl. -/
def execAgentEnable (id : AgentId) (v : Word) (s : State) : Host.Outcome State Fault Refusal :=
  .next (s.writeAgent id 0 v)

end Sys2Proof.Machine
end

