-- ==== Sys2Proof/Machine/Csr.lean ====
section
/-! DEFINITION. The CSRs of a compute hart (01 R10 to R13, R19 to R25, R442) and the six Zicsr instructions. -/

namespace Sys2Proof.Machine

/-! ## Reading -/

/-- sstatus: SIE, SPIE, SPP, SUM and MXR as kept, UXL = 2, every other bit 0 (R442). -/
def Hart.readSstatus (h : Hart) : Word := (h.sstatus &&& 0xC_0122#64) ||| 0x2_0000_0000#64

/-- sip: SSIP, and STIP as the timer stands (R13). -/
def State.readSip (s : State) : Word :=
  (if s.hart.ssip then 2#64 else 0#64) ||| (if s.hart.stimecmp.toNat ≤ s.dev.refTime then 0x20#64 else 0#64)

/-- awctl (R190). -/
def Hart.readAwctl (h : Hart) : Word :=
  let base := setField 0#64 29 3 h.awst.toNat
  match h.window with
  | some w => setField (setField (setField base 32 4 w.next) 28 1 1) 0 28 (fieldOf w.ctl 0 28)
  | none => base

/-- tmena: one bit for each enabled tile (R19). -/
def Hart.readTmena (h : Hart) : Word :=
  wordOf ((List.range 8).foldl (fun n t => if (h.tiles.toList.getD t none).isSome then n + 2 ^ t else n) 0)

/-- qocc (R24). -/
def Hart.readQocc (h : Hart) : Word :=
  let base := (List.range 8).foldl (fun v k => setField v (4 * k) 4 (h.q.toList.getD k []).length) 0#64
  setField (setField (setField (setField base 32 4 h.lq.length) 36 5 h.vq.length) 41 2 h.mq.length) 43 2 h.cq.length

/-- The value of the CSR at an address; none for an address that R11 makes Illegal. -/
def State.readCsr (s : State) (a : Nat) : Option Word :=
  let h := s.hart
  match a with
  | 0x100 => some h.readSstatus
  | 0x104 => some h.sie
  | 0x105 => some h.stvec
  | 0x106 => some h.scounteren
  | 0x10A => some h.senvcfg
  | 0x140 => some h.sscratch
  | 0x141 => some h.sepc
  | 0x142 => some h.scause
  | 0x143 => some h.stval
  | 0x144 => some s.readSip
  | 0x14D => some h.stimecmp
  | 0x180 => some h.satp
  | 0x5C0 => some h.xfbase
  | 0x5C1 => some h.vfpc
  | 0x5C2 => some h.vfcause
  | 0x5C3 => some h.vfaddr
  | 0x5C4 => some h.trroute
  | 0x5C5 => some h.hbase
  | 0x800 => some h.vpal
  | 0x801 => some (wordOf h.vfrm.toNat)
  | 0x802 => some (wordOf h.vfflags.toNat)
  | 0x803 => some (wordOf h.vstart)
  | 0x804 => some (wordOf h.vxmask.toNat)
  | 0x805 => some (wordOf h.vmsp)
  | 0x806 => some h.vmspill
  | 0x807 => some h.vsptr
  | 0x808 => some h.rstat
  | 0x809 => some h.txstat
  | 0x80A => some h.txdeadline
  | 0x80B => some h.hinfo
  | 0x80C => some h.readAwctl
  | 0xC00 => some (wordOf s.clock)
  | 0xC01 => some s.time
  | 0xC02 => some (wordOf h.instret)
  | 0xCC0 => some (wordOf h.vl)
  | 0xCC1 => some h.vgrant
  | 0xCC2 => some h.coord
  | 0xCC3 => some h.stage
  | 0xCC4 => some h.launchTag
  | 0xCC5 => some h.readTmena
  | 0xCC6 => some (wordOf h.txnest)
  | 0xCC7 => some h.readQocc
  | 0xCC8 => some s.tickWord
  | _ => none

/-! ## Writing -/

/-- A write of bits that a mask makes writable. -/
def masked (mask old v : Word) : Word := (old &&& ~~~mask) ||| (v &&& mask)

/-- senvcfg: FIOM, CBIE, CBCFE and CBZE; the reserved CBIE code 10 leaves CBIE as it was (log entry 15). -/
def newSenvcfg (old v : Word) : Word :=
  masked (if fieldOf v 4 2 = 2 then 0xC1#64 else 0xF1#64) old v

/-- The effect of writing a CSR other than vmsp on the hart (R3, R4, R13, R19 to R22, R139, R167, R190, R199, R221,
R367, R442). satp, trroute and sip.STIP ignore writes. The model's own choices (log entry 15): sie keeps [15:0] of what is
written, and a reserved stvec.MODE, 2 or 3, has its bit 1 cleared. -/
def Hart.writeCsr (h : Hart) (a : Nat) (v : Word) : Hart :=
  match a with
  | 0x100 => { h with sstatus := v &&& 0xC_0122#64 }
  | 0x104 => { h with sie := v &&& 0xFFFF#64 }
  | 0x105 => { h with stvec := v &&& ~~~2#64 }
  | 0x106 => { h with scounteren := v &&& 7#64 }
  | 0x10A => { h with senvcfg := newSenvcfg h.senvcfg v }
  | 0x140 => { h with sscratch := v }
  | 0x141 => { h with sepc := v &&& ~~~3#64 }
  | 0x142 => { h with scause := v }
  | 0x143 => { h with stval := v }
  | 0x144 => { h with ssip := v.getLsbD 1 }
  | 0x14D => { h with stimecmp := v }
  | 0x5C0 => { h with xfbase := v }
  | 0x5C1 => { h with vfpc := v }
  | 0x5C2 => { h with vfcause := v &&& 0xFF03_03FF#64 }
  | 0x5C3 => { h with vfaddr := v }
  | 0x5C5 => { h with hbase := v }
  | 0x800 => { h with vpal := v }
  | 0x801 => { h with vfrm := v.extractLsb' 0 3 }
  | 0x802 => { h with vfflags := v.extractLsb' 0 6 }
  | 0x803 => { h with vstart := fieldOf v 0 11 }
  | 0x804 => { h with vxmask := v.extractLsb' 0 6 }
  | 0x806 => { h with vmspill := v &&& ~~~0x1FF#64 }
  | 0x807 => { h with vsptr := v }
  | 0x808 => { h with rstat := v &&& 0xFFFF_FFFF_0000_1F1F#64 }
  | 0x809 => { h with txstat := v &&& 0xFF87_FFFF#64 }
  | 0x80A => { h with txdeadline := v }
  | 0x80B => { h with hinfo := masked 0xFF_871F_077F#64 h.hinfo v }
  | 0x80C => { h with awst := v.extractLsb' 29 3 }
  | _ => h

/-- Writes a CSR. vmsp moves the held mask entries through the spill area (R139). -/
def writeCsr (a : Nat) (v : Word) : M Unit := do
  if a = 0x805 then
    let d := v.toNat
    if d ≤ 256 then
      let h ← getH
      let l ← setMaskDepth h.masks h.vmsp d
      modH fun h => { h with masks := l, vmsp := d }
  else modH fun h => h.writeCsr a v

/-! ## Access rules -/

/-- A standard S-mode CSR (R10). -/
def isSmodeCsr (a : Nat) : Bool := decide (0x100 ≤ a) && decide (a < 0x200)

/-- The CSRs under rule D (R19). -/
def isRuleD (a : Nat) : Bool :=
  [0x802, 0x803, 0x805, 0x806, 0x80C, 0xCC5, 0x5C0, 0x5C1, 0x5C2, 0x5C3].contains a

/-- The access is allowed (R11, R95): the mode, the read-only addresses and scounteren. -/
def Hart.csrAllowed (h : Hart) (a : Nat) (write : Bool) : Bool :=
  !(h.priv == .user && (isSmodeCsr a || (decide (0x5C0 ≤ a) && decide (a ≤ 0x5C5)))) &&
  !(write && decide (0xC00 ≤ a)) &&
  !(h.priv == .user && decide (0xC00 ≤ a) && decide (a ≤ 0xC02) && !h.scounteren.getLsbD (a - 0xC00))

/-- R205: an access to an S-mode CSR, among them 0x5C0 to 0x5C5 (R11, R209), to vmsp or to vmspill aborts a transaction
with SYSTEM, in either mode (log entry 8). -/
def csrTx (a : Nat) : M Unit := do
  if isSmodeCsr a || (decide (0x5C0 ≤ a) && decide (a ≤ 0x5C5)) || a == 0x805 || a == 0x806 then abortIfTx 6

/-- One Zicsr instruction: f is the new value from the old one, or none where the form does not write. -/
def csrOp (i : Instr) (csr : BitVec 12) (rd : Reg) (f : Option (Word → Word)) : M Unit := do
  let a := csr.toNat
  match (← get).readCsr a with
  | none => illegal i
  | some _ => do
    csrTx a
    if !(← getH).csrAllowed a f.isSome then illegal i
    if isRuleD a then drain
    match (← get).readCsr a, f with
    | some old, some g => do
      writeCsr a (g old)
      writeX rd old
    | some old, none => writeX rd old
    | none, _ => pure ()
    advance 4

/-! ## The instructions -/

def execCsrrw (csr : BitVec 12) (rd rs1 : Reg) (s : State) : Host.Outcome State Fault Refusal :=
  runScalar (csrOp (.csrrw csr rd rs1) csr rd (some fun _ => s.rx rs1)) s

def execCsrrs (csr : BitVec 12) (rd rs1 : Reg) (s : State) : Host.Outcome State Fault Refusal :=
  runScalar (csrOp (.csrrs csr rd rs1) csr rd (if rs1 = 0#5 then none else some fun o => o ||| s.rx rs1)) s

def execCsrrc (csr : BitVec 12) (rd rs1 : Reg) (s : State) : Host.Outcome State Fault Refusal :=
  runScalar (csrOp (.csrrc csr rd rs1) csr rd (if rs1 = 0#5 then none else some fun o => o &&& ~~~(s.rx rs1))) s

def execCsrrwi (csr : BitVec 12) (rd uimm : Reg) (s : State) : Host.Outcome State Fault Refusal :=
  runScalar (csrOp (.csrrwi csr rd uimm) csr rd (some fun _ => uimm.zeroExtend 64)) s

def execCsrrsi (csr : BitVec 12) (rd uimm : Reg) (s : State) : Host.Outcome State Fault Refusal :=
  runScalar (csrOp (.csrrsi csr rd uimm) csr rd
    (if uimm = 0#5 then none else some fun o => o ||| uimm.zeroExtend 64)) s

def execCsrrci (csr : BitVec 12) (rd uimm : Reg) (s : State) : Host.Outcome State Fault Refusal :=
  runScalar (csrOp (.csrrci csr rd uimm) csr rd
    (if uimm = 0#5 then none else some fun o => o &&& ~~~(uimm.zeroExtend 64))) s

end Sys2Proof.Machine
end

