-- ==== Sys2Proof/Machine/Delta.lean ====
section
/-! DEFINITION. W group 6: the delta instructions (16 R344, R345, R352 to R362), and DELTA_DRAIN (R340). -/

namespace Sys2Proof.Machine

/-! ## Checks (R339, R352, R362) -/

/-- A DELTA-FAULT. -/
def deltaFault {α : Type} (sub : Nat) (addr : Word) : M α := throw (.stream 31 sub addr addr)

/-- Checks made before the first element: a fault of theirs has vstart 0. -/
def beforeElements {α : Type} (m : M α) : M α := do
  let lo := (← getH).vstart
  atStart
  let a ← m
  modH fun h => { h with vstart := lo }
  return a

/-- Finds a delta ring's descriptor (R339): a loc 1 ring may belong to any cluster. -/
def deltaPlace (p : Party) (h : Word) : M (RingRef × Nat) := do
  if !handleOk h || fieldOf h 60 4 != 1 then deltaFault 1 h
  if fieldOf h 56 4 = 0 then
    let va := wordOf (fieldOf h 0 56)
    let t ← translateM p.ctx va .store
    match region t.pa with
    | .hbm _ => return ({ handle := h, va := va, pa := t.pa, cluster := 0, gang := none }, t.skew)
    | _ => deltaFault 1 h
  else
    let c := fieldOf h 6 50
    match (← get).entryGang c (fieldOf h 0 6) with
    | some g =>
      return ({ handle := h, va := wordOf (ringTableEntry c (fieldOf h 0 6)), pa := ringTableEntry c (fieldOf h 0 6), cluster := c,
                gang := some g }, 0)
    | none => deltaFault 1 h

/-- Opens a delta ring (R339). -/
def openDelta (p : Party) (h : Word) : M (DeltaAt × RingDesc) := do
  let (r, skew) ← deltaPlace p h
  let d := RingDesc.ofNat (← ringBytes p r)
  let fits := match r.gang with
    | some g => decide (d.base.toNat + d.n * d.size ≤ g.ringLimit)
    | none => true
  if !(d.ok h && fieldOf d.ctl 32 4 == 5 && decide (d.window ≤ d.n) && fits) then deltaFault 1 h
  return ({ p := p, r := r, unit := unitOf r skew }, d)

/-- Opens a delta ring that is bound to a graph (R353). -/
def openBound (p : Party) (h : Word) : M (DeltaAt × RingDesc × GraphMember) := do
  let x ← openDelta p h
  match (← get).graphOf x.1.r.pa with
  | some m => return (x.1, x.2, m)
  | none => deltaFault 3 h

/-- A transaction aborts (R205); a width that is not 64, or a register bound to a stream, is Illegal at dispatch
(R352). -/
def deltaStart (e : QEntry) (regs : List Nat) (wide : Bool) : M Unit := do
  if (← getH).tx.isSome then throw (.abort 7 0)
  let h ← getH
  requireV e ((!wide || e.bits == 64) && regs.all fun r => (h.binding r).isNone)

def group4 (r : Reg) : List Nat := (List.range 4).map fun k => r.toNat + k

/-- The multiplicity of element i of a record group, in range or a fault (R353). -/
def multOf (h : Hart) (r i : Nat) : M Int := do
  let m := decodeInt true 64 (elem (h.rv (r + 3)) 64 i)
  if fitsMult m then return m else deltaFault 2 0#64

/-- Element i of a record group. -/
def groupRecord (r i : Nat) : M DeltaRec := do
  let h ← getH
  let m ← multOf h r i
  return { key := wordOf (elem (h.rv r) 64 i), plo := wordOf (elem (h.rv (r + 1)) 64 i),
           phi := wordOf (elem (h.rv (r + 2)) 64 i), mult := m, stage := h.stage.toNat % 256, split := false }

/-- Writes 64-bit element i of a register. -/
def put64 (r i x : Nat) : M Unit := modH fun h => h.wv r (setElem (h.rv r) 64 i x)

/-- A multiplicity as a 64-bit pattern. -/
def signed64 (m : Int) : Nat := (m % (2 ^ 64 : Nat)).toNat

/-! ## DPUSH, DPOP, DSEAL (R353 to R355) -/

/-- DPUSH's element loop (R353): each accepted record clears quiet, and the graph's count may be zero after it (R349). -/
def pushElem (c : VCtx) (d : DeltaAt) (g : GraphMember) (i : Nat) : M Unit := do
  let ok ← if c.active i then do
      let r ← groupRecord c.w.vs1.toNat i
      let ok ← d.offer r
      if ok && r.mult != 0 then modify fun s => (s.clearQuiet g.graph).noteGraph g.graph
      pure ok
    else pure false
  if c.w.vd ≠ 0#5 then modH fun h => h.wp c.w.vd.toNat (setBit (h.rp c.w.vd.toNat) i ok)

def runDpush (w : WWord) (e : QEntry) : M Unit := do
  deltaStart e (group4 w.vs1) true
  let c ← dispatchV w e false
  let (d, q, g) ← beforeElements do openBound (← ownParty) e.cap.x3
  release q.pscope
  let lo := (← getH).vstart
  elemLoop (pushElem c d g) (c.vl - lo) lo
  if w.vd ≠ 0#5 then modH fun h => h.wp w.vd.toNat (h.rp w.vd.toNat &&& lowMask (min (max c.vl lo) c.vlmax))
  completeV

/-- A destination of a result word: lq for 0, else q4 to q7; Held while it is full (R30). -/
def deltaRoom (k : Nat) : M Unit := do
  let h ← getH
  if k = 0 ∧ 8 ≤ h.lq.length then hold .lqFull
  if 0 < k ∧ 8 ≤ (h.q.toList.getD k []).length then hold .queueFull

def deltaPut (k : Nat) (v : Word) : M Unit := modH fun h =>
  if hk : 0 < k ∧ k < 8 then { h with q := h.q.set k (h.q[k] ++ [v]) } else h

/-- The records that a DPOP takes from a ring, at most n, up to an end of batch (R354): written to the record group as
they come. The answer is the count, whether the last had eob, and whether any had split. -/
def popRecords (d : DeltaAt) (vd : Nat) (withMeta : Bool) : Nat → Nat → Bool → M (Nat × Bool × Bool)
  | 0, i, split => return (i, false, split)
  | n + 1, i, split => do
    let q ← d.desc
    if q.acq = q.tail then return (i, false, split)
    else
      let k := q.acq
      let b ← d.slot q k
      let r := DeltaRec.ofNat b
      put64 vd i r.1.key.toNat
      put64 (vd + 1) i r.1.plo.toNat
      put64 (vd + 2) i r.1.phi.toNat
      put64 (vd + 3) i (signed64 r.1.mult)
      if withMeta then put64 (vd + 4) i r.2
      let q1 := { q with acq := (q.acq + 1) % q.m }.release k
      saveRing d.p d.r q q1
      flipOwner d.p d.r q k false
      let split1 := split || r.1.split
      if r.2.testBit 26 then return (i + 1, true, split1)
      else popRecords d vd withMeta n (i + 1) split1

/-- No batch and no record remain on a closed ring (R354). -/
def DeltaAt.finished (d : DeltaAt) : M Bool := do
  let x := (← get).deltaRing d
  let q ← d.desc
  return q.pclosed && x.open_.isEmpty && x.pending.isNone && q.acq == q.tail

def runDpop (w : WWord) (e : QEntry) : M Unit := do
  let withMeta := w.aux9.getLsbD 3
  deltaStart e ((List.range (if withMeta then 5 else 4)).map fun k => w.vd.toNat + k) true
  wholeVector e
  let c ← dispatchV w e false
  let k := (w.aux9.extractLsb' 0 3).toNat
  deltaRoom k
  atomically do
    let (d, q, g) ← openBound (← ownParty) e.cap.x3
    if q.acq = q.tail then d.close
    let r ← popRecords d w.vd.toNat withMeta c.vlmax 0 false
    let ended ← d.finished
    let st := if r.1 ≠ 0 then 0 else if ended then stClosed else stEmpty
    if r.1 ≠ 0 then modify fun s => s.enterGraph s.hart.id g.graph
    if ((← get).deltaRing d).pending.isSome then modify fun s => s.post [.deltaDrain d.r.pa]
    if k = 0 then modH fun h => { h with lq := h.lq ++ [BitVec.ofNat 32 r.1] }
    else deltaPut k (setField (setField (setField (wordOf r.1) 32 1 (if r.2.2 then 1 else 0)) 33 1
      (if r.2.1 then 1 else 0)) 34 30 st)
    modify fun s => s.noteGraph g.graph
  completeV

def runDseal (w : WWord) (e : QEntry) : M Unit := do
  deltaStart e [] false
  let _ ← dispatchV w e false
  let x ← beforeElements do openBound (← ownParty) e.cap.x3
  atStart
  atomically x.1.seal
  completeV

/-! ## Arrangements (R344, R345) -/

/-- An arrangement's header. -/
structure Arrangement where
  at_   : Word
  base  : Word
  lcap  : Nat
  live  : Nat
  tombs : Nat
  flags : Nat
  graph : Word
  deriving DecidableEq, Repr

def Arrangement.size (a : Arrangement) : Nat := 2 ^ a.lcap
def Arrangement.slotVa (a : Arrangement) (p : Nat) : Word := a.base + wordOf (32 * p)
def Arrangement.home (a : Arrangement) (key : Word) : Nat := deltaHash key / 2 ^ (32 - a.lcap)

/-- The header's fields are in range. -/
def headerOk (b : Nat) : Bool :=
  let f (off n : Nat) : Nat := bitsAt b (8 * off) (8 * n)
  f 0 8 % 128 == 0 && decide (4 ≤ f 8 1) && decide (f 8 1 ≤ 24) && decide (f 9 1 ≤ 5) && f 10 2 == 0 &&
  decide (f 20 4 ≤ 1) && f 32 32 == 0

/-- Reads and checks a header (R344); a bad one is a DELTA-FAULT ARRANGEMENT. -/
def readHeader (va : Word) : M Arrangement := do
  if va.toNat % 128 ≠ 0 then deltaFault 4 va
  let p ← ownParty
  let b ← loadVa p va .load 64
  let f (off n : Nat) : Nat := bitsAt b (8 * off) (8 * n)
  if !headerOk b then deltaFault 4 va
  let base := wordOf (f 0 8)
  let t ← translateM p.ctx base .load
  match region t.pa with
  | .hbm _ => pure ()
  | _ => if !((p.ctx.windowOff base).map fun o => decide (o < 0x40_0000)).getD false then deltaFault 4 va
  return { at_ := va, base := base, lcap := f 8 1, live := f 12 4, tombs := f 16 4, flags := f 20 4,
           graph := wordOf (f 24 8) }

/-- Slot p with its meta word; state 3 or a reserved meta bit is a DELTA-FAULT (R361). -/
def readSlot (a : Arrangement) (p : Nat) : M (DeltaRec × Nat) := do
  let b ← loadVa (← ownParty) (a.slotVa p) .load 32
  let r := DeltaRec.ofNat b
  if r.2 / 2 ^ 28 ≠ 0 ∨ r.2 / 2 ^ 8 % 2 ^ 16 ≠ 0 ∨ r.2 / 2 ^ 24 % 4 = 3 then deltaFault 4 (a.slotVa p)
  return r

def slotState (meta_ : Nat) : Nat := meta_ / 2 ^ 24 % 4

def writeSlot (a : Arrangement) (p : Nat) (r : DeltaRec) (state : Nat) : M Unit := do
  storeBytes (← ownParty) (a.slotVa p) (r.bytes false state)

/-- The first live slot of a key among n positions from p, up to an empty one (R356). -/
def findKey (a : Arrangement) (key : Word) : Nat → Nat → M (Option (Nat × DeltaRec))
  | 0, _ => return none
  | n + 1, p => do
    let r ← readSlot a p
    if slotState r.2 = 0 then return none
    else if slotState r.2 = 1 ∧ r.1.key = key then return some (p, r.1)
    else findKey a key n ((p + 1) % a.size)

/-- One element of DLOOK or DNEXT (R356). -/
def lookElem (c : VCtx) (a : Arrangement) (next : Bool) (i : Nat) : M Unit := do
  if c.active i then
    let h ← getH
    let vd := c.w.vd.toNat
    let key := wordOf (elem (h.rv c.w.vs1.toNat) 64 i)
    let home := a.home key
    let cur := elem (h.rv (vd + 3)) 64 i
    let m ← if next then
        if a.size ≤ cur then pure none
        else
          let p := (cur + 1) % a.size
          findKey a key ((home + a.size - p) % a.size) p
      else findKey a key a.size home
    match m with
    | some (p, r) => do
      put64 vd i r.plo.toNat
      put64 (vd + 1) i r.phi.toNat
      put64 (vd + 2) i (signed64 r.mult)
      put64 (vd + 3) i p
    | none => do
      put64 vd i 0
      put64 (vd + 1) i 0
      put64 (vd + 2) i 0
      put64 (vd + 3) i (2 ^ 64 - 1)

def lookWith (w : WWord) (e : QEntry) (next : Bool) : M Unit := do
  deltaStart e (w.vs1.toNat :: group4 w.vd) true
  let c ← dispatchV w e false
  let a ← beforeElements (readHeader e.cap.x3)
  let lo := (← getH).vstart
  elemLoop (lookElem c a next) (c.vl - lo) lo
  completeV

def runDlook (w : WWord) (e : QEntry) : M Unit := lookWith w e false
def runDnext (w : WWord) (e : QEntry) : M Unit := lookWith w e true

/-! ## DAPPLY (R357) -/

/-- What a probe for a record finds: the slot to add to, the first free slot with whether it is a tombstone, and the
equal live slots that it passed. -/
structure Probe where
  found : Option (Nat × DeltaRec)
  free  : Option (Nat × Bool)
  twins : List (Nat × DeltaRec)
  deriving Repr

def probe (a : Arrangement) (r : DeltaRec) : Nat → Nat → Probe → M Probe
  | 0, _, acc => return acc
  | n + 1, p, acc => do
    let s ← readSlot a p
    match slotState s.2 with
    | 0 => return { acc with free := acc.free.orElse fun _ => some (p, false) }
    | 1 =>
      if s.1.same r then
        if fitsMult (s.1.mult + r.mult) then return { acc with found := some (p, s.1) }
        else probe a r n ((p + 1) % a.size) { acc with twins := acc.twins ++ [(p, s.1)] }
      else probe a r n ((p + 1) % a.size) acc
    | _ => probe a r n ((p + 1) % a.size) { acc with free := acc.free.orElse fun _ => some (p, true) }

/-- The counts and flags of a header. -/
def writeCounts (a : Arrangement) (live tombs flags : Int) : M Unit := do
  let w (v : Int) : List Byte := lowBytes 4 (v % (2 ^ 32 : Nat)).toNat
  storeBytes (← ownParty) (a.at_ + 12#64) (w live ++ w tombs ++ w flags)

/-- The graph of an arrangement shows ovf (R345). -/
def arrangementOvf (a : Arrangement) : M Unit := do
  if a.graph ≠ 0#64 then
    let t ← translateM (← ownParty).ctx a.graph .load
    match region t.pa with
    | .hbm _ => modify fun s => s.graphOvf t.pa
    | _ => pure ()

/-- One element of DAPPLY, indivisible at the arrangement's home. -/
def applyElem (c : VCtx) (i : Nat) : M Unit := do
  if c.active i then
    let r ← groupRecord c.w.vs1.toNat i
    if r.mult ≠ 0 then
      let a ← readHeader c.e.cap.x3
      let x ← probe a r a.size (a.home r.key) { found := none, free := none, twins := [] }
      match x.found with
      | some (p, q) => do
        let m := q.mult + r.mult
        writeSlot a p { q with mult := m } (if m = 0 then 2 else 1)
        if m = 0 then writeCounts a ((a.live : Int) - 1) (a.tombs + 1) a.flags
      | none =>
        match x.free with
        | none => deltaFault 5 a.at_
        | some (p, tomb) => do
          let twin := !x.twins.isEmpty
          writeSlot a p { r with split := twin } 1
          forM' (fun t => writeSlot a t.1 { t.2 with split := true } 1) x.twins
          writeCounts a (a.live + 1) ((a.tombs : Int) - (if tomb then 1 else 0)) (if twin then 1 else a.flags)
          if twin then arrangementOvf a

def runDapply (w : WWord) (e : QEntry) : M Unit := do
  deltaStart e (group4 w.vs1) true
  let c ← dispatchV w e false
  let _ ← beforeElements (readHeader e.cap.x3)
  let lo := (← getH).vstart
  elemLoop (applyElem c) (c.vl - lo) lo
  completeV

/-! ## DSCAN, DQSTAT, DBIND (R358 to R360) -/

/-- Delivers live records from position p on into elements from i on, while there is room (R358): the count and the next
position. fuel bounds the positions. -/
def scanFrom (a : Arrangement) (vd vlmax : Nat) : Nat → Nat → Nat → M (Nat × Nat)
  | 0, p, i => return (i, p)
  | n + 1, p, i => do
    if vlmax ≤ i then return (i, p)
    else
      let r ← readSlot a p
      if slotState r.2 = 1 then
        put64 vd i r.1.key.toNat
        put64 (vd + 1) i r.1.plo.toNat
        put64 (vd + 2) i r.1.phi.toNat
        put64 (vd + 3) i (signed64 r.1.mult)
        scanFrom a vd vlmax n (p + 1) (i + 1)
      else scanFrom a vd vlmax n (p + 1) i

def runDscan (w : WWord) (e : QEntry) : M Unit := do
  deltaStart e (group4 w.vd) true
  wholeVector e
  let c ← dispatchV w e false
  let k := (w.aux9.extractLsb' 0 3).toNat
  deltaRoom k
  atomically do
    let a ← readHeader e.cap.x3
    let start := e.cap.x2.toNat
    let r ← if a.size ≤ start then pure (0, a.size) else scanFrom a w.vd.toNat c.vlmax (a.size - start) start 0
    deltaPut k (wordOf (r.2 + 2 ^ 32 * r.1))
  completeV

def runDqstat (w : WWord) (e : QEntry) : M Unit := do
  let _ ← dispatchV w e false
  atStart
  let k := w.vd.toNat
  deltaRoom k
  let v ← loadElem (← ownParty) (e.cap.x3 + 128#64) 8
  deltaPut k (wordOf v)
  completeV

/-- The physical address of a graph descriptor: aligned and in HBM, or a DELTA-FAULT GRAPH (R346, R360). -/
def graphPlace (g : Word) : M Nat := do
  if g.toNat % 256 ≠ 0 then deltaFault 3 g
  let t ← translateM (← ownParty).ctx g .store
  match region t.pa with
  | .hbm _ => return t.pa
  | _ => deltaFault 3 g

/-- A ring joins a graph. -/
def State.joinGraph (s : State) (m : GraphMember) : State :=
  let t := s.openGraph m.graph m.va m.asid
  { t with dev := { t.dev with members := (t.dev.members.filter fun x => x.pa != m.pa) ++ [m] } }

def bindRing (w : WWord) (e : QEntry) : M Unit := do
  let p ← ownParty
  let x ← openDelta p e.cap.x1
  let old := (← get).graphOf x.1.r.pa
  if e.cap.x3 = 0#64 then
    match old with
    | some m => do
      if (← get).ringCount x.1.r.pa ≠ 0 then deltaFault 3 e.cap.x1
      modify fun s => { s with dev := { s.dev with members := s.dev.members.filter fun y => y.pa != m.pa } }
    | none => pure ()
  else
    let g ← graphPlace e.cap.x3
    if (old.map fun m => m.graph != g).getD false then deltaFault 3 e.cap.x1
    modify fun s => s.joinGraph { pa := x.1.r.pa, graph := g, va := e.cap.x3, asid := fieldOf s.hart.satp 44 16 }
    if w.vs2 ≠ 0#5 then
      saveRing p x.1.r x.2 { x.2 with notify := setField (wordOf (fieldOf e.cap.x2 0 16)) 63 1 1 }

def bindArrangement (e : QEntry) : M Unit := do
  let a ← readHeader e.cap.x1
  if e.cap.x3 ≠ 0#64 then
    let g ← graphPlace e.cap.x3
    if a.graph = 0#64 then modify fun s => s.openGraph g e.cap.x3 (fieldOf s.hart.satp 44 16)
  if a.graph ≠ 0#64 ∧ a.graph ≠ e.cap.x3 then deltaFault 3 e.cap.x3
  storeVa (← ownParty) (e.cap.x1 + 24#64) 8 e.cap.x3.toNat

def leaveGraph (e : QEntry) : M Unit := do
  let g ← graphPlace e.cap.x3
  modify fun s => s.leaveGraphs s.hart.id [g]

def runDbind (w : WWord) (e : QEntry) : M Unit := do
  deltaStart e [] false
  let _ ← dispatchV w e false
  atStart
  release 4
  atomically do
    match (w.aux9.extractLsb' 0 2).toNat with
    | 0 => bindRing w e
    | 1 => bindArrangement e
    | _ => leaveGraph e
  completeV

/-! ## DELTA_DRAIN (R340) -/

/-- The party under which a unit writes a ring's slots: the address space of its last push. -/
def DeltaRing.party (x : DeltaRing) : Party :=
  { ctx := { satp := x.satp, sbase := x.sbase, gang := x.gang, priv := x.priv, sum := x.sum, mxr := false, core := none,
             cluster := none, die := x.die, slice := 0, self := none }, self := none, plain := true }

/-- DELTA_DRAIN: a slot that cannot be reached leaves the batch pending. -/
def execDeltaDrain (ring : Nat) (s : State) : Host.Outcome State Fault Refusal :=
  match s.dev.rings.find? fun x => x.pa == ring with
  | none => .next s
  | some x =>
    runEvent (.deltaDrain ring) (atomically do
      let (r, skew) ← deltaPlace x.party x.handle
      DeltaAt.drain { p := x.party, r := r, unit := unitOf r skew }) s

end Sys2Proof.Machine
end

