-- ==== Sys2Proof/Machine/VectorControl.lean ====
section
/-! DEFINITION. VGRANT and its storage, strip-mined loops, the queue instructions, and the predicate branches
(01 R15, R17, R30, 04 R96 to R105). -/

namespace Sys2Proof.Machine

/-! ## VGRANT (R96 to R98) -/

/-- The class code of launches whose threads may raise their grant (R97). -/
def classL : Nat := 2

def Hart.vclass (h : Hart) : Nat := (h.placed.map Placed.vclass).getD 0

/-- Status and granted level of a request (R97). -/
def grantOf (h : Hart) (g : Nat) : Nat × Nat :=
  let top := fieldOf h.vgrant 6 2
  if 0 < g ∧ h.vclass ≠ classL then (2, 0)
  else if top < g then (1, top)
  else (0, g)

/-- The registers at a new level: the low bits that both levels have are kept, the others are 0 (R17). -/
def Hart.resize (h : Hart) (old new : Nat) : Hart :=
  let k := 2 ^ min old new
  { h with
    v := h.v.map fun r => r &&& BitVec.ofNat 16384 (2 ^ (2048 * k) - 1),
    p := Vector.ofFn fun i => if i.val = 0 then h.p[i] else h.p[i] &&& lowMask (256 * k) }

/-- The bytes of a lane group's share that a level needs (R98): a quarter of 8 KiB × (2^g − 1). -/
def shareBytes (g : Nat) : Nat := 2048 * (2 ^ g - 1)

/-- Place of a set-aside bank among those of its gang that serve its lane group. -/
def setAsidePlace (l : List SetAside) (e : SetAside) : Nat :=
  (l.filter fun f => f.gang == e.gang && f.bank % 4 == e.bank % 4 && decide (f.bank < e.bank)).length

/-- The hart's region reaches into the j-th bank of a lane group: regions lie in hart order, each as long as the
launch's highest level needs (log entry 21). -/
def inBank (index top lev j : Nat) : Bool :=
  let lo := index * shareBytes top
  let hi := lo + shareBytes lev
  decide (lo < hi) && decide (lo < 0x2_0000 * (j + 1)) && decide (0x2_0000 * j < hi)

/-- The hart's regions for a level: it becomes a holder of the set-aside banks they lie in and leaves the others; a bank
with a holder is in VREG mode, one that the last holder has left is in CACHE mode (R98, R243). -/
def negotiate (lev : Nat) : M Unit := do
  let s ← get
  let h := s.hart
  match h.placed.bind fun p => s.gang p.gang with
  | none => pure ()
  | some g => do
    let index := (g.harts.findIdx? fun x => x == h.id).getD 0
    let top := fieldOf h.vgrant 6 2
    set (s.modCluster h.id.clusterId fun c =>
      let l := c.setAside.map fun e =>
        if e.gang = g.number then
          let mine := inBank index top lev (setAsidePlace c.setAside e)
          { e with holders := (e.holders.filter fun x => x != h.id) ++ (if mine then [h.id] else []) }
        else e
      { c with
        setAside := l,
        bankmode := l.foldl (fun m e =>
          if !e.holders.isEmpty then setField m (2 * e.bank) 2 3
          else if fieldOf m (2 * e.bank) 2 = 3 then setField m (2 * e.bank) 2 0
          else m) c.bankmode })

def execVgrant (rd : Reg) (level width : BitVec 2) (s : State) : Host.Outcome State Fault Refusal :=
  runScalar (do
    drain
    let h ← getH
    let g := grantOf h level.toNat
    if h.frame.isSome ∧ g.2 ≠ h.level then illegal (.vgrant rd level width)
    if g.2 ≠ h.level then
      negotiate g.2
      modH fun k => k.resize h.level g.2
    let word := setField (setField h.vgrant 0 2 width.toNat) 2 2 g.2
    modH fun k => { k with vgrant := word, vl := min k.vl (vlmaxOf width.toNat g.2), vstart := 0 }
    writeX rd (setField (wordOf (256 * g.1)) 0 8 (fieldOf word 0 8))
    advance 4) s

/-! ## Strips (R99 to R101) -/

def execVsptr (rd rs1 : Reg) (s : State) : Host.Outcome State Fault Refusal :=
  let old := s.hart.vsptr
  let s1 := { s with hart := { s.hart with vsptr := s.rx rs1, vl := 0 } }
  s1.scalar rd old

/-- The pointer registers from a first one move by vl times their steps (R100). -/
def advancePointers (h : Hart) (first : Reg) : Hart :=
  (List.range 4).foldl (fun k i =>
    let r : Reg := first + BitVec.ofNat 5 i
    let step : Word := (h.vsptr.extractLsb' (16 * i) 16).signExtend 64
    k.wx r (k.rx r + wordOf h.vl * step)) h

def execVstrip (rs1 rs2 : Reg) (off : BitVec 12) (s : State) : Host.Outcome State Fault Refusal :=
  let n := s.rx rs1
  let h := if rs2 = 0#5 then s.hart else advancePointers s.hart rs2
  if n = 0#64 then
    let target := s.hart.pc + branchOffset off
    if target.toNat % 4 = 0 then ({ s with hart := { h with vl := 0 } }).goto 0#5 0#64 target
    else s.goto 0#5 0#64 target
  else
    let vl := min n.toNat h.vlmax
    .next (({ s with hart := { h with vl := vl }.wx rs1 (n - wordOf vl) }).advance 4).goesOn

/-! ## Queues (R102, R103) -/

def execQpush (n rs1 : Reg) (s : State) : Host.Outcome State Fault Refusal :=
  runScalar (do
    let h ← getH
    if hn : n.toNat < 8 then
      if 8 ≤ h.q[n.toNat].length then hold .queueFull
      modH fun h => { h with q := h.q.set n.toNat (h.q[n.toNat] ++ [h.rx rs1]) }
      advance 4
    else illegal (.qpush n rs1)) s

def execQpop (rd n : Reg) (s : State) : Host.Outcome State Fault Refusal :=
  runScalar (do
    let h ← getH
    if hn : n.toNat < 8 then
      match h.q[n.toNat] with
      | [] => hold .queueEmpty
      | v :: l => do
        modH fun h => { h with q := h.q.set n.toNat l }
        writeX rd v
        advance 4
    else illegal (.qpop rd n)) s

def execQstat (rd n : Reg) (s : State) : Host.Outcome State Fault Refusal :=
  s.scalar rd (wordOf (s.hart.q.toList.getD n.toNat []).length)

def execVdrain (s : State) : Host.Outcome State Fault Refusal :=
  runScalar (do
    drain
    advance 4) s

def execLqpop (rd : Reg) (s : State) : Host.Outcome State Fault Refusal :=
  runScalar (do
    match (← getH).lq with
    | [] => hold .lqEmpty
    | n :: l => do
      modH fun h => { h with lq := l }
      writeX rd (n.zeroExtend 64)
      advance 4) s

/-! ## Branches on predicates (R104) -/

/-- The elements below vl that the mask stack leaves active. -/
def Hart.activeElems (h : Hart) : List Nat := (List.range h.vl).filter fun i => h.currentMask.getLsbD i

/-- The counts of set and clear active elements of a predicate. -/
def Hart.predCounts (h : Hart) (p : BitVec 4) : Nat × Nat :=
  let l := h.activeElems
  let set := (l.filter fun i => (h.rp p.toNat).getLsbD i).length
  (set, l.length - set)

/-- A predicate branch: Held until VQ is empty. -/
def predBranch (p : BitVec 4) (off : BitVec 12) (test : Nat × Nat → Bool) (s : State) :
    Host.Outcome State Fault Refusal :=
  if s.hart.vq.isEmpty then s.branch (test (s.hart.predCounts p)) off
  else .next (s.hold s .drain)

def execBpany (p : BitVec 4) (off : BitVec 12) (s : State) : Host.Outcome State Fault Refusal :=
  predBranch p off (fun c => decide (0 < c.1)) s
def execBpall (p : BitVec 4) (off : BitVec 12) (s : State) : Host.Outcome State Fault Refusal :=
  predBranch p off (fun c => c.2 == 0) s
def execBpnone (p : BitVec 4) (off : BitVec 12) (s : State) : Host.Outcome State Fault Refusal :=
  predBranch p off (fun c => c.1 == 0) s

end Sys2Proof.Machine
end

