-- ==== Sys2Proof/Machine/Placement.lean ====
section
/-! DEFINITION. Launch units and placement (07 R153 to R160, R170 to R174, 10 R233): packets, fitting a gang, starting and
completing it, completion records, ticks and age steps. -/

namespace Sys2Proof.Machine

/-! ## The launch packet (R155 to R157) -/

/-- A field of a packet. -/
def pkt (b : List Byte) (off n : Nat) : Nat := bytesToNat ((b.drop off).take n)

def Launch.corez (l : Launch) : Bool := (l.field 2 2).testBit 0
def Launch.gangdone (l : Launch) : Bool := (l.field 2 2).testBit 1
def Launch.high (l : Launch) : Bool := (l.field 4 1).testBit 3
def Launch.gsize (l : Launch) : Nat := l.field 8 2
def Launch.hctx (l : Launch) : Nat := l.field 10 1
def Launch.maxgrant (l : Launch) : Nat := l.field 11 1
def Launch.gcount (l : Launch) : Nat := l.field 12 4
def Launch.asid (l : Launch) : Nat := l.field 24 2
def Launch.dieMask (l : Launch) : Nat := l.field 26 1
def Launch.tiles (l : Launch) : Nat := l.field 27 1
def Launch.units (l : Launch) : Nat := l.field 36 2
def Launch.fifo (l : Launch) : Nat := l.field 38 1
def Launch.vclass (l : Launch) : Nat := l.field 6 1
def Launch.tag (l : Launch) : Word := wordOf (l.field 112 8)

/-- The dies of a mask, ascending. -/
def maskDies (m : Nat) : List Nat := (List.range 4).filter m.testBit

/-- The checks of R157 that the packet and the enabled dies alone decide. -/
def packetOk (dies : BitVec 4) (b : List Byte) : Bool :=
  let f := pkt b
  f 0 1 == 1 && f 1 1 == 1 && decide (f 2 2 < 4) && decide (f 4 1 < 16) && decide (f 5 1 < 16) && decide (f 6 1 ≤ 2) &&
  decide (1 ≤ f 7 1) && decide (f 7 1 ≤ 8) && decide (1 ≤ f 8 2) && decide (f 8 2 ≤ 64) && decide (f 10 1 ≤ 16) &&
  decide (f 11 1 < 4) && (f 11 1 == 0 || f 6 1 == 2) && decide (f 26 1 < 16) && f 26 1 != 0 &&
  (maskDies (f 26 1)).all (fun d => dies.getLsbD d) && decide (f 27 1 ≤ 8) && decide (f 36 2 ≤ 128) &&
  decide (f 38 1 ≤ 28) && f 39 1 == 0 && f 120 8 == 0 && f 16 8 % 4 == 0 &&
  decide (1024 * (f 8 2 + f 10 1) ≤ 32768 * f 36 2) && decide (4096 * f 10 1 ≤ 131072 * f 38 1)

/-- The entry addresses and thread counts of the stages (R156): none for a malformed table. -/
def stageEntries (p : Party) (b : List Byte) : M (Option (List (Word × Nat))) := do
  let entry := wordOf (pkt b 16 8)
  if pkt b 7 1 = 1 then return some [(entry, pkt b 8 2)]
  else if entry.toNat % 16 ≠ 0 then return none
  else
    let n := pkt b 7 1
    match ← attempt (loadBytes p entry (16 * n)) with
    | .error _ => return none
    | .ok t =>
      let l := (List.range n).map fun k => (wordOf (pkt t (16 * k) 8), pkt t (16 * k + 8) 1)
      let ok := (List.range n).all fun k => pkt t (16 * k + 9) 7 == 0 && pkt t (16 * k) 8 % 4 == 0 &&
        decide (1 ≤ pkt t (16 * k + 8) 1) && decide (pkt t (16 * k + 8) 1 ≤ 64)
      return if ok && (l.map Prod.snd).sum == pkt b 8 2 then some l else none

/-! ## Fitting a gang (R98, R173, R245) -/

/-- What placement sees of a cluster: the seats taken as (core, hart, lane groups, tiles), the scratch units in use, the
banks' modes, those that the Lantern or a gang holds, those set aside, those of them that the gang being fitted sets aside,
and mincache. -/
structure View where
  cluster : ClusterId
  seats   : List (Nat × Nat × List Nat × Nat)
  units   : List (Nat × Nat)
  modes   : Word
  held    : List Nat
  aside   : List Nat
  fresh   : List Nat
  minc    : Nat
  deriving DecidableEq, Repr

/-- A gang's place: harts as (core, hart, lane groups), scratch units, FIFO banks and banks set aside. -/
structure Fit where
  harts : List (Nat × Nat × List Nat)
  units : List (Nat × Nat)
  banks : List Nat
  aside : List Nat
  deriving DecidableEq, Repr

/-- The seats of cores that placement leaves out until the next warm reset (R435, R439). -/
def State.frozenSeats (s : State) (c : ClusterId) : List (Nat × Nat × List Nat × Nat) :=
  (List.range 64).filterMap fun n =>
    if (s.cluster c).stopped || (s.core { die := c.die, cluster := c.cluster, core := n / 8 }).frozen then
      some (n / 8, n % 8, [], 0) else none

/-- A cluster as it stands. -/
def State.view (s : State) (c : ClusterId) : View :=
  let k := s.cluster c
  let gs := s.dev.gangs.filter fun g => g.die == c.die && g.cluster == c.cluster
  { cluster := c,
    seats := s.frozenSeats c ++ s.harts.filterMap fun h => if h.id.clusterId = c then
      h.placed.map fun p => (h.id.core, h.id.hart, p.groups, p.tiles) else none,
    units := gs.flatMap Gang.units, modes := k.bankmode,
    held := k.lanternBanks ++ gs.flatMap Gang.banks, aside := k.setAside.map SetAside.bank, fresh := [], minc := k.mincache }

/-- The cluster with nothing placed on it. -/
def State.emptyView (s : State) (c : ClusterId) : View :=
  let k := s.cluster c
  { cluster := c, seats := s.frozenSeats c, units := [],
    modes := (List.range 32).foldl (fun m b => if k.lanternBanks.contains b then m else setField m (2 * b) 2 0) k.bankmode,
    held := k.lanternBanks, aside := [], fresh := [], minc := k.mincache }

def View.mode (v : View) (b : Nat) : Nat := fieldOf v.modes (2 * b) 2

/-- Free seats of a core's lane group (R173). -/
def View.freeSeats (v : View) (core group : Nat) : Nat :=
  2 - (v.seats.filter fun x => x.1 == core && x.2.2.1.contains group).length

/-- The lane groups for a class: those with the most free seats, the lowest first (log entry 29). -/
def View.groupsFor (v : View) (core : Nat) : Nat → List Nat → Option (List Nat)
  | 0, acc => some acc
  | n + 1, acc =>
    let best := (List.range 4).foldl (fun b g =>
      if acc.contains g ∨ v.freeSeats core g = 0 then b
      else match b with
        | none => some g
        | some x => if v.freeSeats core x < v.freeSeats core g then some g else b) none
    match best with
    | some g => v.groupsFor core n (acc ++ [g])
    | none => none

/-- Seats a hart takes, if it is free with its seats and tiles. -/
def View.seat (v : View) (core hart lanes tiles : Nat) : Option (List Nat) :=
  if v.seats.any fun x => x.1 == core && x.2.1 == hart then none
  else if 8 < tiles + ((v.seats.filter fun x => x.1 == core).map fun x => x.2.2.2).sum then none
  else v.groupsFor core lanes []

/-- Takes n harts in ascending order. -/
def View.takeHarts (v : View) (n lanes tiles : Nat) : Option (View × List (Nat × Nat × List Nat)) :=
  let r := (List.range 64).foldl (fun (acc : View × List (Nat × Nat × List Nat)) k =>
    if acc.2.length = n then acc
    else match acc.1.seat (k / 8) (k % 8) lanes tiles with
      | some gs => ({ acc.1 with seats := acc.1.seats ++ [(k / 8, k % 8, gs, tiles)] }, acc.2 ++ [(k / 8, k % 8, gs)])
      | none => acc) (v, [])
  if r.2.length = n then some r else none

/-- A bank can leave CACHE mode or be set aside: its column keeps its minimum of banks in CACHE mode (R173, R243). A bank
that stands set aside is in CACHE mode until VGRANT switches it, and counts as one; those that the gang being fitted sets
aside come, as its other banks do, from the excess (log entry 29). -/
def View.takeable (v : View) (b : Nat) : Bool :=
  v.mode b == 0 && !v.aside.contains b &&
  decide (v.minc / 4 < ((List.range 8).filter fun k => v.mode (4 * k + b % 4) == 0 && !v.fresh.contains (4 * k + b % 4)).length)

/-- A quad whose four banks can be switched. -/
def View.openQuad (v : View) (q : Nat) : Bool := (List.range 4).all fun k => v.takeable (4 * q + k)

/-- The bank that a single bank's use takes: the highest that is of use to no quad, else the highest (log entry 29). -/
def View.spareBank (v : View) (ok : Nat → Bool) : Option Nat :=
  let l := (List.range 32).reverse.filter fun b => ok b && v.takeable b
  match l.find? fun b => !v.openQuad (b / 4) with
  | some b => some b
  | none => l.head?

/-- Takes n FIFO banks of any column. -/
def View.takeBanks (v : View) : Nat → List Nat → Option (View × List Nat)
  | 0, acc => some (v, acc)
  | n + 1, acc =>
    match v.spareBank fun _ => true with
    | some b => { v with modes := setField v.modes (2 * b) 2 2, held := v.held ++ [b] }.takeBanks n (acc ++ [b])
    | none => none

/-- Takes n banks to set aside, of each lane group's column in turn. -/
def View.takeAside (v : View) : Nat → List Nat → Option (View × List Nat)
  | 0, acc => some (v, acc)
  | n + 1, acc =>
    match v.spareBank fun b => b % 4 == n % 4 with
    | some b => { v with aside := v.aside ++ [b], fresh := v.fresh ++ [b] }.takeAside n (acc ++ [b])
    | none => none

/-- A free unit: in a quad that is already in SCRATCH mode for placement, else in a quad switched now, the lowest first
(log entry 29). -/
def View.takeUnit (v : View) : Option (View × (Nat × Nat)) :=
  let scratch (q : Nat) : Bool := (List.range 4).all fun k => v.mode (4 * q + k) == 1 && !v.held.contains (4 * q + k)
  let free := (List.range 128).find? fun k => scratch (k / 16) && !v.units.contains (k / 16, k % 16)
  match free with
  | some k => some ({ v with units := v.units ++ [(k / 16, k % 16)] }, (k / 16, k % 16))
  | none =>
    match (List.range 8).find? v.openQuad with
    | some q => some ({ v with units := v.units ++ [(q, 0)],
                               modes := (List.range 4).foldl (fun m k => setField m (2 * (4 * q + k)) 2 1) v.modes }, (q, 0))
    | none => none

def View.takeUnits (v : View) : Nat → List (Nat × Nat) → Option (View × List (Nat × Nat))
  | 0, acc => some (v, acc)
  | n + 1, acc =>
    match v.takeUnit with
    | some (v1, u) => v1.takeUnits n (acc ++ [u])
    | none => none

/-- Banks of each lane group that the grant level of a gang's threads needs (R98). -/
def Launch.asideBanks (l : Launch) : Nat := (l.gsize * shareBytes l.maxgrant + 0x1_FFFF) / 0x2_0000

/-- Fits one gang into a cluster (R173). The most constrained banks go first: a quad takes one of every column, a bank set
aside one of its own column, and a FIFO bank one of any; so a fit is found wherever all is free at once. -/
def View.fit (v : View) (l : Launch) : Option (View × Fit) := do
  let h ← v.takeHarts (l.gsize + l.hctx) (2 ^ l.vclass) l.tiles
  let u ← h.1.takeUnits l.units []
  let a ← u.1.takeAside (4 * l.asideBanks) []
  let b ← a.1.takeBanks l.fifo []
  return ({ b.1 with fresh := [] }, { harts := h.2, units := u.2, banks := b.2, aside := a.2 })

/-- The clusters that a die's placement unit may use for a queue. -/
def Die.clusters (d : Die) (high : Bool) : List Nat :=
  (List.range 48).filter fun k => (if high then d.maskHigh else d.maskNorm).testBit k

/-- Fits a gang into the first view that takes it. -/
def fitFirst (l : Launch) : List View → Option (List View × View × Fit)
  | [] => none
  | v :: vs =>
    match v.fit l with
    | some (v1, f) => some (v1 :: vs, v1, f)
    | none => (fitFirst l vs).map fun x => (v :: x.1, x.2.1, x.2.2)

/-- Fits n gangs at once, each into the lowest cluster that takes it. -/
def fitAll (l : Launch) : Nat → List View → Option (List (View × Fit))
  | 0, _ => some []
  | n + 1, vs =>
    match fitFirst l vs with
    | some (vs1, v, f) => (fitAll l n vs1).map fun r => (v, f) :: r
    | none => none

/-! ## Starting a gang (R154, R158) -/

/-- The number of gangs of a share. -/
def shareGangs (l : Launch) (d : Nat) : Nat :=
  let ds := maskDies l.dieMask
  let pos := (ds.findIdx? fun x => x == d).getD 0
  (l.gcount + ds.length - 1 - pos) / ds.length

/-- The index of the n-th gang of a share (R154). -/
def gangIndex (l : Launch) (d n : Nat) : Nat :=
  let ds := maskDies l.dieMask
  if l.gcount = 0 then 4 * n + d else (ds.findIdx? fun x => x == d).getD 0 + ds.length * n

/-- The stage of a thread: its number and entry address. -/
def stageOf : List (Word × Nat) → Nat → Nat → Nat × Word
  | [], _, k => (k, 0#64)
  | (e, n) :: l, t, k => if t < n then (k, e) else stageOf l (t - n) (k + 1)

/-- The coordinate word (R23). -/
def coordWord (id : HartId) (gang stage number : Nat) (ctx : Bool) : Word :=
  wordOf (gang * 2 ^ 32 + stage * 2 ^ 27 + number * 2 ^ 21 + (if ctx then 2 ^ 20 else 0) + id.hart * 2 ^ 14 +
    id.core * 2 ^ 11 + id.cluster * 2 ^ 5 + id.die)

/-- A hart of a gang as placement leaves it: the n-th of its gang, contexts after threads. -/
def startHart (l : Launch) (gang index : Nat) (id : HartId) (groups : List Nat) (n : Nat) : Hart :=
  let ctx := decide (l.gsize ≤ n)
  let number := if ctx then n - l.gsize else n
  let st := if ctx then (0, 0#64) else stageOf l.entries number 0
  let coord := coordWord id index st.1 number ctx
  let sp := l.sbase + wordOf (32768 * l.units) - wordOf (1024 * n)
  let h := Hart.reset id
  let args := (List.range 6).foldl (fun (k : Hart) j => k.wx (BitVec.ofNat 5 (10 + j)) (wordOf (l.field (64 + 8 * j) 8))) h
  let x := ((args.wx 16#5 l.panel).wx 17#5 coord).wx 2#5 sp
  { x with
    run := if ctx then .dormant else .starting, pc := st.2, satp := l.satp, sbase := l.sbase, trroute := l.trroute,
    vgrant := setField 0#64 6 2 l.maxgrant, coord := coord, stage := wordOf st.1, launchTag := l.tag,
    hbase := if ctx then l.sbase + 0x40_0000#64 + wordOf (0x2_0000 * l.fifo - 4096 * (number + 1)) else 0#64,
    placed := some { launch := l.number, gang := gang, ctx := ctx, number := number, stage := st.1, vclass := l.vclass,
                     prio := l.field 4 1 % 8, bclass := l.field 5 1 % 16, tiles := l.tiles, groups := groups } }

/-- Puts a hart's record in place. -/
def State.setHart (s : State) (h : Hart) : State :=
  if s.hart.id = h.id then { s with hart := h } else { s with others := (s.others.filter fun o => o.id != h.id) ++ [h] }

/-- Drops the bytes, the poison and the owner fields of a physical range: it reads as zeros (R243). -/
def State.wipe (s : State) (c : ClusterId) (lo hi : Nat) : State :=
  { s with mem := s.mem.clear lo hi, poison := s.poison.filter fun k => decide (32 * k + 32 ≤ lo) || decide (hi ≤ 32 * k) }.modCluster
    c fun k => { k with owners := k.owners.filter fun o => decide (o < lo) || decide (hi ≤ o) }

/-- Wipes a scratch unit. -/
def State.wipeUnit (s : State) (c : ClusterId) (u : Nat × Nat) : State :=
  (List.range 4).foldl (fun t k =>
    let lo := apertureBase c.index + (4 * u.1 + k) * 0x2_0000 + 0x2000 * u.2
    t.wipe c lo (lo + 0x2000)) s

def State.wipeBank (s : State) (c : ClusterId) (b : Nat) : State :=
  s.wipe c (apertureBase c.index + 0x2_0000 * b) (apertureBase c.index + 0x2_0000 * (b + 1))

/-- Places one gang of a launch where it fits. -/
def State.placeGang (s : State) (l : Launch) (n : Nat) (v : View) (f : Fit) : State :=
  let c := v.cluster
  let number := s.dev.nextId
  let index := gangIndex l c.die n
  let ids := f.harts.map fun x => ({ die := c.die, cluster := c.cluster, core := x.1, hart := x.2.1 } : HartId)
  let g : Gang := { number := number, launch := l.number, index := index, die := c.die, cluster := c.cluster,
                    units := f.units, banks := (List.range 32).filter f.banks.contains, hctx := l.hctx, harts := ids }
  let s1 := s.modCluster c fun k => { k with
    bankmode := v.modes,
    setAside := k.setAside ++ f.aside.map fun b => { bank := b, gang := number, holders := [] } }
  let s2 := f.units.foldl (fun t u => t.wipeUnit c u) (f.banks.foldl (fun t b => t.wipeBank c b) s1)
  let s3 := { s2 with dev := { s2.dev with nextId := number + 1, gangs := s2.dev.gangs ++ [g] } }
  (List.range f.harts.length).foldl (fun t k =>
    match f.harts[k]?, ids[k]? with
    | some x, some id => t.setHart (startHart l number index id x.2.2 k)
    | _, _ => t) s3

/-! ## The placement queues (R174) -/

def Die.queue (d : Die) : List Share := d.high ++ d.normal

def State.modShare (s : State) (die launch : Nat) (f : Share → Share) : State :=
  let g := fun e : Share => if e.launch = launch then f e else e
  s.modDie die fun d => { d with high := d.high.map g, normal := d.normal.map g }

def State.dropShare (s : State) (die launch : Nat) : State :=
  let g := fun e : Share => e.launch != launch
  s.modDie die fun d => { d with high := d.high.filter g, normal := d.normal.filter g }

def State.shareOf (s : State) (die launch : Nat) : Option Share := (s.die die).queue.find? fun e => e.launch == launch

/-- Some share of a launch still has gangs to place. -/
def State.launchQueued (s : State) (launch : Nat) : Bool :=
  (List.range 4).any fun d => (s.shareOf d launch).isSome

/-- Threads that wait for their launch begin, unless it is co-resident and not yet whole (R158). -/
def State.beginLaunch (s : State) (l : Launch) : State :=
  if l.corez && s.launchQueued l.number then s
  else s.mapHarts fun h =>
    if h.run == .starting && (h.placed.map fun p => p.launch == l.number).getD false then { h with run := .running } else h

/-- A launch's dispenser slot, taken as the first of its gangs is about to be placed (R160); none while its unit's slots
are all taken. -/
def State.withSlot (s : State) (l : Launch) : Option (State × Launch) :=
  match l.slot with
  | some _ => some (s, l)
  | none =>
    let d := lowestDie l.dieMask
    match (List.range 256).find? fun k => !(s.die d).slots.contains k with
    | some k =>
      let l1 := { l with slot := some k }
      some ((s.modDie d fun x => { x with slots := x.slots ++ [k] }).setLaunch l1, l1)
    | none => none

/-- PlaceNext (R174): none when nothing fits. A share with no gangs left leaves its queue. -/
def State.placeNext (s : State) (die launch : Nat) : Option State :=
  match s.shareOf die launch, s.launch launch with
  | some e, some l =>
    match s.withSlot l with
    | none => none
    | some (s1, l1) =>
      let views := ((s.die die).clusters e.high).map fun k => s.view { die := die, cluster := k }
      let want := if l.corez && l.gcount != 0 then e.left else 1
      match fitAll l1 want views with
      | none => none
      | some fits =>
        let s2 := (fits.foldl (fun (acc : State × Nat) x => (acc.1.placeGang l1 acc.2 x.1 x.2, acc.2 + 1)) (s1, e.gangs)).1
        let s3 := s2.modShare die launch fun x => { x with gangs := x.gangs + want, left := x.left - want }
        let s4 := if l.gcount ≠ 0 ∧ e.left ≤ want then s3.dropShare die launch else s3
        some (s4.beginLaunch l1)
  | _, _ => none

/-! ## Completion records (R159) -/

/-- A report of the launch unit to its die's Lantern: the reason, and after it the launch tag (log entry 30). -/
def State.reportLaunch (s : State) (die reason : Nat) (tag : Word) : State :=
  let c : ClusterId := { die := die, cluster := 0 }
  (s.interruptLantern c (wordOf (128 + reason))).interruptLantern c tag

/-- The bytes of a completion record; its tick is filled in when it is written. -/
def doneBytes (tag : Word) (status gangs lost : Nat) : List Byte :=
  lowBytes 8 tag.toNat ++ lowBytes 2 status ++ lowBytes 2 0 ++ lowBytes 4 gangs ++ lowBytes 8 0 ++ lowBytes 4 lost ++
  lowBytes 4 0

/-- A completion record goes to its die's launch unit, which writes it when it can. -/
def State.queueDone (s : State) (die : Nat) (tag : Word) (asid : Nat) (ring : Word) (bytes : List Byte) : State :=
  if ring = 0#64 then s
  else (s.modDie die fun d => { d with done := d.done ++ [{ tag := tag, asid := asid, ring := ring, bytes := bytes, line := 0 }] }).post
    [.doneRecordDrain die]

/-- The address space that the Lanterns' table gives an asid, with the satp that its launches take (R255): an entry whose
MODE is neither Sv48 nor Sv57 counts as none. -/
def State.spaceOf (s : State) (asid : Nat) : Option AddressSpace :=
  match s.dev.spaces.find? fun x => x.asid == asid with
  | some x =>
    let mode := fieldOf x.satp 60 4
    if mode = 9 ∨ mode = 10 then some { x with satp := setField x.satp 44 16 asid } else none
  | none => none

/-- The party of an address space. -/
def State.spaceParty (s : State) (asid die : Nat) : Option Party :=
  (s.spaceOf asid).map fun x =>
    { ctx := { satp := x.satp, sbase := x.sbase, gang := none, priv := .user, sum := false, mxr := false, core := none,
               cluster := none, die := die, slice := 0, self := none },
      self := none, plain := true }

/-- What comes of writing a record: written, no space (with the descriptor's line), or a reason for the Lantern. -/
inductive DoneEnd where
  | written
  | full (line : Nat)
  | failed (reason : Nat)
  deriving DecidableEq, Repr

/-- Writes one record as a ring commit. -/
def writeDone (die : Nat) (r : DoneRecord) : M DoneEnd := do
  match (← get).spaceParty r.asid die with
  | none => return .failed 1
  | some p => fun s =>
    match (do
        let (ref, d) ← openRing p r.ring
        if !ringAllows d.kind 0 then return .failed 2
        else if d.pclosed || d.cclosed then return .failed 4
        else if d.size < 32 then return .failed 5
        else
          let t := d.reserve
          if t.1.st ≠ stOk then return .full (lineOf ref.pa)
          else
            storeBytes p (slotAddr p.ctx d t.1.counter) (patchBytes r.bytes 16 (lowBytes 8 (← get).tickWord.toNat))
            saveRing p ref d t.2
            let _ ← commitSlot p ref t.2 t.1.counter false
            return .written : M DoneEnd) s with
    | .ok a t => .ok a t
    | .error (.held w) t => .error (.held w) t
    | .error (.trap x) t => .ok (.failed (if x.cause = 26 then 2 else 3)) (s.keepWalks t)
    | .error _ t => .ok (.failed 3) (s.keepWalks t)

/-- Writes the records that can be written, in order for each ring, which is a handle of an address space; the others
wait. -/
def drainDone (die : Nat) : List DoneRecord → List (Nat × Word) → M (List DoneRecord)
  | [], _ => return []
  | r :: l, blocked => do
    if blocked.contains (r.asid, r.ring) then return r :: (← drainDone die l blocked)
    else
      match ← writeDone die r with
      | .written => drainDone die l blocked
      | .full line => return { r with line := line } :: (← drainDone die l ((r.asid, r.ring) :: blocked))
      | .failed reason => do
        modify fun s => s.reportLaunch die reason r.tag
        drainDone die l blocked

/-- DONE_RECORD_DRAIN (R159): once fewer than 64 records are held, the launch rings are served again. -/
def execDoneRecordDrain (die : Nat) (s : State) : Host.Outcome State Fault Refusal :=
  runEvent (.doneRecordDrain die) (do
    let old := (← get).die die
    let l ← drainDone die old.done []
    modify fun s => s.modDie die fun d => { d with done := l }
    if 64 ≤ old.done.length ∧ l.length < 64 then
      modify fun s => s.post (old.rings.map fun r => .launchRingService die r.ring)) s

/-- The end of a launch whose gangs are all placed and done (R159): its record, and its dispenser slot. -/
def State.checkLaunch (s : State) (launch : Nat) : State :=
  match s.launch launch with
  | none => s
  | some l =>
    if s.launchQueued launch || s.dev.gangs.any fun g => g.launch == launch then s
    else
      let d := lowestDie l.dieMask
      let s1 := { s with dev := { s.dev with launches := s.dev.launches.filter fun m => m.number != launch } }
      let s2 := s1.modDie d fun x => { x with slots := x.slots.filter fun k => some k != l.slot }
      (s2.queueDone d l.tag l.asid (wordOf (l.field 56 8)) (doneBytes l.tag (if l.contained then 3 else 0) l.complete l.lost)).post
        ((maskDies 15).map fun k => .place k)

/-! ## Place (R174) -/

/-- The end of a fill share that fits nothing more. -/
def State.endFill (s : State) (die : Nat) (e : Share) : Option State :=
  match s.launch e.launch with
  | some l => if l.gcount = 0 ∧ 0 < e.gangs then some (((s.dropShare die e.launch).beginLaunch l).checkLaunch e.launch) else none
  | none => some (s.dropShare die e.launch)

/-- The head's part of Place: gangs of the head while they fit; a fill head that fits nothing more leaves. -/
def placeHead (die : Nat) : Nat → State → State
  | 0, s => s
  | n + 1, s =>
    match (s.die die).queue with
    | [] => s
    | h :: _ =>
      match s.placeNext die h.launch with
      | some t => placeHead die n (t.modShare die h.launch fun e => { e with pass := 0 })
      | none =>
        match s.endFill die h with
        | some t => placeHead die n t
        | none => s

/-- Backfill from one entry; the head's pass count rises with each placement. -/
def backfillEntry (die head e : Nat) : Nat → State → State
  | 0, s => s
  | n + 1, s =>
    match s.shareOf die head with
    | some h =>
      if (s.die die).ageLimit ≤ h.pass then s
      else
        match s.placeNext die e with
        | some t => backfillEntry die head e n (t.modShare die head fun x => { x with pass := x.pass + 1 })
        | none =>
          match s.shareOf die e with
          | some x => (s.endFill die x).getD s
          | none => s
    | none => s

/-- Place (R174). A die has fewer than 4,096 places for gangs. -/
def State.place (s : State) (die : Nat) : State :=
  let s1 := placeHead die 4096 s
  match (s1.die die).queue with
  | [] => s1
  | h :: l =>
    if h.pass < (s1.die die).ageLimit then (l.take 8).foldl (fun t e => backfillEntry die h.launch e.launch 4096 t) s1 else s1

/-- PLACE. -/
def execPlace (die : Nat) (s : State) : Host.Outcome State Fault Refusal := .next (s.place die)

/-! ## Taking a packet (R157, R233) -/

/-- The launch that an accepted packet describes. -/
def launchOf (number : Nat) (b : List Byte) (entries : List (Word × Nat)) (x : AddressSpace) : Launch :=
  { number := number, packet := b, entries := entries, satp := x.satp, sbase := x.sbase,
    trroute := x.trroute.getD trrouteDefault, slot := none, band := 0, col := 0, complete := 0, lost := 0,
    contained := false }

/-- The launch fits empty clusters of every die that has a share of it (R157): one gang, or with corez every gang of the
share at once. -/
def State.placeable (s : State) (l : Launch) : Bool :=
  ((maskDies l.dieMask).filter fun d => l.gcount == 0 || shareGangs l d != 0).all fun d =>
    let views := ((s.die d).clusters l.high).map fun k => s.emptyView { die := d, cluster := k }
    (fitAll l (if l.corez && l.gcount != 0 then shareGangs l d else 1) views).isSome

/-- Queues an accepted launch on its dies. -/
def State.queueLaunch (s : State) (l : Launch) : State :=
  let s1 := { s with dev := { s.dev with nextId := l.number + 1, launches := s.dev.launches ++ [l] } }
  (maskDies l.dieMask).foldl (fun t d =>
    let n := shareGangs l d
    if l.gcount ≠ 0 ∧ n = 0 then t
    else
      let e : Share := { launch := l.number, gangs := 0, left := n, pass := 0, high := l.high }
      (t.modDie d fun x => if l.high then { x with high := x.high ++ [e] } else { x with normal := x.normal ++ [e] }).post
        [.place d]) s1

/-- Checks a packet and queues its launch, or reports why not (R157). -/
def takePacket (die : Nat) (b : List Byte) : M Unit := do
  let s ← get
  let tag := wordOf (pkt b 112 8)
  let asid := pkt b 24 2
  let reject (status : Nat) : M Unit := modify fun s => s.queueDone die tag asid (wordOf (pkt b 56 8)) (doneBytes tag status 0 0)
  match s.spaceOf asid, s.spaceParty asid die with
  | some x, some p =>
    if packetOk s.dev.dies b then
      match ← stageEntries p b with
      | some entries =>
        let l := launchOf (← get).dev.nextId b entries x
        if (← get).placeable l then modify fun s => s.queueLaunch l else reject 2
      | none => reject 1
    else reject 1
  | _, _ => reject 1

/-- LAUNCH_RING_SERVICE (R233): the next committed packet of a launch ring that firmware lists; a ring that cannot be read
is reported to the Lantern. -/
def execLaunchRingService (die ring : Nat) (s : State) : Host.Outcome State Fault Refusal :=
  match (s.die die).rings.find? fun r => r.ring == ring with
  | none => .next s
  | some r =>
    if 64 ≤ (s.die die).done.length then .next s
    else
      runEvent (.launchRingService die ring) (fun s =>
        match (do
            match s.spaceParty r.asid die with
            | none => ringFault 1
            | some p => do
              let (ref, d) ← openRing p r.handle
              if d.kind ≠ 3 then ringFault 2
              let t := d.acquire
              if t.1.st = stOk then
                saveRing p ref d t.2
                let b ← loadBytes p (slotAddr p.ctx d t.1.counter) 128
                takePacket die b
                releaseSlot p ref (RingDesc.ofNat (← ringBytes p ref)) t.1.counter
                modify fun s => s.post [.launchRingService die ring] : M Unit) s with
        | .ok a t => .ok a t
        | .error (.held w) t => .error (.held w) t
        | .error (.trap x) t => .ok () ((s.keepWalks t).reportLaunch die (if x.cause = 26 then 6 else 7) 0#64)
        | .error _ t => .ok () ((s.keepWalks t).reportLaunch die 7 0#64)) s

/-- LAUNCH_BEACON_WRITE (R406): wakes the launch unit; the value is Ignored. -/
def execLaunchBeaconWrite (die ring : Nat) (_v : Word) (s : State) : Host.Outcome State Fault Refusal :=
  .next (s.post [.launchRingService die ring])

/-! ## The end of a gang (R159, R218, R243, R351) -/

/-- The ring-table entries of a gang, by physical address. -/
def Gang.entries (g : Gang) : List Nat :=
  g.banks.flatMap fun b => [ringTableEntry (g.die * 48 + g.cluster) (2 * b), ringTableEntry (g.die * 48 + g.cluster) (2 * b + 1)]

/-- The delta rings of a gang's FIFO storage leave their graphs, which show a fault if records go with them (R351). -/
def State.dropRings (s : State) (g : Gang) : State :=
  g.entries.foldl (fun t pa =>
    let d := { t.dev with rings := t.dev.rings.filter fun r => r.pa != pa, members := t.dev.members.filter fun m => m.pa != pa }
    match t.graphOf pa with
    | some m =>
      let n := t.ringCount pa
      ({ (if n = 0 then t else t.graphFlag m.graph 2) with dev := d }).noteGraph m.graph
    | none => { t with dev := d }) s

/-- Pending arrivals of a gang's channels. -/
def State.pendingOf (s : State) (g : Gang) : Nat :=
  ((s.cores.filter fun c => c.1.clusterId == { die := g.die, cluster := g.cluster }).flatMap fun c =>
    c.2.channels.map fun x => if x.2.gang = g.number then c.2.pending x.1 else 0).sum

/-- A core without what belongs to a gang: its channels, arrivals and wakes. -/
def Core.forget (k : Core) (g : Gang) (id : CoreId) : Core :=
  let mine (ctx : Nat) : Bool := g.harts.contains (id.hart ctx)
  { k with
    channels := k.channels.filter fun x => x.2.gang != g.number,
    arrivals := k.arrivals.filter fun a => !mine a.1,
    wakes := k.wakes.filter fun w => !mine w.ctx }

/-- Takes harts out of the machine: their places hold no work. -/
def State.removeHarts (s : State) (ids : List HartId) : State :=
  { s with
    hart := if ids.contains s.hart.id then Hart.reset s.hart.id else s.hart,
    others := s.others.filter fun h => !ids.contains h.id }

/-- A quad's four banks. -/
def quadBanks (q : Nat) : List Nat := (List.range 4).map fun k => 4 * q + k

/-- Frees what a gang holds: harts with their seats and tiles, scratch, FIFO banks and VREG storage, ring-table entries. -/
def State.freeGang (s : State) (g : Gang) : State :=
  let c : ClusterId := { die := g.die, cluster := g.cluster }
  let s1 := (s.dropRings g).removeHarts g.harts
  let s2 := { s1 with
    cores := s1.cores.map fun (x : CoreId × Core) => if x.1.clusterId = c then (x.1, x.2.forget g x.1) else x,
    mem := g.entries.foldl (fun m pa => m.clear pa (pa + 64)) s1.mem,
    dev := { s1.dev with gangs := s1.dev.gangs.filter fun x => x.number != g.number } }
  let others := (s2.dev.gangs.filter fun x => x.die == g.die && x.cluster == g.cluster).flatMap Gang.units
  let quads := ((g.units.map Prod.fst).eraseDups).filter fun q => !(others.any fun u => u.1 == q)
  let gone := g.banks ++ quads.flatMap quadBanks
  let s3 := g.units.foldl (fun t u => t.wipeUnit c u) (gone.foldl (fun t b => t.wipeBank c b) s2)
  let aside := ((s3.cluster c).setAside.filter fun e => e.gang == g.number).map SetAside.bank
  s3.modCluster c fun k => { k with
    setAside := k.setAside.filter fun e => e.gang != g.number,
    bankmode := (gone ++ aside).foldl (fun m b => setField m (2 * b) 2 0) k.bankmode }

/-- GANG_COMPLETION (R159): Held while a copy command of the gang is in flight (R290). -/
def execGangCompletion (gang : Nat) (s : State) : Host.Outcome State Fault Refusal :=
  match s.gang gang with
  | none => .next s
  | some g =>
    if !s.gangDone g then .next s
    else if s.cores.any fun c => c.2.copies.any fun x => x.gang == some gang then
      .next { (s.post [.gangCompletion gang]) with selected := true }
    else
      let lost := s.pendingOf g
      let s1 := s.freeGang g
      let s2 := match s1.launch g.launch with
        | some l =>
          let l1 := { l with complete := l.complete + 1, lost := l.lost + lost }
          let t := s1.setLaunch l1
          if l.gangdone then
            t.queueDone g.die l.tag l.asid (wordOf (l.field 56 8)) (doneBytes l.tag 4 g.index lost)
          else t
        | none => s1
      .next ((s2.checkLaunch g.launch).post [.place g.die])

/-! ## Issue selection and ticks (R25, R90, R170 to R172) -/

/-- A hart is runnable (R170): its stream may be Held, which the next step finds out again. -/
def Hart.runnable (h : Hart) : Bool := h.run == .running

/-- AGE_STEP (R171): at most three. -/
def execAgeStep (h : HartId) (s : State) : Host.Outcome State Fault Refusal :=
  .next (s.modHart h fun k => if k.runnable then { k with age := min 3 (k.age + 1), unselected := 0 } else k)

/-- TICK_BOUNDARY (R25, R172): the cycle count reaches the next multiple of 65,536. -/
def execTickBoundary (s : State) : Host.Outcome State Fault Refusal :=
  .next (s.reach ((s.clock / 65536 + 1) * 65536))

/-- PAUSE_EXPIRY (R90): the 32 cycles are over. -/
def execPauseExpiry (h : HartId) (s : State) : Host.Outcome State Fault Refusal :=
  let k := s.hartAt h
  .next (if k.run = .paused then
    (s.reach (k.deadline.getD 0)).modHart h fun k => { k with run := .running, deadline := none }
  else s)

end Sys2Proof.Machine
end

