-- ==== Sys2Proof/Machine/VectorMem.lean ====
section
/-! DEFINITION. W group 3: loads, stores, prefetch, vector atomics and remote scatters (06 R140 to R144, 08 R183 to
R187), each as the run of a dispatched queue entry. -/

namespace Sys2Proof.Machine

/-- Where an access form finds its elements (R140). -/
inductive Form where
  | unit | strided | indexed | segment
  deriving DecidableEq, Repr

/-- A .sc access aborts a transaction with its own cause (R185, R200). -/
def scAborts (w : WWord) : M Unit := do
  if w.sc = 1#1 ∧ (← getH).tx.isSome then throw (.abort 8 0)

/-- Group 3's release before the first element, the hart's appended elements among what it orders (R151, R183); inside a
transaction the order bits order nothing (R205). -/
def orderRelease (w : WWord) : M Unit := do
  if 2 ≤ w.order.toNat ∧ (← getH).tx.isNone then
    settleStreams (← ownParty)
    release w.scope.toNat

/-- The memory and register formats of a load or store, checked at dispatch (R140, R143). A coded or 4-bit format in fb or
fc is Illegal although neither is read (R44, R143, log entry 47). -/
def memFmts (e : QEntry) (form : Form) (store : Bool) : Option (Fmt × Fmt) :=
  let p := e.cap.pal
  match fmtOf (palFa p), fmtOf (palFd p) with
  | some fa, some fd =>
    let m := if store then fd else fa
    let r := if store then fa else fd
    let index := match form with
      | .indexed => (intFmt (palFb p) e.bits).isSome
      | _ => true
    if palDefined p && decide (palFb p < 0x0F) && decide (palFc p < 0x0F) && convScales p fa fd && !r.isQ && !r.is4 &&
        r.width == e.bits && index && (!m.isQ || (!store && form == .unit)) && (!m.is4 || form == .unit) then some (m, r)
    else none
  | _, _ => none

/-- The address of field f of element or record i (R140). -/
def memAddr (c : VCtx) (form : Form) (size : Nat) (idx : BitVec 16384) (i f : Nat) : Word :=
  let base := c.e.cap.x1
  let step : Word := if c.w.vs2 = 0#5 then wordOf (c.w.fields * size) else c.e.cap.x2
  match form with
  | .unit => base + wordOf (i * size)
  | .indexed =>
    let s := (intFmt (palFb c.pal) c.bits).getD false
    base + BitVec.ofInt 64 (decodeInt s c.bits (elem idx c.bits i))
  | _ => base + wordOf i * step + wordOf (f * size)

/-- A .sc element draws a ticket, and a host or peer target is an access fault (R185). -/
def scElem (w : WWord) (p : Party) (a : Access) (va : Word) (pa : Nat) : M Unit := do
  if w.sc = 1#1 then
    match region pa with
    | .host _ | .peer _ _ => do noTx p; throw (.mem (.access a va))
    | _ => modify fun s => { s with dev := { s.dev with scTicket := s.dev.scTicket + 1 } }

/-- One element of memory at an address, checked as R142 and R185 have it. -/
def loadScElem (c : VCtx) (p : Party) (va : Word) (size : Nat) : M Nat := do
  settleStreams p
  let pa ← checkElem p .load va size
  scElem c.w p .load va pa
  loadPa p va .load pa size true

/-- The .sc checks of a coded element: those of the frame that holds it (R143, R185). -/
def scFrame (c : VCtx) (p : Party) (i : Nat) : M Unit := do
  if c.w.sc = 1#1 then
    let place ← qFrame p (palXi c.pal) c.e.cap.x1 (i / 256)
    let t ← translateM p.ctx place.1 .load
    scElem c.w p .load place.1 t.pa

/-- A load's raw memory bits for element i, with the flag of a coded element read as zero (R143, R45). -/
def loadRaw (c : VCtx) (form : Form) (m : Fmt) (idx : BitVec 16384) (i f : Nat) : M (Nat × Flags) := do
  let p ← ownParty
  if m.isQ then
    scFrame c p i
    match ← qElement p m (palXi c.pal) c.e.cap.x1 i with
    | .ok v => return (v, 0#6)
    | .error a => if palZr c.pal then return (0, fNV) else vfault 5 a
  else if m.is4 then
    let b ← loadScElem c p (c.e.cap.x1 + wordOf (i / 2)) 1
    return (if i % 2 = 0 then b % 16 else b / 16, 0#6)
  else return (← loadScElem c p (memAddr c form m.bytes idx i f) m.bytes, 0#6)

/-- The base of a coded tensor is a multiple of 32, whatever elements are active (R143). -/
def checkBase (c : VCtx) (m : Fmt) : M Unit := do
  if m.isQ ∧ c.e.cap.x1.toNat % 32 ≠ 0 then
    atStart
    throw (.mem (.misaligned .load c.e.cap.x1))

/-- The registers of a segment form's fields from a first one. -/
def fieldRegs (w : WWord) (r : Reg) : List Nat := (List.range w.fields).map fun f => r.toNat + f

/-- The checks of every field of a record come before any of its accesses (R142). -/
def checkRecord (c : VCtx) (form : Form) (a : Access) (m : Fmt) (idx : BitVec 16384) (i : Nat) : M Unit := do
  let p ← ownParty
  if !m.isQ && !m.is4 then
    forM' (fun f => do
      let _ ← checkElem p a (memAddr c form m.bytes idx i f) m.bytes) (List.range c.w.fields)

/-- VMem for a load (R142). -/
def vecLoad (w : WWord) (e : QEntry) (form : Form) : M Unit := do
  scAborts w
  match memFmts e form false with
  | none => illegalV e
  | some (m, r) => do
    let c ← dispatchV w e false
    let lo := (← getH).vstart
    forM' (checkDest c) (fieldRegs w w.vd)
    checkBase c m
    let s ← sources c (if form = .indexed then [w.vs2.toNat] else []) lo c.vl
    let idx := s.get w.vs2.toNat
    elemLoop (fun i => do
      consume s i
      if c.active i then
        checkRecord c form .load m idx i
        let fl ← (List.range w.fields).foldlM (fun acc f => do
          let raw ← loadRaw c form m idx i f
          let v := convertElem c.pal m r c.rm c.sat raw.1
          writeElem c (w.vd.toNat + f) i v.1
          return acc ||| raw.2 ||| v.2) (0#6 : Flags)
        raise fl
        emBit c i fl
      else
        forM' (fun x => append x false 0) (fieldRegs w w.vd)
        emBit c i 0#6) (c.vl - lo) lo
    emTail c (max c.vl lo)
    completeV

/-- Stores one converted element. -/
def storeRaw (c : VCtx) (form : Form) (m : Fmt) (idx : BitVec 16384) (i f x : Nat) : M Unit := do
  let p ← ownParty
  settleStreams p
  dropAhead p
  if m.is4 then
    let va := c.e.cap.x1 + wordOf (i / 2)
    let pa ← checkElem p .store va 1
    scElem c.w p .store va pa
    storeNibble p va pa (i % 2 == 1) x
  else
    let va := memAddr c form m.bytes idx i f
    let pa ← checkElem p .store va m.bytes
    scElem c.w p .store va pa
    storePa p va pa m.bytes x true

/-- VMem for a store (R142). -/
def vecStore (w : WWord) (e : QEntry) (form : Form) : M Unit := do
  scAborts w
  match memFmts e form true with
  | none => illegalV e
  | some (m, r) => do
    let c ← dispatchV w e false
    orderRelease w
    let lo := (← getH).vstart
    let s ← sources c (fieldRegs w w.vs3 ++ (if form = .indexed then [w.vs2.toNat] else [])) lo c.vl
    let idx := s.get w.vs2.toNat
    elemLoop (fun i => do
      consume s i
      if c.active i then
        checkRecord c form .store m idx i
        let fl ← (List.range w.fields).foldlM (fun acc f => do
          let v := convertElem c.pal r m c.rm c.sat (elem (s.get (w.vs3.toNat + f)) c.bits i)
          storeRaw c form m idx i f v.1
          return acc ||| v.2) (0#6 : Flags)
        raise fl
        emBit c i fl
      else emBit c i 0#6) (c.vl - lo) lo
    emTail c (max c.vl lo)
    completeV

def runVld (w : WWord) (e : QEntry) : M Unit := vecLoad w e .unit
def runVst (w : WWord) (e : QEntry) : M Unit := vecStore w e .unit
def runVlds (w : WWord) (e : QEntry) : M Unit := vecLoad w e .strided
def runVsts (w : WWord) (e : QEntry) : M Unit := vecStore w e .strided
def runVldx (w : WWord) (e : QEntry) : M Unit := vecLoad w e .indexed
def runVstx (w : WWord) (e : QEntry) : M Unit := vecStore w e .indexed
def runVlseg (w : WWord) (e : QEntry) : M Unit := vecLoad w e .segment
def runVsseg (w : WWord) (e : QEntry) : M Unit := vecStore w e .segment

/-- VPRF changes no architectural state (R144). -/
def runVprf (w : WWord) (e : QEntry) : M Unit := do
  let _ ← dispatchV w e false
  pure ()

/-! ## Vector atomics (R186) -/

/-- The new memory value and the flags, from the old value and the data. -/
def vamoNew (bits : Nat) (sat : Bool) (pal : Word) (rm op : Nat) (f : Fmt) (old d : Nat) : Nat × Flags :=
  let s := f.signed
  let a := decodeInt s bits old
  let b := decodeInt s bits d
  match op with
  | 0 => (d, 0#6)
  | 1 => encodeInt s bits sat (a + b)
  | 2 => (old &&& d, 0#6)
  | 3 => (old ||| d, 0#6)
  | 4 => (old ^^^ d, 0#6)
  | 5 => (if a ≤ b then old else d, 0#6)
  | 6 => (if a ≤ b then d else old, 0#6)
  | _ =>
    let u := decodeVal (palFtz pal) f old
    let v := decodeVal (palFtz pal) f d
    let r := addVal rm [u, v] u v
    let x := encodeFloat f f.prec (encMode pal f rm false) r.1
    (x.1, x.2 ||| r.2)

/-- The number by which a vector atomic names itself to a peer. -/
def vamoCode (op rm : Nat) (sat : Bool) : Nat := 256 + op + 16 * rm + (if sat then 128 else 0)

/-- The formats an operation accepts (R186). -/
def vamoFmtOk (op : Nat) (f : Fmt) : Bool :=
  match op with
  | 1 | 5 | 6 => f.isInt
  | 7 => f == .f16 || f == .b16 || f == .f32 || f == .f64
  | _ => true

def runVamo (w : WWord) (e : QEntry) : M Unit := do
  scAborts w
  let p := e.cap.pal
  let op := (w.vd.extractLsb' 0 4).toNat
  match regFmt (palFa p), intFmt (palFb p) e.bits with
  | some f, some sb => do
    requireV e (palPlain p && scalesZero p false false false && palFd p == palFa p && palFc p == 0 &&
      f.width == e.bits && vamoFmtOk op f)
    let c ← dispatchV w e false
    orderRelease w
    let lo := (← getH).vstart
    if w.vd.getLsbD 4 then checkDest c w.vs3.toNat
    let s ← sources c [w.vs3.toNat, w.vs2.toNat] lo c.vl
    let party ← ownParty
    elemLoop (fun i => do
      consume s i
      if c.active i then
        let va := e.cap.x1 + BitVec.ofInt 64 (decodeInt sb c.bits (elem (s.get w.vs2.toNat) c.bits i))
        if va.toNat % f.bytes ≠ 0 then throw (.mem (.misaligned .store va))
        let t ← translateM party.ctx va .store
        scElem w party .store va t.pa
        let d := elem (s.get w.vs3.toNat) c.bits i
        let old ← atomicVa party va f.bytes (fun o => some (vamoNew c.bits c.sat c.pal c.rm op f o d).1)
          (vamoCode op c.rm c.sat) (wordOf d) p
        let fl := (vamoNew c.bits c.sat c.pal c.rm op f old d).2
        if w.vd.getLsbD 4 then writeElem c w.vs3.toNat i old
        raise fl
        emBit c i fl
      else
        if w.vd.getLsbD 4 then append w.vs3.toNat false 0
        emBit c i 0#6) (c.vl - lo) lo
    emTail c (max c.vl lo)
    completeV
  | _, _ => illegalV e

/-! ## Remote scatter (R187, R402) -/

/-- The destination of an element: an L2 slice, a cluster bank or a peer device. -/
def trainDest (pa skew : Nat) : Nat :=
  match region pa with
  | .aperture c off => 1000 + 32 * c + off / 0x2_0000
  | .peer d _ => 100000 + d
  | _ => homeSlice pa skew

/-- A train takes another element for a destination: it is not performed, and its segment has fewer than 256 elements. -/
def Train.takes (t : Train) (dest : Nat) : Bool := t.dest == dest && !t.done_ && decide (t.elems.length < 256)

/-- Adds an element to the train of its destination: to its last segment, or as a segment of its own (R402). -/
def addToTrain (ts : List Train) (dest : Nat) (x : Nat × Nat × Nat) : List Train :=
  if ts.any fun t => t.takes dest then
    ts.map fun t => if t.takes dest then { t with elems := t.elems ++ [x] } else t
  else ts ++ [{ dest := dest, elems := [x], done_ := false }]

/-- The trains leave: one event for each. -/
def sendTrains : M Unit := modify fun s => s.post (s.hart.trains.map fun _ => Instr.elementTrain s.hart.id)

/-- One element of VSTR joins its train. -/
def trainElem (p : Party) (va : Word) (size x : Nat) : M Unit := do
  if va.toNat % size ≠ 0 then throw (.mem (.misaligned .store va))
  let t ← translateM p.ctx va .store
  match region t.pa with
  | .agent | .host _ => throw (.mem (.access .store va))
  | _ => checkPa p .store va t.pa true
  modH fun h => { h with trains := addToTrain h.trains (trainDest t.pa t.skew) (t.pa, size, x) }

def runVstr (w : WWord) (e : QEntry) : M Unit := do
  if (← getH).tx.isSome then throw (.abort 9 0)
  match memFmts e .indexed true with
  | none => illegalV e
  | some (m, r) => do
    if !(← getH).trains.isEmpty then hold .memory
    let c ← dispatchV w e false
    orderRelease w
    let p ← ownParty
    settleStreams p
    dropAhead p
    let lo := (← getH).vstart
    let s ← sources c [w.vs3.toNat, w.vs2.toNat] lo c.vl
    let idx := s.get w.vs2.toNat
    let body : M Unit := elemLoop (fun i => do
      consume s i
      if c.active i then
        let v := convertElem c.pal r m c.rm c.sat (elem (s.get w.vs3.toNat) c.bits i)
        trainElem p (memAddr c .indexed m.bytes idx i 0) m.bytes v.1
        raise v.2
        emBit c i v.2
      else emBit c i 0#6) (c.vl - lo) lo
    fun st =>
      match body st with
      | .ok _ t =>
        (do modH fun h => { h with vstart := max c.vl lo }
            if !(← getH).trains.isEmpty then do sendTrains; hold .memory
            emTail c (max c.vl lo)
            completeV : M Unit) t
      | .error x t =>
        (do if !(← getH).trains.isEmpty then do sendTrains; hold .memory
            throw x : M Unit) t

/-- ELEMENT_TRAIN (R187, R402): the destination performs the elements of the first train not yet performed. -/
def performTrain : M Unit := do
  let h ← getH
  let p := { ctx := h.ctx, self := some h.id, plain := true : Party }
  match h.trains.find? fun t => !t.done_ with
  | some t => do
    forM' (fun x => storePa p 0#64 x.1 x.2.1 x.2.2 true) t.elems
    modH fun h => { h with trains := h.trains.map fun u => if u = t then { u with done_ := true } else u }
    modify fun s => s.post [.trainAcknowledgement s.hart.id]
  | none => pure ()

/-- TRAIN_ACKNOWLEDGEMENT (R187): the first performed train is acknowledged; a peer's, once its writes are (R401). -/
def acknowledgeTrain : M Unit := do
  let s ← get
  match s.hart.trains.find? Train.done_ with
  | some t => do
    if 100000 ≤ t.dest ∧ s.dev.requests.any fun r => r.write && r.hart == some s.hart.id then hold .memory
    modH fun h => { h with trains := h.trains.filter fun u => u != t }
  | none => pure ()

end Sys2Proof.Machine
end

