-- ==== Sys2Proof/Machine/Windows.lean ====
section
/-! DEFINITION. Accumulation windows (08 R190 to R194). -/

namespace Sys2Proof.Machine

/-! ## The control word (R191) -/

def winSize (ctl : Word) : Nat := 8 * (fieldOf ctl 16 12 + 1)
def winOp (ctl : Word) : Nat := fieldOf ctl 0 3
def winSat (ctl : Word) : Bool := ctl.getLsbD 3
def winFmt (ctl : Word) : Option Fmt := fmtOf (fieldOf ctl 8 5)

/-- The element formats of an operation: I8 to N64 for each, F16, B16, F32 and F64 for 0 to 2. -/
def winFmtOk (ctl : Word) : Bool :=
  match winFmt ctl with
  | some (.int _ _) => decide (winOp ctl < 6) && (!winSat ctl || winOp ctl == 0)
  | some f => (f == .f16 || f == .b16 || f == .f32 || f == .f64) && decide (winOp ctl < 3) && !winSat ctl
  | none => false

def winOk (base ctl : Word) : Bool :=
  fieldOf ctl 28 36 == 0 && fieldOf ctl 13 3 == 0 && fieldOf ctl 4 4 == 0 && winFmtOk ctl &&
  base.toNat % 128 == 0 && decide (base.toNat % 4096 + winSize ctl ≤ 4096)

/-- Lane groups of a thread's class: 1, 2 or 4 (R191). -/
def laneGroups (vclass : Nat) : Nat := 2 ^ vclass

/-- A combination of two elements: their new pattern and flags (R191, R192). -/
def winCombine (ctl : Word) (c : EncMode) (f : Fmt) (a b : Nat) : Nat × Flags :=
  let w := f.width
  let x := decodeInt f.signed w a
  let y := decodeInt f.signed w b
  match winOp ctl with
  | 0 =>
    if f.isInt then encodeInt f.signed w (winSat ctl) (x + y)
    else
      let u := decodeVal c.ftz f a
      let v := decodeVal c.ftz f b
      let r := addVal 0 [u, v] u v
      let e := encodeFloat f f.prec c r.1
      (e.1, e.2 ||| r.2)
  | 1 =>
    if f.isInt then (if y < x then b else a, 0#6)
    else
      let r := minMaxVal false (decodeVal c.ftz f a) (decodeVal c.ftz f b)
      let e := encodeFloat f f.prec c r.1
      (e.1, e.2 ||| r.2)
  | 2 =>
    if f.isInt then (if x < y then b else a, 0#6)
    else
      let r := minMaxVal true (decodeVal c.ftz f a) (decodeVal c.ftz f b)
      let e := encodeFloat f f.prec c r.1
      (e.1, e.2 ||| r.2)
  | 3 => (a &&& b, 0#6)
  | 4 => (a ||| b, 0#6)
  | _ => (a ^^^ b, 0#6)

/-- Inserts or replaces the element at an offset, offsets ascending. -/
def touch (k : Nat) (v : Word) : List (Nat × Word) → List (Nat × Word)
  | [] => [(k, v)]
  | (j, w) :: l => if k < j then (k, v) :: (j, w) :: l else if k = j then (k, v) :: l else (j, w) :: touch k v l

/-! ## AWOPEN, AWMERGE, AWCLOSE (R191, R193, R194) -/

def setAwst (st : Nat) : M Unit := modH fun h => { h with awst := BitVec.ofNat 3 st }

/-- The fates of the window's address: a store translation, and a place in HBM or an open bank. -/
def winTarget (base : Word) : M Unit := do
  let p ← ownParty
  let t ← translateM p.ctx base .store
  reservable base t.pa .store

def execAwopen (rs1 rs2 : Reg) (s : State) : Host.Outcome State Fault Refusal :=
  runScalar (do
    abortIfTx 6
    drain
    let base ← readX rs1
    let ctl ← readX rs2
    let h ← getH
    if h.window.isSome then setAwst 2
    else if !winOk base ctl then setAwst 1
    else
      winTarget base
      modH fun h => { h with window := some {
        base := base, ctl := ctl, copies := List.replicate (4 * laneGroups h.vclass) [], next := 0 } }
      setAwst 0
    advance 4) s

/-- One copy folded into memory, element by element in ascending order, and emptied (R193). -/
def mergeCopy (f : Fmt) (c : Nat) (elems : List (Nat × Word)) (w : AccWindow) : M Unit := do
  modH fun h => { h with window := some { w with next := c } }
  atomically do
    let p ← ownParty
    let _ ← translateM p.ctx w.base .store
    let mode : EncMode := { rm := 0, ftz := false, sat := false, nanprop := false }
    forM' (fun e => do
      let old ← atomicVa p (w.base + wordOf e.1) f.bytes (fun o => some (winCombine w.ctl mode f o e.2.toNat).1)
        (512 + winOp w.ctl) e.2 w.ctl
      raise ((winCombine w.ctl mode f old e.2.toNat).2 &&& fSAT)) elems
    modH fun h => { h with window := h.window.map fun v => { v with copies := v.copies.set c [] } }

/-- AWMERGE's effect: the copies from next upwards. -/
def mergeAll (w : AccWindow) (f : Fmt) : M Unit := do
  forM' (fun c => do
    match (← getH).window with
    | some v => mergeCopy f c (v.copies.getD c []) v
    | none => pure ()) ((List.range w.copies.length).filter fun c => w.next ≤ c)
  modH fun h => { h with window := h.window.map fun v => { v with next := 0 } }

/-- AWMERGE. Each update is performed for every party at once, so no scope has more to wait for (log entry 5). A fault
keeps the copies merged before it, and next names the one it stopped at. -/
def execAwmerge (_scope : BitVec 3) (s : State) : Host.Outcome State Fault Refusal :=
  match (do
      abortIfTx 6
      drain
      match (← getH).window with
      | none => setAwst 3
      | some w => do
        match winFmt w.ctl with
        | some f => mergeAll w f
        | none => pure ()
        setAwst 0
      advance 4 : M Unit) s with
  | .ok _ t => .next t.goesOn
  | .error (.mem f) t => .next (t.fault (MemFault.trap (match f with
      | .page _ va => .page .store va
      | other => other)) t.hart.pc)
  | .error e t => s.ended e t

def execAwclose (s : State) : Host.Outcome State Fault Refusal :=
  runScalar (do
    abortIfTx 6
    drain
    if (← getH).window.isSome then
      modH fun h => { h with window := none }
      setAwst 0
    else setAwst 3
    advance 4) s

/-! ## VWACC (R192) -/

/-- VWACC's element: its offset must name an element of the window. -/
def winAccumulate (c : VCtx) (f : Fmt) (ctl base : Word) (i : Nat) (k : Int) (x : Nat) : M Flags := do
  if k % (f.bytes : Nat) ≠ 0 ∨ k < 0 ∨ (winSize ctl : Nat) ≤ k then vfault 3 (base + BitVec.ofInt 64 k)
  let off := k.toNat
  match (← getH).window with
  | none => return 0#6
  | some w => do
    let n := i % w.copies.length
    let l := w.copies.getD n []
    let r : Nat × Flags := match l.lookup off with
      | some old => winCombine ctl { rm := 0, ftz := palFtz c.pal, sat := false, nanprop := palNanprop c.pal } f
          old.toNat x
      | none => (x, 0#6)
    modH fun h => { h with window := some { w with copies := w.copies.set n (touch off (wordOf r.1) l) } }
    return r.2

/-- VWACC (R192). A scale beside a floating format is no scale that R192 applies, and is Illegal as one beside an integer
format is (R49, log entry 48). -/
def runVwacc (w : WWord) (e : QEntry) : M Unit := do
  if (← getH).tx.isSome then throw (.abort 6 0)
  let p := e.cap.pal
  match (← getH).window, regFmt (palFa p), intFmt (palFb p) e.bits with
  | some a, some f, some sb => do
    requireV e (palPlain p && scalesZero p false false false && palFd p == palFa p &&
      palFa p == fieldOf a.ctl 8 5 && f.width == e.bits)
    let c ← dispatchV w e false
    let lo := (← getH).vstart
    let s ← sources c [w.vs3.toNat, w.vs2.toNat] lo c.vl
    elemLoop (fun i => do
      consume s i
      if c.active i then
        let fl ← winAccumulate c f a.ctl a.base i (decodeInt sb c.bits (elem (s.get w.vs2.toNat) c.bits i))
          (elem (s.get w.vs3.toNat) c.bits i)
        raise fl
        emBit c i fl
      else emBit c i 0#6) (c.vl - lo) lo
    emTail c (max c.vl lo)
    completeV
  | _, _, _ => illegalV e

end Sys2Proof.Machine
end

