-- ==== Sys2Proof/Machine/Lantern.lean ====
section
/-! DEFINITION. Frame images, XFSAVE and XFLOAD, the Lantern's window into a parked hart and its commands, and the
interrupts (01 R13, 10 R232, 17 R371 to R388, R443). -/

namespace Sys2Proof.Machine

/-! ## Frame images (R375) -/

/-- This device's generation (R395). -/
def generation : Nat := 1

/-- The largest body of an image, and the body of the n-th image that the device writes: what it writes is its own, but
no two are alike (log entry 14). -/
def frameBody (n : Nat) : List Byte :=
  let b := (lowBytes 8 n ++ Config.frameBody n).take 16320
  b ++ List.replicate ((64 - b.length % 64) % 64) 0#8

/-- The W instruction at vfpc that a frame holds. -/
def Frame.atVfpc (f : Frame) : Option QEntry :=
  (f.vq ++ f.mq).find? fun e => e.pc == f.vfpc && (encodeWFields e.instr).isSome

def Frame.hpal (f : Frame) : Word := (f.atVfpc.map fun e => e.cap.pal).getD 0#64

/-- A frame with nothing in it, as the hart stands. -/
def Hart.emptyFrame (h : Hart) : Frame :=
  { vq := [], mq := [], cq := [], restart := 0, faults := [], masks := [], takenAt := 0, vmsp := 0,
    q := Vector.replicate 8 [], lq := [], bindings := [], pos := h.st.toList.map StreamReg.pos,
    ahead := [], appended := [], level := BitVec.ofNat 2 h.level, vfpc := h.vfpc, vfcause := h.vfcause, vfaddr := h.vfaddr }

def Frame.pendingBit (f : Frame) (stream : Nat) : Nat := if f.faults.any fun x => x.stream == stream then 1 else 0

/-- The header over a body. -/
def frameHeader (f : Frame) (body : List Byte) : List Byte :=
  lowBytes 2 1 ++ lowBytes 1 generation ++
  lowBytes 1 (f.pendingBit 1 + 2 * f.pendingBit 2 + 4 * f.pendingBit 3) ++ lowBytes 4 (64 + body.length) ++
  lowBytes 8 f.vfpc.toNat ++ lowBytes 8 f.vfcause.toNat ++ lowBytes 8 f.vfaddr.toNat ++
  lowBytes 2 f.restart ++ lowBytes 2 f.vmsp ++ lowBytes 1 f.level.toNat ++ lowBytes 3 0 ++
  lowBytes 8 (Config.frameCheck body).toNat ++ lowBytes 8 f.hpal.toNat ++ lowBytes 8 0

/-- The image of a hart's frame buffer; an empty one is a header of 64 bytes. -/
def Hart.frameImage (h : Hart) (n : Nat) : List Byte :=
  match h.frame with
  | some f => let b := frameBody n; frameHeader f b ++ b
  | none => frameHeader h.emptyFrame []

/-! ## XFSAVE and XFLOAD (R376, R377) -/

def execXfsave (s : State) : Host.Outcome State Fault Refusal :=
  runScalar (do
    supervisorOnly .xfsave
    drain
    let h ← getH
    let base := h.xfbase
    if base.toNat % 64 ≠ 0 then trap 6 base
    let img := h.frameImage (← get).dev.images.length
    storeBytes (← ownParty) base img
    modify fun s => { s with
      hart := { s.hart with frame := none },
      dev := { s.dev with images := s.dev.images ++ [(h.frame.getD h.emptyFrame, img)] } }
    advance 4) s

/-- An image with the fields that a handler may edit cleared: restart, vmsp and, where an entry is at vfpc, bit 21 of
hpal. -/
def neutralImage (img : List Byte) (hpal : Bool) : List Byte :=
  let l := patchBytes img 32 (lowBytes 4 0)
  if hpal then patchBytes l 50 [(l.getD 50 0#8) &&& 0xDF#8] else l

/-- The frame that bytes in memory stand for: one that this device has written, with a handler's edits. -/
def State.frameOf (s : State) (img : List Byte) : Option Frame :=
  (s.dev.images.find? fun x =>
    neutralImage img x.1.atVfpc.isSome == neutralImage x.2 x.1.atVfpc.isSome).map Prod.fst

/-- The palette word of the entry at vfpc. -/
def Frame.withHpal (f : Frame) (v : Word) : Frame :=
  match f.atVfpc with
  | none => f
  | some e =>
    let g := fun (x : QEntry) => if x.seq = e.seq then { x with cap := { x.cap with pal := v } } else x
    { f with vq := f.vq.map g, mq := f.mq.map g }

/-- An empty frame is no frame. -/
def Frame.toBuffer (f : Frame) : Option Frame :=
  if f.vq.isEmpty && f.mq.isEmpty && f.cq.isEmpty && f.faults.isEmpty && f.masks.isEmpty && f.vmsp == 0 &&
     f.lq.isEmpty && f.bindings.isEmpty && f.q.toList.all List.isEmpty && f.pos.flatten.all (· == 0) &&
     f.ahead.flatten.isEmpty && f.appended.flatten.isEmpty then none else some f

/-- XFLOAD's fault. -/
def frameFault {α : Type} (base : Word) : M α := throw (.stream 24 9 base base)

def execXfload (s : State) : Host.Outcome State Fault Refusal :=
  runScalar (do
    supervisorOnly .xfload
    drain
    let h ← getH
    let base := h.xfbase
    if base.toNat % 64 ≠ 0 then trap 4 base
    let p ← ownParty
    let head ← loadBytes p base 64
    let size := pkt head 4 4
    let vmsp := pkt head 34 2
    let restart := pkt head 32 2
    if pkt head 0 2 ≠ 1 ∨ pkt head 2 1 ≠ generation ∨ size % 64 ≠ 0 ∨ size < 64 ∨ 16384 < size ∨ 256 < vmsp ∨
        2047 < restart ∨ pkt head 36 1 ≠ h.level then frameFault base
    let img ← loadBytes p base size
    match (← get).frameOf img with
    | none => frameFault base
    | some f =>
      let g := { (f.withHpal (wordOf (pkt head 48 8))) with restart := restart, vmsp := vmsp }
      modH fun k => { k with frame := g.toBuffer }
      advance 4) s

/-! ## The window into a parked hart (R371, R443) -/

/-- The hart that a cluster's pcsel selects. -/
def State.selectedHart (s : State) (c : ClusterId) : HartId :=
  let v := (s.cluster c).pcsel
  { die := c.die, cluster := c.cluster, core := fieldOf v 3 3, hart := fieldOf v 0 3 }

def State.setPcst (s : State) (c : ClusterId) (st : Nat) : State := s.modCluster c fun k => { k with pcst := st }

/-- Words 0 to 15 of a slot list: a handle and an entry word for each entry. -/
def Hart.slotWord (h : Hart) (j : Nat) : Word :=
  match h.slots[j / 2]? with
  | some e =>
    if j % 2 = 0 then e.handle
    else setField (setField (setField 0#64 63 1 1) 62 1 (if e.consumer then 1 else 0)) 0 17 e.counter
  | none => assocGet j 0#64 h.spareSlots

/-- A write to a word of the slot list; none is FORMAT. -/
def Hart.writeSlotWord (h : Hart) (j : Nat) (v : Word) : Option Hart :=
  let e := j / 2
  let n := h.slots.length
  if j % 2 = 0 then
    match h.slots[e]? with
    | some x => some { h with slots := h.slots.set e { x with handle := v } }
    | none => some { h with spareSlots := assocSet j v h.spareSlots }
  else if fieldOf v 17 45 ≠ 0 then none
  else if v.getLsbD 63 then
    if n < e then none
    else
      let x : SlotEntry := { handle := h.slotWord (2 * e), consumer := v.getLsbD 62, counter := fieldOf v 0 17 }
      some { h with slots := if e = n then h.slots ++ [x] else h.slots.set e x }
  else if e < n then
    if e + 1 = n then
      some { h with slots := h.slots.take e,
                    spareSlots := assocSet j v (assocSet (2 * e) (h.slotWord (2 * e)) h.spareSlots) }
    else none
  else some { h with spareSlots := assocSet j v h.spareSlots }

/-- A write of a CSR through the window, without side effects: the read-only CSRs that a restored gang needs are written
as they stand (R386), those that only show other state ignore it. -/
def Hart.windowCsr (h : Hart) (a : Nat) (v : Word) : Hart :=
  match a with
  | 0x180 => { h with satp := v }
  | 0x300 => { h with mstatusTw := v.getLsbD 21 }
  | 0x5C4 => { h with trroute := v ||| 0x0001_0000_0000_0000#64 }
  | 0xC02 => { h with instret := v.toNat }
  | 0xCC0 => { h with vl := fieldOf v 0 12 }
  | 0xCC1 => { h with vgrant := v &&& 0xCF#64 }
  | 0xCC2 => { h with coord := v }
  | 0xCC3 => { h with stage := v }
  | 0xCC4 => { h with launchTag := v }
  | _ => h.writeCsr a v

/-- The mask entries of a depth that the window sets on a hart without a frame: those it does not hold are free. -/
def freeMasks : Nat → M (List MaskEntry)
  | 0 => return []
  | n + 1 => fun s =>
    let a := s.freeValue 2048
    let b := a.2.freeValue 2048
    (do return { saved := BitVec.ofNat 2048 a.1, branch := BitVec.ofNat 2048 b.1 } :: (← freeMasks n) : M (List MaskEntry)) b.2

/-- Replaces the k-th 64-bit word of a bit vector. -/
def setWordAt {n : Nat} (b : BitVec n) (k : Nat) (v : Word) : BitVec n :=
  (b &&& ~~~(BitVec.ofNat n ((2 ^ 64 - 1) * 2 ^ (64 * k)))) ||| BitVec.ofNat n (v.toNat * 2 ^ (64 * k))

/-- Slot s of row i of a tile. -/
def Tile.setSlot (t : Tile) (i s : Nat) (v : Word) : Tile :=
  if hi : i < 32 then { t with rows := t.rows.set i (setWordAt t.rows[i] s v) } else t

/-- The current mask stack, restart and hpal edits of a live frame: word k of its image; none is FORMAT. -/
def Hart.writeFrameWord (h : Hart) (n k : Nat) (v : Word) : Option Hart :=
  let img := h.frameImage n
  let old := wordOf (pkt img (8 * k) 8)
  if img.length ≤ 8 * k then none
  else
    let f := h.frame.getD h.emptyFrame
    if k = 4 then
      let restart := fieldOf v 0 16
      let vmsp := fieldOf v 16 16
      if setField v 0 32 0 ≠ setField old 0 32 0 ∨ 256 < vmsp ∨ 2047 < restart then none
      else some { h with frame := ({ f with restart := restart, vmsp := vmsp } : Frame).toBuffer }
    else if k = 6 then
      if (v ^^^ old) &&& ~~~0x20_0000#64 ≠ 0#64 ∨ (f.atVfpc.isNone ∧ v ≠ old) then none
      else some { h with frame := (f.withHpal v).toBuffer }
    else none

/-- What an untouched element of a window shows: the value that its operation combines with any other to that other
(log entry 58). -/
def winIdentity (ctl : Word) (f : Fmt) : Nat :=
  let top := 2 ^ (f.width - 1)
  if f.isInt then
    match winOp ctl with
    | 1 => if f.signed then top - 1 else 2 * top - 1
    | 2 => if f.signed then top else 0
    | 3 => 2 * top - 1
    | _ => 0
  else
    match winOp ctl with
    | 0 => top
    | 1 => top - 2 ^ f.mbits
    | _ => 2 * top - 2 ^ f.mbits

/-- The elements of word k of the accumulation-window copies: the copy, its format and the offset of the first. -/
def AccWindow.place (w : AccWindow) (k : Nat) : Option (Nat × Fmt × Nat) :=
  let per := winSize w.ctl / 8
  if k / per < w.copies.length then (winFmt w.ctl).map fun f => (k / per, f, 8 * (k % per)) else none

/-- Word k of the accumulation-window copies. -/
def AccWindow.readWord (w : AccWindow) (k : Nat) : Option Word :=
  (w.place k).map fun (c, f, off) =>
    (List.range (8 / f.bytes)).foldl (fun m j =>
      setField m (8 * f.bytes * j) (8 * f.bytes)
        ((((w.copies.getD c []).lookup (off + f.bytes * j)).map BitVec.toNat).getD (winIdentity w.ctl f))) 0#64

/-- A write of word k: each element that the word covers holds what is written; one that is untouched stays so where what
is written is what it shows (log entry 58). -/
def AccWindow.writeWord (w : AccWindow) (k : Nat) (v : Word) : Option AccWindow :=
  (w.place k).map fun (c, f, off) =>
    { w with copies := w.copies.set c ((List.range (8 / f.bytes)).foldl (fun m j =>
        let x := fieldOf v (8 * f.bytes * j) (8 * f.bytes)
        if (m.lookup (off + f.bytes * j)).isNone && x == winIdentity w.ctl f then m
        else touch (off + f.bytes * j) (wordOf x) m) (w.copies.getD c [])) }

/-- A write of an entry word of the handler table, as an HBIND by a thread of the hart's gang would act; none is
FORMAT. -/
def State.windowBind (s : State) (h : Hart) (c : Nat) (v : Word) : Option State :=
  let gang := (h.placed.map Placed.gang).getD 0
  let core := h.id.coreId
  if (entryValid v && !s.isContext (core.hart (entryCtx v)) gang) || fieldOf v 0 2 != 0 || s.boundElsewhere core c gang then
    none
  else
    some ((s.modCore core fun k => k.bind c gang v).startChannel core c)

/-- The two words of a channel (R443): its entry word, and its pending count with the overflow flag. -/
def Core.channelWord (k : Core) (c : Nat) (second : Bool) : Word :=
  match k.channels.find? fun x => x.1 == c with
  | some x =>
    if second then setField (setField 0#64 8 1 (if x.2.overflow = 0 then 0 else 1)) 0 8 (k.pending c) else x.2.entry
  | none => 0#64

/-- The k-th copy command of a hart that is in flight. -/
def State.copyAt (s : State) (h : Hart) (k : Nat) : Option CopyCmd :=
  ((s.core h.id.coreId).copies.filter fun c => c.hart == h.id)[k]?

/-- The progress word of a copy command (R291). -/
def CopyCmd.progress (c : CopyCmd) : Word := Config.progressWord c.entry.cap.x1 c.next c.flags

/-- A write of a progress word: the command goes on from where the word says. -/
def State.writeProgress (s : State) (c : CopyCmd) (v : Word) : State :=
  if v = c.progress then s
  else s.modCore c.hart.coreId fun k => { k with copies := k.copies.map fun x =>
    if x.hart = c.hart ∧ x.entry.seq = c.entry.seq then
      { x with next := Config.progressNext v, flags := Config.progressFlags v } else x }

/-- The value of an item of a parked hart (R371, R443); none is FORMAT. -/
def State.readItem (s : State) (h : Hart) (i : Nat) : Option Word :=
  let lanes := 2 ^ h.level
  if i < 0x20 then some (h.rx (BitVec.ofNat 5 i))
  else if i = 0x20 then some h.resumePc
  else if i = 0x21 then some (wordOf (if h.priv = .supervisor then 1 else 0))
  else if 0x1000 ≤ i ∧ i < 0x2000 then
    if i = 0x1300 then some (setField 0#64 21 1 (if h.mstatusTw then 1 else 0))
    else ({ s with hart := h } : State).readCsr (i - 0x1000)
  else if 0x2000 ≤ i ∧ i < 0x4000 then
    let w := (i - 0x2000) % 256
    if w < 32 * lanes then some (((h.v.toList.getD ((i - 0x2000) / 256) 0#16384).extractLsb' (64 * w) 64)) else none
  else if 0x4000 ≤ i ∧ i < 0x4200 then
    some ((h.rp ((i - 0x4000) / 32)).extractLsb' (64 * ((i - 0x4000) % 32)) 64)
  else if 0x5000 ≤ i ∧ i < 0x5800 then
    some (wordOf (pkt (h.frameImage s.dev.images.length) (8 * (i - 0x5000)) 8))
  else if 0x8000 ≤ i ∧ i < 0xA000 then
    (h.tiles.toList.getD ((i - 0x8000) / 1024) none).map fun x =>
      (x.rows.toList.getD ((i - 0x8000) % 1024 / 32) 0).extractLsb' (64 * (i % 32)) 64
  else if i = 0xA000 ∨ i = 0xA001 then some (((s.copyAt h (i - 0xA000)).map CopyCmd.progress).getD 0#64)
  else if 0xA100 ≤ i ∧ i < 0xA110 then some (h.slotWord (i - 0xA100))
  else if 0xA200 ≤ i ∧ i < 0xA240 then some ((s.core h.id.coreId).channelWord ((i - 0xA200) / 2) (i % 2 == 1))
  else if 0xC000 ≤ i ∧ i < 0xE000 then h.window.bind fun w => w.readWord (i - 0xC000)
  else none

/-- The write of an item of a parked hart; none is FORMAT. -/
def State.writeItem (s : State) (h : Hart) (i : Nat) (v : Word) : Option State :=
  let put := fun (k : Hart) => some (s.setHart k)
  let lanes := 2 ^ h.level
  if i < 0x20 then put (h.wx (BitVec.ofNat 5 i) v)
  else if i = 0x20 then put { h with resumePc := v &&& ~~~3#64 }
  else if i = 0x21 then put { h with priv := if v.getLsbD 0 then .supervisor else .user }
  else if 0x1000 ≤ i ∧ i < 0x2000 then
    let a := i - 0x1000
    if a = 0x805 then
      match freeMasks (min (fieldOf v 0 9) 16) s with
      | .ok l t => if fieldOf v 0 9 ≤ 256 then some (t.setHart { h with vmsp := fieldOf v 0 9, masks := l }) else some s
      | .error _ _ => none
    else if a = 0x300 ∨ (({ s with hart := h } : State).readCsr a).isSome then put (h.windowCsr a v)
    else none
  else if 0x2000 ≤ i ∧ i < 0x4000 then
    let n := (i - 0x2000) / 256
    let w := (i - 0x2000) % 256
    if w < 32 * lanes then put { h with v := h.v.set! n (setWordAt (h.v.toList.getD n 0#16384) w v) } else none
  else if 0x4000 ≤ i ∧ i < 0x4200 then
    let n := (i - 0x4000) / 32
    let w := (i - 0x4000) % 32
    put (if n = 0 ∨ 4 * lanes ≤ w then h else { h with p := h.p.set! n (setWordAt (h.p.toList.getD n 0#2048) w v) })
  else if 0x5000 ≤ i ∧ i < 0x5800 then (h.writeFrameWord s.dev.images.length (i - 0x5000) v).map s.setHart
  else if 0x8000 ≤ i ∧ i < 0xA000 then
    let t := (i - 0x8000) / 1024
    match h.tiles.toList.getD t none with
    | some x => put { h with tiles := h.tiles.set! t (some (x.setSlot ((i - 0x8000) % 1024 / 32) (i % 32) v)) }
    | none => none
  else if i = 0xA000 ∨ i = 0xA001 then
    some (match s.copyAt h (i - 0xA000) with
      | some c => s.writeProgress c v
      | none => s)
  else if 0xA100 ≤ i ∧ i < 0xA110 then (h.writeSlotWord (i - 0xA100) v).map s.setHart
  else if 0xA200 ≤ i ∧ i < 0xA240 then
    if i % 2 = 0 then s.windowBind h ((i - 0xA200) / 2) v else none
  else if 0xC000 ≤ i ∧ i < 0xE000 then
    ((h.window.bind fun w => w.writeWord (i - 0xC000) v).map fun w => { h with window := some w }).map s.setHart
  else none

/-- A read of pcdata by the Lantern (R371): the value, and the state with its status. -/
def State.readPcdata (s : State) (c : ClusterId) : Word × State :=
  let h := s.hartAt (s.selectedHart c)
  if h.run ≠ .parked then (0#64, s.setPcst c 1)
  else
    match s.readItem h (s.cluster c).pcidx.toNat with
    | some v => (v, s.setPcst c 0)
    | none => (0#64, s.setPcst c 2)

/-- The value of pcctl (R372). -/
def State.pcctl (s : State) (c : ClusterId) : Word :=
  let h := s.hartAt (s.selectedHart c)
  let parked := h.run == .parked
  setField (setField (setField 0#64 24 8 (if parked then h.parkCause else 0)) 16 1 (if parked then 1 else 0)) 8 4
    (s.cluster c).pcst

/-- PCDATA_WRITE (R371, R443). -/
def execPcdataWrite (c : ClusterId) (v : Word) (s : State) : Host.Outcome State Fault Refusal :=
  let h := s.hartAt (s.selectedHart c)
  if h.run ≠ .parked then .next (s.setPcst c 1)
  else
    match s.writeItem h (s.cluster c).pcidx.toNat v with
    | some t => .next (t.setPcst c 0)
    | none => .next (s.setPcst c 2)

/-! ## Commands (R372 to R374, R383) -/

/-- The copy commands that pre-emption had stopped go on (R387). -/
def State.restartCopies (s : State) (id : HartId) : State :=
  let mine := (s.core id.coreId).copies.filter fun c => c.hart == id && c.stopped
  (s.modCore id.coreId fun k => { k with copies := k.copies.map fun c =>
    if c.hart = id then { c with stopped := false } else c }).post (mine.map fun _ => .copyCompletion id 0)

/-- A parked hart reattaches its frame and goes on at its resume pc, in its stored privilege; a fault of the reattachment
leaves it parked with that fault (R378). -/
def resumeParked : M Unit := fun s =>
  match reattach s with
  | .ok _ t =>
    let h := { t.hart with run := .running, held := none, fetchBuf := [], pc := t.hart.resumePc }
    .ok () (({ t with hart := h }).restartCopies s.hart.id)
  | .error (.mem f) t => .ok () ((s.keepRequests t).takeTrap false f.trap s.hart.resumePc)
  | .error e t => .error e t

/-- A command on the selected hart that needs it parked. -/
def onParked (c : ClusterId) (m : M Unit) (s : State) : EStateM.Result Exit State Unit :=
  let id := s.selectedHart c
  if (s.hartAt id).run ≠ .parked then .ok () (s.setPcst c 1)
  else onHart id m (s.setPcst c 0)

/-- RESUME (R372). -/
def execResume (c : ClusterId) (s : State) : Host.Outcome State Fault Refusal :=
  runEvent (.resume c) (onParked c resumeParked) s

/-- A parked trap as the hart's own S mode sees it (R374, R382): consumed poison of a vector element or a matrix operand is
VECTOR-FAULT poison, and of a scalar access a load access fault. -/
def Hart.upcallTrap (h : Hart) : Hart :=
  let sub := fieldOf h.vfcause 0 8
  let h1 := { h with vfcause := setField h.vfcause 17 1 1 }
  if h.scause ≠ 48#64 then h1
  else if sub = 2 ∨ sub = 3 then { h1 with scause := 24#64, vfcause := setField (setField h1.vfcause 24 8 24) 0 8 8 }
  else if sub = 1 then { h1 with scause := 5#64 }
  else h1

/-- UPCALL (R374). -/
def execUpcall (c : ClusterId) (s : State) : Host.Outcome State Fault Refusal :=
  runEvent (.upcall c) (onParked c (modH fun h =>
    let h1 := h.upcallTrap
    h1.enterS (h1.scause.getLsbD 63) (fieldOf h1.scause 0 63))) s

/-- A hart parks at a scalar boundary with no CSR written (R372, R385). -/
def Hart.park (h : Hart) : Hart :=
  let d := if h.frame.isSome then h else h.detach
  { d with run := .parked, held := none, reservation := none, acquiring := [], marks := [], sleepTarget := none,
           deadline := none, resumePc := h.pc, parkCause := 255 }

/-- STOP's effect on a hart that is not parked: Held while a CPYC of it has joined a use (R385, R291). -/
def stopHart : M Unit := do
  let s ← get
  let id := s.hart.id
  if (s.core id.coreId).copies.any fun c => c.hart == id && c.joined then hold .copy
  modify fun s => ((s.abortTx 5 0).dropReads id).modCore id.coreId fun k => { k with copies := k.copies.map fun c =>
    if c.hart = id then { c with stopped := true } else c }
  modH Hart.park

/-- A hart that a STOP parks: it has work to go on with. -/
def RunState.stoppable (r : RunState) : Bool := r == .running || r == .paused || r == .sleeping || r == .halted

/-- STOP (R372, R385). -/
def execStop (c : ClusterId) (s : State) : Host.Outcome State Fault Refusal :=
  let id := s.selectedHart c
  if (s.hartAt id).run.stoppable then runEvent (.stop c) (onHart id stopHart) (s.setPcst c 0)
  else .next (s.setPcst c 0)

/-- The end of a launch without saving anything (R383, R351, R159). -/
def State.containLaunch (s : State) (launch : Nat) : State :=
  let gs := s.dev.gangs.filter fun g => g.launch == launch
  let s1 := gs.foldl (fun t g =>
    let lost := t.pendingOf g
    let t1 := g.harts.foldl (fun u id => u.faultGraphs id) t
    let t2 := { t1 with
      cores := t1.cores.map fun (x : CoreId × Core) =>
        (x.1, { x.2 with copies := x.2.copies.filter fun k => k.gang != some g.number })
      dev := { t1.dev with requests := t1.dev.requests.filter fun r =>
        !(((r.hart.orElse fun _ => r.engine).map g.harts.contains).getD false) } }
    let t3 := t2.freeGang g
    match t3.launch launch with
    | some l => t3.setLaunch { l with lost := l.lost + lost, contained := true }
    | none => t3) s
  let s2 := (List.range 4).foldl (fun t d => t.dropShare d launch) s1
  let s3 := match s2.launch launch with
    | some l => s2.setLaunch { l with contained := true }
    | none => s2
  s3.checkLaunch launch

/-- CONTAIN (R372, R383). -/
def execContain (c : ClusterId) (s : State) : Host.Outcome State Fault Refusal :=
  let h := s.hartAt (s.selectedHart c)
  if h.run ≠ .parked then .next (s.setPcst c 1)
  else
    match h.placed with
    | some p => .next ((s.setPcst c 0).containLaunch p.launch)
    | none => .next (s.setPcst c 0)

/-- A write of pcctl (R372): the command that its cmd field names. -/
def execPcctlWrite (c : ClusterId) (v : Word) (s : State) : Host.Outcome State Fault Refusal :=
  match fieldOf v 0 3 with
  | 1 => execResume c s
  | 2 => execUpcall c s
  | 3 => execContain c s
  | 4 => execStop c s
  | _ => .next (s.setPcst c 2)

/-! ## Ring service (R232) -/

/-- RING_SERVICE_RESUME (R232): the RRES executes again from the beginning. -/
def execRingServiceResume (h : HartId) (s : State) : Host.Outcome State Fault Refusal :=
  let s1 := s.modCluster h.clusterId fun k => { k with wakeup := k.wakeup.filter fun w => w.1 != h }
  if (s.hartAt h).run = .parked ∧ (s.cluster h.clusterId).wakeup.any (fun w => w.1 == h) then
    runEvent (.ringServiceResume h) (do
      onHart h resumeParked
      modify fun t => t.modCluster h.clusterId fun k => { k with wakeup := k.wakeup.filter fun w => w.1 != h }) s
  else .next s1

/-! ## Interrupts and traps at a boundary (R13, R364, R371) -/

/-- LANTERN_INTERRUPT (R371): what the Lantern's firmware makes of it is outside the device's instruction set. -/
def execLanternInterrupt (c : ClusterId) (cause : Word) (s : State) : Host.Outcome State Fault Refusal :=
  .next (s.modCluster c fun k => { k with irqs := k.irqs ++ [cause] })

/-- SUPERVISOR_TIMER_INTERRUPT (R13): time reaches the hart's stimecmp, which sets STIP. -/
def execSupervisorTimerInterrupt (h : HartId) (s : State) : Host.Outcome State Fault Refusal :=
  .next { s with dev := { s.dev with refTime := max s.dev.refTime (s.hartAt h).stimecmp.toNat } }

/-- SSISET_WRITE (R13): bit 8 × core + hart sets SSIP. -/
def execSsisetWrite (c : ClusterId) (v : Word) (s : State) : Host.Outcome State Fault Refusal :=
  .next (s.mapHarts fun h =>
    if h.id.clusterId = c ∧ v.getLsbD (8 * h.id.core + h.id.hart) then { h with ssip := true } else h)

/-- What is taken at a scalar boundary before the next instruction: a pending stream fault, else an interrupt (R366). -/
def State.boundary (s : State) : Option State :=
  if !s.hart.faults.isEmpty then some s.settle
  else s.pendingInterrupt.map s.takeInterrupt

/-- An uncorrectable error in a register file, tile, queue or frame buffer of a hart: it is counted, and the hart takes
POISON-CONSUMED sub-cause 5 (R382, R438). -/
def State.storageError (s : State) : State :=
  let t := s.modCluster s.hart.id.clusterId fun k => { k with
    errlog := setField k.errlog 32 16 (min 65535 (fieldOf k.errlog 32 16 + 1)) }
  ({ t with hart := { t.hart with marks := [], sleepTarget := none, deadline := none } } : State).fault
    { cause := 48, tval := 0#64, vf := some { pc := 0#64, stream := 0, sub := 5, addr := 0#64, vstart := none } } s.hart.pc

/-- TRAP_ENTRY (R364): the boundary of one hart, running or asleep, at which an error in its storage may have been found
(R382). -/
def execTrapEntry (p : TrapPoint) (s : State) : Host.Outcome State Fault Refusal :=
  let r := (s.hartAt p.hart).run
  if r = .running ∨ r = .sleeping ∨ r = .paused then
    .next (s.asHart p.hart fun t => if p.error then t.storageError else t.boundary.getD t)
  else .next s

end Sys2Proof.Machine
end

