-- ==== Sys2Proof/Machine/Shootdown.lean ====
section
/-! DEFINITION. Shootdowns (12 R263 to R267, R411): issue, acknowledgement, completion and timeout. Units 0 to 191 are the
Lanterns of the clusters and unit 192 is the host's. -/

namespace Sys2Proof.Machine

/-! ## The units -/

def hostUnit : Nat := 192

def State.shootdown (s : State) (unit : Nat) : Shootdown :=
  if unit = hostUnit then s.dev.hsd else (s.cluster (ClusterId.ofIndex unit)).sd

def State.setShootdown (s : State) (unit : Nat) (d : Shootdown) : State :=
  if unit = hostUnit then { s with dev := { s.dev with hsd := d } }
  else s.modCluster (ClusterId.ofIndex unit) fun k => { k with sd := d }

/-- The fields of sdctl. -/
def sdAsid (v : Word) : Nat := fieldOf v 48 16
def sdReach (v : Word) : Nat := fieldOf v 20 2
def sdKind (v : Word) : Nat := fieldOf v 16 2

/-- sdctl with an outcome. -/
def sdOutcome (v : Word) (st miss : Nat) : Word := setField (setField v 24 4 st) 32 11 miss

/-- The RW fields of a write to sdctl. -/
def sdWritten (old v : Word) : Word := (old &&& 0x7FF_0F00_0000#64) ||| (v &&& 0xFFFF_0000_0033_0000#64)

/-! ## Parties (R264, R265) -/

/-- A cluster lies in the reach of a shootdown issued from a unit. -/
def inReach (unit reach cluster : Nat) : Bool :=
  reach == 2 || unit == hostUnit || (reach == 1 && unit / 48 == cluster / 48) || unit == cluster

def coreParty (c : CoreId) : Nat := 8 * c.clusterId.index + c.core

/-- The parties that hold something or run: every other one holds nothing and acknowledges at once (R265). Walks end in
the step that starts them, so the walker pools are among those. -/
def State.parties (s : State) (unit reach : Nat) : List Nat :=
  let cores := (s.cores.map fun c => coreParty c.1) ++ s.harts.map fun h => coreParty h.id.coreId
  let tlbs := (s.clusters.filter fun c => !c.2.tlb.isEmpty).map fun c => 1536 + c.1.index
  ((cores.filter fun k => inReach unit reach (k / 8)) ++ tlbs.filter fun k => inReach unit reach (k - 1536)).eraseDups

/-! ## Issue (R263, R411) -/

/-- The shootdowns that are pending. -/
def State.broadcasts (s : State) : List Broadcast :=
  s.dev.hsd.issued.toList ++ s.clusters.filterMap fun c => c.2.sd.issued

/-- The place of a completion word, as a Lantern's stores are translated at the go write, and the state with what the walk
has done (R263). In machine mode it is a physical address; a word that does not translate has none. -/
def State.wordPlace (s : State) (die : Nat) (cword : Word) : Option StoreView → Option Nat × State
  | none => (some cword.toNat, s)
  | some w =>
    let asid := fieldOf w.satp 44 16
    let ctx (sbase : Word) : TransCtx :=
      { satp := w.satp, sbase := sbase, gang := none, priv := if w.user then .user else .supervisor, sum := w.sum, mxr := false,
        core := none, cluster := none, die := die, slice := 0, self := none }
    let r := match s.spaceOf asid with
      | some x => translate s (ctx x.sbase) cword .store
      | none =>
        match satpLevels w.satp with
        | some levels => if canonical levels cword then walk s (ctx 0#64) levels cword .store else .error (.page .store cword, s)
        | none => .error (.page .store cword, s)
    match r with
    | .ok (t, u) => (some t.pa, u)
    | .error (_, u) => (none, u)

/-- A write of sdctl or hsdctl with go = 1, reach r being refused, and the completion word at a place. -/
def State.issueShootdown (s : State) (unit : Nat) (v : Word) (badReach : Nat → Bool) (place : Option Nat) : State :=
  let d := s.shootdown unit
  let ctl := sdWritten d.ctl v
  if !v.getLsbD 0 then s.setShootdown unit { d with ctl := ctl }
  else if d.issued.isSome then s.setShootdown unit { d with ctl := sdOutcome ctl 3 (fieldOf ctl 32 11) }
  else if badReach (sdReach v) then s.setShootdown unit { d with ctl := sdOutcome ctl 4 (fieldOf ctl 32 11) }
  else
    let ps := s.parties unit (sdReach v)
    let b : Broadcast := { va := d.va, ctl := ctl, cword := place, silent := ps,
                           order := (s.broadcasts.map Broadcast.order).foldl max 0 + 1 }
    (s.setShootdown unit { d with ctl := sdOutcome ctl 1 (fieldOf ctl 32 11), issued := some b }).post
      (if ps.isEmpty then [.shootdownComplete unit] else ps.map fun k => .shootdownAcknowledge unit k)

/-- SHOOTDOWN_ISSUE (R263). -/
def execShootdownIssue (c : ClusterId) (v : SdctlWrite) (s : State) : Host.Outcome State Fault Refusal :=
  let w := s.wordPlace c.die (s.cluster c).sd.cword (if v.word.getLsbD 0 then v.view else none)
  .next (w.2.issueShootdown c.index v.word (fun r => r == 3) w.1)

/-- HOST_SHOOTDOWN_ISSUE (R411). -/
def execHostShootdownIssue (v : Word) (s : State) : Host.Outcome State Fault Refusal :=
  .next (s.issueShootdown hostUnit v (fun r => r != 2) (some s.dev.hsd.cword.toNat))

/-! ## Acknowledgement (R264) -/

/-- A TLB entry that the shootdown covers. -/
def Broadcast.covers (b : Broadcast) (e : TlbEntry) : Bool :=
  let page := b.va.toNat / 2 ^ e.bits * 2 ^ e.bits == e.va
  match sdKind b.ctl with
  | 0 => page && (e.glob || e.asid == sdAsid b.ctl)
  | 1 => !e.glob && e.asid == sdAsid b.ctl
  | 2 => true
  | _ => page

/-- An address lies in a page that an entry names, whichever copy of a read-duplicated page (R268). -/
def TlbEntry.holds (e : TlbEntry) (pa : Nat) : Bool :=
  if e.dup then (List.range 4).any fun d =>
    decide (e.target d (wordOf e.va) ≤ pa) && decide (pa < e.target d (wordOf e.va) + 2 ^ e.bits)
  else decide (e.pa ≤ pa) && decide (pa < e.pa + 2 ^ e.bits)

/-- The translations that a hart has used and not yet lost: those of the pages of its read set, write set and wake marks. -/
def Hart.pagesUsed (h : Hart) : List TlbEntry :=
  h.allMarks.filterMap Mark.page ++ ((h.tx.map Tx.writes).getD []).filterMap TxWrite.page

/-- A line lies in one of the covered pages. -/
def inPages (es : List TlbEntry) (line : Nat) : Bool := es.any fun e => e.holds (128 * line)

/-- What a shootdown of pages means to a hart of the core (R264): ready stream translations go, a transaction with a line of
them is doomed, a sleep with a mark in them ends. -/
def Hart.seesShootdown (h : Hart) (b : Broadcast) (es : List TlbEntry) : Hart :=
  let h0 := { h with st := h.st.map fun (r : StreamReg) =>
    { r with ready := r.ready.filter fun e => h.run != RunState.halted && !b.covers e } }
  let h1 := match h0.tx with
    | some t =>
      if t.reads.any (fun m => inPages es m.line) || t.writes.any (fun w => inPages es (w.sector / 4)) then
        { h0 with tx := some { t with doomed := true, doomVa := if t.doomed then t.doomVa else some b.va } }
      else h0
    | none => h0
  if h1.run == .sleeping && h1.marks.any (fun m => inPages es m.line) then h1.wake else h1

/-- The harts of a core. -/
def State.coreHarts (s : State) (c : CoreId) : List Hart := s.harts.filter fun h => h.id.coreId == c

/-- A request that an access of a core's harts or of its copy engine has still to be performed for: a write that is not
acknowledged, an atomic without its answer. -/
def State.unperformed (s : State) (c : CoreId) : Bool :=
  let mine (x : Option HartId) : Bool := (x.map fun h => h.coreId == c).getD false
  s.dev.requests.any fun r => (mine r.hart || mine r.engine) && (r.write || (r.amo && r.data.isNone))

/-- A hart has an element of a store stream that is translated and not performed. -/
def Hart.hasAppended (h : Hart) : Bool := h.st.toList.any fun r => r.appended.any fun e => e.pa.isSome

/-- The appended elements of a hart are performed; those that cannot be translate again (R264). -/
def performTranslated : M Unit := do
  ifItCan (forM' performAppended (List.range 16))
  modH fun h => { h with st := h.st.map fun r => { r with appended := r.appended.map fun e => { e with pa := none } } }

/-- A core's part once its elements are performed: its trains have left, what it has written has arrived, and its entries are
dropped; a core that the debugger has halted drops them all (R264, R265). -/
def coreDrops (b : Broadcast) (c : CoreId) : M Unit := do
  let s ← get
  if s.unperformed c || (s.coreHarts c).any fun h => !h.trains.isEmpty then hold .release
  forM' (fun (h : Hart) => onHart h.id (releaseOf 5 false)) (s.coreHarts c)
  modify fun s =>
    let es := ((s.core c).tlb ++ (s.cluster c.clusterId).tlb ++ (s.coreHarts c).flatMap Hart.pagesUsed).filter b.covers
    let halted := (s.coreHarts c).any fun h => h.run == .halted
    (s.mapHarts fun h => if h.id.coreId = c then h.seesShootdown b es else h).modCore c fun k =>
      { k with tlb := k.tlb.filter fun e => !halted && !b.covers e }

/-- The core of a party's number. -/
def partyCore (k : Nat) : CoreId := { die := k / 384, cluster := k / 8 % 48, core := k % 8 }

/-- A party's acknowledgement arrives; the last one completes the shootdown. -/
def State.acknowledged (s : State) (unit party : Nat) (b : Broadcast) : State :=
  let rest := b.silent.filter fun k => k != party
  let t := s.setShootdown unit { s.shootdown unit with issued := some { b with silent := rest } }
  if rest.isEmpty then t.post [.shootdownComplete unit] else t

/-- SHOOTDOWN_ACKNOWLEDGE (R264). A party acts on shootdowns in the order in which they were broadcast
(R267); a core first performs the elements of store streams that its harts have translated. -/
def execShootdownAcknowledge (unit party : Nat) (s : State) : Host.Outcome State Fault Refusal :=
  match (s.shootdown unit).issued with
  | none => .next s
  | some b =>
    if !b.silent.contains party then .next s
    else
      let c := partyCore party
      let busy := if party < 1536 then (s.coreHarts c).filter Hart.hasAppended else []
      runEvent (.shootdownAcknowledge unit party) (do
        if s.broadcasts.any fun o => decide (o.order < b.order) && o.silent.contains party then hold .release
        if !busy.isEmpty then
          forM' (fun (h : Hart) => onHart h.id performTranslated) busy
          modify fun s => s.post [.shootdownAcknowledge unit party]
        else
          if party < 1536 then coreDrops b c
          else modify fun s => s.modCluster (ClusterId.ofIndex (party - 1536)) fun k =>
            { k with tlb := k.tlb.filter fun e => !b.covers e }
          modify fun s => s.acknowledged unit party b) s

/-! ## Completion (R263, R266, R411) -/

/-- The party of a completion word: a machine-mode store, by physical address. -/
def deviceParty : Party :=
  { ctx := { satp := 0#64, sbase := 0#64, gang := none, priv := .supervisor, sum := false, mxr := false, core := none,
             cluster := none, die := 0, slice := 0, self := none },
    self := none, plain := true }

/-- A host's completion word must lie in HBM; a Lantern's lies where its stores may go. -/
def wordAllowed (unit : Nat) (pa : Nat) : Bool :=
  match region pa with
  | .hbm _ => true
  | _ => unit != hostUnit

/-- A shootdown ends with a status and the lowest silent core. -/
def endShootdown (unit st miss : Nat) : M Unit := do
  let s ← get
  let d := s.shootdown unit
  let v := setField (setField 0#64 0 4 st) 32 11 miss
  match d.issued.bind Broadcast.cword with
  | some pa => if wordAllowed unit pa then ifItCan (storePa deviceParty (wordOf pa) pa 8 v.toNat (pa % 8 == 0))
  | none => pure ()
  modify fun s =>
    let t := s.setShootdown unit { d with ctl := sdOutcome d.ctl st miss, issued := none }
    if unit = hostUnit then t.writeHostBeacon true 254 v else t

/-- SHOOTDOWN_COMPLETE (R263). -/
def execShootdownComplete (unit : Nat) (s : State) : Host.Outcome State Fault Refusal :=
  match (s.shootdown unit).issued with
  | some b => if b.silent.isEmpty then runEvent (.shootdownComplete unit) (endShootdown unit 0 0) s else .next s
  | none => .next s

/-- The interrupt word of a machine check, by its cause (log entry 30). -/
def machineCheck (code : Nat) : Word := wordOf (192 + code)

/-- The core that a timeout names: the lowest silent one, a silent cluster TLB standing for its cluster's first. -/
def lowestSilent (l : List Nat) : Nat :=
  (l.map fun k => if k < 1536 then k else 8 * (k - 1536)).foldl min 1535

/-- SHOOTDOWN_TIMEOUT (R266): an acknowledgement is missing at the deadline. -/
def execShootdownTimeout (unit : Nat) (s : State) : Host.Outcome State Fault Refusal :=
  match (s.shootdown unit).issued with
  | none => .next s
  | some b =>
    if b.silent.isEmpty then .next s
    else
      let miss := lowestSilent b.silent
      runEvent (.shootdownTimeout unit) (do
        endShootdown unit 2 miss
        modify fun s =>
          let t := s.post ((b.silent.filter fun k => decide (k < 1536)).map fun k => .coreFreeze (partyCore k))
          if unit = hostUnit then t.writeHostBeacon true 255 (setField (setField 0#64 0 4 2) 32 11 miss)
          else t.interruptLantern (ClusterId.ofIndex unit) (machineCheck 0)) s

end Sys2Proof.Machine
end

