-- ==== Sys2Proof/Machine/Banks.lean ====
section
/-! DEFINITION. Bank modes, the ring table and the fabric's sweeps (11 R218, R241 to R243, R250). -/

namespace Sys2Proof.Machine

/-! ## Bank modes (R241 to R243) -/

/-- Why a requested switch is refused: 1 BUSY, 2 VREG, 3 MIN; none where it is made. -/
def State.refusal (s : State) (c : ClusterId) (b new : Nat) : Option Nat :=
  let k := s.cluster c
  let old := fieldOf k.bankmode (2 * b) 2
  let gs := s.dev.gangs.filter fun g => g.die == c.die && g.cluster == c.cluster
  if old = 3 ∨ new = 3 then some 2
  else if old = 0 then
    if k.setAside.any fun e => e.bank == b then some 2
    else if (s.view c).takeable b then none else some 3
  else if old = 1 then
    if gs.any fun g => g.units.any fun u => u.1 == b / 4 then some 1 else none
  else if gs.any (fun g => g.banks.contains b) || s.physLoad (ringTableEntry c.index (2 * b)) 128 != 0 then some 1
  else none

/-- Switches one bank: what it held is discarded, and it is zeroed before it is used. The Lantern holds it while it is in
SCRATCH or FIFO mode. -/
def State.switchBank (s : State) (c : ClusterId) (b new : Nat) : State :=
  (s.wipeBank c b).modCluster c fun k => { k with
    bankmode := setField k.bankmode (2 * b) 2 new,
    lanternBanks := if new = 0 then k.lanternBanks.filter fun x => x != b else k.lanternBanks ++ [b] }

/-- The switches of one write, the lowest bank first; the first refusal is what bankctl shows. -/
def State.switchBanks (s : State) (c : ClusterId) (v : Word) : List Nat → Option (Nat × Nat) → State × Option (Nat × Nat)
  | [], r => (s, r)
  | b :: l, r =>
    let new := fieldOf v (2 * b) 2
    if fieldOf (s.cluster c).bankmode (2 * b) 2 = new then s.switchBanks c v l r
    else
      match s.refusal c b new with
      | some why => s.switchBanks c v l (if r.isNone then some (b, why) else r)
      | none => (s.switchBank c b new).switchBanks c v l r

/-- BANKMODE_WRITE (R241): banks that return to CACHE may let a gang fit. -/
def execBankmodeWrite (c : ClusterId) (v : Word) (s : State) : Host.Outcome State Fault Refusal :=
  let r := s.switchBanks c v (List.range 32) none
  let st := match r.2 with
    | some (b, why) => setField (setField 0#64 8 5 b) 16 4 why
    | none => 0#64
  .next ((r.1.modCluster c fun k => { k with bankst := st }).post [.place c.die])

/-! ## The ring table (R218) -/

/-- RING_TABLE_WRITE (R218): a naturally aligned store of 1, 2, 4 or 8 bytes that no compute hart makes. -/
def execRingTableWrite (c : ClusterId) (offset : Nat) (data : List Byte) (s : State) :
    Host.Outcome State Fault Refusal :=
  if natAligned offset data.length ∧ offset < 4096 then
    .next (s.storeRingTable deviceParty none (ringTableEntry c.index 0 + offset) data.length (bytesToNat data) c.index
      (offset / 64) (offset % 64))
  else .next s

/-! ## The fabric (R250) -/

/-- FABRIC_SWEEP (R250): a program sees its latency alone, and the model has none to see (log entry 6). -/
def execFabricSweep (_die : Nat) (s : State) : Host.Outcome State Fault Refusal := .next s

end Sys2Proof.Machine
end

