-- ==== Sys2Proof/Machine/Peers.lean ====
section
/-! DEFINITION. Peers and the host (19 R399 to R411): inbound accesses, answers to this device's own requests, links that
go down, the host's memory accesses, beacons and interrupts. -/

namespace Sys2Proof.Machine

/-! ## Accesses that come in (R400, R401, R408) -/

/-- An address that a peer or the host reaches: HBM, or the aperture of a bank that serves it (R246). -/
def State.inboundOk (s : State) (pa : Nat) : Bool :=
  match region pa with
  | .hbm _ => true
  | .aperture c off => s.apertureOpen c off
  | _ => false

def State.send (s : State) (o : Output) : State := { s with dev := { s.dev with outputs := s.dev.outputs ++ [o] } }

/-- What an atomic that a peer names does (R93, R186, R188, R189, R193). -/
def remoteRmw (op size : Nat) (v w : Word) (old : Nat) : Option Nat :=
  let bits := 8 * size
  let d := v.toNat % 2 ^ bits
  let mode : EncMode := { rm := 0, ftz := false, sat := false, nanprop := false }
  if op < 256 then
    match op with
    | 0 => some d
    | 1 => some ((old + d) % 2 ^ bits)
    | 2 => some (old ^^^ d)
    | 3 => some (old &&& d)
    | 4 => some (old ||| d)
    | 5 => some (amoMin bits old d)
    | 6 => some (amoMax bits old d)
    | 7 => some (min old d)
    | 8 => some (max old d)
    | 9 => some (if d ≤ old then 0 else old + 1)
    | _ => if old + d ≤ w.toNat % 2 ^ bits then some (old + d) else none
  else if op < 512 then
    (regFmt (palFa w)).map fun f => (vamoNew bits (op.testBit 7) w (op / 16 % 8) (op % 16) f old d).1
  else (winFmt w).map fun f => (winCombine w mode f old d).1

/-- PEER_ACCESS (R400, R401): performed at this device's home for every party at once. -/
def execPeerAccess (a : PeerRequest) (s : State) : Host.Outcome State Fault Refusal :=
  match a with
  | .read off n =>
    .next (if s.inboundOk off then s.send (.readData (lowBytes n (s.physLoad off n)) (s.poisoned off n)) else s.send .abort_)
  | .write off data =>
    if s.inboundOk off then
      runEvent (.peerAccess a) (do
        plainWrite deviceParty off data.length (bytesToNat data)
        modify fun s => s.send .peerAck) s
    else .next (s.send .abort_)
  | .amo off n op v w =>
    if !s.inboundOk off || off % n != 0 then .next (s.send .abort_)
    else if s.poisoned off n then .next (s.send (.readData (lowBytes n (s.physLoad off n)) true))
    else
      runEvent (.peerAccess a) (do
        let old := (← get).physLoad off n
        match remoteRmw op n v w old with
        | some new => plainWrite deviceParty off n new
        | none => pure ()
        modify fun s => s.send (.peerData (wordOf old))) s

/-- The address of a BAR2 offset, where the BAR and HBM have it (R407, R408). -/
def State.barAddr (s : State) (off n : Nat) : Option Nat :=
  let o := fieldOf s.dev.bar2ctl 30 10 * 2 ^ 30 + off
  if off + n ≤ Config.bar2Gib * 2 ^ 30 ∧ o + n ≤ 768 * 2 ^ 30 then some (0x10_0000_0000 + o) else none

/-- HOST_MEMORY_WRITE (R408): a write outside HBM is Ignored (R405). -/
def execHostMemoryWrite (off : Nat) (data : List Byte) (s : State) : Host.Outcome State Fault Refusal :=
  match s.barAddr off data.length with
  | some pa => runEvent (.hostMemoryWrite off data) (plainWrite deviceParty pa data.length (bytesToNat data)) s
  | none => .next s

/-- HOST_MEMORY_READ (R408): reads 0 outside HBM (R405). -/
def execHostMemoryRead (off n : Nat) (s : State) : Host.Outcome State Fault Refusal :=
  match s.barAddr off n with
  | some pa => .next (s.send (.readData (lowBytes n (s.physLoad pa n)) (s.poisoned pa n)))
  | none => .next (s.send (.readData (List.replicate n 0#8) false))

/-! ## Answers to requests (R401, R408) -/

/-- The answer to request number id: a write is acknowledged, a read or an atomic gets its data. -/
def State.answer (s : State) (id : Nat) (data : List Byte) : State :=
  let f := fun (r : RemoteRequest) =>
    if r.id = id ∧ !r.write ∧ !r.dropped ∧ data.length = r.size then { r with data := some (bytesToNat data) } else r
  { s with dev := { s.dev with
    requests := (s.dev.requests.filter fun r => !(r.id == id && r.write && !r.dropped)).map f } }

/-- PEER_RESPONSE (R401). -/
def execPeerResponse (id : Nat) (data : List Byte) (s : State) : Host.Outcome State Fault Refusal :=
  .next (s.answer id data)

/-- HOST_READ_COMPLETION (R408). -/
def execHostReadCompletion (id : Nat) (data : List Byte) (s : State) : Host.Outcome State Fault Refusal :=
  .next (s.answer id data)

/-- A request is to a device. -/
def RemoteRequest.isTo (r : RemoteRequest) (device : Nat) : Bool :=
  match region r.pa with
  | .peer d _ => d == device
  | _ => false

/-- The interrupt word of a link-down (log entry 30). -/
def linkDownWord (device : Nat) : Word := setField (wordOf 224) 32 11 device

/-- LINK_DOWN (R403): outstanding reads complete with poison, writes and atomics are dropped, and the Lanterns of the
clusters that asked are told. -/
def execLinkDown (device : Nat) (s : State) : Host.Outcome State Fault Refusal :=
  let mine := s.dev.requests.filter fun r => r.isTo device
  let f := fun (r : RemoteRequest) =>
    if r.isTo device then
      (if r.write || r.amo then { r with dropped := true } else { r with poison := true, data := some 0 })
    else r
  let told := ((mine.filterMap fun r => r.hart.orElse fun _ => r.engine).map HartId.clusterId).eraseDups
  .next ({ s with dev := { s.dev with requests := s.dev.requests.map f } }.post
    (told.map fun c => .lanternInterrupt c (linkDownWord device)))

/-! ## Element trains (R187, R402) -/

/-- ELEMENT_TRAIN (R402). -/
def execElementTrain (h : HartId) (s : State) : Host.Outcome State Fault Refusal :=
  if (s.hartAt h).trains.isEmpty then .next s else runEvent (.elementTrain h) (onHart h performTrain) s

/-- TRAIN_ACKNOWLEDGEMENT (R187). -/
def execTrainAcknowledgement (h : HartId) (s : State) : Host.Outcome State Fault Refusal :=
  if (s.hartAt h).trains.isEmpty then .next s else runEvent (.trainAcknowledgement h) (onHart h acknowledgeTrain) s

/-! ## Beacons, interrupts and the BAR (R407, R409) -/

/-- HOST_BEACON_WRITE (R409). -/
def execHostBeaconWrite (b : Nat) (v : Word) (s : State) : Host.Outcome State Fault Refusal :=
  .next (if b < 256 then s.writeHostBeacon false b v else s)

/-- The mask bit of an MSI-X entry; an entry unmasked with its bit pending sends its message. -/
def Device.maskMsix (d : Device) (vector : Nat) (mask : Bool) : Device :=
  let old := (d.msix.find? fun v => v.vector == vector).getD
    { vector := vector, addr := 0#64, data := 0#32, masked := true, pending := false }
  let send := old.pending && !mask
  let new := { old with masked := mask, pending := old.pending && mask }
  { d with
    msix := (d.msix.filter fun v => v.vector != vector) ++ [new],
    outputs := d.outputs ++ (if send then [.msix vector] else []) }

/-- MSIX_UNMASK (R409). -/
def execMsixUnmask (vector : Nat) (s : State) : Host.Outcome State Fault Refusal :=
  .next (if vector < 256 then { s with dev := s.dev.maskMsix vector false } else s)

/-- BAR2CTL_WRITE (R407). -/
def execBar2ctlWrite (v : Word) (s : State) : Host.Outcome State Fault Refusal :=
  let base := fieldOf v 30 10
  if base % Config.bar2Gib ≠ 0 ∨ 768 < base + Config.bar2Gib ∨ 4 < fieldOf v 0 3 then .next s
  else .next { s with dev := { s.dev with bar2ctl := v &&& 0xFF_C000_0007#64 } }

end Sys2Proof.Machine
end

