-- ==== Sys2Proof/Machine/Trust.lean ====
section
/-! DEFINITION. The root of trust: the firmware image, the attestation log and the SPDM responder (19 R412, 21 R430 to
R432). The layouts of the SPDM messages are those of DMTF DSP0274 1.2 (log entry 31). -/

namespace Sys2Proof.Machine

/-! ## Firmware images (R431) -/

def imageMagic (b : List Byte) : Nat := pkt b 0 4
def imageSvn (b : List Byte) : Nat := pkt b 4 4
def imageKey (b : List Byte) : List Byte := (b.drop 12).take 1793
def imageSignature (b : List Byte) : List Byte := (b.drop 1805).take 1280
def imageBody (b : List Byte) : List Byte := (b.drop 3085).take (pkt b 8 4)

/-- The digest that an image's signature signs: its header without the signature, and its body. -/
def imageDigest (b : List Byte) : List Byte := Config.shake256 64 (b.take 1805 ++ imageBody b)

/-- An image is accepted. -/
def imageAccepted (b : List Byte) : Bool :=
  imageMagic b == 0x574D_4651 && Config.shake256 64 (imageKey b) == Config.keyFuse &&
  Config.falconVerify (imageKey b) (imageDigest b) (imageSignature b) && decide (Config.svnFuse ≤ imageSvn b)

/-! ## Boot (R430) and the attestation log (R432) -/

/-- The firmware image that boot takes: slot A, else slot B; none in recovery. -/
def bootImage : Option (List Byte) :=
  if imageAccepted (Config.bootFlash false) then some (Config.bootFlash false)
  else if imageAccepted (Config.bootFlash true) then some (Config.bootFlash true)
  else none

/-- Entries 0 and 1: the ROM and the image, a failure showing the image of slot B. -/
def bootLog : List LogEntry :=
  let e1 : LogEntry := match bootImage with
    | some b => { stage := 1, status := 0, svn := imageSvn b, digest := Config.shake256 64 b }
    | none => { stage := 1, status := 1, svn := imageSvn (Config.bootFlash true), digest := Config.shake256 64 (Config.bootFlash true) }
  [{ stage := 0, status := 0, svn := 0, digest := Config.romDigest }, e1]

/-- The chain field after a list of entries, the newest first: 56 zero bytes before entry 0. -/
def logChain : List LogEntry → List Byte
  | [] => List.replicate 56 0#8
  | e :: l => (Config.shake256 64 (logChain l ++ e.digest)).take 56

/-- The 128 bytes of entry i. -/
def logEntryBytes (l : List LogEntry) (i : Nat) : List Byte :=
  match l[i]? with
  | some e => lowBytes 2 i ++ lowBytes 1 e.stage ++ lowBytes 1 e.status ++ lowBytes 4 e.svn ++ e.digest.take 64 ++
      logChain (l.take (i + 1)).reverse
  | none => []

def logBytes (l : List LogEntry) : List Byte := (List.range l.length).flatMap (logEntryBytes l)

/-- ATTESTATION_LOG_APPEND (R432): the 65th measurement is refused, with Status FULL. -/
def execAttestationLogAppend (e : LogEntry) (s : State) : Host.Outcome State Fault Refusal :=
  .next (if 64 ≤ s.dev.log.length then s.send .logFull else { s with dev := { s.dev with log := s.dev.log ++ [e] } })

/-! ## SPDM (R412) -/

/-- The message header: version 1.2, code and two parameters. -/
def spdmMessage (code p1 p2 : Nat) (body : List Byte) : List Byte :=
  lowBytes 1 0x12 ++ lowBytes 1 code ++ lowBytes 1 p1 ++ lowBytes 1 p2 ++ body

/-- ERROR with its code. -/
def spdmError (code : Nat) : List Byte := spdmMessage 0x7F code 0 []

/-- The mailbox holds a response, and the transcript both messages. -/
def State.respond (s : State) (req resp : List Byte) : State :=
  { s with dev := { s.dev with mailbox := resp, spdm := s.dev.spdm ++ req ++ resp } }

/-- A response that ends in a signature over the transcript with itself. -/
def State.respondSigned (s : State) (req resp : List Byte) : State :=
  s.respond req (resp ++ Config.falconSign (Config.shake256 64 (s.dev.spdm ++ req ++ resp)))

/-- A nonce: 32 free bytes. -/
def State.nonce (s : State) : List Byte × State :=
  let r := s.freeValue 256
  (lowBytes 32 r.1, r.2)

def chainDigest : List Byte := Config.shake256 64 Config.identityChain

/-- GET_VERSION: it begins a transcript. -/
def execGetVersion (req : List Byte) (s : State) : Host.Outcome State Fault Refusal :=
  .next (({ s with dev := { s.dev with spdm := [] } } : State).respond req
    (lowBytes 1 0x10 ++ lowBytes 1 0x04 ++ lowBytes 2 0 ++ lowBytes 1 0 ++ lowBytes 1 1 ++ lowBytes 2 0x1200))

/-- GET_CAPABILITIES: certificates, challenges and signed measurements; no secure session. -/
def execGetCapabilities (req : List Byte) (s : State) : Host.Outcome State Fault Refusal :=
  .next (s.respond req (spdmMessage 0x61 0 0
    ((Config.spdmBytes 0).take 4 ++ lowBytes 4 0x16 ++ ((Config.spdmBytes 0).drop 4).take 8)))

/-- NEGOTIATE_ALGORITHMS: Falcon-1024 over SHAKE256 in the extended fields. -/
def execNegotiateAlgorithms (req : List Byte) (s : State) : Host.Outcome State Fault Refusal :=
  .next (s.respond req (spdmMessage 0x63 0 0 (Config.spdmBytes 1)))

/-- GET_DIGESTS: slot 0. -/
def execGetDigests (req : List Byte) (s : State) : Host.Outcome State Fault Refusal :=
  .next (s.respond req (spdmMessage 0x01 0 1 chainDigest))

/-- GET_CERTIFICATE: a portion of the chain of slot 0, by offset and length. -/
def execGetCertificate (req : List Byte) (s : State) : Host.Outcome State Fault Refusal :=
  let off := pkt req 4 2
  let part := (Config.identityChain.drop off).take (pkt req 6 2)
  .next (s.respond req (if pkt req 2 1 ≠ 0 then spdmError 0x01
    else spdmMessage 0x02 0 0 (lowBytes 2 part.length ++
      lowBytes 2 (Config.identityChain.length - off - part.length) ++ part)))

/-- CHALLENGE: the chain's digest, a nonce, the summary of the log, signed. -/
def execChallenge (req : List Byte) (s : State) : Host.Outcome State Fault Refusal :=
  if pkt req 2 1 ≠ 0 then .next (s.respond req (spdmError 0x01))
  else
    let n := s.nonce
    .next (n.2.respondSigned req (spdmMessage 0x03 0 1
      (chainDigest ++ n.1 ++ Config.shake256 64 (logBytes s.dev.log) ++ lowBytes 2 0)))

/-- The measurement block of entry i. -/
def measurementBlock (l : List LogEntry) (i : Nat) : List Byte :=
  let e := logEntryBytes l i
  lowBytes 1 (i + 1) ++ lowBytes 1 1 ++ lowBytes 2 (e.length + 3) ++ lowBytes 1 (pkt e 2 1) ++ lowBytes 2 e.length ++ e

/-- GET_MEASUREMENTS: no entry, entry p2 or every entry of the log; signed if bit 0 of the first parameter asks for
it. -/
def execGetMeasurements (req : List Byte) (s : State) : Host.Outcome State Fault Refusal :=
  let l := s.dev.log
  let k := pkt req 3 1
  let ids := if k = 0 then [] else if k = 255 then List.range l.length else (List.range l.length).filter fun i => i + 1 == k
  let body := ids.flatMap (measurementBlock l)
  let n := s.nonce
  let resp := spdmMessage 0x60 (if k = 0 then l.length else 0) 0
    (lowBytes 1 ids.length ++ lowBytes 3 body.length ++ body ++ n.1 ++ lowBytes 2 0)
  .next (if (pkt req 2 1).testBit 0 then n.2.respondSigned req resp else n.2.respond req resp)

/-- Any other request: UnsupportedRequest, with its code. -/
def execUnsupportedRequest (req : List Byte) (s : State) : Host.Outcome State Fault Refusal :=
  .next (s.respond req (spdmMessage 0x7F 0x07 (pkt req 1 1) []))

/-- DOE_ABORT: the message in progress is discarded. -/
def execDoeAbort (s : State) : Host.Outcome State Fault Refusal :=
  .next { s with dev := { s.dev with mailbox := [] } }

end Sys2Proof.Machine
end

