-- ==== Sys2Proof/Machine/Expansion.lean ====
section
/-! DEFINITION. Features and the decode expansion table (20 R420, R427, 03 R75). -/

namespace Sys2Proof.Machine

/-- FEATEN_WRITE (R420): a bit that the fuses do not grant stays 0. -/
def execFeatenWrite (c : ClusterId) (v : Word) (s : State) : Host.Outcome State Fault Refusal :=
  .next (s.modCluster c fun k => { k with featen := v.extractLsb' 0 11 &&& Config.featureFuse })

/-- The combination that dxsel selects. -/
def Cluster.dxGroup (k : Cluster) : BitVec 3 := k.dxsel.extractLsb' 6 3
def Cluster.dxOp (k : Cluster) : BitVec 6 := k.dxsel.extractLsb' 0 6

/-- The entry of a combination. -/
def Cluster.expansion (k : Cluster) (grp : BitVec 3) (op : BitVec 6) : Word :=
  ((k.dxtable.find? fun e => e.grp == grp && e.op == op).map DxEntry.word).getD 0#64

/-- DXENT_WRITE (R427): a combination that R75 does not call experimental is left as it is, with st RESERVED. -/
def execDxentWrite (c : ClusterId) (v : Word) (s : State) : Host.Outcome State Fault Refusal :=
  .next (s.modCluster c fun k =>
    if experimental k.dxGroup k.dxOp then
      { k with
        dxst := 0,
        dxtable := (k.dxtable.filter fun e => !(e.grp == k.dxGroup && e.op == k.dxOp)) ++
          [{ grp := k.dxGroup, op := k.dxOp, word := v &&& 0xE000_0000_FFFF_FFFF#64 }] }
    else { k with dxst := 1 })

/-- The stream that executes an experimental combination, 1 vector, 2 matrix, 3 copy or 0 scalar; none where the table does
not define it (R26, R75, R427). -/
def State.expansionStream (s : State) (grp : BitVec 3) (op : BitVec 6) : Option Nat :=
  let e := (s.cluster s.hart.id.clusterId).expansion grp op
  if e.getLsbD 63 then some ((fieldOf e 61 2 + 1) % 4) else none

end Sys2Proof.Machine
end

