-- ==== Sys2Proof/Machine/DeviceOps.lean ====
section
/-! DEFINITION. Resets, clocks, freezes, debug, budgets and the plain registers of the device (07 R172, 21 R429 to
R441, R3). -/

namespace Sys2Proof.Machine

/-! ## Resets (R429, R430) -/

/-- The device after a reset and the boot ROM's work: what was sent out and what has been drawn of the free values are no
state of the device. -/
def State.rebooted (s : State) (mem : Memory) (poison : List Nat) (images : List (Frame × List Byte)) : State :=
  { State.reset with
    mem := mem, poison := poison, free := s.free,
    dev := { Device.reset with
      log := bootLog, boot := if bootImage.isSome then .running else .recovery, outputs := s.dev.outputs,
      images := images } }

/-- COLD_RESET (R429): the boot ROM clears HBM (R430). -/
def execColdReset (s : State) : Host.Outcome State Fault Refusal := .next (s.rebooted [] [] [])

/-- A host request that waits for its answer. -/
def isHostRead (i : Instr) : Bool :=
  match i with
  | .hostMemoryRead _ _ => true
  | _ => false

/-- A cell of HBM. -/
def inHbm (a : Nat) : Bool :=
  match region a with
  | .hbm _ => true
  | _ => false

/-- WARM_RESET (R429): HBM keeps its contents and its poison; every outstanding host request completes with a completer
abort. -/
def execWarmReset (s : State) : Host.Outcome State Fault Refusal :=
  let aborted := (s.inbox.filter isHostRead).map fun _ => Output.abort_
  let t := s.rebooted (s.mem.filter fun c => inHbm c.1) (s.poison.filter fun k => inHbm (32 * k)) s.dev.images
  .next { t with dev := { t.dev with outputs := t.dev.outputs ++ aborted } }

/-! ## Freezes (R433, R435, R439) -/

def State.freezeDevice (s : State) : State := { s with dev := { s.dev with boot := .frozen } }

/-- FREEZE (R435): only a reset follows it. -/
def execFreeze (s : State) : Host.Outcome State Fault Refusal := .next s.freezeDevice

/-- THERMAL_TRIP (R433): freeze, then warm reset. -/
def execThermalTrip (s : State) : Host.Outcome State Fault Refusal := .next (s.freezeDevice.post [.warmReset])

/-- Contains every launch with a gang that a test holds of. -/
def State.containGangs (s : State) (f : Gang → Bool) : State :=
  (((s.dev.gangs.filter f).map Gang.launch).eraseDups).foldl (fun t l => t.containLaunch l) s

/-- CORE_FREEZE (R435). -/
def execCoreFreeze (c : CoreId) (s : State) : Host.Outcome State Fault Refusal :=
  .next ((s.modCore c fun k => { k with frozen := true }).containGangs fun g => g.harts.any fun h => h.coreId == c)

/-- LOCKSTEP_MISMATCH (R439): what beacon 255 then holds is free. -/
def execLockstepMismatch (c : ClusterId) (s : State) : Host.Outcome State Fault Refusal :=
  let t := (s.modCluster c fun k => { k with stopped := true }).containGangs fun g => g.die == c.die && g.cluster == c.cluster
  let r := t.freeValue 64
  .next (r.2.writeHostBeacon true 255 (wordOf r.1))

/-! ## Clock and power (R433) -/

/-- POWER_LIMIT_WRITE (R433): 1,200 to 2,900 W. -/
def execPowerLimitWrite (watts : Nat) (s : State) : Host.Outcome State Fault Refusal :=
  .next (if 1200 ≤ watts ∧ watts ≤ 2900 then { s with dev := { s.dev with watts := watts } } else s)

/-- CLOCK_STEP (R433): 100 MHz up or down between 1.0 and 2.0 GHz. -/
def execClockStep (up : Bool) (s : State) : Host.Outcome State Fault Refusal :=
  .next { s with dev := { s.dev with mhz := if up then min 2000 (s.dev.mhz + 100) else max 1000 (s.dev.mhz - 100) } }

/-! ## Debug (R440) -/

/-- DEBUG_HALT (R440): a sleeping hart loses its registration, as at an interrupt. -/
def execDebugHalt (h : HartId) (s : State) : Host.Outcome State Fault Refusal :=
  .next (if Config.debugEnabled then
    s.modHart h fun k =>
      if k.run == .running || k.run == .paused || k.run == .sleeping then
        { k with run := .halted, marks := [], sleepTarget := none, deadline := none }
      else k
  else s)

/-- DEBUG_RESUME (R440). -/
def execDebugResume (h : HartId) (s : State) : Host.Outcome State Fault Refusal :=
  .next (s.modHart h fun k => if k.run = .halted then { k with run := .running } else k)

/-! ## Errors (R438) -/

/-- ERRLOG_READ (R3, R438): the read returns the counts and then clears them. -/
def execErrlogRead (c : ClusterId) (s : State) : Host.Outcome State Fault Refusal :=
  let t := s.modCluster c fun k => { k with errlog := 0#64 }
  .next { t with dev := { t.dev with outputs := t.dev.outputs ++ [.csrValue (s.cluster c).errlog] } }

/-! ## Budgets (R172, R434) -/

/-- The budget that budsel selects, as (unit, class, sub); none for an invalid selection. -/
def budgetOf (sel : Word) : Option (Nat × Nat × Nat) :=
  let unit := fieldOf sel 8 4
  let sub := fieldOf sel 0 4
  let ok := match unit with
    | 0 => decide (sub < 8)
    | 1 => sub == 0
    | 2 => decide (sub < 4)
    | 3 => sub == 0
    | _ => false
  if ok then some (unit, fieldOf sel 4 4, sub) else none

/-- The limit that a write stores. -/
def budgetLimit (unit : Nat) (v : Word) : Nat := if unit = 0 then min 131072 (fieldOf v 0 48) else fieldOf v 0 48

/-- A budget at reset. -/
def Budget.reset (unit cls sub : Nat) : Budget :=
  { unit := unit, cls := cls, sub := sub, limit := if unit = 0 then 131072 else 2 ^ 48 - 1, slack := false,
    pending := none, used := 0 }

def Budget.isFor (b : Budget) (unit cls sub : Nat) : Bool := b.unit == unit && b.cls == cls && b.sub == sub

/-- A cluster's budget. -/
def Cluster.budget (k : Cluster) (unit cls sub : Nat) : Budget :=
  (k.budgets.find? fun b => b.isFor unit cls sub).getD (Budget.reset unit cls sub)

/-- BUDVAL_WRITE (R434): takes effect at the next tick boundary; unit 1 is held once per die, by its cluster 0. -/
def execBudvalWrite (c : ClusterId) (v : Word) (s : State) : Host.Outcome State Fault Refusal :=
  match budgetOf (s.cluster c).budsel with
  | none => .next s
  | some (unit, cls, sub) =>
    let home : ClusterId := if unit = 1 then { die := c.die, cluster := 0 } else c
    .next (s.modCluster home fun k =>
      let b := k.budget unit cls sub
      { k with budgets := (k.budgets.filter fun x => !x.isFor unit cls sub) ++
        [{ b with pending := some (budgetLimit unit v, v.getLsbD 63) }] })

/-! ## Plain registers (R3) -/

/-- The RW bits of a word of the route table (R399). -/
def routeMask (off : Nat) : Word := if off = 0x4000 then 7#64 else 0x8000_0000_0003_FFFF#64

/-- A change of the firmware's entry for an address space; an entry comes into being with its first write. -/
def Device.modSpace (d : Device) (asid : Nat) (f : AddressSpace → AddressSpace) : Device :=
  let old := (d.spaces.find? fun x => x.asid == asid).getD { asid := asid, satp := 0#64, sbase := 0#64, trroute := none }
  { d with spaces := (d.spaces.filter fun x => x.asid != asid) ++ [f old] }

/-- A change of an MSI-X entry. -/
def Device.modMsix (d : Device) (vector : Nat) (f : MsixVector → MsixVector) : Device :=
  let old := (d.msix.find? fun v => v.vector == vector).getD
    { vector := vector, addr := 0#64, data := 0#32, masked := true, pending := false }
  if vector < 256 then { d with msix := (d.msix.filter fun v => v.vector != vector) ++ [f old] } else d

/-- A write to a register updates its RW fields (R3); a value that the register does not take is Ignored. -/
def State.writeRegister (s : State) (r : DeviceReg) (v : Word) : State :=
  match r with
  | .bankctl c =>
    let n := fieldOf v 0 6
    if n % 4 = 0 ∧ 4 ≤ n ∧ n ≤ 32 then s.modCluster c fun k => { k with mincache := n } else s
  | .pcsel c => s.modCluster c fun k => { k with pcsel := v &&& 0x3F#64 }
  | .pcctl _ => s
  | .pcidx c => s.modCluster c fun k => { k with pcidx := v }
  | .budsel c => s.modCluster c fun k => { k with budsel := v &&& 0xFFF#64 }
  | .sdva c => s.modCluster c fun k => { k with sd := { k.sd with va := v } }
  | .sdcw c => s.modCluster c fun k => { k with sd := { k.sd with cword := v &&& ~~~7#64 } }
  | .mtimeout c => s.modCluster c fun k => { k with mtimeout := v &&& 0xFFFF_FFFF#64 }
  | .dxctl c => s.modCluster c fun k => { k with dxset := v.extractLsb' 0 16 }
  | .dxsel c => s.modCluster c fun k => { k with dxsel := v &&& 0x1FF#64 }
  | .ageLimit d => if 1 ≤ v.toNat ∧ v.toNat ≤ 255 then s.modDie d fun x => { x with ageLimit := v.toNat } else s
  | .placementMask d high =>
    s.modDie d fun x => if high then { x with maskHigh := fieldOf v 0 48 } else { x with maskNorm := fieldOf v 0 48 }
  | .agent a off => s.writeAgent a off v
  | .hostbase => { s with dev := { s.dev with hostbase := v &&& ~~~0xFFF#64 } }
  | .hsdva => { s with dev := { s.dev with hsd := { s.dev.hsd with va := v } } }
  | .hsdcw => { s with dev := { s.dev with hsd := { s.dev.hsd with cword := v &&& ~~~7#64 } } }
  | .devid => { s with dev := { s.dev with devid := fieldOf v 32 11 } }
  | .route off =>
    if off % 8 = 0 ∧ off ≤ 0x4000 then s.physStore none (routeTable + off) 8 (v &&& routeMask off).toNat else s
  | .msixAddress n => { s with dev := s.dev.modMsix n fun x => { x with addr := v } }
  | .msixData n => { s with dev := s.dev.modMsix n fun x => { x with data := v.extractLsb' 0 32 } }
  | .msixMask n => if n < 256 then { s with dev := s.dev.maskMsix n (v.getLsbD 0) } else s
  | .spaceSatp a => { s with dev := s.dev.modSpace a fun x => { x with satp := v } }
  | .spaceSbase a => { s with dev := s.dev.modSpace a fun x => { x with sbase := v &&& ~~~0x7F_FFFF#64 } }
  | .spaceTrroute a => { s with dev := s.dev.modSpace a fun x => { x with trroute := some (v ||| 0x0001_0000_0000_0000#64) } }
  | .launchRing d r a =>
    if r < 16 then
      s.modDie d fun x =>
        let rest := x.rings.filter fun k => k.ring != r
        { x with rings := if v = 0#64 then rest else rest ++ [{ ring := r, handle := v, asid := a }] }
    else s

/-- REGISTER_WRITE (R3). A write of pcctl is a command on the selected hart (R372). -/
def execRegisterWrite (r : DeviceReg) (v : Word) (s : State) : Host.Outcome State Fault Refusal :=
  match r with
  | .pcctl c => execPcctlWrite c v s
  | _ => .next (s.writeRegister r v)

end Sys2Proof.Machine
end

