-- ==== Sys2Proof/Machine/Matrix.lean ====
section
/-! DEFINITION. The matrix engine (14 R292 to R310): tiles, operand groups, W group 4, MENA and MDIS, each as the run of
a dispatched queue entry. -/

namespace Sys2Proof.Machine

/-! ## Tiles (R292) -/

/-- The accumulator format of a mode. -/
def TileMode.fmt : TileMode → Fmt
  | .f64 => .f64
  | .i64 => .int true 64
  | .f32p => .f32

def TileMode.ofCode (c : Nat) : TileMode :=
  match c with
  | 0 => .f64
  | 1 => .i64
  | _ => .f32p

def TileMode.bits (m : TileMode) : Nat := m.fmt.width
def TileMode.cols (m : TileMode) : Nat := 2048 / m.bits

def Tile.row (t : Tile) (i : Nat) : BitVec 2048 := t.rows.toList.getD i 0#2048
def Tile.elem (t : Tile) (i j : Nat) : Nat := Machine.elem (t.row i) t.mode.bits j
def Tile.setRow (t : Tile) (i : Nat) (v : BitVec 2048) : Tile :=
  if hi : i < 32 then { t with rows := t.rows.set i v } else t
def Tile.setElem (t : Tile) (i j x : Nat) : Tile := t.setRow i (Machine.setElem (t.row i) t.mode.bits j x)

def ColumnCheck.zero : ColumnCheck := { sum := 0#64, bound := 0#64, skip := false }

/-- A tile of zeros with no check in force. -/
def Tile.zeros (m : TileMode) (chk : Bool) : Tile :=
  { mode := m, rows := Vector.replicate 32 0#2048, chk := chk, checks := List.replicate m.cols ColumnCheck.zero }

def Hart.tile (h : Hart) (t : Nat) : Option Tile := h.tiles.toList.getD t none
def Hart.setTile (h : Hart) (t : Nat) (v : Option Tile) : Hart :=
  if ht : t < 8 then { h with tiles := h.tiles.set t v } else h

/-! ## Dispatch (R296) -/

/-- The entry at the head of MQ, replaced. -/
def setMqHead (e : QEntry) : M Unit := modH fun h =>
  match h.mq with
  | [] => h
  | _ :: l => { h with mq := e :: l }

/-- Dispatches a matrix instruction: lq is popped for lqv, and the rounding mode and mask are read (R28). -/
def dispatchM (w : WWord) (e : QEntry) : M VCtx := do
  let rm ← roundingMode e w.rm.toNat
  let vlmax := vlmaxOf e.cap.width.toNat e.cap.level.toNat
  let e1 ← (if e.ready then return e
    else do
      let vl ← if w.lqv = 1#1 then popLq e vlmax else pure e.cap.vl
      let e1 := { e with ready := true, cap := { e.cap with vl := vl } }
      setMqHead e1
      return e1 : M QEntry)
  let h ← getH
  return { w := w, e := e1, vl := e1.cap.vl, vlmax := vlmax, bits := widthBits e1.cap.width.toNat,
           mask := h.rp w.pg.toNat &&& h.currentMask, rm := rm, again := e.ready }

/-- A MATRIX-FAULT (R310): stval is 0. -/
def mfault {α : Type} (sub : Nat) (addr : Word) : M α := throw (.stream 25 sub addr 0#64)

/-- The enabled tile of a number. -/
def needTile (t : Nat) : M Tile := do
  match (← getH).tile t with
  | some x => return x
  | none => mfault 1 (wordOf (t % 8))

/-- A matrix instruction that names a bound register is Illegal at dispatch (R149, R295). -/
def unboundReg (e : QEntry) (reg : Nat) : M Unit := do
  requireV e ((← getH).binding reg).isNone

/-- A scale applies beside a floating-point format alone (R49). -/
def scaleOk (scale : Int) (f : Fmt) : Bool := f.isFloat || scale == 0

/-- The palette of a matrix instruction: reserved bits and codes (R46, R47), and no coded format in fd or fc, read or not
(R44, log entry 47). -/
def needPal (e : QEntry) (b : Bool) : M Unit :=
  let coded (code : Nat) : Bool := code == 0x0F || code == 0x10
  requireV e (palDefined e.cap.pal && !coded (palFd e.cap.pal) && !coded (palFc e.cap.pal) && b)

/-! ## The check state (R309) -/

/-- An exact value rounded to F64 with RNE. -/
def roundF64 (v : Val) : Nat := (encodeFloat .f64 53 { rm := 0, ftz := false, sat := false, nanprop := false } v).1

def Val.abs : Val → Val
  | .num _ m e k => .num false m e k
  | .inf _ => .inf false
  | v => v

/-- The sum and bound of a floating column after a group sum. -/
def ColumnCheck.addFloat (c : ColumnCheck) (s : Val) : ColumnCheck :=
  let add (a : Word) (x : Val) : Word :=
    let v := decodeFloat .f64 a.toNat
    wordOf (roundF64 (addVal 0 [v, x] v x).1)
  { c with sum := add c.sum s, bound := add c.bound s.abs }

/-- The sum and bound of an integer column after a group sum. -/
def ColumnCheck.addInt (c : ColumnCheck) (s : Int) (clamped : Bool) : ColumnCheck :=
  { sum := c.sum + BitVec.ofInt 64 s, bound := c.bound + wordOf s.natAbs, skip := c.skip || clamped }

/-- The exact sum of the finite elements of a column, or the NaN or infinity that they make. -/
def Tile.columnSum (t : Tile) (j : Nat) : Val :=
  (List.range 32).foldl (fun acc i =>
    let v := decodeFloat t.mode.fmt (t.elem i j)
    (addVal 0 [acc, v] acc v).1) (.zero false)

/-- A column mismatches (R309). -/
def Tile.mismatch (t : Tile) (j : Nat) : Bool :=
  let c := t.checks.getD j ColumnCheck.zero
  if c.skip then false
  else
    match t.mode with
    | .i64 =>
      let sum := (List.range 32).foldl (fun (a : Word) i => a + wordOf (t.elem i j)) 0#64
      sum != c.sum
    | _ =>
      let x := decodeFloat .f64 (roundF64 (t.columnSum j))
      let y := decodeFloat .f64 c.sum.toNat
      let b := decodeFloat .f64 c.bound.toNat
      x.finite && y.finite && !b.isNan &&
      decide (0 < cmpVal ((addVal 0 [x, y.negate] x y.negate).1).abs (b.scale (-12)))

/-- MSLCO and MSTT compare a checked tile first: the lowest mismatching column is a fault. -/
def compareChecks (t : Tile) : M Unit := do
  if t.chk then
    match (List.range t.mode.cols).find? t.mismatch with
    | some j => mfault 4 (wordOf j)
    | none => pure ()

/-! ## MENA, MDIS, MZERO -/

/-- The tiles field of the hart's launch. -/
def Hart.tileLimit (h : Hart) : Nat := (h.placed.map Placed.tiles).getD 0

def runMena (t mode : Nat) (_e : QEntry) : M Unit := do
  if (← getH).tileLimit ≤ t then mfault 1 (wordOf t)
  modH fun h => h.setTile t (some (Tile.zeros (TileMode.ofCode mode) false))

def runMdis (t : Nat) (_e : QEntry) : M Unit := modH fun h => h.setTile t none

/-- The tile field of a W instruction: T in [2:0]. -/
def tileNo (r : Reg) : Nat := r.toNat % 8

def runMzero (w : WWord) (_e : QEntry) : M Unit := do
  let x ← needTile (tileNo w.vd)
  modH fun h => h.setTile (tileNo w.vd) (some (Tile.zeros x.mode true))

/-! ## Formats (R297) -/

/-- A row of R297: fusion group, K depth, columns, bytes of the A and B slots, and whether kc is allowed. -/
structure MacRow where
  g  : Nat
  kd : Nat
  cols : Nat
  a  : Nat
  b  : Nat
  kc : Bool
  deriving DecidableEq, Repr

/-- The row of R297 for a mode and two formats. N4, which R36 names beside I4, has no row and no fusion group, so it is not
accepted (log entry 55). -/
def macRow (mode : TileMode) (fa fb : Fmt) : Option MacRow :=
  let half (f : Fmt) : Bool := f == .b16 || f == .f16
  let byte (f : Fmt) : Bool := f.isQ || f == .e4m3 || f == .e5m2
  match mode with
  | .f64 => if fa = .f64 ∧ fb = .f64 then some { g := 1, kd := 4, cols := 32, a := 1024, b := 1024, kc := false } else none
  | .f32p =>
    if fa = .f32 ∧ fb = .f32 then some { g := 1, kd := 8, cols := 64, a := 1024, b := 2048, kc := false }
    else if half fa && half fb then some { g := 1, kd := 32, cols := 64, a := 2048, b := 4096, kc := true }
    else if byte fa && byte fb then some { g := 2, kd := 64, cols := 64, a := 2048, b := 4096, kc := true }
    else none
  | .i64 =>
    if fa = .int true 8 ∧ fb = .int true 8 then some { g := 2, kd := 128, cols := 32, a := 4096, b := 4096, kc := true }
    else if fa = .i4 ∧ fb = .i4 then some { g := 4, kd := 256, cols := 32, a := 4096, b := 4096, kc := true }
    else none

/-! ## Operand groups (R298) -/

/-- vfaddr of a ring fault: the handle's [63:56] and [13:0], the side and the reason (R310). -/
def ringVfaddr (h : Word) (sideB : Bool) (reason : Nat) : Word :=
  setField (setField (h &&& 0xFF00_0000_0000_3FFF#64) 48 1 (if sideB then 1 else 0)) 44 4 reason

def kindFault {α : Type} (h : Word) (sideB : Bool) (reason : Nat) : M α := mfault 2 (ringVfaddr h sideB reason)

/-- The ring of an operand: the reasons of R298 in order. -/
def operandRing (p : Party) (h : Word) (sideB : Bool) (q : Nat) : M (RingRef × RingDesc) := do
  if !(handleOk h && fieldOf h 60 4 == 0 && fieldOf h 56 4 == 1) then kindFault h sideB 1
  let whr := fieldOf h 0 56
  let c := whr / 64
  let e := whr % 64
  match (← get).entryGang c e with
  | none => kindFault h sideB 1
  | some g => do
    if p.ctx.gang ≠ some g.number then kindFault h sideB 1
    let pa := ringTableEntry c e
    let d := RingDesc.ofNat ((← get).physLoad pa 64)
    if !d.ok h then kindFault h sideB 6
    if g.ringLimit < d.base.toNat + d.n * d.size then kindFault h sideB 1
    if fieldOf d.ctl 32 4 ≠ 9 then kindFault h sideB 2
    if d.n % q ≠ 0 ∨ d.acq % q ≠ 0 then kindFault h sideB 3
    return ({ handle := h, va := 0#64, pa := pa, cluster := c, gang := some g }, d)

/-- Take (R298): the group; other is the ring of the other side. Where patient is false the wait has expired, and is an
ownership timeout. -/
def takeGroup (patient : Bool) (p : Party) (h other : Word) (sideB : Bool) (q : Nat) : M OperandGroup := do
  let k ← getH
  match (if sideB then k.groupB else k.groupA) with
  | some g => if g.handle = h then return g else kindFault h sideB 4
  | none => do
    let x ← operandRing p h sideB q
    if h = other then kindFault h sideB 5
    let d := x.2
    if d.diff d.tail d.acq < q then
      if d.pclosed ∧ d.diff d.resv d.acq < q then mfault 3 (ringVfaddr h sideB 1)
      if patient then hold .wait else mfault 3 (ringVfaddr h sideB 0)
    let pas := (List.range q).filterMap fun n => x.1.gang.bind fun g => g.fifoPa (d.base.toNat + d.slotOff (d.acq + n))
    let g : OperandGroup := { handle := h, first := d.acq, pas := pas }
    saveRing p x.1 d { d with acq := (d.acq + q) % d.m }
    modH fun k => if sideB then { k with groupB := some g } else { k with groupA := some g }
    return g

/-- Release (R298): every ring slot of the group, as RREL releases one. -/
def releaseGroup (p : Party) (sideB : Bool) (g : OperandGroup) : M Unit := do
  forM' (fun n => ifItCan (do
    let x ← openRing p g.handle
    releaseSlot p x.1 x.2 ((g.first + n) % x.2.m))) (List.range g.pas.length)
  modH fun k => if sideB then { k with groupB := none } else { k with groupA := none }

/-- The bytes of a group, a free value beyond its end when an instruction needs more than it holds (log entry 12). -/
def groupBits (g : OperandGroup) (need : Nat) : M Nat := do
  let s ← get
  let have_ := g.pas.foldr (fun pa acc => s.physLoad pa 512 + 2 ^ 4096 * acc) 0
  let len := 512 * g.pas.length
  if need ≤ len then return have_
  else
    let r := s.freeValue (8 * (need - len))
    set r.2
    return have_ + 2 ^ (8 * len) * r.1

/-- The bytes [lo, lo + n) of a group touch a poisoned sector. -/
def groupPoisoned (s : State) (g : OperandGroup) (lo n : Nat) : Bool :=
  (List.range n).any fun k =>
    match g.pas[(lo + k) / 512]? with
    | some pa => s.poisoned (pa + (lo + k) % 512) 1
    | none => false

/-! ## Operand elements (R300) -/

/-- The byte offset of frame k of a coded group; none after a frame without length (R42). -/
def groupFrame (bits : Nat) : Nat → Nat → Option Nat
  | 0, off => some off
  | k + 1, off =>
    let sectors := bitsAt bits (8 * off + 88) 8
    if sectors = 0 then none else groupFrame bits k (off + 32 * sectors)

/-- The length in bits of a Q block, from its header: planes and coded exponents (R39). -/
def blockBits (f : Fmt) (header : Nat) : Nat := 16 + 32 * (if f = .e4m3q then 4 else 3) + bitsAt header 0 9

/-- Element n of a coded group: its pattern, and its frame's byte offset; 0 where an earlier frame has no length, so that
there is no such frame (log entry 55). A block that runs past the group's end is reserved (R300). -/
def groupQ (f : Fmt) (bits len n : Nat) : Option Nat × Nat :=
  match groupFrame bits (n / 256) 0 with
  | none => (none, 0)
  | some off =>
    if len < off + 16 then (none, off)
    else
      let fr := bits / 2 ^ (8 * off)
      if frameReserved f (bitsAt fr 0 128) then (none, off)
      else
        let lim := 256 * bitsAt fr 88 8
        let b0 := 128 + 6 * bitsAt fr (10 * (n % 256 / 32)) 10
        if lim ≤ b0 ∨ 8 * (len - off) < b0 + blockBits f (bitsAt fr b0 16) then (none, off)
        else ((decodeQBlock f (bitsAt (fr / 2 ^ b0) 0 672) (lim - b0)).getD (n % 32) none, off)

/-- An operand: its format, its group's bytes and their count. -/
structure Operand where
  f    : Fmt
  bits : Nat
  len  : Nat
  deriving Repr

/-- Element n's pattern, none for a reserved element code. -/
def Operand.get (o : Operand) (n : Nat) : Option Nat :=
  if o.f.isQ then (groupQ o.f o.bits o.len n).1 else some (bitsAt o.bits (n * o.f.width) o.f.width)

/-- The byte offset that R45 reports for element n: its frame's, or its own in a dense operand. -/
def Operand.offset (o : Operand) (n : Nat) : Nat :=
  if o.f.isQ then (groupQ o.f o.bits o.len n).2 else n * o.f.width / 8

/-- The byte ranges whose poison element n would consume. -/
def Operand.ranges (o : Operand) (n : Nat) : List (Nat × Nat) :=
  if o.f.isQ then
    let off := o.offset n
    let b0 := 128 + 6 * bitsAt (o.bits / 2 ^ (8 * off)) (10 * (n % 256 / 32)) 10
    [(off, 16), (off + b0 / 8, 84)]
  else [(n * o.f.width / 8, max 1 (o.f.width / 8))]

/-- vfaddr of a reserved element code or of poison (R45, R382). -/
def elemVfaddr (o : Operand) (sideB : Bool) (n : Nat) : Word :=
  setField (setField (setField 0#64 48 1 (if sideB then 1 else 0)) 32 16 n) 0 32 (o.offset n)

/-! ## Rank updates (R58 to R60) -/

/-- What an accumulation gives: the accumulator's pattern, its flags, whether it clamped, and the check sums. -/
structure Acc where
  acc   : Nat
  flags : Flags
  check : ColumnCheck
  deriving Repr

/-- One fusion group of a floating accumulator: the pairs (a, b) in ascending k, scaled. -/
def fuseFloat (pal : Word) (f : Fmt) (x : Acc) (l : List (Val × Val)) : Acc :=
  let a := decodeVal (palFtz pal) f x.acc
  let order := a :: l.flatMap fun p => [p.1, p.2]
  let prods := l.map fun p => mulVal [p.1, p.2] p.1 p.2
  let bad := if l.any (fun p => (p.1.isZero && p.2.isInf) || (p.1.isInf && p.2.isZero)) then fNV else 0#6
  let sum := match prods with
    | [] => (Val.zero false, (0#6 : Flags))
    | p :: rest => rest.foldl (fun (s : Val × Flags) (q : Val × Flags) =>
        let r := addVal 0 [s.1, q.1] s.1 q.1
        (r.1, s.2 ||| r.2)) (p.1, 0#6)
  let invalid := if l.any fun p => p.1.isNan || p.2.isNan then 0#6 else sum.2
  let total := addVal 0 [a, sum.1] a sum.1
  let c := encMode pal f 0 false
  if order.any Val.isNan then
    { x with acc := (encodeFloat f f.prec c (firstNan order)).1, flags := x.flags ||| snanFlag order ||| bad ||| invalid,
             check := x.check.addFloat sum.1 }
  else
    let e := encodeFloat f f.prec c total.1
    { x with acc := e.1, flags := x.flags ||| e.2 ||| bad ||| invalid ||| total.2, check := x.check.addFloat sum.1 }

/-- One fusion group of an integer accumulator. -/
def fuseInt (sat : Bool) (x : Acc) (l : List (Int × Int)) : Acc :=
  let s := l.foldl (fun (a : Int) p => a + p.1 * p.2) 0
  let e := encodeInt true 64 sat (decodeInt true 64 x.acc + s)
  { x with acc := e.1, flags := x.flags ||| e.2, check := x.check.addInt s (e.2 != 0#6) }

/-- The kept K positions of fusion group t. -/
def keptOf (km : BitVec 2048) (g t : Nat) : List Nat :=
  ((List.range g).map fun n => t * g + n).filter fun k => km.getLsbD k

/-- The element (i, j) after an update with operands given by index. -/
def updateElem (pal : Word) (mode : TileMode) (row : MacRow) (sat : Bool) (km : BitVec 2048) (a b : Nat → Nat)
    (fa fb : Fmt) (x : Acc) : Acc :=
  (List.range (row.kd / row.g)).foldl (fun x t =>
    match keptOf km row.g t with
    | [] => x
    | ks =>
      match mode with
      | .i64 => fuseInt sat x (ks.map fun k => (decodeInt true fa.width (a k), decodeInt true fb.width (b k)))
      | m => fuseFloat pal m.fmt x (ks.map fun k =>
          (decodeScaled pal fa.plain (palSa pal) (a k), decodeScaled pal fb.plain (palSb pal) (b k)))) x

/-- Every active element of a tile updated, row by row, with the check sums of its columns. -/
def updateTile (t : Tile) (acts : List (Nat × Nat)) (f : Nat → Nat → Acc → Acc) : Tile × Flags :=
  acts.foldl (fun s ij =>
    let x := f ij.1 ij.2 { acc := s.1.elem ij.1 ij.2, flags := 0#6, check := s.1.checks.getD ij.2 ColumnCheck.zero }
    ({ (s.1.setElem ij.1 ij.2 x.acc) with checks := s.1.checks.set ij.2 x.check }, s.2 ||| x.flags)) (t, 0#6)

/-! ## MMAC (R301 to R303) -/

/-- The active rows and columns (R302). -/
def activeRows (c : VCtx) : List Nat := (List.range 32).filter c.active
def activeCols (h : Hart) (w : WWord) (cols : Nat) : List Nat :=
  (List.range cols).filter fun j => w.em == 0#1 || (h.rp w.pe.toNat).getLsbD j

/-- MMAC. Of several poisoned elements, and of several reserved ones, it reports the lowest of A, and the lowest of B where A
has none (log entry 55). -/
def runMmacBy (patient : Bool) (w : WWord) (e : QEntry) : M Unit := do
  let c ← dispatchM w e
  let pal := c.pal
  let h ← getH
  let mode := w.aux9
  match fmtOf (palFa pal), fmtOf (palFb pal), fmtOf (palFc pal) with
  | some fa, some fb, some fc => do
    needPal e (scaleOk (palSa pal) fa && scaleOk (palSb pal) fb)
    let t ← needTile (tileNo w.vd)
    match macRow t.mode fa fb with
    | none => illegalV e
    | some row => do
      let kc := mode.getLsbD 3
      requireV e (fc == t.mode.fmt && (!kc || row.kc) && palSd pal == 0)
      let km := h.rp (w.vs3.toNat % 16) &&& lowMask row.kd
      let kept := (List.range row.kd).filter fun k => km.getLsbD k
      requireV e (!kc || decide (kept.length ≤ row.kd / 2))
      let sizeA := if kc then row.a / 2 else row.a
      let sizeB := if kc then row.b / 2 else row.b
      let p ← ownParty
      let both ← atomically (do
        let ga ← takeGroup patient p e.cap.x1 e.cap.x2 false (sizeA / 512)
        let gb ← takeGroup patient p e.cap.x2 e.cap.x1 true (sizeB / 512)
        return (ga, gb))
      let oa : Operand := { f := fa, bits := ← groupBits both.1 sizeA, len := sizeA }
      let ob : Operand := { f := fb, bits := ← groupBits both.2 sizeB, len := sizeB }
      let rank := fun k => if kc then (kept.filter fun x => decide (x < k)).length else k
      let depth := if kc then row.kd / 2 else row.kd
      let ia := fun i k => i * depth + rank k
      let ib := fun k j => rank k * row.cols + j
      let rows := activeRows c
      let cols := activeCols h w row.cols
      let usedA := rows.flatMap fun i => kept.map fun k => ia i k
      let usedB := kept.flatMap fun k => cols.map fun j => ib k j
      let s ← get
      let poisoned := fun (g : OperandGroup) (o : Operand) n => (o.ranges n).any fun r => groupPoisoned s g r.1 r.2
      match usedA.find? (poisoned both.1 oa), usedB.find? (poisoned both.2 ob) with
      | some n, _ => throw (.stream 48 3 (elemVfaddr oa false n) (elemVfaddr oa false n))
      | none, some n => throw (.stream 48 3 (elemVfaddr ob true n) (elemVfaddr ob true n))
      | none, none => pure ()
      let badA := usedA.find? fun n => (oa.get n).isNone
      let badB := usedB.find? fun n => (ob.get n).isNone
      if !palZr pal then
        match badA, badB with
        | some n, _ => mfault 5 (elemVfaddr oa false n)
        | none, some n => mfault 5 (elemVfaddr ob true n)
        | none, none => pure ()
      let zeroed : Flags := if (badA.isSome && !cols.isEmpty) || (badB.isSome && !rows.isEmpty) then fNV else 0#6
      let acts := rows.flatMap fun i => cols.map fun j => (i, j)
      let u := updateTile t acts fun i j x =>
        updateElem pal t.mode row (w.sat == 1#1) km (fun k => (oa.get (ia i k)).getD 0) (fun k => (ob.get (ib k j)).getD 0)
          fa fb x
      atomically do
        raise (u.2 ||| zeroed)
        modH fun k => k.setTile (tileNo w.vd) (some (
          if mode.getLsbD 2 then u.1 else { u.1 with chk := false, checks := t.checks }))
        if mode.getLsbD 0 then releaseGroup p false both.1
        if mode.getLsbD 1 then releaseGroup p true both.2
  | _, _, _ => illegalV e

def runMmac (w : WWord) (e : QEntry) : M Unit := runMmacBy true w e

/-! ## MMACV (R304) -/

def runMmacv (w : WWord) (e : QEntry) : M Unit := do
  unboundReg e w.vs1.toNat
  unboundReg e w.vs2.toNat
  let c ← dispatchM w e
  let pal := c.pal
  match regFmt (palFa pal), regFmt (palFb pal), fmtOf (palFc pal) with
  | some fa, some fb, some fc => do
    needPal e (fa.width == c.bits && fb.width == c.bits && scaleOk (palSa pal) fa && scaleOk (palSb pal) fb)
    let t ← needTile (tileNo w.vd)
    requireV e (fc == t.mode.fmt && fa.isInt == (t.mode == .i64) && fb.isInt == (t.mode == .i64) && palSd pal == 0)
    let h ← getH
    let va := h.rv w.vs1.toNat
    let vb := h.rv w.vs2.toNat
    let cols := (activeCols h w t.mode.cols).filter fun j => decide (j < c.vlmax)
    let acts := (activeRows c).flatMap fun i => cols.map fun j => (i, j)
    let u := updateTile t acts fun i j x =>
      let a := elem va c.bits i
      let b := elem vb c.bits j
      if t.mode = .i64 then
        fuseInt (w.sat == 1#1) x [(decodeInt fa.signed c.bits a, decodeInt fb.signed c.bits b)]
      else fuseFloat pal t.mode.fmt x [(decodeScaled pal fa (palSa pal) a, decodeScaled pal fb (palSb pal) b)]
    raise u.2
    modH fun k => k.setTile (tileNo w.vd) (some { u.1 with chk := false, checks := t.checks })
  | _, _, _ => illegalV e

/-! ## Slices (R306) -/

/-- Element n of slice s of a tile: its row and column, none outside. -/
def sliceAt (m : TileMode) (column : Bool) (s n : Nat) : Option (Nat × Nat) :=
  if column then (if s < m.cols ∧ n < 32 then some (n, s) else none)
  else (if s < 32 ∧ n < m.cols then some (s, n) else none)

def runMslco (w : WWord) (e : QEntry) : M Unit := do
  unboundReg e w.vd.toNat
  let c ← dispatchM w e
  let pal := c.pal
  match fmtOf (palFc pal), regFmt (palFd pal) with
  | some fc, some fd => do
    needPal e (fd.width == c.bits && palSa pal == 0 && palSb pal == 0 && scaleOk (palSd pal) fd)
    let t ← needTile (tileNo w.vs1)
    requireV e (fc == t.mode.fmt)
    compareChecks t
    let lo := (← getH).vstart
    let column := w.vs3.getLsbD 0
    elemLoop (fun i => do
      if c.active i then
        let r := match sliceAt t.mode column c.scalar.toNat i with
          | some (a, b) =>
            let v := decodeVal (palFtz pal) fc (t.elem a b)
            let x := encodeVal fd (encMode pal fd c.rm c.sat) fc.isInt (v.scale (palSd pal))
            (x.1, x.2 ||| (if v.isSnan then fNV else 0#6))
          | none => (0, 0#6)
        modH fun h => h.wv w.vd.toNat (setElem (h.rv w.vd.toNat) c.bits i r.1)
        raise r.2
        emBit c i r.2
      else emBit c i 0#6) (c.vl - lo) lo
    emTail c (max c.vl lo)
    completeV
  | _, _ => illegalV e

def runMslci (w : WWord) (e : QEntry) : M Unit := do
  unboundReg e w.vs1.toNat
  let c ← dispatchM w e
  let pal := c.pal
  match regFmt (palFa pal), fmtOf (palFc pal) with
  | some fa, some fc => do
    needPal e (fa.width == c.bits && palSb pal == 0 && scaleOk (palSa pal) fa)
    let t ← needTile (tileNo w.vd)
    requireV e (fc == t.mode.fmt && palSd pal == 0)
    let lo := (← getH).vstart
    let column := w.vs3.getLsbD 0
    let src := (← getH).rv w.vs1.toNat
    elemLoop (fun i => do
      if c.active i then
        match sliceAt t.mode column c.scalar.toNat i with
        | some (a, b) => do
          let v := decodeScaled pal fa (palSa pal) (elem src c.bits i)
          let x := encodeVal fc (encMode pal fc c.rm c.sat) fa.isInt v
          let fl := x.2 ||| (if v.isSnan then fNV else 0#6)
          modH fun h => h.setTile (tileNo w.vd) ((h.tile (tileNo w.vd)).map fun y => y.setElem a b x.1)
          raise fl
          emBit c i fl
        | none => emBit c i 0#6
      else emBit c i 0#6) (c.vl - lo) lo
    modH fun h => h.setTile (tileNo w.vd) ((h.tile (tileNo w.vd)).map fun y => { y with chk := false })
    emTail c (max c.vl lo)
    completeV
  | _, _ => illegalV e

/-! ## MLDT and MSTT (R307) -/

/-- The rows that move, with their addresses. -/
def movedRows (c : VCtx) (e : QEntry) : List (Nat × Word) :=
  let stride := if e.cap.x2 = 0#64 then 256#64 else e.cap.x2
  (activeRows c).map fun i => (i, e.cap.x1 + wordOf i * stride)

/-- The row lies wholly within the scratch part of the gang's window. -/
def inScratch (s : State) (ctx : TransCtx) (va : Word) : Bool :=
  match ctx.gang.bind s.gang with
  | some g => decide ((va - ctx.sbase).toNat + 256 ≤ 0x8000 * g.units.length)
  | none => false

/-- All rows are checked before any moves: the lowest failing row, its alignment before its range. -/
def checkRows (ctx : TransCtx) (store : Bool) (rows : List (Nat × Word)) : M Unit := do
  let s ← get
  forM' (fun (r : Nat × Word) => do
    if r.2.toNat % 8 ≠ 0 then throw (.stream (if store then 6 else 4) 0 r.2 r.2)
    if !inScratch s ctx r.2 then throw (.stream (if store then 7 else 5) 0 r.2 r.2)) rows

def runMldt (w : WWord) (e : QEntry) : M Unit := do
  let c ← dispatchM w e
  let t ← needTile (tileNo w.vd)
  let p ← ownParty
  let rows := movedRows c e
  checkRows p.ctx false rows
  let loaded ← rows.mapM fun r => do return (r.1, ← loadVa p r.2 .load 256)
  let u := loaded.foldl (fun (x : Tile) r => x.setRow r.1 (BitVec.ofNat 2048 r.2)) t
  modH fun h => h.setTile (tileNo w.vd) (some { u with chk := false })

def runMstt (w : WWord) (e : QEntry) : M Unit := do
  let c ← dispatchM w e
  let t ← needTile (tileNo w.vd)
  let p ← ownParty
  compareChecks t
  let rows := movedRows c e
  checkRows p.ctx true rows
  forM' (fun (r : Nat × Word) => storeVa p r.2 256 (t.row r.1).toNat) rows

/-! ## MSCAL (R308) -/

/-- One element of a scaled tile. -/
def scaleElem (c : VCtx) (m : TileMode) (fa : Fmt) (x s : Nat) : Nat × Flags :=
  match m with
  | .i64 => encodeInt true 64 c.sat (decodeInt true 64 x * decodeInt fa.signed c.bits s)
  | _ =>
    let a := decodeVal (palFtz c.pal) m.fmt x
    let b := decodeScaled c.pal fa (palSa c.pal) s
    let r := mulVal [a, b] a b
    let y := encodeFloat m.fmt m.fmt.prec (encMode c.pal m.fmt c.rm c.sat) r.1
    (y.1, y.2 ||| r.2)

def runMscal (w : WWord) (e : QEntry) : M Unit := do
  unboundReg e w.vs1.toNat
  let c ← dispatchM w e
  let pal := c.pal
  match regFmt (palFa pal), fmtOf (palFc pal) with
  | some fa, some fc => do
    needPal e (fa.width == c.bits && palSb pal == 0 && scaleOk (palSa pal) fa)
    let t ← needTile (tileNo w.vd)
    requireV e (fc == t.mode.fmt && fa.isInt == (t.mode == .i64) && palSd pal == 0)
    let column := w.vs3.getLsbD 0
    let lo := (← getH).vstart
    let count := if column then t.mode.cols else 32
    let src := (← getH).rv w.vs1.toNat
    let across := if column then 32 else t.mode.cols
    elemLoop (fun i => do
      if c.active i then
        let cells := (List.range across).map fun n => if column then (n, i) else (i, n)
        let u := updateTile ((← getH).tile (tileNo w.vd) |>.getD t) cells fun _ _ x =>
          let r := scaleElem c t.mode fa x.acc (elem src c.bits i)
          { x with acc := r.1, flags := r.2 }
        modH fun h => h.setTile (tileNo w.vd) (some u.1)
        raise u.2) (min c.vl count - lo) lo
    modH fun h => h.setTile (tileNo w.vd) ((h.tile (tileNo w.vd)).map fun y => { y with chk := false })
    completeV
  | _, _ => illegalV e

/-! ## OWNERSHIP_TIMEOUT (R298, R299) -/

/-- vfaddr of an MMAC that waits for a group when its time has expired. -/
def timedOut (e : QEntry) (w : WWord) (s : State) : Option Word :=
  match runMmacBy false w e s with
  | .error (.stream 25 3 va _) _ => some va
  | _ => none

/-- OWNERSHIP_TIMEOUT: the MMAC at the head of the hart's MQ has waited longer than mtimeout; a limit of 0 is none. -/
def execOwnershipTimeout (h : HartId) (s : State) : Host.Outcome State Fault Refusal :=
  let k := s.hartAt h
  if fieldOf (s.cluster h.clusterId).mtimeout 0 32 = 0 then .next s
  else
    match k.mq.head? with
    | some e =>
      match e.instr with
      | .mmac w =>
        match (if k.faults.any fun f => f.seq == e.seq then none else timedOut e w (s.focus h)) with
        | some va => .next (s.modHart h fun k => { k with
            faults := k.faults ++ [{ seq := e.seq, pc := e.pc, stream := 2, cause := 25, sub := 3, addr := va,
                                     tval := 0#64, vstart := 0 }] })
        | none => .next s
      | _ => .next s
    | none => .next s

end Sys2Proof.Machine
end

