-- ==== Sys2Proof/Machine/Issue.lean ====
section
/-! DEFINITION. Enqueuing and dispatch: what an instruction of the vector, matrix and copy streams does when the scalar
stream reaches it, the order in which queued entries execute, and the fetch of an instruction (01 R26 to R33, 03 R61,
R62, 11 R253, 14 R296). -/

namespace Sys2Proof.Machine

/-! ## The run of a dispatched entry -/

/-- An instruction that aborts a transaction with ENGINE when it dispatches (R205). -/
def engineOp (m : M Unit) : M Unit := do
  if (← getH).tx.isSome then throw (.abort 7 0)
  m

/-- The effect of an entry of VQ or MQ; an entry of CQ has its own events. -/
def runEntry (e : QEntry) : M Unit :=
  match e.instr with
  | .sbind st _ => engineOp (runSbind st.toNat e)
  | .sset st _ _ => engineOp (runSset st.toNat e)
  | .sfence st => engineOp (runSfence st.toNat e)
  | .vbind vm st => engineOp (runVbind vm.toNat st.toNat e)
  | .vunbind vm => engineOp (runVunbind vm.toNat e)
  | .mena t m => engineOp (runMena t.toNat m.toNat e)
  | .mdis t => engineOp (runMdis t.toNat e)
  | .vadd w => runVadd w e
  | .vsub w => runVsub w e
  | .vrsub w => runVrsub w e
  | .vmul w => runVmul w e
  | .vmulh w => runVmulh w e
  | .vmadd w => runVmadd w e
  | .vdiv w => runVdiv w e
  | .vrem w => runVrem w e
  | .vmin w => runVmin w e
  | .vmax w => runVmax w e
  | .vand w => runVand w e
  | .vor w => runVor w e
  | .vxor w => runVxor w e
  | .vshl w => runVshl w e
  | .vshr w => runVshr w e
  | .vabsd w => runVabsd w e
  | .vcmp w => runVcmp w e
  | .vidx w => runVidx w e
  | .vnshr w => runVnshr w e
  | .vfadd w => runVfadd w e
  | .vfsub w => runVfsub w e
  | .vfmul w => runVfmul w e
  | .vfdiv w => runVfdiv w e
  | .vfsqrt w => runVfsqrt w e
  | .vfma w => runVfma w e
  | .vfmin w => runVfmin w e
  | .vfmax w => runVfmax w e
  | .vfrcp w => runVfrcp w e
  | .vfrsq w => runVfrsq w e
  | .vfexp2 w => runVfexp2 w e
  | .vflog2 w => runVflog2 w e
  | .vfcmp w => runVfcmp w e
  | .vfclass w => runVfclass w e
  | .vfsgn w => runVfsgn w e
  | .vcvt w => runVcvt w e
  | .vslup w => runVslup w e
  | .vsldn w => runVsldn w e
  | .vgathr w => runVgathr w e
  | .vcompr w => runVcompr w e
  | .vexpnd w => runVexpnd w e
  | .vsel w => runVsel w e
  | .vbcast w => runVbcast w e
  | .vmvq w => runVmvq w e
  | .vplog w => runVplog w e
  | .vpcnt w => runVpcnt w e
  | .vpfirst w => runVpfirst w e
  | .vpscan w => runVpscan w e
  | .vpset w => runVpset w e
  | .vmpush w => runVmpush w e
  | .vmelse w => runVmelse w e
  | .vmpop w => runVmpop w e
  | .vredi w => runVredi w e
  | .vredf w => runVredf w e
  | .vquad w => runVquad w e
  | .vld w => runVld w e
  | .vst w => runVst w e
  | .vlds w => runVlds w e
  | .vsts w => runVsts w e
  | .vldx w => runVldx w e
  | .vstx w => runVstx w e
  | .vlseg w => runVlseg w e
  | .vsseg w => runVsseg w e
  | .vamo w => runVamo w e
  | .vstr w => runVstr w e
  | .vwacc w => runVwacc w e
  | .vprf w => runVprf w e
  | .mzero w => engineOp (runMzero w e)
  | .mmac w => engineOp (runMmac w e)
  | .mmacv w => engineOp (runMmacv w e)
  | .mslco w => engineOp (runMslco w e)
  | .mslci w => engineOp (runMslci w e)
  | .mldt w => engineOp (runMldt w e)
  | .mstt w => engineOp (runMstt w e)
  | .mscal w => engineOp (runMscal w e)
  | .vtex w => runVtex w e
  | .vtexg w => runVtexg w e
  | .vtexq w => runVtexq w e
  | .vtexs w => runVtexs w e
  | .vintp w => runVintp w e
  | .vrayi w => runVrayi w e
  | .vrayt w => runVrayt w e
  | .vrayc w => runVrayc w e
  | .vraya w => runVraya w e
  | .dpush w => runDpush w e
  | .dpop w => runDpop w e
  | .dseal w => runDseal w e
  | .dlook w => runDlook w e
  | .dnext w => runDnext w e
  | .dapply w => runDapply w e
  | .dscan w => runDscan w e
  | .dqstat w => runDqstat w e
  | .dbind w => runDbind w e
  | .experimentalInstruction _ _ _ => throw (.refuse .expansionBody)
  | _ => pure ()

/-! ## What an entry reads and writes -/

/-- The registers r to r + n - 1. -/
def regSpan (r n : Nat) : List Nat := (List.range n).map fun k => r + k

/-- The vector registers that an instruction may write, up to a whole group of eight (R108), or whose binding it
changes. -/
def writesV (i : Instr) : List Nat :=
  match i with
  | .vbind r _ => regSpan r.toNat 4
  | .vunbind r => regSpan r.toNat 4
  | .vst _ | .vsts _ | .vstx _ | .vsseg _ | .vstr _ | .vprf _ | .vwacc _ | .vmvq _ | .vplog _ | .vpcnt _ | .vpfirst _
  | .vpset _ | .vmpush _ | .vmelse _ | .vmpop _ | .vcmp _ | .vfcmp _ => []
  | .vamo w => if w.vd.getLsbD 4 then [w.vs3.toNat] else []
  | .mslco w => [w.vd.toNat]
  | _ =>
    match encodeWFields i with
    | some f => if f.grp = 4#3 then [] else regSpan f.w.vd.toNat 8
    | none => []

/-- The vector registers that it may read or write. -/
def touchesV (i : Instr) : List Nat :=
  match i with
  | .mmacv w => [w.vs1.toNat, w.vs2.toNat]
  | .mslci w => [w.vs1.toNat]
  | .mscal w => [w.vs1.toNat]
  | .mslco w => [w.vd.toNat]
  | _ =>
    match encodeWFields i with
    | some f =>
      if f.grp = 4#3 then []
      else writesV i ++ regSpan f.w.vs1.toNat 8 ++ regSpan f.w.vs2.toNat 8 ++ regSpan f.w.vs3.toNat 8
    | none => writesV i

/-- The predicates that it may write: p[pe], or its destination. -/
def writesP (i : Instr) : List Nat :=
  match i with
  | .mmac _ | .mmacv _ => []
  | _ =>
    match encodeWFields i with
    | some f =>
      (if f.w.em = 1#1 then [f.w.pe.toNat] else []) ++
      (match i with
        | .vcmp _ | .vfcmp _ | .vplog _ | .vpfirst _ | .vpset _ => [f.w.vd.toNat % 16]
        | _ => if f.grp = 5#3 ∨ f.grp = 6#3 then [f.w.vd.toNat % 16] else [])
    | none => []

/-- The predicates that it may read or write. -/
def touchesP (i : Instr) : List Nat :=
  match encodeWFields i with
  | some f =>
    if f.grp = 4#3 then [f.w.pg.toNat, f.w.pe.toNat, f.w.vs3.toNat % 16]
    else [f.w.pg.toNat, f.w.pe.toNat, f.w.vs1.toNat % 16, f.w.vs2.toNat % 16, f.w.vs3.toNat % 16, f.w.vd.toNat % 16]
  | none => []

/-- It changes the mask stack; it reads the top of it. -/
def writesMask (i : Instr) : Bool :=
  match i with
  | .vmpush _ | .vmelse _ | .vmpop _ => true
  | _ => false
def readsMask (i : Instr) : Bool :=
  match i with
  | .mzero _ | .mena _ _ | .mdis _ => false
  | _ => true

/-- It uses the queue of lane counts. -/
def usesLq (i : Instr) : Bool :=
  match i with
  | .vpcnt _ => true
  | _ => ((encodeWFields i).map fun f => f.w.lqv == 1#1).getD false

def meet (a b : List Nat) : Bool := a.any b.contains

/-- An instruction of the vector stream and one of the matrix stream must keep their program order: they share a
register, a predicate, the mask stack or lq, or both access memory (R28, R32). -/
def ordered (h : Hart) (a b : Instr) : Bool :=
  meet (writesV a) (touchesV b) || meet (writesV b) (touchesV a) || meet (writesP a) (touchesP b) ||
  meet (writesP b) (touchesP a) || (writesMask a && readsMask b) || (writesMask b && readsMask a) ||
  (usesLq a && usesLq b) || (accessesMemory h a && accessesMemory h b)

/-- It keeps its place in vstart: it waits while a vector instruction stands at an element. -/
def usesVstart (i : Instr) : Bool :=
  match i with
  | .mslco _ | .mslci _ | .mscal _ => true
  | _ => false

def Hart.midVector (h : Hart) : Bool := ((h.vq.head?.map QEntry.ready).getD false) && h.vstart != 0

/-- An entry whose fault is pending stays where it is (R364). -/
def Hart.faulted (h : Hart) (e : QEntry) : Bool := h.faults.any fun f => f.seq == e.seq

/-- The head of VQ, if it may execute now. -/
def Hart.vqReady (h : Hart) : Option QEntry :=
  match h.vq with
  | [] => none
  | e :: _ =>
    if h.faulted e || h.mq.any fun m => decide (m.seq < e.seq) && ordered h m.instr e.instr then none else some e

/-- The head of MQ, if it may execute now. -/
def Hart.mqReady (h : Hart) : Option QEntry :=
  match h.mq with
  | [] => none
  | e :: _ =>
    if h.faulted e || (usesVstart e.instr && h.midVector) ||
       h.vq.any fun v => decide (v.seq < e.seq) && ordered h v.instr e.instr then none else some e

/-! ## Dispatch -/

/-- The fault of a queued entry whose memory access failed: a VECTOR-FAULT with the sub-cause of R369, or the standard
cause in the matrix stream; consumed poison is POISON-CONSUMED (R382). -/
def MemFault.inStream (matrix : Bool) (f : MemFault) : Nat × Nat × Word :=
  match f with
  | .poison _ va => (48, if matrix then 3 else 2, va)
  | .page a va => if matrix then (f.trap.cause, 0, va) else (24, if a = .store then 2 else 1, va)
  | .access _ va => if matrix then (f.trap.cause, 0, va) else (24, 3, va)
  | .misaligned _ va => if matrix then (f.trap.cause, 0, va) else (24, 4, va)

/-- A fault of an entry becomes pending, at the element that vstart names. -/
def Hart.addFault (h : Hart) (matrix : Bool) (e : QEntry) (cause sub : Nat) (addr tval : Word) : Hart :=
  { h with faults := h.faults ++ [{
      seq := e.seq, pc := e.pc, stream := if matrix then 2 else 1, cause := cause, sub := sub, addr := addr, tval := tval,
      vstart := if matrix then 0 else h.vstart }] }

/-- The head entry has completed and leaves its queue. -/
def Hart.retireEntry (h : Hart) (matrix : Bool) : Hart :=
  if matrix then { h with mq := h.mq.tail } else { h with vq := h.vq.tail }

/-- A fault of the matrix stream leaves vstart to the vector instruction that may stand at an element (R28, R295). -/
def State.keepVstart (s : State) (matrix : Bool) (t : State) : State :=
  if matrix then { t with hart := { t.hart with vstart := s.hart.vstart } } else t

/-- Executes a head entry: the state, and whether it got anywhere. A wait keeps the elements done before it. -/
def State.runHead (s : State) (matrix : Bool) (e : QEntry) : State × Bool :=
  let fault (t : State) (cause sub : Nat) (addr tval : Word) : State × Bool :=
    let u := s.keepVstart matrix t
    ({ u with hart := u.hart.addFault matrix e cause sub addr tval }, true)
  match runEntry e s with
  | .ok _ t => ({ t with hart := t.hart.retireEntry matrix }, true)
  | .error x t =>
    match x with
    | .held _ => (t, false)
    | .abort c k => (t.abortTx c k, true)
    | .conflict l => (t.abortConflict l, true)
    | .mem f =>
      let r := f.inStream matrix
      fault t r.1 r.2.1 r.2.2 r.2.2
    | .stream cause sub addr tval => fault t cause sub addr tval
    | .trap f => fault t f.cause 0 f.tval f.tval
    | .stop _ | .refuse _ => (t, false)

/-- The heads of VQ and MQ execute, the older one first, until neither can go on; a head that waits is tried again once
the other stream has moved. -/
def pumpFrom : Nat → Bool → Bool → State → State
  | 0, _, _, s => s
  | n + 1, vWaits, mWaits, s =>
    let v := if vWaits then none else s.hart.vqReady
    let m := if mWaits then none else s.hart.mqReady
    match v, m with
    | none, none => s
    | some e, none =>
      let r := s.runHead false e
      pumpFrom n (!r.2) (mWaits && !r.2) r.1
    | none, some e =>
      let r := s.runHead true e
      pumpFrom n (vWaits && !r.2) (!r.2) r.1
    | some a, some b =>
      if a.seq < b.seq then
        let r := s.runHead false a
        pumpFrom n (!r.2) (mWaits && !r.2) r.1
      else
        let r := s.runHead true b
        pumpFrom n (vWaits && !r.2) (!r.2) r.1

/-- The next entry that a stream executes is an experimental combination: what it does is the firmware's (R427). -/
def Hart.expansionDue (h : Hart) : Bool :=
  (h.vqReady.map QEntry.expands).getD false || (h.mqReady.map QEntry.expands).getD false

/-- What the vector and matrix streams of the hart do now: 18 entries at most, each with at most two tries between. -/
def State.pump (s : State) : State := if s.hart.drained then s else pumpFrom 64 false false s

/-! ## Enqueuing (R27, R30) -/

/-- The queue of a stream has room. -/
def Hart.room (h : Hart) (stream : Nat) : Bool :=
  match stream with
  | 1 => decide (h.vq.length < 16)
  | 2 => decide (h.mq.length < 2)
  | _ => decide (h.cq.length < 2)

/-- What an instruction captures (R27). -/
def Hart.capture (h : Hart) (xp r1 r2 r3 : Reg) : Captured :=
  { x1 := h.rx r1, x2 := h.rx r2, x3 := h.rx r3, pal := if xp = 0#5 then h.vpal else h.rx xp, vl := h.vl,
    width := h.vgrant.extractLsb' 0 2, level := h.vgrant.extractLsb' 2 2, vfrm := h.vfrm, vxmask := h.vxmask }

/-- The instruction enters the queue of a stream. -/
def State.enqueueIn (s : State) (stream : Nat) (i : Instr) (c : Captured) : State :=
  let h := s.hart
  let e : QEntry := { pc := h.pc, instr := i, cap := c, seq := h.seq, start := none, ready := false }
  let k := { h with seq := h.seq + 1 }
  match stream with
  | 1 => { s with hart := { k with vq := h.vq ++ [e] } }
  | 2 => { s with hart := { k with mq := h.mq ++ [e] } }
  | _ => ({ s with hart := { k with cq := h.cq ++ [e] } } : State).post [.copyHandOver h.id]

/-- The scalar stream reaches an instruction of another stream, n bytes long: it enters its queue, or is Held while that
is full; the streams go on, and a fault of theirs is taken at this boundary. -/
def State.issueIn (s : State) (stream : Nat) (i : Instr) (c : Captured) (n : Nat) : Host.Outcome State Fault Refusal :=
  if s.hart.room stream then .next ((((s.enqueueIn stream i c).advance n).pump).settle).goesOn
  else
    let t := s.pump
    if t.hart.room stream && t.hart.faults.isEmpty && decide (t.hart.pc = s.hart.pc) then
      .next ((((t.enqueueIn stream i c).advance n).pump).settle).goesOn
    else if decide (t.hart.pc = s.hart.pc) then .next (t.hold t .queueFull).settle
    else .next t

def State.issue (s : State) (i : Instr) (c : Captured) (n : Nat) : Host.Outcome State Fault Refusal :=
  s.issueIn (streamOf i) i c n

def State.issueW (s : State) (i : Instr) (w : WWord) : Host.Outcome State Fault Refusal :=
  s.issue i (s.hart.capture w.xp w.vs1 w.vs2 w.vs3) 8
def State.issue4 (s : State) (i : Instr) (r1 r2 : Reg) : Host.Outcome State Fault Refusal :=
  s.issue i (s.hart.capture 0#5 r1 r2 0#5) 4

/-! ## Fetch (R61, R62, R253) -/

/-- The words of a line that follow an address, as the fetch buffer takes them: none from a poisoned sector. -/
def State.wordsAfter (s : State) (va : Word) (pa : Nat) : List (Nat × Nat) :=
  (List.range (31 - pa % 128 / 4)).filterMap fun k =>
    let a := pa + 4 * (k + 1)
    if s.poisoned a 4 then none else some (va.toNat + 4 * (k + 1), s.physLoad a 4)

/-- One parcel: from the fetch buffer, or from memory with the rest of its line into the buffer (log entry 32). -/
def fetchWord (va : Word) : M Nat := do
  let h ← getH
  match h.fetchBuf.lookup va.toNat with
  | some w => do
    modH fun h => { h with fetchBuf := h.fetchBuf.filter fun x => decide (va.toNat < x.1) }
    return w
  | none => do
    let p : Party := { ctx := h.ctx, self := some h.id, plain := true }
    let t ← translateM p.ctx va .fetch
    let w ← loadPa p va .fetch t.pa 4 true
    match region t.pa with
    | .hbm _ | .aperture _ _ => modify fun s => { s with hart := { s.hart with fetchBuf := s.wordsAfter va t.pa } }
    | _ => modH fun h => { h with fetchBuf := [] }
    return w

/-- What a fetch gives: an instruction with its length, or an illegal encoding as stval shows it. -/
inductive Fetched where
  | instr (i : Instr) (n : Nat)
  | illegal (tval : Word)
  deriving DecidableEq, Repr

/-- The meaning of the bytes that a fetch found. -/
noncomputable def fetchedOf (n v : Nat) : Fetched :=
  match decode (lowBytes n v) with
  | .ok (i, k) => .instr i k
  | .error _ => .illegal (wordOf v)

/-- The parcels at pc: the length in bytes of what they begin, 4 or 8, and its value. -/
def fetchParcels : M (Nat × Nat) := do
  let pc := (← getH).pc
  if pc.toNat % 4 ≠ 0 then throw (.mem (.misaligned .fetch pc))
  let lo ← fetchWord pc
  if lo % 128 = 0x3F then
    let hi ← fetchWord (pc + 4#64)
    return (8, lo + 2 ^ 32 * hi)
  else return (4, lo)

/-- The instruction at pc. -/
noncomputable def fetchInstr : M Fetched := do
  let p ← fetchParcels
  return fetchedOf p.1 p.2

/-! ## VMVX (R30, R31, R127) -/

/-- The index operand of VMVX. -/
def moveIndex (s : State) (w : WWord) : Nat :=
  if w.kind = 3 then (BitVec.ofInt 64 (WWord.imm w) : Word).toNat else (s.rx w.vs2).toNat

/-- VMVX as its stream dispatches it. -/
def moveContext (s : State) (w : WWord) : VCtx :=
  let h := s.hart
  let e : QEntry := { pc := h.pc, instr := .vmvx w, cap := h.capture w.xp w.vs1 w.vs2 w.vs3, seq := h.seq, start := none,
                      ready := false }
  { w := w, e := e, vl := h.vl, vlmax := h.vlmax, bits := widthBits h.width, mask := 0#2048, rm := 0, again := false }

/-- A fault of VMVX is one of the vector stream (R26, R148), taken where VMVX stands. -/
def vectorFault {α : Type} (m : M α) : M α := fun s =>
  let raised (cause sub : Nat) (addr tval : Word) : Trap :=
    { cause := cause, tval := tval,
      vf := some { pc := s.hart.pc, stream := 1, sub := sub, addr := addr, vstart := some 0 } }
  match m s with
  | .error (.mem f) t =>
    let r := f.inStream false
    .error (.trap (raised r.1 r.2.1 r.2.2 r.2.2)) t
  | .error (.stream cause sub addr tval) t => .error (.trap (raised cause sub addr tval)) t
  | r => r

def execVmvx (w : WWord) (s : State) : Host.Outcome State Fault Refusal :=
  runScalar (do
    let h ← getH
    if !h.vq.isEmpty || h.mq.any (fun m => (writesV m.instr).contains w.vs1.toNat) then hold .drain
    let c := moveContext s w
    let v ← vectorFault do
      let x ← wholeSource c w.vs1.toNat
      consumeAll x c.vl
      return x.get w.vs1.toNat
    writeX w.vd (extendElem v c.bits c.vlmax (moveIndex s w) (w.vs3 == 1#5))
    advance 8) s

/-! ## Events of the streams -/

/-- What an instruction of a queue captures on a hart; none for an instruction of the scalar stream. -/
def captureOf (h : Hart) (i : Instr) : Option Captured :=
  match i with
  | .sbind _ rs1 => some (h.capture 0#5 rs1 0#5 0#5)
  | .sset _ rs1 rs2 => some (h.capture 0#5 rs1 rs2 0#5)
  | .sfence _ | .vbind _ _ | .vunbind _ | .mena _ _ | .mdis _ => some (h.capture 0#5 0#5 0#5 0#5)
  | .cpyt rs1 => if h.tx.isSome then none else some (h.capture 0#5 rs1 0#5 0#5)
  | .cpyg rs1 rs2 => if h.tx.isSome then none else some (h.capture 0#5 rs1 rs2 0#5)
  | .cpyc rs1 => if h.tx.isSome then none else some (h.capture 0#5 rs1 0#5 0#5)
  | .vmvx _ => none
  | _ => (encodeWFields i).map fun f => h.capture f.w.xp f.w.vs1 f.w.vs2 f.w.vs3

/-- The instruction of custom-3 or of the 64-bit format that parcels hold: every instruction of a queue is one. -/
def queuedOf (n v : Nat) : Option Instr :=
  let i := if n = 8 then decodeWFields (WFields.of (BitVec.ofNat 64 v))
    else if v % 128 = 0x7B then decodeCustom3 (Fields.of (BitVec.ofNat 32 v)) else none
  i.filter Instr.wf

/-- The stream whose queue an instruction enters: the table names that of an experimental one, and none where it defines
none or the scalar stream (R26, R75). -/
def State.enqueueStream (s : State) (i : Instr) : Option Nat :=
  match i with
  | .experimentalInstruction grp op _ => (s.expansionStream grp op).filter fun k => k != 0
  | _ => some (streamOf i)

/-- ENQUEUE (R27): the instruction at the pc of a running hart enters its queue, and nothing executes yet. -/
def execEnqueue (h : HartId) (s : State) : Host.Outcome State Fault Refusal :=
  if (s.hartAt h).run ≠ .running then .next s
  else
    match fetchParcels (s.focus h) with
    | .ok (n, v) t =>
      match (queuedOf n v).bind fun i => (captureOf t.hart i).bind fun c => (t.enqueueStream i).map fun k => (i, c, k) with
      | some (i, c, k) =>
        if t.hart.room k then .next (((t.enqueueIn k i c).advance n).goesOn.focus s.hart.id) else .next s
      | none => .next s
    | _ => .next s

/-- STREAM_RUN_AHEAD (R150): an access that must wait has no effect but what its translation has done. -/
def execStreamRunAhead (h : HartId) (st : BitVec 4) (s : State) : Host.Outcome State Fault Refusal :=
  match onHart h (runAhead st.toNat) s with
  | .ok _ t => .next t
  | .error _ t => .next (s.keepRequests t)

/-- STREAM_STORE_PERFORM (R152): while a store must wait, the elements stay appended. -/
def execStreamStorePerform (h : HartId) (st : BitVec 4) (s : State) : Host.Outcome State Fault Refusal :=
  match onHart h (performAppended st.toNat) s with
  | .ok _ t => .next t
  | .error _ t => .next (s.keepRequests t)


/-! ## The instructions of the vector and matrix streams: W format -/

def execVadd (w : WWord) (s : State) : Host.Outcome State Fault Refusal := s.issueW (.vadd w) w
def execVsub (w : WWord) (s : State) : Host.Outcome State Fault Refusal := s.issueW (.vsub w) w
def execVrsub (w : WWord) (s : State) : Host.Outcome State Fault Refusal := s.issueW (.vrsub w) w
def execVmul (w : WWord) (s : State) : Host.Outcome State Fault Refusal := s.issueW (.vmul w) w
def execVmulh (w : WWord) (s : State) : Host.Outcome State Fault Refusal := s.issueW (.vmulh w) w
def execVmadd (w : WWord) (s : State) : Host.Outcome State Fault Refusal := s.issueW (.vmadd w) w
def execVdiv (w : WWord) (s : State) : Host.Outcome State Fault Refusal := s.issueW (.vdiv w) w
def execVrem (w : WWord) (s : State) : Host.Outcome State Fault Refusal := s.issueW (.vrem w) w
def execVmin (w : WWord) (s : State) : Host.Outcome State Fault Refusal := s.issueW (.vmin w) w
def execVmax (w : WWord) (s : State) : Host.Outcome State Fault Refusal := s.issueW (.vmax w) w
def execVand (w : WWord) (s : State) : Host.Outcome State Fault Refusal := s.issueW (.vand w) w
def execVor (w : WWord) (s : State) : Host.Outcome State Fault Refusal := s.issueW (.vor w) w
def execVxor (w : WWord) (s : State) : Host.Outcome State Fault Refusal := s.issueW (.vxor w) w
def execVshl (w : WWord) (s : State) : Host.Outcome State Fault Refusal := s.issueW (.vshl w) w
def execVshr (w : WWord) (s : State) : Host.Outcome State Fault Refusal := s.issueW (.vshr w) w
def execVabsd (w : WWord) (s : State) : Host.Outcome State Fault Refusal := s.issueW (.vabsd w) w
def execVcmp (w : WWord) (s : State) : Host.Outcome State Fault Refusal := s.issueW (.vcmp w) w
def execVidx (w : WWord) (s : State) : Host.Outcome State Fault Refusal := s.issueW (.vidx w) w
def execVnshr (w : WWord) (s : State) : Host.Outcome State Fault Refusal := s.issueW (.vnshr w) w
def execVfadd (w : WWord) (s : State) : Host.Outcome State Fault Refusal := s.issueW (.vfadd w) w
def execVfsub (w : WWord) (s : State) : Host.Outcome State Fault Refusal := s.issueW (.vfsub w) w
def execVfmul (w : WWord) (s : State) : Host.Outcome State Fault Refusal := s.issueW (.vfmul w) w
def execVfdiv (w : WWord) (s : State) : Host.Outcome State Fault Refusal := s.issueW (.vfdiv w) w
def execVfsqrt (w : WWord) (s : State) : Host.Outcome State Fault Refusal := s.issueW (.vfsqrt w) w
def execVfma (w : WWord) (s : State) : Host.Outcome State Fault Refusal := s.issueW (.vfma w) w
def execVfmin (w : WWord) (s : State) : Host.Outcome State Fault Refusal := s.issueW (.vfmin w) w
def execVfmax (w : WWord) (s : State) : Host.Outcome State Fault Refusal := s.issueW (.vfmax w) w
def execVfrcp (w : WWord) (s : State) : Host.Outcome State Fault Refusal := s.issueW (.vfrcp w) w
def execVfrsq (w : WWord) (s : State) : Host.Outcome State Fault Refusal := s.issueW (.vfrsq w) w
def execVfexp2 (w : WWord) (s : State) : Host.Outcome State Fault Refusal := s.issueW (.vfexp2 w) w
def execVflog2 (w : WWord) (s : State) : Host.Outcome State Fault Refusal := s.issueW (.vflog2 w) w
def execVfcmp (w : WWord) (s : State) : Host.Outcome State Fault Refusal := s.issueW (.vfcmp w) w
def execVfclass (w : WWord) (s : State) : Host.Outcome State Fault Refusal := s.issueW (.vfclass w) w
def execVfsgn (w : WWord) (s : State) : Host.Outcome State Fault Refusal := s.issueW (.vfsgn w) w
def execVcvt (w : WWord) (s : State) : Host.Outcome State Fault Refusal := s.issueW (.vcvt w) w
def execVslup (w : WWord) (s : State) : Host.Outcome State Fault Refusal := s.issueW (.vslup w) w
def execVsldn (w : WWord) (s : State) : Host.Outcome State Fault Refusal := s.issueW (.vsldn w) w
def execVgathr (w : WWord) (s : State) : Host.Outcome State Fault Refusal := s.issueW (.vgathr w) w
def execVcompr (w : WWord) (s : State) : Host.Outcome State Fault Refusal := s.issueW (.vcompr w) w
def execVexpnd (w : WWord) (s : State) : Host.Outcome State Fault Refusal := s.issueW (.vexpnd w) w
def execVsel (w : WWord) (s : State) : Host.Outcome State Fault Refusal := s.issueW (.vsel w) w
def execVbcast (w : WWord) (s : State) : Host.Outcome State Fault Refusal := s.issueW (.vbcast w) w
def execVmvq (w : WWord) (s : State) : Host.Outcome State Fault Refusal := s.issueW (.vmvq w) w
def execVplog (w : WWord) (s : State) : Host.Outcome State Fault Refusal := s.issueW (.vplog w) w
def execVpcnt (w : WWord) (s : State) : Host.Outcome State Fault Refusal := s.issueW (.vpcnt w) w
def execVpfirst (w : WWord) (s : State) : Host.Outcome State Fault Refusal := s.issueW (.vpfirst w) w
def execVpscan (w : WWord) (s : State) : Host.Outcome State Fault Refusal := s.issueW (.vpscan w) w
def execVpset (w : WWord) (s : State) : Host.Outcome State Fault Refusal := s.issueW (.vpset w) w
def execVmpush (w : WWord) (s : State) : Host.Outcome State Fault Refusal := s.issueW (.vmpush w) w
def execVmelse (w : WWord) (s : State) : Host.Outcome State Fault Refusal := s.issueW (.vmelse w) w
def execVmpop (w : WWord) (s : State) : Host.Outcome State Fault Refusal := s.issueW (.vmpop w) w
def execVredi (w : WWord) (s : State) : Host.Outcome State Fault Refusal := s.issueW (.vredi w) w
def execVredf (w : WWord) (s : State) : Host.Outcome State Fault Refusal := s.issueW (.vredf w) w
def execVquad (w : WWord) (s : State) : Host.Outcome State Fault Refusal := s.issueW (.vquad w) w
def execVld (w : WWord) (s : State) : Host.Outcome State Fault Refusal := s.issueW (.vld w) w
def execVst (w : WWord) (s : State) : Host.Outcome State Fault Refusal := s.issueW (.vst w) w
def execVlds (w : WWord) (s : State) : Host.Outcome State Fault Refusal := s.issueW (.vlds w) w
def execVsts (w : WWord) (s : State) : Host.Outcome State Fault Refusal := s.issueW (.vsts w) w
def execVldx (w : WWord) (s : State) : Host.Outcome State Fault Refusal := s.issueW (.vldx w) w
def execVstx (w : WWord) (s : State) : Host.Outcome State Fault Refusal := s.issueW (.vstx w) w
def execVlseg (w : WWord) (s : State) : Host.Outcome State Fault Refusal := s.issueW (.vlseg w) w
def execVsseg (w : WWord) (s : State) : Host.Outcome State Fault Refusal := s.issueW (.vsseg w) w
def execVamo (w : WWord) (s : State) : Host.Outcome State Fault Refusal := s.issueW (.vamo w) w
def execVstr (w : WWord) (s : State) : Host.Outcome State Fault Refusal := s.issueW (.vstr w) w
def execVwacc (w : WWord) (s : State) : Host.Outcome State Fault Refusal := s.issueW (.vwacc w) w
def execVprf (w : WWord) (s : State) : Host.Outcome State Fault Refusal := s.issueW (.vprf w) w
def execMzero (w : WWord) (s : State) : Host.Outcome State Fault Refusal := s.issueW (.mzero w) w
def execMmac (w : WWord) (s : State) : Host.Outcome State Fault Refusal := s.issueW (.mmac w) w
def execMmacv (w : WWord) (s : State) : Host.Outcome State Fault Refusal := s.issueW (.mmacv w) w
def execMslco (w : WWord) (s : State) : Host.Outcome State Fault Refusal := s.issueW (.mslco w) w
def execMslci (w : WWord) (s : State) : Host.Outcome State Fault Refusal := s.issueW (.mslci w) w
def execMldt (w : WWord) (s : State) : Host.Outcome State Fault Refusal := s.issueW (.mldt w) w
def execMstt (w : WWord) (s : State) : Host.Outcome State Fault Refusal := s.issueW (.mstt w) w
def execMscal (w : WWord) (s : State) : Host.Outcome State Fault Refusal := s.issueW (.mscal w) w
def execVtex (w : WWord) (s : State) : Host.Outcome State Fault Refusal := s.issueW (.vtex w) w
def execVtexg (w : WWord) (s : State) : Host.Outcome State Fault Refusal := s.issueW (.vtexg w) w
def execVtexq (w : WWord) (s : State) : Host.Outcome State Fault Refusal := s.issueW (.vtexq w) w
def execVtexs (w : WWord) (s : State) : Host.Outcome State Fault Refusal := s.issueW (.vtexs w) w
def execVintp (w : WWord) (s : State) : Host.Outcome State Fault Refusal := s.issueW (.vintp w) w
def execVrayi (w : WWord) (s : State) : Host.Outcome State Fault Refusal := s.issueW (.vrayi w) w
def execVrayt (w : WWord) (s : State) : Host.Outcome State Fault Refusal := s.issueW (.vrayt w) w
def execVrayc (w : WWord) (s : State) : Host.Outcome State Fault Refusal := s.issueW (.vrayc w) w
def execVraya (w : WWord) (s : State) : Host.Outcome State Fault Refusal := s.issueW (.vraya w) w
def execDpush (w : WWord) (s : State) : Host.Outcome State Fault Refusal := s.issueW (.dpush w) w
def execDpop (w : WWord) (s : State) : Host.Outcome State Fault Refusal := s.issueW (.dpop w) w
def execDseal (w : WWord) (s : State) : Host.Outcome State Fault Refusal := s.issueW (.dseal w) w
def execDlook (w : WWord) (s : State) : Host.Outcome State Fault Refusal := s.issueW (.dlook w) w
def execDnext (w : WWord) (s : State) : Host.Outcome State Fault Refusal := s.issueW (.dnext w) w
def execDapply (w : WWord) (s : State) : Host.Outcome State Fault Refusal := s.issueW (.dapply w) w
def execDscan (w : WWord) (s : State) : Host.Outcome State Fault Refusal := s.issueW (.dscan w) w
def execDqstat (w : WWord) (s : State) : Host.Outcome State Fault Refusal := s.issueW (.dqstat w) w
def execDbind (w : WWord) (s : State) : Host.Outcome State Fault Refusal := s.issueW (.dbind w) w

/-! ## The instructions of the queues: 32-bit formats -/

def execSbind (st : BitVec 4) (rs1 : Reg) (s : State) : Host.Outcome State Fault Refusal := s.issue4 (.sbind st rs1) rs1 0#5
def execSset (st : BitVec 4) (rs1 rs2 : Reg) (s : State) : Host.Outcome State Fault Refusal :=
  s.issue4 (.sset st rs1 rs2) rs1 rs2
def execSfence (st : BitVec 4) (s : State) : Host.Outcome State Fault Refusal := s.issue4 (.sfence st) 0#5 0#5
def execVbind (vm : Reg) (st : BitVec 4) (s : State) : Host.Outcome State Fault Refusal := s.issue4 (.vbind vm st) 0#5 0#5
def execVunbind (vm : Reg) (s : State) : Host.Outcome State Fault Refusal := s.issue4 (.vunbind vm) 0#5 0#5
def execMena (tile : BitVec 3) (mode : BitVec 2) (s : State) : Host.Outcome State Fault Refusal :=
  s.issue4 (.mena tile mode) 0#5 0#5
def execMdis (tile : BitVec 3) (s : State) : Host.Outcome State Fault Refusal := s.issue4 (.mdis tile) 0#5 0#5

/-- A copy instruction: inside a transaction it aborts with ENGINE (R205). -/
def State.issueCopy (s : State) (i : Instr) (rs1 rs2 : Reg) : Host.Outcome State Fault Refusal :=
  if s.hart.tx.isSome then .next (s.abortTx 7 0) else s.issue4 i rs1 rs2

/-- EXPERIMENTAL_INSTRUCTION (R75, R427): Illegal unless the cluster's table defines the combination; then it enters the
queue of the stream that the table names. What a stream makes of it is the firmware's, which is not architectural: the
machine stops where a stream would execute it, the scalar stream at once. -/
def execExperimentalInstruction (grp : BitVec 3) (op : BitVec 6) (w : WWord) (s : State) :
    Host.Outcome State Fault Refusal :=
  let i : Instr := .experimentalInstruction grp op w
  match s.expansionStream grp op with
  | none => .next (s.fault { cause := 2, tval := encodingOf i, vf := none } s.hart.pc)
  | some 0 => .refused .expansionBody
  | some k => s.issueIn k i (s.hart.capture w.xp w.vs1 w.vs2 w.vs3) 8

def execCpyt (rs1 : Reg) (s : State) : Host.Outcome State Fault Refusal := s.issueCopy (.cpyt rs1) rs1 0#5
def execCpyg (rs1 rs2 : Reg) (s : State) : Host.Outcome State Fault Refusal := s.issueCopy (.cpyg rs1 rs2) rs1 rs2
def execCpyc (rs1 : Reg) (s : State) : Host.Outcome State Fault Refusal := s.issueCopy (.cpyc rs1) rs1 0#5

end Sys2Proof.Machine
end

