-- ==== Sys2Proof/Machine/Dispatch.lean ====
section
/-! DEFINITION. The meaning of every instruction and event, one arm per constructor of Instr. -/

namespace Sys2Proof.Machine

def exec (i : Instr) (s : State) : Host.Outcome State Fault Refusal :=
  match i with
  | .deltaDrain ring => Sys2Proof.Machine.execDeltaDrain ring s
  | .quietSet asid graph => Sys2Proof.Machine.execQuietSet asid graph s
  | .copyHandOver h => Sys2Proof.Machine.execCopyHandOver h s
  | .copyCompletion h n => Sys2Proof.Machine.execCopyCompletion h n s
  | .collectiveUseComplete die group => Sys2Proof.Machine.execCollectiveUseComplete die group s
  | .transactionWake h line => Sys2Proof.Machine.execTransactionWake h line s
  | .channelArrival c a => Sys2Proof.Machine.execChannelArrival c a s
  | .handlerRunStart h => Sys2Proof.Machine.execHandlerRunStart h s
  | .place die => Sys2Proof.Machine.execPlace die s
  | .launchRingService die ring => Sys2Proof.Machine.execLaunchRingService die ring s
  | .gangCompletion gang => Sys2Proof.Machine.execGangCompletion gang s
  | .doneRecordDrain die => Sys2Proof.Machine.execDoneRecordDrain die s
  | .ringServiceResume h => Sys2Proof.Machine.execRingServiceResume h s
  | .shootdownAcknowledge unit party => Sys2Proof.Machine.execShootdownAcknowledge unit party s
  | .shootdownComplete unit => Sys2Proof.Machine.execShootdownComplete unit s
  | .contain c => Sys2Proof.Machine.execContain c s
  | .drawRecord agent => Sys2Proof.Machine.execDrawRecord agent s
  | .batchRecord agent => Sys2Proof.Machine.execBatchRecord agent s
  | .blendRecord agent => Sys2Proof.Machine.execBlendRecord agent s
  | .agentRingSpace agent => Sys2Proof.Machine.execAgentRingSpace agent s
  | .agentBeacon agent => Sys2Proof.Machine.execAgentBeacon agent s
  | .elementTrain h => Sys2Proof.Machine.execElementTrain h s
  | .trainAcknowledgement h => Sys2Proof.Machine.execTrainAcknowledgement h s
  | .warmReset => Sys2Proof.Machine.execWarmReset s
  | .coreFreeze c => Sys2Proof.Machine.execCoreFreeze c s
  | .peerResponse id data => Sys2Proof.Machine.execPeerResponse id data s
  | .hostReadCompletion id data => Sys2Proof.Machine.execHostReadCompletion id data s
  | .lanternInterrupt c cause => Sys2Proof.Machine.execLanternInterrupt c cause s
  | .streamRunAhead h st => Sys2Proof.Machine.execStreamRunAhead h st s
  | .streamStorePerform h st => Sys2Proof.Machine.execStreamStorePerform h st s
  | .enqueue h => Sys2Proof.Machine.execEnqueue h s
  | .ownershipTimeout h => Sys2Proof.Machine.execOwnershipTimeout h s
  | .experimentalInstruction grp op w => Sys2Proof.Machine.execExperimentalInstruction grp op w s
  | .groupEntryWrite die group offset data => Sys2Proof.Machine.execGroupEntryWrite die group offset data s
  | .supervisorTimerInterrupt h => Sys2Proof.Machine.execSupervisorTimerInterrupt h s
  | .ssisetWrite c v => Sys2Proof.Machine.execSsisetWrite c v s
  | .trapEntry h => Sys2Proof.Machine.execTrapEntry h s
  | .transactionAbort h => Sys2Proof.Machine.execTransactionAbort h s
  | .txdeadlineExpiry h => Sys2Proof.Machine.execTxdeadlineExpiry h s
  | .ageStep h => Sys2Proof.Machine.execAgeStep h s
  | .tickBoundary => Sys2Proof.Machine.execTickBoundary s
  | .fabricSweep die => Sys2Proof.Machine.execFabricSweep die s
  | .ringTableWrite c offset data => Sys2Proof.Machine.execRingTableWrite c offset data s
  | .bankmodeWrite c v => Sys2Proof.Machine.execBankmodeWrite c v s
  | .shootdownIssue c v => Sys2Proof.Machine.execShootdownIssue c v s
  | .shootdownTimeout unit => Sys2Proof.Machine.execShootdownTimeout unit s
  | .hostShootdownIssue v => Sys2Proof.Machine.execHostShootdownIssue v s
  | .pcdataWrite c v => Sys2Proof.Machine.execPcdataWrite c v s
  | .resume c => Sys2Proof.Machine.execResume c s
  | .upcall c => Sys2Proof.Machine.execUpcall c s
  | .stop c => Sys2Proof.Machine.execStop c s
  | .agentResume agent => Sys2Proof.Machine.execAgentResume agent s
  | .agentEnable agent v => Sys2Proof.Machine.execAgentEnable agent v s
  | .peerAccess a => Sys2Proof.Machine.execPeerAccess a s
  | .linkDown device => Sys2Proof.Machine.execLinkDown device s
  | .hostMemoryWrite offset data => Sys2Proof.Machine.execHostMemoryWrite offset data s
  | .hostMemoryRead offset size => Sys2Proof.Machine.execHostMemoryRead offset size s
  | .launchBeaconWrite die ring v => Sys2Proof.Machine.execLaunchBeaconWrite die ring v s
  | .hostBeaconWrite beacon v => Sys2Proof.Machine.execHostBeaconWrite beacon v s
  | .msixUnmask vector => Sys2Proof.Machine.execMsixUnmask vector s
  | .bar2ctlWrite v => Sys2Proof.Machine.execBar2ctlWrite v s
  | .getVersion req => Sys2Proof.Machine.execGetVersion req s
  | .getCapabilities req => Sys2Proof.Machine.execGetCapabilities req s
  | .negotiateAlgorithms req => Sys2Proof.Machine.execNegotiateAlgorithms req s
  | .getDigests req => Sys2Proof.Machine.execGetDigests req s
  | .getCertificate req => Sys2Proof.Machine.execGetCertificate req s
  | .challenge req => Sys2Proof.Machine.execChallenge req s
  | .getMeasurements req => Sys2Proof.Machine.execGetMeasurements req s
  | .unsupportedRequest req => Sys2Proof.Machine.execUnsupportedRequest req s
  | .doeAbort => Sys2Proof.Machine.execDoeAbort s
  | .coldReset => Sys2Proof.Machine.execColdReset s
  | .powerLimitWrite watts => Sys2Proof.Machine.execPowerLimitWrite watts s
  | .clockStep up => Sys2Proof.Machine.execClockStep up s
  | .thermalTrip => Sys2Proof.Machine.execThermalTrip s
  | .freeze => Sys2Proof.Machine.execFreeze s
  | .lockstepMismatch c => Sys2Proof.Machine.execLockstepMismatch c s
  | .debugHalt h => Sys2Proof.Machine.execDebugHalt h s
  | .errlogRead c => Sys2Proof.Machine.execErrlogRead c s
  | .budvalWrite c v => Sys2Proof.Machine.execBudvalWrite c v s
  | .featenWrite c v => Sys2Proof.Machine.execFeatenWrite c v s
  | .dxentWrite c v => Sys2Proof.Machine.execDxentWrite c v s
  | .registerWrite r v => Sys2Proof.Machine.execRegisterWrite r v s
  | .pauseExpiry h => Sys2Proof.Machine.execPauseExpiry h s
  | .debugResume h => Sys2Proof.Machine.execDebugResume h s
  | .attestationLogAppend entry => Sys2Proof.Machine.execAttestationLogAppend entry s
  | .sbind st rs1 => Sys2Proof.Machine.execSbind st rs1 s
  | .sset st rs1 rs2 => Sys2Proof.Machine.execSset st rs1 rs2 s
  | .sfence st => Sys2Proof.Machine.execSfence st s
  | .vbind vm st => Sys2Proof.Machine.execVbind vm st s
  | .vunbind vm => Sys2Proof.Machine.execVunbind vm s
  | .cpyt rs1 => Sys2Proof.Machine.execCpyt rs1 s
  | .cpyg rs1 rs2 => Sys2Proof.Machine.execCpyg rs1 rs2 s
  | .cpyc rs1 => Sys2Proof.Machine.execCpyc rs1 s
  | .mena tile mode => Sys2Proof.Machine.execMena tile mode s
  | .mdis tile => Sys2Proof.Machine.execMdis tile s
  | .vadd w => Sys2Proof.Machine.execVadd w s
  | .vsub w => Sys2Proof.Machine.execVsub w s
  | .vrsub w => Sys2Proof.Machine.execVrsub w s
  | .vmul w => Sys2Proof.Machine.execVmul w s
  | .vmulh w => Sys2Proof.Machine.execVmulh w s
  | .vmadd w => Sys2Proof.Machine.execVmadd w s
  | .vdiv w => Sys2Proof.Machine.execVdiv w s
  | .vrem w => Sys2Proof.Machine.execVrem w s
  | .vmin w => Sys2Proof.Machine.execVmin w s
  | .vmax w => Sys2Proof.Machine.execVmax w s
  | .vand w => Sys2Proof.Machine.execVand w s
  | .vor w => Sys2Proof.Machine.execVor w s
  | .vxor w => Sys2Proof.Machine.execVxor w s
  | .vshl w => Sys2Proof.Machine.execVshl w s
  | .vshr w => Sys2Proof.Machine.execVshr w s
  | .vabsd w => Sys2Proof.Machine.execVabsd w s
  | .vcmp w => Sys2Proof.Machine.execVcmp w s
  | .vidx w => Sys2Proof.Machine.execVidx w s
  | .vnshr w => Sys2Proof.Machine.execVnshr w s
  | .vfadd w => Sys2Proof.Machine.execVfadd w s
  | .vfsub w => Sys2Proof.Machine.execVfsub w s
  | .vfmul w => Sys2Proof.Machine.execVfmul w s
  | .vfdiv w => Sys2Proof.Machine.execVfdiv w s
  | .vfsqrt w => Sys2Proof.Machine.execVfsqrt w s
  | .vfma w => Sys2Proof.Machine.execVfma w s
  | .vfmin w => Sys2Proof.Machine.execVfmin w s
  | .vfmax w => Sys2Proof.Machine.execVfmax w s
  | .vfrcp w => Sys2Proof.Machine.execVfrcp w s
  | .vfrsq w => Sys2Proof.Machine.execVfrsq w s
  | .vfexp2 w => Sys2Proof.Machine.execVfexp2 w s
  | .vflog2 w => Sys2Proof.Machine.execVflog2 w s
  | .vfcmp w => Sys2Proof.Machine.execVfcmp w s
  | .vfclass w => Sys2Proof.Machine.execVfclass w s
  | .vfsgn w => Sys2Proof.Machine.execVfsgn w s
  | .vcvt w => Sys2Proof.Machine.execVcvt w s
  | .vslup w => Sys2Proof.Machine.execVslup w s
  | .vsldn w => Sys2Proof.Machine.execVsldn w s
  | .vgathr w => Sys2Proof.Machine.execVgathr w s
  | .vcompr w => Sys2Proof.Machine.execVcompr w s
  | .vexpnd w => Sys2Proof.Machine.execVexpnd w s
  | .vsel w => Sys2Proof.Machine.execVsel w s
  | .vbcast w => Sys2Proof.Machine.execVbcast w s
  | .vmvx w => Sys2Proof.Machine.execVmvx w s
  | .vmvq w => Sys2Proof.Machine.execVmvq w s
  | .vplog w => Sys2Proof.Machine.execVplog w s
  | .vpcnt w => Sys2Proof.Machine.execVpcnt w s
  | .vpfirst w => Sys2Proof.Machine.execVpfirst w s
  | .vpscan w => Sys2Proof.Machine.execVpscan w s
  | .vpset w => Sys2Proof.Machine.execVpset w s
  | .vmpush w => Sys2Proof.Machine.execVmpush w s
  | .vmelse w => Sys2Proof.Machine.execVmelse w s
  | .vmpop w => Sys2Proof.Machine.execVmpop w s
  | .vredi w => Sys2Proof.Machine.execVredi w s
  | .vredf w => Sys2Proof.Machine.execVredf w s
  | .vquad w => Sys2Proof.Machine.execVquad w s
  | .vld w => Sys2Proof.Machine.execVld w s
  | .vst w => Sys2Proof.Machine.execVst w s
  | .vlds w => Sys2Proof.Machine.execVlds w s
  | .vsts w => Sys2Proof.Machine.execVsts w s
  | .vldx w => Sys2Proof.Machine.execVldx w s
  | .vstx w => Sys2Proof.Machine.execVstx w s
  | .vlseg w => Sys2Proof.Machine.execVlseg w s
  | .vsseg w => Sys2Proof.Machine.execVsseg w s
  | .vamo w => Sys2Proof.Machine.execVamo w s
  | .vstr w => Sys2Proof.Machine.execVstr w s
  | .vwacc w => Sys2Proof.Machine.execVwacc w s
  | .vprf w => Sys2Proof.Machine.execVprf w s
  | .mzero w => Sys2Proof.Machine.execMzero w s
  | .mmac w => Sys2Proof.Machine.execMmac w s
  | .mmacv w => Sys2Proof.Machine.execMmacv w s
  | .mslco w => Sys2Proof.Machine.execMslco w s
  | .mslci w => Sys2Proof.Machine.execMslci w s
  | .mldt w => Sys2Proof.Machine.execMldt w s
  | .mstt w => Sys2Proof.Machine.execMstt w s
  | .mscal w => Sys2Proof.Machine.execMscal w s
  | .vtex w => Sys2Proof.Machine.execVtex w s
  | .vtexg w => Sys2Proof.Machine.execVtexg w s
  | .vtexq w => Sys2Proof.Machine.execVtexq w s
  | .vtexs w => Sys2Proof.Machine.execVtexs w s
  | .vintp w => Sys2Proof.Machine.execVintp w s
  | .vrayi w => Sys2Proof.Machine.execVrayi w s
  | .vrayt w => Sys2Proof.Machine.execVrayt w s
  | .vrayc w => Sys2Proof.Machine.execVrayc w s
  | .vraya w => Sys2Proof.Machine.execVraya w s
  | .dpush w => Sys2Proof.Machine.execDpush w s
  | .dpop w => Sys2Proof.Machine.execDpop w s
  | .dseal w => Sys2Proof.Machine.execDseal w s
  | .dlook w => Sys2Proof.Machine.execDlook w s
  | .dnext w => Sys2Proof.Machine.execDnext w s
  | .dapply w => Sys2Proof.Machine.execDapply w s
  | .dscan w => Sys2Proof.Machine.execDscan w s
  | .dqstat w => Sys2Proof.Machine.execDqstat w s
  | .dbind w => Sys2Proof.Machine.execDbind w s
  | .cboInval rs1 => Sys2Proof.Machine.execCboInval rs1 s
  | .cboClean rs1 => Sys2Proof.Machine.execCboClean rs1 s
  | .cboFlush rs1 => Sys2Proof.Machine.execCboFlush rs1 s
  | .cboZero rs1 => Sys2Proof.Machine.execCboZero rs1 s
  | .sc aq rl w rd rs1 rs2 => Sys2Proof.Machine.execSc aq rl w rd rs1 rs2 s
  | .sfenceVma rs1 rs2 => Sys2Proof.Machine.execSfenceVma rs1 rs2 s
  | .csrrw csr rd rs1 => Sys2Proof.Machine.execCsrrw csr rd rs1 s
  | .csrrs csr rd rs1 => Sys2Proof.Machine.execCsrrs csr rd rs1 s
  | .csrrc csr rd rs1 => Sys2Proof.Machine.execCsrrc csr rd rs1 s
  | .csrrwi csr rd uimm => Sys2Proof.Machine.execCsrrwi csr rd uimm s
  | .csrrsi csr rd uimm => Sys2Proof.Machine.execCsrrsi csr rd uimm s
  | .csrrci csr rd uimm => Sys2Proof.Machine.execCsrrci csr rd uimm s
  | .vgrant rd level width => Sys2Proof.Machine.execVgrant rd level width s
  | .qpush n rs1 => Sys2Proof.Machine.execQpush n rs1 s
  | .qpop rd n => Sys2Proof.Machine.execQpop rd n s
  | .hsend rs1 rs2 => Sys2Proof.Machine.execHsend rs1 rs2 s
  | .torelse off => Sys2Proof.Machine.execTorelse off s
  | .ownset rs1 rs2 => Sys2Proof.Machine.execOwnset rs1 rs2 s
  | .owntst rd rs1 => Sys2Proof.Machine.execOwntst rd rs1 s
  | .xfsave => Sys2Proof.Machine.execXfsave s
  | .xfload => Sys2Proof.Machine.execXfload s
  | .lui rd imm => Sys2Proof.Machine.execLui rd imm s
  | .auipc rd imm => Sys2Proof.Machine.execAuipc rd imm s
  | .jal rd off => Sys2Proof.Machine.execJal rd off s
  | .jalr rd rs1 imm => Sys2Proof.Machine.execJalr rd rs1 imm s
  | .beq rs1 rs2 off => Sys2Proof.Machine.execBeq rs1 rs2 off s
  | .bne rs1 rs2 off => Sys2Proof.Machine.execBne rs1 rs2 off s
  | .blt rs1 rs2 off => Sys2Proof.Machine.execBlt rs1 rs2 off s
  | .bge rs1 rs2 off => Sys2Proof.Machine.execBge rs1 rs2 off s
  | .bltu rs1 rs2 off => Sys2Proof.Machine.execBltu rs1 rs2 off s
  | .bgeu rs1 rs2 off => Sys2Proof.Machine.execBgeu rs1 rs2 off s
  | .lb rd rs1 imm => Sys2Proof.Machine.execLb rd rs1 imm s
  | .lh rd rs1 imm => Sys2Proof.Machine.execLh rd rs1 imm s
  | .lw rd rs1 imm => Sys2Proof.Machine.execLw rd rs1 imm s
  | .ld rd rs1 imm => Sys2Proof.Machine.execLd rd rs1 imm s
  | .lbu rd rs1 imm => Sys2Proof.Machine.execLbu rd rs1 imm s
  | .lhu rd rs1 imm => Sys2Proof.Machine.execLhu rd rs1 imm s
  | .lwu rd rs1 imm => Sys2Proof.Machine.execLwu rd rs1 imm s
  | .sb rs1 rs2 imm => Sys2Proof.Machine.execSb rs1 rs2 imm s
  | .sh rs1 rs2 imm => Sys2Proof.Machine.execSh rs1 rs2 imm s
  | .sw rs1 rs2 imm => Sys2Proof.Machine.execSw rs1 rs2 imm s
  | .sd rs1 rs2 imm => Sys2Proof.Machine.execSd rs1 rs2 imm s
  | .addi rd rs1 imm => Sys2Proof.Machine.execAddi rd rs1 imm s
  | .slti rd rs1 imm => Sys2Proof.Machine.execSlti rd rs1 imm s
  | .sltiu rd rs1 imm => Sys2Proof.Machine.execSltiu rd rs1 imm s
  | .xori rd rs1 imm => Sys2Proof.Machine.execXori rd rs1 imm s
  | .ori rd rs1 imm => Sys2Proof.Machine.execOri rd rs1 imm s
  | .andi rd rs1 imm => Sys2Proof.Machine.execAndi rd rs1 imm s
  | .slli rd rs1 shamt => Sys2Proof.Machine.execSlli rd rs1 shamt s
  | .srli rd rs1 shamt => Sys2Proof.Machine.execSrli rd rs1 shamt s
  | .srai rd rs1 shamt => Sys2Proof.Machine.execSrai rd rs1 shamt s
  | .rori rd rs1 shamt => Sys2Proof.Machine.execRori rd rs1 shamt s
  | .clz rd rs1 => Sys2Proof.Machine.execClz rd rs1 s
  | .ctz rd rs1 => Sys2Proof.Machine.execCtz rd rs1 s
  | .cpop rd rs1 => Sys2Proof.Machine.execCpop rd rs1 s
  | .sextB rd rs1 => Sys2Proof.Machine.execSextB rd rs1 s
  | .sextH rd rs1 => Sys2Proof.Machine.execSextH rd rs1 s
  | .orcB rd rs1 => Sys2Proof.Machine.execOrcB rd rs1 s
  | .rev8 rd rs1 => Sys2Proof.Machine.execRev8 rd rs1 s
  | .addiw rd rs1 imm => Sys2Proof.Machine.execAddiw rd rs1 imm s
  | .slliw rd rs1 shamt => Sys2Proof.Machine.execSlliw rd rs1 shamt s
  | .srliw rd rs1 shamt => Sys2Proof.Machine.execSrliw rd rs1 shamt s
  | .sraiw rd rs1 shamt => Sys2Proof.Machine.execSraiw rd rs1 shamt s
  | .roriw rd rs1 shamt => Sys2Proof.Machine.execRoriw rd rs1 shamt s
  | .slliUw rd rs1 shamt => Sys2Proof.Machine.execSlliUw rd rs1 shamt s
  | .clzw rd rs1 => Sys2Proof.Machine.execClzw rd rs1 s
  | .ctzw rd rs1 => Sys2Proof.Machine.execCtzw rd rs1 s
  | .cpopw rd rs1 => Sys2Proof.Machine.execCpopw rd rs1 s
  | .add rd rs1 rs2 => Sys2Proof.Machine.execAdd rd rs1 rs2 s
  | .sll rd rs1 rs2 => Sys2Proof.Machine.execSll rd rs1 rs2 s
  | .slt rd rs1 rs2 => Sys2Proof.Machine.execSlt rd rs1 rs2 s
  | .sltu rd rs1 rs2 => Sys2Proof.Machine.execSltu rd rs1 rs2 s
  | .xor rd rs1 rs2 => Sys2Proof.Machine.execXor rd rs1 rs2 s
  | .srl rd rs1 rs2 => Sys2Proof.Machine.execSrl rd rs1 rs2 s
  | .or rd rs1 rs2 => Sys2Proof.Machine.execOr rd rs1 rs2 s
  | .and rd rs1 rs2 => Sys2Proof.Machine.execAnd rd rs1 rs2 s
  | .sub rd rs1 rs2 => Sys2Proof.Machine.execSub rd rs1 rs2 s
  | .sra rd rs1 rs2 => Sys2Proof.Machine.execSra rd rs1 rs2 s
  | .xnor rd rs1 rs2 => Sys2Proof.Machine.execXnor rd rs1 rs2 s
  | .orn rd rs1 rs2 => Sys2Proof.Machine.execOrn rd rs1 rs2 s
  | .andn rd rs1 rs2 => Sys2Proof.Machine.execAndn rd rs1 rs2 s
  | .mul rd rs1 rs2 => Sys2Proof.Machine.execMul rd rs1 rs2 s
  | .mulh rd rs1 rs2 => Sys2Proof.Machine.execMulh rd rs1 rs2 s
  | .mulhsu rd rs1 rs2 => Sys2Proof.Machine.execMulhsu rd rs1 rs2 s
  | .mulhu rd rs1 rs2 => Sys2Proof.Machine.execMulhu rd rs1 rs2 s
  | .div rd rs1 rs2 => Sys2Proof.Machine.execDiv rd rs1 rs2 s
  | .divu rd rs1 rs2 => Sys2Proof.Machine.execDivu rd rs1 rs2 s
  | .rem rd rs1 rs2 => Sys2Proof.Machine.execRem rd rs1 rs2 s
  | .remu rd rs1 rs2 => Sys2Proof.Machine.execRemu rd rs1 rs2 s
  | .sh1add rd rs1 rs2 => Sys2Proof.Machine.execSh1add rd rs1 rs2 s
  | .sh2add rd rs1 rs2 => Sys2Proof.Machine.execSh2add rd rs1 rs2 s
  | .sh3add rd rs1 rs2 => Sys2Proof.Machine.execSh3add rd rs1 rs2 s
  | .min rd rs1 rs2 => Sys2Proof.Machine.execMin rd rs1 rs2 s
  | .minu rd rs1 rs2 => Sys2Proof.Machine.execMinu rd rs1 rs2 s
  | .max rd rs1 rs2 => Sys2Proof.Machine.execMax rd rs1 rs2 s
  | .maxu rd rs1 rs2 => Sys2Proof.Machine.execMaxu rd rs1 rs2 s
  | .rol rd rs1 rs2 => Sys2Proof.Machine.execRol rd rs1 rs2 s
  | .ror rd rs1 rs2 => Sys2Proof.Machine.execRor rd rs1 rs2 s
  | .czeroEqz rd rs1 rs2 => Sys2Proof.Machine.execCzeroEqz rd rs1 rs2 s
  | .czeroNez rd rs1 rs2 => Sys2Proof.Machine.execCzeroNez rd rs1 rs2 s
  | .addw rd rs1 rs2 => Sys2Proof.Machine.execAddw rd rs1 rs2 s
  | .sllw rd rs1 rs2 => Sys2Proof.Machine.execSllw rd rs1 rs2 s
  | .srlw rd rs1 rs2 => Sys2Proof.Machine.execSrlw rd rs1 rs2 s
  | .subw rd rs1 rs2 => Sys2Proof.Machine.execSubw rd rs1 rs2 s
  | .sraw rd rs1 rs2 => Sys2Proof.Machine.execSraw rd rs1 rs2 s
  | .mulw rd rs1 rs2 => Sys2Proof.Machine.execMulw rd rs1 rs2 s
  | .divw rd rs1 rs2 => Sys2Proof.Machine.execDivw rd rs1 rs2 s
  | .divuw rd rs1 rs2 => Sys2Proof.Machine.execDivuw rd rs1 rs2 s
  | .remw rd rs1 rs2 => Sys2Proof.Machine.execRemw rd rs1 rs2 s
  | .remuw rd rs1 rs2 => Sys2Proof.Machine.execRemuw rd rs1 rs2 s
  | .addUw rd rs1 rs2 => Sys2Proof.Machine.execAddUw rd rs1 rs2 s
  | .zextH rd rs1 => Sys2Proof.Machine.execZextH rd rs1 s
  | .sh1addUw rd rs1 rs2 => Sys2Proof.Machine.execSh1addUw rd rs1 rs2 s
  | .sh2addUw rd rs1 rs2 => Sys2Proof.Machine.execSh2addUw rd rs1 rs2 s
  | .sh3addUw rd rs1 rs2 => Sys2Proof.Machine.execSh3addUw rd rs1 rs2 s
  | .rolw rd rs1 rs2 => Sys2Proof.Machine.execRolw rd rs1 rs2 s
  | .rorw rd rs1 rs2 => Sys2Proof.Machine.execRorw rd rs1 rs2 s
  | .fence fm pred succ rs1 rd => Sys2Proof.Machine.execFence fm pred succ rs1 rd s
  | .pause => Sys2Proof.Machine.execPause s
  | .fenceI imm rs1 rd => Sys2Proof.Machine.execFenceI imm rs1 rd s
  | .lr aq rl w rd rs1 => Sys2Proof.Machine.execLr aq rl w rd rs1 s
  | .amoswap aq rl w rd rs1 rs2 => Sys2Proof.Machine.execAmoswap aq rl w rd rs1 rs2 s
  | .amoadd aq rl w rd rs1 rs2 => Sys2Proof.Machine.execAmoadd aq rl w rd rs1 rs2 s
  | .amoxor aq rl w rd rs1 rs2 => Sys2Proof.Machine.execAmoxor aq rl w rd rs1 rs2 s
  | .amoand aq rl w rd rs1 rs2 => Sys2Proof.Machine.execAmoand aq rl w rd rs1 rs2 s
  | .amoor aq rl w rd rs1 rs2 => Sys2Proof.Machine.execAmoor aq rl w rd rs1 rs2 s
  | .amomin aq rl w rd rs1 rs2 => Sys2Proof.Machine.execAmomin aq rl w rd rs1 rs2 s
  | .amomax aq rl w rd rs1 rs2 => Sys2Proof.Machine.execAmomax aq rl w rd rs1 rs2 s
  | .amominu aq rl w rd rs1 rs2 => Sys2Proof.Machine.execAmominu aq rl w rd rs1 rs2 s
  | .amomaxu aq rl w rd rs1 rs2 => Sys2Proof.Machine.execAmomaxu aq rl w rd rs1 rs2 s
  | .ecall => Sys2Proof.Machine.execEcall s
  | .ebreak => Sys2Proof.Machine.execEbreak s
  | .sret => Sys2Proof.Machine.execSret s
  | .wfi => Sys2Proof.Machine.execWfi s
  | .qstat rd n => Sys2Proof.Machine.execQstat rd n s
  | .vdrain => Sys2Proof.Machine.execVdrain s
  | .lqpop rd => Sys2Proof.Machine.execLqpop rd s
  | .vsptr rd rs1 => Sys2Proof.Machine.execVsptr rd rs1 s
  | .vstrip rs1 rs2 off => Sys2Proof.Machine.execVstrip rs1 rs2 off s
  | .bpany p off => Sys2Proof.Machine.execBpany p off s
  | .bpall p off => Sys2Proof.Machine.execBpall p off s
  | .bpnone p off => Sys2Proof.Machine.execBpnone p off s
  | .rres scope svc rd rs1 => Sys2Proof.Machine.execRres scope svc rd rs1 s
  | .rcom scope eos rs1 => Sys2Proof.Machine.execRcom scope eos rs1 s
  | .racq scope rd rs1 => Sys2Proof.Machine.execRacq scope rd rs1 s
  | .rrel scope rs1 => Sys2Proof.Machine.execRrel scope rs1 s
  | .rpush scope rs1 rs2 => Sys2Proof.Machine.execRpush scope rs1 rs2 s
  | .rpop scope rd rs1 => Sys2Proof.Machine.execRpop scope rd rs1 s
  | .rstat scope rd rs1 => Sys2Proof.Machine.execRstat scope rd rs1 s
  | .rclose scope cons rs1 => Sys2Proof.Machine.execRclose scope cons rs1 s
  | .rbeacon scope rs1 rs2 => Sys2Proof.Machine.execRbeacon scope rs1 rs2 s
  | .hbind rs1 rs2 => Sys2Proof.Machine.execHbind rs1 rs2 s
  | .hdone => Sys2Proof.Machine.execHdone s
  | .pclaim rd rs1 rs2 => Sys2Proof.Machine.execPclaim rd rs1 rs2 s
  | .tbegin rd off => Sys2Proof.Machine.execTbegin rd off s
  | .tend => Sys2Proof.Machine.execTend s
  | .tretry => Sys2Proof.Machine.execTretry s
  | .tabort code => Sys2Proof.Machine.execTabort code s
  | .fenceS scope succ pred => Sys2Proof.Machine.execFenceS scope succ pred s
  | .amoincw aq rl scope width rd rs1 rs2 => Sys2Proof.Machine.execAmoincw aq rl scope width rd rs1 rs2 s
  | .amoaddb width rd rs1 rs2 rs3 => Sys2Proof.Machine.execAmoaddb width rd rs1 rs2 rs3 s
  | .awopen rs1 rs2 => Sys2Proof.Machine.execAwopen rs1 rs2 s
  | .awmerge scope => Sys2Proof.Machine.execAwmerge scope s
  | .awclose => Sys2Proof.Machine.execAwclose s

end Sys2Proof.Machine
end

