-- ==== Sys2Proof/Machine/Schedule.lean ====
section
/-! DEFINITION. Whose turn it is: issue selection among the harts, the deadlines that come due, and what stands before
the next instruction of a hart (01 R29, 07 R170 to R172, 17 R366, 21 R429, R435). -/

namespace Sys2Proof.Machine

/-! ## Issue selection (R170, R171, R172) -/

/-- The hart's budget class. -/
def Hart.budgetClass (h : Hart) : Nat := (h.placed.map Placed.bclass).getD 0

/-- Base priority plus age steps, 7 at most (R171). -/
def Hart.priority (h : Hart) : Nat := min 7 ((h.placed.map Placed.prio).getD 0 + h.age)

/-- used(c) of the hart's core (R172). -/
def State.slotsUsed (s : State) (h : Hart) : Nat := assocGet h.budgetClass 0 (s.core h.id.coreId).used

def State.slotBudget (s : State) (h : Hart) : Budget := (s.cluster h.id.clusterId).budget 0 h.budgetClass h.id.core

/-- The hart is within its budget of issue slots. -/
def State.withinBudget (s : State) (h : Hart) : Bool := decide (s.slotsUsed h < (s.slotBudget h).limit)

/-- The hart would be a candidate but for its budget: runnable and not Held. -/
def Hart.ready (h : Hart) : Bool := h.runnable && h.held.isNone

/-- The hart is a candidate (R170): ready and within its budget, or with slack shared while no ready hart of its core is
within its own (R172). -/
def State.candidate (s : State) (h : Hart) : Bool :=
  h.ready && (s.withinBudget h ||
    ((s.slotBudget h).slack && !(s.harts.any fun o => o.id.coreId == h.id.coreId && o.ready && s.withinBudget o)))

/-- How far b comes after a among n in turn, 0 for the next one. -/
def turnsAfter (n a b : Nat) : Nat := (b + n - (a + 1) % n) % n

/-- The element of least measure. -/
def leastBy {α : Type} (f : α → Nat) : List α → Option α
  | [] => none
  | a :: l =>
    match leastBy f l with
    | none => some a
    | some b => if f b < f a then some b else some a

/-- The core that issues next: cores with candidates take turns (log entry 3). -/
def State.nextCore (s : State) : Option CoreId :=
  (leastBy (fun h => turnsAfter 1536 s.hart.id.coreId.number h.id.coreId.number) (s.harts.filter s.candidate)).map
    fun h => h.id.coreId

/-- The candidates of a core. -/
def State.candidates (s : State) (c : CoreId) : List Hart := s.harts.filter fun h => h.id.coreId == c && s.candidate h

/-- Those that the second slot of the cycle may go to: not the hart that has the first (R170). -/
def State.secondSlot (s : State) (c : CoreId) : List Hart :=
  match (s.core c).first with
  | some n => (s.candidates c).filter fun h => h.id.hart != n
  | none => []

/-- The hart that a core selects: the highest effective priority, in turn within a level (R170), for the second slot of
its cycle if another hart has the first, else for the first slot of the next cycle. -/
def State.pick (s : State) (c : CoreId) : Option HartId :=
  let l := s.secondSlot c
  let last (level : Nat) : Nat := assocGet level 7 (s.core c).lastPicks
  (leastBy (fun h => 8 * (7 - h.priority) + turnsAfter 8 (last h.priority) h.id.hart)
    (if l.isEmpty then s.candidates c else l)).map Hart.id

/-- A candidate that a cycle did not select (R171): 4,096 times in a row make an age step. -/
def Hart.passedOver (h : Hart) : Hart :=
  if h.unselected + 1 < 4096 then { h with unselected := h.unselected + 1 }
  else { h with unselected := 0, age := min 3 (h.age + 1) }

/-- A hart that is no candidate now: its cycles without selection are not consecutive (R171). -/
def State.interrupted (s : State) (h : Hart) : Hart := if s.candidate h then h else { h with unselected := 0 }

/-- A hart after a selection of its core: the second slot ends the cycle for the others. -/
def State.afterPick (s : State) (id : HartId) (h : Hart) : Hart :=
  if h.id = id then { h with unselected := 0, age := 0 }
  else if (s.secondSlot id.coreId).any fun o => o.id == h.id then h.passedOver
  else h

/-- The hart that waits and is tried again now: those that wait take turns by the cycle (log entry 3). -/
def State.retried (s : State) : Option HartId :=
  let l := (s.harts.filter fun h => h.runnable && h.held.isSome).map Hart.id
  l.find? fun h => (l.filter fun o => decide (o.number < h.number)).length == s.clock / 2 % l.length

/-- The next hart gets the turn: in odd cycles a hart that waits tries again, in the others a core selects. If there is
none of the one sort, one of the other; none means that no hart can run. -/
def State.select (s : State) : Option State :=
  let u := s.mapHarts s.interrupted
  let picked := (s.nextCore.bind s.pick).map fun id =>
    let level := (s.hartAt id).priority
    ((u.mapHarts (s.afterPick id)).focus id).modCore id.coreId fun k => { k with
      lastPicks := assocSet level id.hart k.lastPicks,
      first := if (s.secondSlot id.coreId).isEmpty then some id.hart else none }
  let retried := s.retried.map u.focus
  if s.clock % 2 = 1 then retried.orElse fun _ => picked else picked.orElse fun _ => retried

/-- The slot that the hart filled counts against its class (R172); a hart that waits has filled none. -/
def State.charge (s : State) : State :=
  if s.hart.held.isSome then s
  else s.modCore s.hart.id.coreId fun k =>
    { k with used := assocSet s.hart.budgetClass (s.slotsUsed s.hart + 1) k.used }

/-! ## What comes due (R13, R90, R211) -/

/-- The events that the cycle count and the reference bring about: the ends of pauses and sleeps, and the interrupts of
harts that issue nothing; and the performing of what a hart that waits has appended (R152). -/
def State.due (s : State) : List Instr :=
  s.harts.flatMap (fun h => if h.held.isSome then h.appendedTo.map fun k => .streamStorePerform h.id (BitVec.ofNat 4 k) else []) ++
  s.harts.flatMap (fun h =>
    match h.run with
    | .paused =>
      (if (h.deadline.getD 0) ≤ s.clock then [.pauseExpiry h.id] else []) ++
      (if (({ s with hart := h } : State).pendingInterrupt).isSome then [.trapEntry { hart := h.id, error := false }] else [])
    | .sleeping =>
      (match h.deadline with
        | some d => if d ≤ s.clock then [.txdeadlineExpiry h.id] else []
        | none => []) ++
      (if (({ s with hart := h } : State).pendingInterrupt).isSome then [.trapEntry { hart := h.id, error := false }] else [])
    | _ => []) ++
  s.cores.flatMap fun c => c.2.wakes.filterMap fun w =>
    match w.deadline with
    | some d => if d ≤ s.clock then some (.txdeadlineExpiry { die := c.1.die, cluster := c.1.cluster, core := c.1.core, hart := w.ctx })
      else none
    | none => none

/-- A turn is over: a cycle passes, and what has come due enters the inbox unless it stands there already. -/
def State.endTurn (s : State) : State :=
  let t := ({ s with selected := false, walks := [] } : State).cycle
  t.post (t.due.filter fun i => !t.inbox.contains i)

/-! ## Before the next instruction -/

/-- What a hart's turn begins with: nothing to run, a trap or an abort taken at this boundary instead of an instruction,
or an instruction to fetch. -/
inductive Turn where
  | idle (s : State)
  | boundary (s : State)
  | run (s : State)
  deriving DecidableEq, Repr

/-- The turn of a hart that has it: its streams go on first, and a pending fault or interrupt is taken before the next
instruction (R364, R366). -/
def State.begin_ (s : State) : Turn :=
  if !s.hart.runnable then .idle s
  else
    let t := s.pump
    if t.hart.pc ≠ s.hart.pc ∨ !t.hart.runnable then .boundary t
    else
      match t.boundary with
      | some u => .boundary u
      | none => .run t

/-- The turn of the hart that the next step runs: `hart` itself where the state says so, else the one selected. -/
def State.turn (s : State) : Turn :=
  if s.selected && s.inbox.isEmpty then s.begin_
  else
    match s.select with
    | some t => t.begin_
    | none => .idle s

/-- The step of a hart that has been fetched and executed is over. -/
def State.endIssue (s : State) : State := s.charge.endTurn

/-- The end of a step, whatever its outcome. -/
def finish (f : State → State) (o : Host.Outcome State Fault Refusal) : Host.Outcome State Fault Refusal :=
  match o with
  | .next t => .next (f t)
  | .fault x => .fault x
  | .refused r => .refused r

/-- What a fetch that found no instruction means: an illegal-instruction trap, or the fault of the fetch (R62, R256). -/
def State.fetchFailed (s : State) (tval : Word) : State := s.fault { cause := 2, tval := tval, vf := none } s.hart.pc

/-! ## A device that does not run (R430, R435) -/

/-- An event that a frozen device takes: a reset. -/
def isReset (i : Instr) : Bool :=
  match i with
  | .coldReset | .warmReset => true
  | _ => false

/-- An event that a device in recovery takes: a reset, or a security message. -/
def inRecovery (i : Instr) : Bool :=
  match i with
  | .coldReset | .warmReset | .getVersion _ | .getCapabilities _ | .negotiateAlgorithms _ | .getDigests _
  | .getCertificate _ | .challenge _ | .getMeasurements _ | .unsupportedRequest _ | .doeAbort => true
  | _ => false

/-- The event that the next step takes: the first reset of a frozen device's inbox, the oldest event that a device in
recovery takes, or the oldest event before any hart's turn. -/
def State.nextEvent (s : State) : Option (Instr × List Instr) :=
  match s.dev.boot with
  | .frozen => (s.inbox.find? isReset).map fun i => (i, s.inbox)
  | .recovery =>
    match s.inbox.dropWhile fun i => !inRecovery i with
    | i :: l => some (i, l)
    | [] => none
  | .running =>
    if s.selected then none
    else
      match s.inbox with
      | i :: l => some (i, l)
      | [] => none

end Sys2Proof.Machine
end

