-- ==== Sys2Proof/Machine/Step.lean ====
section
/-! DEFINITION. One step of the machine: an event of the inbox, or a hart's next instruction. -/

namespace Sys2Proof.Machine

/-- The instruction at the pc of a hart that is to run one. -/
noncomputable def runInstr (t : State) : Host.Outcome State Fault Refusal :=
  match fetchInstr t with
  | .ok (.instr i _) u => exec i u
  | .ok (.illegal tval) u => .next (u.fetchFailed tval)
  | .error e u => t.ended e u

/-- A hart's turn. A stream that would execute an experimental combination stops the machine (R427). -/
noncomputable def stepHart (s : State) : Host.Outcome State Fault Refusal :=
  match s.turn with
  | .idle t => .next t.endTurn
  | .boundary t => .next t.endTurn
  | .run t => if t.hart.expansionDue then .refused .expansionBody else finish State.endIssue (runInstr t)

/-- One step: the oldest event, or a hart's turn. A device that is frozen or in recovery runs no hart. -/
noncomputable def step (s : State) : Host.Outcome State Fault Refusal :=
  match s.nextEvent with
  | some (i, rest) => if i.wf then exec i { s with inbox := rest } else .fault .noSuchUnit
  | none => if s.dev.boot = .running then stepHart s else .next s

/-- The state with an instruction where the next step fetches: at 0x10_0001_0000, in an address space whose one page maps
the first 512 GiB onto themselves for U mode, by the root table at 0x10_0000_0000; the hart runs and has the next turn
(log entry 33). -/
def State.withFetchWord (s : State) (nbits w : Nat) : State :=
  let m1 := s.mem.write 0x10_0000_0000 8 0xDF
  { s with
    mem := m1.write 0x10_0001_0000 8 (w % 2 ^ nbits)
    poison := s.poison.filter fun k => k != 0x10_0000_0000 / 32 && k != 0x10_0001_0000 / 32
    hart := { s.hart with
      run := .running, held := none, pc := 0x10_0001_0000#64, priv := .user, satp := 0x9000_0000_0100_0000#64,
      fetchBuf := [], faults := [], tx := none, sstatus := s.hart.sstatus, sie := 0#64 }
    cores := s.cores.map fun c => (c.1, { c.2 with tlb := [] })
    clusters := s.clusters.map fun c => (c.1, { c.2 with tlb := [] })
    dev := { s.dev with boot := .running }
    inbox := []
    selected := true }

end Sys2Proof.Machine
end

