-- ==== Sys2Proof/Safety.lean ====
section
/-! DEFINITION. What counts as a safe state and a safe run, and the words that the statements about single instructions
are made of. -/

namespace Sys2Proof.Machine

/-! ## Safe states and runs -/

/-- The invariant of the model's own data: memory keeps its canonical form, so that equal memories are equal data. -/
def State.Inv (s : State) : Prop := s.mem.wf = true

/-- A run of n steps from a state that meets no fault; a refusal ends it. -/
def safeRun (s : State) (n : Nat) : Prop :=
  match Sys2Proof.core.run n s with
  | .next _ => True
  | .fault _ => False
  | .refused _ => True

/-- The outcome is a next state with a property. -/
def reaches (o : Host.Outcome State Fault Refusal) (p : State → Prop) : Prop := ∃ t, o = .next t ∧ p t

/-! ## What an instruction of the scalar stream changes -/

/-- t is s with nothing changed but the x registers and the pc of the hart, the instruction counted and no wait left. -/
def scalarOnly (s t : State) : Prop :=
  t = { s with hart := { s.hart with
    x := t.hart.x, pc := t.hart.pc, instret := s.hart.instret + 1, held := none } }

/-- Register rd holds v afterwards, x0 excepted, and the other registers hold what they held. -/
def setsReg (s t : State) (rd : Reg) (v : Word) : Prop :=
  t.hart.rx rd = (if rd = 0#5 then 0#64 else v) ∧ ∀ r, r ≠ rd → t.hart.rx r = s.hart.rx r

/-- pc has moved past n bytes. -/
def movesOn (s t : State) (n : Nat) : Prop := t.hart.pc = s.hart.pc + BitVec.ofNat 64 n

/-- The whole effect of a 4-byte scalar instruction is a value for rd. -/
def scalarResult (i : Instr) (s : State) (rd : Reg) (v : Word) : Prop :=
  reaches (exec i s) fun t => setsReg s t rd v ∧ movesOn s t 4 ∧ scalarOnly s t

/-- The same, with the value given bit by bit. -/
def scalarBits (i : Instr) (s : State) (rd : Reg) (f : Nat → Bool) : Prop :=
  ∃ v : Word, (∀ k, k < 64 → v.getLsbD k = f k) ∧ scalarResult i s rd v

/-- No register has changed. -/
def sameRegs (s t : State) : Prop := t.hart.x = s.hart.x

/-- A value as a 32-bit two's complement number. -/
def as32 (v : Int) : Int := Int.bmod v (2 ^ 32)

/-- The place, from the low end, of the 32-bit result bit that bit k of the register shows. -/
def low31 (k : Nat) : Nat := min k 31

/-- n is the number of zero bits of f above the highest of its w bits that is set. -/
def zerosAbove (f : Nat → Bool) (w n : Nat) : Prop :=
  n ≤ w ∧ (∀ k, k < n → f (w - 1 - k) = false) ∧ (n < w → f (w - 1 - n) = true)

/-- n is the number of zero bits of f below the lowest of its w bits that is set. -/
def zerosBelow (f : Nat → Bool) (w n : Nat) : Prop :=
  n ≤ w ∧ (∀ k, k < n → f k = false) ∧ (n < w → f n = true)

/-- A count of w bits is the result. -/
def countResult (i : Instr) (s : State) (rd : Reg) (p : Nat → Prop) : Prop :=
  ∃ n, p n ∧ scalarResult i s rd (BitVec.ofNat 64 n)

/-! ## Jumps and traps -/

/-- A fault of cause goes to the hart's own S mode: no transaction is open, no frame is held, and neither the cause nor
the hart's routing word sends it to the Lantern (R364, R370). -/
def State.trapsHere (s : State) (cause : Nat) (tval : Word) : Prop :=
  s.hart.tx = none ∧ s.hart.frame = none ∧ cause ≠ 48 ∧ ¬(cause = 26 ∧ tval = 0#64) ∧
  s.hart.trroute.getLsbD cause = false

/-- What a trap into S mode writes and where it goes (R368): sepc is the pc, and sstatus keeps its other bits. -/
def entersS (s t : State) (cause : Nat) (tval : Word) : Prop :=
  t.hart.priv = .supervisor ∧ t.hart.pc = (s.hart.stvec &&& ~~~3#64) ∧ t.hart.sepc = s.hart.pc ∧
  t.hart.scause = BitVec.ofNat 64 cause ∧ t.hart.stval = tval ∧
  t.hart.sstatus.getLsbD 8 = decide (s.hart.priv = .supervisor) ∧
  t.hart.sstatus.getLsbD 5 = s.hart.sstatus.getLsbD 1 ∧ t.hart.sstatus.getLsbD 1 = false ∧
  (∀ k, k ≠ 8 → k ≠ 5 → k ≠ 1 → t.hart.sstatus.getLsbD k = s.hart.sstatus.getLsbD k) ∧
  t.hart.run = .running ∧ t.hart.held = none ∧ t.hart.reservation = none ∧ t.hart.fetchBuf = []

/-- Nothing else of the machine has changed at a trap that finds the queues and their registers empty: what the hart has
asked other devices for it will ask again, and the lines it was acquiring are free. -/
def trapOnly (s t : State) : Prop :=
  t = { s.dropReads s.hart.id with hart := { s.hart with
    priv := t.hart.priv, pc := t.hart.pc, sepc := t.hart.sepc, scause := t.hart.scause, stval := t.hart.stval,
    sstatus := t.hart.sstatus, run := t.hart.run, held := t.hart.held, reservation := t.hart.reservation,
    fetchBuf := t.hart.fetchBuf, vfcause := t.hart.vfcause, acquiring := [] } }

/-- The instruction traps into S mode with a cause and a stval from t, the state that its translations have left; vfcause
names a cause of 24 and above and keeps its other fields (R368); and that is its whole effect if there is nothing to
detach. -/
def trapsFrom (i : Instr) (s t : State) (cause : Nat) (tval : Word) : Prop :=
  reaches (exec i s) fun u =>
    entersS t u cause tval ∧
    u.hart.vfcause = (if cause < 24 then t.hart.vfcause else setField t.hart.vfcause 24 8 cause) ∧
    (t.hart.detached = true → trapOnly t u)

/-- The same of an instruction that has translated nothing. -/
def trapsWith (i : Instr) (s : State) (cause : Nat) (tval : Word) : Prop := trapsFrom i s s cause tval

/-- The instruction goes to a target that is a multiple of 4, with link for rd; another target is an
instruction-address-misaligned fault, which changes no register. -/
def goesTo (i : Instr) (s : State) (rd : Reg) (link target : Word) : Prop :=
  (target.toNat % 4 = 0 →
    reaches (exec i s) fun t => setsReg s t rd link ∧ t.hart.pc = target ∧ scalarOnly s t) ∧
  (target.toNat % 4 ≠ 0 → s.trapsHere 0 target → trapsWith i s 0 target)

/-- The instruction goes to a target if a condition holds, and on to the next instruction otherwise. -/
def branchesTo (i : Instr) (s : State) (taken : Prop) (target : Word) : Prop :=
  (taken → goesTo i s 0#5 0#64 target) ∧
  (¬taken → reaches (exec i s) fun t => sameRegs s t ∧ movesOn s t 4 ∧ scalarOnly s t)

/-- The branch target of an offset in halves. -/
def State.branchTarget (s : State) (off : BitVec 12) : Word := BitVec.ofInt 64 (s.hart.pc.toInt + 2 * off.toInt)

/-! ## A hart whose queues are empty -/

/-- No stream has an element that has been run ahead or appended. -/
def Hart.streamsIdle (h : Hart) : Prop := h.st.toList.all (fun r => r.ahead.isEmpty && r.appended.isEmpty) = true

/-- Nothing stands in the vector and matrix queues, no fault of theirs waits, no register is bound to a stream, no stream
has an element in hand, and no transaction is open. -/
def Hart.quiet (h : Hart) : Prop :=
  h.vq = [] ∧ h.mq = [] ∧ h.faults = [] ∧ h.bindings = [] ∧ h.tx = none ∧ h.streamsIdle

/-! ## Accesses that succeed -/

/-- A physical range starts where memory answers: in HBM, or in a bank of an aperture that is open (R234, R246). -/
def State.served (s : State) (pa : Nat) : Prop :=
  match region pa with
  | .hbm _ => True
  | .aperture c off => s.apertureOpen c off = true
  | _ => False

/-- n bytes at va lie in one line, and the hart's access to them is translated to memory at pa; t is the state after the
translation, which may set A and D bits and fill TLBs. -/
def State.maps (s : State) (a : Access) (va : Word) (n pa : Nat) (t : State) : Prop :=
  0 < n ∧ va.toNat % 128 + n ≤ 128 ∧ pa % 128 = va.toNat % 128 ∧
  (∃ skew, translate s s.hart.ctx va a = .ok ({ pa := pa, skew := skew }, t)) ∧ t.served pa

/-- The bytes can be read: they are mapped and hold no poison. -/
def State.readable (s : State) (va : Word) (n pa : Nat) (t : State) : Prop :=
  s.maps .load va n pa t ∧ t.poisoned pa n = false

/-- The bytes can be written: they are mapped and no ordered transaction of another hart holds their line. -/
def State.writable (s : State) (va : Word) (n pa : Nat) (t : State) : Prop :=
  s.maps .store va n pa t ∧ t.lineHeld (some s.hart.id) (pa / 128) = false

/-- Every byte of memory outside n bytes at pa reads in t as in s. -/
def sameBytesBut (s t : State) (pa n : Nat) : Prop :=
  ∀ a, a < pa ∨ pa + n ≤ a → t.mem.get a = s.mem.get a

/-- Every byte of memory reads in t as in s. -/
def sameBytes (s t : State) : Prop := ∀ a, t.mem.get a = s.mem.get a

/-- What a store of a hart's own changes of the machine beside the bytes at a line and the poison of their sectors: the
reservations on the line end, transactions of other harts that have read it are doomed, and those that wait for it are
woken (R94, R207, R211). -/
def storeOnly (s t : State) (line : Nat) : Prop :=
  t = { s with
    mem := t.mem, poison := t.poison, inbox := s.inbox ++ s.wakesOf line,
    hart := { s.hart with
      x := t.hart.x, pc := t.hart.pc, instret := s.hart.instret + 1, held := none, reservation := t.hart.reservation }
    others := s.others.map fun h => h.seesWrite s.dev.coarse (some s.hart.id) line } ∧
  t.hart.reservation = s.hart.reservation.filter (fun r => r.line ≠ line) ∧ ∀ k, k ∈ t.poison → k ∈ s.poison

/-- The scalar stream's accesses go to memory at once: no older queued access is outstanding, the streams are idle, and no
transaction is open. -/
def State.direct (s : State) : Prop := s.hart.memoryQueued = false ∧ s.hart.streamsIdle ∧ s.hart.tx = none

/-- Nothing remains for a release at system scope to wait for. -/
def State.released (s : State) : Prop := s.dev.requests.all (fun r => !r.write) = true ∧ s.hart.hostDirty = false

/-- A load of n bytes at va whose value for rd is f of the number that the bytes hold. -/
def loadResult (i : Instr) (s : State) (rd : Reg) (va : Word) (n : Nat) (f : Nat → Word) : Prop :=
  ∀ pa t, s.readable va n pa t →
    reaches (exec i s) fun u => setsReg s u rd (f (t.mem.read pa n)) ∧ movesOn s u 4 ∧ scalarOnly t u

/-- A store of the n low bytes of v at va. -/
def storeResult (i : Instr) (s : State) (va : Word) (n : Nat) (v : Nat) : Prop :=
  ∀ pa t, s.writable va n pa t →
    reaches (exec i s) fun u => u.mem.read pa n = v % 256 ^ n ∧ sameBytesBut t u pa n ∧ sameRegs s u ∧ movesOn s u 4 ∧
      storeOnly t u (pa / 128)

/-- An atomic on n aligned bytes at va: it writes what f gives for the number it finds, if anything, and rd takes g of
that number. -/
def atomicResult (i : Instr) (s : State) (rd : Reg) (va : Word) (n : Nat) (f : Nat → Option Nat) (g : Nat → Word) :
    Prop :=
  ∀ pa t, va.toNat % n = 0 → s.writable va n pa t → t.poisoned pa n = false →
    reaches (exec i s) fun u =>
      setsReg s u rd (g (t.mem.read pa n)) ∧ movesOn s u 4 ∧
      match f (t.mem.read pa n) with
      | some v => u.mem.read pa n = v ∧ sameBytesBut t u pa n ∧ storeOnly t u (pa / 128)
      | none => scalarOnly t u

/-- The signed and the unsigned number in n bytes, as a register shows them. -/
def signedBytes (n x : Nat) : Word := BitVec.ofInt 64 (Int.bmod x (256 ^ n))
def unsignedBytes (n x : Nat) : Word := BitVec.ofNat 64 (x % 256 ^ n)

/-- The address rs1 + offset. -/
def State.addressOf (s : State) (rs1 : Reg) (off : BitVec 12) : Word :=
  BitVec.ofInt 64 ((s.hart.rx rs1).toInt + off.toInt)

/-! ## CSRs -/

/-- The bits that a write of a CSR takes, and the bits that it leaves (R10, R13, R19 to R22, R190, R199, R221, R367,
R442); old is what the CSR read before. -/
def csrTakes (a : Nat) (v : Word) : Word :=
  match a with
  | 0x100 => 0xC_0122#64
  | 0x104 => 0xFFFF#64
  | 0x105 => ~~~2#64
  | 0x106 => 7#64
  | 0x10A => if v.extractLsb' 4 2 = 2#2 then 0xC1#64 else 0xF1#64
  | 0x141 => ~~~3#64
  | 0x144 => 2#64
  | 0x180 => 0#64
  | 0x5C2 => 0xFF03_03FF#64
  | 0x5C4 => 0#64
  | 0x801 => 7#64
  | 0x802 => 0x3F#64
  | 0x803 => 0x7FF#64
  | 0x804 => 0x3F#64
  | 0x806 => ~~~0x1FF#64
  | 0x808 => 0xFFFF_FFFF_0000_1F1F#64
  | 0x809 => 0xFF87_FFFF#64
  | 0x80B => 0xFF_871F_077F#64
  | 0x80C => 0xE000_0000#64
  | _ => BitVec.allOnes 64

def csrLeaves (a : Nat) (v : Word) : Word :=
  match a with
  | 0x100 => 0x2_0000_0000#64
  | 0x10A | 0x144 | 0x180 | 0x5C4 | 0x80B | 0x80C => ~~~(csrTakes a v)
  | _ => 0#64

/-- What a CSR reads after a write of v. -/
def csrAfter (a : Nat) (old v : Word) : Word := (v &&& csrTakes a v) ||| (old &&& csrLeaves a v)

/-- The instruction writes v to a CSR that read old: rd takes the old value, the CSR reads as the rules of its fields
say, and every other CSR reads as before, but for instret and for what a new stimecmp makes of sip.STIP. -/
def csrWrites (i : Instr) (s : State) (a : Nat) (rd : Reg) (old v : Word) : Prop :=
  reaches (exec i s) fun t =>
    setsReg s t rd old ∧ movesOn s t 4 ∧ t.readCsr a = some (csrAfter a old v) ∧
    (∀ b, b ≠ a → b ≠ 0xC02 → ¬(a = 0x14D ∧ b = 0x144) → t.readCsr b = s.readCsr b) ∧
    t = { s with hart := t.hart } ∧ t.hart.instret = s.hart.instret + 1 ∧ t.hart.v = s.hart.v ∧ t.hart.p = s.hart.p ∧
    t.hart.masks = s.hart.masks ∧ t.hart.q = s.hart.q ∧ t.hart.lq = s.hart.lq ∧ t.hart.vq = s.hart.vq ∧
    t.hart.mq = s.hart.mq ∧ t.hart.cq = s.hart.cq ∧ t.hart.tiles = s.hart.tiles ∧ t.hart.window = s.hart.window ∧
    t.hart.priv = s.hart.priv ∧ t.hart.run = s.hart.run ∧ t.hart.tx = s.hart.tx ∧ t.hart.frame = s.hart.frame ∧
    t.hart.reservation = s.hart.reservation ∧ t.hart.slots = s.hart.slots

/-- The instruction only reads a CSR. -/
def csrReads (i : Instr) (s : State) (rd : Reg) (old : Word) : Prop :=
  reaches (exec i s) fun t => setsReg s t rd old ∧ movesOn s t 4 ∧ scalarOnly s t

/-! ## Waiting -/

/-- The instruction is Held: nothing of the hart has changed but what it waits for. -/
def waitsFor (i : Instr) (s : State) (w : Held) : Prop :=
  reaches (exec i s) fun t => t.hart = { s.hart with held := some w } ∧ t.mem = s.mem

/-! ## Vectors and grants -/

/-- The registers after a change of level (R17): the bits that both levels have. -/
def keepsLevel (s t : State) (old new : Nat) : Prop :=
  (∀ r k, (t.hart.rv r).getLsbD k = ((s.hart.rv r).getLsbD k && (decide (old = new) || decide (k < 2048 * 2 ^ min old new)))) ∧
  ∀ r k, r ≠ 0 →
    (t.hart.rp r).getLsbD k = ((s.hart.rp r).getLsbD k && (decide (old = new) || decide (k < 256 * 2 ^ min old new)))

/-! ## What a vector instruction works with -/

/-- A vector instruction executes at once: the queues are empty, its rounding mode exists, and the lq entry and the q
entry that it takes are there (R21, R28, R29). -/
def State.dispatches (s : State) (w : WWord) (usesQ : Bool) : Prop :=
  s.hart.quiet ∧ (w.rm = 7#3 → s.hart.vfrm.toNat ≤ 4) ∧ (w.lqv = 1#1 → s.hart.lq ≠ []) ∧
  (usesQ = true → w.kind = 2 → s.hart.q.toList.getD (w.vs2.toNat % 4) [] ≠ [])

/-- The state without the lq entry and the q entry that the instruction takes. -/
def State.popped (s : State) (w : WWord) (usesQ : Bool) : State :=
  { s with hart := { s.hart with
    lq := if w.lqv = 1#1 then s.hart.lq.tail else s.hart.lq,
    q := if usesQ && w.kind == 2 then
        s.hart.q.setIfInBounds (w.vs2.toNat % 4) (s.hart.q.toList.getD (w.vs2.toNat % 4) []).tail
      else s.hart.q } }

/-- The width in force, in bits. -/
def State.bits (s : State) : Nat := 8 * 2 ^ (s.hart.vgrant.extractLsb' 0 2).toNat

/-- The palette word of an instruction (R46). -/
def State.palOf (s : State) (w : WWord) : Word := if w.xp = 0#5 then s.hart.vpal else s.hart.rx w.xp

/-- vl of an instruction: with lqv the lq entry, at most VLMAX (R29). -/
def State.vlOf (s : State) (w : WWord) : Nat :=
  if w.lqv = 1#1 then min (s.hart.lq.headD 0#32).toNat s.hart.vlmax else s.hart.vl

/-- What the instruction captures and takes: its context at dispatch (R27, R28). -/
def State.context (s : State) (i : Instr) (w : WWord) (usesQ : Bool) : VCtx :=
  { w := w,
    e := { pc := s.hart.pc, instr := i, seq := s.hart.seq, start := none, ready := true,
           cap := { x1 := s.hart.rx w.vs1, x3 := s.hart.rx w.vs3, pal := s.palOf w, vl := s.vlOf w,
                    x2 := if usesQ && w.kind == 2 then (s.hart.q.toList.getD (w.vs2.toNat % 4) []).headD 0#64
                      else s.hart.rx w.vs2,
                    width := s.hart.vgrant.extractLsb' 0 2, level := s.hart.vgrant.extractLsb' 2 2,
                    vfrm := s.hart.vfrm, vxmask := s.hart.vxmask } },
    vl := s.vlOf w, vlmax := s.hart.vlmax, bits := s.bits,
    mask := s.hart.rp w.pg.toNat &&& s.hart.currentMask,
    rm := if w.rm = 7#3 then s.hart.vfrm.toNat else w.rm.toNat, again := false }

/-- Element k of a register. -/
def State.el (s : State) (r : Reg) (k : Nat) : Nat := elem (s.hart.rv r.toNat) s.bits k

/-- The second operand's element k as a number of a signedness. -/
def VCtx.intOperand (c : VCtx) (s : State) (signed : Bool) (k : Nat) : Int :=
  decodeInt signed c.bits (c.operand (.int signed c.bits) (s.hart.rv c.w.vs2.toNat) k)

/-! ## What a vector instruction changes -/

/-- The instruction has completed: of the hart nothing has changed but vector and predicate registers, flags, vstart and
the entries taken, and pc has moved past its 8 bytes; nothing else of the machine has changed (R106). -/
def vectorDone (s t : State) (w : WWord) (usesQ : Bool) : Prop :=
  t = { s.popped w usesQ with hart := { (s.popped w usesQ).hart with
    v := t.hart.v, p := t.hart.p, vfflags := t.hart.vfflags, vstart := 0, pc := s.hart.pc + 8#64,
    instret := s.hart.instret + 1, seq := s.hart.seq + 1, held := none } }

/-- Element k is one that the instruction computes: from vstart up, below vl, and active (R106). -/
def VCtx.computes (c : VCtx) (s : State) (k : Nat) : Bool :=
  decide (s.hart.vstart ≤ k) && decide (k < c.vl) && c.active k

/-- The computed elements of dst have the patterns of f; the others, and the other registers, are as they were. -/
def elementsBecome (c : VCtx) (s t : State) (dst : Nat) (f : Nat → Nat) : Prop :=
  (∀ r, r ≠ dst → t.hart.rv r = s.hart.rv r) ∧
  ∀ k, (k + 1) * c.bits ≤ 16384 →
    elem (t.hart.rv dst) c.bits k = if c.computes s k then f k % 2 ^ c.bits else elem (s.hart.rv dst) c.bits k

/-- vfflags has gathered the flags of the computed elements (R55). -/
def flagsGathered (c : VCtx) (s t : State) (f : Nat → Flags) : Prop :=
  t.hart.vfflags = ((List.range c.vl).filter (c.computes s)).foldl (fun a k => a ||| f k) s.hart.vfflags

/-- What bit k of the exception mask becomes: set for a computed element that raised a flag of vxmask, clear for the
others from vstart up and from VLMAX up (R15, R54). -/
def VCtx.emBecomes (c : VCtx) (s : State) (f : Nat → Flags) (k : Nat) : Bool :=
  decide (k < c.vlmax) &&
    (if k < s.hart.vstart then (s.hart.rp c.w.pe.toNat).getLsbD k else c.computes s k && f k &&& s.hart.vxmask != 0#6)

/-- The predicates are as they were, but for the exception mask. -/
def predicatesKeep (c : VCtx) (s t : State) (f : Nat → Flags) : Prop :=
  ∀ r k, 0 < r → k < 2048 →
    (t.hart.rp r).getLsbD k =
      if c.w.em = 1#1 ∧ r = c.w.pe.toNat then c.emBecomes s f k else (s.hart.rp r).getLsbD k

/-- The vector instruction gives each computed element of dst a pattern, and raises flags. -/
def vectorResult (i : Instr) (s : State) (w : WWord) (usesQ : Bool) (dst : Reg) (f : VCtx → Nat → Nat × Flags) : Prop :=
  let c := s.context i w usesQ
  reaches (exec i s) fun t =>
    vectorDone s t w usesQ ∧ elementsBecome c s t dst.toNat (fun k => (f c k).1) ∧
    flagsGathered c s t (fun k => (f c k).2) ∧ predicatesKeep c s t fun k => (f c k).2

/-- The instruction gives each computed bit of predicate dst a value, clears its bits from VLMAX up, and raises flags; the
exception mask is written last (R15, R54, R113). -/
def predicateResult (i : Instr) (s : State) (w : WWord) (usesQ : Bool) (dst : Nat) (f : VCtx → Nat → Bool × Flags) :
    Prop :=
  let c := s.context i w usesQ
  let g := fun k => (f c k).2
  reaches (exec i s) fun t =>
    vectorDone s t w usesQ ∧ t.hart.v = s.hart.v ∧ flagsGathered c s t g ∧
    ∀ r k, 0 < r → k < 2048 →
      (t.hart.rp r).getLsbD k =
        if r = dst then
          decide (k < c.vlmax) && (if c.w.em = 1#1 ∧ r = c.w.pe.toNat then c.emBecomes s g k
            else if c.computes s k then (f c k).1 else (s.hart.rp r).getLsbD k)
        else if c.w.em = 1#1 ∧ r = c.w.pe.toNat then c.emBecomes s g k
        else (s.hart.rp r).getLsbD k

/-- The palette names integer formats of the width in force, and nothing reserved or scaled (R47, R109). -/
def State.intPalette (s : State) (w : WWord) (sa sb sd : Bool) : Prop :=
  let p := s.palOf w
  intFmt (palFa p) s.bits = some sa ∧ intFmt (palFb p) s.bits = some sb ∧ intFmt (palFd p) s.bits = some sd ∧
  palPlain p = true ∧ scalesZero p false false false = true

/-- A two-operand integer instruction computes f of its operands and b's pattern. -/
def intResult (i : Instr) (s : State) (w : WWord) (sa sb : Bool) (f : Int → Int → Nat → Nat × Flags) : Prop :=
  vectorResult i s w true w.vd fun c k =>
    f (decodeInt sa s.bits (s.el w.vs1 k)) (c.intOperand s sb k) (c.operand (.int sb c.bits) (s.hart.rv w.vs2.toNat) k)

/-- A pattern-only vector result: no flag is raised and no exception mask written. -/
def movedResult (i : Instr) (s : State) (w : WWord) (usesQ : Bool) (f : VCtx → Nat → Nat) : Prop :=
  vectorResult i s w usesQ w.vd fun c k => (f c k, 0#6)

/-- A whole-vector result: f gives the elements of vd that are written; predicates and flags stay. -/
def wholeResult (i : Instr) (s : State) (w : WWord) (f : VCtx → Nat → Option Nat) : Prop :=
  let c := s.context i w false
  reaches (exec i s) fun t =>
    vectorDone s t w false ∧ t.hart.p = s.hart.p ∧ t.hart.vfflags = s.hart.vfflags ∧
    (∀ r, r ≠ w.vd.toNat → t.hart.rv r = s.hart.rv r) ∧
    ∀ k, (k + 1) * c.bits ≤ 16384 →
      elem (t.hart.rv w.vd.toNat) c.bits k =
        match f c k with
        | some x => x % 2 ^ c.bits
        | none => elem (s.hart.rv w.vd.toNat) c.bits k

/-- A reduction's result: element 0 of vd, flags, and bit 0 of the exception mask, whose other bits are clear (R133). -/
def reductionResult (i : Instr) (s : State) (w : WWord) (r : VCtx → Nat × Flags) : Prop :=
  let c := s.context i w true
  reaches (exec i s) fun t =>
    vectorDone s t w true ∧ t.hart.vfflags = s.hart.vfflags ||| (r c).2 ∧
    (∀ n, n ≠ w.vd.toNat → t.hart.rv n = s.hart.rv n) ∧
    (∀ k, (k + 1) * c.bits ≤ 16384 →
      elem (t.hart.rv w.vd.toNat) c.bits k =
        if k = 0 then (r c).1 % 2 ^ c.bits else elem (s.hart.rv w.vd.toNat) c.bits k) ∧
    ∀ n k, 0 < n → k < 2048 → (t.hart.rp n).getLsbD k =
      if c.w.em = 1#1 ∧ n = c.w.pe.toNat then decide (k = 0) && ((r c).2 &&& s.hart.vxmask != 0#6)
      else (s.hart.rp n).getLsbD k

/-- The active elements below vl, in order. -/
def VCtx.activeBelow (c : VCtx) : List Nat := (List.range c.vl).filter fun k => c.mask.getLsbD k

/-- Element k of a floating-point source, scaled (R49, R50). -/
def State.fpEl (s : State) (c : VCtx) (f : Fmt) (scale : Int) (r : Reg) (k : Nat) : Val :=
  decodeScaled c.pal f scale (s.el r k)

/-- A two-operand floating-point instruction: the exact value that op gives, scaled and rounded once (R49, R116). -/
def fpResult (i : Instr) (s : State) (w : WWord) (fa fb fd : Fmt) (op : VCtx → Val → Val → Val × Flags) : Prop :=
  vectorResult i s w true w.vd fun c k =>
    finishFp c fd fd.prec (op c (s.fpEl c fa (palSa c.pal) w.vs1 k)
      (decodeScaled c.pal fb (palSb c.pal) (c.operand fb (s.hart.rv w.vs2.toNat) k)))

/-- A one-operand floating-point instruction, with a significand of at most limit bits (R119). -/
def fpResult1 (i : Instr) (s : State) (w : WWord) (fa fd : Fmt) (limit : Nat) (op : Val → Val × Flags) : Prop :=
  vectorResult i s w false w.vd fun c k =>
    finishFp c fd (min fd.prec limit) (op (s.fpEl c fa (palSa c.pal) w.vs1 k))

/-! ## Accesses whose translation a TLB holds -/

/-- The physical address that the gang window or a TLB entry gives a context's access, with no walk and no bit to set
(R256, R261). -/
def State.heldFor (s : State) (c : TransCtx) (a : Access) (va : Word) : Option Nat :=
  match c.windowOff va with
  | some off => (c.gang.bind s.gang).bind fun g => scratchMap g off
  | none =>
    match satpLevels c.satp with
    | none => none
    | some levels =>
      if canonical levels va then
        ((s.tlb c).find? fun e => e.hits (fieldOf c.satp 44 16) va).bind fun e =>
          if permits c a e.read e.write e.exec e.user e.dup && (a != .store || e.dirty) then some (e.target c.die va)
          else none
      else none

/-- The same for the hart's own access. -/
def State.heldPa (s : State) (a : Access) (va : Word) : Option Nat := s.heldFor s.hart.ctx a va

/-- n aligned bytes at va can be loaded from pa, and stored there, without a fault or a wait. -/
def State.loadsFrom (s : State) (va : Word) (n pa : Nat) : Prop :=
  va.toNat % n = 0 ∧ s.heldPa .load va = some pa ∧ pa % 128 = va.toNat % 128 ∧ s.served pa ∧ s.poisoned pa n = false
def State.storesTo (s : State) (va : Word) (n pa : Nat) : Prop :=
  va.toNat % n = 0 ∧ s.heldPa .store va = some pa ∧ pa % 128 = va.toNat % 128 ∧ s.served pa ∧
  s.lineHeld (some s.hart.id) (pa / 128) = false

/-- Other harts have changed by nothing but reservations that end and transactions that are doomed. -/
def othersKeep (s t : State) : Prop :=
  List.Forall₂ (fun h k : Hart => k = { h with reservation := k.reservation, tx := k.tx } ∧
    (∀ r, k.reservation = some r → h.reservation = some r) ∧ k.tx.isSome = h.tx.isSome) s.others t.others

/-- A vector instruction that has accessed memory has completed: vectorDone, but for memory and its poison, for what a
store does to reservations and transactions on its lines and to those that wait for them, and for the tickets that .sc
elements draw. -/
def vectorAccessed (s t : State) (w : WWord) : Prop :=
  t = { s.popped w false with
    mem := t.mem, poison := t.poison, inbox := t.inbox, others := t.others,
    dev := { s.dev with scTicket := t.dev.scTicket },
    hart := { (s.popped w false).hart with
      v := t.hart.v, p := t.hart.p, vfflags := t.hart.vfflags, vstart := 0, pc := s.hart.pc + 8#64,
      instret := s.hart.instret + 1, seq := s.hart.seq + 1, held := none, reservation := t.hart.reservation } } ∧
  (∀ r, t.hart.reservation = some r → s.hart.reservation = some r) ∧ s.inbox <+: t.inbox ∧ othersKeep s t ∧
  ∀ k, k ∈ t.poison → k ∈ s.poison

/-- The flags of an element are those of its fields together. -/
def orAll (n : Nat) (f : Nat → Flags) : Flags := (List.range n).foldl (fun a k => a ||| f k) 0#6

/-- n bytes at va can be accessed, byte j at pa j, with no fault and no wait. -/
def State.spans (s : State) (a : Access) (va : Word) (n : Nat) (pa : Nat → Nat) : Prop :=
  ∀ j, j < n →
    let b := va + BitVec.ofNat 64 j
    s.heldPa a b = some (pa j) ∧ s.served (pa j) ∧ pa j % 128 = b.toNat % 128 ∧ s.poisoned (pa j) 1 = false ∧
    s.lineHeld (some s.hart.id) (pa j / 128) = false ∧ (b.toNat % 128 ≠ 127 → j + 1 < n → pa (j + 1) = pa j + 1)

/-- The instruction gives each computed element of n consecutive registers a pattern, and raises flags. -/
def multiResult (i : Instr) (s : State) (w : WWord) (n : Nat) (f : VCtx → Nat → Nat → Nat × Flags) : Prop :=
  let c := s.context i w false
  let fl := fun k => orAll n fun r => (f c k r).2
  reaches (exec i s) fun t =>
    vectorDone s t w false ∧ flagsGathered c s t fl ∧ predicatesKeep c s t fl ∧
    (∀ r, r < w.vd.toNat ∨ w.vd.toNat + n ≤ r → t.hart.rv r = s.hart.rv r) ∧
    ∀ k r, r < n → (k + 1) * c.bits ≤ 16384 →
      elem (t.hart.rv (w.vd.toNat + r)) c.bits k =
        if c.computes s k then (f c k r).1 % 2 ^ c.bits else elem (s.hart.rv (w.vd.toNat + r)) c.bits k

/-- Half h of a byte. -/
def nibble (h b : Nat) : Nat := b / 16 ^ h % 16

/-- The address of field f of element k of an access (R140): two 4-bit elements share a byte. -/
def VCtx.placeOf (c : VCtx) (s : State) (form : Form) (m : Fmt) (k f : Nat) : Word :=
  if m.is4 then c.e.cap.x1 + BitVec.ofNat 64 (k / 2) else memAddr c form m.bytes (s.hart.rv c.w.vs2.toNat) k f

/-- What memory holds for field f of element k, at pa. -/
def rawAt (s : State) (m : Fmt) (k pa : Nat) : Nat :=
  if m.is4 then nibble (k % 2) (s.mem.read pa 1) else s.mem.read pa m.bytes

/-- A vector load: each field of each computed element is converted from what memory holds at its address. -/
def vectorLoads (i : Instr) (s : State) (w : WWord) (form : Form) : Prop :=
  let c := s.context i w false
  ∀ (m r : Fmt) (pa : Nat → Nat → Nat), memFmts c.e form false = some (m, r) → m.isQ = false →
    w.vd.toNat + w.fields ≤ 32 →
    (∀ k f, c.computes s k = true → f < w.fields → s.loadsFrom (c.placeOf s form m k f) m.bytes (pa k f)) →
    let got := fun k f => convertElem c.pal m r c.rm c.sat (rawAt s m k (pa k f))
    let fl := fun k => orAll w.fields fun f => (got k f).2
    reaches (exec i s) fun t =>
      vectorAccessed s t w ∧ t.mem = s.mem ∧ t.others = s.others ∧ t.inbox = s.inbox ∧
      t.hart.reservation = s.hart.reservation ∧ flagsGathered c s t fl ∧ predicatesKeep c s t fl ∧
      (∀ n, n < w.vd.toNat ∨ w.vd.toNat + w.fields ≤ n → t.hart.rv n = s.hart.rv n) ∧
      ∀ k f, f < w.fields → (k + 1) * c.bits ≤ 16384 →
        elem (t.hart.rv (w.vd.toNat + f)) c.bits k =
          if c.computes s k then (got k f).1 % 2 ^ c.bits else elem (s.hart.rv (w.vd.toNat + f)) c.bits k

/-- A vector store, of elements that lie apart: each field of each computed element is converted and stored at its
address, and no other byte changes. -/
def vectorStores (i : Instr) (s : State) (w : WWord) (form : Form) : Prop :=
  let c := s.context i w false
  ∀ (m r : Fmt) (pa : Nat → Nat → Nat), memFmts c.e form true = some (m, r) →
    (w.order.toNat < 2 ∨ w.scope ≠ 5#3 ∨ s.released) → w.vs3.toNat + w.fields ≤ 32 →
    (∀ k f, c.computes s k = true → f < w.fields → s.storesTo (c.placeOf s form m k f) m.bytes (pa k f)) →
    (∀ k f l g, c.computes s k = true → c.computes s l = true → f < w.fields → g < w.fields →
      (if m.is4 then k / 2 ≠ l / 2 else (k, f) ≠ (l, g)) →
      pa k f + m.bytes ≤ pa l g ∨ pa l g + m.bytes ≤ pa k f) →
    let put := fun k f => convertElem c.pal r m c.rm c.sat (s.el (w.vs3 + BitVec.ofNat 5 f) k)
    let fl := fun k => orAll w.fields fun f => (put k f).2
    reaches (exec i s) fun t =>
      vectorAccessed s t w ∧ t.hart.v = s.hart.v ∧ flagsGathered c s t fl ∧ predicatesKeep c s t fl ∧
      (∀ k f, c.computes s k = true → f < w.fields → rawAt t m k (pa k f) = (put k f).1 % 2 ^ m.width) ∧
      ∀ a, (∀ k f, c.computes s k = true → f < w.fields → a < pa k f ∨ pa k f + m.bytes ≤ a) →
        t.mem.get a = s.mem.get a

/-! ## Tiles -/

/-- A matrix instruction has completed with nothing changed but a tile, flags, and vstart, which some of them clear; lq is
popped for lqv. -/
def tileDone (s t : State) (w : WWord) (vstart : Nat) : Prop :=
  t = { s.popped w false with hart := { (s.popped w false).hart with
    tiles := t.hart.tiles, p := t.hart.p, vfflags := t.hart.vfflags, vstart := vstart, pc := s.hart.pc + 8#64,
    instret := s.hart.instret + 1, seq := s.hart.seq + 1, held := none } }

/-- Tile n becomes one of the same mode whose elements are f's; the other tiles stay. -/
def tileBecomes (s t : State) (n : Nat) (x : Tile) (chk : Bool) (f : Nat → Nat → Nat) : Prop :=
  (∀ m, m ≠ n → t.hart.tile m = s.hart.tile m) ∧ ∃ y, t.hart.tile n = some y ∧ y.mode = x.mode ∧ y.chk = chk ∧
  ∀ i j, i < 32 → j < x.mode.cols → y.elem i j = f i j % 2 ^ x.mode.bits

/-- vfflags has gathered the flags of the elements of a set, in whatever order. -/
def flagsOf (s t : State) (p : Nat → Nat → Prop) (f : Nat → Nat → Flags) : Prop :=
  ∀ b, t.hart.vfflags.getLsbD b = true ↔
    s.hart.vfflags.getLsbD b = true ∨ ∃ i j, p i j ∧ (f i j).getLsbD b = true

/-- The value of an element before an accumulation. -/
def Acc.start (x : Nat) : Acc := { acc := x, flags := 0#6, check := ColumnCheck.zero }

/-- Byte n of row i of a tile. -/
def Tile.byte (x : Tile) (i n : Nat) : Byte := (x.row i).extractLsb' (8 * n) 8

/-- The address of row i in a tile transfer (R307). -/
def State.rowAddress (s : State) (w : WWord) (i : Nat) : Word :=
  s.hart.rx w.vs1 + BitVec.ofNat 64 i * (if s.hart.rx w.vs2 = 0#64 then 256#64 else s.hart.rx w.vs2)

/-- Row i lies, aligned to 8 bytes, in the scratch part of the gang's window, and pa gives the place of each of its
bytes. -/
def State.rowAt (s : State) (w : WWord) (i : Nat) (pa : Nat → Nat) : Prop :=
  (s.rowAddress w i).toNat % 8 = 0 ∧ inScratch s s.hart.ctx (s.rowAddress w i) = true ∧
  (∀ n, (s.rowAddress w i + BitVec.ofNat 64 n).toNat % 128 ≠ 127 → pa (n + 1) = pa n + 1) ∧
  ∀ n, n < 256 → s.heldPa .load (s.rowAddress w i + BitVec.ofNat 64 n) = some (pa n) ∧
    s.heldPa .store (s.rowAddress w i + BitVec.ofNat 64 n) = some (pa n) ∧ s.served (pa n) ∧
    pa n % 128 = (s.rowAddress w i + BitVec.ofNat 64 n).toNat % 128 ∧
    s.poisoned (pa n) 1 = false ∧ s.lineHeld (some s.hart.id) (pa n / 128) = false

/-! ## Textures -/

/-- The coordinate pair of element k. -/
def State.texCoords (s : State) (c : VCtx) (fa : Fmt) (r : Reg) (k : Nat) : Val × Val :=
  (finiteCoord (decodeVal (palFtz c.pal) fa (s.el r k)), finiteCoord (decodeVal (palFtz c.pal) fa (s.el (r + 1#5) k)))

/-- The texel that a nearest filter takes at level 0, and the four that a gather takes, in the order of its result
registers (R328). -/
def TexBinding.nearest (t : TexBinding) (uv : Val × Val) : Int × Int :=
  ((uv.1.times (.ofInt (t.width 0))).floor, (uv.2.times (.ofInt (t.height 0))).floor)
def TexBinding.gathered (t : TexBinding) (uv : Val × Val) : List (Int × Int) :=
  let x := (linearAt uv.1 t.w).1
  let y := (linearAt uv.2 t.h).1
  [(x, y + 1), (x + 1, y + 1), (x + 1, y), (x, y)]

/-- The address of texel (i, j) of level 0 of a texture of one layer (R325, R326). -/
def TexBinding.texelVa (t : TexBinding) (i j : Nat) : Word :=
  let side := blockSide t.fmt
  t.base + BitVec.ofNat 64 ((j / side * t.blocks (t.width 0) + i / side) * t.blockBytes +
    (if 9 ≤ t.fmt then 0 else quadIndex i j * texelBytes t.fmt))

/-- The texel at a pair of indices, from memory at pa or from the border. -/
def TexBinding.texelIn (t : TexBinding) (s : State) (pa : Nat → Nat → Nat) (xy : Int × Int) : List Val :=
  match addressTexel t.au xy.1 (t.width 0), addressTexel t.av xy.2 (t.height 0) with
  | some i, some j =>
    texelDecode t.fmt (s.mem.read (pa i j) (texelBytes t.fmt)) (i % blockSide t.fmt) (j % blockSide t.fmt)
  | _, _ => t.border

/-- The texel at a pair of indices can be loaded. -/
def TexBinding.texelThere (t : TexBinding) (s : State) (pa : Nat → Nat → Nat) (xy : Int × Int) : Prop :=
  ∀ i j, addressTexel t.au xy.1 (t.width 0) = some i → addressTexel t.av xy.2 (t.height 0) = some j →
    s.loadsFrom (t.texelVa i j) (texelBytes t.fmt) (pa i j)

/-- A channel of one texel, rounded to the result format. -/
def VCtx.channel (c : VCtx) (fd : Fmt) (px : List Val) (ch : Nat) : Nat × Flags :=
  roundChannel c fd (weightedSum c.rm [(.ofInt 1, px.getD ch (Val.zero false))])

/-! ## Ray queries -/

/-- The query of element k of a block. -/
def State.rayBlock (s : State) (r : Reg) (k : Nat) : Option RayQuery := s.queryOf (blockWords s.hart r.toNat k)

/-- A ray instruction has completed, having written queries in the block at r: those of a set of elements become f's, and
the words of the others stay. -/
def queriesBecome (s t : State) (w : WWord) (p : Nat → Bool) (f : Nat → RayQuery) : Prop :=
  ∃ more, vectorDone { s with dev := { s.dev with queries := s.dev.queries ++ more } } t w false ∧
    t.hart.p = s.hart.p ∧ t.hart.vfflags = s.hart.vfflags ∧
    (∀ r, r < w.vd.toNat ∨ w.vd.toNat + 8 ≤ r → t.hart.rv r = s.hart.rv r) ∧
    ∀ k, k < 512 → if p k then t.rayBlock w.vd k = some (f k) else blockWords t.hart w.vd.toNat k = blockWords s.hart w.vd.toNat k

/-- What the traversal makes of a query whose last record is an opaque triangle with bytes b (R333, R334). -/
def RayQuery.afterLeaf (q : RayQuery) (wk : RayWork) (b : Nat) : RayQuery :=
  let missed := { q with status := 4, cand := .none, work := [] }
  match triangleHit (recordWords b 0 9) wk.ray with
  | some (some (t, u, v, front)) =>
    if f32Le (wk.ray.getD 6 0) t && f32Le t q.tcur then
      { status := 3, flags := 0, tcur := t, cand := .none, work := [],
        hit := some { t := t, u := u, v := v, prim := bitsAt b 288 32, geom := bitsAt b 320 32, inst := .none,
                      front := front, key := (0, refOff wk.ref) } }
    else missed
  | _ => missed

/-! ## Delta rings and arrangements -/

/-- The hart itself as a party. -/
def State.party (s : State) : Party := { ctx := s.hart.ctx, self := some s.hart.id, plain := false }

/-- No line is another hart's to take: the hart's stores wait for nobody (R212). -/
def State.linesOpen (s : State) : Prop := ∀ l, s.lineHeld (some s.hart.id) l = false

/-- A delta ring that is bound to a graph opens, and no line is another hart's. -/
def State.deltaOpens (s : State) (h : Word) (d : DeltaAt) (q : RingDesc) (g : GraphMember) : Prop :=
  openBound s.party h s = .ok (d, q, g) s ∧ s.linesOpen

/-- The record that element k of a record group holds. -/
def State.deltaRecord (s : State) (r : Reg) (k : Nat) : DeltaRec :=
  { key := wordOf (s.el r k), plo := wordOf (s.el (r + 1#5) k), phi := wordOf (s.el (r + 2#5) k),
    mult := decodeInt true 64 (s.el (r + 3#5) k), stage := s.hart.stage.toNat % 256, split := false }

/-- A delta instruction has completed: of the hart nothing has changed but vector and predicate registers, queue entries
and the graphs it is active in. -/
def deltaDone (s t : State) : Prop :=
  t.hart = { s.hart with
    v := t.hart.v, p := t.hart.p, q := t.hart.q, lq := t.hart.lq, graphs := t.hart.graphs, vstart := 0,
    pc := s.hart.pc + 8#64, instret := s.hart.instret + 1, seq := s.hart.seq + 1, held := none,
    reservation := t.hart.reservation }

/-- A word joins the queue k, and no other queue changes. -/
def queuePuts (s t : State) (k : Nat) (v : Word) : Prop :=
  t.hart.lq = s.hart.lq ∧ ∀ n, n < 8 →
    t.hart.q.toList.getD n [] = s.hart.q.toList.getD n [] ++ (if n = k then [v] else [])

/-- An arrangement's header of bytes b stands at va, aligned, readable and valid, over a table in memory (R344). -/
def State.arrangementAt (s : State) (va : Word) (pa b : Nat) : Prop :=
  s.loadsFrom va 64 pa ∧ va.toNat % 128 = 0 ∧ b = s.mem.read pa 64 ∧ headerOk b = true ∧
  ∃ base, s.heldPa .load (wordOf (bitsAt b 0 64)) = some base ∧
    ((∃ die, region base = .hbm die) ∨ ∃ off, s.hart.ctx.windowOff (wordOf (bitsAt b 0 64)) = some off ∧ off < 0x40_0000)

def arrangementOf (va : Word) (b : Nat) : Arrangement :=
  { at_ := va, base := wordOf (bitsAt b 0 64), lcap := bitsAt b 64 8, live := bitsAt b 96 32, tombs := bitsAt b 128 32,
    flags := bitsAt b 160 32, graph := wordOf (bitsAt b 192 64) }

/-- Slot p of an arrangement can be loaded from pa, and its meta word is none that R361 refuses. -/
def State.slotAt (s : State) (a : Arrangement) (p pa : Nat) : Prop :=
  s.loadsFrom (a.slotVa p) 32 pa ∧
  let m := (DeltaRec.ofNat (s.mem.read pa 32)).2
  m / 2 ^ 28 = 0 ∧ m / 2 ^ 8 % 2 ^ 16 = 0 ∧ slotState m ≠ 3

/-- What a lookup gives in the four registers, for a match at position p and for none (R356). -/
def lookupWords (m : Option (Nat × DeltaRec)) (r : Nat) : Nat :=
  match m, r with
  | some (_, x), 0 => x.plo.toNat
  | some (_, x), 1 => x.phi.toNat
  | some (_, x), 2 => (x.mult % (2 ^ 64 : Nat)).toNat
  | some (p, _), _ => p
  | none, 3 => 2 ^ 64 - 1
  | none, _ => 0

/-! ## Rings -/

/-- A ring opens for the hart (R219), its descriptor can be written, and no older access and no line that another hart
holds is in the way. -/
def State.ringAt (s : State) (h : Word) (r : RingRef) (d : RingDesc) : Prop :=
  s.Inv ∧ s.direct ∧ openRing s.party h s = .ok (r, d) s ∧ s.linesOpen ∧
  s.poisoned r.pa 64 = false ∧ (r.gang = none → s.served r.pa)

/-- The descriptor of a ring as memory holds it. -/
def State.descriptor (s : State) (r : RingRef) : RingDesc := RingDesc.ofNat (s.mem.read r.pa 64)

/-- A ring instruction has completed with a descriptor, an rstat value and a slot list; memory outside the descriptor has
not changed but where p says. -/
def ringDone (s t : State) (r : RingRef) (d : RingDesc) (stat : Word) (slots : List SlotEntry) (p : Nat → Prop) : Prop :=
  t.hart = { s.hart with
    x := t.hart.x, pc := s.hart.pc + 4#64, instret := s.hart.instret + 1, held := none, rstat := stat, slots := slots,
    reservation := t.hart.reservation } ∧
  t.descriptor r = d ∧ ∀ a, (a < r.pa ∨ r.pa + 64 ≤ a) → ¬p a → t.mem.get a = s.mem.get a

/-- rstat of an operation: its code in [12:8], the end of stream in bit 4, the status in [3:0], and the index (R221). -/
def rstatOf (op st index : Nat) (eos : Bool) : Word :=
  BitVec.ofNat 64 (2 ^ 32 * (index % 2 ^ 32) + 256 * op + (if eos then 16 else 0) + st)

/-! ## Transactions -/

/-- The abort that a hart's transaction takes (R198, R199): its outermost checkpoint comes back, txstat tells why, and
nothing of the transaction reaches memory. -/
def aborts (s t : State) (tr : Tx) (cause code : Nat) : Prop :=
  ∃ cp, tr.levels.getLast? = some cp ∧
    let c := if tr.doomed then 1 else cause
    t.hart.tx = none ∧ t.hart.pc = cp.target ∧ t.hart.vl = min cp.vl s.hart.vlmax ∧ t.hart.vstart = 0 ∧ t.hart.vq = [] ∧
    t.hart.mq = [] ∧ t.hart.txstat.extractLsb' 0 8 = BitVec.ofNat 8 c ∧
    t.hart.txstat.extractLsb' 8 8 = BitVec.ofNat 8 (if c = cause then code else 0) ∧
    t.hart.txstat.extractLsb' 16 3 = BitVec.ofNat 3 tr.levels.length ∧ t.hart.txstat.getLsbD 23 = tr.ordered ∧
    (∀ r, r ≠ tr.rd → t.hart.rx r = if r = 0#5 then 0#64 else cp.x[r.toNat]) ∧
    t.hart.rx tr.rd = (if tr.rd = 0#5 then 0#64 else t.hart.txstat) ∧
    t = { s with hart := t.hart } ∧ t.hart.v = s.hart.v ∧ t.hart.p = s.hart.p

/-! ## Events -/

/-- Of the harts h alone has changed, and it has become k. -/
def hartBecomes (s t : State) (h : HartId) (k : Hart) : Prop := t.hartAt h = k ∧ ∀ g, g ≠ h → t.hartAt g = s.hartAt g

/-- Nothing but cluster c has changed, and it has become k. -/
def clusterBecomes (s t : State) (c : ClusterId) (k : Cluster) : Prop :=
  t = { s with clusters := t.clusters } ∧ t.cluster c = k ∧ ∀ d, d ≠ c → t.cluster d = s.cluster d

/-- No hart's ordered transaction holds a line. -/
def State.linesFree (s : State) : Prop := ∀ l, s.lineHeld none l = false

/-- The harts keep their registers and go on where they were; a write has made bytes of memory at pa those of a list, and
no other byte has changed. -/
def bytesBecome (s t : State) (pa : Nat) (bs : List Byte) : Prop :=
  (∀ j, j < bs.length → t.mem.get (pa + j) = bs.getD j 0#8) ∧ sameBytesBut s t pa bs.length ∧ t.hart.x = s.hart.x ∧
  t.hart.pc = s.hart.pc ∧ t.hart.v = s.hart.v ∧ t.hart.p = s.hart.p

/-- A security message has been answered: the mailbox holds a message of a code, and the transcript has both. -/
def answers (i : Instr) (s : State) (start req : List Byte) (version code : Nat) : Prop :=
  reaches (exec i s) fun t =>
    (∃ rest, t.dev.mailbox = BitVec.ofNat 8 version :: BitVec.ofNat 8 code :: rest) ∧
    t.dev.spdm = start ++ req ++ t.dev.mailbox ∧
    t = { s with dev := { s.dev with mailbox := t.dev.mailbox, spdm := t.dev.spdm }, free := t.free }

/-- A ring that an agent or a unit reaches: open, in memory, writable. -/
def State.unitRing (s : State) (p : Party) (h : Word) (r : RingRef) (d : RingDesc) : Prop :=
  s.Inv ∧ s.linesFree ∧ openRing p h s = .ok (r, d) s ∧ r.gang = none ∧ s.served r.pa ∧ s.poisoned r.pa 64 = false

/-- Whatever the bytes that p names hold, a context's access at va goes to pa, and its translation changes nothing. -/
def State.mapsFor (s : State) (c : TransCtx) (a : Access) (va : Word) (pa : Nat) (p : Nat → Prop) : Prop :=
  ∃ skew, ∀ m : Memory, (∀ b, ¬p b → m.get b = s.mem.get b) →
    translate { s with mem := m } c va a = .ok ({ pa := pa, skew := skew }, { s with mem := m })

/-- n bytes at va can be loaded from pa by a party, whatever the descriptor of the ring r holds. -/
def State.loadsFor (s : State) (p : Party) (r : RingRef) (va : Word) (n pa : Nat) : Prop :=
  va.toNat % 128 + n ≤ 128 ∧ s.mapsFor p.ctx .load va pa (fun b => r.pa ≤ b ∧ b < r.pa + 64) ∧ pa % 128 = va.toNat % 128 ∧
  s.served pa ∧ s.poisoned pa n = false

/-- What an appended element of a store stream makes of memory: its bytes, or its half of a byte (R149). -/
def Memory.put (m : Memory) (e : AppendedElem) : Memory :=
  let pa := e.pa.getD 0
  match e.half with
  | none => m.write pa e.size e.data
  | some hi =>
    m.write pa 1 (if hi then m.read pa 1 % 16 + 16 * (e.data % 16) else m.read pa 1 / 16 * 16 + e.data % 16)

/-- An agent has finished the record at a counter: its slot is released, the agent holds no slot, and its next event is
posted. -/
def recordDone (s t : State) (id : AgentId) (r : RingRef) (d : RingDesc) (c : Nat) : Prop :=
  t.descriptor r = d.release c ∧ (t.agent id).counter = none ∧ (t.agent id).state = 2 ∧ recordEvent id ∈ t.inbox ∧
  (∀ a, (a < r.pa ∨ r.pa + 64 ≤ a) → t.mem.get a = s.mem.get a) ∧ t.hart.x = s.hart.x ∧ t.hart.pc = s.hart.pc

end Sys2Proof.Machine
end

