-- ==== Sys2Proof/Certificates/Slice0/Obligations.lean ====
section
/-! DEFINITION. The statements for the provers. -/

open Sys2Proof Sys2Proof.Machine

/-! ## Encodings -/

/-- Decoding the encoding of a well-formed instruction gives the instruction back, with its length,
whatever bytes follow it. -/
def Obligations.DecodeAfterEncode : Prop :=
  ∀ (i : Instr) (rest : List Byte), i.isProgram = true → i.wf = true →
    decode (encode i ++ rest) = .ok (i, (encode i).length)

/-- Whatever the decoder accepts is a well-formed instruction of 4 or 8 bytes whose encoding is those
bytes: each word has one meaning, and no bit of it is dropped. -/
def Obligations.EncodeAfterDecode : Prop :=
  ∀ (bs : List Byte) (i : Instr) (n : Nat), decode bs = .ok (i, n) →
    i.isProgram = true ∧ i.wf = true ∧ (n = 4 ∨ n = 8) ∧ n ≤ bs.length ∧ encode i = bs.take n

/-- Words written out from the encoding tables of 03 and 04 decode to the instructions they stand for. -/
def Obligations.WordsDecode : Prop :=
  decodeTableWord 32 0x00A5_8633 = some (.add 12#5 11#5 10#5) ∧
  decodeTableWord 32 0xFFF5_8513 = some (.addi 10#5 11#5 0xFFF#12) ∧
  decodeTableWord 32 0xFE05_1CE3 = some (.bne 10#5 0#5 0xFFC#12) ∧
  decodeTableWord 32 0x0085_3503 = some (.ld 10#5 10#5 8#12) ∧
  decodeTableWord 32 0x1020_0073 = some .sret ∧
  decodeTableWord 32 0x8000_0000 = none

/-! ## The scalar integer instructions (R89) -/

/-- LUI, AUIPC and the additions, subtractions, multiplications and divisions of 64 bits: rd takes the
value that exact integer arithmetic gives, reduced to 64 bits; division by zero gives all ones and the
dividend as the remainder. The additions, subtractions, multiplications and divisions of 32 bits: the
exact value of the low words as a 32-bit two's complement number, sign-extended. -/
def Obligations.ScalarArithmetic : Prop :=
  (∀ (s : State) (rd rs1 rs2 : Reg) (imm : BitVec 12) (imm20 : BitVec 20) (sh : BitVec 6),
    let a := s.hart.rx rs1
    let b := s.hart.rx rs2
    scalarResult (.lui rd imm20) s rd (BitVec.ofInt 64 (4096 * imm20.toInt)) ∧
    scalarResult (.auipc rd imm20) s rd (BitVec.ofInt 64 (s.hart.pc.toInt + 4096 * imm20.toInt)) ∧
    scalarResult (.addi rd rs1 imm) s rd (BitVec.ofInt 64 (a.toInt + imm.toInt)) ∧
    scalarResult (.add rd rs1 rs2) s rd (BitVec.ofInt 64 (a.toInt + b.toInt)) ∧
    scalarResult (.sub rd rs1 rs2) s rd (BitVec.ofInt 64 (a.toInt - b.toInt)) ∧
    scalarResult (.sh1add rd rs1 rs2) s rd (BitVec.ofNat 64 (2 * a.toNat + b.toNat)) ∧
    scalarResult (.sh2add rd rs1 rs2) s rd (BitVec.ofNat 64 (4 * a.toNat + b.toNat)) ∧
    scalarResult (.sh3add rd rs1 rs2) s rd (BitVec.ofNat 64 (8 * a.toNat + b.toNat)) ∧
    scalarResult (.addUw rd rs1 rs2) s rd (BitVec.ofNat 64 (a.toNat % 2 ^ 32 + b.toNat)) ∧
    scalarResult (.sh1addUw rd rs1 rs2) s rd (BitVec.ofNat 64 (2 * (a.toNat % 2 ^ 32) + b.toNat)) ∧
    scalarResult (.sh2addUw rd rs1 rs2) s rd (BitVec.ofNat 64 (4 * (a.toNat % 2 ^ 32) + b.toNat)) ∧
    scalarResult (.sh3addUw rd rs1 rs2) s rd (BitVec.ofNat 64 (8 * (a.toNat % 2 ^ 32) + b.toNat)) ∧
    scalarResult (.slliUw rd rs1 sh) s rd (BitVec.ofNat 64 (a.toNat % 2 ^ 32 * 2 ^ sh.toNat)) ∧
    scalarResult (.mul rd rs1 rs2) s rd (BitVec.ofInt 64 (a.toInt * b.toInt)) ∧
    scalarResult (.mulh rd rs1 rs2) s rd (BitVec.ofInt 64 (a.toInt * b.toInt / 2 ^ 64)) ∧
    scalarResult (.mulhsu rd rs1 rs2) s rd (BitVec.ofInt 64 (a.toInt * b.toNat / 2 ^ 64)) ∧
    scalarResult (.mulhu rd rs1 rs2) s rd (BitVec.ofNat 64 (a.toNat * b.toNat / 2 ^ 64)) ∧
    scalarResult (.div rd rs1 rs2) s rd (if b = 0#64 then BitVec.allOnes 64 else BitVec.ofInt 64 (a.toInt.tdiv b.toInt)) ∧
    scalarResult (.divu rd rs1 rs2) s rd (if b = 0#64 then BitVec.allOnes 64 else BitVec.ofNat 64 (a.toNat / b.toNat)) ∧
    scalarResult (.rem rd rs1 rs2) s rd (if b = 0#64 then a else BitVec.ofInt 64 (a.toInt.tmod b.toInt)) ∧
    scalarResult (.remu rd rs1 rs2) s rd (if b = 0#64 then a else BitVec.ofNat 64 (a.toNat % b.toNat))) ∧
  (∀ (s : State) (rd rs1 rs2 : Reg) (imm : BitVec 12),
    let a := as32 (s.hart.rx rs1).toInt
    let b := as32 (s.hart.rx rs2).toInt
    let u := (s.hart.rx rs1).toNat % 2 ^ 32
    let v := (s.hart.rx rs2).toNat % 2 ^ 32
    scalarResult (.addiw rd rs1 imm) s rd (BitVec.ofInt 64 (as32 (a + imm.toInt))) ∧
    scalarResult (.addw rd rs1 rs2) s rd (BitVec.ofInt 64 (as32 (a + b))) ∧
    scalarResult (.subw rd rs1 rs2) s rd (BitVec.ofInt 64 (as32 (a - b))) ∧
    scalarResult (.mulw rd rs1 rs2) s rd (BitVec.ofInt 64 (as32 (a * b))) ∧
    scalarResult (.divw rd rs1 rs2) s rd (BitVec.ofInt 64 (if b = 0 then -1 else as32 (a.tdiv b))) ∧
    scalarResult (.divuw rd rs1 rs2) s rd (BitVec.ofInt 64 (if v = 0 then -1 else as32 (u / v : Nat))) ∧
    scalarResult (.remw rd rs1 rs2) s rd (BitVec.ofInt 64 (if b = 0 then a else as32 (a.tmod b))) ∧
    scalarResult (.remuw rd rs1 rs2) s rd (BitVec.ofInt 64 (if v = 0 then as32 u else as32 (u % v : Nat))))

/-- Comparisons, minima and maxima, and the conditional zeros. Logic, extensions, byte operations and bit
counts, bit by bit. Shifts and rotations, bit by bit; the amount is the low 6 bits of rs2, or the low 5 in the
32-bit forms, whose result is sign-extended. -/
def Obligations.ScalarLogicAndShifts : Prop :=
  ((∀ (s : State) (rd rs1 rs2 : Reg) (imm : BitVec 12),
    let a := s.hart.rx rs1
    let b := s.hart.rx rs2
    scalarResult (.slti rd rs1 imm) s rd (if a.toInt < imm.toInt then 1#64 else 0#64) ∧
    scalarResult (.sltiu rd rs1 imm) s rd (if a.toNat < (BitVec.ofInt 64 imm.toInt).toNat then 1#64 else 0#64) ∧
    scalarResult (.slt rd rs1 rs2) s rd (if a.toInt < b.toInt then 1#64 else 0#64) ∧
    scalarResult (.sltu rd rs1 rs2) s rd (if a.toNat < b.toNat then 1#64 else 0#64) ∧
    scalarResult (.min rd rs1 rs2) s rd (BitVec.ofInt 64 (min a.toInt b.toInt)) ∧
    scalarResult (.minu rd rs1 rs2) s rd (BitVec.ofNat 64 (min a.toNat b.toNat)) ∧
    scalarResult (.max rd rs1 rs2) s rd (BitVec.ofInt 64 (max a.toInt b.toInt)) ∧
    scalarResult (.maxu rd rs1 rs2) s rd (BitVec.ofNat 64 (max a.toNat b.toNat)) ∧
    scalarResult (.czeroEqz rd rs1 rs2) s rd (if b = 0#64 then 0#64 else a) ∧
    scalarResult (.czeroNez rd rs1 rs2) s rd (if b ≠ 0#64 then 0#64 else a)) ∧
  (∀ (s : State) (rd rs1 rs2 : Reg) (imm : BitVec 12),
    let a := (s.hart.rx rs1).getLsbD
    let b := (s.hart.rx rs2).getLsbD
    let m := fun k => imm.getLsbD (min k 11)
    scalarBits (.andi rd rs1 imm) s rd (fun k => a k && m k) ∧
    scalarBits (.ori rd rs1 imm) s rd (fun k => a k || m k) ∧
    scalarBits (.xori rd rs1 imm) s rd (fun k => a k ^^ m k) ∧
    scalarBits (.and rd rs1 rs2) s rd (fun k => a k && b k) ∧
    scalarBits (.or rd rs1 rs2) s rd (fun k => a k || b k) ∧
    scalarBits (.xor rd rs1 rs2) s rd (fun k => a k ^^ b k) ∧
    scalarBits (.andn rd rs1 rs2) s rd (fun k => a k && !b k) ∧
    scalarBits (.orn rd rs1 rs2) s rd (fun k => a k || !b k) ∧
    scalarBits (.xnor rd rs1 rs2) s rd (fun k => a k == b k) ∧
    scalarBits (.sextB rd rs1) s rd (fun k => a (min k 7)) ∧
    scalarBits (.sextH rd rs1) s rd (fun k => a (min k 15)) ∧
    scalarBits (.zextH rd rs1) s rd (fun k => decide (k < 16) && a k) ∧
    scalarBits (.rev8 rd rs1) s rd (fun k => a (8 * (7 - k / 8) + k % 8)) ∧
    scalarBits (.orcB rd rs1) s rd (fun k => (List.range 8).any fun j => a (8 * (k / 8) + j)) ∧
    countResult (.clz rd rs1) s rd (zerosAbove a 64) ∧
    countResult (.clzw rd rs1) s rd (zerosAbove a 32) ∧
    countResult (.ctz rd rs1) s rd (zerosBelow a 64) ∧
    countResult (.ctzw rd rs1) s rd (zerosBelow a 32) ∧
    countResult (.cpop rd rs1) s rd (fun n => n = ((List.range 64).filter a).length) ∧
    countResult (.cpopw rd rs1) s rd (fun n => n = ((List.range 32).filter a).length))) ∧
  (∀ (s : State) (rd rs1 rs2 : Reg) (sh : BitVec 6) (sh5 : BitVec 5),
    let a := (s.hart.rx rs1).getLsbD
    let n := (s.hart.rx rs2).toNat % 64
    let m := (s.hart.rx rs2).toNat % 32
    let i := sh.toNat
    let j := sh5.toNat
    scalarBits (.slli rd rs1 sh) s rd (fun k => decide (i ≤ k) && a (k - i)) ∧
    scalarBits (.srli rd rs1 sh) s rd (fun k => decide (k + i < 64) && a (k + i)) ∧
    scalarBits (.srai rd rs1 sh) s rd (fun k => a (min (k + i) 63)) ∧
    scalarBits (.rori rd rs1 sh) s rd (fun k => a ((k + i) % 64)) ∧
    scalarBits (.sll rd rs1 rs2) s rd (fun k => decide (n ≤ k) && a (k - n)) ∧
    scalarBits (.srl rd rs1 rs2) s rd (fun k => decide (k + n < 64) && a (k + n)) ∧
    scalarBits (.sra rd rs1 rs2) s rd (fun k => a (min (k + n) 63)) ∧
    scalarBits (.rol rd rs1 rs2) s rd (fun k => a ((k + 64 - n) % 64)) ∧
    scalarBits (.ror rd rs1 rs2) s rd (fun k => a ((k + n) % 64)) ∧
    scalarBits (.slliw rd rs1 sh5) s rd (fun k => decide (j ≤ low31 k) && a (low31 k - j)) ∧
    scalarBits (.srliw rd rs1 sh5) s rd (fun k => decide (low31 k + j < 32) && a (low31 k + j)) ∧
    scalarBits (.sraiw rd rs1 sh5) s rd (fun k => a (min (low31 k + j) 31)) ∧
    scalarBits (.roriw rd rs1 sh5) s rd (fun k => a ((low31 k + j) % 32)) ∧
    scalarBits (.sllw rd rs1 rs2) s rd (fun k => decide (m ≤ low31 k) && a (low31 k - m)) ∧
    scalarBits (.srlw rd rs1 rs2) s rd (fun k => decide (low31 k + m < 32) && a (low31 k + m)) ∧
    scalarBits (.sraw rd rs1 rs2) s rd (fun k => a (min (low31 k + m) 31)) ∧
    scalarBits (.rolw rd rs1 rs2) s rd (fun k => a ((low31 k + 32 - m) % 32)) ∧
    scalarBits (.rorw rd rs1 rs2) s rd (fun k => a ((low31 k + m) % 32)))

/-! ## Control flow -/

/-- Jumps and branches: the condition decides, the target is pc-relative or rs1 plus the offset with bit
0 clear, and a target that is no multiple of 4 is an instruction-address-misaligned fault with the
target in stval and no register written. BPANY, BPALL and BPNONE with no older vector instruction
queued: taken when some active element below vl is set, when none is clear, when none is set. -/
def Obligations.JumpsAndBranches : Prop :=
  (∀ (s : State) (rd rs1 rs2 : Reg) (off : BitVec 12) (far : BitVec 20),
    let a := s.hart.rx rs1
    let b := s.hart.rx rs2
    let link := s.hart.pc + 4#64
    goesTo (.jal rd far) s rd link (BitVec.ofInt 64 (s.hart.pc.toInt + 2 * far.toInt)) ∧
    goesTo (.jalr rd rs1 off) s rd link (BitVec.ofInt 64 (2 * ((a.toInt + off.toInt) / 2))) ∧
    branchesTo (.beq rs1 rs2 off) s (a = b) (s.branchTarget off) ∧
    branchesTo (.bne rs1 rs2 off) s (a ≠ b) (s.branchTarget off) ∧
    branchesTo (.blt rs1 rs2 off) s (a.toInt < b.toInt) (s.branchTarget off) ∧
    branchesTo (.bge rs1 rs2 off) s (b.toInt ≤ a.toInt) (s.branchTarget off) ∧
    branchesTo (.bltu rs1 rs2 off) s (a.toNat < b.toNat) (s.branchTarget off) ∧
    branchesTo (.bgeu rs1 rs2 off) s (b.toNat ≤ a.toNat) (s.branchTarget off)) ∧
  (∀ (s : State) (p : BitVec 4) (off : BitVec 12), s.hart.vq = [] →
    let at_ := fun (b : Bool) => ∃ k, k < s.hart.vl ∧ s.hart.currentMask.getLsbD k = true ∧ (s.hart.rp p.toNat).getLsbD k = b
    branchesTo (.bpany p off) s (at_ true) (s.branchTarget off) ∧
    branchesTo (.bpall p off) s (¬at_ false) (s.branchTarget off) ∧
    branchesTo (.bpnone p off) s (¬at_ true) (s.branchTarget off))

/-- ECALL and EBREAK take their exceptions: cause 8 from U mode or 9 from S mode, and cause 3. An instruction
that the mode, a control bit or the CSR map makes Illegal traps with cause 2 and its encoding in stval. It
rests on the model's choices in log entry 15. -/
def Obligations.TrappingInstructions : Prop :=
  (∀ (s : State),
    (s.hart.priv = .user → s.trapsHere 8 0#64 → trapsWith .ecall s 8 0#64) ∧
    (s.hart.priv = .supervisor → s.trapsHere 9 0#64 → trapsWith .ecall s 9 0#64) ∧
    (s.trapsHere 3 s.hart.pc → trapsWith .ebreak s 3 s.hart.pc)) ∧
  (∀ (s : State) (rs1 rs2 rd : Reg) (csr : BitVec 12),
    let traps := fun (i : Instr) =>
      s.trapsHere 2 (BitVec.ofNat 64 (bytesToNat (encode i))) → trapsWith i s 2 (BitVec.ofNat 64 (bytesToNat (encode i)))
    (s.hart.priv = .user → traps .sret ∧ traps (.sfenceVma rs1 rs2) ∧ traps .xfsave ∧ traps .xfload) ∧
    (s.hart.mstatusTw = true → traps .wfi) ∧
    (s.hart.priv = .user → s.hart.senvcfg.getLsbD 4 = false → traps (.cboInval rs1)) ∧
    (s.hart.priv = .user → s.hart.senvcfg.getLsbD 6 = false → traps (.cboClean rs1) ∧ traps (.cboFlush rs1)) ∧
    (s.hart.priv = .user → s.hart.senvcfg.getLsbD 7 = false → traps (.cboZero rs1)) ∧
    (s.readCsr csr.toNat = none → traps (.csrrs csr rd rs1) ∧ traps (.csrrw csr rd rs1) ∧ traps (.csrrci csr rd rs1)) ∧
    (s.hart.priv = .user → (0x100 ≤ csr.toNat ∧ csr.toNat < 0x200) ∨ (0x5C0 ≤ csr.toNat ∧ csr.toNat ≤ 0x5C5) →
      traps (.csrrs csr rd rs1) ∧ traps (.csrrc csr rd rs1) ∧ traps (.csrrwi csr rd rs1)) ∧
    (0xC00 ≤ csr.toNat → traps (.csrrw csr rd rs1) ∧ traps (.csrrwi csr rd rs1) ∧
      (rs1 ≠ 0#5 → traps (.csrrs csr rd rs1) ∧ traps (.csrrc csr rd rs1) ∧ traps (.csrrsi csr rd rs1) ∧ traps (.csrrci csr rd rs1))))

/-- SRET in S mode goes to sepc in the mode that SPP names, with SIE from SPIE, SPIE set and SPP clear; a
frame that is held is reattached first: its queues, registers and mask stack come back. In S mode with the
queues empty, XFSAVE writes the frame's image at xfbase and empties the frame buffer, and XFLOAD fills the
buffer from an image that the device has written. It rests on the model's choices in log entries 14 and 15. -/
def Obligations.ReturnsAndFrameImages : Prop :=
  (∀ (s : State), s.hart.priv = .supervisor → s.hart.tx = none →
    let returned := fun (t : State) =>
      t.hart.pc = s.hart.sepc ∧
      t.hart.priv = (if s.hart.sstatus.getLsbD 8 then .supervisor else .user) ∧
      t.hart.sstatus.getLsbD 1 = s.hart.sstatus.getLsbD 5 ∧ t.hart.sstatus.getLsbD 5 = true ∧
      t.hart.sstatus.getLsbD 8 = false ∧
      (∀ k, k ≠ 1 → k ≠ 5 → k ≠ 8 → t.hart.sstatus.getLsbD k = s.hart.sstatus.getLsbD k) ∧
      sameRegs s t ∧ t.hart.instret = s.hart.instret + 1
    (s.hart.frame = none → reaches (exec .sret s) fun t =>
      returned t ∧ t = { s with hart := { s.hart with
        pc := t.hart.pc, priv := t.hart.priv, sstatus := t.hart.sstatus, instret := t.hart.instret, fetchBuf := [],
        held := none } }) ∧
    ∀ f, s.hart.frame = some f → s.hart.vq = [] → s.hart.mq = [] → f.vmsp = f.takenAt → reaches (exec .sret s) fun t =>
      returned t ∧ t.hart.frame = none ∧ t.hart.vq.map QEntry.instr = f.vq.map QEntry.instr ∧ t.hart.mq = f.mq ∧
      t.hart.q = f.q ∧ t.hart.lq = f.lq ∧ t.hart.masks = f.masks ∧ t.hart.vmsp = f.vmsp ∧
      t.hart.bindings = f.bindings ∧ t.hart.v = s.hart.v ∧ t.hart.p = s.hart.p ∧ sameBytes s t) ∧
  (∀ (s : State) (pa : Nat → Nat) (n : Nat), s.Inv → s.direct → s.hart.vq = [] → s.hart.mq = [] →
    s.hart.priv = .supervisor → s.hart.xfbase.toNat % 64 = 0 → (∀ i j, i < n → j < n → pa i = pa j → i = j) →
    (let img := s.hart.frameImage s.dev.images.length
     img.length = n → s.spans .store s.hart.xfbase n pa → reaches (exec .xfsave s) fun t =>
      sameRegs s t ∧ movesOn s t 4 ∧ t.hart.frame = none ∧ t.hart.v = s.hart.v ∧ t.hart.p = s.hart.p ∧
      t.dev.images = s.dev.images ++ [(s.hart.frame.getD s.hart.emptyFrame, img)] ∧
      (∀ j, j < n → t.mem.get (pa j) = img.getD j 0#8) ∧ ∀ a, (∀ j, j < n → a ≠ pa j) → t.mem.get a = s.mem.get a) ∧
    ∀ img f, img.length = n → s.spans .load s.hart.xfbase n pa → (∀ j, j < n → s.mem.get (pa j) = img.getD j 0#8) →
      pkt img 0 2 = 1 → pkt img 2 1 = 1 → pkt img 4 4 = n → n % 64 = 0 → 64 ≤ n → n ≤ 16384 → pkt img 32 2 ≤ 2047 →
      pkt img 34 2 ≤ 256 → pkt img 36 1 = s.hart.level → s.frameOf img = some f →
      reaches (exec .xfload s) fun t => sameRegs s t ∧ movesOn s t 4 ∧ scalarOnly { s with hart := { s.hart with
        frame := ({ f.withHpal (wordOf (pkt img 48 8)) with restart := pkt img 32 2, vmsp := pkt img 34 2 } :
          Frame).toBuffer } } t)

/-- WFI with TW = 0 is a no-op; PAUSE takes the hart out of issue selection until 32 cycles have passed;
SFENCE.VMA in S mode drops the TLB entries that its operands name from the hart's own core and from no other
TLB. FENCE and FENCE.S complete once no older access of a class in their first set is outstanding, and wait for a queued one;
FENCE.I completes once nothing older is outstanding; none changes anything but the fetch buffer that FENCE.I discards. A
fence with an empty set completes at once. It rests on the model's choices in
log entries 3, 5 and 7. -/
def Obligations.WaitsAndFences : Prop :=
  (∀ (s : State) (rs1 rs2 : Reg),
    (s.hart.mstatusTw = false → reaches (exec .wfi s) fun t => sameRegs s t ∧ movesOn s t 4 ∧ scalarOnly s t) ∧
    (reaches (exec .pause s) fun t => movesOn s t 4 ∧ t = { s with hart := { s.hart with
      run := .paused, deadline := some (s.clock + 32), pc := t.hart.pc, instret := s.hart.instret + 1, held := none } }) ∧
    (s.hart.priv = .supervisor → s.hart.tx = none → reaches (exec (.sfenceVma rs1 rs2) s) fun t =>
      sameRegs s t ∧ movesOn s t 4 ∧ scalarOnly { s with cores := t.cores } t ∧
      (∀ c, c ≠ s.hart.id.coreId → t.core c = s.core c) ∧
      ∀ e, e ∈ (t.core s.hart.id.coreId).tlb ↔ e ∈ (s.core s.hart.id.coreId).tlb ∧
        ¬((rs1 = 0#5 ∨ (s.hart.rx rs1).toNat / 2 ^ e.bits * 2 ^ e.bits = e.va) ∧
          (rs2 = 0#5 ∨ (e.glob = false ∧ e.asid = (s.hart.rx rs2).toNat % 2 ^ 16))))) ∧
  (∀ (s : State) (fm pred succ : BitVec 4) (rs1 rd : Reg) (scope : BitVec 3) (imm : BitVec 12), s.hart.tx = none →
    let done := fun (i : Instr) => reaches (exec i s) fun t => sameRegs s t ∧ movesOn s t 4 ∧ scalarOnly s t
    let idle := fun (classes : BitVec 4) => s.hart.queuedIn classes = false ∧ s.hart.streamsIdle
    ((pred = 0#4 ∨ succ = 0#4) → fm ≠ 8#4 → done (.fence fm pred succ rs1 rd)) ∧
    ((pred = 0#4 ∨ succ = 0#4) → done (.fenceS scope succ pred)) ∧
    (idle pred → fm ≠ 8#4 → (s.released ∨ pred &&& 5#4 = 0#4) → done (.fence fm pred succ rs1 rd)) ∧
    (idle 3#4 → s.released → done (.fence 8#4 pred succ rs1 rd)) ∧
    (idle pred → (s.released ∨ pred &&& 5#4 = 0#4 ∨ scope ≠ 5#3) → done (.fenceS scope succ pred)) ∧
    (pred ≠ 0#4 → succ ≠ 0#4 → s.hart.queuedIn pred = true →
      (fm ≠ 8#4 → waitsFor (.fence fm pred succ rs1 rd) s .older) ∧ waitsFor (.fenceS scope succ pred) s .older) ∧
    (s.direct → reaches (exec (.fenceI imm rs1 rd) s) fun t =>
      sameRegs s t ∧ movesOn s t 4 ∧ scalarOnly { s with hart := { s.hart with fetchBuf := [] } } t))

/-! ## Scalar accesses to memory -/

/-- A scalar load of bytes in one line gives rd the little-endian number they hold, sign- or zero-extended,
and changes nothing but what the translation sets. A scalar store writes the low bytes of rs2 at its address
and leaves every other byte. It rests on the model's choices in log entry 5. -/
def Obligations.ScalarLoadsAndStores : Prop :=
  (∀ (s : State) (rd rs1 : Reg) (imm : BitVec 12), s.direct →
    let va := s.addressOf rs1 imm
    loadResult (.lb rd rs1 imm) s rd va 1 (signedBytes 1) ∧ loadResult (.lh rd rs1 imm) s rd va 2 (signedBytes 2) ∧
    loadResult (.lw rd rs1 imm) s rd va 4 (signedBytes 4) ∧ loadResult (.ld rd rs1 imm) s rd va 8 (signedBytes 8) ∧
    loadResult (.lbu rd rs1 imm) s rd va 1 (unsignedBytes 1) ∧
    loadResult (.lhu rd rs1 imm) s rd va 2 (unsignedBytes 2) ∧
    loadResult (.lwu rd rs1 imm) s rd va 4 (unsignedBytes 4)) ∧
  (∀ (s : State) (rs1 rs2 : Reg) (imm : BitVec 12), s.Inv → s.direct →
    let va := s.addressOf rs1 imm
    let v := (s.hart.rx rs2).toNat
    storeResult (.sb rs1 rs2 imm) s va 1 v ∧ storeResult (.sh rs1 rs2 imm) s va 2 v ∧
    storeResult (.sw rs1 rs2 imm) s va 4 v ∧ storeResult (.sd rs1 rs2 imm) s va 8 v)

/-- A scalar access whose translation fails takes the fault of the translation, with stval at the address, from the state
that the translation leaves: a TLB entry that denies the access is gone. -/
def Obligations.FailedAccessesTrap : Prop :=
  ∀ (s t : State) (rd rs1 rs2 : Reg) (imm : BitVec 12), s.direct →
    let va := s.addressOf rs1 imm
    let fails := fun (a : Access) (f : MemFault) => translate s s.hart.ctx va a = .error (f, t)
    (fails .load (.page .load va) → s.trapsHere 13 va →
      trapsFrom (.ld rd rs1 imm) s t 13 va ∧ trapsFrom (.lbu rd rs1 imm) s t 13 va) ∧
    (fails .load (.access .load va) → s.trapsHere 5 va →
      trapsFrom (.ld rd rs1 imm) s t 5 va ∧ trapsFrom (.lb rd rs1 imm) s t 5 va) ∧
    (fails .store (.page .store va) → s.trapsHere 15 va →
      trapsFrom (.sd rs1 rs2 imm) s t 15 va ∧ trapsFrom (.sb rs1 rs2 imm) s t 15 va) ∧
    (fails .store (.access .store va) → s.trapsHere 7 va → trapsFrom (.sd rs1 rs2 imm) s t 7 va) ∧
    ((s.hart.rx rs1).toNat % 8 ≠ 0 → s.trapsHere 4 (s.hart.rx rs1) → trapsWith (.lr 0#1 0#1 1#1 rd rs1) s 4 (s.hart.rx rs1)) ∧
    ((s.hart.rx rs1).toNat % 4 ≠ 0 → s.trapsHere 6 (s.hart.rx rs1) → trapsWith (.amoadd 0#1 0#1 0#1 rd rs1 rs2) s 6 (s.hart.rx rs1))

/-- LR loads its value and holds a reservation on the line. SC with that reservation writes and gives 0,
without it gives 1 and writes nothing; either way the reservation ends. The atomic memory operations: rd takes
the old value sign-extended, and memory the new one. The bounded atomics: AMOINCW wraps to 0 at the bound,
AMOADDB writes only a sum within the bound; rd takes the old value zero-extended. It rests on the model's
choices in log entry 5. -/
def Obligations.AtomicAccesses : Prop :=
  (∀ (s t : State) (aq rl w : BitVec 1) (rd rs1 rs2 : Reg) (pa : Nat), s.Inv → s.direct → (rl = 0#1 ∨ s.released) →
    let n := if w = 1#1 then 8 else 4
    let va := s.hart.rx rs1
    let r : Reservation := { line := pa / 128, addr := va, size := n }
    va.toNat % n = 0 →
    (s.readable va n pa t → reaches (exec (.lr aq rl w rd rs1) s) fun u =>
      setsReg s u rd (signedBytes n (t.mem.read pa n)) ∧ movesOn s u 4 ∧
      scalarOnly { t with hart := { t.hart with reservation := some r } } u) ∧
    (s.writable va n pa t → s.hart.reservation = some r → reaches (exec (.sc aq rl w rd rs1 rs2) s) fun u =>
      setsReg s u rd 0#64 ∧ movesOn s u 4 ∧ u.mem.read pa n = (s.hart.rx rs2).toNat % 256 ^ n ∧ sameBytesBut t u pa n ∧
      storeOnly t u (pa / 128)) ∧
    (s.writable va n pa t → s.hart.reservation ≠ some r → reaches (exec (.sc aq rl w rd rs1 rs2) s) fun u =>
      setsReg s u rd 1#64 ∧ movesOn s u 4 ∧ sameBytes t u ∧
      scalarOnly { t with hart := { t.hart with reservation := none } } u)) ∧
  ((∀ (s : State) (aq rl w : BitVec 1) (rd rs1 rs2 : Reg), s.Inv → s.direct → (rl = 0#1 ∨ s.released) →
    let n := if w = 1#1 then 8 else 4
    let va := s.hart.rx rs1
    let d := (s.hart.rx rs2).toNat % 256 ^ n
    let signed := fun (x : Nat) => Int.bmod x (256 ^ n)
    atomicResult (.amoswap aq rl w rd rs1 rs2) s rd va n (fun _ => some d) (signedBytes n) ∧
    atomicResult (.amoadd aq rl w rd rs1 rs2) s rd va n (fun o => some ((o + d) % 256 ^ n)) (signedBytes n) ∧
    atomicResult (.amoxor aq rl w rd rs1 rs2) s rd va n (fun o => some (o ^^^ d)) (signedBytes n) ∧
    atomicResult (.amoand aq rl w rd rs1 rs2) s rd va n (fun o => some (o &&& d)) (signedBytes n) ∧
    atomicResult (.amoor aq rl w rd rs1 rs2) s rd va n (fun o => some (o ||| d)) (signedBytes n) ∧
    atomicResult (.amomin aq rl w rd rs1 rs2) s rd va n (fun o => some (if signed o ≤ signed d then o else d)) (signedBytes n) ∧
    atomicResult (.amomax aq rl w rd rs1 rs2) s rd va n (fun o => some (if signed o ≤ signed d then d else o)) (signedBytes n) ∧
    atomicResult (.amominu aq rl w rd rs1 rs2) s rd va n (fun o => some (min o d)) (signedBytes n) ∧
    atomicResult (.amomaxu aq rl w rd rs1 rs2) s rd va n (fun o => some (max o d)) (signedBytes n)) ∧
  (∀ (s : State) (aq rl : BitVec 1) (scope : BitVec 3) (width : BitVec 2) (rd rs1 rs2 rs3 : Reg), s.Inv → s.direct →
    (rl = 0#1 ∨ scope ≠ 5#3 ∨ s.released) →
    let n := 2 ^ width.toNat
    let va := s.hart.rx rs1
    let d := (s.hart.rx rs2).toNat % 256 ^ n
    let b := (s.hart.rx rs3).toNat % 256 ^ n
    atomicResult (.amoincw aq rl scope width rd rs1 rs2) s rd va n (fun o => some (if d ≤ o then 0 else o + 1)) (unsignedBytes n) ∧
    atomicResult (.amoaddb width rd rs1 rs2 rs3) s rd va n (fun o => if o + d ≤ b then some (o + d) else none) (unsignedBytes n)))

/-- The cache-block operations where the mode may use them: CBO.CLEAN, CBO.FLUSH and CBO.INVAL change no byte,
and CBO.ZERO writes zero to the 128 bytes of the block and to no other. It rests on the model's choices in log
entry 5. -/
def Obligations.CacheBlockOperations : Prop :=
  ∀ (s t : State) (rs1 : Reg) (pa : Nat), s.Inv → s.direct →
    let va := BitVec.ofNat 64 ((s.hart.rx rs1).toNat / 128 * 128)
    let may := fun (k : Nat) => s.hart.priv = .supervisor ∨ s.hart.senvcfg.getLsbD k = true
    let kept := fun (i : Instr) => reaches (exec i s) fun u => sameRegs s u ∧ movesOn s u 4 ∧ scalarOnly t u
    (s.maps .load va 128 pa t →
      (may 4 → kept (.cboInval rs1)) ∧ (may 6 → kept (.cboClean rs1)) ∧ (may 6 → kept (.cboFlush rs1))) ∧
    (s.writable va 128 pa t → may 7 → reaches (exec (.cboZero rs1) s) fun u =>
      u.mem.read pa 128 = 0 ∧ sameBytesBut t u pa 128 ∧ sameRegs s u ∧ movesOn s u 4 ∧ storeOnly t u (pa / 128))

/-! ## CSRs -/

/-- The six CSR instructions where the mode may use the CSR: rd takes what the CSR read, and the forms
that write leave it reading what the rules of its fields say. -/
def Obligations.CsrInstructions : Prop :=
  ∀ (s : State) (csr : BitVec 12) (rd rs1 : Reg) (old : Word),
    s.readCsr csr.toNat = some old → s.hart.tx = none → (isRuleD csr.toNat = true → s.hart.vq = [] ∧ s.hart.mq = []) →
    let a := csr.toNat
    let u : Word := rs1.zeroExtend 64
    (s.hart.csrAllowed a false = true →
      csrReads (.csrrs csr rd 0#5) s rd old ∧ csrReads (.csrrc csr rd 0#5) s rd old ∧
      csrReads (.csrrsi csr rd 0#5) s rd old ∧ csrReads (.csrrci csr rd 0#5) s rd old) ∧
    (s.hart.csrAllowed a true = true → a ≠ 0x805 →
      csrWrites (.csrrw csr rd rs1) s a rd old (s.hart.rx rs1) ∧ csrWrites (.csrrwi csr rd rs1) s a rd old u ∧
      (rs1 ≠ 0#5 →
        csrWrites (.csrrs csr rd rs1) s a rd old (old ||| s.hart.rx rs1) ∧
        csrWrites (.csrrc csr rd rs1) s a rd old (old &&& ~~~(s.hart.rx rs1)) ∧
        csrWrites (.csrrsi csr rd rs1) s a rd old (old ||| u) ∧
        csrWrites (.csrrci csr rd rs1) s a rd old (old &&& ~~~u)))

/-! ## Grants, strips and queues -/

/-- VGRANT with the queues empty: the status and the level of R97, the element width, vl within the new VLMAX,
vstart 0, the register bits that both levels have, and rd with status and grant byte. VSTRIP moves the
pointers by the strip that has finished, then sets vl and counts down, or leaves the loop with vl 0. The queue
instructions: QPUSH appends, QPOP and LQPOP take the oldest entry, QSTAT counts, VDRAIN completes once the
queues are empty; each waits where R102 and R103 say so. It rests on the model's choices in log entry 3. -/
def Obligations.GrantsStripsAndQueues : Prop :=
  ((∀ (s : State) (rd : Reg) (level width : BitVec 2), s.hart.vq = [] → s.hart.mq = [] → s.hart.frame = none →
    let top := (s.hart.vgrant.extractLsb' 6 2).toNat
    let old := (s.hart.vgrant.extractLsb' 2 2).toNat
    let st := if 0 < level.toNat ∧ s.hart.vclass ≠ 2 then 2 else if top < level.toNat then 1 else 0
    let new := if st = 2 then 0 else min level.toNat top
    reaches (exec (.vgrant rd level width) s) fun t =>
      (t.hart.vgrant.extractLsb' 0 2) = width ∧ (t.hart.vgrant.extractLsb' 2 2).toNat = new ∧
      (∀ k, 4 ≤ k → t.hart.vgrant.getLsbD k = s.hart.vgrant.getLsbD k) ∧
      t.hart.vl = min s.hart.vl (2048 * 2 ^ new / (8 * 2 ^ width.toNat)) ∧ keepsLevel s t old new ∧
      setsReg s t rd (BitVec.ofNat 64 (256 * st + t.hart.vgrant.toNat % 256)) ∧ movesOn s t 4 ∧
      scalarOnly { s with
        hart := { s.hart with vgrant := t.hart.vgrant, vl := t.hart.vl, vstart := 0, v := t.hart.v, p := t.hart.p },
        clusters := if old = new then s.clusters else t.clusters } t) ∧
  (∀ (s : State) (rs1 rs2 : Reg) (off : BitVec 12),
    let n := s.hart.rx rs1
    let step := fun (k : Nat) => (s.hart.vsptr.extractLsb' (16 * k) 16).toInt
    let vl := min n.toNat s.hart.vlmax
    let pointers := fun (t : State) =>
      (∀ k, k < 4 → rs2 ≠ 0#5 →
        t.hart.rx (rs2 + BitVec.ofNat 5 k) =
          BitVec.ofInt 64 ((s.hart.rx (rs2 + BitVec.ofNat 5 k)).toInt + s.hart.vl * step k)) ∧
      ∀ r, r ≠ rs1 → (∀ k, k < 4 → rs2 = 0#5 ∨ r ≠ rs2 + BitVec.ofNat 5 k) → t.hart.rx r = s.hart.rx r
    ((Instr.vstrip rs1 rs2 off).wf = true →
      (n = 0#64 → (s.branchTarget off).toNat % 4 = 0 → reaches (exec (.vstrip rs1 rs2 off) s) fun t =>
        pointers t ∧ t.hart.rx rs1 = 0#64 ∧ t.hart.pc = s.branchTarget off ∧
        scalarOnly { s with hart := { s.hart with vl := 0 } } t) ∧
      (n ≠ 0#64 → reaches (exec (.vstrip rs1 rs2 off) s) fun t =>
        pointers t ∧ t.hart.rx rs1 = n - BitVec.ofNat 64 vl ∧ movesOn s t 4 ∧
        scalarOnly { s with hart := { s.hart with vl := vl } } t)))) ∧
  (∀ (s : State) (rd rs1 n : Reg) (hn : n.toNat < 8), s.hart.tx = none →
    (s.hart.q[n.toNat].length < 8 → reaches (exec (.qpush n rs1) s) fun t => sameRegs s t ∧ movesOn s t 4 ∧
      scalarOnly { s with hart := { s.hart with q := s.hart.q.set n.toNat (s.hart.q[n.toNat] ++ [s.hart.rx rs1]) } } t) ∧
    (8 ≤ s.hart.q[n.toNat].length → waitsFor (.qpush n rs1) s .queueFull) ∧
    (∀ v l, s.hart.q[n.toNat] = v :: l → reaches (exec (.qpop rd n) s) fun t => setsReg s t rd v ∧ movesOn s t 4 ∧
      scalarOnly { s with hart := { s.hart with q := s.hart.q.set n.toNat l } } t) ∧
    (s.hart.q[n.toNat] = [] → waitsFor (.qpop rd n) s .queueEmpty) ∧
    scalarResult (.qstat rd n) s rd (BitVec.ofNat 64 s.hart.q[n.toNat].length) ∧
    (∀ v l, s.hart.lq = v :: l → reaches (exec (.lqpop rd) s) fun t =>
      setsReg s t rd (BitVec.ofNat 64 v.toNat) ∧ movesOn s t 4 ∧
      scalarOnly { s with hart := { s.hart with lq := l } } t) ∧
    (s.hart.lq = [] → waitsFor (.lqpop rd) s .lqEmpty) ∧
    (s.hart.vq = [] → s.hart.mq = [] → reaches (exec .vdrain s) fun t => sameRegs s t ∧ movesOn s t 4 ∧ scalarOnly s t) ∧
    ((s.hart.vq ≠ [] ∨ s.hart.mq ≠ []) → waitsFor .vdrain s .drain))

/-! ## Vector arithmetic -/

/-- What an integer format holds: a pattern means its value, a value in range is kept without a flag,
and one out of range wraps, or with sat becomes the nearest bound with SAT (R48, R51). A pattern of a
floating-point format that is no NaN is encoded again as it was, without a flag, in every rounding mode:
encoding is exact on the values of the format (R35 to R38, R50 to R53). -/
def Obligations.NumberFormats : Prop :=
  (∀ (signed sat : Bool) (w : Nat) (v : Int), 0 < w →
    let lo : Int := if signed then -2 ^ (w - 1) else 0
    let hi : Int := if signed then 2 ^ (w - 1) - 1 else 2 ^ w - 1
    let r := encodeInt signed w sat v
    r.1 < 2 ^ w ∧
    (lo ≤ v → v ≤ hi → decodeInt signed w r.1 = v ∧ r.2 = 0#6) ∧
    (sat = true → v < lo → decodeInt signed w r.1 = lo ∧ r.2 = fSAT) ∧
    (sat = true → hi < v → decodeInt signed w r.1 = hi ∧ r.2 = fSAT) ∧
    (sat = false → (decodeInt signed w r.1 - v) % 2 ^ w = 0 ∧ r.2 = 0#6)) ∧
  (∀ (f : Fmt) (n rm : Nat) (sat nanprop : Bool), f ∈ [Fmt.f64, .f32, .f16, .b16, .e4m3, .e5m2] → n < 2 ^ f.width →
    rm ≤ 4 → (decodeFloat f n).finite = true →
    encodeFloat f f.prec { rm := rm, ftz := false, sat := sat, nanprop := nanprop } (decodeFloat f n) = (n, 0#6))

/-- The integer instructions of group 0 compute their exact results on the active elements from vstart
to vl and encode them in fd; every other element and register stays. VNSHR reads elements of twice the
width from two registers and writes the quotient by a power of two, rounded, with NX where bits are
lost. -/
def Obligations.VectorIntegerArithmetic : Prop :=
  (∀ (s : State) (w : WWord) (sa sb sd : Bool), s.dispatches w true → s.intPalette w sa sb sd →
    let enc := encodeInt sd s.bits (w.sat == 1#1)
    intResult (.vadd w) s w sa sb (fun a b _ => enc (a + b)) ∧
    intResult (.vsub w) s w sa sb (fun a b _ => enc (a - b)) ∧
    intResult (.vrsub w) s w sa sb (fun a b _ => enc (b - a)) ∧
    intResult (.vmul w) s w sa sb (fun a b _ => enc (a * b)) ∧
    intResult (.vmulh w) s w sa sb (fun a b _ => enc (a * b / 2 ^ s.bits)) ∧
    intResult (.vmin w) s w sa sb (fun a b _ => enc (min a b)) ∧
    intResult (.vmax w) s w sa sb (fun a b _ => enc (max a b)) ∧
    intResult (.vabsd w) s w sa sb (fun a b _ => enc |a - b|) ∧
    intResult (.vshl w) s w sa sb (fun a _ p => enc (a * 2 ^ (p % s.bits))) ∧
    intResult (.vshr w) s w sa sb (fun a _ p => enc (a / 2 ^ (p % s.bits))) ∧
    intResult (.vdiv w) s w sa sb (fun a b _ =>
      if b = 0 then (2 ^ s.bits - 1, if a = 0 then 0#6 else fDZ) else enc (a.tdiv b)) ∧
    intResult (.vrem w) s w sa sb (fun a b _ =>
      if b = 0 then ((enc a).1, (enc a).2 ||| (if a = 0 then 0#6 else fDZ)) else enc (a.tmod b)) ∧
    (∀ sc, intFmt (palFc (s.palOf w)) s.bits = some sc →
      vectorResult (.vmadd w) s w true w.vd fun c k =>
        enc (decodeInt sa s.bits (s.el w.vs1 k) * c.intOperand s sb k + decodeInt sc s.bits (s.el w.vs3 k))) ∧
    vectorResult (.vidx w) s w true w.vd fun c k =>
      enc (decodeInt sa s.bits (s.hart.rx w.vs1).toNat + k * c.intOperand s sb k)) ∧
  (∀ (s : State) (w : WWord) (sa sb sd : Bool), s.dispatches w true →
    let p := s.palOf w
    intFmt (palFa p) (2 * s.bits) = some sa → intFmt (palFb p) s.bits = some sb → intFmt (palFd p) s.bits = some sd →
    palPlain p = true → scalesZero p false false false = true → w.vs1.toNat % 2 = 0 →
    vectorResult (.vnshr w) s w true w.vd fun c k =>
      let half := s.hart.vlmax / 2
      let a := if k < s.hart.vlmax then
          decodeInt sa (2 * s.bits) (elem (s.hart.rv (w.vs1.toNat + k / half)) (2 * s.bits) (k % half)) else 0
      let n := c.operand (.int sb s.bits) (s.hart.rv w.vs2.toNat) k % (2 * s.bits)
      let r := roundInt c.rm (decide (a < 0)) a.natAbs (-(n : Int)) false
      let e := encodeInt sd s.bits (w.sat == 1#1) r.1
      (e.1, e.2 ||| (if 2 ^ n ∣ a then 0#6 else fNX)))

/-- VAND, VOR and VXOR act on bit patterns; the moves of group 2 and VQUAD's moves take elements from
the places that R126 and R135 name. The instructions that combine elements start at vstart 0: VCOMPR
packs the active elements, VEXPND spreads them, and VPSCAN counts the set elements before each active
one. -/
def Obligations.VectorMoves : Prop :=
  (∀ (s : State) (w : WWord),
    let p := s.palOf w
    let fb := (regFmt (palFb p)).getD .f64
    (s.dispatches w true → palPlain p = true → scalesZero p false false false = true → anyFmt (palFa p) s.bits = true →
      anyFmt (palFb p) s.bits = true → anyFmt (palFd p) s.bits = true →
      movedResult (.vand w) s w true (fun c k => s.el w.vs1 k &&& c.operand fb (s.hart.rv w.vs2.toNat) k) ∧
      movedResult (.vor w) s w true (fun c k => s.el w.vs1 k ||| c.operand fb (s.hart.rv w.vs2.toNat) k) ∧
      movedResult (.vxor w) s w true (fun c k => s.el w.vs1 k ^^^ c.operand fb (s.hart.rv w.vs2.toNat) k)) ∧
    (s.dispatches w true →
      movedResult (.vslup w) s w true (fun c k =>
        if c.scalar.toNat ≤ k then s.el w.vs1 (k - c.scalar.toNat) else s.el w.vd k) ∧
      movedResult (.vsldn w) s w true (fun c k =>
        if k + c.scalar.toNat < s.hart.vlmax then s.el w.vs1 (k + c.scalar.toNat) else 0) ∧
      movedResult (.vgathr w) s w true (fun c k =>
        let j := if w.kind = 0 then s.el w.vs2 k else c.scalar.toNat
        if j < s.hart.vlmax then s.el w.vs1 j else 0) ∧
      movedResult (.vsel w) s w true (fun c k =>
        if (s.hart.rp w.vs3.toNat).getLsbD k then s.el w.vs1 k
        else c.operand (.int true s.bits) (s.hart.rv w.vs2.toNat) k) ∧
      movedResult (.vbcast w) s w true (fun c k => c.operand (.int true s.bits) 0#16384 k)) ∧
    (s.dispatches w false →
      (w.vs3 = 0#5 → movedResult (.vquad w) s w false (fun _ k => s.el w.vs1 (k ^^^ 1))) ∧
      (w.vs3 = 1#5 → movedResult (.vquad w) s w false (fun _ k => s.el w.vs1 (k ^^^ 2))) ∧
      (w.vs3 = 2#5 → movedResult (.vquad w) s w false (fun _ k => s.el w.vs1 (k ^^^ 3))) ∧
      (w.vs3 = 3#5 → movedResult (.vquad w) s w false (fun _ k => s.el w.vs1 (k / 4 * 4))))) ∧
  (∀ (s : State) (w : WWord), s.dispatches w false → s.hart.vstart = 0 →
    wholeResult (.vcompr w) s w (fun c k => (c.activeBelow[k]?).map (s.el w.vs1)) ∧
    wholeResult (.vexpnd w) s w (fun c k =>
      if k ∈ c.activeBelow then some (s.el w.vs1 (c.activeBelow.filter (· < k)).length) else none) ∧
    wholeResult (.vpscan w) s w (fun c k =>
      if k ∈ c.activeBelow then some (c.activeBelow.filter fun j =>
        (s.hart.rp w.vs1.toNat).getLsbD j && (decide (j < k) || (w.vs3 == 1#5 && j == k))).length else none))

/-! ## Vector floating point -/

/-- The floating-point instructions compute the exact result of the scaled operands and round it once
into fd; the estimates keep 12 bits of significand. -/
def Obligations.VectorFloatArithmetic : Prop :=
  ∀ (s : State) (w : WWord) (fa fd : Fmt),
    let p := s.palOf w
    floatFmt (palFa p) s.bits = some fa → floatFmt (palFd p) s.bits = some fd → palPlain p = true →
    (∀ fb, s.dispatches w true → floatFmt (palFb p) s.bits = some fb →
      fpResult (.vfadd w) s w fa fb fd (fun c a b => addVal c.rm [a, b] a b) ∧
      fpResult (.vfsub w) s w fa fb fd (fun c a b => addVal c.rm [a, b] a b.negate) ∧
      fpResult (.vfmul w) s w fa fb fd (fun _ a b => mulVal [a, b] a b) ∧
      fpResult (.vfdiv w) s w fa fb fd (fun _ a b => divVal a b) ∧
      fpResult (.vfmin w) s w fa fb fd (fun _ a b => minMaxVal false a b) ∧
      fpResult (.vfmax w) s w fa fb fd (fun _ a b => minMaxVal true a b) ∧
      ∀ fc, floatFmt (palFc p) s.bits = some fc →
        vectorResult (.vfma w) s w true w.vd fun c k =>
          finishFp c fd fd.prec (fmaVal c.rm (w.aux9.getLsbD 2) (w.aux9.getLsbD 3)
            (s.fpEl c fa (palSa c.pal) w.vs1 k)
            (decodeScaled c.pal fb (palSb c.pal) (c.operand fb (s.hart.rv w.vs2.toNat) k)) (s.fpEl c fc 0 w.vs3 k))) ∧
    (s.dispatches w false → scalesZero p true false true = true →
      fpResult1 (.vfsqrt w) s w fa fd 64 sqrtVal ∧ fpResult1 (.vfrcp w) s w fa fd 12 rcpVal ∧
      fpResult1 (.vfrsq w) s w fa fd 12 rsqVal ∧ fpResult1 (.vfexp2 w) s w fa fd 12 exp2Val ∧
      fpResult1 (.vflog2 w) s w fa fd 12 log2Val ∧
      (4 ≤ w.vs3.toNat → w.vs3.toNat < 8 → vectorResult (.vquad w) s w false w.vd fun c k =>
        let q := k / 4 * 4
        let from_ := if w.vs3 = 4#5 then (q + k % 4 / 2 * 2 + 1, q + k % 4 / 2 * 2)
          else if w.vs3 = 5#5 then (q + k % 2 + 2, q + k % 2) else if w.vs3 = 6#5 then (q + 1, q) else (q + 2, q)
        let a := s.fpEl c fa (palSa c.pal) w.vs1 from_.1
        let b := s.fpEl c fa (palSa c.pal) w.vs1 from_.2
        finishFp c fd fd.prec (addVal c.rm [a, b] a b.negate)))

/-- VFCLASS numbers the class of each pattern, VFSGN changes sign bits alone, and VCVT decodes, scales
and encodes each element between formats of the width in force, from groups of wider elements, or into
them. -/
def Obligations.VectorFormatChanges : Prop :=
  ∀ (s : State) (w : WWord) (fa : Fmt),
    let p := s.palOf w
    let top := 2 ^ (s.bits - 1)
    (s.dispatches w false → palPlain p = true → scalesZero p false false false = true →
      floatFmt (palFa p) s.bits = some fa → (intFmt (palFd p) s.bits).isSome = true →
      vectorResult (.vfclass w) s w false w.vd fun _ k => (classOf fa (s.el w.vs1 k), 0#6)) ∧
    (s.dispatches w true → palPlain p = true → scalesZero p false false false = true →
      floatFmt (palFa p) s.bits = some fa → palFb p = palFa p → palFd p = palFa p →
      vectorResult (.vfsgn w) s w true w.vd fun c k =>
        let a := s.el w.vs1 k
        let sb := c.operand fa (s.hart.rv w.vs2.toNat) k / top % 2
        let sign := if w.aux9.extractLsb' 2 2 = 0#2 then sb else if w.aux9.extractLsb' 2 2 = 1#2 then 1 - sb
          else (a / top + sb) % 2
        (a % top + sign * top, 0#6)) ∧
    (∀ fd n, s.dispatches w false → palPlain p = true → scalesZero p true false true = true →
      regFmt (palFa p) = some fa → regFmt (palFd p) = some fd → fd.width = s.bits → n ≤ 3 → fa.width = s.bits * 2 ^ n →
      w.vs1.toNat % 2 ^ n = 0 →
      vectorResult (.vcvt w) s w false w.vd fun c k =>
        let per := s.hart.vlmax / 2 ^ n
        convertVal c fa fd
          (if k < s.hart.vlmax then elem (s.hart.rv (w.vs1.toNat + k / per)) (s.bits * 2 ^ n) (k % per) else 0)) ∧
    (∀ fd n, s.dispatches w false → palPlain p = true → scalesZero p true false true = true →
      regFmt (palFa p) = some fa → regFmt (palFd p) = some fd → fa.width = s.bits → 0 < n → n ≤ 3 →
      fd.width = s.bits * 2 ^ n → w.vd.toNat % 2 ^ n = 0 →
      let c := s.context (.vcvt w) w false
      let per := s.hart.vlmax / 2 ^ n
      let f := fun k => convertVal c fa fd (s.el w.vs1 k)
      reaches (exec (.vcvt w) s) fun t =>
        vectorDone s t w false ∧ flagsGathered c s t (fun k => (f k).2) ∧ predicatesKeep c s t (fun k => (f k).2) ∧
        (∀ r, (∀ k, k < max c.vl s.hart.vlmax → r ≠ w.vd.toNat + k / per) → t.hart.rv r = s.hart.rv r) ∧
        ∀ k, k < s.hart.vlmax →
          elem (t.hart.rv (w.vd.toNat + k / per)) (s.bits * 2 ^ n) (k % per) =
            if c.computes s k then (f k).1 % 2 ^ (s.bits * 2 ^ n)
            else elem (s.hart.rv (w.vd.toNat + k / per)) (s.bits * 2 ^ n) (k % per))

/-! ## Predicates, reductions, the mask stack -/

/-- Comparisons and predicate logic write the bits of a predicate. -/
def Obligations.PredicateResults : Prop :=
  ∀ (s : State) (w : WWord), 0 < w.vd.toNat → w.vd.toNat < 16 →
    let p := s.palOf w
    let at_ := fun (r : Reg) k => (s.hart.rp r.toNat).getLsbD k
    (∀ sa sb, s.dispatches w true → intFmt (palFa p) s.bits = some sa → intFmt (palFb p) s.bits = some sb →
      palPlain p = true → scalesZero p false false false = true →
      predicateResult (.vcmp w) s w true w.vd.toNat fun c k =>
        let a := decodeInt sa s.bits (s.el w.vs1 k)
        let b := c.intOperand s sb k
        (match w.vs3.toNat with
          | 0 => decide (a = b)
          | 1 => decide (a ≠ b)
          | 2 => decide (a < b)
          | 3 => decide (a ≤ b)
          | 4 => decide (b < a)
          | _ => decide (b ≤ a), 0#6)) ∧
    (∀ fa fb, s.dispatches w true → floatFmt (palFa p) s.bits = some fa → floatFmt (palFb p) s.bits = some fb →
      palPlain p = true → scalesZero p true true false = true →
      predicateResult (.vfcmp w) s w true w.vd.toNat fun c k =>
        fpCompareBy w.vs3.toNat (s.fpEl c fa (palSa c.pal) w.vs1 k)
          (decodeScaled c.pal fb (palSb c.pal) (c.operand fb (s.hart.rv w.vs2.toNat) k))) ∧
    (s.dispatches w false → w.em = 0#1 → predicateResult (.vplog w) s w false w.vd.toNat fun _ k =>
      (w.vs3.getLsbD ((if at_ w.vs1 k then 2 else 0) + (if at_ w.vs2 k then 1 else 0)), 0#6)) ∧
    (s.dispatches w false → w.em = 0#1 → s.hart.vstart = 0 →
      let c := s.context (.vpfirst w) w false
      let first := ((c.activeBelow.filter (at_ w.vs1)).head?).getD c.vl
      reaches (exec (.vpfirst w) s) fun t =>
        vectorDone s t w false ∧ t.hart.v = s.hart.v ∧ t.hart.vfflags = s.hart.vfflags ∧
        (∀ r, r ≠ w.vd.toNat → t.hart.rp r = s.hart.rp r) ∧
        ∀ k, k < s.hart.vlmax → (t.hart.rp w.vd.toNat).getLsbD k =
          if k < c.vl then c.mask.getLsbD k &&
            (if w.vs3 = 0#5 then decide (k < first) else if w.vs3 = 1#5 then decide (k ≤ first) else k == first)
          else at_ w.vd k)

/-- VPSET sets exactly the bits below n and below VLMAX (R132). -/
def Obligations.VectorPredicateSet : Prop :=
  ∀ (s : State) (w : WWord), s.dispatches w true → 0 < w.vd.toNat → w.vd.toNat < 16 →
    reaches (exec (.vpset w) s) fun t =>
      vectorDone s t w true ∧ t.hart.v = s.hart.v ∧ t.hart.vfflags = s.hart.vfflags ∧
      (∀ r, r ≠ w.vd.toNat → t.hart.rp r = s.hart.rp r) ∧
      ∀ k, k < 2048 → (t.hart.rp w.vd.toNat).getLsbD k =
        (decide (k < (s.context (.vpset w) w true).scalar.toNat) && decide (k < s.hart.vlmax))

/-- A reduction writes element 0: VREDI the exact integer result, or the combined patterns; VREDF the
tree, the ordered sum, the minimum or the maximum. -/
def Obligations.VectorReductions : Prop :=
  ∀ (s : State) (w : WWord), s.dispatches w true → s.hart.vstart = 0 →
    let p := s.palOf w
    (∀ sa sb sd, s.intPalette w sa sb sd →
      reductionResult (.vredi w) s w fun c =>
        let xs := c.activeBelow.map (s.el w.vs1)
        let as_ := xs.map (decodeInt sa s.bits)
        let x0 := c.operand (.int sb s.bits) (s.hart.rv w.vs2.toNat) 0
        let enc := encodeInt sd s.bits (w.sat == 1#1)
        match w.vs3.toNat with
        | 0 => enc (c.intOperand s sb 0 + as_.sum)
        | 1 => enc (as_.foldl min (c.intOperand s sb 0))
        | 2 => enc (as_.foldl max (c.intOperand s sb 0))
        | 3 => (xs.foldl (· &&& ·) x0, 0#6)
        | 4 => (xs.foldl (· ||| ·) x0, 0#6)
        | _ => (xs.foldl (· ^^^ ·) x0, 0#6)) ∧
    (∀ fa fb fd, floatFmt (palFa p) s.bits = some fa → floatFmt (palFb p) s.bits = some fb →
      floatFmt (palFd p) s.bits = some fd → palPlain p = true → scalesZero p true true false = true →
      reductionResult (.vredf w) s w fun c =>
        let init := decodeScaled c.pal fb (palSb c.pal) (c.operand fb (s.hart.rv w.vs2.toNat) 0)
        let xs := c.activeBelow.map fun k => (k, s.fpEl c fa (palSa c.pal) w.vs1 k)
        let x := (reduceFp c fd w.vs3.toNat init xs).encode c fd
        (x.1, x.2 ||| snanFlag (init :: xs.map Prod.snd)))

/-- VMPUSH saves the current mask and narrows it by a predicate, VMELSE takes the other side, VMPOP
restores it, while the stack holds fewer than 16 entries. From vectors to the scalar stream: VMVX and
VMVQ give an element extended to 64 bits, 0 from VLMAX up, and VPCNT the number of active set elements,
to a queue or to lq. -/
def Obligations.MaskStackAndScalarResults : Prop :=
  (∀ (s : State) (w : WWord), s.dispatches w false →
    let done := fun (t : State) (n : Nat) (l : List MaskEntry) => vectorDone
      { s with hart := { s.hart with vmsp := n, masks := l } } t w false ∧ t.hart.v = s.hart.v ∧ t.hart.p = s.hart.p ∧
      t.hart.vfflags = s.hart.vfflags
    let cur := s.hart.currentMask
    (s.hart.vmsp < 16 → reaches (exec (.vmpush w) s) fun t => ∃ b : BitVec 2048,
      (∀ k, k < 2048 → b.getLsbD k = (cur.getLsbD k && (s.hart.rp w.vs1.toNat).getLsbD k &&
        decide (k < 256 * 2 ^ (s.hart.vgrant.extractLsb' 2 2).toNat))) ∧
      done t (s.hart.vmsp + 1) ({ saved := cur, branch := b } :: s.hart.masks.take 15)) ∧
    (∀ m l, s.hart.masks = m :: l → 0 < s.hart.vmsp → reaches (exec (.vmelse w) s) fun t =>
      done t s.hart.vmsp ({ m with branch := m.saved &&& ~~~m.branch } :: l)) ∧
    (0 < s.hart.vmsp → s.hart.vmsp ≤ 16 → reaches (exec (.vmpop w) s) fun t =>
      done t (s.hart.vmsp - 1) s.hart.masks.tail)) ∧
  (∀ (s : State) (w : WWord),
    let value := fun (j : Nat) =>
      if s.hart.vlmax ≤ j then 0#64
      else if w.vs3 = 1#5 then BitVec.ofNat 64 (s.el w.vs1 j)
      else BitVec.ofInt 64 (decodeInt true s.bits (s.el w.vs1 j))
    let lq := (s.popped w false).hart.lq
    let done := fun (t : State) => t = { s with hart := { s.hart with
      q := t.hart.q, lq := t.hart.lq, vstart := 0, pc := s.hart.pc + 8#64, instret := s.hart.instret + 1,
      seq := s.hart.seq + 1, held := none } }
    let count := fun (c : VCtx) => (c.activeBelow.filter fun k => (s.hart.rp w.vs1.toNat).getLsbD k).length
    (s.hart.quiet → reaches (exec (.vmvx w) s) fun t =>
      setsReg s t w.vd (value (moveIndex s w)) ∧ movesOn s t 8 ∧
      scalarOnly { s with hart := { s.hart with vstart := 0 } } t) ∧
    ∀ hk : w.vd.toNat < 8,
    let q := s.hart.q[w.vd.toNat]
    let queued := fun (v : Word) => s.hart.q.set w.vd.toNat (q ++ [v])
    (s.dispatches w false → q.length < 8 → reaches (exec (.vmvq w) s) fun t =>
      done t ∧ t.hart.lq = lq ∧ t.hart.q = queued (value (s.context (.vmvq w) w false).scalar.toNat)) ∧
    (s.dispatches w false → s.hart.vstart = 0 → w.vd ≠ 0#5 → q.length < 8 → reaches (exec (.vpcnt w) s) fun t =>
      done t ∧ t.hart.lq = lq ∧ t.hart.q = queued (BitVec.ofNat 64 (count (s.context (.vpcnt w) w false)))) ∧
    (s.dispatches w false → s.hart.vstart = 0 → w.vd = 0#5 → lq.length < 8 → reaches (exec (.vpcnt w) s) fun t =>
      done t ∧ t.hart.q = s.hart.q ∧ t.hart.lq = lq ++ [BitVec.ofNat 32 (count (s.context (.vpcnt w) w false))]))

/-! ## Vector accesses to memory -/

/-- VLD, VLDS, VLDX and VLSEG, with every translation held in a TLB. VST, VSTS, VSTX and VSSEG, with every
translation held in a TLB. It rests on the model's choices in log entries 5 and 7. -/
def Obligations.VectorLoadsAndStores : Prop :=
  (∀ (s : State) (w : WWord), s.dispatches w false →
    vectorLoads (.vld w) s w .unit ∧ vectorLoads (.vlds w) s w .strided ∧ vectorLoads (.vldx w) s w .indexed ∧
    vectorLoads (.vlseg w) s w .segment) ∧
  (∀ (s : State) (w : WWord), s.Inv → s.dispatches w false →
    vectorStores (.vst w) s w .unit ∧ vectorStores (.vsts w) s w .strided ∧ vectorStores (.vstx w) s w .indexed ∧
    vectorStores (.vsseg w) s w .segment)

/-- VAMO on elements that lie apart: memory takes what the operation gives for its old value and the data, vs3
the old value if vd[4] asks for it. VPRF changes nothing, vstart included. It rests on the model's choices in log entry 5. -/
def Obligations.VectorAtomics : Prop :=
  ∀ (s : State) (w : WWord), s.Inv → s.dispatches w false →
    let c := s.context (.vamo w) w false
    let p := s.palOf w
    let op := w.vd.toNat % 16
    (∀ (f : Fmt) (sb : Bool) (pa : Nat → Nat), regFmt (palFa p) = some f → intFmt (palFb p) s.bits = some sb →
      palPlain p = true → scalesZero p false false false = true → palFd p = palFa p → palFc p = 0 →
      f.width = s.bits → vamoFmtOk op f = true → (w.order.toNat < 2 ∨ w.scope ≠ 5#3 ∨ s.released) →
      (∀ k, c.computes s k = true →
        s.storesTo (s.hart.rx w.vs1 + BitVec.ofInt 64 (decodeInt sb s.bits (s.el w.vs2 k))) f.bytes (pa k) ∧
        s.poisoned (pa k) f.bytes = false) →
      (∀ k l, c.computes s k = true → c.computes s l = true → k ≠ l →
        pa k + f.bytes ≤ pa l ∨ pa l + f.bytes ≤ pa k) →
      let old := fun k => s.mem.read (pa k) f.bytes
      let new := fun k => vamoNew s.bits c.sat p c.rm op f (old k) (s.el w.vs3 k)
      reaches (exec (.vamo w) s) fun t =>
        vectorAccessed s t w ∧ flagsGathered c s t (fun k => (new k).2) ∧ predicatesKeep c s t (fun k => (new k).2) ∧
        (∀ k, c.computes s k = true → t.mem.read (pa k) f.bytes = (new k).1 % 256 ^ f.bytes) ∧
        (∀ a, (∀ k, c.computes s k = true → a < pa k ∨ pa k + f.bytes ≤ a) → t.mem.get a = s.mem.get a) ∧
        (w.vd.getLsbD 4 = false → t.hart.v = s.hart.v) ∧
        (w.vd.getLsbD 4 = true → elementsBecome c s t w.vs3.toNat old)) ∧
    (reaches (exec (.vprf w) s) fun t => t = { s.popped w false with hart := { (s.popped w false).hart with
      pc := s.hart.pc + 8#64, instret := s.hart.instret + 1, seq := s.hart.seq + 1, held := none } })

/-- VSTR: every computed element joins the train of its destination and the trains leave, before any element
is performed; the destination performs a train's elements in order, and with the last acknowledgement gone the
instruction completes. It rests on the model's choices in log entries 4 and 5. -/
def Obligations.RemoteScatters : Prop :=
  ∀ (s : State), s.Inv →
    (∀ (w : WWord) (m r : Fmt) (pa : Nat → Nat),
      let c := s.context (.vstr w) w false
      s.dispatches w false → memFmts c.e .indexed true = some (m, r) → m.is4 = false → s.hart.trains = [] →
      (w.order.toNat < 2 ∨ w.scope ≠ 5#3 ∨ s.released) →
      (∀ k, c.computes s k = true → s.storesTo (c.placeOf s .indexed m k 0) m.bytes (pa k)) →
      let put := fun k => convertElem c.pal r m c.rm c.sat (s.el w.vs3 k)
      reaches (exec (.vstr w) s) fun t =>
        t.mem = s.mem ∧ t.hart.v = s.hart.v ∧ t.hart.x = s.hart.x ∧ t.hart.pc = s.hart.pc + 8#64 ∧
        flagsGathered c s t (fun k => (put k).2) ∧
        (∀ k, c.computes s k = true → ∃ tr, tr ∈ t.hart.trains ∧ (pa k, m.bytes, (put k).1) ∈ tr.elems) ∧
        (∀ tr x, tr ∈ t.hart.trains → x ∈ tr.elems → ∃ k, c.computes s k = true ∧ x = (pa k, m.bytes, (put k).1)) ∧
        t.inbox = s.inbox ++ t.hart.trains.map (fun _ => .elementTrain s.hart.id) ∧
        (t.hart.vq = [] ↔ ∀ k, c.computes s k = false)) ∧
    (∀ (h : HartId) (tr : Train), (s.hartAt h).trains.find? (fun u => !u.done_) = some tr →
      (∀ x, x ∈ tr.elems → s.served x.1 ∧ 0 < x.2.1 ∧ x.1 % 128 + x.2.1 ≤ 128) →
      (∀ l, s.lineHeld (some h) l = false) →
      reaches (exec (.elementTrain h) s) fun t =>
        t.mem = tr.elems.foldl (fun m x => m.write x.1 x.2.1 x.2.2) s.mem ∧
        (t.hartAt h).trains = (s.hartAt h).trains.map (fun u => if u = tr then { u with done_ := true } else u) ∧
        .trainAcknowledgement h ∈ t.inbox) ∧
    (∀ (h : HartId) (tr : Train), (s.hartAt h).trains.find? (fun u => u.done_) = some tr →
      (tr.dest < 100000 ∨ s.dev.requests.all (fun r => !(r.write && r.hart == some h)) = true) →
      reaches (exec (.trainAcknowledgement h) s) fun t =>
        (t.hartAt h).trains = (s.hartAt h).trains.filter (· ≠ tr) ∧ t.mem = s.mem ∧ t.inbox = s.inbox) ∧
    ∀ (h : HartId), (s.hartAt h).trains = [] →
      exec (.elementTrain h) s = .next s ∧ exec (.trainAcknowledgement h) s = .next s

/-- Accumulation windows: AWOPEN opens one with empty copies or says why not in awst, VWACC adds a computed
element to the copy of its lane, AWMERGE folds each touched element into memory and empties the copies,
AWCLOSE discards them. It rests on the model's choices in log entry 5. -/
def Obligations.AccumulationWindows : Prop :=
  ∀ (s : State), s.Inv → s.hart.quiet →
    (∀ (rs1 rs2 : Reg) (pa : Nat) (t : State),
      let base := s.hart.rx rs1
      let ctl := s.hart.rx rs2
      let opens := fun (u : State) (win : Option AccWindow) (st : BitVec 3) (x : State) =>
        (sameRegs s x ∧ movesOn s x 4 ∧ scalarOnly { u with hart := { u.hart with window := win, awst := st } } x)
      (s.hart.window = none → winOk base ctl = true → s.maps .store base 1 pa t →
        reaches (exec (.awopen rs1 rs2) s)
          (opens t (some { base := base, ctl := ctl, next := 0, copies := List.replicate (4 * 2 ^ s.hart.vclass) [] }) 0#3)) ∧
      (s.hart.window = none → winOk base ctl = false → reaches (exec (.awopen rs1 rs2) s) (opens s none 1#3)) ∧
      (s.hart.window.isSome = true → reaches (exec (.awopen rs1 rs2) s) (opens s s.hart.window 2#3)) ∧
      (s.hart.window.isSome = true → reaches (exec .awclose s) (opens s none 0#3)) ∧
      (s.hart.window = none → reaches (exec .awclose s) (opens s none 3#3)) ∧
      ∀ scope, s.hart.window = none → reaches (exec (.awmerge scope) s) (opens s none 3#3)) ∧
    (∀ (scope : BitVec 3) (win : AccWindow) (f : Fmt) (pa : Nat), s.hart.window = some win → winFmt win.ctl = some f →
      win.next = 0 → s.heldPa .store win.base = some pa →
      (∀ l, l ∈ win.copies → (l.map Prod.fst).Nodup ∧ ∀ o v, (o, v) ∈ l → o % f.bytes = 0 ∧ o < 4096 ∧
        s.storesTo (win.base + BitVec.ofNat 64 o) f.bytes (pa + o) ∧ s.poisoned (pa + o) f.bytes = false) →
      let mode : EncMode := { rm := 0, ftz := false, sat := false, nanprop := false }
      reaches (exec (.awmerge scope) s) fun t =>
        sameRegs s t ∧ movesOn s t 4 ∧ t.hart.awst = 0#3 ∧ t.hart.v = s.hart.v ∧ t.hart.p = s.hart.p ∧
        t.hart.window = some { win with copies := win.copies.map fun _ => [] } ∧
        (∀ o, (∃ l v, l ∈ win.copies ∧ (o, v) ∈ l) → t.mem.read (pa + o) f.bytes =
          win.copies.foldl (fun old l => match l.lookup o with
            | some v => (winCombine win.ctl mode f old v.toNat).1 % 256 ^ f.bytes
            | none => old) (s.mem.read (pa + o) f.bytes)) ∧
        ∀ a, (∀ l o v, l ∈ win.copies → (o, v) ∈ l → a < pa + o ∨ pa + o + f.bytes ≤ a) →
          t.mem.get a = s.mem.get a) ∧
    ∀ (w : WWord) (win : AccWindow) (f : Fmt) (sb : Bool),
      let c := s.context (.vwacc w) w false
      let p := s.palOf w
      s.dispatches w false → s.hart.window = some win → regFmt (palFa p) = some f → intFmt (palFb p) s.bits = some sb →
      palPlain p = true → scalesZero p false false false = true → palFd p = palFa p →
      palFa p = (win.ctl.extractLsb' 8 5).toNat → f.width = s.bits → 0 < win.copies.length →
      let off := fun k => decodeInt sb s.bits (s.el w.vs2 k)
      (∀ k, c.computes s k = true → off k % f.bytes = 0 ∧ 0 ≤ off k ∧ off k < winSize win.ctl) →
      (∀ k l, c.computes s k = true → c.computes s l = true → k ≠ l → k % win.copies.length = l % win.copies.length →
        off k ≠ off l) →
      let was := fun k => (win.copies.getD (k % win.copies.length) []).lookup (off k).toNat
      let mode : EncMode := { rm := 0, ftz := palFtz p, sat := false, nanprop := palNanprop p }
      let new := fun k => match was k with
        | some old => winCombine win.ctl mode f old.toNat (s.el w.vs3 k)
        | none => (s.el w.vs3 k, 0#6)
      reaches (exec (.vwacc w) s) fun t => ∃ copies,
        vectorDone { s with hart := { s.hart with window := some { win with copies := copies } } } t w false ∧
        t.hart.v = s.hart.v ∧ flagsGathered c s t (fun k => (new k).2) ∧ predicatesKeep c s t (fun k => (new k).2) ∧
        copies.length = win.copies.length ∧
        (∀ k, c.computes s k = true →
          (copies.getD (k % win.copies.length) []).lookup (off k).toNat = some (BitVec.ofNat 64 (new k).1)) ∧
        ∀ n o, (∀ k, c.computes s k = true → k % win.copies.length = n → (off k).toNat ≠ o) →
          (copies.getD n []).lookup o = (win.copies.getD n []).lookup o

/-! ## Tiles -/

/-- MENA enables a tile within the launch's number and zeroes it, and MDIS discards it. MLDT loads the active
rows of a tile from the scratch window, byte for byte, and MSTT stores them there. It rests on the model's
choices in log entry 5. -/
def Obligations.TileControl : Prop :=
  (∀ (s : State) (n : BitVec 3), s.hart.quiet →
    let done := fun (t : State) (x : Option Tile) => t = { s with hart := { s.hart with
        tiles := s.hart.tiles.setIfInBounds n.toNat x, pc := s.hart.pc + 4#64, instret := s.hart.instret + 1,
        seq := s.hart.seq + 1, held := none } }
    (∀ mode : BitVec 2, n.toNat < s.hart.tileLimit → reaches (exec (.mena n mode) s) fun t => ∃ x,
      done t (some x) ∧ x.mode = (if mode = 0#2 then .f64 else if mode = 1#2 then .i64 else .f32p) ∧ x.chk = false ∧
      ∀ i j, x.elem i j = 0) ∧
    reaches (exec (.mdis n) s) fun t => done t none) ∧
  (∀ (s : State) (w : WWord) (x : Tile) (pa : Nat → Nat → Nat), s.Inv → s.dispatches w false → w.lqv = 0#1 →
    s.hart.tile (w.vd.toNat % 8) = some x →
    let on := fun i => i < 32 ∧ (s.context (.mldt w) w false).mask.getLsbD i = true
    (∀ i, on i → s.rowAt w i (pa i)) →
    (reaches (exec (.mldt w) s) fun t =>
      tileDone s t w s.hart.vstart ∧ t.hart.p = s.hart.p ∧ t.hart.vfflags = s.hart.vfflags ∧
      (∀ m, m ≠ w.vd.toNat % 8 → t.hart.tile m = s.hart.tile m) ∧
      ∃ y, t.hart.tile (w.vd.toNat % 8) = some y ∧ y.mode = x.mode ∧ y.chk = false ∧
        (∀ i n, on i → n < 256 → y.byte i n = s.mem.get (pa i n)) ∧ ∀ i, ¬on i → y.row i = x.row i) ∧
    ((x.chk = true → ∀ j, j < x.mode.cols → x.mismatch j = false) →
      (∀ i n k m, on i → on k → n < 256 → m < 256 → (i, n) ≠ (k, m) → pa i n ≠ pa k m) →
      reaches (exec (.mstt w) s) fun t =>
        t.hart.x = s.hart.x ∧ t.hart.tiles = s.hart.tiles ∧ t.hart.pc = s.hart.pc + 8#64 ∧ t.hart.mq = [] ∧
        t.hart.faults = [] ∧ (∀ i n, on i → n < 256 → t.mem.get (pa i n) = x.byte i n) ∧
        ∀ a, (∀ i n, on i → n < 256 → a ≠ pa i n) → t.mem.get a = s.mem.get a))

/-- The rank-1 update of MMACV, the slices of MSLCO and MSLCI, and the scaling of MSCAL, element by element.
It rests on the model's choices in log entry 16. -/
def Obligations.TileArithmetic : Prop :=
  ∀ (s : State) (w : WWord) (x : Tile), s.dispatches w false → palDefined (s.palOf w) = true →
    palFd (s.palOf w) ∉ [0x0F, 0x10] →
    let p := s.palOf w
    let cell := fun (c : VCtx) k => if w.vs3.getLsbD 0 then (k, c.scalar.toNat) else (c.scalar.toNat, k)
    let inside := fun (ij : Nat × Nat) => ij.1 < 32 ∧ ij.2 < x.mode.cols
    (∀ (fa fb : Fmt), s.hart.tile (w.vd.toNat % 8) = some x → regFmt (palFa p) = some fa → regFmt (palFb p) = some fb →
      fmtOf (palFc p) = some x.mode.fmt → fa.width = s.bits → fb.width = s.bits →
      fa.isInt = (x.mode == .i64) → fb.isInt = (x.mode == .i64) → scaleOk (palSa p) fa = true →
      scaleOk (palSb p) fb = true → palSd p = 0 →
      let c := s.context (.mmacv w) w false
      let on := fun i j => decide (i < 32) && c.mask.getLsbD i && decide (j < x.mode.cols) && decide (j < s.hart.vlmax) &&
        (w.em == 0#1 || (s.hart.rp w.pe.toNat).getLsbD j)
      let acc := fun i j =>
        if x.mode = .i64 then fuseInt (w.sat == 1#1) (Acc.start (x.elem i j))
          [(decodeInt fa.signed s.bits (s.el w.vs1 i), decodeInt fb.signed s.bits (s.el w.vs2 j))]
        else fuseFloat p x.mode.fmt (Acc.start (x.elem i j))
          [(decodeScaled p fa (palSa p) (s.el w.vs1 i), decodeScaled p fb (palSb p) (s.el w.vs2 j))]
      reaches (exec (.mmacv w) s) fun t =>
        tileDone s t w s.hart.vstart ∧ t.hart.p = s.hart.p ∧ flagsOf s t (fun i j => on i j = true) (fun i j => (acc i j).flags) ∧
        tileBecomes s t (w.vd.toNat % 8) x false fun i j => if on i j then (acc i j).acc else x.elem i j) ∧
    (∀ fd : Fmt, s.hart.tile (w.vs1.toNat % 8) = some x → fmtOf (palFc p) = some x.mode.fmt →
      regFmt (palFd p) = some fd → fd.width = s.bits → palSa p = 0 → palSb p = 0 → scaleOk (palSd p) fd = true →
      (x.chk = true → ∀ j, j < x.mode.cols → x.mismatch j = false) →
      vectorResult (.mslco w) s w false w.vd fun c k =>
        if (cell c k).1 < 32 ∧ (cell c k).2 < x.mode.cols then
          let v := decodeVal (palFtz p) x.mode.fmt (x.elem (cell c k).1 (cell c k).2)
          let e := encodeVal fd (encMode p fd c.rm c.sat) x.mode.fmt.isInt (v.scale (palSd p))
          (e.1, e.2 ||| (if v.isSnan then fNV else 0#6))
        else (0, 0#6)) ∧
    (∀ fa : Fmt, s.hart.tile (w.vd.toNat % 8) = some x → fmtOf (palFc p) = some x.mode.fmt →
      regFmt (palFa p) = some fa → fa.width = s.bits → palSb p = 0 → palSd p = 0 → scaleOk (palSa p) fa = true →
      let c := s.context (.mslci w) w false
      let new := fun k =>
        if (cell c k).1 < 32 ∧ (cell c k).2 < x.mode.cols then
          let v := decodeScaled p fa (palSa p) (s.el w.vs1 k)
          let e := encodeVal x.mode.fmt (encMode p x.mode.fmt c.rm c.sat) fa.isInt v
          (e.1, e.2 ||| (if v.isSnan then fNV else 0#6))
        else (0, 0#6)
      reaches (exec (.mslci w) s) fun t =>
        tileDone s t w 0 ∧ flagsGathered c s t (fun k => (new k).2) ∧ predicatesKeep c s t (fun k => (new k).2) ∧
        tileBecomes s t (w.vd.toNat % 8) x false fun i j =>
          let k := if w.vs3.getLsbD 0 then i else j
          if cell c k = (i, j) ∧ c.computes s k = true then (new k).1 else x.elem i j) ∧
    ∀ fa : Fmt, s.hart.tile (w.vd.toNat % 8) = some x → fmtOf (palFc p) = some x.mode.fmt → regFmt (palFa p) = some fa →
      fa.width = s.bits → palSb p = 0 → palSd p = 0 → scaleOk (palSa p) fa = true → fa.isInt = (x.mode == .i64) →
      let c := s.context (.mscal w) w false
      let lane := fun i j => if w.vs3.getLsbD 0 then j else i
      let new := fun i j => scaleElem c x.mode fa (x.elem i j) (s.el w.vs1 (lane i j))
      reaches (exec (.mscal w) s) fun t =>
        tileDone s t w 0 ∧ t.hart.p = s.hart.p ∧
        flagsOf s t (fun i j => inside (i, j) ∧ c.computes s (lane i j) = true) (fun i j => (new i j).2) ∧
        tileBecomes s t (w.vd.toNat % 8) x false fun i j => if c.computes s (lane i j) then (new i j).1 else x.elem i j

/-- MMAC on operand groups that the engine already holds: every active element takes the rank update of
the kept K positions, and a group whose bit of the mode asks for it is released. -/
def Obligations.MatrixMultiply : Prop :=
  ∀ (s : State) (w : WWord) (x : Tile) (fa fb : Fmt) (row : MacRow) (ga gb : OperandGroup),
    let p := s.palOf w
    let c := s.context (.mmac w) w false
    let kc := w.aux9.getLsbD 3
    let km := s.hart.rp (w.vs3.toNat % 16) &&& lowMask row.kd
    let kept := (List.range row.kd).filter fun k => km.getLsbD k
    s.dispatches w false → w.lqv = 0#1 → s.hart.tile (w.vd.toNat % 8) = some x → fmtOf (palFa p) = some fa →
    fmtOf (palFb p) = some fb → fmtOf (palFc p) = some x.mode.fmt → palDefined p = true → palFd p ∉ [0x0F, 0x10] → scaleOk (palSa p) fa = true →
    scaleOk (palSb p) fb = true → palSd p = 0 → macRow x.mode fa fb = some row → fa.isQ = false → fb.isQ = false →
    (kc = true → row.kc = true ∧ kept.length ≤ row.kd / 2) →
    s.hart.groupA = some ga → ga.handle = s.hart.rx w.vs1 → s.hart.groupB = some gb → gb.handle = s.hart.rx w.vs2 →
    s.hart.rx w.vs1 ≠ s.hart.rx w.vs2 → s.poison = [] → s.linesOpen →
    (w.aux9.getLsbD 0 = true → ga.handle.extractLsb' 56 4 = 1#4) →
    (w.aux9.getLsbD 1 = true → gb.handle.extractLsb' 56 4 = 1#4) →
    let bytes := fun (n : Nat) => if kc then n / 2 else n
    bytes row.a ≤ 512 * ga.pas.length → bytes row.b ≤ 512 * gb.pas.length →
    let held := fun (g : OperandGroup) => g.pas.foldr (fun a acc => s.mem.read a 512 + 2 ^ 4096 * acc) 0
    let rank := fun k => if kc then (kept.filter (· < k)).length else k
    let depth := if kc then row.kd / 2 else row.kd
    let a := fun i k => bitsAt (held ga) ((i * depth + rank k) * fa.width) fa.width
    let b := fun k j => bitsAt (held gb) ((rank k * row.cols + j) * fb.width) fb.width
    let on := fun i j => decide (i < 32) && c.mask.getLsbD i && decide (j < row.cols) &&
      (w.em == 0#1 || (s.hart.rp w.pe.toNat).getLsbD j)
    let new := fun i j => updateElem p x.mode row (w.sat == 1#1) km (a i) (fun k => b k j) fa fb (Acc.start (x.elem i j))
    reaches (exec (.mmac w) s) fun t =>
      flagsOf s t (fun i j => on i j = true) (fun i j => (new i j).flags) ∧
      (∃ chk, tileBecomes s t (w.vd.toNat % 8) x chk fun i j => if on i j then (new i j).acc else x.elem i j) ∧
      t.hart.groupA = (if w.aux9.getLsbD 0 then none else some ga) ∧
      t.hart.groupB = (if w.aux9.getLsbD 1 then none else some gb) ∧ t.hart.mq = [] ∧ t.hart.faults = [] ∧
      t.hart.x = s.hart.x ∧ t.hart.v = s.hart.v ∧ t.hart.p = s.hart.p ∧ t.hart.pc = s.hart.pc + 8#64 ∧
      (w.aux9.getLsbD 0 = false → w.aux9.getLsbD 1 = false → t.mem = s.mem)

/-! ## Streams -/

/-- The stream instructions: SBIND reads a descriptor, SSET changes the base, the position or the palette,
SFENCE drops what has run ahead, VBIND binds a register to each field and unbinds what it meets, VUNBIND
removes a whole binding. It rests on the model's choices in log entry 9. -/
def Obligations.StreamInstructions : Prop :=
  ∀ (s : State) (st : BitVec 4) (rs1 rs2 reg : Reg), s.hart.vq = [] → s.hart.mq = [] → s.hart.faults = [] →
    s.hart.tx = none → (∀ k : Fin 16, s.hart.st[k].appended = []) →
    let old := s.hart.st[st.toNat]
    let done := fun (t : State) (r : StreamReg) (b : List Binding) => t = { s with hart := { s.hart with
      st := s.hart.st.set st.toNat r, bindings := b, pc := s.hart.pc + 4#64,
      instret := s.hart.instret + 1, seq := s.hart.seq + 1, held := none } }
    (∀ d pa, s.loadsFrom (s.hart.rx rs1) 64 pa → parseDesc (s.mem.read pa 64) s.hart.vfrm = some d →
      reaches (exec (.sbind st rs1) s) fun t =>
        done t { desc := some d, pos := List.replicate d.fields 0, ahead := [], appended := [], ready := [] }
          (s.hart.bindings.filter fun b => b.stream ≠ st.toNat || decide (b.field < d.fields))) ∧
    (∀ d, old.desc = some d →
      (s.hart.rx rs1 = 0#64 → reaches (exec (.sset st rs1 rs2) s) fun t =>
        done t { old with desc := some { d with base := s.hart.rx rs2 }, pos := List.replicate d.fields 0, ahead := [],
                           ready := [] } s.hart.bindings) ∧
      (s.hart.rx rs1 = 1#64 → reaches (exec (.sset st rs1 rs2) s) fun t =>
        done t { old with
          pos := List.replicate d.fields (min (s.hart.rx rs2).toNat (d.count0 * d.count1 * d.count2)), ahead := [] }
          s.hart.bindings) ∧
      (s.hart.rx rs1 = 2#64 → streamPalOk d.store d.fields d.count1 d.count2 d.stride0 (s.hart.rx rs2) = true →
        reaches (exec (.sset st rs1 rs2) s) fun t =>
          done t { old with desc := some { d with pal := s.hart.rx rs2 }, ahead := [] } s.hart.bindings) ∧
      (reg.toNat + d.fields ≤ 32 → reaches (exec (.vbind reg st) s) fun t => ∃ b, (done t old b ∧
        (∀ f, f < d.fields → { reg := reg.toNat + f, stream := st.toNat, field := f } ∈ b) ∧
        (∀ x, x ∈ b → (x.stream = st.toNat ∧ x.reg = reg.toNat + x.field ∧ x.field < d.fields) ∨
          (x ∈ s.hart.bindings ∧ x.stream ≠ st.toNat ∧ ∀ y, y ∈ s.hart.bindings → y.stream = x.stream →
            y.reg < reg.toNat ∨ reg.toNat + d.fields ≤ y.reg)) ∧
        (∀ x, x ∈ s.hart.bindings → x.stream ≠ st.toNat → (∀ y, y ∈ s.hart.bindings → y.stream = x.stream →
          y.reg < reg.toNat ∨ reg.toNat + d.fields ≤ y.reg) → x ∈ b)))) ∧
    (reaches (exec (.sfence st) s) fun t => done t { old with ahead := [] } s.hart.bindings) ∧
    (reaches (exec (.vunbind reg) s) fun t => ∃ b, done t old b ∧
      ∀ x, x ∈ b ↔ x ∈ s.hart.bindings ∧ ∀ y, s.hart.bindings.find? (fun z => z.reg == reg.toNat) = some y →
        x.stream ≠ y.stream)

/-! ## Graphics instructions -/

/-- VINTP interpolates each pixel centre of the fragment record that rs3 names; the four texture instructions,
on a single-level nearest filter without compare over one layer, give the texel at each coordinate, VTEXQ the
four around it. It rests on the model's choices in log entries 23 and 24. -/
def Obligations.InterpolationAndTextures : Prop :=
  ∀ (s : State) (w : WWord) (fa fd : Fmt),
    let p := s.palOf w
    let va := s.hart.rx w.vs3
    s.dispatches w false → floatFmt (palFa p) s.bits = some fa → floatFmt (palFd p) s.bits = some fd →
    palPlain p = true → palFb p = 0 → palFc p = 0 → scalesZero p false false false = true → (fa = .f32 ∨ fa = .f16) →
    (fd = .f32 ∨ fd = .f16 ∨ fd = .b16) →
    (∀ r, ((∃ at_, s.loadsFrom va 128 at_ ∧ r = s.mem.read at_ 128) ∨
        (va.toNat % 128 = 64 ∧ ∃ lo hi, s.loadsFrom va 64 lo ∧ s.loadsFrom (va + 64#64) 64 hi ∧
          r = s.mem.read lo 64 + 2 ^ 512 * s.mem.read hi 64)) →
      vectorResult (.vintp w) s w false w.vd fun c k =>
        let a := fun j => decodeVal (palFtz p) fa (s.el w.vs1 j)
        let x := interpolate (w.aux9.extractLsb' 0 2).toNat c.rm r k (a 0) (a 1) (a 2)
        let e := encodeFloat fd fd.prec (encMode p fd c.rm false) x.1
        (e.1, e.2 ||| x.2)) ∧
    ∀ (at_ : Nat) (pa : Nat → Nat → Nat), s.loadsFrom va 128 at_ →
      let b := s.mem.read at_ 128
      let t := TexBinding.ofBytes va b
      let n := (w.aux9.extractLsb' 0 2).toNat + 1
      let samples := fun (i : Instr) =>
        (∀ k, (s.context i w false).computes s k = true →
          t.texelThere s pa (t.nearest (s.texCoords (s.context i w false) fa w.vs1 k))) →
        multiResult i s w n fun c k ch => c.channel fd (t.texelIn s pa (t.nearest (s.texCoords c fa w.vs1 k))) ch
      textureOk b = true → samplerOk b = true → t.mag = 0 → t.small = 0 → t.mip = 0 → t.cmp = 0 → t.dim = 0 →
      w.vs1.toNat + 1 < 32 → w.vd.toNat + n ≤ 32 →
      samples (.vtex w) ∧ (w.vs2.toNat + 3 < 32 → samples (.vtexg w)) ∧ samples (.vtexs w) ∧
      (n = 4 → (∀ k xy, (s.context (.vtexq w) w false).computes s k = true →
          xy ∈ t.gathered (s.texCoords (s.context (.vtexq w) w false) fa w.vs1 k) → t.texelThere s pa xy) →
        multiResult (.vtexq w) s w 4 fun c k r =>
          c.channel fd (t.texelIn s pa ((t.gathered (s.texCoords c fa w.vs1 k)).getD r (0, 0)))
            (w.aux9.extractLsb' 2 2).toNat)

/-- VRAYI starts a query for each computed element's ray; VRAYT traverses those that are under way, here with
one opaque triangle or nothing left to visit; VRAYC commits a candidate; VRAYA reads a field. It rests on the
model's choices in log entry 26. -/
def Obligations.RayQueries : Prop :=
  ∀ (s : State) (w : WWord), s.dispatches w false → s.bits = 32 → s.dev.queries.length + 2048 < 2 ^ 64 →
    let block := w.vd.toNat + 8 ≤ 32
    let on := fun (i : Instr) k => (s.context i w false).computes s k
    (block → w.vs1.toNat + 8 ≤ 32 → reaches (exec (.vrayi w) s) fun t =>
      queriesBecome s t w (on (.vrayi w)) fun k =>
        startQuery w (s.hart.rx w.vs3) ((List.range 8).map fun j => s.el (w.vs1 + BitVec.ofNat 5 j) k)) ∧
    (∀ (q : Nat → RayQuery) (pa : Nat → Nat), block →
      (∀ k, on (.vrayt w) k = true → k < 512 ∧ s.rayBlock w.vd k = some (q k) ∧
        ((q k).status = 1 ∨ (q k).status = 2 → (q k).work = [] ∨ ∃ x, (q k).work = [x] ∧ (q k).hit = .none ∧
          (q k).flags = 0 ∧ x.inst = .none ∧ refType x.ref = 2 ∧ s.loadsFrom x.addr 64 (pa k) ∧
          bitsAt (s.mem.read (pa k) 64) 352 1 = 1 ∧ bitsAt (s.mem.read (pa k) 64) 384 128 = 0 ∧
          (triangleHit (recordWords (s.mem.read (pa k) 64) 0 9) x.ray).isSome = true)) →
      reaches (exec (.vrayt w) s) fun t =>
        queriesBecome s t w
          (fun k => on (.vrayt w) k && ((q k).status == 1 || (q k).status == 2)) fun k =>
            match (q k).work with
            | [] => { q k with status := if (q k).hit.isSome then 3 else 4, cand := .none }
            | x :: _ => (q k).afterLeaf x (s.mem.read (pa k) 64)) ∧
    (∀ (q : Nat → RayQuery), block →
      (∀ k, on (.vrayc w) k = true → k < 512 ∧ s.rayBlock w.vd k = some (q k)) →
      reaches (exec (.vrayc w) s) fun t =>
        queriesBecome s t w (fun k => on (.vrayc w) k && (q k).status == 2 && (q k).cand.isSome) fun k =>
          match (q k).cand with
          | some h => { q k with hit := some h, tcur := h.t, cand := .none,
                                 status := if (q k).flags.testBit 1 then 3 else 1 }
          | .none => q k) ∧
    ∀ (q : Nat → RayQuery), w.em = 0#1 →
      (∀ k, on (.vraya w) k = true → s.rayBlock w.vs1 k = some (q k)) →
      movedResult (.vraya w) s w false fun _ k => queryField (q k) (w.aux9.getLsbD 3) (w.aux9.extractLsb' 0 3).toNat

/-! ## Delta instructions -/

/-- DPUSH offers the record of its one computed element: it merges with an equal one, or joins the open batch,
and the destination predicate shows it; DPOP takes the one record of a ring, or shows an empty or closed one;
DSEAL makes the open batch the pending one. It rests on the model's choices in log entry 38. -/
def Obligations.DeltaRings : Prop :=
  ∀ (s : State) (w : WWord) (d : DeltaAt) (q : RingDesc) (g : GraphMember),
    s.Inv → s.dispatches w false → s.deltaOpens (s.hart.rx w.vs3) d q g →
    let x := s.deltaRing d
    (∀ k, (∀ j, (s.context (.dpush w) w false).computes s j = decide (j = k)) → s.bits = 64 → w.vd.toNat < 16 →
      w.vs1.toNat + 4 ≤ 32 → (q.pscope ≠ 5 ∨ s.released) →
      let r := s.deltaRecord w.vs1 k
      let ends := fun (ok : Bool) (open_ : List DeltaRec) => reaches (exec (.dpush w) s) fun t =>
        deltaDone s t ∧ t.hart.v = s.hart.v ∧ t.hart.q = s.hart.q ∧ t.hart.lq = (s.popped w false).hart.lq ∧
        t.hart.graphs = s.hart.graphs ∧ (t.deltaRing d).open_ = open_ ∧ (t.deltaRing d).pending = x.pending ∧
        (∀ n b, 0 < n → b < 2048 → (t.hart.rp n).getLsbD b =
          if n = w.vd.toNat then
            decide (b < s.hart.vlmax) && (if s.hart.vstart ≤ b then ok && decide (b = k) else (s.hart.rp n).getLsbD b)
          else (s.hart.rp n).getLsbD b) ∧
        (ok && r.mult != 0 → ∀ y, s.dev.graphs.find? (fun y => y.pa == g.graph) = some y →
          (∃ z, t.dev.graphs.find? (fun y => y.pa == g.graph) = some z ∧ z.quiet = y.quiet &&& ~~~1#64) ∧
          (s.mem.read (g.graph + 128) 8 = y.quiet.toNat →
            t.mem.read (g.graph + 128) 8 = (y.quiet &&& ~~~1#64).toNat)) ∧
        ∀ a, (a < g.graph + 128 ∨ g.graph + 136 ≤ a ∨ ok = false ∨ r.mult = 0) → t.mem.get a = s.mem.get a
      fitsMult r.mult = true →
      ((q.pclosed = true ∨ q.cclosed = true) → ends false x.open_) ∧
      (q.pclosed = false → q.cclosed = false → r.mult = 0 → ends true x.open_) ∧
      (q.pclosed = false → q.cclosed = false → r.mult ≠ 0 → ∀ a y b, x.open_ = a ++ y :: b →
        (∀ z, z ∈ a → z.same r = false) → y.same r = true → fitsMult (y.mult + r.mult) = true →
        ends true (a ++ (if y.mult + r.mult = 0 then [] else [{ y with mult := y.mult + r.mult }]) ++ b)) ∧
      (q.pclosed = false → q.cclosed = false → r.mult ≠ 0 → (∀ y, y ∈ x.open_ → y.same r = false) →
        x.open_.length + 1 < q.window → (s.dev.rings.filter fun y => y.unit == d.unit).length < 64 →
        ends true (x.open_ ++ [r]))) ∧
    (w.lqv = 0#1 → s.bits = 64 → s.hart.vstart = 0 → w.vd.toNat + 5 ≤ 32 → x.open_ = [] → x.pending = none →
      let k := (w.aux9.extractLsb' 0 3).toNat
      (k = 0 → s.hart.lq.length < 8) → (0 < k → (s.hart.q.toList.getD k []).length < 8) →
      let puts := fun (t : State) (n : Nat) (v : Word) =>
        if k = 0 then t.hart.lq = s.hart.lq ++ [BitVec.ofNat 32 n] ∧ t.hart.q = s.hart.q else queuePuts s t k v
      (q.acq = q.tail → reaches (exec (.dpop w) s) fun t =>
        deltaDone s t ∧ t.hart.v = s.hart.v ∧ t.hart.p = s.hart.p ∧ t.hart.graphs = s.hart.graphs ∧ sameBytes s t ∧
        puts t 0 (BitVec.ofNat 64 (2 ^ 34 * (if q.pclosed then 3 else 2)))) ∧
      ∀ b, q.tail = (q.acq + 1) % q.m → q.head = q.acq → d.slot q q.acq s = .ok b s →
        bitsAt b 250 1 = 1 → reaches (exec (.dpop w) s) fun t =>
          let r := (DeltaRec.ofNat b).1
          deltaDone s t ∧ t.hart.p = s.hart.p ∧ g.graph ∈ t.hart.graphs ∧
          elem (t.hart.rv w.vd.toNat) 64 0 = r.key.toNat ∧ elem (t.hart.rv (w.vd.toNat + 1)) 64 0 = r.plo.toNat ∧
          elem (t.hart.rv (w.vd.toNat + 2)) 64 0 = r.phi.toNat ∧
          elem (t.hart.rv (w.vd.toNat + 3)) 64 0 = (r.mult % (2 ^ 64 : Nat)).toNat ∧
          (∀ n k, (k + 1) * 64 ≤ 16384 → 0 < k ∨ n < w.vd.toNat ∨ w.vd.toNat + 5 ≤ n →
            elem (t.hart.rv n) 64 k = elem (s.hart.rv n) 64 k) ∧
          puts t 1 (BitVec.ofNat 64 (1 + (if r.split then 2 ^ 32 else 0) + 2 ^ 33))) ∧
    (x.open_ = [] → x.pending = none → reaches (exec (.dseal w) s) fun t => vectorDone s t w false ∧ t.hart.v = s.hart.v ∧
      t.hart.p = s.hart.p ∧ t.hart.vfflags = s.hart.vfflags) ∧
    (x.open_ ≠ [] → x.pending = none → q.free < x.open_.length → reaches (exec (.dseal w) s) fun t =>
      deltaDone s t ∧ t.hart.v = s.hart.v ∧ t.hart.p = s.hart.p ∧ t.hart.q = s.hart.q ∧
      t.mem = s.mem ∧ (t.deltaRing d).open_ = [] ∧ (t.deltaRing d).pending = some (hashOrder x.open_))

/-- DLOOK and DNEXT find the slot of a key, or none; DAPPLY puts a record into an empty home slot and counts
it; DSCAN finds no live slot in a stretch without one; DQSTAT reads the quiet word. DBIND binds a delta ring
to a graph or takes an empty one off its graph, names an arrangement's graph in its header, and makes the hart
inactive in a graph. It rests on the model's choices in log entry 38. -/
def Obligations.Arrangements : Prop :=
  (∀ (s : State) (w : WWord) (pa b : Nat), s.Inv → s.dispatches w false → w.em = 0#1 →
    let va := s.hart.rx w.vs3
    let a := arrangementOf va b
    let k := (w.aux9.extractLsb' 0 3).toNat
    (∀ (f : Nat → Nat), s.arrangementAt va pa b → s.bits = 64 → w.vd.toNat + 4 ≤ 32 →
      let found := fun p => fun (key : Word) =>
        let m := DeltaRec.ofNat (s.mem.read (f p) 32)
        if slotState m.2 = 1 ∧ m.1.key = key then some (p, m.1) else none
      let plain := fun p (key : Word) => s.slotAt a p (f p) ∧
        let m := DeltaRec.ofNat (s.mem.read (f p) 32)
        slotState m.2 = 0 ∨ (slotState m.2 = 1 ∧ m.1.key = key)
      let key := fun n => wordOf (s.el w.vs1 n)
      let next := fun n => (s.el (w.vd + 3#5) n + 1) % a.size
      ((∀ n, (s.context (.dlook w) w false).computes s n = true → plain (a.home (key n)) (key n)) →
        multiResult (.dlook w) s w 4 fun _ n r => (lookupWords (found (a.home (key n)) (key n)) r, 0#6)) ∧
      ((∀ n, (s.context (.dnext w) w false).computes s n = true → s.el (w.vd + 3#5) n < a.size →
          next n ≠ a.home (key n) → plain (next n) (key n)) →
        multiResult (.dnext w) s w 4 fun _ n r =>
          (lookupWords (if s.el (w.vd + 3#5) n < a.size ∧ next n ≠ a.home (key n) then found (next n) (key n) else none) r,
           0#6))) ∧
    (∀ n pa2, s.arrangementAt va pa b → s.bits = 64 → w.vs1.toNat + 4 ≤ 32 →
      (∀ j, (s.context (.dapply w) w false).computes s j = decide (j = n)) →
      let r := s.deltaRecord w.vs1 n
      let p := a.home r.key
      fitsMult r.mult = true →
      (r.mult = 0 → reaches (exec (.dapply w) s) fun t => vectorDone s t w false ∧ t.hart.v = s.hart.v ∧
        t.hart.p = s.hart.p ∧ t.hart.vfflags = s.hart.vfflags) ∧
      (r.mult ≠ 0 → s.slotAt a p pa2 → slotState (DeltaRec.ofNat (s.mem.read pa2 32)).2 = 0 →
        s.storesTo (a.slotVa p) 32 pa2 → s.heldPa .store (va + 12#64) = some (pa + 12) →
        s.lineHeld (some s.hart.id) (pa / 128) = false → (pa2 + 32 ≤ pa ∨ pa + 64 ≤ pa2) →
        reaches (exec (.dapply w) s) fun t =>
          deltaDone s t ∧ t.hart.v = s.hart.v ∧ t.hart.p = s.hart.p ∧
          lowBytes 32 (t.mem.read pa2 32) = r.bytes false 1 ∧
          t.mem.read (pa + 12) 4 = (a.live + 1) % 2 ^ 32 ∧
          ∀ c, (c < pa2 ∨ pa2 + 32 ≤ c) → (c < pa + 12 ∨ pa + 16 ≤ c) → t.mem.get c = s.mem.get c)) ∧
    (∀ (f : Nat → Nat), s.arrangementAt va pa b → s.bits = 64 → s.hart.vstart = 0 → w.vd.toNat + 4 ≤ 32 → 0 < k →
      (s.hart.q.toList.getD k []).length < 8 →
      (∀ p, (s.hart.rx w.vs2).toNat ≤ p → p < a.size → s.slotAt a p (f p) ∧
        slotState (DeltaRec.ofNat (s.mem.read (f p) 32)).2 ≠ 1) → w.lqv = 0#1 →
      reaches (exec (.dscan w) s) fun t => deltaDone s t ∧ t.hart.v = s.hart.v ∧ t.hart.p = s.hart.p ∧ t.mem = s.mem ∧
        queuePuts s t k (BitVec.ofNat 64 a.size)) ∧
    (∀ at_, s.loadsFrom (va + 128#64) 8 at_ → w.lqv = 0#1 → 0 < w.vd.toNat → w.vd.toNat < 8 →
      (s.hart.q.toList.getD w.vd.toNat []).length < 8 →
      reaches (exec (.dqstat w) s) fun t => deltaDone s t ∧ t.hart.v = s.hart.v ∧ t.hart.p = s.hart.p ∧ t.mem = s.mem ∧
        queuePuts s t w.vd.toNat (BitVec.ofNat 64 (s.mem.read at_ 8)))) ∧
  (∀ (s : State) (w : WWord), s.Inv → s.dispatches w false → s.linesOpen →
    let g := s.hart.rx w.vs3
    let mode := (w.aux9.extractLsb' 0 2).toNat
    let graphAt := fun pa => g ≠ 0#64 ∧ g.toNat % 256 = 0 ∧ s.heldPa .store g = some pa ∧ ∃ die, region pa = .hbm die
    let ends := fun (t : State) => deltaDone s t ∧ t.hart.v = s.hart.v ∧ t.hart.p = s.hart.p ∧ t.hart.q = s.hart.q
    (∀ d q, mode = 0 → openDelta s.party (s.hart.rx w.vs1) s = .ok (d, q) s →
      (∀ pa, graphAt pa → (∀ m, s.graphOf d.r.pa = some m → m.graph = pa) → reaches (exec (.dbind w) s) fun t =>
        ends t ∧ t.hart.graphs = s.hart.graphs ∧
        t.graphOf d.r.pa = some { pa := d.r.pa, graph := pa, va := g, asid := (s.hart.satp.extractLsb' 44 16).toNat } ∧
        (∀ a, a ≠ d.r.pa → t.graphOf a = s.graphOf a) ∧ (w.vs2 = 0#5 → t.mem = s.mem) ∧
        t.descriptor d.r = (if w.vs2 = 0#5 then q else
          { q with notify := BitVec.ofNat 64 (2 ^ 63 + (s.hart.rx w.vs2).toNat % 2 ^ 16) }) ∧
        ∀ a, (a < d.r.pa ∨ d.r.pa + 64 ≤ a) → t.mem.get a = s.mem.get a) ∧
      (g = 0#64 → (s.graphOf d.r.pa = none ∨ s.ringCount d.r.pa = 0) → reaches (exec (.dbind w) s) fun t =>
        ends t ∧ t.hart.graphs = s.hart.graphs ∧ t.mem = s.mem ∧ t.graphOf d.r.pa = none ∧
        ∀ a, a ≠ d.r.pa → t.graphOf a = s.graphOf a)) ∧
    (∀ pa b gpa, mode = 1 → s.arrangementAt (s.hart.rx w.vs1) pa b → (g = 0#64 ∨ graphAt gpa) →
      (wordOf (bitsAt b 192 64) = 0#64 ∨ wordOf (bitsAt b 192 64) = g) →
      s.storesTo (s.hart.rx w.vs1 + 24#64) 8 (pa + 24) → reaches (exec (.dbind w) s) fun t =>
        ends t ∧ t.hart.graphs = s.hart.graphs ∧ t.mem.read (pa + 24) 8 = g.toNat ∧ sameBytesBut s t (pa + 24) 8) ∧
    (∀ pa, 2 ≤ mode → graphAt pa → reaches (exec (.dbind w) s) fun t =>
      ends t ∧ t.mem = s.mem ∧ t.hart.graphs = s.hart.graphs.filter fun x => x != pa))

/-! ## Rings -/

/-- The ring instructions: what each makes of the descriptor, of rstat and of the slot list, and the
value for rd; a handle that is no handle is a RING-SERVICE fault with reason 1. -/
def Obligations.RingInstructions : Prop :=
  ∀ (s : State) (scope : BitVec 3) (rd rs1 rs2 : Reg),
    let h := s.hart.rx rs1
    let released := scope ≠ 5#3 ∨ s.released
    let none_ := fun (_ : Nat) => False
    (∀ r d, s.ringAt h r d →
      let grant := fun (x : RingTaken) => if x.st = 0 then slotAddr s.hart.ctx d x.counter else 0#64
      let take := d.acquire.1
      let att := (s.attachment r.pa take.counter).toList
      (∀ svc, ringAllows d.kind 0 = true → (d.reserve.1.st = 1 → svc = 0#1 ∨ d.kind ≠ 2) →
        (d.reserve.1.st = 0 → s.hart.slots.length < 8) → reaches (exec (.rres scope svc rd rs1) s) fun t =>
          ringDone s t r d.reserve.2 (rstatOf 0 d.reserve.1.st d.reserve.1.counter false)
            (s.hart.slots ++ (if d.reserve.1.st = 0 then
              [{ handle := h, consumer := false, counter := d.reserve.1.counter }] else [])) none_ ∧
          setsReg s t rd (grant d.reserve.1)) ∧
      (∀ eos e, ringAllows d.kind 1 = true → released → e.counter < d.m →
        s.hart.slots.find? (fun x => x.handle == h && !x.consumer) = some e →
        reaches (exec (.rcom scope eos rs1) s) fun t =>
          ringDone s t r (d.commit e.counter (eos == 1#1)) (rstatOf 1 (if d.cclosed then 3 else 0) e.counter false)
            (dropEntry e s.hart.slots) none_ ∧ sameRegs s t) ∧
      (ringAllows d.kind 2 = true → (take.st = 0 → s.hart.slots.length + 1 + att.length ≤ 8) →
        reaches (exec (.racq scope rd rs1) s) fun t =>
          ringDone s t r d.acquire.2 (rstatOf 2 take.st take.counter take.eos)
            (s.hart.slots ++ (if take.st = 0 then
              { handle := h, consumer := true, counter := take.counter } :: att else [])) none_ ∧
          setsReg s t rd (grant take)) ∧
      (∀ e, ringAllows d.kind 3 = true → released → e.counter < d.m →
        s.hart.slots.find? (fun x => x.handle == h && x.consumer) = some e →
        reaches (exec (.rrel scope rs1) s) fun t =>
          ringDone s t r (d.release e.counter) (rstatOf 3 0 e.counter false) (dropEntry e s.hart.slots) none_ ∧
          sameRegs s t) ∧
      (∀ pa, ringAllows d.kind 4 = true → released →
        (d.reserve.1.st = 0 → s.storesTo (slotAddr s.hart.ctx d d.reserve.1.counter) 8 pa ∧
          (pa + 8 ≤ r.pa ∨ r.pa + 64 ≤ pa)) →
        reaches (exec (.rpush scope rs1 rs2) s) fun t =>
          sameRegs s t ∧
          ringDone s t r (if d.reserve.1.st = 0 then d.reserve.2.commit d.reserve.1.counter false else d)
            (rstatOf 4 d.reserve.1.st d.reserve.1.counter false) s.hart.slots
            (fun a => d.reserve.1.st = 0 ∧ pa ≤ a ∧ a < pa + 8) ∧
          (d.reserve.1.st = 0 → t.mem.read pa 8 = (s.hart.rx rs2).toNat)) ∧
      (∀ pa, ringAllows d.kind 5 = true →
        (take.st = 0 → s.loadsFrom (slotAddr s.hart.ctx d take.counter) 8 pa ∧
          (att = [] ∨ s.hart.slots.length + 2 ≤ 8)) →
        reaches (exec (.rpop scope rd rs1) s) fun t =>
          ringDone s t r (if take.st = 0 then d.acquire.2.release take.counter else d)
            (rstatOf 5 take.st take.counter take.eos) (s.hart.slots ++ (if take.st = 0 then att else [])) none_ ∧
          setsReg s t rd (if take.st = 0 then BitVec.ofNat 64 (s.mem.read pa 8) else 0#64)) ∧
      (reaches (exec (.rstat scope rd rs1) s) fun t =>
        ringDone s t r d (rstatOf 6 0 0 false) s.hart.slots none_ ∧ setsReg s t rd d.state) ∧
      (∀ cons : BitVec 1, ringAllows d.kind 7 = true → released →
        (d.kind = 1 → ∀ x, x ∈ s.dev.rings → x.pa ≠ r.pa) → reaches (exec (.rclose scope cons rs1) s) fun t =>
          sameRegs s t ∧
          ringDone s t r { d with ctl := d.ctl ||| BitVec.ofNat 64 (2 ^ if cons = 1#1 then 43 else 42) }
            (rstatOf 7 0 0 false) s.hart.slots none_) ∧
      (ringAllows d.kind 8 = true → released → reaches (exec (.rbeacon scope rs1 rs2) s) fun t =>
        sameRegs s t ∧ ringDone s t r d (rstatOf 8 0 0 false) s.hart.slots none_ ∧
        ∀ b, d.notify.getLsbD 62 = true → b < 254 →
          (d.notify.extractLsb' 0 56).toNat = 0x3800_0000 + 8 * b →
          assocGet b 0#64 t.dev.beacons = s.hart.rx rs2)) ∧
    (s.direct → handleOk h = false → s.trapsHere 26 1#64 →
      trapsWith (.rstat scope rd rs1) s 26 1#64 ∧ trapsWith (.racq scope rd rs1) s 26 1#64 ∧
      trapsWith (.rpush scope rs1 rs2) s 26 1#64 ∧ trapsWith (.rclose scope 0#1 rs1) s 26 1#64)

/-! ## Transactions -/

/-- TBEGIN and TORELSE open a level with a checkpoint, the fifth aborts with cause 11; TEND closes a level,
and the outermost one writes every byte of the write set; TRETRY takes the innermost alternative, or sleeps
until a line of the read set is written. Outside a transaction TORELSE, TEND and TRETRY are Illegal. It rests
on the model's choices in log entry 35. -/
def Obligations.TransactionInstructions : Prop :=
  ∀ (s : State) (rd : Reg) (off : BitVec 12), s.hart.vq = [] → s.hart.mq = [] →
    let level := fun (alt : Bool) => ({ alt := alt, x := s.hart.x, vl := s.hart.vl, target := s.branchTarget off } : TxLevel)
    let ordered := decide (8 ≤ (s.hart.txstat.extractLsb' 24 8).toNat) && s.hart.lastBegin == some s.hart.pc
    let inTx := fun (t : State) (tr : Tx) => movesOn s t 4 ∧ scalarOnly { s with hart := { s.hart with tx := some tr } } t
    let opened : Tx :=
      { levels := [level false], reads := [], writes := [], sends := [], flips := [], slots := [], taken := [],
        doomed := false, doomVa := none, ordered := ordered, begin_ := s.hart.pc, rd := rd }
    (s.hart.tx = none →
      ((ordered = true → ∀ l, l ∈ s.hart.footprint → s.lineHeld (some s.hart.id) l = false) →
        reaches (exec (.tbegin rd off) s) fun t => setsReg s t rd 0#64 ∧ movesOn s t 4 ∧
          scalarOnly { s with hart := { s.hart with acquiring := [], tx := some opened } } t) ∧
      ∀ i, i = .torelse off ∨ i = .tend ∨ i = .tretry →
        s.trapsHere 2 (BitVec.ofNat 64 (bytesToNat (encode i))) → trapsWith i s 2 (BitVec.ofNat 64 (bytesToNat (encode i)))) ∧
    ∀ tr cp, s.hart.tx = some tr → tr.levels.getLast? = some cp →
      (tr.levels.length < 4 →
        (reaches (exec (.tbegin rd off) s) fun t => setsReg s t rd 0#64 ∧
          inTx t { tr with levels := level false :: tr.levels }) ∧
        reaches (exec (.torelse off) s) fun t => sameRegs s t ∧ inTx t { tr with levels := level true :: tr.levels }) ∧
      (tr.levels.length = 4 → reaches (exec (.tbegin rd off) s) (fun t => aborts s t tr 11 0) ∧
        reaches (exec (.torelse off) s) fun t => aborts s t tr 11 0) ∧
      (1 < tr.levels.length → reaches (exec .tend s) fun t => sameRegs s t ∧ ∃ u, inTx t u ∧
        u.levels = tr.levels.tail ∧ u.reads = tr.reads ∧ u.doomed = tr.doomed ∧ u.begin_ = tr.begin_ ∧ u.rd = tr.rd) ∧
      (tr.levels.length = 1 → tr.doomed = true → reaches (exec .tend s) fun t => aborts s t tr 1 0) ∧
      (s.Inv → s.hart.streamsIdle → tr.levels.length = 1 → tr.doomed = false → tr.sends = [] → tr.flips = [] →
        tr.taken = [] →
        (∀ w, w ∈ tr.writes → (∃ die, region (32 * w.sector) = .hbm die) ∧ (w.bytes.map Prod.fst).Nodup ∧
          (∀ b, b ∈ w.bytes → b.1 < 32) ∧ s.lineHeld (some s.hart.id) (w.sector / 4) = false) →
        reaches (exec .tend s) fun t =>
          sameRegs s t ∧ movesOn s t 4 ∧ t.hart.tx = none ∧ t.hart.txstat = s.hart.txstat &&& ~~~0xFF00_0000#64 ∧
          t.hart.slots = (tr.slots.getLast?.map Prod.snd).getD s.hart.slots ∧ t.hart.v = s.hart.v ∧ t.hart.p = s.hart.p ∧
          ∀ a, t.mem.get a = tr.byteAt s.mem a) ∧
      (∀ pre c post, tr.levels = pre ++ c :: post → c.alt = true → (∀ l, l ∈ pre → l.alt = false) →
        reaches (exec .tretry s) fun t =>
          t.hart.x = c.x ∧ t.hart.vl = min c.vl s.hart.vlmax ∧ t.hart.pc = c.target ∧ t.mem = s.mem ∧
          ∃ u, t.hart.tx = some u ∧ u.levels = post ∧ u.reads = tr.reads ∧
            u.writes = tr.writes.filter (fun w => decide (w.level ≤ post.length)) ∧
            u.sends = tr.sends.filter (fun d => decide (d.level ≤ post.length))) ∧
      ((∀ l, l ∈ tr.levels → l.alt = false) → s.hart.hinfo.getLsbD 7 = false → reaches (exec .tretry s) fun t =>
        t.hart.x = cp.x ∧ t.hart.vl = min cp.vl s.hart.vlmax ∧ t.hart.pc = tr.begin_ ∧ t.hart.tx = none ∧ t.mem = s.mem ∧
        (tr.doomed = true → t.hart.run = s.hart.run) ∧
        (tr.doomed = false → t.hart.run = .sleeping ∧ t.hart.marks = tr.reads ∧
          t.hart.sleepTarget = some { target := cp.target, rd := tr.rd, ordered := tr.ordered } ∧
          t.hart.deadline = if s.hart.txdeadline = 0#64 then none else some (s.clock + s.hart.txdeadline.toNat)))

/-! ## Handlers, messages and panels -/

/-- HBIND binds or unbinds one channel of the core, or faults with its reason; HSEND delivers its payload and
shows the outcome in hinfo; HDONE ends a thread or a handler run. It rests on the model's choices in log entry
4. -/
def Obligations.HandlerInstructions : Prop :=
  ∀ (s : State) (rs1 rs2 : Reg), s.hart.tx = none →
    let chan := s.hart.rx rs1
    let entry := s.hart.rx rs2
    let core := s.hart.id.coreId
    let gang := (s.hart.placed.map Placed.gang).getD 0
    let ctx := core.hart (entry.extractLsb' 61 3).toNat
    let faults := fun (n : Nat) => s.trapsHere 29 (BitVec.ofNat 64 n) → trapsWith (.hbind rs1 rs2) s 29 (BitVec.ofNat 64 n)
    (32 ≤ chan.toNat → faults 1) ∧
    (chan.toNat < 32 → s.isContext ctx gang = false → faults 2) ∧
    (chan.toNat < 32 → s.isContext ctx gang = true → s.boundElsewhere core chan.toNat gang = true → faults 3) ∧
    (chan.toNat < 32 → s.isContext ctx gang = true → s.boundElsewhere core chan.toNat gang = false →
      (entry.toNat % 4 ≠ 0 → faults 4) ∧
      (entry.toNat % 4 = 0 → reaches (exec (.hbind rs1 rs2) s) fun t =>
        sameRegs s t ∧ movesOn s t 4 ∧ t.mem = s.mem ∧ t.others = s.others ∧
        (∀ n, n ≠ chan.toNat → (t.core core).channel n = (s.core core).channel n) ∧
        (entry.getLsbD 57 = false → (t.core core).channel chan.toNat = none) ∧
        (entry.getLsbD 57 = true → ∃ c, (t.core core).channel chan.toNat = some c ∧ c.entry = entry ∧ c.gang = gang))) ∧
    (s.direct →
      let target := s.hart.rx rs1
      let va := s.hart.rx rs2
      let len := (target.extractLsb' 16 6).toNat + 1
      ((target.extractLsb' 22 42 ≠ 0#42 ∨ 47 < (target.extractLsb' 8 6).toNat) → s.trapsHere 29 5#64 →
        trapsWith (.hsend rs1 rs2) s 29 5#64) ∧
      (target.extractLsb' 22 42 = 0#42 → (target.extractLsb' 8 6).toNat ≤ 47 →
        (128 < va.toNat % 128 + len → s.trapsHere 4 va → trapsWith (.hsend rs1 rs2) s 4 va) ∧
        ∀ pa u, s.readable va len pa u → u.linesFree → reaches (exec (.hsend rs1 rs2) s) fun t =>
          let r := u.arrive (targetCore target)
            { chan := (target.extractLsb' 0 5).toNat, kind := 0, source := none, len := len,
              record := lowBytes len (u.mem.read pa len) }
          t = { r.1 with hart := { r.1.hart with
                  hinfo := (s.hart.hinfo &&& ~~~0x700#64) ||| BitVec.ofNat 64 (256 * r.2),
                  pc := s.hart.pc + 4#64, instret := s.hart.instret + 1, held := none } })) ∧
    (s.hart.vq = [] → s.hart.mq = [] → s.hart.slots = [] → (∀ k : Fin 16, s.hart.st[k].appended = []) →
      reaches (exec .hdone s) fun t =>
        sameRegs s t ∧ t.hart.v = s.hart.v ∧ t.hart.p = s.hart.p ∧ t.mem = s.mem ∧ t.hart.bindings = [] ∧
        t.hart.window = none ∧ (∀ n, t.hart.tile n = none) ∧ t.hart.graphs = [] ∧
        t.hart.instret = s.hart.instret + 1 ∧
        (s.hart.serving = none → t.hart.run = .ended) ∧
        ∀ c area slot, s.hart.serving = some (c, area, slot) → t.hart.run = .dormant ∧ t.hart.serving = none ∧
          t.hart.hinfo = s.hart.hinfo &&& ~~~0x80#64 ∧
          ∀ x, x ∈ (t.core core).arrivals ↔ x ∈ (s.core core).arrivals ∧ ¬(x.1 = area ∧ x.2.slot = slot))

/-- PCLAIM claims the next columns of the launch's panel and sets vl, shows an exhausted or foreign
panel with all ones and vl 0, and reads the arguments and the size of the panel; OWNTST reads an owner
field, and OWNSET commits or releases the slot at an address. -/
def Obligations.PanelsAndOwners : Prop :=
  ∀ (s : State) (rd rs1 rs2 : Reg), s.hart.tx = none →
    let op := s.hart.rx rs2
    let kind := (op.extractLsb' 62 2).toNat
    let plain := fun (v : Word) (vl : Nat) => reaches (exec (.pclaim rd rs1 rs2) s) fun t =>
      setsReg s t rd v ∧ movesOn s t 4 ∧ scalarOnly { s with hart := { s.hart with vl := vl } } t
    (s.panelOf s.hart (s.hart.rx rs1) = none →
      (kind = 0 → plain (BitVec.allOnes 64) 0) ∧ (kind ≠ 0 → plain 0#64 s.hart.vl)) ∧
    (∀ l, s.panelOf s.hart (s.hart.rx rs1) = some l →
      (kind = 1 → plain (BitVec.ofNat 64 (l.field 40 8)) s.hart.vl) ∧
      (kind = 2 → plain (BitVec.ofNat 64 (l.field 48 8)) s.hart.vl) ∧
      (kind = 3 → plain (BitVec.ofNat 64 (l.rows * 2 ^ 32 + l.cols)) s.hart.vl) ∧
      (kind = 0 → (op.extractLsb' 16 46 ≠ 0#46 ∨ l.rows ≤ 32 * l.band ∨ l.cols = 0) → plain (BitVec.allOnes 64) 0) ∧
      (kind = 0 → op.extractLsb' 16 46 = 0#46 → 32 * l.band < l.rows → l.col < l.cols →
        let asked := op.toNat % 2 ^ 16
        let n := min (if asked = 0 ∨ s.hart.vlmax < asked then s.hart.vlmax else asked) (l.cols - l.col)
        let rows := min 32 (l.rows - 32 * l.band)
        let after := if l.col + n = l.cols then { l with col := 0, band := l.band + 1 } else { l with col := l.col + n }
        reaches (exec (.pclaim rd rs1 rs2) s) fun t =>
          setsReg s t rd (BitVec.ofNat 64 (l.band + 2 ^ 27 * (rows - 1) + 2 ^ 32 * l.col)) ∧ movesOn s t 4 ∧
          scalarOnly { s with
            hart := { s.hart with vl := n },
            dev := { s.dev with launches := s.dev.launches.map fun m => if m.number = l.number then after else m } } t)) ∧
    (s.direct → ∀ r d k g pa, ringAtAddr s.party (s.hart.rx rs1) s = .ok (some (r, d, k)) s → r.gang = some g →
      g.fifoPa (d.base.toNat + k % d.n * d.size) = some pa →
      scalarResult (.owntst rd rs1) s rd
        (if (s.cluster (ClusterId.ofIndex r.cluster)).owners.contains pa then 1#64 else 0#64)) ∧
    ∀ r d k r2 d2 e, ringAtAddr s.party (s.hart.rx rs1) s = .ok (some (r, d, k)) s → s.ringAt r.handle r2 d2 →
      e.counter < d2.m → e.counter % d2.n = k → s.hart.rx rs2 = 0#64 ∨ s.hart.rx rs2 = 1#64 →
      s.hart.slots.find? (fun x => x.handle == r2.handle && x.consumer == (s.hart.rx rs2 == 0#64) &&
        x.counter % d2.n == k) = some e →
      reaches (exec (.ownset rs1 rs2) s) fun t => sameRegs s t ∧
        (s.hart.rx rs2 = 1#64 → ringDone s t r2 (d2.commit e.counter false)
          (rstatOf 1 (if d2.cclosed then 3 else 0) e.counter false) (dropEntry e s.hart.slots) fun _ => False) ∧
        (s.hart.rx rs2 = 0#64 → ringDone s t r2 (d2.release e.counter) (rstatOf 3 0 e.counter false)
          (dropEntry e s.hart.slots) fun _ => False)

/-! ## Copies -/

/-- A copy instruction enters CQ and asks for its hand-over, waits while two stand there, and aborts a
transaction; the hand-over of a one-dimensional CPYT with no slot and no completion word gives the engine the
command; its completion copies the bytes of a byte transfer and takes the command away. It rests on the
model's choices in log entries 4 and 13. -/
def Obligations.CopyCommands : Prop :=
  ∀ (s : State) (rs1 rs2 : Reg),
    let id := s.hart.id
    (s.hart.vq = [] → s.hart.mq = [] → s.hart.faults = [] → s.hart.tx = none →
      ∀ i, i = .cpyt rs1 ∨ i = .cpyg rs1 rs2 ∨ i = .cpyc rs1 →
        (s.hart.cq.length < 2 → reaches (exec i s) fun t => ∃ e : QEntry,
          e.instr = i ∧ e.pc = s.hart.pc ∧ e.seq = s.hart.seq ∧ e.ready = false ∧ e.cap.x1 = s.hart.rx rs1 ∧
          (i = .cpyg rs1 rs2 → e.cap.x2 = s.hart.rx rs2) ∧ e.cap.vfrm = s.hart.vfrm ∧
          t = { s with
            inbox := s.inbox ++ [.copyHandOver id],
            hart := { s.hart with cq := s.hart.cq ++ [e], seq := s.hart.seq + 1, pc := s.hart.pc + 4#64,
                                  instret := s.hart.instret + 1, held := none } }) ∧
        (2 ≤ s.hart.cq.length → waitsFor i s .queueFull)) ∧
    (∀ tr cp, s.hart.tx = some tr → tr.levels.getLast? = some cp →
      ∀ i, i = .cpyt rs1 ∨ i = .cpyg rs1 rs2 ∨ i = .cpyc rs1 → reaches (exec i s) fun t => aborts s t tr 7 0) ∧
    (∀ e lo hi, s.direct → s.hart.faults = [] → s.hart.cq = [e] → e.ready = false → (∃ r, e.instr = .cpyt r) →
      s.loadsFrom e.cap.x1 64 lo → e.cap.x1.toNat % 128 = 0 → hi = lo + 64 → s.poisoned hi 24 = false →
      s.heldPa .load (e.cap.x1 + 64#64) = some hi →
      let b := s.mem.read lo 64 + 2 ^ 512 * s.mem.read hi 24
      cdNdims b = 1 → cdComp b = 0 → cdCword b = 0#64 → reaches (exec (.copyHandOver id) s) fun t =>
        ∃ c : CopyCmd, c.hart = id ∧ c.entry = e ∧ c.desc = b ∧ c.slot = none ∧ c.joined = false ∧ c.stopped = false ∧
          c.next = 0 ∧ c.flags = 0#6 ∧ c.ended = none ∧ c.host = false ∧
          c.party = { ctx := { s.hart.ctx with slice := 0, self := none }, self := none, plain := true, engine := some id } ∧
          t = { (s.modCore id.coreId fun k => { k with copies := k.copies ++ [c] }) with
            hart := { s.hart with cq := [{ e with ready := true }] }, inbox := s.inbox ++ [.copyCompletion id 0] }) ∧
    ∀ (c : CopyCmd) (d : CopyDim) (rm : Nat) (sp dp : Nat → Nat), s.Inv →
      ((s.core id.coreId).copies.filter fun x => x.hart == id) = [c] → c.hart = id → (∃ r, c.entry.instr = .cpyt r) →
      c.ended = none → c.joined = false → c.stopped = false → c.next = 0 → s.enginePending id = false →
      copyWellFormed .tensor (s.isRoot c) c.entry c.desc = some (.bytes, rm) → cdDims c.desc = [d] → d.ss = 0#64 → d.ds = 0#64 →
      cdComp c.desc = 0 → cdCword c.desc = 0#64 → (cdNotify c.desc).getLsbD 31 = false → (cdCtl c.desc).getLsbD 6 = false →
      (∀ j, j < d.count →
        s.heldFor c.party.ctx .load (cdSrc c.desc + BitVec.ofNat 64 j) = some (sp j) ∧ s.served (sp j) ∧
        s.poisoned (sp j) 1 = false ∧ s.heldFor c.party.ctx .store (cdDst c.desc + BitVec.ofNat 64 j) = some (dp j) ∧
        s.served (dp j) ∧ s.lineHeld none (dp j / 128) = false ∧ ∀ k, k < d.count → dp k = dp j → k = j) →
      ∀ n, reaches (exec (.copyCompletion id n) s) fun t =>
        (∀ j, j < d.count → t.mem.get (dp j) = s.mem.get (sp j)) ∧
        (∀ a, (∀ j, j < d.count → a ≠ dp j) → t.mem.get a = s.mem.get a) ∧
        t.hart.x = s.hart.x ∧ t.hart.pc = s.hart.pc ∧ t.hart.v = s.hart.v ∧ t.hart.p = s.hart.p ∧
        (t.core id.coreId).copies = (s.core id.coreId).copies.filter fun x =>
          !(x.hart == id && x.entry.seq == c.entry.seq)

/-! ## One step -/

/-- A step takes the oldest event before any hart's turn; otherwise the hart whose turn it is runs the
instruction that the bytes at its pc decode to: exec of that instruction after the fetch, which sets what the
translation sets and the fetch buffer, and then the end of the turn. A frozen device takes resets alone, and
one in recovery resets and security messages. It rests on the model's choices in log entries 3, 4 and 32. -/
def Obligations.StepRunsDecoded : Prop :=
  (∀ (s t : State) (i : Instr) (n pa : Nat),
    s.dev.boot = .running → s.selected = true → s.inbox = [] → s.hart.run = .running → s.hart.vq = [] → s.hart.mq = [] →
    s.hart.faults = [] → s.hart.bindings = [] → s.pendingInterrupt = none → s.hart.fetchBuf = [] →
    s.hart.pc.toNat % 4 = 0 → s.maps .fetch s.hart.pc n pa t → t.poisoned pa n = false →
    decode (lowBytes n (t.mem.read pa n)) = .ok (i, n) →
    ∃ b, step s = finish State.endIssue (exec i { t with hart := { t.hart with fetchBuf := b } })) ∧
  ∀ (s : State) (i : Instr) (l : List Instr),
    (s.dev.boot = .running → s.selected = false → s.inbox = i :: l → i.wf = true → step s = exec i { s with inbox := l }) ∧
    (s.dev.boot = .frozen → (∀ e, e ∈ s.inbox → isReset e = false) → step s = .next s) ∧
    (s.dev.boot = .frozen → s.inbox = i :: l → isReset i = true → step s = exec i s) ∧
    (s.dev.boot = .recovery → (∀ e, e ∈ s.inbox → inRecovery e = false) → step s = .next s) ∧
    (s.dev.boot = .recovery → s.inbox = i :: l → inRecovery i = true → i.wf = true →
      step s = exec i { s with inbox := l })

/-- A step keeps memory in its canonical form, whatever it runs. -/
def Obligations.StepKeepsTheInvariant : Prop := ∀ (s t : State), s.Inv → step s = .next t → t.Inv

/-- Reset meets the invariant, and leaves the registers at the values that R14, R19, R370 and R442 give them;
in every state x0 reads 0 and p0 all ones, and writes to them change nothing. It rests on the model's choices
in log entry 2. -/
def Obligations.ResetAndHardwired : Prop :=
  (let h := State.reset.hart
   State.reset.Inv ∧ (∀ r, h.rx r = 0#64) ∧ (∀ r, h.rv r = 0#16384) ∧ (∀ r, 0 < r → h.rp r = 0#2048) ∧ h.vl = 0 ∧
   h.vxmask = 0x3C#6 ∧ h.vfflags = 0#6 ∧ h.vstart = 0 ∧ h.scounteren = 7#64 ∧ h.stimecmp = BitVec.allOnes 64 ∧
   h.trroute = 0x0001_0000_0300_B000#64 ∧ h.vq = [] ∧ h.mq = [] ∧ h.cq = [] ∧ h.lq = [] ∧ h.tx = none ∧ h.frame = none ∧
   (∀ n, h.tile n = none) ∧ ∀ c, State.reset.cluster c = Cluster.reset) ∧
  ∀ (h : Hart) (v : Word) (b : BitVec 2048),
    h.rx 0#5 = 0#64 ∧ h.rp 0 = BitVec.allOnes 2048 ∧ h.wx 0#5 v = h ∧ h.wp 0 b = h

/-! ## Resets, power and debug -/

/-- A reset leaves the harts at their reset values with nothing placed; a cold one clears memory, a warm one
keeps HBM with its poison and aborts the host's reads. A freeze stops the device, and one of a core or a
cluster ends the launches there. The power limit, the clock and a debugger's halt do what their rules say. It
rests on the model's choices in log entries 1, 2, 35 and 41. -/
def Obligations.ResetsPowerAndDebug : Prop :=
  ∀ (s : State) (core : CoreId) (c : ClusterId) (h : HartId) (w : Nat) (up : Bool), s.Inv →
    let boots := fun (t : State) =>
      t.hart = State.reset.hart ∧ t.others = [] ∧ t.cores = [] ∧ t.clusters = [] ∧ t.diesSt = [] ∧ t.inbox = [] ∧
      t.dev.log = bootLog ∧ t.dev.gangs = [] ∧ t.dev.launches = [] ∧ t.dev.beacons = [] ∧
      t.dev.boot = if bootImage.isSome then .running else .recovery
    (reaches (exec .coldReset s) fun t => boots t ∧ t.poison = [] ∧ ∀ a, t.mem.get a = blank a) ∧
    (reaches (exec .warmReset s) fun t => boots t ∧
      t.dev.outputs = s.dev.outputs ++ List.replicate (s.inbox.filter isHostRead).length .abort_ ∧
      (∀ a, t.mem.get a = if inHbm a then s.mem.get a else blank a) ∧
      ∀ k, k ∈ t.poison ↔ k ∈ s.poison ∧ inHbm (32 * k) = true) ∧
    (reaches (exec .freeze s) fun t => t = { s with dev := { s.dev with boot := .frozen } }) ∧
    (reaches (exec .thermalTrip s) fun t =>
      t = { s with dev := { s.dev with boot := .frozen }, inbox := s.inbox ++ [.warmReset] }) ∧
    (reaches (exec (.coreFreeze core) s) fun t => (t.core core).frozen = true ∧
      ∀ g, g ∈ t.dev.gangs → g ∈ s.dev.gangs ∧ ∀ k, k ∈ g.harts → k.coreId ≠ core) ∧
    (reaches (exec (.lockstepMismatch c) s) fun t => (t.cluster c).stopped = true ∧
      ∀ g, g ∈ t.dev.gangs → g ∈ s.dev.gangs ∧ ¬(g.die = c.die ∧ g.cluster = c.cluster)) ∧
    (reaches (exec (.powerLimitWrite w) s) fun t =>
      t = { s with dev := { s.dev with watts := if 1200 ≤ w ∧ w ≤ 2900 then w else s.dev.watts } }) ∧
    (reaches (exec (.clockStep up) s) fun t => t = { s with dev := { s.dev with
      mhz := if up then min 2000 (s.dev.mhz + 100) else max 1000 (s.dev.mhz - 100) } }) ∧
    ((s.hartAt h).run = .running ∨ (s.hartAt h).run = .paused ∨ (s.hartAt h).run = .sleeping →
      reaches (exec (.debugHalt h) s) fun t => t.mem = s.mem ∧
        hartBecomes s t h (if Config.debugEnabled then
          { s.hartAt h with run := .halted, marks := [], sleepTarget := none, deadline := none } else s.hartAt h)) ∧
    ((s.hartAt h).run = .halted → reaches (exec (.debugResume h) s) fun t => t.mem = s.mem ∧
      hartBecomes s t h { s.hartAt h with run := .running })

/-! ## The host and peers -/

/-- The host's and the peers' events: reads and writes of HBM through BAR2, beacons with their interrupts,
accesses that peers ask for, answers, a link that goes down, and the trains of VSTR. It rests on the model's
choices in log entries 4, 20 and 36. -/
def Obligations.HostAndPeers : Prop :=
  ∀ (s : State) (off n b id : Nat) (data : List Byte) (v w : Word) (dev : Nat), s.Inv →
    let base := (s.dev.bar2ctl.extractLsb' 30 10).toNat * 2 ^ 30 + off
    let fits := fun n => off + n ≤ Config.bar2Gib * 2 ^ 30 ∧ base + n ≤ 768 * 2 ^ 30
    let out := fun (i : Instr) (o : List Output) =>
      reaches (exec i s) fun t => t = { s with dev := { s.dev with outputs := s.dev.outputs ++ o } }
    let reached := fun pa => match region pa with
      | .hbm _ => True
      | .aperture c o => s.apertureOpen c o = true
      | _ => False
    (fits n → out (.hostMemoryRead off n)
      [.readData (lowBytes n (s.mem.read (0x10_0000_0000 + base) n)) (s.poisoned (0x10_0000_0000 + base) n)]) ∧
    (¬fits n → out (.hostMemoryRead off n) [.readData (List.replicate n 0#8) false]) ∧
    (fits data.length → s.linesFree → reaches (exec (.hostMemoryWrite off data) s) fun t =>
      bytesBecome s t (0x10_0000_0000 + base) data) ∧
    (¬fits data.length → reaches (exec (.hostMemoryWrite off data) s) fun t => t = s) ∧
    (b < 254 → reaches (exec (.hostBeaconWrite b v) s) fun t =>
      assocGet b 0#64 t.dev.beacons = v ∧ (∀ k, k ≠ b → assocGet k 0#64 t.dev.beacons = assocGet k 0#64 s.dev.beacons) ∧
      t = { s with dev := { s.dev with beacons := t.dev.beacons, msix := t.dev.msix, outputs := t.dev.outputs } } ∧
      ∀ m, s.dev.msix.find? (fun m => m.vector == b) = some m →
        (m.masked = false → t.dev.outputs = s.dev.outputs ++ [.msix b]) ∧
        (m.masked = true → t.dev.outputs = s.dev.outputs ∧
          t.dev.msix.find? (fun m => m.vector == b) = some { m with pending := true })) ∧
    (∀ m, b < 256 → s.dev.msix.find? (fun m => m.vector == b) = some m → reaches (exec (.msixUnmask b) s) fun t =>
      t = { s with dev := { s.dev with msix := t.dev.msix, outputs := t.dev.outputs } } ∧
      t.dev.msix.find? (fun m => m.vector == b) = some { m with masked := false, pending := false } ∧
      t.dev.outputs = s.dev.outputs ++ if m.pending then [.msix b] else []) ∧
    (reaches (exec (.launchBeaconWrite dev n v) s) fun t => t = { s with inbox := s.inbox ++ [.launchRingService dev n] }) ∧
    (reaches (exec (.bar2ctlWrite v) s) fun t => t = { s with dev := { s.dev with bar2ctl :=
      if (v.extractLsb' 30 10).toNat % Config.bar2Gib = 0 ∧
          (v.extractLsb' 30 10).toNat + Config.bar2Gib ≤ 768 ∧ (v.extractLsb' 0 3).toNat ≤ 4
        then v &&& 0xFF_C000_0007#64 else s.dev.bar2ctl } }) ∧
    (reached off → out (.peerAccess (.read off n)) [.readData (lowBytes n (s.mem.read off n)) (s.poisoned off n)]) ∧
    (reached off → s.linesFree → reaches (exec (.peerAccess (.write off data)) s) fun t =>
      bytesBecome s t off data ∧ t.dev.outputs = s.dev.outputs ++ [.peerAck]) ∧
    (reached off → s.linesFree → off % n = 0 → 0 < n → s.poisoned off n = false →
      reaches (exec (.peerAccess (.amo off n 1 v w)) s) fun t =>
        t.mem.read off n = (s.mem.read off n + v.toNat) % 256 ^ n ∧ sameBytesBut s t off n ∧ t.hart.x = s.hart.x ∧
        t.dev.outputs = s.dev.outputs ++ [.peerData (BitVec.ofNat 64 (s.mem.read off n))]) ∧
    (¬reached off → out (.peerAccess (.read off n)) [.abort_] ∧ out (.peerAccess (.write off data)) [.abort_] ∧
      out (.peerAccess (.amo off n b v w)) [.abort_]) ∧
    (∀ i, i = .peerResponse id data ∨ i = .hostReadCompletion id data → reaches (exec i s) fun t =>
      t = { s with dev := { s.dev with requests := t.dev.requests } } ∧
      (∀ r, r ∈ s.dev.requests → r.id ≠ id → r ∈ t.dev.requests) ∧
      (∀ r, r ∈ s.dev.requests → r.id = id → r.write = true → r.dropped = false → r ∉ t.dev.requests) ∧
      ∀ r, r ∈ s.dev.requests → r.id = id → r.write = false → r.dropped = false → data.length = r.size →
        { r with data := some (bytesToNat data) } ∈ t.dev.requests) ∧
    (reaches (exec (.linkDown dev) s) fun t =>
      t = { s with dev := { s.dev with requests := t.dev.requests }, inbox := t.inbox } ∧
      ∀ r, r ∈ s.dev.requests → if r.isTo dev then
          (if r.write || r.amo then { r with dropped := true } else { r with poison := true, data := some 0 }) ∈ t.dev.requests
        else r ∈ t.dev.requests)

/-! ## Shootdowns -/

/-- A shootdown: its issue makes it PENDING and asks every party in reach, and is refused while another is
pending or for a reach that does not exist; an acknowledgement drops the entries it covers from that core's
TLB, or from that cluster's, once the party is its next to act on and nothing of the core's is outstanding; the
completion, and the timeout with the lowest silent core, write the completion word at the place that the go write
found. It rests on the model's choices in log entries 4, 7 and 41. -/
def Obligations.Shootdowns : Prop :=
  ∀ (s : State) (c : ClusterId) (v : Word) (view : Option StoreView), s.Inv → c.die < 4 → c.cluster < 48 →
    let status := fun (d : Shootdown) => (d.ctl.extractLsb' 24 4).toNat
    let pending := fun (d e : Shootdown) (place : Option Nat) (ps : List Nat) => status e = 1 ∧ ∃ b, e.issued = some b ∧
      b.va = d.va ∧ b.cword = place ∧ b.silent = ps ∧ b.ctl.extractLsb' 16 2 = v.extractLsb' 16 2 ∧
      b.ctl.extractLsb' 20 2 = v.extractLsb' 20 2 ∧ b.ctl.extractLsb' 48 16 = v.extractLsb' 48 16 ∧
      ∀ o, o ∈ s.broadcasts → o.order < b.order
    let asks := fun (from_ t : State) (u : Nat) (ps : List Nat) => t.inbox = from_.inbox ++
      if ps = [] then [.shootdownComplete u] else ps.map fun k => .shootdownAcknowledge u k
    let reach := (v.extractLsb' 20 2).toNat
    let hreaches := fun (p : State → Prop) => reaches (exec (.hostShootdownIssue v) s) fun t =>
      t = { s with dev := { s.dev with hsd := t.dev.hsd }, inbox := t.inbox } ∧ p t
    let w := s.wordPlace c.die (s.cluster c).sd.cword (if v.getLsbD 0 then view else none)
    let d := (s.cluster c).sd
    let creaches := fun (p : State → Prop) => reaches (exec (.shootdownIssue c { word := v, view := view }) s) fun t =>
      t = { w.2 with clusters := t.clusters, inbox := t.inbox } ∧ (∀ k, k ≠ c → t.cluster k = s.cluster k) ∧ p t
    (view = none → w = (some d.cword.toNat, s)) ∧
    (v.getLsbD 0 = false → creaches fun t => (t.cluster c).sd = { d with ctl := (t.cluster c).sd.ctl } ∧
      (t.cluster c).sd.ctl.extractLsb' 16 2 = v.extractLsb' 16 2 ∧ (t.cluster c).sd.ctl.extractLsb' 20 2 = v.extractLsb' 20 2 ∧
      (t.cluster c).sd.ctl.extractLsb' 48 16 = v.extractLsb' 48 16 ∧ status (t.cluster c).sd = status d) ∧
    (v.getLsbD 0 = true →
      (d.issued.isSome = true → creaches fun t => status (t.cluster c).sd = 3 ∧ (t.cluster c).sd.issued = d.issued) ∧
      (d.issued = none → reach = 3 → creaches fun t => status (t.cluster c).sd = 4 ∧ (t.cluster c).sd.issued = none) ∧
      (d.issued = none → reach ≠ 3 → creaches fun t =>
        pending d (t.cluster c).sd w.1 (w.2.parties c.index reach) ∧ asks w.2 t c.index (w.2.parties c.index reach)) ∧
      (s.dev.hsd.issued = none → reach = 2 → hreaches fun t =>
        pending s.dev.hsd t.dev.hsd (some s.dev.hsd.cword.toNat) (s.parties 192 2) ∧ asks s t 192 (s.parties 192 2)) ∧
      (s.dev.hsd.issued = none → reach ≠ 2 → hreaches fun t => status t.dev.hsd = 4 ∧ t.dev.hsd.issued = none)) ∧
    ∀ (u : Nat) (b : Broadcast), u ≤ 192 → (s.shootdown u).issued = some b →
      (∀ k, k ∈ b.silent → (∀ o, o ∈ s.broadcasts → k ∈ o.silent → b.order ≤ o.order) →
        let heard := fun (t : State) => (t.shootdown u).issued = some { b with silent := b.silent.filter fun j => j != k } ∧
          ((∀ j, j ∈ b.silent → j = k) → .shootdownComplete u ∈ t.inbox)
        (k < 1536 → s.unperformed (partyCore k) = false →
          (∀ h, h ∈ s.coreHarts (partyCore k) → h.hasAppended = false ∧ h.trains = [] ∧ h.hostDirty = false) →
          reaches (exec (.shootdownAcknowledge u k) s) fun t =>
            (∀ e, e ∈ (t.core (partyCore k)).tlb ↔ e ∈ (s.core (partyCore k)).tlb ∧ b.covers e = false ∧
              ∀ h, h ∈ s.coreHarts (partyCore k) → h.run ≠ .halted) ∧
            (∀ j, j ≠ partyCore k → t.core j = s.core j) ∧ t.mem = s.mem ∧ t.hart.x = s.hart.x ∧ heard t) ∧
        (1536 ≤ k → k < 1728 → reaches (exec (.shootdownAcknowledge u k) s) fun t =>
          (∀ e, e ∈ (t.cluster (ClusterId.ofIndex (k - 1536))).tlb ↔
            e ∈ (s.cluster (ClusterId.ofIndex (k - 1536))).tlb ∧ b.covers e = false) ∧ t.mem = s.mem ∧ t.hart = s.hart ∧
          heard t)) ∧
      (∀ pa, b.cword = some pa → (∃ die, region pa = .hbm die) → pa % 8 = 0 → s.linesFree →
        let ends := fun (i : Instr) (st miss : Nat) (p : State → Prop) => reaches (exec i s) fun t =>
          t.mem.read pa 8 = st + 2 ^ 32 * miss ∧ sameBytesBut s t pa 8 ∧ (t.shootdown u).issued = none ∧
          status (t.shootdown u) = st ∧ p t
        (b.silent = [] → ends (.shootdownComplete u) 0 0 fun _ => True) ∧
        (∀ k, k ∈ b.silent → k < 1536 → (∀ j, j ∈ b.silent → k ≤ if j < 1536 then j else 8 * (j - 1536)) →
          ends (.shootdownTimeout u) 2 k fun t => .coreFreeze (partyCore k) ∈ t.inbox))

/-! ## The root of trust, features and expansion -/

/-- Each security message is answered with its code, a wrong slot with ERROR, and the transcript keeps
both; a measurement is appended while the log holds fewer than 64. The features take the bits that the
fuses grant, the expansion table the entries of experimental combinations; an experimental instruction
that it does not define is Illegal, and one that it defines enters the queue of the stream that its entry
names, where what it does is the firmware's; in the scalar stream that is so at once. The codes of the
messages are the model's choice in log entry 31. -/
def Obligations.TrustAndExpansion : Prop :=
  ∀ (s : State) (req : List Byte) (e : LogEntry) (c : ClusterId) (v : Word) (grp : BitVec 3) (op : BitVec 6) (w : WWord),
    let slot := bytesToNat ((req.drop 2).take 1)
    let k := s.cluster c
    answers (.getVersion req) s [] req 0x10 0x04 ∧ answers (.getCapabilities req) s s.dev.spdm req 0x12 0x61 ∧
    answers (.negotiateAlgorithms req) s s.dev.spdm req 0x12 0x63 ∧ answers (.getDigests req) s s.dev.spdm req 0x12 0x01 ∧
    answers (.getCertificate req) s s.dev.spdm req 0x12 (if slot = 0 then 0x02 else 0x7F) ∧
    answers (.challenge req) s s.dev.spdm req 0x12 (if slot = 0 then 0x03 else 0x7F) ∧
    answers (.getMeasurements req) s s.dev.spdm req 0x12 0x60 ∧
    answers (.unsupportedRequest req) s s.dev.spdm req 0x12 0x7F ∧
    (reaches (exec .doeAbort s) fun t => t = { s with dev := { s.dev with mailbox := [] } }) ∧
    (reaches (exec (.attestationLogAppend e) s) fun t => t = { s with dev := { s.dev with
      log := if s.dev.log.length < 64 then s.dev.log ++ [e] else s.dev.log,
      outputs := if s.dev.log.length < 64 then s.dev.outputs else s.dev.outputs ++ [.logFull] } }) ∧
    (reaches (exec (.featenWrite c v) s) fun t =>
      clusterBecomes s t c { k with featen := v.extractLsb' 0 11 &&& Config.featureFuse }) ∧
    (experimental (k.dxsel.extractLsb' 6 3) (k.dxsel.extractLsb' 0 6) = true →
      reaches (exec (.dxentWrite c v) s) fun t =>
        clusterBecomes s t c { k with dxst := 0, dxtable := (t.cluster c).dxtable } ∧
        (t.cluster c).expansion (k.dxsel.extractLsb' 6 3) (k.dxsel.extractLsb' 0 6) = v &&& 0xE000_0000_FFFF_FFFF#64 ∧
        ∀ g o, (g, o) ≠ (k.dxsel.extractLsb' 6 3, k.dxsel.extractLsb' 0 6) →
          (t.cluster c).expansion g o = k.expansion g o) ∧
    (experimental (k.dxsel.extractLsb' 6 3) (k.dxsel.extractLsb' 0 6) = false →
      reaches (exec (.dxentWrite c v) s) fun t => clusterBecomes s t c { k with dxst := 1 }) ∧
    (let i : Instr := .experimentalInstruction grp op w
     let entry := (s.cluster s.hart.id.clusterId).expansion grp op
     let stream := (entry.extractLsb' 61 2).toNat
     (entry.getLsbD 63 = false → s.trapsHere 2 (BitVec.ofNat 64 (bytesToNat (encode i))) →
       trapsWith i s 2 (BitVec.ofNat 64 (bytesToNat (encode i)))) ∧
     (entry.getLsbD 63 = true → stream = 3 → exec i s = .refused .expansionBody) ∧
     (entry.getLsbD 63 = true → stream < 3 → s.hart.vq = [] → s.hart.mq = [] → s.hart.faults = [] →
       (s.hart.cq.length < 2 → reaches (exec i s) fun t => ∃ q : QEntry,
         q.instr = i ∧ q.pc = s.hart.pc ∧ q.seq = s.hart.seq ∧ q.cap = s.hart.capture w.xp w.vs1 w.vs2 w.vs3 ∧
         t = { s with
           inbox := s.inbox ++ (if stream = 2 then [.copyHandOver s.hart.id] else [])
           hart := { s.hart with
             vq := if stream = 0 then [q] else [], mq := if stream = 1 then [q] else [],
             cq := if stream = 2 then s.hart.cq ++ [q] else s.hart.cq, seq := s.hart.seq + 1, pc := s.hart.pc + 8#64,
             instret := s.hart.instret + 1, held := none } }) ∧
       (stream = 2 → 2 ≤ s.hart.cq.length → waitsFor i s .queueFull)))

/-! ## The Lantern -/

/-- The window into a parked hart: a write of an x register, of the resume pc or of the mode; RESUME goes on
at the resume pc, UPCALL enters S mode with the recorded trap, CONTAIN ends the hart's launch, and STOP parks
a hart. A hart that is not parked is NOTPARKED for the others, and an item that does not exist is FORMAT; a write of
pcctl is the command that its cmd field names, and FORMAT for the other values. It rests on the model's choices in log entry 37. -/
def Obligations.ParkedHarts : Prop :=
  ∀ (s : State) (c : ClusterId) (v : Word),
    let id := s.selectedHart c
    let h := s.hartAt id
    let k := (s.cluster c).pcidx.toNat
    let ends := fun (i : Instr) (n : Nat) (p : State → Prop) =>
      reaches (exec i s) fun t => (t.cluster c).pcst = n ∧ t.mem = s.mem ∧ p t
    let same := fun (t : State) => t = { s with clusters := t.clusters }
    (h.run ≠ .parked → ends (.pcdataWrite c v) 1 same ∧ ends (.resume c) 1 same ∧ ends (.upcall c) 1 same ∧
      ends (.contain c) 1 same) ∧
    (h.run = .parked →
      (k < 32 → ends (.pcdataWrite c v) 0 fun t => hartBecomes s t id (h.wx (BitVec.ofNat 5 k) v)) ∧
      (k = 0x20 → ends (.pcdataWrite c v) 0 fun t => hartBecomes s t id { h with resumePc := v &&& ~~~3#64 }) ∧
      (k = 0x21 → ends (.pcdataWrite c v) 0 fun t =>
        hartBecomes s t id { h with priv := if v.getLsbD 0 then .supervisor else .user }) ∧
      (0xE000 ≤ k → ends (.pcdataWrite c v) 2 same) ∧
      (h.frame = none → ends (.resume c) 0 fun t =>
        hartBecomes s t id { h with run := .running, held := none, fetchBuf := [], pc := h.resumePc }) ∧
      (h.scause.getLsbD 63 = false → h.scause ≠ 48#64 → ends (.upcall c) 0 fun t =>
        (t.hartAt id).priv = .supervisor ∧ (t.hartAt id).pc = (h.stvec &&& ~~~3#64) ∧ (t.hartAt id).run = .running ∧
        (t.hartAt id).x = h.x ∧ (t.hartAt id).sepc = h.sepc ∧ (t.hartAt id).scause = h.scause ∧
        (t.hartAt id).stval = h.stval ∧ ∀ g, g ≠ id → t.hartAt g = s.hartAt g) ∧
      ∀ p, h.placed = some p → reaches (exec (.contain c) s) fun t => (t.cluster c).pcst = 0 ∧
        ∀ g, g ∈ t.dev.gangs → g ∈ s.dev.gangs ∧ g.launch ≠ p.launch) ∧
    (h.run = .running ∨ h.run = .paused ∨ h.run = .sleeping ∨ h.run = .halted → h.tx = none →
      (∀ x, x ∈ (s.core id.coreId).copies → x.hart = id → x.joined = false) →
      ends (.stop c) 0 fun t => (t.hartAt id).run = .parked ∧ (t.hartAt id).resumePc = h.pc ∧
        (t.hartAt id).parkCause = 255 ∧ (t.hartAt id).x = h.x ∧ (t.hartAt id).v = h.v ∧ (t.hartAt id).p = h.p ∧
        ∀ g, g ≠ id → t.hartAt g = s.hartAt g) ∧
    let write : Instr := .registerWrite (.pcctl c) v
    let cmd := v.extractLsb' 0 3
    (cmd = 1#3 → exec write s = exec (.resume c) s) ∧ (cmd = 2#3 → exec write s = exec (.upcall c) s) ∧
    (cmd = 3#3 → exec write s = exec (.contain c) s) ∧ (cmd = 4#3 → exec write s = exec (.stop c) s) ∧
    (cmd = 0#3 ∨ 4#3 < cmd → ends write 2 same)

/-- The registers of a cluster and of the device: an interrupt joins the Lantern's list, a read of the error
log answers with it and clears it, budget values wait for the next tick, ssiset sets SSIP, the timer reaches stimecmp, and a
register write takes its RW fields; a write of bankmode switches a bank or shows why not, and one of the ring
table stores its bytes. It rests on the model's choices in log entries 4, 6 and 30. -/
def Obligations.ClusterRegisters : Prop :=
  ∀ (s : State) (c : ClusterId) (h : HartId) (v : Word) (die n : Nat), s.Inv →
    let k := s.cluster c
    let becomes := fun (i : Instr) (k : Cluster) => reaches (exec i s) fun t => clusterBecomes s t c k
    let device := fun (r : DeviceReg) (d : Device) => reaches (exec (.registerWrite r v) s) fun t => t = { s with dev := d }
    becomes (.lanternInterrupt c v) { k with irqs := k.irqs ++ [v] } ∧
    (reaches (exec (.errlogRead c) s) fun t =>
      clusterBecomes { s with dev := { s.dev with outputs := s.dev.outputs ++ [.csrValue k.errlog] } } t c
        { k with errlog := 0#64 }) ∧
    becomes (.registerWrite (.pcsel c) v) { k with pcsel := v &&& 0x3F#64 } ∧
    becomes (.registerWrite (.pcidx c) v) { k with pcidx := v } ∧
    becomes (.registerWrite (.budsel c) v) { k with budsel := v &&& 0xFFF#64 } ∧
    becomes (.registerWrite (.mtimeout c) v) { k with mtimeout := v &&& 0xFFFF_FFFF#64 } ∧
    becomes (.registerWrite (.sdva c) v) { k with sd := { k.sd with va := v } } ∧
    becomes (.registerWrite (.sdcw c) v) { k with sd := { k.sd with cword := v &&& ~~~7#64 } } ∧
    becomes (.registerWrite (.dxsel c) v) { k with dxsel := v &&& 0x1FF#64 } ∧
    becomes (.registerWrite (.bankctl c) v) { k with
      mincache := let m := (v.extractLsb' 0 6).toNat; if m % 4 = 0 ∧ 4 ≤ m ∧ m ≤ 32 then m else k.mincache } ∧
    device .hostbase { s.dev with hostbase := v &&& ~~~0xFFF#64 } ∧
    device .hsdva { s.dev with hsd := { s.dev.hsd with va := v } } ∧
    device .hsdcw { s.dev with hsd := { s.dev.hsd with cword := v &&& ~~~7#64 } } ∧
    device .devid { s.dev with devid := (v.extractLsb' 32 11).toNat } ∧
    (reaches (exec (.registerWrite (.spaceSatp n) v) s) fun t =>
      t = { s with dev := { s.dev with spaces := t.dev.spaces } } ∧
      ((t.dev.spaces.find? fun x => x.asid == n).map AddressSpace.satp) = some v ∧
      ∀ m, m ≠ n → t.dev.spaces.find? (fun x => x.asid == m) = s.dev.spaces.find? fun x => x.asid == m) ∧
    (reaches (exec (.registerWrite (.ageLimit die) v) s) fun t => t.hart = s.hart ∧ t.mem = s.mem ∧
      (t.die die).ageLimit = if 1 ≤ v.toNat ∧ v.toNat ≤ 255 then v.toNat else (s.die die).ageLimit) ∧
    (∀ unit cls sub, budgetOf k.budsel = some (unit, cls, sub) → reaches (exec (.budvalWrite c v) s) fun t =>
      let home : ClusterId := if unit = 1 then { die := c.die, cluster := 0 } else c
      t = { s with clusters := t.clusters } ∧
      (t.cluster home).budget unit cls sub = { (s.cluster home).budget unit cls sub with
        pending := some (if unit = 0 then min 131072 (v.toNat % 2 ^ 48) else v.toNat % 2 ^ 48, v.getLsbD 63) }) ∧
    (reaches (exec (.ssisetWrite c v) s) fun t => t.mem = s.mem ∧ ∀ g x, s.findHart g = some x →
      t.findHart g = some (if g.clusterId = c ∧ v.getLsbD (8 * g.core + g.hart) = true then { x with ssip := true } else x)) ∧
    (reaches (exec (.supervisorTimerInterrupt h) s) fun t => (s.hartAt h).stimecmp.toNat ≤ t.dev.refTime ∧
      s.dev.refTime ≤ t.dev.refTime ∧ t = { s with dev := { s.dev with refTime := t.dev.refTime } }) ∧
    (reaches (exec (.fabricSweep die) s) fun t => t = s) ∧
    (∀ b new, b < 32 → new < 4 → fieldOf k.bankmode (2 * b) 2 ≠ new → v = setField k.bankmode (2 * b) 2 new →
      (∀ why, s.refusal c b new = some why → reaches (exec (.bankmodeWrite c v) s) fun t =>
        t = { s with clusters := t.clusters, inbox := s.inbox ++ [.place c.die] } ∧
        t.cluster c = { k with bankst := BitVec.ofNat 64 (256 * b + 2 ^ 16 * (why % 16)) }) ∧
      (s.refusal c b new = none → reaches (exec (.bankmodeWrite c v) s) fun t =>
        (t.cluster c).bankmode = v ∧ (t.cluster c).bankst = 0#64 ∧ t.hart = s.hart ∧
        ∀ a, t.mem.get a =
          if apertureBase c.index + 0x2_0000 * b ≤ a ∧ a < apertureBase c.index + 0x2_0000 * (b + 1) then blank a
          else s.mem.get a)) ∧
    ∀ (off : Nat) (data : List Byte), off < 4096 → natAligned off data.length = true →
      reaches (exec (.ringTableWrite c off data) s) fun t => bytesBecome s t (ringTableEntry c.index 0 + off) data

/-! ## Issue, interrupts and transactions' events -/

/-- The events of one hart: an age step, the end of a pause, a tick, a trap at a boundary, the wake and the
timeout of a sleep, and the abort of a doomed transaction; each leaves every other hart as it was. An arrival
takes a free slot of its context's area and stores its record there, or is turned away; a dormant context with
a pending channel starts a run with the registers of R166; a hart that waits for a ring goes on when it is
served. It rests on the model's choices in log entries 3, 4 and 6. -/
def Obligations.HartEvents : Prop :=
  (∀ (s : State) (h : HartId) (line : Nat),
    let k := s.hartAt h
    (k.run = .running → reaches (exec (.ageStep h) s) fun t => t.mem = s.mem ∧
      hartBecomes s t h { k with age := min 3 (k.age + 1), unselected := 0 }) ∧
    (k.run = .paused → reaches (exec (.pauseExpiry h) s) fun t => t.mem = s.mem ∧ k.deadline.getD 0 ≤ t.clock ∧
      s.clock ≤ t.clock ∧ hartBecomes s t h { k with run := .running, deadline := none }) ∧
    (reaches (exec .tickBoundary s) fun t => t.clock = (s.clock / 65536 + 1) * 65536 ∧ t.hart = s.hart ∧
      t.others = s.others ∧ t.mem = s.mem ∧ t.dev = s.dev ∧ (∀ c, t.core c = { s.core c with used := [] }) ∧
      ∀ c, t.cluster c = { s.cluster c with budgets := (s.cluster c).budgets.map fun b =>
        { b with used := 0, pending := none, limit := (b.pending.map Prod.fst).getD b.limit,
                 slack := (b.pending.map Prod.snd).getD b.slack } }) ∧
    (∀ code, k.run = .running ∨ k.run = .paused ∨ k.run = .sleeping → k.faults = [] → k.frame = none → k.tx = none →
      ({ s with hart := k } : State).pendingInterrupt = some code → reaches (exec (.trapEntry { hart := h, error := false }) s) fun t =>
        let u := t.hartAt h
        u.priv = .supervisor ∧ u.sepc = k.pc ∧ u.scause = 0x8000_0000_0000_0000#64 ||| BitVec.ofNat 64 code ∧
        u.pc = (k.stvec &&& ~~~3#64) + (if k.stvec.extractLsb' 0 2 = 1#2 then BitVec.ofNat 64 (4 * code) else 0#64) ∧
        u.run = .running ∧ u.x = k.x ∧ u.sstatus.getLsbD 1 = false ∧ u.sstatus.getLsbD 5 = k.sstatus.getLsbD 1 ∧
        u.sstatus.getLsbD 8 = decide (k.priv = .supervisor) ∧ t.mem = s.mem ∧ ∀ g, g ≠ h → t.hartAt g = s.hartAt g) ∧
    (k.run = .sleeping → (∃ m, m ∈ k.marks ∧ m.line = line) → (∀ w, w ∈ (s.core h.coreId).wakes → w.ctx ≠ h.hart) →
      reaches (exec (.transactionWake h line) s) fun t => t.mem = s.mem ∧ hartBecomes s t h { k with
        run := .running, held := none, marks := [], sleepTarget := none, deadline := none }) ∧
    (k.run = .running ∨ k.run = .paused ∨ k.run = .sleeping → k.tx = none → reaches (exec (.trapEntry { hart := h, error := true }) s) fun t =>
      let u := t.hartAt h
      u.run = .parked ∧ u.resumePc = k.pc ∧ u.parkCause = 48 ∧ u.scause = 48#64 ∧ u.vfcause.extractLsb' 0 8 = 5#8 ∧
      u.x = k.x ∧ t.mem = s.mem ∧ ∀ g, g ≠ h → t.hartAt g = s.hartAt g) ∧
    (∀ d w, k.run = .sleeping → k.deadline = some d → k.sleepTarget = some w →
      reaches (exec (.txdeadlineExpiry h) s) fun t =>
        let u := t.hartAt h
        u.run = .running ∧ u.pc = w.target ∧ u.txstat.extractLsb' 0 8 = 12#8 ∧ u.txstat.getLsbD 23 = w.ordered ∧
        u.vstart = 0 ∧ d ≤ t.clock ∧ u.rx w.rd = (if w.rd = 0#5 then 0#64 else u.txstat) ∧
        (∀ r, r ≠ w.rd → u.rx r = k.rx r) ∧ t.mem = s.mem ∧ ∀ g, g ≠ h → t.hartAt g = s.hartAt g) ∧
    ∀ tr cp, k.tx = some tr → tr.doomed = true → tr.levels.getLast? = some cp →
      reaches (exec (.transactionAbort h) s) fun t =>
        let u := t.hartAt h
        u.tx = none ∧ u.pc = cp.target ∧ u.txstat.extractLsb' 0 8 = 1#8 ∧ u.vl = min cp.vl k.vlmax ∧
        u.rx tr.rd = (if tr.rd = 0#5 then 0#64 else u.txstat) ∧
        (∀ r, r ≠ tr.rd → u.rx r = if r = 0#5 then 0#64 else cp.x[r.toNat]) ∧ t.mem = s.mem ∧
        ∀ g, g ≠ h → t.hartAt g = s.hartAt g) ∧
  (∀ (s : State) (c : CoreId) (a : Arrival) (n : Nat), s.Inv →
    let k := s.core c
    let id := c.hart n
    let h := s.hartAt id
    (k.channel a.chan = none → reaches (exec (.channelArrival c a) s) fun t => t = s) ∧
    (∀ ch p g slot pa, k.channel a.chan = some ch → (ch.entry.extractLsb' 61 3).toNat = n → h.placed = some p →
      s.gang p.gang = some g → s.preempted g = false → a.kind = 0 → a.record.length ≤ 64 → s.linesFree →
      (k.freeSlot n = some slot → arrivalPa g p.number slot = some pa → reaches (exec (.channelArrival c a) s) fun t =>
        bytesBecome s t pa (a.record ++ List.replicate (64 - a.record.length) 0#8) ∧
        (t.core c).arrivals = k.arrivals ++ [(n, { slot := slot, chan := a.chan, kind := 0, source := a.source,
                                                   len := a.len, running := false })] ∧
        (h.run = .dormant → .handlerRunStart id ∈ t.inbox)) ∧
      (k.freeSlot n = none → reaches (exec (.channelArrival c a) s) fun t => t = s)) ∧
    (∀ ch b, n < 8 → h.run = .dormant → k.nextChannel n = some b → k.channel b = some ch →
      let starts := fun (a0 : Word) (kind : Nat) (served : Nat × Nat × Nat) (p : State → Prop) =>
        reaches (exec (.handlerRunStart id) s) fun t =>
          let u := t.hartAt id
          u.run = .running ∧ u.vl = 0 ∧ u.vstart = 0 ∧ u.vmsp = 0 ∧ u.serving = some served ∧
          u.pc = ((ch.entry.extractLsb' 0 57 &&& ~~~3#57).signExtend 64) ∧
          u.rx 10#5 = a0 ∧ u.rx 11#5 = u.hinfo ∧ u.rx 17#5 = h.coord ∧
          u.hinfo.getLsbD 7 = true ∧ (u.hinfo.extractLsb' 16 5).toNat = b % 32 ∧
          (u.hinfo.extractLsb' 24 3).toNat = kind % 8 ∧ p t
      let apart := fun (t : State) => t.mem = s.mem ∧ ∀ g, g ≠ id → t.hartAt g = s.hartAt g
      (∀ area r l, k.unserved b = (area, r) :: l →
        starts ((s.hartAt (c.hart area)).hbase + BitVec.ofNat 64 (64 * r.slot)) r.kind (b, area, r.slot) fun t =>
          r.kind ≠ 2 → apart t) ∧
      (k.unserved b = [] → starts 0#64 7 (b, n, 64) apart)) ∧
    (h.run = .parked → h.frame = none → (∃ line, (id, line) ∈ (s.cluster id.clusterId).wakeup) →
      reaches (exec (.ringServiceResume id) s) fun t =>
        hartBecomes s t id { h with run := .running, held := none, fetchBuf := [], pc := h.resumePc } ∧
        (∀ x, x ∈ (t.cluster id.clusterId).wakeup ↔ x ∈ (s.cluster id.clusterId).wakeup ∧ x.1 ≠ id) ∧ t.mem = s.mem))

/-! ## Launches, gangs and arrivals -/

/-- Launch units and placement: a packet that is malformed gets its completion record, the head of a queue is
placed where it fits, a gang that is done leaves the machine, and a completion record is written once its ring
has a slot. It rests on the model's choices in log entries 4, 29 and 30. -/
def Obligations.LaunchesAndPlacement : Prop :=
  ∀ (s : State) (die : Nat),
    ((s.die die).queue = [] → reaches (exec (.place die) s) fun t => t = s) ∧
    (∀ (e : Share) (rest : List Share) (l : Launch) (vs : List View) (v : View) (f : Fit),
      (s.die die).queue = e :: rest → s.launch e.launch = some l → l.slot.isSome = true →
      (l.corez = false ∨ l.gcount = 0) →
      fitFirst l (((s.die die).clusters e.high).map fun k => s.view { die := die, cluster := k }) = some (vs, v, f) →
      reaches (exec (.place die) s) fun t => ∃ g, g ∈ t.dev.gangs ∧ g.number = s.dev.nextId ∧ g.launch = l.number ∧
        g.index = gangIndex l die e.gangs ∧ g.die = die ∧ g.cluster = v.cluster.cluster ∧ g.units = f.units ∧
        g.harts = f.harts.map fun x => { die := die, cluster := v.cluster.cluster, core := x.1, hart := x.2.1 }) ∧
    (∀ b x p, s.dev.spaces.find? (fun x => x.asid == bytesToNat ((b.drop 24).take 2)) = some x →
      s.spaceParty (bytesToNat ((b.drop 24).take 2)) die = some p → packetOk s.dev.dies b = false →
      takePacket die b s = .ok () (s.queueDone die (BitVec.ofNat 64 (bytesToNat ((b.drop 112).take 8)))
        (bytesToNat ((b.drop 24).take 2)) (BitVec.ofNat 64 (bytesToNat ((b.drop 56).take 8)))
        (doneBytes (BitVec.ofNat 64 (bytesToNat ((b.drop 112).take 8))) 1 0 0))) ∧
    (∀ (n : Nat) (r : LaunchRing) (p : Party) (q : RingRef) (d : RingDesc),
      (s.die die).rings.find? (fun r => r.ring == n) = some r → (s.die die).done.length < 64 →
      s.spaceParty r.asid die = some p → openRing p r.handle s = .ok (q, d) s → d.kind = 3 →
      (d.acquire.1.st ≠ 0 → reaches (exec (.launchRingService die n) s) fun t => t = s) ∧
      ∀ b s1 s2 s3 s4 s5 x, d.acquire.1.st = 0 → saveRing p q d d.acquire.2 s = .ok () s1 →
        loadBytes p (slotAddr p.ctx d d.acquire.1.counter) 128 s1 = .ok b s2 → takePacket die b s2 = .ok () s3 →
        ringBytes p q s3 = .ok x s4 → releaseSlot p q (RingDesc.ofNat x) d.acquire.1.counter s4 = .ok () s5 →
        reaches (exec (.launchRingService die n) s) fun t =>
          t = { s5 with inbox := s5.inbox ++ [.launchRingService die n] }) ∧
    (∀ g, s.gang g.number = some g → s.gangDone g = true →
      (∀ c x, x ∈ (s.core c).copies → x.gang ≠ some g.number) → s.cores.map Prod.fst = (s.cores.map Prod.fst).eraseDups →
      reaches (exec (.gangCompletion g.number) s) fun t =>
        (∀ x, x ∈ t.dev.gangs ↔ x ∈ s.dev.gangs ∧ x.number ≠ g.number) ∧
        (∀ h, h ∈ g.harts → t.hartAt h = Hart.reset h) ∧ .place g.die ∈ t.inbox ∧
        ∀ l, s.launch g.launch = some l → (∃ x, x ∈ t.dev.gangs ∧ x.launch = g.launch) →
          t.launch g.launch = some { l with complete := l.complete + 1, lost := l.lost + s.pendingOf g }) ∧
    ∀ r u, (s.die die).done = [r] →
      (writeDone die r s = .ok .written u → reaches (exec (.doneRecordDrain die) s) fun t =>
        (t.die die).done = [] ∧ t.mem = u.mem ∧ t.hart = u.hart) ∧
      ∀ line, writeDone die r s = .ok (.full line) u → reaches (exec (.doneRecordDrain die) s) fun t =>
        (t.die die).done = [{ r with line := line }] ∧ t.mem = u.mem ∧ t.hart = u.hart

/-! ## Streams, copies and delta rings at work -/

/-- The events of queues and streams: an instruction enters its queue without executing, a load stream loads
ahead, a store stream performs what is appended, in order, and an MMAC that has waited too long faults. It rests on the
model's choices in log entries 4 and 9. -/
def Obligations.StreamEvents : Prop :=
  ∀ (s : State) (h : HartId) (st : BitVec 4), s.Inv →
    let k := s.hartAt h
    let f := s.focus h
    (∀ n x u i cap j, k.run = .running → fetchParcels f = .ok (n, x) u → queuedOf n x = some i →
      captureOf u.hart i = some cap → u.enqueueStream i = some j → u.hart.room j = true →
      reaches (exec (.enqueue h) s) fun t =>
        let e : QEntry := { pc := u.hart.pc, instr := i, cap := cap, seq := u.hart.seq, start := none, ready := false }
        let w := t.hartAt h
        w.pc = u.hart.pc + BitVec.ofNat 64 n ∧ w.x = u.hart.x ∧ w.v = u.hart.v ∧ w.p = u.hart.p ∧ t.mem = u.mem ∧
        w.vq = u.hart.vq ++ (if j = 1 then [e] else []) ∧ w.mq = u.hart.mq ++ (if j = 2 then [e] else []) ∧
        w.cq = u.hart.cq ++ (if j ≠ 1 ∧ j ≠ 2 then [e] else [])) ∧
    (∀ d pos raw u, k.st[st.toNat].desc = some d → d.store = false → d.fields = 1 → k.st[st.toNat].pos = [pos] →
      k.st[st.toNat].ahead = [] → pos < d.count0 * d.count1 * d.count2 →
      streamRaw st.toNat { f.party with plain := true } d 0 pos f = .ok (raw, 0#6) u →
      reaches (exec (.streamRunAhead h st) s) fun t =>
        (t.hartAt h).st[st.toNat].ahead =
          u.hart.st[st.toNat].ahead ++ [{ field := 0, pos := pos, raw := raw, fault := none }] ∧
        (t.hartAt h).x = u.hart.x ∧ (t.hartAt h).v = u.hart.v ∧
        ((∀ n, n = 0x1000#64 ∨ n = 0x2000#64 → (u.heldPa .load (d.addr 0 pos + n)).isSome = true) → t.mem = u.mem)) ∧
    ((∀ e, e ∈ k.st[st.toNat].appended → ∃ pa, e.pa = some pa ∧ s.served pa ∧
        pa % 128 + e.size ≤ 128 ∧ 0 < e.size ∧ (e.half.isSome = true → e.size = 1)) →
      (∀ l, s.lineHeld (some h) l = false) → reaches (exec (.streamStorePerform h st) s) fun t =>
        t.mem = k.st[st.toNat].appended.foldl Memory.put s.mem ∧
        (t.hartAt h).st[st.toNat].appended = [] ∧ (t.hartAt h).x = k.x ∧ (t.hartAt h).v = k.v) ∧
    ∀ e w va rest, (s.cluster h.clusterId).mtimeout.extractLsb' 0 32 ≠ 0#32 → k.mq = e :: rest → e.instr = .mmac w →
      (∀ x, x ∈ k.faults → x.seq ≠ e.seq) → timedOut e w f = some va → reaches (exec (.ownershipTimeout h) s) fun t =>
        t.mem = s.mem ∧ hartBecomes s t h { k with faults := k.faults ++
          [{ seq := e.seq, pc := e.pc, stream := 2, cause := 25, sub := 3, addr := va, tval := 0#64, vstart := 0 }] }

/-- Group uses and graphs: a use that has drained counts and shows its status, a write of a group's entry
stores its bytes and ends a use that has not moved its data, quiet is set with the epoch counted, and a
pending batch is written into its ring's free slots. It rests on the model's choices in log entries 4 and 39.
-/
def Obligations.UnitEvents : Prop :=
  ∀ (s : State) (die g : Nat) (data : List Byte), s.Inv →
    let u := s.groupUse die g
    let line := s.mem.read (groupEntry die g + 16) 8
    (u.busy = true → u.moved = true → u.joined.length ≤ u.done_ → reaches (exec (.collectiveUseComplete die g) s) fun t =>
      (t.groupUse die g).busy = false ∧ (t.groupUse die g).uses = u.uses + 1 ∧ (t.groupUse die g).joined = [] ∧
      t.hart.x = s.hart.x ∧ ((∃ d, region line = .hbm d) →
        t.mem.read line 8 = (u.uses + 1) % 2 ^ 32 * 2 ^ 32 ∧ sameBytesBut s t line 8)) ∧
    (∀ off, u.busy = false → off + data.length ≤ 32 → reaches (exec (.groupEntryWrite die g off data) s) fun t =>
      bytesBecome s t (groupEntry die g + off) data ∧ t = { s with mem := t.mem }) ∧
    (∀ off, u.busy = true → u.moved = false → off + data.length ≤ 32 →
      reaches (exec (.groupEntryWrite die g off data) s) fun t =>
        (t.groupUse die g).busy = false ∧ (t.groupUse die g).uses = u.uses ∧ t.hart.x = s.hart.x ∧
        ∀ j, j ∈ u.joined → .copyCompletion j.2.1 0 ∈ t.inbox) ∧
    (∀ asid va d, s.dev.graphs.find? (fun x => x.asid == asid && x.va.toNat == va) = some d →
      s.dev.graphs.find? (fun x => x.pa == d.pa) = some d → d.cleared = true → d.zero = true →
      reaches (exec (.quietSet asid va) s) fun t =>
        let old := d.quiet.toNat
        let new := (old / 2 ^ 32 + 1) % 2 ^ 32 * 2 ^ 32 + old % 2 ^ 32 / 2 * 2 + 1
        t.mem.read (d.pa + 128) 8 = new ∧ sameBytesBut s t (d.pa + 128) 8 ∧ t.hart.x = s.hart.x ∧
        { d with quiet := BitVec.ofNat 64 new, cleared := false, zero := false } ∈ t.dev.graphs) ∧
    ∀ (x : DeltaRing) (r : RingRef) (skew : Nat) (l : List DeltaRec) (pa : Nat → Nat),
      s.dev.rings.find? (fun y => y.pa == x.pa) = some x → deltaPlace x.party x.handle s = .ok (r, skew) s →
      r.pa = x.pa → r.gang = none → s.linesFree → s.served r.pa → s.poisoned r.pa 64 = false → x.pending = some l →
      x.sealNext = false →
      let q := s.descriptor r
      let written := fun b => (r.pa ≤ b ∧ b < r.pa + 64) ∨ ∃ k, k < l.length ∧ pa k ≤ b ∧ b < pa k + 32
      (q.free < l.length → reaches (exec (.deltaDrain x.pa) s) fun t => t = s) ∧
      (l.length ≤ q.free → q.countersOk = true → (∀ k, k < l.length →
          let va := slotAddr x.party.ctx q ((q.tail + k) % q.m)
          va.toNat % 128 + 32 ≤ 128 ∧ s.mapsFor x.party.ctx .store va (pa k) written ∧ pa k % 128 = va.toNat % 128 ∧
          s.served (pa k) ∧ (pa k + 32 ≤ r.pa ∨ r.pa + 64 ≤ pa k) ∧
          ∀ j, j < l.length → j ≠ k → pa k + 32 ≤ pa j ∨ pa j + 32 ≤ pa k) →
        reaches (exec (.deltaDrain x.pa) s) fun t =>
          t.descriptor r = { q with tail := (q.tail + l.length) % q.m, resv := (q.tail + l.length) % q.m } ∧
          (∀ y, y ∈ t.dev.rings → y.pa = x.pa → y.pending = none ∧ y.open_ = x.open_) ∧ t.hart.x = s.hart.x ∧
          (∀ k, k < l.length → lowBytes 32 (t.mem.read (pa k) 32) =
            (l.getD k DeltaRec.zero).bytes (k + 1 == l.length) 1) ∧
          ∀ a, (a < r.pa ∨ r.pa + 64 ≤ a) → (∀ k, k < l.length → a < pa k ∨ pa k + 32 ≤ a) → t.mem.get a = s.mem.get a)

/-! ## Graphics agents -/

/-- The registers and the events that make an agent go: a write of ctl enables, disables or restarts it, the
beacon sets an idle one to work, and space on a ring lets one that waits go on; in every other state they
leave it as it is. The mesh distributor: without a committed record it is idle; a malformed draw is counted
and released, a finished one released, and each task of another takes a batch slot and writes its record into
the ring of its shader, or waits for space. It rests on the model's choices in log entries 4, 28 and 34. -/
def Obligations.GraphicsAgents : Prop :=
  (∀ (s : State) (id : AgentId) (v : Word),
    let a := s.agent id
    let only := fun (t : State) => t.hart = s.hart ∧ t.others = s.others ∧ t.mem = s.mem ∧ t.dev = s.dev
    let woken := fun (t : State) => t.inbox = s.inbox ++ [recordEvent id]
    (a.state = 0 → v.getLsbD 0 = true → reaches (exec (.agentEnable id v) s) fun t => only t ∧
      (t.agent id).state = 1 ∧ (t.agent id).ctl = v &&& 0xFFFF_3F00_0000_0001#64 ∧ t.inbox = s.inbox) ∧
    (v.getLsbD 0 = false → reaches (exec (.agentEnable id v) s) fun t => only t ∧ (t.agent id).state = 0 ∧
      t.inbox = s.inbox) ∧
    (a.state ≠ 0 → v.getLsbD 0 = true → reaches (exec (.agentEnable id v) s) fun t => only t ∧
      (t.agent id).ctl = v &&& 0xFFFF_3F00_0000_0001#64 ∧ (t.agent id).inp = a.inp ∧ (t.agent id).outs = a.outs ∧
      if a.state = 3 ∧ v.getLsbD 1 = true then (t.agent id).state = 2 ∧ (t.agent id).error = 0 ∧ woken t
      else (t.agent id).state = a.state ∧ (t.agent id).error = a.error ∧ (t.agent id).progress = a.progress ∧
        (t.agent id).waits = a.waits ∧ t.inbox = s.inbox) ∧
    (a.state = 3 → a.ctl.getLsbD 0 = true → reaches (exec (.agentResume id) s) fun t => only t ∧
      (t.agent id).state = 2 ∧ (t.agent id).error = 0 ∧ woken t) ∧
    (a.state ≠ 3 → a.ctl.getLsbD 0 = true → a.state ≠ 0 → reaches (exec (.agentResume id) s) fun t => only t ∧
      (t.agent id).state = a.state ∧ t.inbox = s.inbox) ∧
    (a.state = 1 → reaches (exec (.agentBeacon id) s) fun t => only t ∧ t.agent id = { a with state := 2 } ∧ woken t) ∧
    (a.state ≠ 1 → exec (.agentBeacon id) s = .next s) ∧
    (a.state = 2 → a.waits.isSome = true → reaches (exec (.agentRingSpace id) s) fun t => only t ∧
      t.agent id = { a with waits := none } ∧ woken t) ∧
    (a.state ≠ 2 ∨ a.waits = none → exec (.agentRingSpace id) s = .next s)) ∧
  (∀ (s : State) (id : AgentId) (p : Party) (r : RingRef) (d : RingDesc),
    let a := s.agent id
    (a.state = 1 ∨ a.state = 2) → s.agentParty id = some p → s.unitRing p a.inp r d → a.inp.extractLsb' 60 4 = 2#4 →
    a.inp.extractLsb' 56 4 = 0#4 → d.size = 64 →
    let only := fun (t : State) => t.hart = s.hart ∧ t.others = s.others ∧ t.mem = s.mem ∧ t.dev = s.dev
    let s0 := s.setAgent id { a with state := 2, waits := none }
    (d.acquire.1.st ≠ 0 → a.counter = none → reaches (exec (.drawRecord id) s) fun t => only t ∧ (t.agent id).state = 1) ∧
    ∀ c pa, a.counter = some c → c < d.m → s.loadsFor p r (slotAddr p.ctx d c) 64 pa →
      let b := s.mem.read pa 64
      let n := a.progress
      (drawOk b = false → reaches (exec (.drawRecord id) s) fun t => recordDone s t id r d c ∧
        (t.agent id).skipped = a.skipped + 1#32 ∧ (t.agent id).error = 2) ∧
      (drawOk b = true → bitsAt b 32 32 ≤ n → reaches (exec (.drawRecord id) s) fun t =>
        recordDone s t id r d c ∧ (t.agent id).skipped = a.skipped) ∧
      (drawOk b = true → n < bitsAt b 32 32 →
        let shaders := (a.outs.drop 1).filter (· ≠ 0#64)
        let rmask := if bitsAt b 8 8 = 0 then (a.cfg.extractLsb' 0 8).toNat else bitsAt b 8 8
        (shaders = [] → reaches (exec (.drawRecord id) s) fun t => only t ∧ (t.agent id).state = 3 ∧ (t.agent id).error = 3) ∧
        (∀ x u, reserveHere id p (a.outs.getD 0 0#64) 64 s0 = .ok (.error x) u → shaders ≠ [] →
          reaches (exec (.drawRecord id) s) fun t =>
            t = u.setAgent id { u.agent id with waits := some (x.pa / 128) }) ∧
        ∀ batch s1 y s2, reserveHere id p (a.outs.getD 0 0#64) 64 s0 = .ok (.ok batch) s1 → shaders ≠ [] →
          agentReserve p (shaders.getD (n % shaders.length) 0#64) 128 s1 = .ok y s2 →
          (∀ x, y = .error x → reaches (exec (.drawRecord id) s) fun t =>
            t = s2.setAgent id { s2.agent id with waits := some (x.pa / 128) }) ∧
          ∀ task va line s3 s4, y = .ok task → slotVa p batch 64 s2 = .ok (va, line) s3 →
            agentCommit p task 128 (taskRecord b n rmask va) batch s3 = .ok () s4 →
            reaches (exec (.drawRecord id) s) fun t =>
              t.mem = s4.mem ∧ t.hart = s4.hart ∧ t.inbox = s4.inbox ++ [recordEvent id] ∧
              (t.agent id).progress = n + 1 ∧ (t.agent id).counter = (s4.agent id).counter ∧
              (∃ k, k ∈ (t.die id.die).batches ∧ k.ring = line ∧ k.counter = batch.counter ∧
                k.user = some (BitVec.ofNat 64 (bitsAt b 192 64)) ∧ k.opened = false)))

/-- A rasteriser: without a batch of its mask it is idle; a batch that nobody has is acquired, released at once
if it is empty or malformed, and otherwise opened for the rasterisers of its mask; of an open one it skips a
primitive that is malformed, goes on to the next when the blocks of one are done, writes the record of each
block into its shader's ring or waits for space, and after the last primitive has finished with it, which
releases it if no other of its mask still has it. It rests on the model's choices in log entries 4, 28 and 34. -/
def Obligations.GraphicsRasterisers : Prop :=
  ∀ (s : State) (id : AgentId) (p : Party) (r : RingRef) (d : RingDesc),
    let a := s.agent id
    (a.state = 1 ∨ a.state = 2) → s.agentParty id = some p → s.unitRing p a.inp r d → a.inp.extractLsb' 60 4 = 2#4 →
    a.inp.extractLsb' 56 4 = 0#4 → d.size = 64 →
    let only := fun (t : State) => t.hart = s.hart ∧ t.others = s.others ∧ t.mem = s.mem ∧ t.dev = s.dev
    let next := batchCounter (s.die id.die) r d id.index
    (a.counter = none → next = none → reaches (exec (.batchRecord id) s) fun t => only t ∧ (t.agent id).state = 1) ∧
    (∀ pa, a.counter = none → next = some d.acq →
      (s.die id.die).batches.find? (fun b => b.is r.pa d.acq && b.opened) = none → d.acquire.1.st = 0 →
      s.loadsFor p r (slotAddr p.ctx d d.acq) 64 pa → (pa + 64 ≤ r.pa ∨ r.pa + 64 ≤ pa) →
      let b := s.mem.read pa 64
      let mask := bitsAt b 32 8
      (batchOk b = false ∨ bitsAt b 0 32 = 0 ∨ mask = 0 → reaches (exec (.batchRecord id) s) fun t =>
        recordDone s t id r d.acquire.2 d.acq ∧
        (t.agent id).skipped = if batchOk b then a.skipped else a.skipped + 1#32) ∧
      (batchOk b = true → bitsAt b 0 32 ≠ 0 → mask ≠ 0 → reaches (exec (.batchRecord id) s) fun t =>
        t.descriptor r = d.acquire.2 ∧ (∀ k, mask.testBit k = true → recordEvent { id with index := k } ∈ t.inbox ∨ k = id.index) ∧
        recordEvent id ∈ t.inbox ∧ (∃ k, k ∈ (t.die id.die).batches ∧ k.ring = r.pa ∧ k.counter = d.acq ∧ k.opened = true ∧
          k.mask = mask ∧ k.done_ = 0) ∧
        ∀ x, (x < r.pa ∨ r.pa + 64 ≤ x) → t.mem.get x = s.mem.get x)) ∧
    ∀ slot pa, a.counter = some slot.counter →
      (s.die id.die).batches.find? (fun b => b.is r.pa slot.counter && b.opened) = some slot → slot.counter < d.m →
      s.loadsFor p r (slotAddr p.ctx d slot.counter) 64 pa →
      let b := s.mem.read pa 64
      let n := a.progress
      let done := slot.done_ ||| 2 ^ id.index
      (bitsAt b 0 32 ≤ n → slot.mask &&& done = slot.mask → reaches (exec (.batchRecord id) s) fun t =>
        recordDone s t id r d slot.counter ∧ ∀ k, k ∈ (t.die id.die).batches → k.is r.pa slot.counter = false) ∧
      (bitsAt b 0 32 ≤ n → slot.mask &&& done ≠ slot.mask → reaches (exec (.batchRecord id) s) fun t =>
        only t ∧ (t.agent id).counter = none ∧ recordEvent id ∈ t.inbox ∧
        { slot with done_ := done } ∈ (t.die id.die).batches) ∧
      ∀ pp, n < bitsAt b 0 32 → s.loadsFor p r (BitVec.ofNat 64 (bitsAt b 64 64 + 64 * n)) 64 pp →
        let prim := primOf (s.mem.read pp 64)
        let blocks := fun (q : Prim) => if q.culled (bitsAt b 48 8) then [] else q.blocks (bitsAt b 32 8) id.index
        let moves := fun (skipped : BitVec 32) => reaches (exec (.batchRecord id) s) fun t =>
          only t ∧ (t.agent id).progress = n + 1 ∧ (t.agent id).part = 0 ∧ (t.agent id).skipped = skipped ∧
          (t.agent id).counter = a.counter ∧ recordEvent id ∈ t.inbox
        (prim = none → moves (a.skipped + 1#32)) ∧
        (∀ q, prim = some q → (blocks q).length ≤ a.part → moves a.skipped) ∧
        ∀ q bx by_ m ring s1 y s2, prim = some q → (blocks q)[a.part]? = some (bx, by_, m) →
          homeRing id p (bitsAt b 40 8) bx by_
            (s.setAgent id { a with state := 2, waits := none, counter := some slot.counter }) = .ok ring s1 →
          reserveHere id p ring 256 s1 = .ok y s2 →
          (∀ x, y = .error x → reaches (exec (.batchRecord id) s) fun t =>
            t = s2.setAgent id { s2.agent id with waits := some (x.pa / 128) }) ∧
          ∀ blend z s3, y = .ok blend → agentReserve p (a.outs.getD 0 0#64) 128 s2 = .ok z s3 →
            (∀ x, z = .error x → reaches (exec (.batchRecord id) s) fun t =>
              t = s3.setAgent id { s3.agent id with waits := some (x.pa / 128) }) ∧
            ∀ out va line s4 s5 u, z = .ok out → slotVa p blend 256 s3 = .ok (va, line) s4 → slot.user = some u →
              agentCommit p out 128
                (fragmentRecord q (bitsAt b 48 8) (bitsAt b 40 8) (bitsAt b 128 32) u bx by_ m va blend.handle) blend s4 =
                  .ok () s5 →
              reaches (exec (.batchRecord id) s) fun t =>
                t.mem = s5.mem ∧ t.hart = s5.hart ∧ t.inbox = s5.inbox ++ [recordEvent id] ∧
                (t.agent id).part = a.part + 1 ∧ (t.agent id).progress = n

/-- A blend unit: without a committed record it is idle; one whose mask is 0 is released, one whose target does
not exist is counted and released, and of another each element of the mask is blended, as one depth test and
one colour store of it show, and then the record is released. It rests on the model's choices in log
entries 4, 28 and 34. -/
def Obligations.GraphicsBlending : Prop :=
  (∀ (s : State) (id : AgentId) (p : Party) (r : RingRef) (d : RingDesc),
    let a := s.agent id
    (a.state = 1 ∨ a.state = 2) → s.agentParty id = some p → s.unitRing p a.inp r d → a.inp.extractLsb' 60 4 = 2#4 →
    a.inp.extractLsb' 56 4 = 0#4 → d.size = 256 →
    (d.acquire.1.st ≠ 0 → a.counter = none → reaches (exec (.blendRecord id) s) fun t =>
      t.hart = s.hart ∧ t.others = s.others ∧ t.mem = s.mem ∧ t.dev = s.dev ∧ (t.agent id).state = 1) ∧
    ∀ c pa, a.counter = some c → c < d.m → s.loadsFor p r (slotAddr p.ctx d c) 8 pa →
      let hdr := s.mem.read pa 8
      let mask := bitsAt hdr 16 16
      (mask = 0 → reaches (exec (.blendRecord id) s) fun t => recordDone s t id r d c ∧
        (t.agent id).skipped = a.skipped) ∧
      (mask ≠ 0 → 63 < bitsAt hdr 0 8 → reaches (exec (.blendRecord id) s) fun t => recordDone s t id r d c ∧
        (t.agent id).skipped = a.skipped + 1#32 ∧ (t.agent id).error = 2) ∧
      ∀ pe, mask ≠ 0 → bitsAt hdr 0 8 ≤ 63 →
        s.loadsFor p r (a.outs.getD 0 0#64 + BitVec.ofNat 64 (64 * bitsAt hdr 0 8)) 64 pe →
        let e := s.mem.read pe 64
        (blendOk hdr e = false → reaches (exec (.blendRecord id) s) fun t => recordDone s t id r d c ∧
          (t.agent id).skipped = a.skipped + 1#32 ∧ (t.agent id).error = 2) ∧
        ∀ u, blendOk hdr e = true →
          forM' (fun i => if mask.testBit i then blendPixel p (slotAddr p.ctx d c) hdr e i else pure ()) (List.range 16)
            (s.setAgent id { a with state := 2, waits := none }) = .ok () u → u.unitRing p a.inp r d → (u.agent id).counter = some c →
          (u.agent id).skipped = a.skipped →
          reaches (exec (.blendRecord id) s) fun t => recordDone u t id r d c ∧ (t.agent id).skipped = a.skipped) ∧
  ∀ (s : State) (p : Party) (slot : Word) (hdr e i pn po : Nat),
    let fmt := bitsAt e 160 8
    let n := targetBlock fmt / 16
    let wmask := bitsAt e 184 8
    let block := bitsAt hdr 48 16 * bitsAt e 128 32 + bitsAt hdr 32 16
    let dst := BitVec.ofNat 64 (bitsAt e 0 64 + targetBlock fmt * block + n * i)
    let place := fun (a : Access) (va : Word) (n pa : Nat) => s.mapsFor p.ctx a va pa (fun _ => False) ∧ pa % 128 = va.toNat % 128 ∧
      va.toNat % 128 + n ≤ 128 ∧ s.served pa
    p.self = none → s.linesFree → bitsAt e 176 4 = 0 →
    place .load (slot + BitVec.ofNat 64 (128 + n * i)) n pn → s.poisoned pn n = false →
    place .load dst n po → place .store dst n po → s.poisoned po n = false →
    ∃ t, blendPixel p slot hdr e i s = .ok () t ∧ sameBytesBut s t po n ∧
      t.mem.read po n = if wmask = 0 then s.mem.read po n
        else blendElement fmt (bitsAt e 168 8) wmask (s.mem.read pn n) (s.mem.read po n) % 256 ^ n

/-! ## Rules word for word -/

/-- VSPTR's word is custom-0, funct3 001, funct7 5, rs2 0; it puts the old vsptr into rd, X[rs1] into
vsptr and 0 into vl, whatever is queued, and what is queued keeps what it captured (R99). -/
def Obligations.VectorStepPointer : Prop :=
  ∀ (s : State) (rd rs1 : Reg),
    bytesToNat (encode (.vsptr rd rs1)) = 2 ^ 25 * 5 + 2 ^ 15 * rs1.toNat + 2 ^ 12 * 1 + 2 ^ 7 * rd.toNat + 0x0B ∧
    reaches (exec (.vsptr rd rs1) s) fun t => setsReg s t rd s.hart.vsptr ∧ movesOn s t 4 ∧
      scalarOnly { s with hart := { s.hart with vsptr := s.hart.rx rs1, vl := 0 } } t

/-- TABORT aborts with cause EXPLICIT, which is 3, and its code, unless a conflict has doomed the
transaction already; outside a transaction it does nothing (R204). -/
def Obligations.TransactionAbort : Prop :=
  ∀ (s : State) (code : BitVec 5),
    (s.hart.tx = none → reaches (exec (.tabort code) s) fun t => sameRegs s t ∧ movesOn s t 4 ∧ scalarOnly s t) ∧
    ∀ tr cp, s.hart.tx = some tr → tr.levels.getLast? = some cp →
      reaches (exec (.tabort code) s) fun t => aborts s t tr 3 code.toNat

/-- MZERO's encoding, and its effect: every slot of the tile becomes 0, whatever the predicates and the
mask stack hold, and the check is in force with every sum and bound at 0 (R305). -/
def Obligations.MatrixZero : Prop :=
  decodeTableWord 64 0x0000_0000_0000_41BF = some (.mzero {
    aux9 := 0#9, sat := 0#1, rm := 0#3, lqv := 0#1, em := 0#1, pe := 0#4, pg := 0#4, xp := 0#5, vs3 := 0#5, vs2 := 0#5,
    vs1 := 0#5, vd := 3#5 }) ∧
  ∀ (s : State) (w : WWord) (x : Tile), s.dispatches w false → w.lqv = 0#1 → s.hart.tile (w.vd.toNat % 8) = some x →
    reaches (exec (.mzero w) s) fun t =>
      tileDone s t w s.hart.vstart ∧ t.hart.p = s.hart.p ∧ t.hart.vfflags = s.hart.vfflags ∧
      tileBecomes s t (w.vd.toNat % 8) x true (fun _ _ => 0) ∧
      ∀ y k, t.hart.tile (w.vd.toNat % 8) = some y → k ∈ y.checks → k.sum = 0#64 ∧ k.bound = 0#64
end

