-- ==== Sys2Proof/Laws/Memory.lean ====
section
/-! SUPPORT. The laws of memory: reads after writes, and the canonical form that every operation keeps. -/

namespace Sys2Proof.Machine

/-! ## The canonical form -/

theorem Memory.wfFrom_mono {m : Memory} : ∀ {lo hi : Nat}, lo ≤ hi → Memory.wfFrom hi m = true → Memory.wfFrom lo m = true := by
  intro lo hi h w
  cases m with
  | nil => rfl
  | cons c m =>
    obtain ⟨k, b⟩ := c
    simp only [Memory.wfFrom, Bool.and_eq_true, decide_eq_true_eq] at w ⊢
    exact ⟨⟨by omega, w.1.2⟩, w.2⟩

theorem Memory.wfFrom_set {m : Memory} (a : Nat) (b : Byte) :
    ∀ {lo : Nat}, lo ≤ a → Memory.wfFrom lo m = true → Memory.wfFrom lo (m.set a b) = true := by
  induction m with
  | nil =>
    intro lo h _
    unfold Memory.set
    split
    · rfl
    · rename_i hb; simp [Memory.wfFrom, h, hb]
  | cons c m ih =>
    obtain ⟨k, x⟩ := c
    intro lo h w
    have w' := w
    simp only [Memory.wfFrom, Bool.and_eq_true, decide_eq_true_eq] at w'
    unfold Memory.set
    split
    · split
      · exact w
      · rename_i hk hb
        simp only [Memory.wfFrom, Bool.and_eq_true, decide_eq_true_eq, bne_iff_ne, ne_eq]
        exact ⟨⟨h, hb⟩, ⟨by omega, by simpa using w'.1.2⟩, w'.2⟩
    · split
      · rename_i hk
        split
        · exact Memory.wfFrom_mono (by omega) w'.2
        · rename_i hb
          simp only [Memory.wfFrom, Bool.and_eq_true, decide_eq_true_eq, bne_iff_ne, ne_eq]
          exact ⟨⟨h, hb⟩, hk ▸ w'.2⟩
      · simp only [Memory.wfFrom, Bool.and_eq_true, decide_eq_true_eq]
        exact ⟨⟨w'.1.1, w'.1.2⟩, ih (by omega) w'.2⟩

theorem Memory.wf_set {m : Memory} (a : Nat) (b : Byte) (h : m.wf = true) : (m.set a b).wf = true :=
  Memory.wfFrom_set a b (Nat.zero_le a) h

theorem Memory.wf_write {m : Memory} (a n v : Nat) (h : m.wf = true) : (m.write a n v).wf = true := by
  induction n generalizing m a v with
  | zero => exact h
  | succ n ih => exact ih _ _ (Memory.wf_set a _ h)

theorem Memory.wf_writeBytes {m : Memory} (a : Nat) (bs : List Byte) (h : m.wf = true) :
    (m.writeBytes a bs).wf = true := by
  induction bs generalizing m a with
  | nil => exact h
  | cons b bs ih => exact ih _ (Memory.wf_set a b h)

theorem Memory.wfFrom_filter {m : Memory} (f : Host.Cell → Bool) :
    ∀ {lo : Nat}, Memory.wfFrom lo m = true → Memory.wfFrom lo (m.filter f) = true := by
  induction m with
  | nil => intro lo _; rfl
  | cons c m ih =>
    obtain ⟨k, b⟩ := c
    intro lo w
    simp only [Memory.wfFrom, Bool.and_eq_true, decide_eq_true_eq] at w
    by_cases hf : f (k, b)
    · simp only [List.filter, hf, Memory.wfFrom, Bool.and_eq_true, decide_eq_true_eq]
      exact ⟨w.1, ih w.2⟩
    · simp only [List.filter, hf]
      exact Memory.wfFrom_mono (by omega) (ih w.2)

theorem Memory.wf_filter {m : Memory} (f : Host.Cell → Bool) (h : m.wf = true) : Memory.wf (m.filter f) = true :=
  Memory.wfFrom_filter f h

theorem Memory.wf_clear {m : Memory} (lo hi : Nat) (h : m.wf = true) : (m.clear lo hi).wf = true :=
  Memory.wfFrom_filter _ h

theorem Memory.wf_nil : Memory.wf [] = true := rfl

/-! ## Reading one byte -/

theorem Memory.get_below {m : Memory} : ∀ {lo a : Nat}, a < lo → Memory.wfFrom lo m = true → m.get a = blank a := by
  intro lo a h w
  cases m with
  | nil => rfl
  | cons c m =>
    obtain ⟨k, b⟩ := c
    simp only [Memory.wfFrom, Bool.and_eq_true, decide_eq_true_eq] at w
    simp [Memory.get, show a < k by omega]

theorem Memory.get_set_same {m : Memory} (a : Nat) (b : Byte) :
    ∀ {lo : Nat}, Memory.wfFrom lo m = true → (m.set a b).get a = b := by
  induction m with
  | nil =>
    intro lo _
    unfold Memory.set
    split
    · rename_i hb; simp [Memory.get, hb]
    · simp [Memory.get]
  | cons c m ih =>
    obtain ⟨k, x⟩ := c
    intro lo w
    simp only [Memory.wfFrom, Bool.and_eq_true, decide_eq_true_eq] at w
    unfold Memory.set
    split
    · rename_i hk
      split
      · rename_i hb; simp [Memory.get, hk, hb]
      · simp [Memory.get]
    · split
      · rename_i hk
        split
        · rename_i hb
          rw [Memory.get_below (lo := k + 1) (by omega) w.2, hb]
        · simp [Memory.get]
      · rename_i h1 h2
        simp [Memory.get, h1, h2, ih w.2]

theorem Memory.get_set_other {m : Memory} {a c : Nat} (b : Byte) (h : c ≠ a) :
    ∀ {lo : Nat}, Memory.wfFrom lo m = true → (m.set a b).get c = m.get c := by
  induction m with
  | nil =>
    intro lo _
    unfold Memory.set
    split
    · rfl
    · simp only [Memory.get]
      split
      · rfl
      · simp
  | cons e m ih =>
    obtain ⟨k, x⟩ := e
    intro lo w
    simp only [Memory.wfFrom, Bool.and_eq_true, decide_eq_true_eq] at w
    unfold Memory.set
    split
    · rename_i hk
      split
      · rfl
      · simp only [Memory.get]
        split
        · rename_i h1
          rw [if_pos (by omega)]
        · simp
    · split
      · rename_i hk
        split
        · simp only [Memory.get]
          by_cases h1 : c < k
          · rw [if_pos h1, Memory.get_below (lo := k + 1) (by omega) w.2]
          · rw [if_neg h1, if_neg (by omega)]
        · simp only [Memory.get]
          by_cases h1 : c < k
          · rw [if_pos (by omega), if_pos h1]
          · rw [if_neg (by omega), if_neg h1, if_neg h, if_neg (by omega)]
      · simp only [Memory.get, ih w.2]

/-! ## Reading and writing several bytes -/

theorem Memory.get_write_outside {m : Memory} (a n v c : Nat) (h : c < a ∨ a + n ≤ c) (w : m.wf = true) :
    (m.write a n v).get c = m.get c := by
  induction n generalizing m a v with
  | zero => rfl
  | succ n ih =>
    simp only [Memory.write]
    rw [ih _ _ (by omega) (Memory.wf_set a _ w), Memory.get_set_other _ (by omega) w]

/-- Memories that agree on n bytes from a on read alike there. -/
theorem Memory.read_congr {m k : Memory} {a n : Nat} (h : ∀ c, a ≤ c → c < a + n → m.get c = k.get c) :
    m.read a n = k.read a n := by
  induction n generalizing a with
  | zero => rfl
  | succ n ih =>
    simp only [Memory.read, h a (Nat.le_refl a) (by omega)]
    rw [ih fun c hc hd => h c (by omega) (by omega)]

theorem Memory.read_write_outside {m : Memory} (a n v c k : Nat) (h : c + k ≤ a ∨ a + n ≤ c) (w : m.wf = true) :
    (m.write a n v).read c k = m.read c k := by
  induction k generalizing c with
  | zero => rfl
  | succ k ih =>
    simp only [Memory.read]
    rw [Memory.get_write_outside a n v c (by omega) w, ih (c + 1) (by omega)]

theorem Memory.read_write_same {m : Memory} (a n v : Nat) (w : m.wf = true) :
    (m.write a n v).read a n = v % 256 ^ n := by
  induction n generalizing m a v with
  | zero => simp [Memory.read, Nat.mod_one]
  | succ n ih =>
    simp only [Memory.write, Memory.read]
    rw [ih _ _ (Memory.wf_set a _ w),
      Memory.get_write_outside (a + 1) n (v / 256) a (by omega) (Memory.wf_set a _ w), Memory.get_set_same a _ w]
    simp only [BitVec.toNat_ofNat, show (2 : Nat) ^ 8 = 256 from rfl]
    rw [Nat.pow_succ', Nat.mod_mul]

theorem Memory.get_clear_outside {m : Memory} (lo hi c : Nat) (h : c < lo ∨ hi ≤ c) (w : m.wf = true) :
    (m.clear lo hi).get c = m.get c := by
  unfold Memory.wf at w
  revert w
  generalize 0 = z
  intro w
  induction m generalizing z with
  | nil => rfl
  | cons e m ih =>
    obtain ⟨k, x⟩ := e
    simp only [Memory.wfFrom, Bool.and_eq_true, decide_eq_true_eq] at w
    have ih' := ih (k + 1) w.2
    unfold Memory.clear at ih' ⊢
    by_cases hf : (decide (k < lo) || decide (hi ≤ k)) = true
    · simp only [List.filter, hf, Memory.get]
      rw [ih']
    · simp only [List.filter, hf, Memory.get]
      rw [ih']
      simp only [Bool.or_eq_true, decide_eq_true_eq, not_or] at hf
      by_cases h1 : c < k
      · rw [if_pos h1, Memory.get_below (lo := k + 1) (by omega) w.2]
      · rw [if_neg h1, if_neg (by omega)]

end Sys2Proof.Machine
end

