-- ==== Sys2Proof/Laws/State.lean ====
section
/-! SUPPORT. What each update of the state leaves as it was, field by field: a later proof unfolds no record update. -/

namespace Sys2Proof.Machine

/-! ## The scalar stream goes on -/

@[simp] theorem State.advance_hart (s : State) (n : Nat) :
    (s.advance n).hart = { s.hart with pc := s.hart.pc + BitVec.ofNat 64 n, instret := s.hart.instret + 1 } := rfl
@[simp] theorem State.advance_others (s : State) (n : Nat) : (s.advance n).others = s.others := rfl
@[simp] theorem State.advance_mem (s : State) (n : Nat) : (s.advance n).mem = s.mem := rfl
@[simp] theorem State.advance_poison (s : State) (n : Nat) : (s.advance n).poison = s.poison := rfl
@[simp] theorem State.advance_cores (s : State) (n : Nat) : (s.advance n).cores = s.cores := rfl
@[simp] theorem State.advance_clusters (s : State) (n : Nat) : (s.advance n).clusters = s.clusters := rfl
@[simp] theorem State.advance_diesSt (s : State) (n : Nat) : (s.advance n).diesSt = s.diesSt := rfl
@[simp] theorem State.advance_dev (s : State) (n : Nat) : (s.advance n).dev = s.dev := rfl
@[simp] theorem State.advance_inbox (s : State) (n : Nat) : (s.advance n).inbox = s.inbox := rfl
@[simp] theorem State.advance_clock (s : State) (n : Nat) : (s.advance n).clock = s.clock := rfl
@[simp] theorem State.advance_free (s : State) (n : Nat) : (s.advance n).free = s.free := rfl
@[simp] theorem State.advance_selected (s : State) (n : Nat) : (s.advance n).selected = s.selected := rfl

@[simp] theorem State.jump_hart (s : State) (a : Word) :
    (s.jump a).hart = { s.hart with pc := a, instret := s.hart.instret + 1 } := rfl
@[simp] theorem State.jump_others (s : State) (a : Word) : (s.jump a).others = s.others := rfl
@[simp] theorem State.jump_mem (s : State) (a : Word) : (s.jump a).mem = s.mem := rfl
@[simp] theorem State.jump_poison (s : State) (a : Word) : (s.jump a).poison = s.poison := rfl
@[simp] theorem State.jump_cores (s : State) (a : Word) : (s.jump a).cores = s.cores := rfl
@[simp] theorem State.jump_clusters (s : State) (a : Word) : (s.jump a).clusters = s.clusters := rfl
@[simp] theorem State.jump_diesSt (s : State) (a : Word) : (s.jump a).diesSt = s.diesSt := rfl
@[simp] theorem State.jump_dev (s : State) (a : Word) : (s.jump a).dev = s.dev := rfl
@[simp] theorem State.jump_inbox (s : State) (a : Word) : (s.jump a).inbox = s.inbox := rfl
@[simp] theorem State.jump_clock (s : State) (a : Word) : (s.jump a).clock = s.clock := rfl
@[simp] theorem State.jump_free (s : State) (a : Word) : (s.jump a).free = s.free := rfl
@[simp] theorem State.jump_selected (s : State) (a : Word) : (s.jump a).selected = s.selected := rfl

@[simp] theorem State.goesOn_hart (s : State) : s.goesOn.hart = { s.hart with held := none } := rfl
@[simp] theorem State.goesOn_others (s : State) : (s.goesOn).others = s.others := rfl
@[simp] theorem State.goesOn_mem (s : State) : (s.goesOn).mem = s.mem := rfl
@[simp] theorem State.goesOn_poison (s : State) : (s.goesOn).poison = s.poison := rfl
@[simp] theorem State.goesOn_cores (s : State) : (s.goesOn).cores = s.cores := rfl
@[simp] theorem State.goesOn_clusters (s : State) : (s.goesOn).clusters = s.clusters := rfl
@[simp] theorem State.goesOn_diesSt (s : State) : (s.goesOn).diesSt = s.diesSt := rfl
@[simp] theorem State.goesOn_dev (s : State) : (s.goesOn).dev = s.dev := rfl
@[simp] theorem State.goesOn_inbox (s : State) : (s.goesOn).inbox = s.inbox := rfl
@[simp] theorem State.goesOn_clock (s : State) : (s.goesOn).clock = s.clock := rfl
@[simp] theorem State.goesOn_free (s : State) : (s.goesOn).free = s.free := rfl
@[simp] theorem State.goesOn_selected (s : State) : (s.goesOn).selected = s.selected := rfl

@[simp] theorem State.wx_hart (s : State) (r : Reg) (v : Word) : (s.wx r v).hart = s.hart.wx r v := rfl
@[simp] theorem State.wx_others (s : State) (r : Reg) (v : Word) : (s.wx r v).others = s.others := rfl
@[simp] theorem State.wx_mem (s : State) (r : Reg) (v : Word) : (s.wx r v).mem = s.mem := rfl
@[simp] theorem State.wx_poison (s : State) (r : Reg) (v : Word) : (s.wx r v).poison = s.poison := rfl
@[simp] theorem State.wx_cores (s : State) (r : Reg) (v : Word) : (s.wx r v).cores = s.cores := rfl
@[simp] theorem State.wx_clusters (s : State) (r : Reg) (v : Word) : (s.wx r v).clusters = s.clusters := rfl
@[simp] theorem State.wx_diesSt (s : State) (r : Reg) (v : Word) : (s.wx r v).diesSt = s.diesSt := rfl
@[simp] theorem State.wx_dev (s : State) (r : Reg) (v : Word) : (s.wx r v).dev = s.dev := rfl
@[simp] theorem State.wx_inbox (s : State) (r : Reg) (v : Word) : (s.wx r v).inbox = s.inbox := rfl
@[simp] theorem State.wx_clock (s : State) (r : Reg) (v : Word) : (s.wx r v).clock = s.clock := rfl
@[simp] theorem State.wx_free (s : State) (r : Reg) (v : Word) : (s.wx r v).free = s.free := rfl
@[simp] theorem State.wx_selected (s : State) (r : Reg) (v : Word) : (s.wx r v).selected = s.selected := rfl

/-! ## The parts beside the harts -/

@[simp] theorem State.post_hart (s : State) (l : List Instr) : (s.post l).hart = s.hart := rfl
@[simp] theorem State.post_others (s : State) (l : List Instr) : (s.post l).others = s.others := rfl
@[simp] theorem State.post_mem (s : State) (l : List Instr) : (s.post l).mem = s.mem := rfl
@[simp] theorem State.post_poison (s : State) (l : List Instr) : (s.post l).poison = s.poison := rfl
@[simp] theorem State.post_cores (s : State) (l : List Instr) : (s.post l).cores = s.cores := rfl
@[simp] theorem State.post_clusters (s : State) (l : List Instr) : (s.post l).clusters = s.clusters := rfl
@[simp] theorem State.post_diesSt (s : State) (l : List Instr) : (s.post l).diesSt = s.diesSt := rfl
@[simp] theorem State.post_dev (s : State) (l : List Instr) : (s.post l).dev = s.dev := rfl
@[simp] theorem State.post_clock (s : State) (l : List Instr) : (s.post l).clock = s.clock := rfl
@[simp] theorem State.post_free (s : State) (l : List Instr) : (s.post l).free = s.free := rfl
@[simp] theorem State.post_selected (s : State) (l : List Instr) : (s.post l).selected = s.selected := rfl
@[simp] theorem State.post_inbox (s : State) (l : List Instr) : (s.post l).inbox = s.inbox ++ l := rfl

@[simp] theorem State.setCore_hart (s : State) (c : CoreId) (v : Core) : (s.setCore c v).hart = s.hart := rfl
@[simp] theorem State.setCore_others (s : State) (c : CoreId) (v : Core) : (s.setCore c v).others = s.others := rfl
@[simp] theorem State.setCore_mem (s : State) (c : CoreId) (v : Core) : (s.setCore c v).mem = s.mem := rfl
@[simp] theorem State.setCore_poison (s : State) (c : CoreId) (v : Core) : (s.setCore c v).poison = s.poison := rfl
@[simp] theorem State.setCore_clusters (s : State) (c : CoreId) (v : Core) : (s.setCore c v).clusters = s.clusters := rfl
@[simp] theorem State.setCore_diesSt (s : State) (c : CoreId) (v : Core) : (s.setCore c v).diesSt = s.diesSt := rfl
@[simp] theorem State.setCore_dev (s : State) (c : CoreId) (v : Core) : (s.setCore c v).dev = s.dev := rfl
@[simp] theorem State.setCore_inbox (s : State) (c : CoreId) (v : Core) : (s.setCore c v).inbox = s.inbox := rfl
@[simp] theorem State.setCore_clock (s : State) (c : CoreId) (v : Core) : (s.setCore c v).clock = s.clock := rfl
@[simp] theorem State.setCore_free (s : State) (c : CoreId) (v : Core) : (s.setCore c v).free = s.free := rfl
@[simp] theorem State.setCore_selected (s : State) (c : CoreId) (v : Core) : (s.setCore c v).selected = s.selected := rfl

@[simp] theorem State.setCluster_hart (s : State) (c : ClusterId) (v : Cluster) : (s.setCluster c v).hart = s.hart := rfl
@[simp] theorem State.setCluster_others (s : State) (c : ClusterId) (v : Cluster) : (s.setCluster c v).others = s.others := rfl
@[simp] theorem State.setCluster_mem (s : State) (c : ClusterId) (v : Cluster) : (s.setCluster c v).mem = s.mem := rfl
@[simp] theorem State.setCluster_poison (s : State) (c : ClusterId) (v : Cluster) : (s.setCluster c v).poison = s.poison := rfl
@[simp] theorem State.setCluster_cores (s : State) (c : ClusterId) (v : Cluster) : (s.setCluster c v).cores = s.cores := rfl
@[simp] theorem State.setCluster_diesSt (s : State) (c : ClusterId) (v : Cluster) : (s.setCluster c v).diesSt = s.diesSt := rfl
@[simp] theorem State.setCluster_dev (s : State) (c : ClusterId) (v : Cluster) : (s.setCluster c v).dev = s.dev := rfl
@[simp] theorem State.setCluster_inbox (s : State) (c : ClusterId) (v : Cluster) : (s.setCluster c v).inbox = s.inbox := rfl
@[simp] theorem State.setCluster_clock (s : State) (c : ClusterId) (v : Cluster) : (s.setCluster c v).clock = s.clock := rfl
@[simp] theorem State.setCluster_free (s : State) (c : ClusterId) (v : Cluster) : (s.setCluster c v).free = s.free := rfl
@[simp] theorem State.setCluster_selected (s : State) (c : ClusterId) (v : Cluster) : (s.setCluster c v).selected = s.selected := rfl

@[simp] theorem State.setDie_hart (s : State) (c : Nat) (v : Die) : (s.setDie c v).hart = s.hart := rfl
@[simp] theorem State.setDie_others (s : State) (c : Nat) (v : Die) : (s.setDie c v).others = s.others := rfl
@[simp] theorem State.setDie_mem (s : State) (c : Nat) (v : Die) : (s.setDie c v).mem = s.mem := rfl
@[simp] theorem State.setDie_poison (s : State) (c : Nat) (v : Die) : (s.setDie c v).poison = s.poison := rfl
@[simp] theorem State.setDie_cores (s : State) (c : Nat) (v : Die) : (s.setDie c v).cores = s.cores := rfl
@[simp] theorem State.setDie_clusters (s : State) (c : Nat) (v : Die) : (s.setDie c v).clusters = s.clusters := rfl
@[simp] theorem State.setDie_dev (s : State) (c : Nat) (v : Die) : (s.setDie c v).dev = s.dev := rfl
@[simp] theorem State.setDie_inbox (s : State) (c : Nat) (v : Die) : (s.setDie c v).inbox = s.inbox := rfl
@[simp] theorem State.setDie_clock (s : State) (c : Nat) (v : Die) : (s.setDie c v).clock = s.clock := rfl
@[simp] theorem State.setDie_free (s : State) (c : Nat) (v : Die) : (s.setDie c v).free = s.free := rfl
@[simp] theorem State.setDie_selected (s : State) (c : Nat) (v : Die) : (s.setDie c v).selected = s.selected := rfl

/-! ## A register of the hart -/

@[simp] theorem Hart.wx_id (h : Hart) (r : Reg) (v : Word) : (h.wx r v).id = h.id := by
  unfold Hart.wx; split <;> rfl
@[simp] theorem Hart.wx_run (h : Hart) (r : Reg) (v : Word) : (h.wx r v).run = h.run := by
  unfold Hart.wx; split <;> rfl
@[simp] theorem Hart.wx_held (h : Hart) (r : Reg) (v : Word) : (h.wx r v).held = h.held := by
  unfold Hart.wx; split <;> rfl
@[simp] theorem Hart.wx_pc (h : Hart) (r : Reg) (v : Word) : (h.wx r v).pc = h.pc := by
  unfold Hart.wx; split <;> rfl
@[simp] theorem Hart.wx_priv (h : Hart) (r : Reg) (v : Word) : (h.wx r v).priv = h.priv := by
  unfold Hart.wx; split <;> rfl
@[simp] theorem Hart.wx_sstatus (h : Hart) (r : Reg) (v : Word) : (h.wx r v).sstatus = h.sstatus := by
  unfold Hart.wx; split <;> rfl
@[simp] theorem Hart.wx_sie (h : Hart) (r : Reg) (v : Word) : (h.wx r v).sie = h.sie := by
  unfold Hart.wx; split <;> rfl
@[simp] theorem Hart.wx_ssip (h : Hart) (r : Reg) (v : Word) : (h.wx r v).ssip = h.ssip := by
  unfold Hart.wx; split <;> rfl
@[simp] theorem Hart.wx_stvec (h : Hart) (r : Reg) (v : Word) : (h.wx r v).stvec = h.stvec := by
  unfold Hart.wx; split <;> rfl
@[simp] theorem Hart.wx_sscratch (h : Hart) (r : Reg) (v : Word) : (h.wx r v).sscratch = h.sscratch := by
  unfold Hart.wx; split <;> rfl
@[simp] theorem Hart.wx_sepc (h : Hart) (r : Reg) (v : Word) : (h.wx r v).sepc = h.sepc := by
  unfold Hart.wx; split <;> rfl
@[simp] theorem Hart.wx_scause (h : Hart) (r : Reg) (v : Word) : (h.wx r v).scause = h.scause := by
  unfold Hart.wx; split <;> rfl
@[simp] theorem Hart.wx_stval (h : Hart) (r : Reg) (v : Word) : (h.wx r v).stval = h.stval := by
  unfold Hart.wx; split <;> rfl
@[simp] theorem Hart.wx_satp (h : Hart) (r : Reg) (v : Word) : (h.wx r v).satp = h.satp := by
  unfold Hart.wx; split <;> rfl
@[simp] theorem Hart.wx_scounteren (h : Hart) (r : Reg) (v : Word) : (h.wx r v).scounteren = h.scounteren := by
  unfold Hart.wx; split <;> rfl
@[simp] theorem Hart.wx_senvcfg (h : Hart) (r : Reg) (v : Word) : (h.wx r v).senvcfg = h.senvcfg := by
  unfold Hart.wx; split <;> rfl
@[simp] theorem Hart.wx_stimecmp (h : Hart) (r : Reg) (v : Word) : (h.wx r v).stimecmp = h.stimecmp := by
  unfold Hart.wx; split <;> rfl
@[simp] theorem Hart.wx_mstatusTw (h : Hart) (r : Reg) (v : Word) : (h.wx r v).mstatusTw = h.mstatusTw := by
  unfold Hart.wx; split <;> rfl
@[simp] theorem Hart.wx_vpal (h : Hart) (r : Reg) (v : Word) : (h.wx r v).vpal = h.vpal := by
  unfold Hart.wx; split <;> rfl
@[simp] theorem Hart.wx_vfrm (h : Hart) (r : Reg) (v : Word) : (h.wx r v).vfrm = h.vfrm := by
  unfold Hart.wx; split <;> rfl
@[simp] theorem Hart.wx_vfflags (h : Hart) (r : Reg) (v : Word) : (h.wx r v).vfflags = h.vfflags := by
  unfold Hart.wx; split <;> rfl
@[simp] theorem Hart.wx_vstart (h : Hart) (r : Reg) (v : Word) : (h.wx r v).vstart = h.vstart := by
  unfold Hart.wx; split <;> rfl
@[simp] theorem Hart.wx_vxmask (h : Hart) (r : Reg) (v : Word) : (h.wx r v).vxmask = h.vxmask := by
  unfold Hart.wx; split <;> rfl
@[simp] theorem Hart.wx_vmspill (h : Hart) (r : Reg) (v : Word) : (h.wx r v).vmspill = h.vmspill := by
  unfold Hart.wx; split <;> rfl
@[simp] theorem Hart.wx_vsptr (h : Hart) (r : Reg) (v : Word) : (h.wx r v).vsptr = h.vsptr := by
  unfold Hart.wx; split <;> rfl
@[simp] theorem Hart.wx_rstat (h : Hart) (r : Reg) (v : Word) : (h.wx r v).rstat = h.rstat := by
  unfold Hart.wx; split <;> rfl
@[simp] theorem Hart.wx_txstat (h : Hart) (r : Reg) (v : Word) : (h.wx r v).txstat = h.txstat := by
  unfold Hart.wx; split <;> rfl
@[simp] theorem Hart.wx_txdeadline (h : Hart) (r : Reg) (v : Word) : (h.wx r v).txdeadline = h.txdeadline := by
  unfold Hart.wx; split <;> rfl
@[simp] theorem Hart.wx_hinfo (h : Hart) (r : Reg) (v : Word) : (h.wx r v).hinfo = h.hinfo := by
  unfold Hart.wx; split <;> rfl
@[simp] theorem Hart.wx_awst (h : Hart) (r : Reg) (v : Word) : (h.wx r v).awst = h.awst := by
  unfold Hart.wx; split <;> rfl
@[simp] theorem Hart.wx_vl (h : Hart) (r : Reg) (v : Word) : (h.wx r v).vl = h.vl := by
  unfold Hart.wx; split <;> rfl
@[simp] theorem Hart.wx_vgrant (h : Hart) (r : Reg) (v : Word) : (h.wx r v).vgrant = h.vgrant := by
  unfold Hart.wx; split <;> rfl
@[simp] theorem Hart.wx_coord (h : Hart) (r : Reg) (v : Word) : (h.wx r v).coord = h.coord := by
  unfold Hart.wx; split <;> rfl
@[simp] theorem Hart.wx_stage (h : Hart) (r : Reg) (v : Word) : (h.wx r v).stage = h.stage := by
  unfold Hart.wx; split <;> rfl
@[simp] theorem Hart.wx_launchTag (h : Hart) (r : Reg) (v : Word) : (h.wx r v).launchTag = h.launchTag := by
  unfold Hart.wx; split <;> rfl
@[simp] theorem Hart.wx_xfbase (h : Hart) (r : Reg) (v : Word) : (h.wx r v).xfbase = h.xfbase := by
  unfold Hart.wx; split <;> rfl
@[simp] theorem Hart.wx_vfpc (h : Hart) (r : Reg) (v : Word) : (h.wx r v).vfpc = h.vfpc := by
  unfold Hart.wx; split <;> rfl
@[simp] theorem Hart.wx_vfcause (h : Hart) (r : Reg) (v : Word) : (h.wx r v).vfcause = h.vfcause := by
  unfold Hart.wx; split <;> rfl
@[simp] theorem Hart.wx_vfaddr (h : Hart) (r : Reg) (v : Word) : (h.wx r v).vfaddr = h.vfaddr := by
  unfold Hart.wx; split <;> rfl
@[simp] theorem Hart.wx_trroute (h : Hart) (r : Reg) (v : Word) : (h.wx r v).trroute = h.trroute := by
  unfold Hart.wx; split <;> rfl
@[simp] theorem Hart.wx_hbase (h : Hart) (r : Reg) (v : Word) : (h.wx r v).hbase = h.hbase := by
  unfold Hart.wx; split <;> rfl
@[simp] theorem Hart.wx_sbase (h : Hart) (r : Reg) (v : Word) : (h.wx r v).sbase = h.sbase := by
  unfold Hart.wx; split <;> rfl
@[simp] theorem Hart.wx_instret (h : Hart) (r : Reg) (v : Word) : (h.wx r v).instret = h.instret := by
  unfold Hart.wx; split <;> rfl
@[simp] theorem Hart.wx_v (h : Hart) (r : Reg) (v : Word) : (h.wx r v).v = h.v := by
  unfold Hart.wx; split <;> rfl
@[simp] theorem Hart.wx_p (h : Hart) (r : Reg) (v : Word) : (h.wx r v).p = h.p := by
  unfold Hart.wx; split <;> rfl
@[simp] theorem Hart.wx_vmsp (h : Hart) (r : Reg) (v : Word) : (h.wx r v).vmsp = h.vmsp := by
  unfold Hart.wx; split <;> rfl
@[simp] theorem Hart.wx_masks (h : Hart) (r : Reg) (v : Word) : (h.wx r v).masks = h.masks := by
  unfold Hart.wx; split <;> rfl
@[simp] theorem Hart.wx_st (h : Hart) (r : Reg) (v : Word) : (h.wx r v).st = h.st := by
  unfold Hart.wx; split <;> rfl
@[simp] theorem Hart.wx_bindings (h : Hart) (r : Reg) (v : Word) : (h.wx r v).bindings = h.bindings := by
  unfold Hart.wx; split <;> rfl
@[simp] theorem Hart.wx_q (h : Hart) (r : Reg) (v : Word) : (h.wx r v).q = h.q := by
  unfold Hart.wx; split <;> rfl
@[simp] theorem Hart.wx_lq (h : Hart) (r : Reg) (v : Word) : (h.wx r v).lq = h.lq := by
  unfold Hart.wx; split <;> rfl
@[simp] theorem Hart.wx_vq (h : Hart) (r : Reg) (v : Word) : (h.wx r v).vq = h.vq := by
  unfold Hart.wx; split <;> rfl
@[simp] theorem Hart.wx_mq (h : Hart) (r : Reg) (v : Word) : (h.wx r v).mq = h.mq := by
  unfold Hart.wx; split <;> rfl
@[simp] theorem Hart.wx_cq (h : Hart) (r : Reg) (v : Word) : (h.wx r v).cq = h.cq := by
  unfold Hart.wx; split <;> rfl
@[simp] theorem Hart.wx_seq (h : Hart) (r : Reg) (v : Word) : (h.wx r v).seq = h.seq := by
  unfold Hart.wx; split <;> rfl
@[simp] theorem Hart.wx_faults (h : Hart) (r : Reg) (v : Word) : (h.wx r v).faults = h.faults := by
  unfold Hart.wx; split <;> rfl
@[simp] theorem Hart.wx_frame (h : Hart) (r : Reg) (v : Word) : (h.wx r v).frame = h.frame := by
  unfold Hart.wx; split <;> rfl
@[simp] theorem Hart.wx_tiles (h : Hart) (r : Reg) (v : Word) : (h.wx r v).tiles = h.tiles := by
  unfold Hart.wx; split <;> rfl
@[simp] theorem Hart.wx_groupA (h : Hart) (r : Reg) (v : Word) : (h.wx r v).groupA = h.groupA := by
  unfold Hart.wx; split <;> rfl
@[simp] theorem Hart.wx_groupB (h : Hart) (r : Reg) (v : Word) : (h.wx r v).groupB = h.groupB := by
  unfold Hart.wx; split <;> rfl
@[simp] theorem Hart.wx_window (h : Hart) (r : Reg) (v : Word) : (h.wx r v).window = h.window := by
  unfold Hart.wx; split <;> rfl
@[simp] theorem Hart.wx_trains (h : Hart) (r : Reg) (v : Word) : (h.wx r v).trains = h.trains := by
  unfold Hart.wx; split <;> rfl
@[simp] theorem Hart.wx_reservation (h : Hart) (r : Reg) (v : Word) : (h.wx r v).reservation = h.reservation := by
  unfold Hart.wx; split <;> rfl
@[simp] theorem Hart.wx_fetchBuf (h : Hart) (r : Reg) (v : Word) : (h.wx r v).fetchBuf = h.fetchBuf := by
  unfold Hart.wx; split <;> rfl
@[simp] theorem Hart.wx_slots (h : Hart) (r : Reg) (v : Word) : (h.wx r v).slots = h.slots := by
  unfold Hart.wx; split <;> rfl
@[simp] theorem Hart.wx_spareSlots (h : Hart) (r : Reg) (v : Word) : (h.wx r v).spareSlots = h.spareSlots := by
  unfold Hart.wx; split <;> rfl
@[simp] theorem Hart.wx_tx (h : Hart) (r : Reg) (v : Word) : (h.wx r v).tx = h.tx := by
  unfold Hart.wx; split <;> rfl
@[simp] theorem Hart.wx_lastBegin (h : Hart) (r : Reg) (v : Word) : (h.wx r v).lastBegin = h.lastBegin := by
  unfold Hart.wx; split <;> rfl
@[simp] theorem Hart.wx_sleepTarget (h : Hart) (r : Reg) (v : Word) : (h.wx r v).sleepTarget = h.sleepTarget := by
  unfold Hart.wx; split <;> rfl
@[simp] theorem Hart.wx_footprint (h : Hart) (r : Reg) (v : Word) : (h.wx r v).footprint = h.footprint := by
  unfold Hart.wx; split <;> rfl
@[simp] theorem Hart.wx_marks (h : Hart) (r : Reg) (v : Word) : (h.wx r v).marks = h.marks := by
  unfold Hart.wx; split <;> rfl
@[simp] theorem Hart.wx_deadline (h : Hart) (r : Reg) (v : Word) : (h.wx r v).deadline = h.deadline := by
  unfold Hart.wx; split <;> rfl
@[simp] theorem Hart.wx_hostDirty (h : Hart) (r : Reg) (v : Word) : (h.wx r v).hostDirty = h.hostDirty := by
  unfold Hart.wx; split <;> rfl
@[simp] theorem Hart.wx_placed (h : Hart) (r : Reg) (v : Word) : (h.wx r v).placed = h.placed := by
  unfold Hart.wx; split <;> rfl
@[simp] theorem Hart.wx_age (h : Hart) (r : Reg) (v : Word) : (h.wx r v).age = h.age := by
  unfold Hart.wx; split <;> rfl
@[simp] theorem Hart.wx_unselected (h : Hart) (r : Reg) (v : Word) : (h.wx r v).unselected = h.unselected := by
  unfold Hart.wx; split <;> rfl
@[simp] theorem Hart.wx_serving (h : Hart) (r : Reg) (v : Word) : (h.wx r v).serving = h.serving := by
  unfold Hart.wx; split <;> rfl
@[simp] theorem Hart.wx_graphs (h : Hart) (r : Reg) (v : Word) : (h.wx r v).graphs = h.graphs := by
  unfold Hart.wx; split <;> rfl
@[simp] theorem Hart.wx_resumePc (h : Hart) (r : Reg) (v : Word) : (h.wx r v).resumePc = h.resumePc := by
  unfold Hart.wx; split <;> rfl
@[simp] theorem Hart.wx_parkCause (h : Hart) (r : Reg) (v : Word) : (h.wx r v).parkCause = h.parkCause := by
  unfold Hart.wx; split <;> rfl

@[simp] theorem Hart.wv_id (h : Hart) (r : Nat) (x : BitVec 16384) : (h.wv r x).id = h.id := by
  unfold Hart.wv; split <;> rfl
@[simp] theorem Hart.wv_run (h : Hart) (r : Nat) (x : BitVec 16384) : (h.wv r x).run = h.run := by
  unfold Hart.wv; split <;> rfl
@[simp] theorem Hart.wv_held (h : Hart) (r : Nat) (x : BitVec 16384) : (h.wv r x).held = h.held := by
  unfold Hart.wv; split <;> rfl
@[simp] theorem Hart.wv_x (h : Hart) (r : Nat) (x : BitVec 16384) : (h.wv r x).x = h.x := by
  unfold Hart.wv; split <;> rfl
@[simp] theorem Hart.wv_pc (h : Hart) (r : Nat) (x : BitVec 16384) : (h.wv r x).pc = h.pc := by
  unfold Hart.wv; split <;> rfl
@[simp] theorem Hart.wv_priv (h : Hart) (r : Nat) (x : BitVec 16384) : (h.wv r x).priv = h.priv := by
  unfold Hart.wv; split <;> rfl
@[simp] theorem Hart.wv_sstatus (h : Hart) (r : Nat) (x : BitVec 16384) : (h.wv r x).sstatus = h.sstatus := by
  unfold Hart.wv; split <;> rfl
@[simp] theorem Hart.wv_sie (h : Hart) (r : Nat) (x : BitVec 16384) : (h.wv r x).sie = h.sie := by
  unfold Hart.wv; split <;> rfl
@[simp] theorem Hart.wv_ssip (h : Hart) (r : Nat) (x : BitVec 16384) : (h.wv r x).ssip = h.ssip := by
  unfold Hart.wv; split <;> rfl
@[simp] theorem Hart.wv_stvec (h : Hart) (r : Nat) (x : BitVec 16384) : (h.wv r x).stvec = h.stvec := by
  unfold Hart.wv; split <;> rfl
@[simp] theorem Hart.wv_sscratch (h : Hart) (r : Nat) (x : BitVec 16384) : (h.wv r x).sscratch = h.sscratch := by
  unfold Hart.wv; split <;> rfl
@[simp] theorem Hart.wv_sepc (h : Hart) (r : Nat) (x : BitVec 16384) : (h.wv r x).sepc = h.sepc := by
  unfold Hart.wv; split <;> rfl
@[simp] theorem Hart.wv_scause (h : Hart) (r : Nat) (x : BitVec 16384) : (h.wv r x).scause = h.scause := by
  unfold Hart.wv; split <;> rfl
@[simp] theorem Hart.wv_stval (h : Hart) (r : Nat) (x : BitVec 16384) : (h.wv r x).stval = h.stval := by
  unfold Hart.wv; split <;> rfl
@[simp] theorem Hart.wv_satp (h : Hart) (r : Nat) (x : BitVec 16384) : (h.wv r x).satp = h.satp := by
  unfold Hart.wv; split <;> rfl
@[simp] theorem Hart.wv_scounteren (h : Hart) (r : Nat) (x : BitVec 16384) : (h.wv r x).scounteren = h.scounteren := by
  unfold Hart.wv; split <;> rfl
@[simp] theorem Hart.wv_senvcfg (h : Hart) (r : Nat) (x : BitVec 16384) : (h.wv r x).senvcfg = h.senvcfg := by
  unfold Hart.wv; split <;> rfl
@[simp] theorem Hart.wv_stimecmp (h : Hart) (r : Nat) (x : BitVec 16384) : (h.wv r x).stimecmp = h.stimecmp := by
  unfold Hart.wv; split <;> rfl
@[simp] theorem Hart.wv_mstatusTw (h : Hart) (r : Nat) (x : BitVec 16384) : (h.wv r x).mstatusTw = h.mstatusTw := by
  unfold Hart.wv; split <;> rfl
@[simp] theorem Hart.wv_vpal (h : Hart) (r : Nat) (x : BitVec 16384) : (h.wv r x).vpal = h.vpal := by
  unfold Hart.wv; split <;> rfl
@[simp] theorem Hart.wv_vfrm (h : Hart) (r : Nat) (x : BitVec 16384) : (h.wv r x).vfrm = h.vfrm := by
  unfold Hart.wv; split <;> rfl
@[simp] theorem Hart.wv_vfflags (h : Hart) (r : Nat) (x : BitVec 16384) : (h.wv r x).vfflags = h.vfflags := by
  unfold Hart.wv; split <;> rfl
@[simp] theorem Hart.wv_vstart (h : Hart) (r : Nat) (x : BitVec 16384) : (h.wv r x).vstart = h.vstart := by
  unfold Hart.wv; split <;> rfl
@[simp] theorem Hart.wv_vxmask (h : Hart) (r : Nat) (x : BitVec 16384) : (h.wv r x).vxmask = h.vxmask := by
  unfold Hart.wv; split <;> rfl
@[simp] theorem Hart.wv_vmspill (h : Hart) (r : Nat) (x : BitVec 16384) : (h.wv r x).vmspill = h.vmspill := by
  unfold Hart.wv; split <;> rfl
@[simp] theorem Hart.wv_vsptr (h : Hart) (r : Nat) (x : BitVec 16384) : (h.wv r x).vsptr = h.vsptr := by
  unfold Hart.wv; split <;> rfl
@[simp] theorem Hart.wv_rstat (h : Hart) (r : Nat) (x : BitVec 16384) : (h.wv r x).rstat = h.rstat := by
  unfold Hart.wv; split <;> rfl
@[simp] theorem Hart.wv_txstat (h : Hart) (r : Nat) (x : BitVec 16384) : (h.wv r x).txstat = h.txstat := by
  unfold Hart.wv; split <;> rfl
@[simp] theorem Hart.wv_txdeadline (h : Hart) (r : Nat) (x : BitVec 16384) : (h.wv r x).txdeadline = h.txdeadline := by
  unfold Hart.wv; split <;> rfl
@[simp] theorem Hart.wv_hinfo (h : Hart) (r : Nat) (x : BitVec 16384) : (h.wv r x).hinfo = h.hinfo := by
  unfold Hart.wv; split <;> rfl
@[simp] theorem Hart.wv_awst (h : Hart) (r : Nat) (x : BitVec 16384) : (h.wv r x).awst = h.awst := by
  unfold Hart.wv; split <;> rfl
@[simp] theorem Hart.wv_vl (h : Hart) (r : Nat) (x : BitVec 16384) : (h.wv r x).vl = h.vl := by
  unfold Hart.wv; split <;> rfl
@[simp] theorem Hart.wv_vgrant (h : Hart) (r : Nat) (x : BitVec 16384) : (h.wv r x).vgrant = h.vgrant := by
  unfold Hart.wv; split <;> rfl
@[simp] theorem Hart.wv_coord (h : Hart) (r : Nat) (x : BitVec 16384) : (h.wv r x).coord = h.coord := by
  unfold Hart.wv; split <;> rfl
@[simp] theorem Hart.wv_stage (h : Hart) (r : Nat) (x : BitVec 16384) : (h.wv r x).stage = h.stage := by
  unfold Hart.wv; split <;> rfl
@[simp] theorem Hart.wv_launchTag (h : Hart) (r : Nat) (x : BitVec 16384) : (h.wv r x).launchTag = h.launchTag := by
  unfold Hart.wv; split <;> rfl
@[simp] theorem Hart.wv_xfbase (h : Hart) (r : Nat) (x : BitVec 16384) : (h.wv r x).xfbase = h.xfbase := by
  unfold Hart.wv; split <;> rfl
@[simp] theorem Hart.wv_vfpc (h : Hart) (r : Nat) (x : BitVec 16384) : (h.wv r x).vfpc = h.vfpc := by
  unfold Hart.wv; split <;> rfl
@[simp] theorem Hart.wv_vfcause (h : Hart) (r : Nat) (x : BitVec 16384) : (h.wv r x).vfcause = h.vfcause := by
  unfold Hart.wv; split <;> rfl
@[simp] theorem Hart.wv_vfaddr (h : Hart) (r : Nat) (x : BitVec 16384) : (h.wv r x).vfaddr = h.vfaddr := by
  unfold Hart.wv; split <;> rfl
@[simp] theorem Hart.wv_trroute (h : Hart) (r : Nat) (x : BitVec 16384) : (h.wv r x).trroute = h.trroute := by
  unfold Hart.wv; split <;> rfl
@[simp] theorem Hart.wv_hbase (h : Hart) (r : Nat) (x : BitVec 16384) : (h.wv r x).hbase = h.hbase := by
  unfold Hart.wv; split <;> rfl
@[simp] theorem Hart.wv_sbase (h : Hart) (r : Nat) (x : BitVec 16384) : (h.wv r x).sbase = h.sbase := by
  unfold Hart.wv; split <;> rfl
@[simp] theorem Hart.wv_instret (h : Hart) (r : Nat) (x : BitVec 16384) : (h.wv r x).instret = h.instret := by
  unfold Hart.wv; split <;> rfl
@[simp] theorem Hart.wv_p (h : Hart) (r : Nat) (x : BitVec 16384) : (h.wv r x).p = h.p := by
  unfold Hart.wv; split <;> rfl
@[simp] theorem Hart.wv_vmsp (h : Hart) (r : Nat) (x : BitVec 16384) : (h.wv r x).vmsp = h.vmsp := by
  unfold Hart.wv; split <;> rfl
@[simp] theorem Hart.wv_masks (h : Hart) (r : Nat) (x : BitVec 16384) : (h.wv r x).masks = h.masks := by
  unfold Hart.wv; split <;> rfl
@[simp] theorem Hart.wv_st (h : Hart) (r : Nat) (x : BitVec 16384) : (h.wv r x).st = h.st := by
  unfold Hart.wv; split <;> rfl
@[simp] theorem Hart.wv_bindings (h : Hart) (r : Nat) (x : BitVec 16384) : (h.wv r x).bindings = h.bindings := by
  unfold Hart.wv; split <;> rfl
@[simp] theorem Hart.wv_q (h : Hart) (r : Nat) (x : BitVec 16384) : (h.wv r x).q = h.q := by
  unfold Hart.wv; split <;> rfl
@[simp] theorem Hart.wv_lq (h : Hart) (r : Nat) (x : BitVec 16384) : (h.wv r x).lq = h.lq := by
  unfold Hart.wv; split <;> rfl
@[simp] theorem Hart.wv_vq (h : Hart) (r : Nat) (x : BitVec 16384) : (h.wv r x).vq = h.vq := by
  unfold Hart.wv; split <;> rfl
@[simp] theorem Hart.wv_mq (h : Hart) (r : Nat) (x : BitVec 16384) : (h.wv r x).mq = h.mq := by
  unfold Hart.wv; split <;> rfl
@[simp] theorem Hart.wv_cq (h : Hart) (r : Nat) (x : BitVec 16384) : (h.wv r x).cq = h.cq := by
  unfold Hart.wv; split <;> rfl
@[simp] theorem Hart.wv_seq (h : Hart) (r : Nat) (x : BitVec 16384) : (h.wv r x).seq = h.seq := by
  unfold Hart.wv; split <;> rfl
@[simp] theorem Hart.wv_faults (h : Hart) (r : Nat) (x : BitVec 16384) : (h.wv r x).faults = h.faults := by
  unfold Hart.wv; split <;> rfl
@[simp] theorem Hart.wv_frame (h : Hart) (r : Nat) (x : BitVec 16384) : (h.wv r x).frame = h.frame := by
  unfold Hart.wv; split <;> rfl
@[simp] theorem Hart.wv_tiles (h : Hart) (r : Nat) (x : BitVec 16384) : (h.wv r x).tiles = h.tiles := by
  unfold Hart.wv; split <;> rfl
@[simp] theorem Hart.wv_groupA (h : Hart) (r : Nat) (x : BitVec 16384) : (h.wv r x).groupA = h.groupA := by
  unfold Hart.wv; split <;> rfl
@[simp] theorem Hart.wv_groupB (h : Hart) (r : Nat) (x : BitVec 16384) : (h.wv r x).groupB = h.groupB := by
  unfold Hart.wv; split <;> rfl
@[simp] theorem Hart.wv_window (h : Hart) (r : Nat) (x : BitVec 16384) : (h.wv r x).window = h.window := by
  unfold Hart.wv; split <;> rfl
@[simp] theorem Hart.wv_trains (h : Hart) (r : Nat) (x : BitVec 16384) : (h.wv r x).trains = h.trains := by
  unfold Hart.wv; split <;> rfl
@[simp] theorem Hart.wv_reservation (h : Hart) (r : Nat) (x : BitVec 16384) : (h.wv r x).reservation = h.reservation := by
  unfold Hart.wv; split <;> rfl
@[simp] theorem Hart.wv_fetchBuf (h : Hart) (r : Nat) (x : BitVec 16384) : (h.wv r x).fetchBuf = h.fetchBuf := by
  unfold Hart.wv; split <;> rfl
@[simp] theorem Hart.wv_slots (h : Hart) (r : Nat) (x : BitVec 16384) : (h.wv r x).slots = h.slots := by
  unfold Hart.wv; split <;> rfl
@[simp] theorem Hart.wv_spareSlots (h : Hart) (r : Nat) (x : BitVec 16384) : (h.wv r x).spareSlots = h.spareSlots := by
  unfold Hart.wv; split <;> rfl
@[simp] theorem Hart.wv_tx (h : Hart) (r : Nat) (x : BitVec 16384) : (h.wv r x).tx = h.tx := by
  unfold Hart.wv; split <;> rfl
@[simp] theorem Hart.wv_lastBegin (h : Hart) (r : Nat) (x : BitVec 16384) : (h.wv r x).lastBegin = h.lastBegin := by
  unfold Hart.wv; split <;> rfl
@[simp] theorem Hart.wv_sleepTarget (h : Hart) (r : Nat) (x : BitVec 16384) : (h.wv r x).sleepTarget = h.sleepTarget := by
  unfold Hart.wv; split <;> rfl
@[simp] theorem Hart.wv_footprint (h : Hart) (r : Nat) (x : BitVec 16384) : (h.wv r x).footprint = h.footprint := by
  unfold Hart.wv; split <;> rfl
@[simp] theorem Hart.wv_marks (h : Hart) (r : Nat) (x : BitVec 16384) : (h.wv r x).marks = h.marks := by
  unfold Hart.wv; split <;> rfl
@[simp] theorem Hart.wv_deadline (h : Hart) (r : Nat) (x : BitVec 16384) : (h.wv r x).deadline = h.deadline := by
  unfold Hart.wv; split <;> rfl
@[simp] theorem Hart.wv_hostDirty (h : Hart) (r : Nat) (x : BitVec 16384) : (h.wv r x).hostDirty = h.hostDirty := by
  unfold Hart.wv; split <;> rfl
@[simp] theorem Hart.wv_placed (h : Hart) (r : Nat) (x : BitVec 16384) : (h.wv r x).placed = h.placed := by
  unfold Hart.wv; split <;> rfl
@[simp] theorem Hart.wv_age (h : Hart) (r : Nat) (x : BitVec 16384) : (h.wv r x).age = h.age := by
  unfold Hart.wv; split <;> rfl
@[simp] theorem Hart.wv_unselected (h : Hart) (r : Nat) (x : BitVec 16384) : (h.wv r x).unselected = h.unselected := by
  unfold Hart.wv; split <;> rfl
@[simp] theorem Hart.wv_serving (h : Hart) (r : Nat) (x : BitVec 16384) : (h.wv r x).serving = h.serving := by
  unfold Hart.wv; split <;> rfl
@[simp] theorem Hart.wv_graphs (h : Hart) (r : Nat) (x : BitVec 16384) : (h.wv r x).graphs = h.graphs := by
  unfold Hart.wv; split <;> rfl
@[simp] theorem Hart.wv_resumePc (h : Hart) (r : Nat) (x : BitVec 16384) : (h.wv r x).resumePc = h.resumePc := by
  unfold Hart.wv; split <;> rfl
@[simp] theorem Hart.wv_parkCause (h : Hart) (r : Nat) (x : BitVec 16384) : (h.wv r x).parkCause = h.parkCause := by
  unfold Hart.wv; split <;> rfl

@[simp] theorem Hart.wp_id (h : Hart) (n : Nat) (x : BitVec 2048) : (h.wp n x).id = h.id := by
  unfold Hart.wp; split <;> rfl
@[simp] theorem Hart.wp_run (h : Hart) (n : Nat) (x : BitVec 2048) : (h.wp n x).run = h.run := by
  unfold Hart.wp; split <;> rfl
@[simp] theorem Hart.wp_held (h : Hart) (n : Nat) (x : BitVec 2048) : (h.wp n x).held = h.held := by
  unfold Hart.wp; split <;> rfl
@[simp] theorem Hart.wp_x (h : Hart) (n : Nat) (x : BitVec 2048) : (h.wp n x).x = h.x := by
  unfold Hart.wp; split <;> rfl
@[simp] theorem Hart.wp_pc (h : Hart) (n : Nat) (x : BitVec 2048) : (h.wp n x).pc = h.pc := by
  unfold Hart.wp; split <;> rfl
@[simp] theorem Hart.wp_priv (h : Hart) (n : Nat) (x : BitVec 2048) : (h.wp n x).priv = h.priv := by
  unfold Hart.wp; split <;> rfl
@[simp] theorem Hart.wp_sstatus (h : Hart) (n : Nat) (x : BitVec 2048) : (h.wp n x).sstatus = h.sstatus := by
  unfold Hart.wp; split <;> rfl
@[simp] theorem Hart.wp_sie (h : Hart) (n : Nat) (x : BitVec 2048) : (h.wp n x).sie = h.sie := by
  unfold Hart.wp; split <;> rfl
@[simp] theorem Hart.wp_ssip (h : Hart) (n : Nat) (x : BitVec 2048) : (h.wp n x).ssip = h.ssip := by
  unfold Hart.wp; split <;> rfl
@[simp] theorem Hart.wp_stvec (h : Hart) (n : Nat) (x : BitVec 2048) : (h.wp n x).stvec = h.stvec := by
  unfold Hart.wp; split <;> rfl
@[simp] theorem Hart.wp_sscratch (h : Hart) (n : Nat) (x : BitVec 2048) : (h.wp n x).sscratch = h.sscratch := by
  unfold Hart.wp; split <;> rfl
@[simp] theorem Hart.wp_sepc (h : Hart) (n : Nat) (x : BitVec 2048) : (h.wp n x).sepc = h.sepc := by
  unfold Hart.wp; split <;> rfl
@[simp] theorem Hart.wp_scause (h : Hart) (n : Nat) (x : BitVec 2048) : (h.wp n x).scause = h.scause := by
  unfold Hart.wp; split <;> rfl
@[simp] theorem Hart.wp_stval (h : Hart) (n : Nat) (x : BitVec 2048) : (h.wp n x).stval = h.stval := by
  unfold Hart.wp; split <;> rfl
@[simp] theorem Hart.wp_satp (h : Hart) (n : Nat) (x : BitVec 2048) : (h.wp n x).satp = h.satp := by
  unfold Hart.wp; split <;> rfl
@[simp] theorem Hart.wp_scounteren (h : Hart) (n : Nat) (x : BitVec 2048) : (h.wp n x).scounteren = h.scounteren := by
  unfold Hart.wp; split <;> rfl
@[simp] theorem Hart.wp_senvcfg (h : Hart) (n : Nat) (x : BitVec 2048) : (h.wp n x).senvcfg = h.senvcfg := by
  unfold Hart.wp; split <;> rfl
@[simp] theorem Hart.wp_stimecmp (h : Hart) (n : Nat) (x : BitVec 2048) : (h.wp n x).stimecmp = h.stimecmp := by
  unfold Hart.wp; split <;> rfl
@[simp] theorem Hart.wp_mstatusTw (h : Hart) (n : Nat) (x : BitVec 2048) : (h.wp n x).mstatusTw = h.mstatusTw := by
  unfold Hart.wp; split <;> rfl
@[simp] theorem Hart.wp_vpal (h : Hart) (n : Nat) (x : BitVec 2048) : (h.wp n x).vpal = h.vpal := by
  unfold Hart.wp; split <;> rfl
@[simp] theorem Hart.wp_vfrm (h : Hart) (n : Nat) (x : BitVec 2048) : (h.wp n x).vfrm = h.vfrm := by
  unfold Hart.wp; split <;> rfl
@[simp] theorem Hart.wp_vfflags (h : Hart) (n : Nat) (x : BitVec 2048) : (h.wp n x).vfflags = h.vfflags := by
  unfold Hart.wp; split <;> rfl
@[simp] theorem Hart.wp_vstart (h : Hart) (n : Nat) (x : BitVec 2048) : (h.wp n x).vstart = h.vstart := by
  unfold Hart.wp; split <;> rfl
@[simp] theorem Hart.wp_vxmask (h : Hart) (n : Nat) (x : BitVec 2048) : (h.wp n x).vxmask = h.vxmask := by
  unfold Hart.wp; split <;> rfl
@[simp] theorem Hart.wp_vmspill (h : Hart) (n : Nat) (x : BitVec 2048) : (h.wp n x).vmspill = h.vmspill := by
  unfold Hart.wp; split <;> rfl
@[simp] theorem Hart.wp_vsptr (h : Hart) (n : Nat) (x : BitVec 2048) : (h.wp n x).vsptr = h.vsptr := by
  unfold Hart.wp; split <;> rfl
@[simp] theorem Hart.wp_rstat (h : Hart) (n : Nat) (x : BitVec 2048) : (h.wp n x).rstat = h.rstat := by
  unfold Hart.wp; split <;> rfl
@[simp] theorem Hart.wp_txstat (h : Hart) (n : Nat) (x : BitVec 2048) : (h.wp n x).txstat = h.txstat := by
  unfold Hart.wp; split <;> rfl
@[simp] theorem Hart.wp_txdeadline (h : Hart) (n : Nat) (x : BitVec 2048) : (h.wp n x).txdeadline = h.txdeadline := by
  unfold Hart.wp; split <;> rfl
@[simp] theorem Hart.wp_hinfo (h : Hart) (n : Nat) (x : BitVec 2048) : (h.wp n x).hinfo = h.hinfo := by
  unfold Hart.wp; split <;> rfl
@[simp] theorem Hart.wp_awst (h : Hart) (n : Nat) (x : BitVec 2048) : (h.wp n x).awst = h.awst := by
  unfold Hart.wp; split <;> rfl
@[simp] theorem Hart.wp_vl (h : Hart) (n : Nat) (x : BitVec 2048) : (h.wp n x).vl = h.vl := by
  unfold Hart.wp; split <;> rfl
@[simp] theorem Hart.wp_vgrant (h : Hart) (n : Nat) (x : BitVec 2048) : (h.wp n x).vgrant = h.vgrant := by
  unfold Hart.wp; split <;> rfl
@[simp] theorem Hart.wp_coord (h : Hart) (n : Nat) (x : BitVec 2048) : (h.wp n x).coord = h.coord := by
  unfold Hart.wp; split <;> rfl
@[simp] theorem Hart.wp_stage (h : Hart) (n : Nat) (x : BitVec 2048) : (h.wp n x).stage = h.stage := by
  unfold Hart.wp; split <;> rfl
@[simp] theorem Hart.wp_launchTag (h : Hart) (n : Nat) (x : BitVec 2048) : (h.wp n x).launchTag = h.launchTag := by
  unfold Hart.wp; split <;> rfl
@[simp] theorem Hart.wp_xfbase (h : Hart) (n : Nat) (x : BitVec 2048) : (h.wp n x).xfbase = h.xfbase := by
  unfold Hart.wp; split <;> rfl
@[simp] theorem Hart.wp_vfpc (h : Hart) (n : Nat) (x : BitVec 2048) : (h.wp n x).vfpc = h.vfpc := by
  unfold Hart.wp; split <;> rfl
@[simp] theorem Hart.wp_vfcause (h : Hart) (n : Nat) (x : BitVec 2048) : (h.wp n x).vfcause = h.vfcause := by
  unfold Hart.wp; split <;> rfl
@[simp] theorem Hart.wp_vfaddr (h : Hart) (n : Nat) (x : BitVec 2048) : (h.wp n x).vfaddr = h.vfaddr := by
  unfold Hart.wp; split <;> rfl
@[simp] theorem Hart.wp_trroute (h : Hart) (n : Nat) (x : BitVec 2048) : (h.wp n x).trroute = h.trroute := by
  unfold Hart.wp; split <;> rfl
@[simp] theorem Hart.wp_hbase (h : Hart) (n : Nat) (x : BitVec 2048) : (h.wp n x).hbase = h.hbase := by
  unfold Hart.wp; split <;> rfl
@[simp] theorem Hart.wp_sbase (h : Hart) (n : Nat) (x : BitVec 2048) : (h.wp n x).sbase = h.sbase := by
  unfold Hart.wp; split <;> rfl
@[simp] theorem Hart.wp_instret (h : Hart) (n : Nat) (x : BitVec 2048) : (h.wp n x).instret = h.instret := by
  unfold Hart.wp; split <;> rfl
@[simp] theorem Hart.wp_v (h : Hart) (n : Nat) (x : BitVec 2048) : (h.wp n x).v = h.v := by
  unfold Hart.wp; split <;> rfl
@[simp] theorem Hart.wp_vmsp (h : Hart) (n : Nat) (x : BitVec 2048) : (h.wp n x).vmsp = h.vmsp := by
  unfold Hart.wp; split <;> rfl
@[simp] theorem Hart.wp_masks (h : Hart) (n : Nat) (x : BitVec 2048) : (h.wp n x).masks = h.masks := by
  unfold Hart.wp; split <;> rfl
@[simp] theorem Hart.wp_st (h : Hart) (n : Nat) (x : BitVec 2048) : (h.wp n x).st = h.st := by
  unfold Hart.wp; split <;> rfl
@[simp] theorem Hart.wp_bindings (h : Hart) (n : Nat) (x : BitVec 2048) : (h.wp n x).bindings = h.bindings := by
  unfold Hart.wp; split <;> rfl
@[simp] theorem Hart.wp_q (h : Hart) (n : Nat) (x : BitVec 2048) : (h.wp n x).q = h.q := by
  unfold Hart.wp; split <;> rfl
@[simp] theorem Hart.wp_lq (h : Hart) (n : Nat) (x : BitVec 2048) : (h.wp n x).lq = h.lq := by
  unfold Hart.wp; split <;> rfl
@[simp] theorem Hart.wp_vq (h : Hart) (n : Nat) (x : BitVec 2048) : (h.wp n x).vq = h.vq := by
  unfold Hart.wp; split <;> rfl
@[simp] theorem Hart.wp_mq (h : Hart) (n : Nat) (x : BitVec 2048) : (h.wp n x).mq = h.mq := by
  unfold Hart.wp; split <;> rfl
@[simp] theorem Hart.wp_cq (h : Hart) (n : Nat) (x : BitVec 2048) : (h.wp n x).cq = h.cq := by
  unfold Hart.wp; split <;> rfl
@[simp] theorem Hart.wp_seq (h : Hart) (n : Nat) (x : BitVec 2048) : (h.wp n x).seq = h.seq := by
  unfold Hart.wp; split <;> rfl
@[simp] theorem Hart.wp_faults (h : Hart) (n : Nat) (x : BitVec 2048) : (h.wp n x).faults = h.faults := by
  unfold Hart.wp; split <;> rfl
@[simp] theorem Hart.wp_frame (h : Hart) (n : Nat) (x : BitVec 2048) : (h.wp n x).frame = h.frame := by
  unfold Hart.wp; split <;> rfl
@[simp] theorem Hart.wp_tiles (h : Hart) (n : Nat) (x : BitVec 2048) : (h.wp n x).tiles = h.tiles := by
  unfold Hart.wp; split <;> rfl
@[simp] theorem Hart.wp_groupA (h : Hart) (n : Nat) (x : BitVec 2048) : (h.wp n x).groupA = h.groupA := by
  unfold Hart.wp; split <;> rfl
@[simp] theorem Hart.wp_groupB (h : Hart) (n : Nat) (x : BitVec 2048) : (h.wp n x).groupB = h.groupB := by
  unfold Hart.wp; split <;> rfl
@[simp] theorem Hart.wp_window (h : Hart) (n : Nat) (x : BitVec 2048) : (h.wp n x).window = h.window := by
  unfold Hart.wp; split <;> rfl
@[simp] theorem Hart.wp_trains (h : Hart) (n : Nat) (x : BitVec 2048) : (h.wp n x).trains = h.trains := by
  unfold Hart.wp; split <;> rfl
@[simp] theorem Hart.wp_reservation (h : Hart) (n : Nat) (x : BitVec 2048) : (h.wp n x).reservation = h.reservation := by
  unfold Hart.wp; split <;> rfl
@[simp] theorem Hart.wp_fetchBuf (h : Hart) (n : Nat) (x : BitVec 2048) : (h.wp n x).fetchBuf = h.fetchBuf := by
  unfold Hart.wp; split <;> rfl
@[simp] theorem Hart.wp_slots (h : Hart) (n : Nat) (x : BitVec 2048) : (h.wp n x).slots = h.slots := by
  unfold Hart.wp; split <;> rfl
@[simp] theorem Hart.wp_spareSlots (h : Hart) (n : Nat) (x : BitVec 2048) : (h.wp n x).spareSlots = h.spareSlots := by
  unfold Hart.wp; split <;> rfl
@[simp] theorem Hart.wp_tx (h : Hart) (n : Nat) (x : BitVec 2048) : (h.wp n x).tx = h.tx := by
  unfold Hart.wp; split <;> rfl
@[simp] theorem Hart.wp_lastBegin (h : Hart) (n : Nat) (x : BitVec 2048) : (h.wp n x).lastBegin = h.lastBegin := by
  unfold Hart.wp; split <;> rfl
@[simp] theorem Hart.wp_sleepTarget (h : Hart) (n : Nat) (x : BitVec 2048) : (h.wp n x).sleepTarget = h.sleepTarget := by
  unfold Hart.wp; split <;> rfl
@[simp] theorem Hart.wp_footprint (h : Hart) (n : Nat) (x : BitVec 2048) : (h.wp n x).footprint = h.footprint := by
  unfold Hart.wp; split <;> rfl
@[simp] theorem Hart.wp_marks (h : Hart) (n : Nat) (x : BitVec 2048) : (h.wp n x).marks = h.marks := by
  unfold Hart.wp; split <;> rfl
@[simp] theorem Hart.wp_deadline (h : Hart) (n : Nat) (x : BitVec 2048) : (h.wp n x).deadline = h.deadline := by
  unfold Hart.wp; split <;> rfl
@[simp] theorem Hart.wp_hostDirty (h : Hart) (n : Nat) (x : BitVec 2048) : (h.wp n x).hostDirty = h.hostDirty := by
  unfold Hart.wp; split <;> rfl
@[simp] theorem Hart.wp_placed (h : Hart) (n : Nat) (x : BitVec 2048) : (h.wp n x).placed = h.placed := by
  unfold Hart.wp; split <;> rfl
@[simp] theorem Hart.wp_age (h : Hart) (n : Nat) (x : BitVec 2048) : (h.wp n x).age = h.age := by
  unfold Hart.wp; split <;> rfl
@[simp] theorem Hart.wp_unselected (h : Hart) (n : Nat) (x : BitVec 2048) : (h.wp n x).unselected = h.unselected := by
  unfold Hart.wp; split <;> rfl
@[simp] theorem Hart.wp_serving (h : Hart) (n : Nat) (x : BitVec 2048) : (h.wp n x).serving = h.serving := by
  unfold Hart.wp; split <;> rfl
@[simp] theorem Hart.wp_graphs (h : Hart) (n : Nat) (x : BitVec 2048) : (h.wp n x).graphs = h.graphs := by
  unfold Hart.wp; split <;> rfl
@[simp] theorem Hart.wp_resumePc (h : Hart) (n : Nat) (x : BitVec 2048) : (h.wp n x).resumePc = h.resumePc := by
  unfold Hart.wp; split <;> rfl
@[simp] theorem Hart.wp_parkCause (h : Hart) (n : Nat) (x : BitVec 2048) : (h.wp n x).parkCause = h.parkCause := by
  unfold Hart.wp; split <;> rfl

@[simp] theorem Hart.setTile_id (h : Hart) (n : Nat) (t : Option Tile) : (h.setTile n t).id = h.id := by
  unfold Hart.setTile; split <;> rfl
@[simp] theorem Hart.setTile_run (h : Hart) (n : Nat) (t : Option Tile) : (h.setTile n t).run = h.run := by
  unfold Hart.setTile; split <;> rfl
@[simp] theorem Hart.setTile_held (h : Hart) (n : Nat) (t : Option Tile) : (h.setTile n t).held = h.held := by
  unfold Hart.setTile; split <;> rfl
@[simp] theorem Hart.setTile_x (h : Hart) (n : Nat) (t : Option Tile) : (h.setTile n t).x = h.x := by
  unfold Hart.setTile; split <;> rfl
@[simp] theorem Hart.setTile_pc (h : Hart) (n : Nat) (t : Option Tile) : (h.setTile n t).pc = h.pc := by
  unfold Hart.setTile; split <;> rfl
@[simp] theorem Hart.setTile_priv (h : Hart) (n : Nat) (t : Option Tile) : (h.setTile n t).priv = h.priv := by
  unfold Hart.setTile; split <;> rfl
@[simp] theorem Hart.setTile_sstatus (h : Hart) (n : Nat) (t : Option Tile) : (h.setTile n t).sstatus = h.sstatus := by
  unfold Hart.setTile; split <;> rfl
@[simp] theorem Hart.setTile_sie (h : Hart) (n : Nat) (t : Option Tile) : (h.setTile n t).sie = h.sie := by
  unfold Hart.setTile; split <;> rfl
@[simp] theorem Hart.setTile_ssip (h : Hart) (n : Nat) (t : Option Tile) : (h.setTile n t).ssip = h.ssip := by
  unfold Hart.setTile; split <;> rfl
@[simp] theorem Hart.setTile_stvec (h : Hart) (n : Nat) (t : Option Tile) : (h.setTile n t).stvec = h.stvec := by
  unfold Hart.setTile; split <;> rfl
@[simp] theorem Hart.setTile_sscratch (h : Hart) (n : Nat) (t : Option Tile) : (h.setTile n t).sscratch = h.sscratch := by
  unfold Hart.setTile; split <;> rfl
@[simp] theorem Hart.setTile_sepc (h : Hart) (n : Nat) (t : Option Tile) : (h.setTile n t).sepc = h.sepc := by
  unfold Hart.setTile; split <;> rfl
@[simp] theorem Hart.setTile_scause (h : Hart) (n : Nat) (t : Option Tile) : (h.setTile n t).scause = h.scause := by
  unfold Hart.setTile; split <;> rfl
@[simp] theorem Hart.setTile_stval (h : Hart) (n : Nat) (t : Option Tile) : (h.setTile n t).stval = h.stval := by
  unfold Hart.setTile; split <;> rfl
@[simp] theorem Hart.setTile_satp (h : Hart) (n : Nat) (t : Option Tile) : (h.setTile n t).satp = h.satp := by
  unfold Hart.setTile; split <;> rfl
@[simp] theorem Hart.setTile_scounteren (h : Hart) (n : Nat) (t : Option Tile) : (h.setTile n t).scounteren = h.scounteren := by
  unfold Hart.setTile; split <;> rfl
@[simp] theorem Hart.setTile_senvcfg (h : Hart) (n : Nat) (t : Option Tile) : (h.setTile n t).senvcfg = h.senvcfg := by
  unfold Hart.setTile; split <;> rfl
@[simp] theorem Hart.setTile_stimecmp (h : Hart) (n : Nat) (t : Option Tile) : (h.setTile n t).stimecmp = h.stimecmp := by
  unfold Hart.setTile; split <;> rfl
@[simp] theorem Hart.setTile_mstatusTw (h : Hart) (n : Nat) (t : Option Tile) : (h.setTile n t).mstatusTw = h.mstatusTw := by
  unfold Hart.setTile; split <;> rfl
@[simp] theorem Hart.setTile_vpal (h : Hart) (n : Nat) (t : Option Tile) : (h.setTile n t).vpal = h.vpal := by
  unfold Hart.setTile; split <;> rfl
@[simp] theorem Hart.setTile_vfrm (h : Hart) (n : Nat) (t : Option Tile) : (h.setTile n t).vfrm = h.vfrm := by
  unfold Hart.setTile; split <;> rfl
@[simp] theorem Hart.setTile_vfflags (h : Hart) (n : Nat) (t : Option Tile) : (h.setTile n t).vfflags = h.vfflags := by
  unfold Hart.setTile; split <;> rfl
@[simp] theorem Hart.setTile_vstart (h : Hart) (n : Nat) (t : Option Tile) : (h.setTile n t).vstart = h.vstart := by
  unfold Hart.setTile; split <;> rfl
@[simp] theorem Hart.setTile_vxmask (h : Hart) (n : Nat) (t : Option Tile) : (h.setTile n t).vxmask = h.vxmask := by
  unfold Hart.setTile; split <;> rfl
@[simp] theorem Hart.setTile_vmspill (h : Hart) (n : Nat) (t : Option Tile) : (h.setTile n t).vmspill = h.vmspill := by
  unfold Hart.setTile; split <;> rfl
@[simp] theorem Hart.setTile_vsptr (h : Hart) (n : Nat) (t : Option Tile) : (h.setTile n t).vsptr = h.vsptr := by
  unfold Hart.setTile; split <;> rfl
@[simp] theorem Hart.setTile_rstat (h : Hart) (n : Nat) (t : Option Tile) : (h.setTile n t).rstat = h.rstat := by
  unfold Hart.setTile; split <;> rfl
@[simp] theorem Hart.setTile_txstat (h : Hart) (n : Nat) (t : Option Tile) : (h.setTile n t).txstat = h.txstat := by
  unfold Hart.setTile; split <;> rfl
@[simp] theorem Hart.setTile_txdeadline (h : Hart) (n : Nat) (t : Option Tile) : (h.setTile n t).txdeadline = h.txdeadline := by
  unfold Hart.setTile; split <;> rfl
@[simp] theorem Hart.setTile_hinfo (h : Hart) (n : Nat) (t : Option Tile) : (h.setTile n t).hinfo = h.hinfo := by
  unfold Hart.setTile; split <;> rfl
@[simp] theorem Hart.setTile_awst (h : Hart) (n : Nat) (t : Option Tile) : (h.setTile n t).awst = h.awst := by
  unfold Hart.setTile; split <;> rfl
@[simp] theorem Hart.setTile_vl (h : Hart) (n : Nat) (t : Option Tile) : (h.setTile n t).vl = h.vl := by
  unfold Hart.setTile; split <;> rfl
@[simp] theorem Hart.setTile_vgrant (h : Hart) (n : Nat) (t : Option Tile) : (h.setTile n t).vgrant = h.vgrant := by
  unfold Hart.setTile; split <;> rfl
@[simp] theorem Hart.setTile_coord (h : Hart) (n : Nat) (t : Option Tile) : (h.setTile n t).coord = h.coord := by
  unfold Hart.setTile; split <;> rfl
@[simp] theorem Hart.setTile_stage (h : Hart) (n : Nat) (t : Option Tile) : (h.setTile n t).stage = h.stage := by
  unfold Hart.setTile; split <;> rfl
@[simp] theorem Hart.setTile_launchTag (h : Hart) (n : Nat) (t : Option Tile) : (h.setTile n t).launchTag = h.launchTag := by
  unfold Hart.setTile; split <;> rfl
@[simp] theorem Hart.setTile_xfbase (h : Hart) (n : Nat) (t : Option Tile) : (h.setTile n t).xfbase = h.xfbase := by
  unfold Hart.setTile; split <;> rfl
@[simp] theorem Hart.setTile_vfpc (h : Hart) (n : Nat) (t : Option Tile) : (h.setTile n t).vfpc = h.vfpc := by
  unfold Hart.setTile; split <;> rfl
@[simp] theorem Hart.setTile_vfcause (h : Hart) (n : Nat) (t : Option Tile) : (h.setTile n t).vfcause = h.vfcause := by
  unfold Hart.setTile; split <;> rfl
@[simp] theorem Hart.setTile_vfaddr (h : Hart) (n : Nat) (t : Option Tile) : (h.setTile n t).vfaddr = h.vfaddr := by
  unfold Hart.setTile; split <;> rfl
@[simp] theorem Hart.setTile_trroute (h : Hart) (n : Nat) (t : Option Tile) : (h.setTile n t).trroute = h.trroute := by
  unfold Hart.setTile; split <;> rfl
@[simp] theorem Hart.setTile_hbase (h : Hart) (n : Nat) (t : Option Tile) : (h.setTile n t).hbase = h.hbase := by
  unfold Hart.setTile; split <;> rfl
@[simp] theorem Hart.setTile_sbase (h : Hart) (n : Nat) (t : Option Tile) : (h.setTile n t).sbase = h.sbase := by
  unfold Hart.setTile; split <;> rfl
@[simp] theorem Hart.setTile_instret (h : Hart) (n : Nat) (t : Option Tile) : (h.setTile n t).instret = h.instret := by
  unfold Hart.setTile; split <;> rfl
@[simp] theorem Hart.setTile_v (h : Hart) (n : Nat) (t : Option Tile) : (h.setTile n t).v = h.v := by
  unfold Hart.setTile; split <;> rfl
@[simp] theorem Hart.setTile_p (h : Hart) (n : Nat) (t : Option Tile) : (h.setTile n t).p = h.p := by
  unfold Hart.setTile; split <;> rfl
@[simp] theorem Hart.setTile_vmsp (h : Hart) (n : Nat) (t : Option Tile) : (h.setTile n t).vmsp = h.vmsp := by
  unfold Hart.setTile; split <;> rfl
@[simp] theorem Hart.setTile_masks (h : Hart) (n : Nat) (t : Option Tile) : (h.setTile n t).masks = h.masks := by
  unfold Hart.setTile; split <;> rfl
@[simp] theorem Hart.setTile_st (h : Hart) (n : Nat) (t : Option Tile) : (h.setTile n t).st = h.st := by
  unfold Hart.setTile; split <;> rfl
@[simp] theorem Hart.setTile_bindings (h : Hart) (n : Nat) (t : Option Tile) : (h.setTile n t).bindings = h.bindings := by
  unfold Hart.setTile; split <;> rfl
@[simp] theorem Hart.setTile_q (h : Hart) (n : Nat) (t : Option Tile) : (h.setTile n t).q = h.q := by
  unfold Hart.setTile; split <;> rfl
@[simp] theorem Hart.setTile_lq (h : Hart) (n : Nat) (t : Option Tile) : (h.setTile n t).lq = h.lq := by
  unfold Hart.setTile; split <;> rfl
@[simp] theorem Hart.setTile_vq (h : Hart) (n : Nat) (t : Option Tile) : (h.setTile n t).vq = h.vq := by
  unfold Hart.setTile; split <;> rfl
@[simp] theorem Hart.setTile_mq (h : Hart) (n : Nat) (t : Option Tile) : (h.setTile n t).mq = h.mq := by
  unfold Hart.setTile; split <;> rfl
@[simp] theorem Hart.setTile_cq (h : Hart) (n : Nat) (t : Option Tile) : (h.setTile n t).cq = h.cq := by
  unfold Hart.setTile; split <;> rfl
@[simp] theorem Hart.setTile_seq (h : Hart) (n : Nat) (t : Option Tile) : (h.setTile n t).seq = h.seq := by
  unfold Hart.setTile; split <;> rfl
@[simp] theorem Hart.setTile_faults (h : Hart) (n : Nat) (t : Option Tile) : (h.setTile n t).faults = h.faults := by
  unfold Hart.setTile; split <;> rfl
@[simp] theorem Hart.setTile_frame (h : Hart) (n : Nat) (t : Option Tile) : (h.setTile n t).frame = h.frame := by
  unfold Hart.setTile; split <;> rfl
@[simp] theorem Hart.setTile_groupA (h : Hart) (n : Nat) (t : Option Tile) : (h.setTile n t).groupA = h.groupA := by
  unfold Hart.setTile; split <;> rfl
@[simp] theorem Hart.setTile_groupB (h : Hart) (n : Nat) (t : Option Tile) : (h.setTile n t).groupB = h.groupB := by
  unfold Hart.setTile; split <;> rfl
@[simp] theorem Hart.setTile_window (h : Hart) (n : Nat) (t : Option Tile) : (h.setTile n t).window = h.window := by
  unfold Hart.setTile; split <;> rfl
@[simp] theorem Hart.setTile_trains (h : Hart) (n : Nat) (t : Option Tile) : (h.setTile n t).trains = h.trains := by
  unfold Hart.setTile; split <;> rfl
@[simp] theorem Hart.setTile_reservation (h : Hart) (n : Nat) (t : Option Tile) : (h.setTile n t).reservation = h.reservation := by
  unfold Hart.setTile; split <;> rfl
@[simp] theorem Hart.setTile_fetchBuf (h : Hart) (n : Nat) (t : Option Tile) : (h.setTile n t).fetchBuf = h.fetchBuf := by
  unfold Hart.setTile; split <;> rfl
@[simp] theorem Hart.setTile_slots (h : Hart) (n : Nat) (t : Option Tile) : (h.setTile n t).slots = h.slots := by
  unfold Hart.setTile; split <;> rfl
@[simp] theorem Hart.setTile_spareSlots (h : Hart) (n : Nat) (t : Option Tile) : (h.setTile n t).spareSlots = h.spareSlots := by
  unfold Hart.setTile; split <;> rfl
@[simp] theorem Hart.setTile_tx (h : Hart) (n : Nat) (t : Option Tile) : (h.setTile n t).tx = h.tx := by
  unfold Hart.setTile; split <;> rfl
@[simp] theorem Hart.setTile_lastBegin (h : Hart) (n : Nat) (t : Option Tile) : (h.setTile n t).lastBegin = h.lastBegin := by
  unfold Hart.setTile; split <;> rfl
@[simp] theorem Hart.setTile_sleepTarget (h : Hart) (n : Nat) (t : Option Tile) : (h.setTile n t).sleepTarget = h.sleepTarget := by
  unfold Hart.setTile; split <;> rfl
@[simp] theorem Hart.setTile_footprint (h : Hart) (n : Nat) (t : Option Tile) : (h.setTile n t).footprint = h.footprint := by
  unfold Hart.setTile; split <;> rfl
@[simp] theorem Hart.setTile_marks (h : Hart) (n : Nat) (t : Option Tile) : (h.setTile n t).marks = h.marks := by
  unfold Hart.setTile; split <;> rfl
@[simp] theorem Hart.setTile_deadline (h : Hart) (n : Nat) (t : Option Tile) : (h.setTile n t).deadline = h.deadline := by
  unfold Hart.setTile; split <;> rfl
@[simp] theorem Hart.setTile_hostDirty (h : Hart) (n : Nat) (t : Option Tile) : (h.setTile n t).hostDirty = h.hostDirty := by
  unfold Hart.setTile; split <;> rfl
@[simp] theorem Hart.setTile_placed (h : Hart) (n : Nat) (t : Option Tile) : (h.setTile n t).placed = h.placed := by
  unfold Hart.setTile; split <;> rfl
@[simp] theorem Hart.setTile_age (h : Hart) (n : Nat) (t : Option Tile) : (h.setTile n t).age = h.age := by
  unfold Hart.setTile; split <;> rfl
@[simp] theorem Hart.setTile_unselected (h : Hart) (n : Nat) (t : Option Tile) : (h.setTile n t).unselected = h.unselected := by
  unfold Hart.setTile; split <;> rfl
@[simp] theorem Hart.setTile_serving (h : Hart) (n : Nat) (t : Option Tile) : (h.setTile n t).serving = h.serving := by
  unfold Hart.setTile; split <;> rfl
@[simp] theorem Hart.setTile_graphs (h : Hart) (n : Nat) (t : Option Tile) : (h.setTile n t).graphs = h.graphs := by
  unfold Hart.setTile; split <;> rfl
@[simp] theorem Hart.setTile_resumePc (h : Hart) (n : Nat) (t : Option Tile) : (h.setTile n t).resumePc = h.resumePc := by
  unfold Hart.setTile; split <;> rfl
@[simp] theorem Hart.setTile_parkCause (h : Hart) (n : Nat) (t : Option Tile) : (h.setTile n t).parkCause = h.parkCause := by
  unfold Hart.setTile; split <;> rfl

/-! ## Reading a register after a write -/

@[simp] theorem Hart.rx_zero (h : Hart) : h.rx 0#5 = 0#64 := rfl

theorem Hart.rx_wx_same (h : Hart) (r : Reg) (v : Word) : (h.wx r v).rx r = if r = 0#5 then 0#64 else v := by
  by_cases h0 : r = 0#5
  · simp [Hart.rx, h0]
  · simp [Hart.wx, Hart.rx, h0]

theorem Hart.rx_wx_other (h : Hart) (r q : Reg) (v : Word) (hq : q ≠ r) : (h.wx r v).rx q = h.rx q := by
  unfold Hart.wx Hart.rx
  split
  · rfl
  · split
    · rfl
    · exact Vector.getElem_set_ne r.isLt q.isLt fun e => hq (BitVec.eq_of_toNat_eq e).symm

theorem Hart.rv_wv_same (h : Hart) (r : Nat) (x : BitVec 16384) (hr : r < 32) : (h.wv r x).rv r = x := by
  simp [Hart.wv, Hart.rv, hr]

theorem Hart.rv_wv_other (h : Hart) (r q : Nat) (x : BitVec 16384) (hq : q ≠ r) : (h.wv r x).rv q = h.rv q := by
  unfold Hart.wv Hart.rv
  split
  · simp [List.getD_eq_getElem?_getD, Ne.symm hq]
  · rfl

theorem Hart.rv_outside (h : Hart) (r : Nat) (hr : 32 ≤ r) : h.rv r = 0#16384 := by
  simp [Hart.rv, List.getD_eq_getElem?_getD, hr]

@[simp] theorem Hart.rp_zero (h : Hart) : h.rp 0 = BitVec.allOnes 2048 := rfl

theorem Hart.rp_wp_same (h : Hart) (n : Nat) (x : BitVec 2048) (h0 : 0 < n) (hn : n < 16) : (h.wp n x).rp n = x := by
  simp [Hart.wp, Hart.rp, h0, hn, Nat.ne_of_gt h0]

theorem Hart.rp_wp_other (h : Hart) (n m : Nat) (x : BitVec 2048) (hm : m ≠ n) : (h.wp n x).rp m = h.rp m := by
  unfold Hart.wp Hart.rp
  split
  · rfl
  · split
    · simp [List.getD_eq_getElem?_getD, Ne.symm hm]
    · rfl

theorem Hart.rx_of_x (h k : Hart) (r : Reg) (e : k.x = h.x) : k.rx r = h.rx r := by
  unfold Hart.rx; rw [e]

theorem Hart.tile_setTile_same (h : Hart) (n : Nat) (t : Option Tile) (hn : n < 8) : (h.setTile n t).tile n = t := by
  simp [Hart.setTile, Hart.tile, hn]

theorem Hart.tile_setTile_other (h : Hart) (n m : Nat) (t : Option Tile) (hm : m ≠ n) :
    (h.setTile n t).tile m = h.tile m := by
  unfold Hart.setTile Hart.tile
  split
  · simp [List.getD_eq_getElem?_getD, Ne.symm hm]
  · rfl

end Sys2Proof.Machine
end

