-- ==== Sys2Proof/Laws/Ops.lean ====
section
/-! SUPPORT. What each shared operation of Machine/Ops.lean does, said once: the effects, one access to memory, the
translation that a TLB holds, the trap, and the runner. -/

namespace Sys2Proof.Machine

/-! ## Effects -/

theorem M.bind_apply {α β : Type} (m : M α) (f : α → M β) (s : State) :
    (m >>= f) s = match m s with
      | .ok a t => f a t
      | .error e t => .error e t := by
  show EStateM.bind m f s = _
  unfold EStateM.bind
  cases m s <;> rfl

@[simp] theorem M.pure_apply {α : Type} (a : α) (s : State) : (pure a : M α) s = .ok a s := rfl
@[simp] theorem M.throw_apply {α : Type} (e : Exit) (s : State) : (throw e : M α) s = .error e s := rfl
@[simp] theorem M.get_apply (s : State) : (get : M State) s = .ok s s := rfl
@[simp] theorem M.set_apply (s t : State) : (set t : M PUnit) s = .ok ⟨⟩ t := rfl
@[simp] theorem M.modify_apply (f : State → State) (s : State) : (modify f : M PUnit) s = .ok ⟨⟩ (f s) := rfl

theorem M.bind_ok {α β : Type} {m : M α} {f : α → M β} {s t : State} {a : α} (h : m s = .ok a t) :
    (m >>= f) s = f a t := by rw [M.bind_apply, h]

theorem M.bind_error {α β : Type} {m : M α} {f : α → M β} {s t : State} {e : Exit} (h : m s = .error e t) :
    (m >>= f) s = .error e t := by rw [M.bind_apply, h]

/-- What an effect that completed did first, and what it did then. -/
theorem M.bind_ok_cases {α β : Type} {m : M α} {f : α → M β} {s u : State} {b : β} (h : (m >>= f) s = .ok b u) :
    ∃ a t, m s = .ok a t ∧ f a t = .ok b u := by
  rw [M.bind_apply] at h
  cases e : m s with
  | ok a t => rw [e] at h; exact ⟨a, t, rfl, h⟩
  | error x t => rw [e] at h; cases h

@[simp] theorem getH_apply (s : State) : getH s = .ok s.hart s := rfl
@[simp] theorem modH_apply (f : Hart → Hart) (s : State) : modH f s = .ok () { s with hart := f s.hart } := rfl
@[simp] theorem trap_apply {α : Type} (c : Nat) (v : Word) (s : State) :
    (trap c v : M α) s = .error (.trap { cause := c, tval := v, vf := none }) s := rfl
@[simp] theorem hold_apply {α : Type} (w : Held) (s : State) : (hold w : M α) s = .error (.held w) s := rfl
@[simp] theorem readX_apply (r : Reg) (s : State) : readX r s = .ok (s.hart.rx r) s := rfl
@[simp] theorem writeX_apply (r : Reg) (v : Word) (s : State) : writeX r v s = .ok () (s.wx r v) := rfl
@[simp] theorem advance_apply (n : Nat) (s : State) : Machine.advance n s = .ok () (s.advance n) := rfl
@[simp] theorem jump_apply (a : Word) (s : State) : Machine.jump a s = .ok () (s.jump a) := rfl
@[simp] theorem forM'_nil {α : Type} (f : α → M Unit) (s : State) : forM' f [] s = .ok () s := rfl
theorem forM'_cons {α : Type} (f : α → M Unit) (a : α) (l : List α) : forM' f (a :: l) = (do f a; forM' f l) := rfl

/-- An effect that changes nothing on any element changes nothing on a list. -/
theorem forM'_same {α : Type} {f : α → M Unit} {s : State} {l : List α} (h : ∀ a, a ∈ l → f a s = .ok () s) :
    forM' f l s = .ok () s := by
  induction l with
  | nil => rfl
  | cons a l ih =>
    rw [forM'_cons, M.bind_ok (h a (List.mem_cons_self ..))]
    exact ih fun b hb => h b (List.mem_cons_of_mem _ hb)

/-! ## The runner -/

theorem runScalar_ok {m : M Unit} {s t : State} (h : m s = .ok () t) : runScalar m s = .next t.goesOn := by
  unfold runScalar; rw [h]

theorem runScalar_error {m : M Unit} {s t : State} {e : Exit} (h : m s = .error e t) : runScalar m s = s.ended e t := by
  unfold runScalar; rw [h]

/-- A scalar instruction always gives a next state unless its effect stops by a name. -/
theorem runScalar_next {m : M Unit} {s : State} (h : ∀ x t, m s = .error x t → (∀ f, x ≠ .stop f) ∧ ∀ r, x ≠ .refuse r) :
    ∃ t, runScalar m s = .next t := by
  unfold runScalar
  cases e : m s with
  | ok a t => exact ⟨_, rfl⟩
  | error x t =>
    obtain ⟨h1, h2⟩ := h x t e
    cases x with
    | stop f => exact absurd rfl (h1 f)
    | refuse r => exact absurd rfl (h2 r)
    | trap f => exact ⟨_, rfl⟩
    | mem f => exact ⟨_, rfl⟩
    | stream a b c d => exact ⟨_, rfl⟩
    | held w => exact ⟨_, rfl⟩
    | abort a b => exact ⟨_, rfl⟩
    | conflict l => exact ⟨_, rfl⟩

/-- An instruction whose effect is to write rd and to move on. -/
theorem runScalar_result (r : Reg) (v : Word) (s : State) {m : M Unit}
    (h : m s = .ok () ((s.wx r v).advance 4)) :
    reaches (runScalar m s) fun t => setsReg s t r v ∧ movesOn s t 4 ∧ scalarOnly s t := by
  rw [runScalar_ok h]
  refine ⟨_, rfl, ⟨?_, ?_⟩, ?_, ?_⟩
  · exact (Hart.rx_of_x (s.hart.wx r v) _ r rfl).trans (Hart.rx_wx_same s.hart r v)
  · intro q hq
    exact (Hart.rx_of_x (s.hart.wx r v) _ q rfl).trans (Hart.rx_wx_other s.hart r q v hq)
  · simp [movesOn]
  · unfold scalarOnly State.goesOn State.advance State.wx Hart.wx
    split <;> rfl

theorem drain_drained {s : State} (h : s.hart.drained = true) : drain s = .ok () s := by
  unfold drain; rw [M.bind_ok (getH_apply s)]; simp [h]

theorem drain_waits {s : State} (h : s.hart.drained = false) : drain s = .error (.held .drain) s := by
  unfold drain; rw [M.bind_ok (getH_apply s)]; simp [h]

theorem abortIfTx_outside {c : Nat} {s : State} (h : s.hart.tx = none) : abortIfTx c s = .ok () s := by
  unfold abortIfTx; rw [M.bind_ok (getH_apply s)]; simp [h]

theorem abortIfTx_inside {c : Nat} {s : State} (h : s.hart.tx.isSome = true) : abortIfTx c s = .error (.abort c 0) s := by
  unfold abortIfTx; rw [M.bind_ok (getH_apply s)]; simp [h]

/-! ## Taking a trap -/

theorem Hart.detach_detached {h : Hart} (d : h.detached = true) : h.detach = h := by
  unfold Hart.detach; rw [if_pos d]

/-- A field of one bit written at one place reads back there, and the others stay. -/
theorem setField_bit (v : Word) (lo n k : Nat) (hk : k < 64) :
    (setField v lo 1 n).getLsbD k = if k = lo then n.testBit 0 else v.getLsbD k := by
  have a1 : ∀ x : Nat, (BitVec.ofNat 64 x).getLsbD k = x.testBit k := fun x => by
    rw [BitVec.getLsbD_ofNat]; simp [hk]
  unfold setField
  simp only [BitVec.getLsbD_or, BitVec.getLsbD_and, BitVec.getLsbD_not, hk, a1, decide_true, Bool.true_and]
  simp only [Nat.pow_one, Nat.add_one_sub_one, Nat.one_mul, Nat.testBit_two_pow, Nat.testBit_mul_two_pow]
  by_cases e : k = lo
  · subst e; simp [Nat.testBit_zero]
  · have e' : ¬ lo = k := fun h => e h.symm
    simp only [e, e', if_false, decide_false, Bool.not_false, Bool.and_true]
    by_cases hl : lo ≤ k
    · have hz : Nat.testBit (n % 2) (k - lo) = false := Nat.testBit_lt_two_pow (by
        have : 2 ^ 1 ≤ 2 ^ (k - lo) := Nat.pow_le_pow_right (by decide) (by omega)
        have := Nat.mod_lt n (show 0 < 2 by decide)
        omega)
      simp [hz]
    · simp [hl]

theorem fieldOf_bit (v : Word) (lo : Nat) : (fieldOf v lo 1).testBit 0 = v.getLsbD lo := by
  unfold fieldOf
  rw [BitVec.testBit_toNat, BitVec.getLsbD_extractLsb']
  simp

/-- What entering S mode for an exception makes of the hart (R368). -/
theorem Hart.enterS_exception (h : Hart) (cause : Nat) :
    h.enterS false cause = { h with
      sstatus := (h.enterS false cause).sstatus, priv := .supervisor, run := .running, fetchBuf := [],
      pc := h.stvec &&& ~~~3#64 } ∧
    ∀ k, k < 64 → (h.enterS false cause).sstatus.getLsbD k =
      if k = 8 then decide (h.priv = .supervisor) else if k = 1 then false
      else if k = 5 then h.sstatus.getLsbD 1 else h.sstatus.getLsbD k := by
  refine ⟨rfl, fun k hk => ?_⟩
  show (setField (setField (setField h.sstatus 5 1 (fieldOf h.sstatus 1 1)) 1 1 0) 8 1
    (if h.priv = .supervisor then 1 else 0)).getLsbD k = _
  rw [setField_bit _ _ _ _ hk, setField_bit _ _ _ _ hk, setField_bit _ _ _ _ hk, fieldOf_bit]
  by_cases p : h.priv = .supervisor <;> simp [p]

theorem Hart.detach_keeps (h : Hart) :
    h.detach.priv = h.priv ∧ h.detach.sstatus = h.sstatus ∧ h.detach.stvec = h.stvec ∧ h.detach.x = h.x ∧
    h.detach.vfcause = h.vfcause := by
  unfold Hart.detach; split <;> simp

/-- The hart as a fault of the scalar stream records it, before it enters S mode. -/
def Hart.trapped (h : Hart) (cause : Nat) (tval : Word) : Hart :=
  let t : Trap := { cause := cause, tval := tval, vf := none }
  let r0 := { h.detach with held := none, reservation := none, acquiring := [] }.recordTrap false t h.pc (!h.faults.isEmpty)
  { r0 with frame := r0.frame.map fun f => f.atTrap r0 t }

/-- A fault of the scalar stream that goes to the hart's own S mode and names no stream: where it goes and what it
records; with nothing to detach, that is its whole effect (R364, R368). -/
theorem fault_entersS (s : State) (cause : Nat) (tval : Word) (h : s.trapsHere cause tval) :
    let t := s.fault { cause := cause, tval := tval, vf := none } s.hart.pc
    entersS s t cause tval ∧
    t.hart.vfcause = (if cause < 24 then s.hart.vfcause else setField s.hart.vfcause 24 8 cause) ∧
    (s.hart.detached = true → trapOnly s t) := by
  obtain ⟨htx, hfr, h48, h26, hrt⟩ := h
  have toL : s.hart.toLantern false { cause := cause, tval := tval, vf := none } = false := by
    unfold Hart.toLantern
    simp only [hfr, Option.isSome_none, Bool.false_or, Bool.not_false, Bool.true_and, hrt, Bool.or_false]
    rw [Bool.or_eq_false_iff]
    refine ⟨by simpa using h48, ?_⟩
    simp only [Bool.and_eq_false_imp, beq_iff_eq]
    intro a; simpa using fun b => h26 ⟨a, b⟩
  have e : s.fault { cause := cause, tval := tval, vf := none } s.hart.pc =
      { s.dropReads s.hart.id with hart := (s.hart.trapped cause tval).enterS false cause } := by
    unfold State.fault State.takeTrap
    simp only [htx, hfr, Option.isSome_none, Bool.false_eq_true, if_false, toL]
    rfl
  intro t
  obtain ⟨k1, k2, k3, -, k5⟩ := s.hart.detach_keeps
  refine ⟨?_, ?_, ?_⟩
  · show entersS s (s.fault { cause := cause, tval := tval, vf := none } s.hart.pc) cause tval
    rw [e]
    have b := ((s.hart.trapped cause tval).enterS_exception cause).2
    have p1 : (s.hart.trapped cause tval).priv = s.hart.priv := k1
    have p2 : (s.hart.trapped cause tval).sstatus = s.hart.sstatus := k2
    rw [p1, p2] at b
    refine ⟨rfl, ?_, rfl, ?_, rfl, ?_, ?_, ?_, ?_, rfl, rfl, rfl, rfl⟩
    · show (s.hart.detach.stvec &&& ~~~3#64) = _
      rw [k3]
    · show wordOf cause ||| 0#64 = _
      simp [wordOf]
    · exact b 8 (by decide)
    · exact b 5 (by decide)
    · exact b 1 (by decide)
    · intro k n8 n5 n1
      by_cases hk : k < 64
      · refine (b k hk).trans ?_; simp [n8, n5, n1]
      · rw [BitVec.getLsbD_of_ge _ _ (Nat.le_of_not_lt hk), BitVec.getLsbD_of_ge _ _ (Nat.le_of_not_lt hk)]
  · show (s.fault { cause := cause, tval := tval, vf := none } s.hart.pc).hart.vfcause = _
    rw [e]
    show ((s.hart.trapped cause tval).enterS false cause).vfcause = _
    unfold Hart.trapped Hart.enterS
    by_cases c : cause < 24
    · simp [Hart.recordTrap, c, Nat.not_le.mpr c, k5]
    · simp [Hart.recordTrap, c, Nat.not_lt.mp c, k5]
  · intro hd
    show trapOnly s (s.fault { cause := cause, tval := tval, vf := none } s.hart.pc)
    rw [e]
    unfold trapOnly Hart.trapped
    rw [Hart.detach_detached hd]
    simp [Hart.recordTrap, Hart.enterS, hfr]

/-- An instruction whose outcome is such a fault traps. -/
theorem trapsWith_of_fault {i : Instr} {s : State} {cause : Nat} {tval : Word}
    (e : exec i s = .next (s.fault { cause := cause, tval := tval, vf := none } s.hart.pc)) (h : s.trapsHere cause tval) :
    trapsWith i s cause tval := ⟨_, e, fault_entersS s cause tval h⟩

end Sys2Proof.Machine
end

