-- ==== Sys2Proof/Laws/Access.lean ====
section
/-! SUPPORT. Accesses that succeed: what a translation changes, what a load and a store of bytes in one line do. -/

namespace Sys2Proof.Machine

/-! ## Translation -/

/-- A translation changes page-table entries and TLBs, notes what it has done, and its writes of entries mean to the harts
and to those that wait what any write of a line means. -/
def translationOnly (s t : State) : Prop :=
  t = { s with
    mem := t.mem, cores := t.cores, clusters := t.clusters, walks := t.walks, hart := t.hart, others := t.others,
    inbox := t.inbox }

theorem translationOnly_refl (s : State) : translationOnly s s := rfl

theorem translationOnly_trans {s t u : State} (h : translationOnly s t) (k : translationOnly t u) :
    translationOnly s u := by
  unfold translationOnly at *
  rw [k, h]

/-- What a walker's note has done: at most one page-table entry written. -/
def walkerOnly (s t : State) : Prop :=
  translationOnly s t ∧ (t.mem = s.mem ∨ ∃ addr v, t.mem = s.mem.write addr 8 v)

theorem modTlbs_only (s : State) (a : Option CoreId) (b : Option ClusterId) (f g : List TlbEntry → List TlbEntry) :
    translationOnly s (s.modTlbs a b f g) ∧ (s.modTlbs a b f g).mem = s.mem := by
  unfold translationOnly State.modTlbs State.modCore State.modCluster State.setCore State.setCluster
  cases a <;> cases b <;> exact ⟨rfl, rfl⟩

theorem noteWalk_only (s : State) (self : Option HartId) (l : Nat) :
    translationOnly s (s.noteWalk self l) ∧ (s.noteWalk self l).mem = s.mem := ⟨rfl, rfl⟩

/-- A note is none, or what the walker did and a record of it. -/
theorem noteTlb_cases (s : State) (w : WalkNote) :
    s.noteTlb w = s ∨ s.noteTlb w = { s.walked w with walks := s.walks ++ [w] } := by
  unfold State.noteTlb; split
  · exact .inl rfl
  · exact .inr rfl

theorem noteTlb_only (s : State) (w : WalkNote) : walkerOnly s (s.noteTlb w) := by
  unfold walkerOnly
  rcases noteTlb_cases s w with e | e <;> rw [e]
  · exact ⟨rfl, .inl rfl⟩
  have note : translationOnly (s.walked w) { s.walked w with walks := s.walks ++ [w] } := rfl
  refine ⟨translationOnly_trans ?_ note, ?_⟩ <;> unfold State.walked <;> split
  · exact (modTlbs_only _ _ _ _ _).1
  · simp only
    refine translationOnly_trans ?_ (modTlbs_only _ _ _ _ _).1
    split
    · rfl
    · rfl
  · exact .inl (modTlbs_only _ _ _ _ _).2
  · simp only
    rw [(modTlbs_only _ _ _ _ _).2]
    split
    · exact .inl rfl
    · exact .inr ⟨_, _, rfl⟩

/-- What a walk that ends in a translation has done. -/
theorem walk_cases {s t : State} {c : TransCtx} {l : Nat} {va : Word} {a : Access} {x : Translation}
    (h : walk s c l va a = .ok (x, t)) : walkerOnly s t := by
  unfold walk at h
  simp only at h
  split at h
  · split at h
    · simp only [Except.ok.injEq, Prod.mk.injEq] at h
      obtain ⟨-, rfl⟩ := h
      exact noteTlb_only _ _
    · cases h
  · cases h
  · cases h

/-- What a translation that succeeds has done: at most an entry dropped before its walk. -/
theorem translate_cases {s t : State} {c : TransCtx} {va : Word} {a : Access} {x : Translation}
    (h : translate s c va a = .ok (x, t)) : walkerOnly s t := by
  have same : ∀ {x y : Translation}, (Except.ok (x, s) : Except (MemFault × State) (Translation × State)) = .ok (y, t) →
      walkerOnly s t := by
    intro x y e
    simp only [Except.ok.injEq, Prod.mk.injEq] at e
    rw [← e.2]; exact ⟨rfl, .inl rfl⟩
  have drop : ∀ k m e, translationOnly s (s.noteTlb (.drop k m e)) ∧ (s.noteTlb (.drop k m e)).mem = s.mem := fun k m e =>
    ⟨(noteTlb_only s _).1, by rcases noteTlb_cases s (.drop k m e) with h | h <;> rw [h]; exact (modTlbs_only s k m _ _).2⟩
  unfold translate at h
  split at h
  · split at h
    · exact same h
    · cases h
  · split at h
    · cases h
    · split at h
      · split at h
        · rename_i e _
          split at h
          · exact same h
          · obtain ⟨k, m⟩ := walk_cases h
            obtain ⟨d1, d2⟩ := drop c.core c.cluster e
            rw [d2] at m
            exact ⟨translationOnly_trans d1 k, m⟩
        · exact walk_cases h
      · cases h

theorem translate_keeps_wf {s t : State} {c : TransCtx} {va : Word} {a : Access} {x : Translation} (i : s.Inv)
    (h : translate s c va a = .ok (x, t)) : t.Inv := by
  unfold State.Inv at *
  rcases (translate_cases h).2 with e | ⟨addr, v, e⟩
  · rw [e]; exact i
  · rw [e]; exact Memory.wf_write addr 8 v i

theorem translateM_ok {s t : State} {c : TransCtx} {va : Word} {a : Access} {x : Translation}
    (h : translate s c va a = .ok (x, t)) : translateM c va a s = .ok x t := by
  unfold translateM
  rw [M.bind_ok (M.get_apply s)]
  simp only [h]
  rw [M.bind_ok (M.set_apply s t)]
  rfl

theorem translateM_error {s t : State} {c : TransCtx} {va : Word} {a : Access} {f : MemFault}
    (h : translate s c va a = .error (f, t)) : translateM c va a s = .error (.mem f) t := by
  unfold translateM
  rw [M.bind_ok (M.get_apply s)]
  simp only [h]
  rw [M.bind_ok (M.set_apply s t)]
  rfl

/-- An address whose translation the gang window or a TLB holds is translated with no change. -/
theorem translate_held {s : State} {c : TransCtx} {va : Word} {a : Access} {pa : Nat} (h : s.heldFor c a va = some pa) :
    ∃ skew, translate s c va a = .ok ({ pa := pa, skew := skew }, s) := by
  unfold State.heldFor at h
  unfold translate
  cases hw : c.windowOff va with
  | some off =>
    simp only [hw] at h ⊢
    cases hg : c.gang.bind s.gang with
    | none => simp [hg] at h
    | some g =>
      simp only [hg, Option.bind_some] at h ⊢
      simp only [h]
      exact ⟨0, rfl⟩
  | none =>
    simp only [hw] at h ⊢
    cases hl : satpLevels c.satp with
    | none => simp [hl] at h
    | some levels =>
      simp only [hl] at h ⊢
      by_cases hc : canonical levels va = true
      · rw [if_pos hc] at h ⊢
        cases he : (s.tlb c).find? fun e => e.hits (fieldOf c.satp 44 16) va with
        | none => simp [he] at h
        | some e =>
          simp only [he, Option.bind_some] at h ⊢
          by_cases hp : permits c a e.read e.write e.exec e.user e.dup = true ∧ (a = .store → e.dirty = true)
          · rw [if_pos hp]
            split at h
            · simp only [Option.some.injEq] at h
              rw [h]; exact ⟨_, rfl⟩
            · cases h
          · exfalso
            split at h
            · rename_i k
              apply hp
              simpa [Bool.and_eq_true, or_iff_not_imp_left] using k
            · cases h
      · rw [if_neg hc] at h; cases h

/-! ## Bytes in one line -/

theorem pieces_one {va : Word} {n : Nat} (h0 : 0 < n) (h : va.toNat % 128 + n ≤ 128) : pieces va n = [(va, n)] := by
  unfold pieces piecesFrom
  rw [if_neg (by omega)]
  simp only
  have hk : min n (128 - va.toNat % 128) = n := by omega
  rw [hk, Nat.sub_self]
  have : ∀ f w, piecesFrom f w 0 = [] := by intro f w; cases f <;> simp [piecesFrom]
  rw [this]

theorem linesOf_one {pa n : Nat} (h0 : 0 < n) (h : pa % 128 + n ≤ 128) : linesOf pa n = [pa / 128] := by
  unfold linesOf
  have : (pa + n + 127) / 128 - pa / 128 = 1 := by omega
  rw [this]; simp

theorem appendedTo_idle {h : Hart} (i : h.streamsIdle) : h.appendedTo = [] := by
  unfold Hart.appendedTo
  rw [List.filter_eq_nil_iff]
  intro k _
  unfold Hart.streamsIdle at i
  rw [List.all_eq_true] at i
  cases e : h.st.toList[k]? with
  | none => simp
  | some r =>
    have := i r (List.mem_of_getElem? e)
    simp only [Bool.and_eq_true] at this
    simp [this.2]

theorem settleStreams_idle {p : Party} {s : State} (h : s.hart.streamsIdle) : settleStreams p s = .ok () s := by
  unfold settleStreams
  rw [M.bind_ok (M.get_apply s)]
  simp [appendedTo_idle h]

theorem dropAhead_idle {p : Party} {s : State} (h : s.hart.streamsIdle) : dropAhead p s = .ok () s := by
  unfold dropAhead
  rw [M.bind_ok (getH_apply s)]
  have : (s.hart.st.toList.any fun r => !r.ahead.isEmpty) = false := by
    rw [List.any_eq_false]
    intro r hr
    unfold Hart.streamsIdle at h
    rw [List.all_eq_true] at h
    have := h r hr
    simp only [Bool.and_eq_true] at this
    simp [this.1]
  simp [this]

/-- Any party may access what memory serves. -/
theorem checkPa_served {s : State} {p : Party} {a : Access} {va : Word} {pa : Nat} (nat : Bool) (h : s.served pa) :
    checkPa p a va pa nat s = .ok () s := by
  unfold checkPa
  rw [M.bind_ok (M.get_apply s)]
  unfold State.served at h
  split at h
  · rename_i d e; simp [e]
  · rename_i c off e; simp [e, h]
  · exact h.elim

theorem homeLoad_outside {s : State} {p : Party} {va : Word} {a : Access} {pa n : Nat} (hp : s.poisoned pa n = false)
    (ht : s.inTx p = false) : homeLoad p va a pa n s = .ok (s.mem.read pa n) s := by
  unfold homeLoad
  rw [M.bind_ok (M.get_apply s)]
  have : s.consumes p pa n = false := by simp [State.consumes, State.txOf, ht, hp]
  simp [this, ht, State.physLoad]

theorem loadPa_served {s : State} {p : Party} {va : Word} {a : Access} {pa n : Nat} (nat : Bool) (h : s.served pa)
    (hp : s.poisoned pa n = false) (ht : s.inTx p = false) : loadPa p va a pa n nat s = .ok (s.mem.read pa n) s := by
  unfold loadPa
  rw [M.bind_ok (checkPa_served nat h)]
  unfold State.served at h
  split at h
  · rename_i d e; simp [e, homeLoad_outside hp ht]
  · rename_i c off e; simp [e, homeLoad_outside hp ht]
  · exact h.elim

/-- A store that memory serves, in one line that no other hart's ordered transaction holds. -/
theorem storePa_served {s : State} {p : Party} {va : Word} {pa n v : Nat} (nat : Bool) (h : s.served pa)
    (ht : s.inTx p = false) (h0 : 0 < n) (h1 : pa % 128 + n ≤ 128) (hl : s.lineHeld p.self (pa / 128) = false) :
    storePa p va pa n v nat s = .ok () (s.physStore p.self pa n v) := by
  unfold storePa
  rw [M.bind_ok (checkPa_served nat h), M.bind_ok (M.get_apply s)]
  have w : plainWrite p pa n v s = .ok () (s.physStore p.self pa n v) := by
    have k : awaitLines p pa n s = .ok () s := by
      unfold awaitLines
      rw [M.bind_ok (M.get_apply s)]
      simp [linesOf_one h0 h1, hl]
    unfold plainWrite
    rw [M.bind_ok k]
    rfl
  unfold State.served at h
  split at h
  · rename_i d e; simp [e, ht, w]
  · rename_i c off e; simp [e, ht, w]
  · exact h.elim

/-- One piece that memory serves is found at its translation. -/
theorem locate_one {s t : State} {p : Party} {va : Word} {a : Access} {n : Nat} {x : Translation} (nat : Bool)
    (htr : translate s p.ctx va a = .ok (x, t)) (hs : t.served x.pa) :
    locate p a nat [(va, n)] s = .ok [(va, x.pa, n)] t := by
  simp only [locate]
  rw [M.bind_ok (translateM_ok htr), M.bind_ok (checkPa_served nat hs)]
  rfl

/-- A load of bytes in one line, mapped to memory and free of poison. -/
theorem loadVa_readable {s t : State} {p : Party} {va : Word} {a : Access} {n : Nat} {x : Translation}
    (hb : s.hart.streamsIdle) (h0 : 0 < n) (h1 : va.toNat % 128 + n ≤ 128)
    (htr : translate s p.ctx va a = .ok (x, t)) (hs : t.served x.pa) (hp : t.poisoned x.pa n = false)
    (ht : t.inTx p = false) : loadVa p va a n s = .ok (t.mem.read x.pa n) t := by
  unfold loadVa
  rw [M.bind_ok (settleStreams_idle hb), pieces_one h0 h1]
  rw [M.bind_ok (locate_one _ htr hs)]
  have g : ([(va, x.pa, n)].mapM (fun (q : Word × Nat × Nat) => do
      return (q.2.2, ← loadPa p q.1 a q.2.1 q.2.2 (natAligned va n))) : M (List (Nat × Nat))) t =
      .ok [(n, t.mem.read x.pa n)] t := by
    simp only [List.mapM_cons, List.mapM_nil]
    have i : (do return (n, ← loadPa p va a x.pa n (natAligned va n)) : M (Nat × Nat)) t =
        .ok (n, t.mem.read x.pa n) t := by
      rw [M.bind_ok (loadPa_served _ hs hp ht)]
      rfl
    refine (M.bind_ok i).trans ?_
    rfl
  rw [M.bind_ok g]
  simp

/-- A store of bytes in one line, mapped to memory. -/
theorem storeVa_writable {s t : State} {p : Party} {va : Word} {n v : Nat} {x : Translation}
    (hb : s.hart.streamsIdle) (h0 : 0 < n) (h1 : va.toNat % 128 + n ≤ 128)
    (htr : translate s p.ctx va .store = .ok (x, t)) (hpa : x.pa % 128 = va.toNat % 128) (hs : t.served x.pa)
    (hl : t.lineHeld p.self (x.pa / 128) = false) (ht : t.inTx p = false) :
    storeVa p va n v s = .ok () (t.physStore p.self x.pa n v) := by
  unfold storeVa
  rw [M.bind_ok (settleStreams_idle hb), M.bind_ok (dropAhead_idle hb), pieces_one h0 h1]
  rw [M.bind_ok (locate_one _ htr hs)]
  simp only [storePieces]
  rw [M.bind_ok (storePa_served _ hs ht h0 (by omega) hl)]
  rfl

/-! ## What a store changes -/

theorem noteLine_fields (s : State) (self : Option HartId) (l : Nat) :
    (s.noteLine self l).mem = s.mem ∧ (s.noteLine self l).poison = s.poison ∧
    (s.noteLine self l).hart = s.hart.seesWrite s.dev.coarse self l ∧ (s.noteLine self l).inbox = s.inbox ++ s.wakesOf l ∧
    s.noteLine self l = { s with
      hart := s.hart.seesWrite s.dev.coarse self l, others := s.others.map fun h => h.seesWrite s.dev.coarse self l, inbox := s.inbox ++ s.wakesOf l } :=
  ⟨rfl, rfl, rfl, rfl, rfl⟩

/-- A store in one line: memory, poison, and what the line's write means to the harts and to those that wait for it. -/
theorem physStore_one_line {s : State} {self : Option HartId} {pa n v : Nat} (h0 : 0 < n) (h1 : pa % 128 + n ≤ 128) :
    s.physStore self pa n v =
      ({ s with mem := s.mem.write pa n v, poison := clearPoison s.poison pa n } : State).noteLine self (pa / 128) := by
  unfold State.physStore
  rw [linesOf_one h0 h1]
  rfl

theorem foldl_noteLine_mem (self : Option HartId) (l : List Nat) (s : State) :
    (l.foldl (fun t k => t.noteLine self k) s).mem = s.mem := by
  induction l generalizing s with
  | nil => rfl
  | cons a l ih => rw [List.foldl_cons, ih]; rfl

theorem physStore_mem (s : State) (self : Option HartId) (pa n v : Nat) :
    (s.physStore self pa n v).mem = s.mem.write pa n v := by
  unfold State.physStore; rw [foldl_noteLine_mem]

/-- A store keeps the canonical form. -/
theorem physStore_inv {s : State} (self : Option HartId) (pa n v : Nat) (h : s.Inv) : (s.physStore self pa n v).Inv := by
  unfold State.Inv at *
  rw [physStore_mem]; exact Memory.wf_write pa n v h

/-- To a hart in no transaction, a write means the end of a reservation on its line. -/
theorem seesWrite_outside {h : Hart} (coarse : List Nat) (self : Option HartId) (line : Nat) (ht : h.tx = none) :
    h.seesWrite coarse self line = { h with reservation := h.reservation.filter fun r => r.line ≠ line } := by
  unfold Hart.seesWrite
  cases hr : h.reservation with
  | none => simp only [ht, Option.filter_none]; rw [← hr, ← ht]
  | some r =>
    by_cases e : r.line = line
    · simp [e, ht, Option.filter]
    · simp [e, ht, Option.filter]
      rw [← hr, ← ht]

end Sys2Proof.Machine
end

