-- ==== Sys2Proof/Laws/Issue.lean ====
section
/-! SUPPORT. What an instruction of the vector and matrix streams does on a hart whose queues are empty: it enters its
queue, executes at once, and leaves it. -/

namespace Sys2Proof.Machine

/-- The queue entry that an instruction makes. -/
def State.entryOf (s : State) (i : Instr) (c : Captured) : QEntry :=
  { pc := s.hart.pc, instr := i, cap := c, seq := s.hart.seq, start := none, ready := false }

/-- The state in which an instruction of a stream executes on a hart whose queues are empty: it stands in its queue
alone, and the scalar stream has moved past its n bytes. -/
def State.atHead (s : State) (i : Instr) (c : Captured) (n : Nat) : State :=
  { s with hart := { s.hart with
      seq := s.hart.seq + 1, pc := s.hart.pc + BitVec.ofNat 64 n, instret := s.hart.instret + 1,
      vq := if streamOf i = 1 then [s.entryOf i c] else [], mq := if streamOf i = 2 then [s.entryOf i c] else [] } }

theorem Hart.quiet_drained {h : Hart} (q : h.quiet) : h.drained = true := by
  unfold Hart.drained; rw [q.1, q.2.1]; rfl

theorem enqueue_quiet {s : State} {i : Instr} {c : Captured} {n : Nat} (q : s.hart.quiet)
    (hs : streamOf i = 1 ∨ streamOf i = 2) : (s.enqueueIn (streamOf i) i c).advance n = s.atHead i c n := by
  obtain ⟨hv, hm, -⟩ := q
  unfold State.enqueueIn State.atHead
  rcases hs with e | e
  · simp only [e, hv]
    simp [State.advance, State.entryOf, hm]
  · simp only [e, hm]
    simp [State.advance, State.entryOf, hv]

theorem settle_none {s : State} (h : s.hart.faults = []) : s.settle = s := by
  unfold State.settle; rw [h]; rfl

theorem pumpFrom_empty {n : Nat} {a b : Bool} {s : State} (hv : s.hart.vq = []) (hm : s.hart.mq = []) :
    pumpFrom n a b s = s := by
  cases n with
  | zero => rfl
  | succ n =>
    have v : s.hart.vqReady = none := by unfold Hart.vqReady; rw [hv]
    have m : s.hart.mqReady = none := by unfold Hart.mqReady; rw [hm]
    unfold pumpFrom
    simp [v, m]

/-- An instruction of the vector stream that completes at once. -/
theorem issue_vector {s u : State} {i : Instr} {c : Captured} {n : Nat} (q : s.hart.quiet) (hs : streamOf i = 1)
    (run : runEntry (s.entryOf i c) (s.atHead i c n) = .ok () u) (hv : u.hart.vq.tail = []) (hm : u.hart.mq = [])
    (hf : u.hart.faults = []) :
    s.issue i c n = .next { u with hart := { u.hart with vq := [], held := none } } := by
  have room : s.hart.room (streamOf i) = true := by rw [hs]; simp [Hart.room, q.1]
  unfold State.issue State.issueIn
  rw [if_pos room, enqueue_quiet q (.inl hs)]
  have nd : (s.atHead i c n).hart.drained = false := by simp [State.atHead, Hart.drained, hs]
  have v : (s.atHead i c n).hart.vqReady = some (s.entryOf i c) := by
    simp [Hart.vqReady, State.atHead, hs, Hart.faulted, q.2.2.1]
  have m : (s.atHead i c n).hart.mqReady = none := by simp [Hart.mqReady, State.atHead, hs]
  have r : (s.atHead i c n).runHead false (s.entryOf i c) = ({ u with hart := u.hart.retireEntry false }, true) := by
    unfold State.runHead; rw [run]
  have p : (s.atHead i c n).pump = { u with hart := u.hart.retireEntry false } := by
    unfold State.pump
    rw [nd]
    unfold pumpFrom
    simp only [v, m, Bool.false_eq_true, if_false, r]
    exact pumpFrom_empty hv hm
  rw [p]
  have z : ({ u with hart := u.hart.retireEntry false } : State).settle = { u with hart := u.hart.retireEntry false } :=
    settle_none hf
  rw [z]
  simp [State.goesOn, Hart.retireEntry, hv]

/-- An instruction of the matrix stream that completes at once. -/
theorem issue_matrix {s u : State} {i : Instr} {c : Captured} {n : Nat} (q : s.hart.quiet) (hs : streamOf i = 2)
    (run : runEntry (s.entryOf i c) (s.atHead i c n) = .ok () u) (hv : u.hart.vq = []) (hm : u.hart.mq.tail = [])
    (hf : u.hart.faults = []) :
    s.issue i c n = .next { u with hart := { u.hart with mq := [], held := none } } := by
  have room : s.hart.room (streamOf i) = true := by rw [hs]; simp [Hart.room, q.2.1]
  unfold State.issue State.issueIn
  rw [if_pos room, enqueue_quiet q (.inr hs)]
  have nd : (s.atHead i c n).hart.drained = false := by simp [State.atHead, Hart.drained, hs]
  have v : (s.atHead i c n).hart.vqReady = none := by simp [Hart.vqReady, State.atHead, hs]
  have m : (s.atHead i c n).hart.mqReady = some (s.entryOf i c) := by
    simp [Hart.mqReady, State.atHead, hs, Hart.faulted, q.2.2.1, Hart.midVector]
  have r : (s.atHead i c n).runHead true (s.entryOf i c) = ({ u with hart := u.hart.retireEntry true }, true) := by
    unfold State.runHead; rw [run]
  have p : (s.atHead i c n).pump = { u with hart := u.hart.retireEntry true } := by
    unfold State.pump
    rw [nd]
    unfold pumpFrom
    simp only [v, m, Bool.false_eq_true, if_false, r]
    exact pumpFrom_empty hv hm
  rw [p]
  have z : ({ u with hart := u.hart.retireEntry true } : State).settle = { u with hart := u.hart.retireEntry true } :=
    settle_none hf
  rw [z]
  simp [State.goesOn, Hart.retireEntry, hm]

/-! ## Dispatch -/

/-- A W instruction that has dispatched: the entry at the head of VQ says so, with what it has popped and the element it
begins at. -/
def QEntry.dispatched (e : QEntry) (vl : Nat) (x2 : Word) (first : Nat) : QEntry :=
  { e with start := none, ready := true, first := first, cap := { e.cap with vl := vl, x2 := x2 } }

theorem roundingMode_ok {e : QEntry} {rm : Nat} {s : State} (h : rm = 7 → e.cap.vfrm.toNat ≤ 4) :
    roundingMode e rm s = .ok (if rm = 7 then e.cap.vfrm.toNat else rm) s := by
  unfold roundingMode
  by_cases hr : rm = 7
  · rw [if_pos hr, if_pos hr, if_pos (h hr)]; rfl
  · rw [if_neg hr, if_neg hr]; rfl

/-- With no lq entry and no q entry to take, dispatch captures the mask and marks the entry (R28, R106). -/
theorem dispatchV_plain {s : State} {w : WWord} {e : QEntry} {b : Bool} {l : List QEntry} (hs : e.start = none)
    (hr : e.ready = false) (hl : w.lqv = 0#1) (hb : (b && w.kind == 2) = false)
    (hm : w.rm.toNat = 7 → e.cap.vfrm.toNat ≤ 4) (hq : s.hart.vq = e :: l) :
    let d := e.dispatched e.cap.vl e.cap.x2 s.hart.vstart
    dispatchV w e b s = .ok {
      w := w, e := d, vl := e.cap.vl, vlmax := vlmaxOf e.cap.width.toNat e.cap.level.toNat,
      bits := widthBits e.cap.width.toNat, mask := s.hart.rp w.pg.toNat &&& s.hart.currentMask,
      rm := if w.rm.toNat = 7 then e.cap.vfrm.toNat else w.rm.toNat, again := false }
      { s with hart := { s.hart with vq := d :: l } } := by
  intro d
  have hl' : ¬ w.lqv = 1#1 := by rw [hl]; decide
  have inner : (do setVqHead d; return d : M QEntry) s = .ok d { s with hart := { s.hart with vq := d :: l } } := by
    have h : setVqHead d s = .ok () { s with hart := { s.hart with vq := d :: l } } := by
      unfold setVqHead
      rw [modH_apply, hq]
    rw [M.bind_ok h]
    rfl
  have p : popOperands w { e with start := none } b s = .ok d { s with hart := { s.hart with vq := d :: l } } := by
    unfold popOperands
    simp only [hr, Bool.false_eq_true, if_false]
    rw [M.bind_ok (getH_apply s)]
    simp only [hl', hb, if_false, Bool.false_eq_true, pure_bind]
    change Machine.atomically (do setVqHead d; return d) s = _
    unfold Machine.atomically
    rw [inner]
  have g : dispatchV w e b = (do
      let rm ← roundingMode e w.rm.toNat
      let e1 ← popOperands w { e with start := none } b
      let h ← getH
      return { w := w, e := e1, vl := e1.cap.vl, vlmax := vlmaxOf e1.cap.width.toNat e1.cap.level.toNat,
               bits := widthBits e1.cap.width.toNat, mask := h.rp w.pg.toNat &&& h.currentMask, rm := rm,
               again := e.ready && decide (e.first < h.vstart) }) := by
    unfold dispatchV
    simp only [hs, Option.isSome_none, Bool.false_eq_true, if_false]
  rw [g, M.bind_ok (roundingMode_ok hm), M.bind_ok p, M.bind_ok (getH_apply _), hr]
  rfl

end Sys2Proof.Machine
end

