-- ==== Sys2Proof/Laws/Keeps.lean ====
section
/-! SUPPORT. The canonical form of memory through effects: an effect made of effects that keep it keeps it, and so do the
shared operations, the trap, the abort and the runner. -/

namespace Sys2Proof.Machine

/-- An effect that keeps the invariant, however it ends. -/
def Keeps {α : Type} (m : M α) : Prop :=
  ∀ s : State, s.Inv → (∀ a t, m s = .ok a t → t.Inv) ∧ ∀ e t, m s = .error e t → t.Inv

theorem Inv.of_mem {s t : State} (e : t.mem = s.mem) (h : s.Inv) : t.Inv := by
  unfold State.Inv at *; rw [e]; exact h

/-! ## What the walker does -/

theorem walkerOnly_inv {s t : State} (k : walkerOnly s t) (h : s.Inv) : t.Inv := by
  unfold State.Inv at *
  rcases k.2 with e | ⟨addr, v, e⟩
  · rw [e]; exact h
  · rw [e]; exact Memory.wf_write addr 8 v h

theorem noteTlb_inv {s : State} (w : WalkNote) (h : s.Inv) : (s.noteTlb w).Inv := walkerOnly_inv (noteTlb_only s w) h

theorem keepWalks_inv {s : State} (t : State) (h : s.Inv) : (s.keepWalks t).Inv := by
  unfold State.keepWalks
  generalize t.walks.drop s.walks.length = l
  induction l generalizing s with
  | nil => exact h
  | cons w l ih => exact ih (noteTlb_inv w h)

theorem keepRequests_inv {s : State} (t : State) (h : s.Inv) : (s.keepRequests t).Inv :=
  Inv.of_mem rfl (keepWalks_inv t h)

/-- The state that a failed walk leaves is the one that it began in. -/
theorem walk_error {s t : State} {c : TransCtx} {l : Nat} {va : Word} {a : Access} {f : MemFault}
    (h : walk s c l va a = .error (f, t)) : t = s := by
  unfold walk at h
  simp only at h
  split at h
  · split at h
    · cases h
    · simp only [Except.error.injEq, Prod.mk.injEq] at h; exact h.2.symm
  · simp only [Except.error.injEq, Prod.mk.injEq] at h; exact h.2.symm
  · simp only [Except.error.injEq, Prod.mk.injEq] at h; exact h.2.symm

/-- The state that a failed translation leaves: at most an entry dropped. -/
theorem translate_error {s t : State} {c : TransCtx} {va : Word} {a : Access} {f : MemFault}
    (h : translate s c va a = .error (f, t)) : t = s ∨ ∃ w, t = s.noteTlb w := by
  unfold translate at h
  split at h
  · split at h
    · cases h
    · simp only [Except.error.injEq, Prod.mk.injEq] at h; exact .inl h.2.symm
  · split at h
    · simp only [Except.error.injEq, Prod.mk.injEq] at h; exact .inl h.2.symm
    · split at h
      · split at h
        · split at h
          · cases h
          · exact .inr ⟨_, walk_error h⟩
        · exact .inl (walk_error h)
      · simp only [Except.error.injEq, Prod.mk.injEq] at h; exact .inl h.2.symm

/-! ## Combinators -/

theorem Keeps.pure {α : Type} (a : α) : Keeps (Pure.pure a : M α) := fun s h =>
  ⟨fun _ _ e => by cases e; exact h, fun _ _ e => by cases e⟩

theorem Keeps.throw {α : Type} (x : Exit) : Keeps (MonadExcept.throw x : M α) := fun s h =>
  ⟨fun _ _ e => (by cases e), fun _ _ e => by cases e; exact h⟩

theorem Keeps.trap {α : Type} (c : Nat) (v : Word) : Keeps (Machine.trap c v : M α) := Keeps.throw _
theorem Keeps.hold {α : Type} (w : Held) : Keeps (Machine.hold w : M α) := Keeps.throw _

theorem Keeps.get : Keeps (MonadState.get : M State) := fun s h =>
  ⟨fun _ _ e => by cases e; exact h, fun _ _ e => by cases e⟩

theorem Keeps.getH : Keeps Machine.getH := fun s h =>
  ⟨fun _ _ e => by cases e; exact h, fun _ _ e => by cases e⟩

theorem Keeps.bind {α β : Type} {m : M α} {f : α → M β} (hm : Keeps m) (hf : ∀ a, Keeps (f a)) : Keeps (m >>= f) := by
  intro s h
  rw [M.bind_apply]
  cases e : m s with
  | ok a t => exact hf a t ((hm s h).1 a t e)
  | error x t => exact ⟨fun _ _ k => (by cases k), fun _ _ k => by cases k; exact (hm s h).2 x t e⟩

/-- An effect that begins by reading the state may use what it read. -/
theorem Keeps.bind_get {β : Type} {f : State → M β}
    (hf : ∀ s : State, s.Inv → (∀ a t, f s s = .ok a t → t.Inv) ∧ ∀ e t, f s s = .error e t → t.Inv) :
    Keeps (MonadState.get >>= f : M β) := by
  intro s h
  rw [M.bind_ok (M.get_apply s)]
  exact hf s h

theorem Keeps.modify {f : State → State} (hf : ∀ s : State, s.Inv → (f s).Inv) : Keeps (modify f : M PUnit) :=
  fun s h => ⟨fun _ _ e => by cases e; exact hf s h, fun _ _ e => by cases e⟩

theorem Keeps.set {t : State} (ht : t.Inv) : Keeps (MonadStateOf.set t : M PUnit) :=
  fun s _ => ⟨fun _ _ e => by cases e; exact ht, fun _ _ e => by cases e⟩

theorem Keeps.modH (f : Hart → Hart) : Keeps (Machine.modH f) := fun s h =>
  ⟨fun _ _ e => by cases e; exact h, fun _ _ e => by cases e⟩

theorem Keeps.ite {α : Type} {c : Prop} [Decidable c] {a b : M α} (ha : Keeps a) (hb : Keeps b) :
    Keeps (if c then a else b) := by
  split
  · exact ha
  · exact hb

theorem Keeps.forM' {α : Type} {f : α → M Unit} (hf : ∀ a, Keeps (f a)) (l : List α) : Keeps (Machine.forM' f l) := by
  induction l with
  | nil => exact Keeps.pure ()
  | cons a l ih => exact Keeps.bind (hf a) fun _ => ih

theorem Keeps.mapM {α β : Type} {f : α → M β} (hf : ∀ a, Keeps (f a)) (l : List α) : Keeps (l.mapM f : M (List β)) := by
  induction l with
  | nil => rw [List.mapM_nil]; exact Keeps.pure _
  | cons a l ih => rw [List.mapM_cons]; exact Keeps.bind (hf a) fun _ => Keeps.bind ih fun _ => Keeps.pure _

theorem Keeps.foldlM {α β : Type} {f : β → α → M β} (hf : ∀ b a, Keeps (f b a)) (l : List α) :
    ∀ b, Keeps (l.foldlM f b : M β) := by
  induction l with
  | nil => intro b; rw [List.foldlM_nil]; exact Keeps.pure b
  | cons a l ih => intro b; rw [List.foldlM_cons]; exact Keeps.bind (hf b a) fun b => ih b

theorem Keeps.atomically {α : Type} {m : M α} (hm : Keeps m) : Keeps (Machine.atomically m) := by
  intro s h
  unfold Machine.atomically
  cases e : m s with
  | ok a t => exact ⟨fun _ _ k => by cases k; exact (hm s h).1 a t e, fun _ _ k => by cases k⟩
  | error x t => exact ⟨fun _ _ k => (by cases k), fun _ _ k => by cases k; exact keepRequests_inv _ h⟩

/-! ## The shared operations -/

theorem Keeps.translateM (c : TransCtx) (va : Word) (a : Access) : Keeps (Machine.translateM c va a) := by
  intro s h
  cases e : translate s c va a with
  | ok x =>
    obtain ⟨x, t⟩ := x
    rw [translateM_ok e]
    exact ⟨fun _ _ k => by cases k; exact translate_keeps_wf h e, fun _ _ k => by cases k⟩
  | error f =>
    obtain ⟨f, t⟩ := f
    rw [translateM_error e]
    refine ⟨fun _ _ k => (by cases k), fun _ _ k => ?_⟩
    cases k
    rcases translate_error e with rfl | ⟨w, rfl⟩
    · exact h
    · exact noteTlb_inv w h

theorem Keeps.awaitLines (p : Party) (pa n : Nat) : Keeps (Machine.awaitLines p pa n) := by
  unfold Machine.awaitLines
  refine Keeps.bind Keeps.get fun s => ?_
  split
  · exact Keeps.throw _
  · exact Keeps.pure _

theorem Keeps.plainWrite (p : Party) (pa n v : Nat) : Keeps (Machine.plainWrite p pa n v) := by
  unfold Machine.plainWrite
  exact Keeps.bind (Keeps.awaitLines p pa n) fun _ => Keeps.modify fun s h => physStore_inv _ _ _ _ h

theorem Keeps.plainRead (va : Word) (a : Access) (pa n : Nat) : Keeps (Machine.plainRead va a pa n) := by
  unfold Machine.plainRead
  exact Keeps.bind Keeps.get fun s => Keeps.ite (Keeps.bind (Keeps.throw _) fun _ => Keeps.pure _) (Keeps.pure _)

theorem Keeps.noTx (p : Party) : Keeps (Machine.noTx p) := by
  unfold Machine.noTx
  exact Keeps.bind Keeps.get fun s => Keeps.ite (Keeps.throw _) (Keeps.pure _)

theorem Keeps.drain : Keeps Machine.drain := by
  unfold Machine.drain
  exact Keeps.bind Keeps.getH fun h => Keeps.ite (Keeps.throw _) (Keeps.pure _)

theorem Keeps.abortIfTx (c : Nat) : Keeps (Machine.abortIfTx c) := by
  unfold Machine.abortIfTx
  exact Keeps.bind Keeps.getH fun h => Keeps.ite (Keeps.throw _) (Keeps.pure _)

theorem Keeps.checkPa (p : Party) (a : Access) (va : Word) (pa : Nat) (nat : Bool) : Keeps (Machine.checkPa p a va pa nat) := by
  unfold Machine.checkPa
  refine Keeps.bind Keeps.get fun s => ?_
  split
  · exact Keeps.pure _
  · exact Keeps.ite (Keeps.throw _) (Keeps.pure _)
  · dsimp only
    split <;> split <;> first
      | exact Keeps.throw _
      | exact Keeps.pure _
      | exact Keeps.bind (Keeps.noTx p) fun _ => Keeps.throw _
      | exact Keeps.bind (Keeps.noTx p) fun _ => Keeps.pure _
  · exact Keeps.noTx p
  · exact Keeps.bind (Keeps.noTx p) fun _ => Keeps.ite (Keeps.throw _) (Keeps.pure _)
  · exact Keeps.bind (Keeps.noTx p) fun _ => Keeps.ite (Keeps.throw _) (Keeps.pure _)
  · exact Keeps.throw _

theorem Keeps.locate (p : Party) (a : Access) (nat : Bool) (l : List (Word × Nat)) : Keeps (Machine.locate p a nat l) := by
  induction l with
  | nil => exact Keeps.pure _
  | cons x l ih =>
    exact Keeps.bind (Keeps.translateM _ _ _) fun _ => Keeps.bind (Keeps.checkPa _ _ _ _ _) fun _ =>
      Keeps.bind ih fun _ => Keeps.pure _

/-! ## Ends of an instruction -/

theorem focus_inv {s : State} (id : HartId) (h : s.Inv) : (s.focus id).Inv := by
  unfold State.focus
  split
  · exact h
  · split <;> exact Inv.of_mem rfl h

theorem abortTx_inv {s : State} (c k : Nat) (h : s.Inv) : (s.abortTx c k).Inv := by
  unfold State.abortTx
  simp only
  split
  · exact h
  · exact Inv.of_mem rfl h

theorem takeTrap_inv {s : State} (b : Bool) (t : Trap) (pc : Word) (h : s.Inv) : (s.takeTrap b t pc).Inv := by
  unfold State.takeTrap
  simp only
  split <;> exact Inv.of_mem rfl h

theorem fault_inv {s : State} (t : Trap) (pc : Word) (h : s.Inv) : (s.fault t pc).Inv := by
  unfold State.fault
  split
  · unfold State.abortFault
    simp only
    split
    · exact takeTrap_inv _ _ _ (abortTx_inv _ _ (Inv.of_mem rfl h))
    · exact abortTx_inv _ _ (Inv.of_mem rfl h)
  · exact takeTrap_inv _ _ _ h

theorem settle_inv {s : State} (h : s.Inv) : s.settle.Inv := by
  unfold State.settle
  split
  · exact h
  · exact fault_inv _ _ (Inv.of_mem rfl h)

theorem hold_inv {s t : State} (w : Held) (h : s.Inv) : (s.hold t w).Inv := by
  unfold State.hold
  split
  · exact abortTx_inv _ _ h
  · exact Inv.of_mem (s := s.keepRequests t) rfl (keepRequests_inv t h)

theorem ended_inv {s t u : State} {e : Exit} (h : s.Inv) (k : s.ended e t = .next u) : u.Inv := by
  unfold State.ended at k
  have w := keepWalks_inv t h
  cases e <;> simp only [Host.Outcome.next.injEq, reduceCtorEq] at k <;> subst k
  · exact fault_inv _ _ w
  · exact fault_inv _ _ w
  · exact fault_inv _ _ w
  · exact hold_inv _ h
  · exact abortTx_inv _ _ w
  · exact abortTx_inv _ _ (Inv.of_mem rfl w)

/-- A scalar instruction whose effect keeps the invariant keeps it. -/
theorem runScalar_inv {m : M Unit} {s t : State} (hm : Keeps m) (h : s.Inv) (k : runScalar m s = .next t) : t.Inv := by
  unfold runScalar at k
  cases e : m s with
  | ok a u =>
    rw [e] at k
    simp only [Host.Outcome.next.injEq] at k
    subst k
    exact Inv.of_mem rfl ((hm s h).1 a u e)
  | error x u =>
    rw [e] at k
    exact ended_inv h k

/-- An event whose effect keeps the invariant keeps it. -/
theorem runEvent_inv {i : Instr} {m : M Unit} {s t : State} (hm : Keeps m) (h : s.Inv)
    (k : runEvent i m s = .next t) : t.Inv := by
  unfold runEvent at k
  cases e : m s with
  | ok a u =>
    rw [e] at k
    simp only [Host.Outcome.next.injEq] at k
    subst k
    exact (hm s h).1 a u e
  | error x u =>
    rw [e] at k
    cases x <;> simp only [Host.Outcome.next.injEq, reduceCtorEq] at k <;> subst k <;>
      first
        | exact (hm s h).2 _ _ e
        | exact Inv.of_mem (s := (s.post [i]).keepRequests u) rfl (keepRequests_inv u (Inv.of_mem rfl h))

/-- Executing the head of a queue keeps the invariant if its effect does. -/
theorem runHead_inv {s : State} (b : Bool) (q : QEntry) (hm : Keeps (runEntry q)) (h : s.Inv) : (s.runHead b q).1.Inv := by
  unfold State.runHead
  cases e : runEntry q s with
  | ok a u => exact Inv.of_mem rfl ((hm s h).1 a u e)
  | error x u =>
    have hu := (hm s h).2 x u e
    have kept : (s.keepVstart b u).Inv := by unfold State.keepVstart; split <;> exact Inv.of_mem rfl hu
    cases x <;> first
      | exact hu
      | exact abortTx_inv _ _ hu
      | exact abortTx_inv _ _ (Inv.of_mem rfl hu)
      | exact Inv.of_mem rfl kept

theorem pumpFrom_inv (hm : ∀ q, Keeps (runEntry q)) : ∀ (n : Nat) (a b : Bool) (s : State), s.Inv → (pumpFrom n a b s).Inv := by
  intro n
  induction n with
  | zero => intro a b s h; exact h
  | succ n ih =>
    intro a b s h
    unfold pumpFrom
    simp only
    split
    · exact h
    · exact ih _ _ _ (runHead_inv _ _ (hm _) h)
    · exact ih _ _ _ (runHead_inv _ _ (hm _) h)
    · split
      · exact ih _ _ _ (runHead_inv _ _ (hm _) h)
      · exact ih _ _ _ (runHead_inv _ _ (hm _) h)

theorem pump_inv (hm : ∀ q, Keeps (runEntry q)) {s : State} (h : s.Inv) : s.pump.Inv := by
  unfold State.pump
  split
  · exact h
  · exact pumpFrom_inv hm _ _ _ _ h

end Sys2Proof.Machine
end

