-- ==== Sys2Proof/Laws/PerInstr.lean ====
section
/-! SUPPORT. What holds of every instruction as syntax, one lemma per constructor. -/

/-- The size of an encoding: 4 or 8 bytes for an instruction of a program, none for an event. -/
def Sys2Proof.Laws.EncodedSize.Statement (i : Sys2Proof.Instr) : Prop :=
  (Sys2Proof.encode i).length =
    if i.isProgram then (if (Sys2Proof.encodeFields i).isSome then 4 else 8) else 0

namespace Sys2Proof.Laws.EncodedSize

theorem deltaDrain a0 : Statement (.deltaDrain a0) := rfl
theorem quietSet a0 a1 : Statement (.quietSet a0 a1) := rfl
theorem copyHandOver a0 : Statement (.copyHandOver a0) := rfl
theorem copyCompletion a0 a1 : Statement (.copyCompletion a0 a1) := rfl
theorem collectiveUseComplete a0 a1 : Statement (.collectiveUseComplete a0 a1) := rfl
theorem transactionWake a0 a1 : Statement (.transactionWake a0 a1) := rfl
theorem channelArrival a0 a1 : Statement (.channelArrival a0 a1) := rfl
theorem handlerRunStart a0 : Statement (.handlerRunStart a0) := rfl
theorem place a0 : Statement (.place a0) := rfl
theorem launchRingService a0 a1 : Statement (.launchRingService a0 a1) := rfl
theorem gangCompletion a0 : Statement (.gangCompletion a0) := rfl
theorem doneRecordDrain a0 : Statement (.doneRecordDrain a0) := rfl
theorem ringServiceResume a0 : Statement (.ringServiceResume a0) := rfl
theorem shootdownAcknowledge a0 a1 : Statement (.shootdownAcknowledge a0 a1) := rfl
theorem shootdownComplete a0 : Statement (.shootdownComplete a0) := rfl
theorem contain a0 : Statement (.contain a0) := rfl
theorem drawRecord a0 : Statement (.drawRecord a0) := rfl
theorem batchRecord a0 : Statement (.batchRecord a0) := rfl
theorem blendRecord a0 : Statement (.blendRecord a0) := rfl
theorem agentRingSpace a0 : Statement (.agentRingSpace a0) := rfl
theorem agentBeacon a0 : Statement (.agentBeacon a0) := rfl
theorem elementTrain a0 : Statement (.elementTrain a0) := rfl
theorem trainAcknowledgement a0 : Statement (.trainAcknowledgement a0) := rfl
theorem warmReset : Statement (.warmReset) := rfl
theorem coreFreeze a0 : Statement (.coreFreeze a0) := rfl
theorem peerResponse a0 a1 : Statement (.peerResponse a0 a1) := rfl
theorem hostReadCompletion a0 a1 : Statement (.hostReadCompletion a0 a1) := rfl
theorem lanternInterrupt a0 a1 : Statement (.lanternInterrupt a0 a1) := rfl
theorem streamRunAhead a0 a1 : Statement (.streamRunAhead a0 a1) := rfl
theorem streamStorePerform a0 a1 : Statement (.streamStorePerform a0 a1) := rfl
theorem enqueue a0 : Statement (.enqueue a0) := rfl
theorem ownershipTimeout a0 : Statement (.ownershipTimeout a0) := rfl
theorem experimentalInstruction a0 a1 a2 : Statement (.experimentalInstruction a0 a1 a2) := rfl
theorem groupEntryWrite a0 a1 a2 a3 : Statement (.groupEntryWrite a0 a1 a2 a3) := rfl
theorem supervisorTimerInterrupt a0 : Statement (.supervisorTimerInterrupt a0) := rfl
theorem ssisetWrite a0 a1 : Statement (.ssisetWrite a0 a1) := rfl
theorem trapEntry a0 : Statement (.trapEntry a0) := rfl
theorem transactionAbort a0 : Statement (.transactionAbort a0) := rfl
theorem txdeadlineExpiry a0 : Statement (.txdeadlineExpiry a0) := rfl
theorem ageStep a0 : Statement (.ageStep a0) := rfl
theorem tickBoundary : Statement (.tickBoundary) := rfl
theorem fabricSweep a0 : Statement (.fabricSweep a0) := rfl
theorem ringTableWrite a0 a1 a2 : Statement (.ringTableWrite a0 a1 a2) := rfl
theorem bankmodeWrite a0 a1 : Statement (.bankmodeWrite a0 a1) := rfl
theorem shootdownIssue a0 a1 : Statement (.shootdownIssue a0 a1) := rfl
theorem shootdownTimeout a0 : Statement (.shootdownTimeout a0) := rfl
theorem hostShootdownIssue a0 : Statement (.hostShootdownIssue a0) := rfl
theorem pcdataWrite a0 a1 : Statement (.pcdataWrite a0 a1) := rfl
theorem resume a0 : Statement (.resume a0) := rfl
theorem upcall a0 : Statement (.upcall a0) := rfl
theorem stop a0 : Statement (.stop a0) := rfl
theorem agentResume a0 : Statement (.agentResume a0) := rfl
theorem agentEnable a0 a1 : Statement (.agentEnable a0 a1) := rfl
theorem peerAccess a0 : Statement (.peerAccess a0) := rfl
theorem linkDown a0 : Statement (.linkDown a0) := rfl
theorem hostMemoryWrite a0 a1 : Statement (.hostMemoryWrite a0 a1) := rfl
theorem hostMemoryRead a0 a1 : Statement (.hostMemoryRead a0 a1) := rfl
theorem launchBeaconWrite a0 a1 a2 : Statement (.launchBeaconWrite a0 a1 a2) := rfl
theorem hostBeaconWrite a0 a1 : Statement (.hostBeaconWrite a0 a1) := rfl
theorem msixUnmask a0 : Statement (.msixUnmask a0) := rfl
theorem bar2ctlWrite a0 : Statement (.bar2ctlWrite a0) := rfl
theorem getVersion a0 : Statement (.getVersion a0) := rfl
theorem getCapabilities a0 : Statement (.getCapabilities a0) := rfl
theorem negotiateAlgorithms a0 : Statement (.negotiateAlgorithms a0) := rfl
theorem getDigests a0 : Statement (.getDigests a0) := rfl
theorem getCertificate a0 : Statement (.getCertificate a0) := rfl
theorem challenge a0 : Statement (.challenge a0) := rfl
theorem getMeasurements a0 : Statement (.getMeasurements a0) := rfl
theorem unsupportedRequest a0 : Statement (.unsupportedRequest a0) := rfl
theorem doeAbort : Statement (.doeAbort) := rfl
theorem coldReset : Statement (.coldReset) := rfl
theorem powerLimitWrite a0 : Statement (.powerLimitWrite a0) := rfl
theorem clockStep a0 : Statement (.clockStep a0) := rfl
theorem thermalTrip : Statement (.thermalTrip) := rfl
theorem freeze : Statement (.freeze) := rfl
theorem lockstepMismatch a0 : Statement (.lockstepMismatch a0) := rfl
theorem debugHalt a0 : Statement (.debugHalt a0) := rfl
theorem errlogRead a0 : Statement (.errlogRead a0) := rfl
theorem budvalWrite a0 a1 : Statement (.budvalWrite a0 a1) := rfl
theorem featenWrite a0 a1 : Statement (.featenWrite a0 a1) := rfl
theorem dxentWrite a0 a1 : Statement (.dxentWrite a0 a1) := rfl
theorem registerWrite a0 a1 : Statement (.registerWrite a0 a1) := rfl
theorem pauseExpiry a0 : Statement (.pauseExpiry a0) := rfl
theorem debugResume a0 : Statement (.debugResume a0) := rfl
theorem attestationLogAppend a0 : Statement (.attestationLogAppend a0) := rfl
theorem sbind a0 a1 : Statement (.sbind a0 a1) := rfl
theorem sset a0 a1 a2 : Statement (.sset a0 a1 a2) := rfl
theorem sfence a0 : Statement (.sfence a0) := rfl
theorem vbind a0 a1 : Statement (.vbind a0 a1) := rfl
theorem vunbind a0 : Statement (.vunbind a0) := rfl
theorem cpyt a0 : Statement (.cpyt a0) := rfl
theorem cpyg a0 a1 : Statement (.cpyg a0 a1) := rfl
theorem cpyc a0 : Statement (.cpyc a0) := rfl
theorem mena a0 a1 : Statement (.mena a0 a1) := rfl
theorem mdis a0 : Statement (.mdis a0) := rfl
theorem vadd a0 : Statement (.vadd a0) := rfl
theorem vsub a0 : Statement (.vsub a0) := rfl
theorem vrsub a0 : Statement (.vrsub a0) := rfl
theorem vmul a0 : Statement (.vmul a0) := rfl
theorem vmulh a0 : Statement (.vmulh a0) := rfl
theorem vmadd a0 : Statement (.vmadd a0) := rfl
theorem vdiv a0 : Statement (.vdiv a0) := rfl
theorem vrem a0 : Statement (.vrem a0) := rfl
theorem vmin a0 : Statement (.vmin a0) := rfl
theorem vmax a0 : Statement (.vmax a0) := rfl
theorem vand a0 : Statement (.vand a0) := rfl
theorem vor a0 : Statement (.vor a0) := rfl
theorem vxor a0 : Statement (.vxor a0) := rfl
theorem vshl a0 : Statement (.vshl a0) := rfl
theorem vshr a0 : Statement (.vshr a0) := rfl
theorem vabsd a0 : Statement (.vabsd a0) := rfl
theorem vcmp a0 : Statement (.vcmp a0) := rfl
theorem vidx a0 : Statement (.vidx a0) := rfl
theorem vnshr a0 : Statement (.vnshr a0) := rfl
theorem vfadd a0 : Statement (.vfadd a0) := rfl
theorem vfsub a0 : Statement (.vfsub a0) := rfl
theorem vfmul a0 : Statement (.vfmul a0) := rfl
theorem vfdiv a0 : Statement (.vfdiv a0) := rfl
theorem vfsqrt a0 : Statement (.vfsqrt a0) := rfl
theorem vfma a0 : Statement (.vfma a0) := rfl
theorem vfmin a0 : Statement (.vfmin a0) := rfl
theorem vfmax a0 : Statement (.vfmax a0) := rfl
theorem vfrcp a0 : Statement (.vfrcp a0) := rfl
theorem vfrsq a0 : Statement (.vfrsq a0) := rfl
theorem vfexp2 a0 : Statement (.vfexp2 a0) := rfl
theorem vflog2 a0 : Statement (.vflog2 a0) := rfl
theorem vfcmp a0 : Statement (.vfcmp a0) := rfl
theorem vfclass a0 : Statement (.vfclass a0) := rfl
theorem vfsgn a0 : Statement (.vfsgn a0) := rfl
theorem vcvt a0 : Statement (.vcvt a0) := rfl
theorem vslup a0 : Statement (.vslup a0) := rfl
theorem vsldn a0 : Statement (.vsldn a0) := rfl
theorem vgathr a0 : Statement (.vgathr a0) := rfl
theorem vcompr a0 : Statement (.vcompr a0) := rfl
theorem vexpnd a0 : Statement (.vexpnd a0) := rfl
theorem vsel a0 : Statement (.vsel a0) := rfl
theorem vbcast a0 : Statement (.vbcast a0) := rfl
theorem vmvx a0 : Statement (.vmvx a0) := rfl
theorem vmvq a0 : Statement (.vmvq a0) := rfl
theorem vplog a0 : Statement (.vplog a0) := rfl
theorem vpcnt a0 : Statement (.vpcnt a0) := rfl
theorem vpfirst a0 : Statement (.vpfirst a0) := rfl
theorem vpscan a0 : Statement (.vpscan a0) := rfl
theorem vpset a0 : Statement (.vpset a0) := rfl
theorem vmpush a0 : Statement (.vmpush a0) := rfl
theorem vmelse a0 : Statement (.vmelse a0) := rfl
theorem vmpop a0 : Statement (.vmpop a0) := rfl
theorem vredi a0 : Statement (.vredi a0) := rfl
theorem vredf a0 : Statement (.vredf a0) := rfl
theorem vquad a0 : Statement (.vquad a0) := rfl
theorem vld a0 : Statement (.vld a0) := rfl
theorem vst a0 : Statement (.vst a0) := rfl
theorem vlds a0 : Statement (.vlds a0) := rfl
theorem vsts a0 : Statement (.vsts a0) := rfl
theorem vldx a0 : Statement (.vldx a0) := rfl
theorem vstx a0 : Statement (.vstx a0) := rfl
theorem vlseg a0 : Statement (.vlseg a0) := rfl
theorem vsseg a0 : Statement (.vsseg a0) := rfl
theorem vamo a0 : Statement (.vamo a0) := rfl
theorem vstr a0 : Statement (.vstr a0) := rfl
theorem vwacc a0 : Statement (.vwacc a0) := rfl
theorem vprf a0 : Statement (.vprf a0) := rfl
theorem mzero a0 : Statement (.mzero a0) := rfl
theorem mmac a0 : Statement (.mmac a0) := rfl
theorem mmacv a0 : Statement (.mmacv a0) := rfl
theorem mslco a0 : Statement (.mslco a0) := rfl
theorem mslci a0 : Statement (.mslci a0) := rfl
theorem mldt a0 : Statement (.mldt a0) := rfl
theorem mstt a0 : Statement (.mstt a0) := rfl
theorem mscal a0 : Statement (.mscal a0) := rfl
theorem vtex a0 : Statement (.vtex a0) := rfl
theorem vtexg a0 : Statement (.vtexg a0) := rfl
theorem vtexq a0 : Statement (.vtexq a0) := rfl
theorem vtexs a0 : Statement (.vtexs a0) := rfl
theorem vintp a0 : Statement (.vintp a0) := rfl
theorem vrayi a0 : Statement (.vrayi a0) := rfl
theorem vrayt a0 : Statement (.vrayt a0) := rfl
theorem vrayc a0 : Statement (.vrayc a0) := rfl
theorem vraya a0 : Statement (.vraya a0) := rfl
theorem dpush a0 : Statement (.dpush a0) := rfl
theorem dpop a0 : Statement (.dpop a0) := rfl
theorem dseal a0 : Statement (.dseal a0) := rfl
theorem dlook a0 : Statement (.dlook a0) := rfl
theorem dnext a0 : Statement (.dnext a0) := rfl
theorem dapply a0 : Statement (.dapply a0) := rfl
theorem dscan a0 : Statement (.dscan a0) := rfl
theorem dqstat a0 : Statement (.dqstat a0) := rfl
theorem dbind a0 : Statement (.dbind a0) := rfl
theorem cboInval a0 : Statement (.cboInval a0) := rfl
theorem cboClean a0 : Statement (.cboClean a0) := rfl
theorem cboFlush a0 : Statement (.cboFlush a0) := rfl
theorem cboZero a0 : Statement (.cboZero a0) := rfl
theorem sc a0 a1 a2 a3 a4 a5 : Statement (.sc a0 a1 a2 a3 a4 a5) := rfl
theorem sfenceVma a0 a1 : Statement (.sfenceVma a0 a1) := rfl
theorem csrrw a0 a1 a2 : Statement (.csrrw a0 a1 a2) := rfl
theorem csrrs a0 a1 a2 : Statement (.csrrs a0 a1 a2) := rfl
theorem csrrc a0 a1 a2 : Statement (.csrrc a0 a1 a2) := rfl
theorem csrrwi a0 a1 a2 : Statement (.csrrwi a0 a1 a2) := rfl
theorem csrrsi a0 a1 a2 : Statement (.csrrsi a0 a1 a2) := rfl
theorem csrrci a0 a1 a2 : Statement (.csrrci a0 a1 a2) := rfl
theorem vgrant a0 a1 a2 : Statement (.vgrant a0 a1 a2) := rfl
theorem qpush a0 a1 : Statement (.qpush a0 a1) := rfl
theorem qpop a0 a1 : Statement (.qpop a0 a1) := rfl
theorem hsend a0 a1 : Statement (.hsend a0 a1) := rfl
theorem torelse a0 : Statement (.torelse a0) := rfl
theorem ownset a0 a1 : Statement (.ownset a0 a1) := rfl
theorem owntst a0 a1 : Statement (.owntst a0 a1) := rfl
theorem xfsave : Statement (.xfsave) := rfl
theorem xfload : Statement (.xfload) := rfl
theorem lui a0 a1 : Statement (.lui a0 a1) := rfl
theorem auipc a0 a1 : Statement (.auipc a0 a1) := rfl
theorem jal a0 a1 : Statement (.jal a0 a1) := rfl
theorem jalr a0 a1 a2 : Statement (.jalr a0 a1 a2) := rfl
theorem beq a0 a1 a2 : Statement (.beq a0 a1 a2) := rfl
theorem bne a0 a1 a2 : Statement (.bne a0 a1 a2) := rfl
theorem blt a0 a1 a2 : Statement (.blt a0 a1 a2) := rfl
theorem bge a0 a1 a2 : Statement (.bge a0 a1 a2) := rfl
theorem bltu a0 a1 a2 : Statement (.bltu a0 a1 a2) := rfl
theorem bgeu a0 a1 a2 : Statement (.bgeu a0 a1 a2) := rfl
theorem lb a0 a1 a2 : Statement (.lb a0 a1 a2) := rfl
theorem lh a0 a1 a2 : Statement (.lh a0 a1 a2) := rfl
theorem lw a0 a1 a2 : Statement (.lw a0 a1 a2) := rfl
theorem ld a0 a1 a2 : Statement (.ld a0 a1 a2) := rfl
theorem lbu a0 a1 a2 : Statement (.lbu a0 a1 a2) := rfl
theorem lhu a0 a1 a2 : Statement (.lhu a0 a1 a2) := rfl
theorem lwu a0 a1 a2 : Statement (.lwu a0 a1 a2) := rfl
theorem sb a0 a1 a2 : Statement (.sb a0 a1 a2) := rfl
theorem sh a0 a1 a2 : Statement (.sh a0 a1 a2) := rfl
theorem sw a0 a1 a2 : Statement (.sw a0 a1 a2) := rfl
theorem sd a0 a1 a2 : Statement (.sd a0 a1 a2) := rfl
theorem addi a0 a1 a2 : Statement (.addi a0 a1 a2) := rfl
theorem slti a0 a1 a2 : Statement (.slti a0 a1 a2) := rfl
theorem sltiu a0 a1 a2 : Statement (.sltiu a0 a1 a2) := rfl
theorem xori a0 a1 a2 : Statement (.xori a0 a1 a2) := rfl
theorem ori a0 a1 a2 : Statement (.ori a0 a1 a2) := rfl
theorem andi a0 a1 a2 : Statement (.andi a0 a1 a2) := rfl
theorem slli a0 a1 a2 : Statement (.slli a0 a1 a2) := rfl
theorem srli a0 a1 a2 : Statement (.srli a0 a1 a2) := rfl
theorem srai a0 a1 a2 : Statement (.srai a0 a1 a2) := rfl
theorem rori a0 a1 a2 : Statement (.rori a0 a1 a2) := rfl
theorem clz a0 a1 : Statement (.clz a0 a1) := rfl
theorem ctz a0 a1 : Statement (.ctz a0 a1) := rfl
theorem cpop a0 a1 : Statement (.cpop a0 a1) := rfl
theorem sextB a0 a1 : Statement (.sextB a0 a1) := rfl
theorem sextH a0 a1 : Statement (.sextH a0 a1) := rfl
theorem orcB a0 a1 : Statement (.orcB a0 a1) := rfl
theorem rev8 a0 a1 : Statement (.rev8 a0 a1) := rfl
theorem addiw a0 a1 a2 : Statement (.addiw a0 a1 a2) := rfl
theorem slliw a0 a1 a2 : Statement (.slliw a0 a1 a2) := rfl
theorem srliw a0 a1 a2 : Statement (.srliw a0 a1 a2) := rfl
theorem sraiw a0 a1 a2 : Statement (.sraiw a0 a1 a2) := rfl
theorem roriw a0 a1 a2 : Statement (.roriw a0 a1 a2) := rfl
theorem slliUw a0 a1 a2 : Statement (.slliUw a0 a1 a2) := rfl
theorem clzw a0 a1 : Statement (.clzw a0 a1) := rfl
theorem ctzw a0 a1 : Statement (.ctzw a0 a1) := rfl
theorem cpopw a0 a1 : Statement (.cpopw a0 a1) := rfl
theorem add a0 a1 a2 : Statement (.add a0 a1 a2) := rfl
theorem sll a0 a1 a2 : Statement (.sll a0 a1 a2) := rfl
theorem slt a0 a1 a2 : Statement (.slt a0 a1 a2) := rfl
theorem sltu a0 a1 a2 : Statement (.sltu a0 a1 a2) := rfl
theorem xor a0 a1 a2 : Statement (.xor a0 a1 a2) := rfl
theorem srl a0 a1 a2 : Statement (.srl a0 a1 a2) := rfl
theorem or a0 a1 a2 : Statement (.or a0 a1 a2) := rfl
theorem and a0 a1 a2 : Statement (.and a0 a1 a2) := rfl
theorem sub a0 a1 a2 : Statement (.sub a0 a1 a2) := rfl
theorem sra a0 a1 a2 : Statement (.sra a0 a1 a2) := rfl
theorem xnor a0 a1 a2 : Statement (.xnor a0 a1 a2) := rfl
theorem orn a0 a1 a2 : Statement (.orn a0 a1 a2) := rfl
theorem andn a0 a1 a2 : Statement (.andn a0 a1 a2) := rfl
theorem mul a0 a1 a2 : Statement (.mul a0 a1 a2) := rfl
theorem mulh a0 a1 a2 : Statement (.mulh a0 a1 a2) := rfl
theorem mulhsu a0 a1 a2 : Statement (.mulhsu a0 a1 a2) := rfl
theorem mulhu a0 a1 a2 : Statement (.mulhu a0 a1 a2) := rfl
theorem div a0 a1 a2 : Statement (.div a0 a1 a2) := rfl
theorem divu a0 a1 a2 : Statement (.divu a0 a1 a2) := rfl
theorem rem a0 a1 a2 : Statement (.rem a0 a1 a2) := rfl
theorem remu a0 a1 a2 : Statement (.remu a0 a1 a2) := rfl
theorem sh1add a0 a1 a2 : Statement (.sh1add a0 a1 a2) := rfl
theorem sh2add a0 a1 a2 : Statement (.sh2add a0 a1 a2) := rfl
theorem sh3add a0 a1 a2 : Statement (.sh3add a0 a1 a2) := rfl
theorem min a0 a1 a2 : Statement (.min a0 a1 a2) := rfl
theorem minu a0 a1 a2 : Statement (.minu a0 a1 a2) := rfl
theorem max a0 a1 a2 : Statement (.max a0 a1 a2) := rfl
theorem maxu a0 a1 a2 : Statement (.maxu a0 a1 a2) := rfl
theorem rol a0 a1 a2 : Statement (.rol a0 a1 a2) := rfl
theorem ror a0 a1 a2 : Statement (.ror a0 a1 a2) := rfl
theorem czeroEqz a0 a1 a2 : Statement (.czeroEqz a0 a1 a2) := rfl
theorem czeroNez a0 a1 a2 : Statement (.czeroNez a0 a1 a2) := rfl
theorem addw a0 a1 a2 : Statement (.addw a0 a1 a2) := rfl
theorem sllw a0 a1 a2 : Statement (.sllw a0 a1 a2) := rfl
theorem srlw a0 a1 a2 : Statement (.srlw a0 a1 a2) := rfl
theorem subw a0 a1 a2 : Statement (.subw a0 a1 a2) := rfl
theorem sraw a0 a1 a2 : Statement (.sraw a0 a1 a2) := rfl
theorem mulw a0 a1 a2 : Statement (.mulw a0 a1 a2) := rfl
theorem divw a0 a1 a2 : Statement (.divw a0 a1 a2) := rfl
theorem divuw a0 a1 a2 : Statement (.divuw a0 a1 a2) := rfl
theorem remw a0 a1 a2 : Statement (.remw a0 a1 a2) := rfl
theorem remuw a0 a1 a2 : Statement (.remuw a0 a1 a2) := rfl
theorem addUw a0 a1 a2 : Statement (.addUw a0 a1 a2) := rfl
theorem zextH a0 a1 : Statement (.zextH a0 a1) := rfl
theorem sh1addUw a0 a1 a2 : Statement (.sh1addUw a0 a1 a2) := rfl
theorem sh2addUw a0 a1 a2 : Statement (.sh2addUw a0 a1 a2) := rfl
theorem sh3addUw a0 a1 a2 : Statement (.sh3addUw a0 a1 a2) := rfl
theorem rolw a0 a1 a2 : Statement (.rolw a0 a1 a2) := rfl
theorem rorw a0 a1 a2 : Statement (.rorw a0 a1 a2) := rfl
theorem fence a0 a1 a2 a3 a4 : Statement (.fence a0 a1 a2 a3 a4) := rfl
theorem pause : Statement (.pause) := rfl
theorem fenceI a0 a1 a2 : Statement (.fenceI a0 a1 a2) := rfl
theorem lr a0 a1 a2 a3 a4 : Statement (.lr a0 a1 a2 a3 a4) := rfl
theorem amoswap a0 a1 a2 a3 a4 a5 : Statement (.amoswap a0 a1 a2 a3 a4 a5) := rfl
theorem amoadd a0 a1 a2 a3 a4 a5 : Statement (.amoadd a0 a1 a2 a3 a4 a5) := rfl
theorem amoxor a0 a1 a2 a3 a4 a5 : Statement (.amoxor a0 a1 a2 a3 a4 a5) := rfl
theorem amoand a0 a1 a2 a3 a4 a5 : Statement (.amoand a0 a1 a2 a3 a4 a5) := rfl
theorem amoor a0 a1 a2 a3 a4 a5 : Statement (.amoor a0 a1 a2 a3 a4 a5) := rfl
theorem amomin a0 a1 a2 a3 a4 a5 : Statement (.amomin a0 a1 a2 a3 a4 a5) := rfl
theorem amomax a0 a1 a2 a3 a4 a5 : Statement (.amomax a0 a1 a2 a3 a4 a5) := rfl
theorem amominu a0 a1 a2 a3 a4 a5 : Statement (.amominu a0 a1 a2 a3 a4 a5) := rfl
theorem amomaxu a0 a1 a2 a3 a4 a5 : Statement (.amomaxu a0 a1 a2 a3 a4 a5) := rfl
theorem ecall : Statement (.ecall) := rfl
theorem ebreak : Statement (.ebreak) := rfl
theorem sret : Statement (.sret) := rfl
theorem wfi : Statement (.wfi) := rfl
theorem qstat a0 a1 : Statement (.qstat a0 a1) := rfl
theorem vdrain : Statement (.vdrain) := rfl
theorem lqpop a0 : Statement (.lqpop a0) := rfl
theorem vsptr a0 a1 : Statement (.vsptr a0 a1) := rfl
theorem vstrip a0 a1 a2 : Statement (.vstrip a0 a1 a2) := rfl
theorem bpany a0 a1 : Statement (.bpany a0 a1) := rfl
theorem bpall a0 a1 : Statement (.bpall a0 a1) := rfl
theorem bpnone a0 a1 : Statement (.bpnone a0 a1) := rfl
theorem rres a0 a1 a2 a3 : Statement (.rres a0 a1 a2 a3) := rfl
theorem rcom a0 a1 a2 : Statement (.rcom a0 a1 a2) := rfl
theorem racq a0 a1 a2 : Statement (.racq a0 a1 a2) := rfl
theorem rrel a0 a1 : Statement (.rrel a0 a1) := rfl
theorem rpush a0 a1 a2 : Statement (.rpush a0 a1 a2) := rfl
theorem rpop a0 a1 a2 : Statement (.rpop a0 a1 a2) := rfl
theorem rstat a0 a1 a2 : Statement (.rstat a0 a1 a2) := rfl
theorem rclose a0 a1 a2 : Statement (.rclose a0 a1 a2) := rfl
theorem rbeacon a0 a1 a2 : Statement (.rbeacon a0 a1 a2) := rfl
theorem hbind a0 a1 : Statement (.hbind a0 a1) := rfl
theorem hdone : Statement (.hdone) := rfl
theorem pclaim a0 a1 a2 : Statement (.pclaim a0 a1 a2) := rfl
theorem tbegin a0 a1 : Statement (.tbegin a0 a1) := rfl
theorem tend : Statement (.tend) := rfl
theorem tretry : Statement (.tretry) := rfl
theorem tabort a0 : Statement (.tabort a0) := rfl
theorem fenceS a0 a1 a2 : Statement (.fenceS a0 a1 a2) := rfl
theorem amoincw a0 a1 a2 a3 a4 a5 a6 : Statement (.amoincw a0 a1 a2 a3 a4 a5 a6) := rfl
theorem amoaddb a0 a1 a2 a3 a4 : Statement (.amoaddb a0 a1 a2 a3 a4) := rfl
theorem awopen a0 a1 : Statement (.awopen a0 a1) := rfl
theorem awmerge a0 : Statement (.awmerge a0) := rfl
theorem awclose : Statement (.awclose) := rfl

end Sys2Proof.Laws.EncodedSize
end

