-- ==== Sys2Proof/Laws/Vector.lean ====
section
/-! SUPPORT. The laws of elements and of the element loop. -/

namespace Sys2Proof.Machine

/-! ## Elements of a register -/

theorem elem_lt {n : Nat} (v : BitVec n) (w i : Nat) : elem v w i < 2 ^ w := (v.extractLsb' (i * w) w).isLt

theorem elem_testBit {n : Nat} (v : BitVec n) (w i k : Nat) :
    (elem v w i).testBit k = (decide (k < w) && v.getLsbD (i * w + k)) := by
  unfold elem
  rw [BitVec.testBit_toNat, BitVec.getLsbD_extractLsb']

/-- A bit of a register after one element has been replaced. -/
theorem getLsbD_setElem {n : Nat} (v : BitVec n) (w i x k : Nat) :
    (setElem v w i x).getLsbD k =
      if i * w ≤ k ∧ k < i * w + w then decide (k < n) && x.testBit (k - i * w) else v.getLsbD k := by
  unfold setElem
  by_cases hk : k < n
  · simp only [BitVec.getLsbD_or, BitVec.getLsbD_and, BitVec.getLsbD_not, hk, decide_true, Bool.true_and]
    rw [BitVec.getLsbD_ofNat, BitVec.getLsbD_ofNat, Nat.testBit_mul_two_pow, Nat.testBit_mul_two_pow,
      Nat.testBit_two_pow_sub_one, Nat.testBit_mod_two_pow]
    by_cases h1 : i * w ≤ k
    · by_cases h2 : k < i * w + w
      · have : k - i * w < w := by omega
        simp [h1, h2, this, hk]
      · have : ¬ k - i * w < w := by omega
        simp [h1, h2, this]
    · simp [h1]
  · rw [BitVec.getLsbD_of_ge _ _ (Nat.le_of_not_lt hk), BitVec.getLsbD_of_ge _ _ (Nat.le_of_not_lt hk)]
    simp [hk]

theorem elem_setElem_same {n : Nat} (v : BitVec n) (w i x : Nat) (h : (i + 1) * w ≤ n) :
    elem (setElem v w i x) w i = x % 2 ^ w := by
  apply Nat.eq_of_testBit_eq
  intro k
  rw [elem_testBit, Nat.testBit_mod_two_pow]
  by_cases hk : k < w
  · have h1 : (i + 1) * w = i * w + w := Nat.succ_mul i w
    rw [getLsbD_setElem, if_pos ⟨by omega, by omega⟩]
    have : i * w + k < n := by omega
    simp [hk, this]
  · simp [hk]

theorem elem_setElem_other {n : Nat} (v : BitVec n) (w i j x : Nat) (h : j ≠ i) :
    elem (setElem v w i x) w j = elem v w j := by
  apply Nat.eq_of_testBit_eq
  intro k
  rw [elem_testBit, elem_testBit]
  by_cases hk : k < w
  · rw [getLsbD_setElem, if_neg]
    rintro ⟨a, b⟩
    rcases Nat.lt_or_gt_of_ne h with lt | gt
    · have : (j + 1) * w ≤ i * w := Nat.mul_le_mul_right w lt
      rw [Nat.succ_mul] at this
      omega
    · have : (i + 1) * w ≤ j * w := Nat.mul_le_mul_right w gt
      rw [Nat.succ_mul] at this
      omega
  · simp [hk]

/-! ## The element loop -/

/-- What holds before the first element, and after an element if it held before it, holds after the last. -/
theorem elemLoop_induction {f : Nat → M Unit} (P : Nat → State → Prop) : ∀ (n i : Nat) (s : State), P i s →
    (∀ k t, i ≤ k → k < i + n → P k t → ∃ u, f k { t with hart := { t.hart with vstart := k } } = .ok () u ∧ P (k + 1) u) →
    ∃ u, elemLoop f n i s = .ok () u ∧ P (i + n) u := by
  intro n
  induction n with
  | zero => intro i s h _; exact ⟨s, rfl, h⟩
  | succ n ih =>
    intro i s h step
    obtain ⟨u, hu, pu⟩ := step i s (Nat.le_refl i) (by omega) h
    obtain ⟨v, hv, pv⟩ := ih (i + 1) u pu fun k t h1 h2 => step k t (by omega) (by omega)
    refine ⟨v, ?_, by rw [show i + (n + 1) = i + 1 + n by omega]; exact pv⟩
    unfold elemLoop
    rw [M.bind_ok (modH_apply _ s)]
    have a : Machine.atomically (f i) { s with hart := { s.hart with vstart := i } } = .ok () u := by
      unfold Machine.atomically; rw [hu]
    rw [M.bind_ok a]
    exact hv

@[simp] theorem raise_apply (f : Flags) (s : State) :
    raise f s = .ok () { s with hart := { s.hart with vfflags := s.hart.vfflags ||| f } } := rfl

@[simp] theorem completeV_apply (s : State) : completeV s = .ok () { s with hart := { s.hart with vstart := 0 } } := rfl

theorem emBit_off {c : VCtx} {i : Nat} {f : Flags} {s : State} (h : c.w.em = 0#1) : emBit c i f s = .ok () s := by
  unfold emBit; rw [if_neg (by rw [h]; decide)]; rfl

theorem emTail_off {c : VCtx} {n : Nat} {s : State} (h : c.w.em = 0#1) : emTail c n s = .ok () s := by
  unfold emTail; rw [if_neg (by rw [h]; decide)]; rfl

end Sys2Proof.Machine
end

