-- ==== Sys2Proof/Machine/Registers.lean ====
section
/-! DEFINITION. What a read of a register returns: a Lantern's machine-mode CSRs and the host's BAR0 (01 R3, R4, R13, 11
R241, R242, 12 R263, 14 R299, 17 R371, R372, 19 R405 to R407, R411, 20 R420, R427, 21 R430, R434, R438). -/

namespace Sys2Proof.Machine

/-! ## A Lantern's CSRs -/

/-- bankctl (R242): the outcome of the last bankmode write, and mincache. -/
def Cluster.bankctl (k : Cluster) : Word := setField k.bankst 0 6 k.mincache

/-- dxctl (R427). -/
def Cluster.dxctl (k : Cluster) : Word := setField (wordOf k.dxset.toNat) 28 4 k.dxst

/-- The budget that budsel selects (R434); the budget of HBM bytes is its die's. -/
def State.selectedBudget (s : State) (c : ClusterId) : Option Budget :=
  (budgetOf (s.cluster c).budsel).map fun (unit, cls, sub) =>
    (s.cluster (if unit = 1 then { die := c.die, cluster := 0 } else c)).budget unit cls sub

/-- budval (R434): the limit that holds in this tick. -/
def Budget.word (b : Budget) : Word := setField (wordOf b.limit) 63 1 (if b.slack then 1 else 0)

/-- A read of a machine-mode CSR of a cluster's Lantern: its value, and the state after it; none for a number that is no
such CSR. A read of pcdata sets pcctl.st, and one of errlog clears it. -/
def State.readLantern (s : State) (c : ClusterId) (a : Nat) : Option (Word × State) :=
  let k := s.cluster c
  let plain := fun (v : Word) => some (v, s)
  match a with
  | 0x7C0 => plain k.pcsel
  | 0x7C1 => plain k.pcidx
  | 0x7C2 => some (s.readPcdata c)
  | 0x7C3 => plain (s.pcctl c)
  | 0x7C4 => plain k.budsel
  | 0x7C5 => plain (((s.selectedBudget c).map Budget.word).getD 0#64)
  | 0x7C6 => plain (((s.selectedBudget c).map fun b => wordOf b.used).getD 0#64)
  | 0x7C8 => some (k.errlog, s.modCluster c fun k => { k with errlog := 0#64 })
  | 0x7C9 => plain 0#64
  | 0x7D0 => plain k.bankmode
  | 0x7D1 => plain k.bankctl
  | 0x7D4 => plain k.sd.va
  | 0x7D5 => plain k.sd.ctl
  | 0x7D6 => plain k.sd.cword
  | 0x7D8 => plain k.mtimeout
  | 0x7DA => plain (wordOf k.featen.toNat)
  | 0x7DB => plain k.dxctl
  | 0x7DC => plain k.dxsel
  | 0x7DD => plain (k.expansion k.dxGroup k.dxOp)
  | _ => none

/-! ## The host's BAR0 -/

/-- devinfo (R407). -/
def Device.info (d : Device) : Word := setField (setField (wordOf d.dies.toNat) 56 8 generation) 32 11 d.devid

/-- An entry of the MSI-X table; one that nothing has written is masked (log entry 20). -/
def Device.msixEntry (d : Device) (n : Nat) : MsixVector :=
  (d.msix.find? fun v => v.vector == n).getD
    { vector := n, addr := 0#64, data := 0#32, masked := true, pending := false }

/-- The second word of an MSI-X entry: its data, and bit 0 of its control. -/
def MsixVector.dataWord (v : MsixVector) : Word := setField (wordOf v.data.toNat) 32 1 (if v.masked then 1 else 0)

/-- Word k of the pending-bit array. -/
def Device.msixPending (d : Device) (k : Nat) : Word :=
  (List.range 64).foldl (fun w j => setField w j 1 (if (d.msixEntry (64 * k + j)).pending then 1 else 0)) 0#64

/-- A host read of the 8 bytes at a BAR0 offset that is a multiple of 8 (R405, R406). A device in recovery exposes devinfo
and resetctl alone, and resetctl reads 0 (R430). -/
def State.readBar0 (s : State) (off : Nat) : Word :=
  let d := s.dev
  if off = 0x0 then d.info
  else if d.boot = .recovery then 0#64
  else if off = 0x8 then d.bar2ctl
  else if off = 0x10 then d.hostbase
  else if 0x2_0000 ≤ off ∧ off < 0x2_0800 then assocGet ((off - 0x2_0000) / 8) 0#64 d.beacons
  else if off = 0x3_0000 then d.hsd.va
  else if off = 0x3_0008 then d.hsd.ctl
  else if off = 0x3_0010 then d.hsd.cword
  else if 0x10_0000 ≤ off ∧ off < 0x10_1000 then
    let v := d.msixEntry ((off - 0x10_0000) / 16)
    if off % 16 = 0 then v.addr else v.dataWord
  else if 0x10_1000 ≤ off ∧ off < 0x10_1020 then d.msixPending ((off - 0x10_1000) / 8)
  else 0#64

end Sys2Proof.Machine
end

