-- ==== Sys2Proof/Machine/Loader.lean ====
section
/-! DEFINITION. Code objects, bundles and what the loader does with them (20 R414 to R423). The loader runs as Lantern
firmware: it is no step of the device, and these functions say what it chooses and writes. -/

namespace Sys2Proof.Machine

/-! ## The image (R414 to R418) -/

/-- Bytes from off to off + n lie in an image. -/
def inImage (b : List Byte) (off n : Nat) : Bool := decide (off + n ≤ b.length)

def icoGen (b : List Byte) : Nat := pkt b 5 1
def icoFeatures (b : List Byte) : BitVec 64 := wordOf (pkt b 8 8)
def icoDxset (b : List Byte) : Nat := pkt b 16 2
def icoSections (b : List Byte) : Nat := pkt b 18 2
def icoSymbols (b : List Byte) : Nat := pkt b 20 4
def icoRelocs (b : List Byte) : Nat := pkt b 24 4
def icoTemplates (b : List Byte) : Nat := pkt b 28 4

/-- Entry k of a table of entries of n bytes whose offset stands at a place of the header. -/
def icoEntry (b : List Byte) (place n k : Nat) : List Byte := (b.drop (pkt b place 4 + n * k)).take n

def icoSection (b : List Byte) (k : Nat) : List Byte := icoEntry b 32 32 k
def icoSymbol (b : List Byte) (k : Nat) : List Byte := icoEntry b 36 24 k
def icoReloc (b : List Byte) (k : Nat) : List Byte := icoEntry b 40 24 k
def icoTemplate (b : List Byte) (k : Nat) : List Byte := icoEntry b 44 32 k

/-- A name: a string offset whose bytes end in a NUL within the string table. -/
def icoNameOk (b : List Byte) (name : Nat) : Bool :=
  (((b.drop (pkt b 48 4)).take (pkt b 52 4)).drop name).contains 0#8

/-- Flag bits of a section: r, w, x, z, s. -/
def sectionFlag (e : List Byte) (k : Nat) : Bool := (pkt e 4 1).testBit k

/-- A section has contents in the image. -/
def sectionCopied (e : List Byte) : Bool := !sectionFlag e 3 && !sectionFlag e 4

/-- The rules on a section entry (R415). -/
def sectionOk (b e : List Byte) : Bool :=
  icoNameOk b (pkt e 0 4) && decide (pkt e 4 1 < 32) && decide (pkt e 5 1 ≤ 16) && pkt e 6 2 == 0 && pkt e 28 4 == 0 &&
  (if sectionCopied e then inImage b (pkt e 16 4) (pkt e 8 8) else pkt e 16 4 == 0) &&
  (!sectionFlag e 2 || (sectionFlag e 0 && !sectionFlag e 1)) && decide (pkt e 20 4 + pkt e 24 4 ≤ icoRelocs b)

/-- The rules on a symbol entry (R416); a symbol of a section that the image does not have is undefined (R423). -/
def symbolOk (b e : List Byte) : Bool :=
  icoNameOk b (pkt e 0 4) && (decide (pkt e 4 2 < icoSections b) || pkt e 4 2 == 0xFFFF) && decide (pkt e 6 1 ≤ 1) &&
  decide (pkt e 7 1 ≤ 3)

/-- The rules on a relocation record (R417); its type and its link are the copy engine's to check (R424). -/
def relocOk (b e : List Byte) : Bool := decide (pkt e 16 4 < icoSymbols b) && pkt e 20 4 == 0

/-- The rules on a template entry (R418). -/
def templateOk (b e : List Byte) : Bool :=
  let top := match pkt e 0 1 with
    | 0 => 7
    | 1 => 31
    | _ => 0
  decide (pkt e 0 1 ≤ 4) && decide (pkt e 1 1 ≤ top) && pkt e 2 2 == 0 && decide (pkt e 4 4 < icoSymbols b) &&
  (pkt e 0 1 == 2 || pkt e 8 24 == 0)

/-- An image that breaks no rule of R414 to R419. -/
def icoOk (b : List Byte) : Bool :=
  let table := fun place n count => pkt b place 4 % 8 == 0 && inImage b (pkt b place 4) (n * count)
  decide (64 ≤ b.length) && pkt b 0 4 == 0x014F4349 && pkt b 4 1 == 1 && icoGen b != 0 && pkt b 6 2 == 0 &&
  decide ((icoFeatures b).toNat < 2 ^ 11) && ((icoFeatures b).getLsbD 10 || icoDxset b == 0) &&
  decide (1 ≤ icoSections b) && decide (icoSections b ≤ 1024) && table 32 32 (icoSections b) && table 36 24 (icoSymbols b) &&
  table 40 24 (icoRelocs b) && table 44 32 (icoTemplates b) && inImage b (pkt b 48 4) (pkt b 52 4) && pkt b 56 8 == 0 &&
  ((List.range (icoSections b)).all fun k => sectionOk b (icoSection b k)) &&
  ((List.range (icoSymbols b)).all fun k => symbolOk b (icoSymbol b k)) &&
  ((List.range (icoRelocs b)).all fun k => relocOk b (icoReloc b k)) &&
  ((List.range (icoTemplates b)).all fun k => templateOk b (icoTemplate b k))

/-! ## Bundles and selection (R421, R422) -/

/-- The images of a bundle, in its order; a single code object is a bundle of one. An image at an offset that is no multiple
of 64, or that the bundle does not hold, is malformed: it stands here as no bytes. None for a malformed bundle. -/
def bundleImages (b : List Byte) : Option (List (List Byte)) :=
  if pkt b 0 4 = 0x014F4349 then some [b]
  else if pkt b 0 4 = 0x424F4349 ∧ 1 ≤ pkt b 4 2 ∧ pkt b 4 2 ≤ 64 ∧ pkt b 6 10 = 0 then
    some ((List.range (pkt b 4 2)).map fun i =>
      let off := pkt b (16 + 16 * i) 8
      let size := pkt b (24 + 16 * i) 8
      if off % 64 = 0 ∧ inImage b off size then (b.drop off).take size else [])
  else none

/-- An image may be chosen on a cluster of the device. -/
def candidateImage (k : Cluster) (b : List Byte) : Bool :=
  icoOk b && ((icoFeatures b).toNat &&& k.featen.toNat) == (icoFeatures b).toNat && decide (icoGen b ≤ generation) &&
  (!(icoFeatures b).getLsbD 10 || icoDxset b == k.dxset.toNat)

/-- The number of features of an image. -/
def featureCount (b : List Byte) : Nat := (List.range 11).countP (icoFeatures b).getLsbD

/-- One image goes before another that stands earlier in the bundle. -/
def betterImage (a b : List Byte) : Bool :=
  decide (icoGen b < icoGen a) || (icoGen a == icoGen b && decide (featureCount b < featureCount a))

/-- Select (R421): the image that the loader of a cluster takes; none is NO-IMAGE. -/
def selectImage (k : Cluster) (images : List (List Byte)) : Option (List Byte) :=
  (images.filter (candidateImage k)).foldl (fun best b =>
    match best with
    | some a => if betterImage b a then some b else some a
    | none => some b) none

/-! ## Loading (R417, R423) -/

/-- The value of a symbol, given the address of each section. -/
def symbolValue (addr : Nat → Word) (e : List Byte) : Word :=
  if pkt e 4 2 = 0xFFFF then wordOf (pkt e 8 8) else addr (pkt e 4 2) + wordOf (pkt e 8 8)

/-- The 16-byte copy record of a relocation record (R417). -/
def copyRecord (b : List Byte) (addr : Nat → Word) (e : List Byte) : List Byte :=
  e.take 8 ++ lowBytes 8 (symbolValue addr (icoSymbol b (pkt e 16 4)) + wordOf (pkt e 8 8)).toNat

/-- The copy records of a section, in order. -/
def sectionRecords (b : List Byte) (addr : Nat → Word) (k : Nat) : List Byte :=
  let e := icoSection b k
  (List.range (pkt e 24 4)).flatMap fun j => copyRecord b addr (icoReloc b (pkt e 20 4 + j))

/-- The CPYT descriptor of a section with contents (R423 step 4): one packed dimension of its bytes, palette 0, relocations,
and an execute mark for a section with x. src is where its contents stand, recs its copy records, cword its completion word
and scope that of the copy. -/
def sectionCopy (b : List Byte) (k scope : Nat) (src dst recs cword : Word) : List Byte :=
  let e := icoSection b k
  lowBytes 8 (1 + 2 ^ 6 + (if sectionFlag e 2 then 2 ^ 7 else 0) + 2 ^ 12 * scope) ++ lowBytes 8 0 ++ lowBytes 8 src.toNat ++
  lowBytes 8 dst.toNat ++ lowBytes 8 cword.toNat ++ lowBytes 8 0 ++ lowBytes 4 0 ++ lowBytes 4 (pkt e 24 4) ++
  lowBytes 8 recs.toNat ++ lowBytes 4 (pkt e 8 8) ++ lowBytes 20 0

/-- A completion word lets a section's pages be executed (R423 steps 5 and 6, R278, R425): done, status OK and x = 1. -/
def sectionExecutable (word : Word) : Bool := word.getLsbD 63 && fieldOf word 0 8 == 0 && word.getLsbD 62

end Sys2Proof.Machine
end

