-- ==== Sys2Proof/Tests/Slice0.lean ====
section
/-! SUPPORT. The model's own tests: words of the spec's encodings and what they decode to, ill-formed instructions that the
checks refuse, single steps with values from the spec, and for every statement with hypotheses a witness: states and operands
that meet them. -/

namespace Sys2Proof.Tests
open Sys2Proof.Machine

-- One theorem after the other: each thread of the elaborator takes its share of the memory that a check may use.
set_option Elab.async false

/-! ## Words and instructions -/

/-- The fields of a W instruction in the order of R70, from aux9 down to vd, without op and grp. -/
def fields (aux9 : BitVec 9) (sat : BitVec 1) (rm : BitVec 3) (lqv em : BitVec 1) (pe pg : BitVec 4)
    (xp vs3 vs2 vs1 vd : Reg) : WWord :=
  { aux9, sat, rm, lqv, em, pe, pg, xp, vs3, vs2, vs1, vd }

/-- LUI, AUIPC and the register and immediate forms (R89): the match words with rd = x10, rs1 = x11, rs2 = x12. -/
theorem test_decode_scalar_computation_0 :
    decodeTableWord 32 0x8123_4537 = some (.lui 10#5 0x81234#20) ∧
    decodeTableWord 32 0x8123_4517 = some (.auipc 10#5 0x81234#20) ∧
    decodeTableWord 32 0xF855_8513 = some (.addi 10#5 11#5 0xF85#12) ∧
    decodeTableWord 32 0xF855_A513 = some (.slti 10#5 11#5 0xF85#12) ∧
    decodeTableWord 32 0xF855_B513 = some (.sltiu 10#5 11#5 0xF85#12) ∧
    decodeTableWord 32 0xF855_C513 = some (.xori 10#5 11#5 0xF85#12) ∧
    decodeTableWord 32 0xF855_E513 = some (.ori 10#5 11#5 0xF85#12) ∧
    decodeTableWord 32 0xF855_F513 = some (.andi 10#5 11#5 0xF85#12) ∧
    decodeTableWord 32 0x0155_9513 = some (.slli 10#5 11#5 0x15#6) ∧
    decodeTableWord 32 0x0155_D513 = some (.srli 10#5 11#5 0x15#6) ∧
    decodeTableWord 32 0x4155_D513 = some (.srai 10#5 11#5 0x15#6) ∧
    decodeTableWord 32 0x6155_D513 = some (.rori 10#5 11#5 0x15#6) ∧
    decodeTableWord 32 0x6005_9513 = some (.clz 10#5 11#5) ∧
    decodeTableWord 32 0x6015_9513 = some (.ctz 10#5 11#5) ∧
    decodeTableWord 32 0x6025_9513 = some (.cpop 10#5 11#5) ∧
    decodeTableWord 32 0x6045_9513 = some (.sextB 10#5 11#5) ∧
    decodeTableWord 32 0x6055_9513 = some (.sextH 10#5 11#5) ∧
    decodeTableWord 32 0x2875_D513 = some (.orcB 10#5 11#5) ∧
    decodeTableWord 32 0x6B85_D513 = some (.rev8 10#5 11#5) ∧
    decodeTableWord 32 0xF855_851B = some (.addiw 10#5 11#5 0xF85#12) ∧
    decodeTableWord 32 0x0155_951B = some (.slliw 10#5 11#5 0x15#5) ∧
    decodeTableWord 32 0x0155_D51B = some (.srliw 10#5 11#5 0x15#5) ∧
    decodeTableWord 32 0x4155_D51B = some (.sraiw 10#5 11#5 0x15#5) ∧
    decodeTableWord 32 0x6155_D51B = some (.roriw 10#5 11#5 0x15#5) :=
  ⟨rfl, rfl, rfl, rfl, rfl, rfl, rfl, rfl, rfl, rfl, rfl, rfl, rfl, rfl, rfl, rfl, rfl, rfl, rfl, rfl, rfl, rfl, rfl, rfl⟩

/-- LUI, AUIPC and the register and immediate forms (R89): the match words with rd = x10, rs1 = x11, rs2 = x12. -/
theorem test_decode_scalar_computation_1 :
    decodeTableWord 32 0x0955_951B = some (.slliUw 10#5 11#5 0x15#6) ∧
    decodeTableWord 32 0x6005_951B = some (.clzw 10#5 11#5) ∧
    decodeTableWord 32 0x6015_951B = some (.ctzw 10#5 11#5) ∧
    decodeTableWord 32 0x6025_951B = some (.cpopw 10#5 11#5) ∧
    decodeTableWord 32 0x00C5_8533 = some (.add 10#5 11#5 12#5) ∧
    decodeTableWord 32 0x00C5_9533 = some (.sll 10#5 11#5 12#5) ∧
    decodeTableWord 32 0x00C5_A533 = some (.slt 10#5 11#5 12#5) ∧
    decodeTableWord 32 0x00C5_B533 = some (.sltu 10#5 11#5 12#5) ∧
    decodeTableWord 32 0x00C5_C533 = some (.xor 10#5 11#5 12#5) ∧
    decodeTableWord 32 0x00C5_D533 = some (.srl 10#5 11#5 12#5) ∧
    decodeTableWord 32 0x00C5_E533 = some (.or 10#5 11#5 12#5) ∧
    decodeTableWord 32 0x00C5_F533 = some (.and 10#5 11#5 12#5) ∧
    decodeTableWord 32 0x40C5_8533 = some (.sub 10#5 11#5 12#5) ∧
    decodeTableWord 32 0x40C5_D533 = some (.sra 10#5 11#5 12#5) ∧
    decodeTableWord 32 0x40C5_C533 = some (.xnor 10#5 11#5 12#5) ∧
    decodeTableWord 32 0x40C5_E533 = some (.orn 10#5 11#5 12#5) ∧
    decodeTableWord 32 0x40C5_F533 = some (.andn 10#5 11#5 12#5) ∧
    decodeTableWord 32 0x02C5_8533 = some (.mul 10#5 11#5 12#5) ∧
    decodeTableWord 32 0x02C5_9533 = some (.mulh 10#5 11#5 12#5) ∧
    decodeTableWord 32 0x02C5_A533 = some (.mulhsu 10#5 11#5 12#5) ∧
    decodeTableWord 32 0x02C5_B533 = some (.mulhu 10#5 11#5 12#5) ∧
    decodeTableWord 32 0x02C5_C533 = some (.div 10#5 11#5 12#5) ∧
    decodeTableWord 32 0x02C5_D533 = some (.divu 10#5 11#5 12#5) ∧
    decodeTableWord 32 0x02C5_E533 = some (.rem 10#5 11#5 12#5) :=
  ⟨rfl, rfl, rfl, rfl, rfl, rfl, rfl, rfl, rfl, rfl, rfl, rfl, rfl, rfl, rfl, rfl, rfl, rfl, rfl, rfl, rfl, rfl, rfl, rfl⟩

/-- LUI, AUIPC and the register and immediate forms (R89): the match words with rd = x10, rs1 = x11, rs2 = x12. -/
theorem test_decode_scalar_computation_2 :
    decodeTableWord 32 0x02C5_F533 = some (.remu 10#5 11#5 12#5) ∧
    decodeTableWord 32 0x20C5_A533 = some (.sh1add 10#5 11#5 12#5) ∧
    decodeTableWord 32 0x20C5_C533 = some (.sh2add 10#5 11#5 12#5) ∧
    decodeTableWord 32 0x20C5_E533 = some (.sh3add 10#5 11#5 12#5) ∧
    decodeTableWord 32 0x0AC5_C533 = some (.min 10#5 11#5 12#5) ∧
    decodeTableWord 32 0x0AC5_D533 = some (.minu 10#5 11#5 12#5) ∧
    decodeTableWord 32 0x0AC5_E533 = some (.max 10#5 11#5 12#5) ∧
    decodeTableWord 32 0x0AC5_F533 = some (.maxu 10#5 11#5 12#5) ∧
    decodeTableWord 32 0x60C5_9533 = some (.rol 10#5 11#5 12#5) ∧
    decodeTableWord 32 0x60C5_D533 = some (.ror 10#5 11#5 12#5) ∧
    decodeTableWord 32 0x0EC5_D533 = some (.czeroEqz 10#5 11#5 12#5) ∧
    decodeTableWord 32 0x0EC5_F533 = some (.czeroNez 10#5 11#5 12#5) ∧
    decodeTableWord 32 0x00C5_853B = some (.addw 10#5 11#5 12#5) ∧
    decodeTableWord 32 0x00C5_953B = some (.sllw 10#5 11#5 12#5) ∧
    decodeTableWord 32 0x00C5_D53B = some (.srlw 10#5 11#5 12#5) ∧
    decodeTableWord 32 0x40C5_853B = some (.subw 10#5 11#5 12#5) ∧
    decodeTableWord 32 0x40C5_D53B = some (.sraw 10#5 11#5 12#5) ∧
    decodeTableWord 32 0x02C5_853B = some (.mulw 10#5 11#5 12#5) ∧
    decodeTableWord 32 0x02C5_C53B = some (.divw 10#5 11#5 12#5) ∧
    decodeTableWord 32 0x02C5_D53B = some (.divuw 10#5 11#5 12#5) ∧
    decodeTableWord 32 0x02C5_E53B = some (.remw 10#5 11#5 12#5) ∧
    decodeTableWord 32 0x02C5_F53B = some (.remuw 10#5 11#5 12#5) ∧
    decodeTableWord 32 0x08C5_853B = some (.addUw 10#5 11#5 12#5) ∧
    decodeTableWord 32 0x0805_C53B = some (.zextH 10#5 11#5) :=
  ⟨rfl, rfl, rfl, rfl, rfl, rfl, rfl, rfl, rfl, rfl, rfl, rfl, rfl, rfl, rfl, rfl, rfl, rfl, rfl, rfl, rfl, rfl, rfl, rfl⟩

/-- LUI, AUIPC and the register and immediate forms (R89): the match words with rd = x10, rs1 = x11, rs2 = x12. -/
theorem test_decode_scalar_computation_3 :
    decodeTableWord 32 0x20C5_A53B = some (.sh1addUw 10#5 11#5 12#5) ∧
    decodeTableWord 32 0x20C5_C53B = some (.sh2addUw 10#5 11#5 12#5) ∧
    decodeTableWord 32 0x20C5_E53B = some (.sh3addUw 10#5 11#5 12#5) ∧
    decodeTableWord 32 0x60C5_953B = some (.rolw 10#5 11#5 12#5) ∧
    decodeTableWord 32 0x60C5_D53B = some (.rorw 10#5 11#5 12#5) :=
  ⟨rfl, rfl, rfl, rfl, rfl⟩

/-- Jumps and branches: the scattered offset bits of the J and B layouts (R64). -/
theorem test_decode_scalar_control :
    decodeTableWord 32 0xC680_256F = some (.jal 10#5 0x81234#20) ∧
    decodeTableWord 32 0xF855_8567 = some (.jalr 10#5 11#5 0xF85#12) ∧
    decodeTableWord 32 0xEAC5_86E3 = some (.beq 11#5 12#5 0xF56#12) ∧
    decodeTableWord 32 0xEAC5_96E3 = some (.bne 11#5 12#5 0xF56#12) ∧
    decodeTableWord 32 0xEAC5_C6E3 = some (.blt 11#5 12#5 0xF56#12) ∧
    decodeTableWord 32 0xEAC5_D6E3 = some (.bge 11#5 12#5 0xF56#12) ∧
    decodeTableWord 32 0xEAC5_E6E3 = some (.bltu 11#5 12#5 0xF56#12) ∧
    decodeTableWord 32 0xEAC5_F6E3 = some (.bgeu 11#5 12#5 0xF56#12) :=
  ⟨rfl, rfl, rfl, rfl, rfl, rfl, rfl, rfl⟩

/-- Loads, stores, atomics, fences and cache-block operations (R91 to R95). -/
theorem test_decode_scalar_memory_0 :
    decodeTableWord 32 0xF855_8503 = some (.lb 10#5 11#5 0xF85#12) ∧
    decodeTableWord 32 0xF855_9503 = some (.lh 10#5 11#5 0xF85#12) ∧
    decodeTableWord 32 0xF855_A503 = some (.lw 10#5 11#5 0xF85#12) ∧
    decodeTableWord 32 0xF855_B503 = some (.ld 10#5 11#5 0xF85#12) ∧
    decodeTableWord 32 0xF855_C503 = some (.lbu 10#5 11#5 0xF85#12) ∧
    decodeTableWord 32 0xF855_D503 = some (.lhu 10#5 11#5 0xF85#12) ∧
    decodeTableWord 32 0xF855_E503 = some (.lwu 10#5 11#5 0xF85#12) ∧
    decodeTableWord 32 0xF8C5_82A3 = some (.sb 11#5 12#5 0xF85#12) ∧
    decodeTableWord 32 0xF8C5_92A3 = some (.sh 11#5 12#5 0xF85#12) ∧
    decodeTableWord 32 0xF8C5_A2A3 = some (.sw 11#5 12#5 0xF85#12) ∧
    decodeTableWord 32 0xF8C5_B2A3 = some (.sd 11#5 12#5 0xF85#12) ∧
    decodeTableWord 32 0x8A55_850F = some (.fence 0x8#4 0xA#4 0x5#4 11#5 10#5) ∧
    decodeTableWord 32 0x0100_000F = some .pause ∧
    decodeTableWord 32 0xF855_950F = some (.fenceI 0xF85#12 11#5 10#5) ∧
    decodeTableWord 32 0x0005_A00F = some (.cboInval 11#5) ∧
    decodeTableWord 32 0x0015_A00F = some (.cboClean 11#5) ∧
    decodeTableWord 32 0x0025_A00F = some (.cboFlush 11#5) ∧
    decodeTableWord 32 0x0045_A00F = some (.cboZero 11#5) ∧
    decodeTableWord 32 0x1405_B52F = some (.lr 0x1#1 0x0#1 0x1#1 10#5 11#5) ∧
    decodeTableWord 32 0x1CC5_B52F = some (.sc 0x1#1 0x0#1 0x1#1 10#5 11#5 12#5) ∧
    decodeTableWord 32 0x0CC5_B52F = some (.amoswap 0x1#1 0x0#1 0x1#1 10#5 11#5 12#5) ∧
    decodeTableWord 32 0x04C5_B52F = some (.amoadd 0x1#1 0x0#1 0x1#1 10#5 11#5 12#5) ∧
    decodeTableWord 32 0x24C5_B52F = some (.amoxor 0x1#1 0x0#1 0x1#1 10#5 11#5 12#5) ∧
    decodeTableWord 32 0x64C5_B52F = some (.amoand 0x1#1 0x0#1 0x1#1 10#5 11#5 12#5) :=
  ⟨rfl, rfl, rfl, rfl, rfl, rfl, rfl, rfl, rfl, rfl, rfl, rfl, rfl, rfl, rfl, rfl, rfl, rfl, rfl, rfl, rfl, rfl, rfl, rfl⟩

/-- Loads, stores, atomics, fences and cache-block operations (R91 to R95). -/
theorem test_decode_scalar_memory_1 :
    decodeTableWord 32 0x44C5_B52F = some (.amoor 0x1#1 0x0#1 0x1#1 10#5 11#5 12#5) ∧
    decodeTableWord 32 0x84C5_B52F = some (.amomin 0x1#1 0x0#1 0x1#1 10#5 11#5 12#5) ∧
    decodeTableWord 32 0xA4C5_B52F = some (.amomax 0x1#1 0x0#1 0x1#1 10#5 11#5 12#5) ∧
    decodeTableWord 32 0xC4C5_B52F = some (.amominu 0x1#1 0x0#1 0x1#1 10#5 11#5 12#5) ∧
    decodeTableWord 32 0xE4C5_B52F = some (.amomaxu 0x1#1 0x0#1 0x1#1 10#5 11#5 12#5) :=
  ⟨rfl, rfl, rfl, rfl, rfl⟩

/-- System instructions (R89, R90). -/
theorem test_decode_system :
    decodeTableWord 32 0x0000_0073 = some .ecall ∧
    decodeTableWord 32 0x0010_0073 = some .ebreak ∧
    decodeTableWord 32 0x1020_0073 = some .sret ∧
    decodeTableWord 32 0x1050_0073 = some .wfi ∧
    decodeTableWord 32 0x12C5_8073 = some (.sfenceVma 11#5 12#5) ∧
    decodeTableWord 32 0x3415_9573 = some (.csrrw 0x341#12 10#5 11#5) ∧
    decodeTableWord 32 0x3415_A573 = some (.csrrs 0x341#12 10#5 11#5) ∧
    decodeTableWord 32 0x3415_B573 = some (.csrrc 0x341#12 10#5 11#5) ∧
    decodeTableWord 32 0x3419_D573 = some (.csrrwi 0x341#12 10#5 19#5) ∧
    decodeTableWord 32 0x3419_E573 = some (.csrrsi 0x341#12 10#5 19#5) ∧
    decodeTableWord 32 0x3419_F573 = some (.csrrci 0x341#12 10#5 19#5) :=
  ⟨rfl, rfl, rfl, rfl, rfl, rfl, rfl, rfl, rfl, rfl, rfl⟩

/-- custom-0 (R65). -/
theorem test_decode_vector_control :
    decodeTableWord 32 0x8020_050B = some (.vgrant 10#5 0x2#2 0x2#2) ∧
    decodeTableWord 32 0x0005_910B = some (.qpush 2#5 11#5) ∧
    decodeTableWord 32 0x0203_150B = some (.qpop 10#5 6#5) ∧
    decodeTableWord 32 0x0401_150B = some (.qstat 10#5 2#5) ∧
    decodeTableWord 32 0x0600_100B = some .vdrain ∧
    decodeTableWord 32 0x0800_150B = some (.lqpop 10#5) ∧
    decodeTableWord 32 0x0A05_950B = some (.vsptr 10#5 11#5) ∧
    decodeTableWord 32 0xEAC5_A68B = some (.vstrip 11#5 12#5 0xF56#12) ∧
    decodeTableWord 32 0xEA04_C68B = some (.bpany 0x9#4 0xF56#12) ∧
    decodeTableWord 32 0xEA04_D68B = some (.bpall 0x9#4 0xF56#12) ∧
    decodeTableWord 32 0xEA04_E68B = some (.bpnone 0x9#4 0xF56#12) :=
  ⟨rfl, rfl, rfl, rfl, rfl, rfl, rfl, rfl, rfl, rfl, rfl⟩

/-- custom-1 (R66). -/
theorem test_decode_rings :
    decodeTableWord 32 0x0615_852B = some (.rres 0x3#3 0x1#1 10#5 11#5) ∧
    decodeTableWord 32 0x1615_802B = some (.rcom 0x3#3 0x1#1 11#5) ∧
    decodeTableWord 32 0x2605_852B = some (.racq 0x3#3 10#5 11#5) ∧
    decodeTableWord 32 0x3605_802B = some (.rrel 0x3#3 11#5) ∧
    decodeTableWord 32 0x46C5_802B = some (.rpush 0x3#3 11#5 12#5) ∧
    decodeTableWord 32 0x5605_852B = some (.rpop 0x3#3 10#5 11#5) ∧
    decodeTableWord 32 0x6605_852B = some (.rstat 0x3#3 10#5 11#5) ∧
    decodeTableWord 32 0x7615_802B = some (.rclose 0x3#3 0x1#1 11#5) ∧
    decodeTableWord 32 0x86C5_802B = some (.rbeacon 0x3#3 11#5 12#5) ∧
    decodeTableWord 32 0x00C5_902B = some (.hbind 11#5 12#5) ∧
    decodeTableWord 32 0x0200_102B = some .hdone ∧
    decodeTableWord 32 0x04C5_902B = some (.hsend 11#5 12#5) ∧
    decodeTableWord 32 0x00C5_A52B = some (.pclaim 10#5 11#5 12#5) :=
  ⟨rfl, rfl, rfl, rfl, rfl, rfl, rfl, rfl, rfl, rfl, rfl, rfl, rfl⟩

/-- custom-2 (R67). -/
theorem test_decode_transactions :
    decodeTableWord 32 0xF560_055B = some (.tbegin 10#5 0xF56#12) ∧
    decodeTableWord 32 0xF560_105B = some (.torelse 0xF56#12) ∧
    decodeTableWord 32 0x0000_205B = some .tend ∧
    decodeTableWord 32 0x0200_205B = some .tretry ∧
    decodeTableWord 32 0x0550_205B = some (.tabort 0x15#5) ∧
    decodeTableWord 32 0x0632_A55B = some (.fenceS 0x3#3 0x5#4 0xA#4) ∧
    decodeTableWord 32 0x9CC5_B55B = some (.amoincw 0x1#1 0x0#1 0x3#3 0x2#2 10#5 11#5 12#5) ∧
    decodeTableWord 32 0x6CC5_C55B = some (.amoaddb 0x2#2 10#5 11#5 12#5 13#5) ∧
    decodeTableWord 32 0x00C5_D05B = some (.awopen 11#5 12#5) ∧
    decodeTableWord 32 0x0230_505B = some (.awmerge 0x3#3) ∧
    decodeTableWord 32 0x0400_505B = some .awclose :=
  ⟨rfl, rfl, rfl, rfl, rfl, rfl, rfl, rfl, rfl, rfl, rfl⟩

/-- custom-3 (R68). -/
theorem test_decode_streams_and_engines :
    decodeTableWord 32 0x0005_83FB = some (.sbind 0x7#4 11#5) ∧
    decodeTableWord 32 0x02C5_83FB = some (.sset 0x7#4 11#5 12#5) ∧
    decodeTableWord 32 0x0400_03FB = some (.sfence 0x7#4) ∧
    decodeTableWord 32 0x0603_88FB = some (.vbind 17#5 0x7#4) ∧
    decodeTableWord 32 0x0800_08FB = some (.vunbind 17#5) ∧
    decodeTableWord 32 0x0005_907B = some (.cpyt 11#5) ∧
    decodeTableWord 32 0x02C5_907B = some (.cpyg 11#5 12#5) ∧
    decodeTableWord 32 0x0405_907B = some (.cpyc 11#5) ∧
    decodeTableWord 32 0x06C5_907B = some (.ownset 11#5 12#5) ∧
    decodeTableWord 32 0x0805_957B = some (.owntst 10#5 11#5) ∧
    decodeTableWord 32 0x0000_A2FB = some (.mena 0x5#3 0x1#2) ∧
    decodeTableWord 32 0x0200_22FB = some (.mdis 0x5#3) ∧
    decodeTableWord 32 0x0000_307B = some .xfsave ∧
    decodeTableWord 32 0x0200_307B = some .xfload :=
  ⟨rfl, rfl, rfl, rfl, rfl, rfl, rfl, rfl, rfl, rfl, rfl, rfl, rfl, rfl⟩

/-- Group 0 of the W format (R70, R74). -/
theorem test_decode_w_integer :
    decodeTableWord 64 0x0001_1B4D_4139_08BF = some (.vadd (fields 0#9 1#1 0#3 1#1 1#1 6#4 9#4 21#5 0#5 19#5 18#5 17#5)) ∧
    decodeTableWord 64 0x0003_1B4D_4139_08BF = some (.vsub (fields 0#9 1#1 0#3 1#1 1#1 6#4 9#4 21#5 0#5 19#5 18#5 17#5)) ∧
    decodeTableWord 64 0x0005_1B4D_4139_08BF = some (.vrsub (fields 0#9 1#1 0#3 1#1 1#1 6#4 9#4 21#5 0#5 19#5 18#5 17#5)) ∧
    decodeTableWord 64 0x0007_1B4D_4139_08BF = some (.vmul (fields 0#9 1#1 0#3 1#1 1#1 6#4 9#4 21#5 0#5 19#5 18#5 17#5)) ∧
    decodeTableWord 64 0x0009_1B4D_4139_08BF = some (.vmulh (fields 0#9 1#1 0#3 1#1 1#1 6#4 9#4 21#5 0#5 19#5 18#5 17#5)) ∧
    decodeTableWord 64 0x000B_1B4D_6939_08BF = some (.vmadd (fields 0#9 1#1 0#3 1#1 1#1 6#4 9#4 21#5 20#5 19#5 18#5 17#5)) ∧
    decodeTableWord 64 0x000D_1B4D_4139_08BF = some (.vdiv (fields 0#9 1#1 0#3 1#1 1#1 6#4 9#4 21#5 0#5 19#5 18#5 17#5)) ∧
    decodeTableWord 64 0x000F_1B4D_4139_08BF = some (.vrem (fields 0#9 1#1 0#3 1#1 1#1 6#4 9#4 21#5 0#5 19#5 18#5 17#5)) ∧
    decodeTableWord 64 0x0011_1B4D_4139_08BF = some (.vmin (fields 0#9 1#1 0#3 1#1 1#1 6#4 9#4 21#5 0#5 19#5 18#5 17#5)) ∧
    decodeTableWord 64 0x0013_1B4D_4139_08BF = some (.vmax (fields 0#9 1#1 0#3 1#1 1#1 6#4 9#4 21#5 0#5 19#5 18#5 17#5)) ∧
    decodeTableWord 64 0xB794_1B4D_4009_08BF = some (.vand (fields 367#9 0#1 0#3 1#1 1#1 6#4 9#4 21#5 0#5 0#5 18#5 17#5)) ∧
    decodeTableWord 64 0xB796_1B4D_4009_08BF = some (.vor (fields 367#9 0#1 0#3 1#1 1#1 6#4 9#4 21#5 0#5 0#5 18#5 17#5)) ∧
    decodeTableWord 64 0xB798_1B4D_4009_08BF = some (.vxor (fields 367#9 0#1 0#3 1#1 1#1 6#4 9#4 21#5 0#5 0#5 18#5 17#5)) ∧
    decodeTableWord 64 0x001B_1B4D_4139_08BF = some (.vshl (fields 0#9 1#1 0#3 1#1 1#1 6#4 9#4 21#5 0#5 19#5 18#5 17#5)) ∧
    decodeTableWord 64 0x001D_1B4D_4139_08BF = some (.vshr (fields 0#9 1#1 0#3 1#1 1#1 6#4 9#4 21#5 0#5 19#5 18#5 17#5)) ∧
    decodeTableWord 64 0x001F_1B4D_4139_08BF = some (.vabsd (fields 0#9 1#1 0#3 1#1 1#1 6#4 9#4 21#5 0#5 19#5 18#5 17#5)) ∧
    decodeTableWord 64 0x0120_1B4D_4829_03BF = some (.vcmp (fields 2#9 0#1 0#3 1#1 1#1 6#4 9#4 21#5 4#5 2#5 18#5 7#5)) ∧
    decodeTableWord 64 0x0023_1B4D_4139_08BF = some (.vidx (fields 0#9 1#1 0#3 1#1 1#1 6#4 9#4 21#5 0#5 19#5 18#5 17#5)) ∧
    decodeTableWord 64 0x00A5_7B4D_4139_08BF = some (.vnshr (fields 1#9 1#1 3#3 1#1 1#1 6#4 9#4 21#5 0#5 19#5 18#5 17#5)) :=
  ⟨rfl, rfl, rfl, rfl, rfl, rfl, rfl, rfl, rfl, rfl, rfl, rfl, rfl, rfl, rfl, rfl, rfl, rfl, rfl⟩

/-- Group 1 of the W format (R70, R74). -/
theorem test_decode_w_floating :
    decodeTableWord 64 0x0001_7B4D_4139_18BF = some (.vfadd (fields 0#9 1#1 3#3 1#1 1#1 6#4 9#4 21#5 0#5 19#5 18#5 17#5)) ∧
    decodeTableWord 64 0x0003_7B4D_4139_18BF = some (.vfsub (fields 0#9 1#1 3#3 1#1 1#1 6#4 9#4 21#5 0#5 19#5 18#5 17#5)) ∧
    decodeTableWord 64 0x0005_7B4D_4139_18BF = some (.vfmul (fields 0#9 1#1 3#3 1#1 1#1 6#4 9#4 21#5 0#5 19#5 18#5 17#5)) ∧
    decodeTableWord 64 0x0007_7B4D_4139_18BF = some (.vfdiv (fields 0#9 1#1 3#3 1#1 1#1 6#4 9#4 21#5 0#5 19#5 18#5 17#5)) ∧
    decodeTableWord 64 0x0009_7B4D_4009_18BF = some (.vfsqrt (fields 0#9 1#1 3#3 1#1 1#1 6#4 9#4 21#5 0#5 0#5 18#5 17#5)) ∧
    decodeTableWord 64 0x060B_7B4D_6939_18BF = some (.vfma (fields 12#9 1#1 3#3 1#1 1#1 6#4 9#4 21#5 20#5 19#5 18#5 17#5)) ∧
    decodeTableWord 64 0x000D_7B4D_4139_18BF = some (.vfmin (fields 0#9 1#1 3#3 1#1 1#1 6#4 9#4 21#5 0#5 19#5 18#5 17#5)) ∧
    decodeTableWord 64 0x000F_7B4D_4139_18BF = some (.vfmax (fields 0#9 1#1 3#3 1#1 1#1 6#4 9#4 21#5 0#5 19#5 18#5 17#5)) ∧
    decodeTableWord 64 0x0011_7B4D_4009_18BF = some (.vfrcp (fields 0#9 1#1 3#3 1#1 1#1 6#4 9#4 21#5 0#5 0#5 18#5 17#5)) ∧
    decodeTableWord 64 0x0013_7B4D_4009_18BF = some (.vfrsq (fields 0#9 1#1 3#3 1#1 1#1 6#4 9#4 21#5 0#5 0#5 18#5 17#5)) ∧
    decodeTableWord 64 0x0015_7B4D_4009_18BF = some (.vfexp2 (fields 0#9 1#1 3#3 1#1 1#1 6#4 9#4 21#5 0#5 0#5 18#5 17#5)) ∧
    decodeTableWord 64 0x0017_7B4D_4009_18BF = some (.vflog2 (fields 0#9 1#1 3#3 1#1 1#1 6#4 9#4 21#5 0#5 0#5 18#5 17#5)) ∧
    decodeTableWord 64 0x0018_1B4D_4D39_13BF = some (.vfcmp (fields 0#9 0#1 0#3 1#1 1#1 6#4 9#4 21#5 6#5 19#5 18#5 7#5)) ∧
    decodeTableWord 64 0x001A_1B4D_4009_18BF = some (.vfclass (fields 0#9 0#1 0#3 1#1 1#1 6#4 9#4 21#5 0#5 0#5 18#5 17#5)) ∧
    decodeTableWord 64 0x049C_1B4D_4139_18BF = some (.vfsgn (fields 9#9 0#1 0#3 1#1 1#1 6#4 9#4 21#5 0#5 19#5 18#5 17#5)) ∧
    decodeTableWord 64 0x001F_7B4D_4009_18BF = some (.vcvt (fields 0#9 1#1 3#3 1#1 1#1 6#4 9#4 21#5 0#5 0#5 18#5 17#5)) :=
  ⟨rfl, rfl, rfl, rfl, rfl, rfl, rfl, rfl, rfl, rfl, rfl, rfl, rfl, rfl, rfl, rfl⟩

/-- Group 2 of the W format (R70, R74). -/
theorem test_decode_w_movement :
    decodeTableWord 64 0x0080_1048_0139_28BF = some (.vslup (fields 1#9 0#1 0#3 1#1 0#1 0#4 9#4 0#5 0#5 19#5 18#5 17#5)) ∧
    decodeTableWord 64 0x0082_1048_0139_28BF = some (.vsldn (fields 1#9 0#1 0#3 1#1 0#1 0#4 9#4 0#5 0#5 19#5 18#5 17#5)) ∧
    decodeTableWord 64 0x0004_1048_0139_28BF = some (.vgathr (fields 0#9 0#1 0#3 1#1 0#1 0#4 9#4 0#5 0#5 19#5 18#5 17#5)) ∧
    decodeTableWord 64 0x0006_1048_0009_28BF = some (.vcompr (fields 0#9 0#1 0#3 1#1 0#1 0#4 9#4 0#5 0#5 0#5 18#5 17#5)) ∧
    decodeTableWord 64 0x0008_1048_0009_28BF = some (.vexpnd (fields 0#9 0#1 0#3 1#1 0#1 0#4 9#4 0#5 0#5 0#5 18#5 17#5)) ∧
    decodeTableWord 64 0x000A_1048_1739_28BF = some (.vsel (fields 0#9 0#1 0#3 1#1 0#1 0#4 9#4 0#5 11#5 19#5 18#5 17#5)) ∧
    decodeTableWord 64 0x010C_1048_0030_28BF = some (.vbcast (fields 2#9 0#1 0#3 1#1 0#1 0#4 9#4 0#5 0#5 3#5 0#5 17#5)) ∧
    decodeTableWord 64 0x008E_0000_0339_28BF = some (.vmvx (fields 1#9 0#1 0#3 0#1 0#1 0#4 0#4 0#5 1#5 19#5 18#5 17#5)) ∧
    decodeTableWord 64 0x8390_0000_0209_22BF = some (.vmvq (fields 263#9 0#1 0#3 0#1 0#1 0#4 0#4 0#5 1#5 0#5 18#5 5#5)) ∧
    decodeTableWord 64 0x0012_1048_0C94_23BF = some (.vplog (fields 0#9 0#1 0#3 1#1 0#1 0#4 9#4 0#5 6#5 9#5 8#5 7#5)) ∧
    decodeTableWord 64 0x0014_1048_0004_233F = some (.vpcnt (fields 0#9 0#1 0#3 1#1 0#1 0#4 9#4 0#5 0#5 0#5 8#5 6#5)) ∧
    decodeTableWord 64 0x0016_1048_0404_23BF = some (.vpfirst (fields 0#9 0#1 0#3 1#1 0#1 0#4 9#4 0#5 2#5 0#5 8#5 7#5)) ∧
    decodeTableWord 64 0x0018_1048_0204_28BF = some (.vpscan (fields 0#9 0#1 0#3 1#1 0#1 0#4 9#4 0#5 1#5 0#5 8#5 17#5)) ∧
    decodeTableWord 64 0x009A_0000_0130_23BF = some (.vpset (fields 1#9 0#1 0#3 0#1 0#1 0#4 0#4 0#5 0#5 19#5 0#5 7#5)) ∧
    decodeTableWord 64 0x001C_0000_0004_203F = some (.vmpush (fields 0#9 0#1 0#3 0#1 0#1 0#4 0#4 0#5 0#5 0#5 8#5 0#5)) ∧
    decodeTableWord 64 0x001E_0000_0000_203F = some (.vmelse (fields 0#9 0#1 0#3 0#1 0#1 0#4 0#4 0#5 0#5 0#5 0#5 0#5)) ∧
    decodeTableWord 64 0x0020_0000_0000_203F = some (.vmpop (fields 0#9 0#1 0#3 0#1 0#1 0#4 0#4 0#5 0#5 0#5 0#5 0#5)) ∧
    decodeTableWord 64 0x0023_1B4D_4B39_28BF = some (.vredi (fields 0#9 1#1 0#3 1#1 1#1 6#4 9#4 21#5 5#5 19#5 18#5 17#5)) ∧
    decodeTableWord 64 0x0025_7B4D_4739_28BF = some (.vredf (fields 0#9 1#1 3#3 1#1 1#1 6#4 9#4 21#5 3#5 19#5 18#5 17#5)) ∧
    decodeTableWord 64 0x0027_7B4D_4C09_28BF = some (.vquad (fields 0#9 1#1 3#3 1#1 1#1 6#4 9#4 21#5 6#5 0#5 18#5 17#5)) :=
  ⟨rfl, rfl, rfl, rfl, rfl, rfl, rfl, rfl, rfl, rfl, rfl, rfl, rfl, rfl, rfl, rfl, rfl, rfl, rfl, rfl⟩

/-- Group 3 of the W format (R70, R74). -/
theorem test_decode_w_vector_memory :
    decodeTableWord 64 0x0581_7B4D_4009_38BF = some (.vld (fields 11#9 1#1 3#3 1#1 1#1 6#4 9#4 21#5 0#5 0#5 18#5 17#5)) ∧
    decodeTableWord 64 0x0983_7B4D_6209_303F = some (.vst (fields 19#9 1#1 3#3 1#1 1#1 6#4 9#4 21#5 17#5 0#5 18#5 0#5)) ∧
    decodeTableWord 64 0x1205_7B4D_4139_38BF = some (.vlds (fields 36#9 1#1 3#3 1#1 1#1 6#4 9#4 21#5 0#5 19#5 18#5 17#5)) ∧
    decodeTableWord 64 0x0287_7B4D_6339_303F = some (.vsts (fields 5#9 1#1 3#3 1#1 1#1 6#4 9#4 21#5 17#5 19#5 18#5 0#5)) ∧
    decodeTableWord 64 0x2509_7B4D_4139_38BF = some (.vldx (fields 74#9 1#1 3#3 1#1 1#1 6#4 9#4 21#5 0#5 19#5 18#5 17#5)) ∧
    decodeTableWord 64 0x290B_7B4D_6339_303F = some (.vstx (fields 82#9 1#1 3#3 1#1 1#1 6#4 9#4 21#5 17#5 19#5 18#5 0#5)) ∧
    decodeTableWord 64 0xC48D_7B4D_4139_38BF = some (.vlseg (fields 393#9 1#1 3#3 1#1 1#1 6#4 9#4 21#5 0#5 19#5 18#5 17#5)) ∧
    decodeTableWord 64 0x888F_7B4D_6339_303F = some (.vsseg (fields 273#9 1#1 3#3 1#1 1#1 6#4 9#4 21#5 17#5 19#5 18#5 0#5)) ∧
    decodeTableWord 64 0x2D11_1B4D_6939_38BF = some (.vamo (fields 90#9 1#1 0#3 1#1 1#1 6#4 9#4 21#5 20#5 19#5 18#5 17#5)) ∧
    decodeTableWord 64 0x0A13_7B4D_6339_303F = some (.vstr (fields 20#9 1#1 3#3 1#1 1#1 6#4 9#4 21#5 17#5 19#5 18#5 0#5)) ∧
    decodeTableWord 64 0x0014_1B4D_6330_303F = some (.vwacc (fields 0#9 0#1 0#3 1#1 1#1 6#4 9#4 21#5 17#5 19#5 0#5 0#5)) ∧
    decodeTableWord 64 0x0116_0000_0139_303F = some (.vprf (fields 2#9 0#1 0#3 0#1 0#1 0#4 0#4 0#5 0#5 19#5 18#5 0#5)) :=
  ⟨rfl, rfl, rfl, rfl, rfl, rfl, rfl, rfl, rfl, rfl, rfl, rfl⟩

/-- Group 4 of the W format (R70, R74). -/
theorem test_decode_w_matrix :
    decodeTableWord 64 0x0000_0000_0000_42BF = some (.mzero (fields 0#9 0#1 0#3 0#1 0#1 0#4 0#4 0#5 0#5 0#5 0#5 5#5)) ∧
    decodeTableWord 64 0x0683_0B4D_5739_42BF = some (.mmac (fields 13#9 1#1 0#3 0#1 1#1 6#4 9#4 21#5 11#5 19#5 18#5 5#5)) ∧
    decodeTableWord 64 0x0005_0B4D_4139_42BF = some (.mmacv (fields 0#9 1#1 0#3 0#1 1#1 6#4 9#4 21#5 0#5 19#5 18#5 5#5)) ∧
    decodeTableWord 64 0x0087_7B4D_4332_C8BF = some (.mslco (fields 1#9 1#1 3#3 1#1 1#1 6#4 9#4 21#5 1#5 19#5 5#5 17#5)) ∧
    decodeTableWord 64 0x1389_7B4D_4209_42BF = some (.mslci (fields 39#9 1#1 3#3 1#1 1#1 6#4 9#4 21#5 1#5 0#5 18#5 5#5)) ∧
    decodeTableWord 64 0x000A_0048_0139_42BF = some (.mldt (fields 0#9 0#1 0#3 0#1 0#1 0#4 9#4 0#5 0#5 19#5 18#5 5#5)) ∧
    decodeTableWord 64 0x000C_0048_0139_42BF = some (.mstt (fields 0#9 0#1 0#3 0#1 0#1 0#4 9#4 0#5 0#5 19#5 18#5 5#5)) ∧
    decodeTableWord 64 0x000F_704D_4209_42BF = some (.mscal (fields 0#9 1#1 3#3 1#1 0#1 0#4 9#4 21#5 1#5 0#5 18#5 5#5)) :=
  ⟨rfl, rfl, rfl, rfl, rfl, rfl, rfl, rfl⟩

/-- Group 5 of the W format (R70, R74). -/
theorem test_decode_w_graphics :
    decodeTableWord 64 0x0100_7B4D_6809_58BF = some (.vtex (fields 2#9 0#1 3#3 1#1 1#1 6#4 9#4 21#5 20#5 0#5 18#5 17#5)) ∧
    decodeTableWord 64 0x0182_7B4D_6969_58BF = some (.vtexg (fields 3#9 0#1 3#3 1#1 1#1 6#4 9#4 21#5 20#5 22#5 18#5 17#5)) ∧
    decodeTableWord 64 0x0584_7B4D_6809_58BF = some (.vtexq (fields 11#9 0#1 3#3 1#1 1#1 6#4 9#4 21#5 20#5 0#5 18#5 17#5)) ∧
    decodeTableWord 64 0x0086_7B4D_6969_58BF = some (.vtexs (fields 1#9 0#1 3#3 1#1 1#1 6#4 9#4 21#5 20#5 22#5 18#5 17#5)) ∧
    decodeTableWord 64 0x0008_7B4D_6809_58BF = some (.vintp (fields 0#9 0#1 3#3 1#1 1#1 6#4 9#4 21#5 20#5 0#5 18#5 17#5)) ∧
    decodeTableWord 64 0x028A_1048_280C_583F = some (.vrayi (fields 5#9 0#1 0#3 1#1 0#1 0#4 9#4 0#5 20#5 0#5 24#5 16#5)) ∧
    decodeTableWord 64 0x000C_1048_0000_583F = some (.vrayt (fields 0#9 0#1 0#3 1#1 0#1 0#4 9#4 0#5 0#5 0#5 0#5 16#5)) ∧
    decodeTableWord 64 0x000E_1048_0000_583F = some (.vrayc (fields 0#9 0#1 0#3 1#1 0#1 0#4 9#4 0#5 0#5 0#5 0#5 16#5)) ∧
    decodeTableWord 64 0x0690_1048_000C_58BF = some (.vraya (fields 13#9 0#1 0#3 1#1 0#1 0#4 9#4 0#5 0#5 0#5 24#5 17#5)) :=
  ⟨rfl, rfl, rfl, rfl, rfl, rfl, rfl, rfl, rfl⟩

/-- Group 6 of the W format (R70, R74). -/
theorem test_decode_w_delta :
    decodeTableWord 64 0x0000_1048_240A_63BF = some (.dpush (fields 0#9 0#1 0#3 1#1 0#1 0#4 9#4 0#5 18#5 0#5 20#5 7#5)) ∧
    decodeTableWord 64 0x0682_0000_2400_68BF = some (.dpop (fields 13#9 0#1 0#3 0#1 0#1 0#4 0#4 0#5 18#5 0#5 0#5 17#5)) ∧
    decodeTableWord 64 0x0004_0000_2400_603F = some (.dseal (fields 0#9 0#1 0#3 0#1 0#1 0#4 0#4 0#5 18#5 0#5 0#5 0#5)) ∧
    decodeTableWord 64 0x0006_1048_240B_68BF = some (.dlook (fields 0#9 0#1 0#3 1#1 0#1 0#4 9#4 0#5 18#5 0#5 22#5 17#5)) ∧
    decodeTableWord 64 0x0008_1048_240B_68BF = some (.dnext (fields 0#9 0#1 0#3 1#1 0#1 0#4 9#4 0#5 18#5 0#5 22#5 17#5)) ∧
    decodeTableWord 64 0x000A_1048_240B_603F = some (.dapply (fields 0#9 0#1 0#3 1#1 0#1 0#4 9#4 0#5 18#5 0#5 22#5 0#5)) ∧
    decodeTableWord 64 0x030C_0000_2560_68BF = some (.dscan (fields 6#9 0#1 0#3 0#1 0#1 0#4 0#4 0#5 18#5 22#5 0#5 17#5)) ∧
    decodeTableWord 64 0x000E_0000_2400_633F = some (.dqstat (fields 0#9 0#1 0#3 0#1 0#1 0#4 0#4 0#5 18#5 0#5 0#5 6#5)) ∧
    decodeTableWord 64 0x0090_0000_257B_603F = some (.dbind (fields 1#9 0#1 0#3 0#1 0#1 0#4 0#4 0#5 18#5 23#5 22#5 0#5)) :=
  ⟨rfl, rfl, rfl, rfl, rfl, rfl, rfl, rfl, rfl⟩

/-! ## States for the witnesses -/

/-- A hart that runs, with its turn taken, no cause routed to the Lantern, and a few registers set. -/
def w0 : State := { State.reset with
  selected := true
  hart := { State.reset.hart with
    run := .running, pc := 0x1000#64, trroute := 0#64, stvec := 0x4000#64, sbase := 0x4000_0000#64,
    x := ((((State.reset.hart.x.set 10 0x2000#64).set 11 5#64).set 12 7#64).set 13 0x2003#64) } }

/-- The same hart with one page of 2 MiB in its TLB, over the start of HBM. -/
def wm : State := { w0 with
  hart := { w0.hart with satp := 0x9000_0000_0000_0000#64 }
  cores := [(w0.hart.id.coreId, { Core.reset with tlb := [{
    asid := 0, glob := true, va := 0, bits := 21, pa := 0x10_0000_0000, read := true, write := true, exec := true,
    user := true, dirty := true, skew := 0, dup := false, slice := 0 }] })] }

/-- The same hart in S mode. -/
def ws : State := { wm with hart := { wm.hart with priv := .supervisor, sstatus := 0x4_0000#64 } }

/-- The same hart with one element of a width (0 to 3) and a palette. -/
def wv (width pal : Nat) : State := { wm with
  hart := { wm.hart with vl := 1, vgrant := BitVec.ofNat 64 width, vpal := BitVec.ofNat 64 pal } }

/-- A palette with one format code in all four fields. -/
def pal4 (code : Nat) : Nat := code * 0x8421

/-- A W instruction on vector registers. -/
def vw (vs3 vs2 vs1 vd : Reg) : WWord := fields 0#9 0#1 0#3 0#1 0#1 0#4 0#4 0#5 vs3 vs2 vs1 vd

/-- A W instruction that takes its rounding mode from vfrm, its vl from lq, its second operand from q1, writes an
exception mask to p6 and is governed by p9. -/
def vq : WWord := fields 2#9 0#1 7#3 1#1 1#1 6#4 9#4 0#5 0#5 1#5 18#5 17#5

def wq (width pal : Nat) : State :=
  { wv width pal with hart := { (wv width pal).hart with
      vfrm := 4#3, lq := [1#32], q := (wv width pal).hart.q.set 1 [0x8000_0000_0000_0001#64] } }

/-- Below 1 there is only 0. -/
theorem only_zero {c : VCtx} {s : State} {k : Nat} (hv : c.vl = 1) (h : c.computes s k = true) : k = 0 := by
  simp [VCtx.computes, hv] at h; omega

theorem witness_direct : wm.Inv ∧ wm.direct ∧ wm.released := ⟨rfl, ⟨rfl, rfl, rfl⟩, rfl, rfl⟩

theorem witness_dispatches : (wv 3 (pal4 7)).dispatches (vw 20#5 19#5 18#5 17#5) true ∧
    (wv 3 (pal4 7)).dispatches (vw 20#5 19#5 18#5 17#5) false ∧ (wq 3 (pal4 7)).dispatches vq true :=
  ⟨⟨⟨rfl, rfl, rfl, rfl, rfl, rfl⟩, by decide, by decide, by decide⟩,
   ⟨⟨rfl, rfl, rfl, rfl, rfl, rfl⟩, by decide, by decide, by decide⟩,
   ⟨⟨rfl, rfl, rfl, rfl, rfl, rfl⟩, by decide, by decide, by decide⟩⟩

/-! ## Witnesses, statement by statement -/

theorem witness_DecodeAfterEncode :
    (Instr.qpop 31#5 7#5).isProgram = true ∧ (Instr.qpop 31#5 7#5).wf = true ∧
    (Instr.vfadd vq).isProgram = true ∧ (Instr.vfadd vq).wf = true := by decide

theorem witness_EncodeAfterDecode :
    decode [0x33#8, 0x86#8, 0xA5#8, 0x00#8] = .ok (.add 12#5 11#5 10#5, 4) ∧
    decode [0xBF#8, 0x01#8, 0x00#8, 0x00#8, 0x00#8, 0x00#8, 0x00#8, 0x00#8, 0xFF#8] =
      .ok (.vadd (vw 0#5 0#5 0#5 3#5), 8) := ⟨rfl, rfl⟩

/-- Targets that are multiples of 4 and others, for JAL, JALR and a branch; a condition that holds and one that does not;
and a predicate with an element set, over one element. -/
theorem witness_JumpsAndBranches :
    (BitVec.ofInt 64 (w0.hart.pc.toInt + 2 * (2#20).toInt)).toNat % 4 = 0 ∧
    (BitVec.ofInt 64 (w0.hart.pc.toInt + 2 * (1#20).toInt)).toNat % 4 ≠ 0 ∧
    (BitVec.ofInt 64 (2 * (((w0.hart.rx 10#5).toInt + (0xFFC#12).toInt) / 2))).toNat % 4 = 0 ∧
    (BitVec.ofInt 64 (2 * (((w0.hart.rx 13#5).toInt + (0xFFF#12).toInt) / 2))).toNat % 4 ≠ 0 ∧
    (w0.branchTarget 0xFFE#12).toNat % 4 = 0 ∧ (w0.branchTarget 0x7FF#12).toNat % 4 ≠ 0 ∧
    w0.trapsHere 0 (w0.branchTarget 0x7FF#12) ∧ w0.hart.rx 11#5 ≠ w0.hart.rx 12#5 ∧
    (w0.hart.rx 11#5).toInt < (w0.hart.rx 12#5).toInt ∧ ¬(w0.hart.rx 12#5).toNat < (w0.hart.rx 11#5).toNat ∧
    w0.hart.vq = [] ∧
    (∃ k, k < (wv 3 0).hart.vl ∧ (wv 3 0).hart.currentMask.getLsbD k = true ∧ ((wv 3 0).hart.rp 0).getLsbD k = true) ∧
    ∃ k, k < (wv 3 0).hart.vl ∧ (wv 3 0).hart.currentMask.getLsbD k = true ∧ ((wv 3 0).hart.rp 1).getLsbD k = false :=
  ⟨by decide, by decide, by decide, by decide, by decide, by decide, ⟨rfl, rfl, by decide, by decide, rfl⟩, by decide,
   by decide, by decide, rfl, ⟨0, by decide +kernel⟩, ⟨0, by decide +kernel⟩⟩

theorem witness_TrappingInstructions :
    w0.hart.priv = .user ∧ w0.trapsHere 8 0#64 ∧ ws.hart.priv = .supervisor ∧ ws.trapsHere 9 0#64 ∧
    w0.trapsHere 3 w0.hart.pc ∧ w0.trapsHere 2 (BitVec.ofNat 64 (bytesToNat (encode .sret))) ∧
    ({ w0.hart with mstatusTw := true } : Hart).mstatusTw = true ∧ w0.hart.senvcfg = 0#64 ∧
    w0.readCsr 0x3FF = none ∧ w0.trapsHere 2 (BitVec.ofNat 64 (bytesToNat (encode (.csrrs 0x3FF#12 10#5 0#5)))) ∧
    0x100 ≤ (0x1FF#12).toNat ∧ (0x5C5#12).toNat ≤ 0x5C5 ∧ 0xC00 ≤ (0xC00#12).toNat ∧ (1#5 : Reg) ≠ 0#5 :=
  ⟨rfl, ⟨rfl, rfl, by decide, by decide, rfl⟩, rfl, ⟨rfl, rfl, by decide, by decide, rfl⟩,
   ⟨rfl, rfl, by decide, by decide, rfl⟩, ⟨rfl, rfl, by decide, by decide, rfl⟩, rfl, rfl, rfl,
   ⟨rfl, rfl, by decide, by decide, rfl⟩, by decide, by decide, by decide, by decide⟩

/-- Bytes at an address of HBM that hold nothing else. -/
def at_ (pa : Nat) (bs : List Byte) : Memory := (bs.mapIdx fun i b => (pa + i, b)).filter fun c => c.2 != 0#8

/-- The number v in n bytes. -/
def num (pa n v : Nat) : Memory := at_ pa (lowBytes n v)

/-- Accesses to the bytes from va on go to the bytes from pa on. -/
def spansTo (s : State) (a : Access) (va : Word) (n pa : Nat) : Bool :=
  (List.range n).all fun j =>
    let b := va + BitVec.ofNat 64 j
    s.heldPa a b == some (pa + j) && decide (0x10_0000_0000 ≤ pa + j) && decide (pa + j < 0xD0_0000_0000) &&
    (pa + j) % 128 == b.toNat % 128 && !s.poisoned (pa + j) 1 && !s.lineHeld (some s.hart.id) ((pa + j) / 128)

/-- No hart holds or awaits a line. -/
theorem no_line {s : State} {self : Option HartId} (h : s.harts.all (fun h => h.heldLines.isEmpty && h.held.isNone) = true)
    (l : Nat) : s.lineHeld self l = false := by
  simp only [State.lineHeld, List.any_eq_false, Bool.and_eq_true, not_and]
  intro k hk _
  have := List.all_eq_true.mp h k hk
  simp only [Bool.and_eq_true, List.isEmpty_iff, Option.isNone_iff_eq_none] at this
  simp [this.1, Hart.ticket, this.2, older]

theorem open_of {s : State} (h : s.harts.all (fun h => h.heldLines.isEmpty && h.held.isNone) = true) : s.linesOpen := no_line h

theorem free_of {s : State} (h : s.harts.all (fun h => h.heldLines.isEmpty && h.held.isNone) = true) : s.linesFree := no_line h

theorem served_hbm (s : State) {pa : Nat} (h : 0x10_0000_0000 ≤ pa) (h2 : pa < 0xD0_0000_0000) : s.served pa := by
  have : region pa = .hbm ((pa - 0x10_0000_0000) / 0x30_0000_0000) := by
    unfold region; repeat (first | rw [if_neg (by omega)] | rw [if_pos (by omega)])
  simp [State.served, this]

theorem spans_of {s : State} {a : Access} {va : Word} {n pa : Nat} (h : spansTo s a va n pa = true) :
    s.spans a va n fun j => pa + j := by
  intro j hj
  have := List.all_eq_true.mp h j (List.mem_range.mpr hj)
  simp only [Bool.and_eq_true, beq_iff_eq, decide_eq_true_eq, Bool.not_eq_true'] at this
  obtain ⟨⟨⟨⟨⟨h1, h2⟩, h3⟩, h4⟩, h5⟩, h6⟩ := this
  exact ⟨h1, served_hbm s h2 h3, h4, h5, h6, fun _ _ => (Nat.add_assoc pa j 1).symm⟩

/-- A frame that holds a mask-stack entry. -/
def someFrame : Frame := { w0.hart.emptyFrame with masks := [{ saved := 1#2048, branch := 0#2048 }], takenAt := 1, vmsp := 1 }

/-- The header of an empty frame of this device. -/
def emptyImage : List Byte := lowBytes 2 1 ++ lowBytes 1 1 ++ lowBytes 1 0 ++ lowBytes 4 64 ++ List.replicate 56 0#8

/-- S mode with xfbase at the last multiple of 64 of a line, and memory that holds the image the device has written. -/
def wf : State := { ws with
  mem := at_ 0x10_0000_2040 emptyImage
  hart := { ws.hart with xfbase := 0x2040#64 }
  dev := { ws.dev with images := [(w0.hart.emptyFrame, emptyImage)] } }

theorem witness_ReturnsAndFrameImages :
    ws.hart.priv = .supervisor ∧ ws.hart.tx = none ∧ ws.hart.frame = none ∧
    (({ ws.hart with frame := some someFrame } : Hart).frame = some someFrame ∧ someFrame.vmsp = someFrame.takenAt) ∧
    wf.Inv ∧ wf.direct ∧ wf.hart.vq = [] ∧ wf.hart.mq = [] ∧ wf.hart.priv = .supervisor ∧
    wf.hart.xfbase.toNat % 64 = 0 ∧ (∀ i j, i < 64 → j < 64 → 0x10_0000_2040 + i = 0x10_0000_2040 + j → i = j) ∧
    (wf.hart.frameImage wf.dev.images.length).length = 64 ∧
    wf.spans .store wf.hart.xfbase 64 (fun j => 0x10_0000_2040 + j) ∧ emptyImage.length = 64 ∧
    wf.spans .load wf.hart.xfbase 64 (fun j => 0x10_0000_2040 + j) ∧
    (∀ j, j < 64 → wf.mem.get (0x10_0000_2040 + j) = emptyImage.getD j 0#8) ∧
    (pkt emptyImage 0 2 = 1 ∧ pkt emptyImage 2 1 = 1 ∧ pkt emptyImage 4 4 = 64 ∧ pkt emptyImage 32 2 ≤ 2047 ∧
      pkt emptyImage 34 2 ≤ 256 ∧ pkt emptyImage 36 1 = wf.hart.level) ∧
    wf.frameOf emptyImage = some w0.hart.emptyFrame := by
  refine ⟨rfl, rfl, rfl, ⟨rfl, rfl⟩, rfl, ⟨rfl, rfl, rfl⟩, rfl, rfl, rfl, rfl, fun _ _ _ _ _ => by omega, rfl,
    spans_of (by decide +kernel), rfl, spans_of (by decide +kernel), by decide +kernel, by decide +kernel, rfl⟩

theorem witness_WaitsAndFences :
    wm.hart.mstatusTw = false ∧ ws.hart.priv = .supervisor ∧ ws.hart.tx = none ∧ ((0#4 : BitVec 4) = 0#4) ∧
    (15#4 : BitVec 4) ≠ 8#4 ∧ wm.direct ∧ wm.released ∧ (0#3 : BitVec 3) ≠ 5#3 :=
  ⟨rfl, rfl, rfl, rfl, by decide, ⟨rfl, rfl, rfl⟩, ⟨rfl, rfl⟩, by decide⟩

/-- The last byte of a line, and eight bytes at its end. -/
theorem witness_ScalarLoadsAndStores :
    wm.Inv ∧ wm.direct ∧ wm.addressOf 10#5 0x7F#12 = 0x207F#64 ∧ wm.readable 0x207F#64 1 0x10_0000_207F wm ∧
    wm.addressOf 10#5 0x78#12 = 0x2078#64 ∧ wm.readable 0x2078#64 8 0x10_0000_2078 wm ∧
    wm.writable 0x207F#64 1 0x10_0000_207F wm ∧ wm.writable 0x2078#64 8 0x10_0000_2078 wm := by
  refine ⟨rfl, ⟨rfl, rfl, rfl⟩, rfl, ⟨⟨by decide, by decide, by decide, ⟨0, rfl⟩, trivial⟩, rfl⟩, rfl,
    ⟨⟨by decide, by decide, by decide, ⟨0, rfl⟩, trivial⟩, rfl⟩, ⟨⟨by decide, by decide, by decide, ⟨0, rfl⟩, trivial⟩, rfl⟩,
    ⟨⟨by decide, by decide, by decide, ⟨0, rfl⟩, trivial⟩, rfl⟩⟩

/-- The same hart as thread 0 of a gang with one scratch unit, in banks 0 to 3, and one FIFO bank; its window lies at
16 MiB. -/
def wg : State := { wm with
  hart := { wm.hart with sbase := 0x100_0000#64, placed := some {
    launch := 0, gang := 0, ctx := false, number := 0, stage := 0, vclass := 0, prio := 0, bclass := 0, tiles := 8,
    groups := [] } }
  clusters := [({ die := 0, cluster := 0 }, { Cluster.reset with bankmode := 0x255#64 })]
  dev := { wm.dev with
    nextId := 1
    gangs := [{ number := 0, launch := 0, index := 0, die := 0, cluster := 0, units := [(0, 0)], banks := [4], hctx := 0,
                harts := [wm.hart.id] }] } }

/-- A page that no table maps, and the window's bytes beyond the gang's unit; and addresses that are not aligned. -/
theorem witness_FailedAccessesTrap :
    w0.direct ∧ translate w0 w0.hart.ctx (w0.addressOf 14#5 0#12) .load = .error (.page .load 0#64, w0) ∧ w0.trapsHere 13 0#64 ∧
    translate w0 w0.hart.ctx (w0.addressOf 14#5 0#12) .store = .error (.page .store 0#64, w0) ∧ w0.trapsHere 15 0#64 ∧
    (let s : State := { wg with hart := { wg.hart with x := wg.hart.x.set 14 0x100_8000#64 } }
     s.direct ∧ translate s s.hart.ctx (s.addressOf 14#5 0#12) .load = .error (.access .load 0x100_8000#64, s) ∧
     s.trapsHere 5 0x100_8000#64 ∧
     translate s s.hart.ctx (s.addressOf 14#5 0#12) .store = .error (.access .store 0x100_8000#64, s) ∧
     s.trapsHere 7 0x100_8000#64) ∧
    (w0.hart.rx 13#5).toNat % 8 ≠ 0 ∧ w0.trapsHere 4 (w0.hart.rx 13#5) ∧ (w0.hart.rx 13#5).toNat % 4 ≠ 0 ∧
    w0.trapsHere 6 (w0.hart.rx 13#5) := by
  refine ⟨⟨rfl, rfl, rfl⟩, rfl, ⟨rfl, rfl, by decide, by decide, rfl⟩, rfl, ⟨rfl, rfl, by decide, by decide, rfl⟩,
    ⟨⟨rfl, rfl, rfl⟩, rfl, ⟨rfl, rfl, by decide, by decide, rfl⟩, rfl, ⟨rfl, rfl, by decide, by decide, rfl⟩⟩,
    by decide, ⟨rfl, rfl, by decide, by decide, rfl⟩, by decide, ⟨rfl, rfl, by decide, by decide, rfl⟩⟩

/-- A reservation that SC matches, and none; a doubleword at the end of a line. -/
theorem witness_AtomicAccesses :
    let s : State := { wm with hart := { wm.hart with
      x := wm.hart.x.set 10 0x2078#64
      reservation := some { line := 0x10_0000_2078 / 128, addr := 0x2078#64, size := 8 } } }
    s.Inv ∧ s.direct ∧ s.released ∧ (s.hart.rx 10#5).toNat % 8 = 0 ∧ s.readable (s.hart.rx 10#5) 8 0x10_0000_2078 s ∧
    s.writable (s.hart.rx 10#5) 8 0x10_0000_2078 s ∧ s.poisoned 0x10_0000_2078 8 = false ∧
    s.hart.reservation = some { line := 0x10_0000_2078 / 128, addr := s.hart.rx 10#5, size := 8 } ∧
    wm.hart.reservation = none ∧ wm.writable (wm.hart.rx 10#5) 4 0x10_0000_2000 wm ∧ (3#3 : BitVec 3) ≠ 5#3 := by
  refine ⟨rfl, ⟨rfl, rfl, rfl⟩, ⟨rfl, rfl⟩, by decide, ⟨⟨by decide, by decide, by decide, ⟨0, rfl⟩, trivial⟩, rfl⟩,
    ⟨⟨by decide, by decide, by decide, ⟨0, rfl⟩, trivial⟩, rfl⟩, rfl, rfl, rfl,
    ⟨⟨by decide, by decide, by decide, ⟨0, rfl⟩, trivial⟩, rfl⟩, by decide⟩

theorem witness_CacheBlockOperations :
    wm.Inv ∧ wm.direct ∧ wm.maps .load (BitVec.ofNat 64 ((wm.hart.rx 13#5).toNat / 128 * 128)) 128 0x10_0000_2000 wm ∧
    wm.writable (BitVec.ofNat 64 ((wm.hart.rx 13#5).toNat / 128 * 128)) 128 0x10_0000_2000 wm ∧
    ws.hart.priv = .supervisor ∧ ({ wm.hart with senvcfg := 0xD0#64 } : Hart).senvcfg.getLsbD 4 = true ∧
    (0xD0#64).getLsbD 6 = true ∧ (0xD0#64).getLsbD 7 = true := by
  refine ⟨rfl, ⟨rfl, rfl, rfl⟩, ⟨by decide, by decide, by decide, ⟨0, rfl⟩, trivial⟩,
    ⟨⟨by decide, by decide, by decide, ⟨0, rfl⟩, trivial⟩, rfl⟩, rfl, by decide, by decide, by decide⟩

/-- vpal from U mode, written and read, satp from S mode, and the first and the last read-only number. -/
theorem witness_CsrInstructions :
    wm.readCsr 0x800 = some 0#64 ∧ wm.hart.tx = none ∧ wm.hart.vq = [] ∧ wm.hart.mq = [] ∧
    wm.hart.csrAllowed 0x800 false = true ∧ wm.hart.csrAllowed 0x800 true = true ∧ (0x800 : Nat) ≠ 0x805 ∧
    ws.readCsr 0x180 = some 0x9000_0000_0000_0000#64 ∧ ws.hart.csrAllowed 0x180 true = true ∧
    wm.readCsr 0xC02 = some 0#64 ∧ wm.hart.csrAllowed 0xC02 false = true ∧ (10#5 : Reg) ≠ 0#5 := by
  refine ⟨rfl, rfl, rfl, rfl, rfl, rfl, by decide, rfl, rfl, rfl, rfl, by decide⟩

/-- No frame for VGRANT; strips that go on and that end, with pointers from x28 and with none. -/
theorem witness_GrantsStripsAndQueues :
    wm.hart.vq = [] ∧ wm.hart.mq = [] ∧ wm.hart.frame = none ∧ (Instr.vstrip 11#5 28#5 0xFFE#12).wf = true ∧
    wm.hart.rx 14#5 = 0#64 ∧ (wm.branchTarget 0xFFE#12).toNat % 4 = 0 ∧ (Instr.vstrip 14#5 0#5 0xFFE#12).wf = true ∧
    wm.hart.rx 11#5 ≠ 0#64 := by
  refine ⟨rfl, rfl, rfl, rfl, rfl, by decide, rfl, by decide⟩

/-- A queue of seven words and one of eight, an empty one; an lq entry and none; queues drained and not. -/
theorem witness_GrantsStripsAndQueues_queues :
    let full : Hart := { wm.hart with q := (wm.hart.q.set 2 (List.replicate 8 1#64)).set 7 (List.replicate 7 1#64), lq := [5#32] }
    let e : QEntry := { pc := 0#64, instr := .mdis 0#3, seq := 0, start := none, ready := true, cap := {
      x1 := 0#64, x3 := 0#64, pal := 0#64, vl := 0, x2 := 0#64, width := 0#2, level := 0#2, vfrm := 0#3, vxmask := 0#6 } }
    (7#5).toNat < 8 ∧ full.tx = none ∧ full.q[7].length < 8 ∧ 8 ≤ full.q[2].length ∧
    full.q[2] = 1#64 :: List.replicate 7 1#64 ∧ wm.hart.q[0] = [] ∧ full.lq = [5#32] ∧ wm.hart.lq = [] ∧
    wm.hart.vq = [] ∧ wm.hart.mq = [] ∧ ({ full with mq := [e] } : Hart).mq ≠ [] := by
  refine ⟨by decide, rfl, by decide, by decide, rfl, rfl, rfl, rfl, rfl, rfl, by simp⟩

/-- A number at either end of an 8-bit range and one beyond each; the largest finite F8 pattern. -/
theorem witness_NumberFormats :
    0 < 8 ∧ (-2 : Int) ^ 7 ≤ -128 ∧ (127 : Int) ≤ 2 ^ 7 - 1 ∧ (-129 : Int) < -2 ^ 7 ∧ (2 : Int) ^ 7 - 1 < 128 ∧
    Fmt.e4m3 ∈ [Fmt.f64, .f32, .f16, .b16, .e4m3, .e5m2] ∧ 0xFE < 2 ^ Fmt.e4m3.width ∧ 4 ≤ 4 ∧
    (decodeFloat .e4m3 0xFE).finite = true := by decide

theorem witness_VectorIntegerArithmetic :
    (wv 3 (pal4 7)).dispatches (vw 20#5 19#5 18#5 17#5) true ∧
    (wv 3 (pal4 7)).intPalette (vw 20#5 19#5 18#5 17#5) true true true ∧
    intFmt (palFc ((wv 3 (pal4 7)).palOf (vw 20#5 19#5 18#5 17#5))) (wv 3 (pal4 7)).bits = some true ∧
    (let s := wv 2 (5 + 7 * 32 + 5 * 1024)
     let p := s.palOf (vw 0#5 19#5 18#5 17#5)
     s.dispatches (vw 0#5 19#5 18#5 17#5) true ∧ intFmt (palFa p) (2 * s.bits) = some true ∧
     intFmt (palFb p) s.bits = some true ∧ intFmt (palFd p) s.bits = some true ∧ palPlain p = true ∧
     scalesZero p false false false = true ∧ (18#5).toNat % 2 = 0) :=
  ⟨witness_dispatches.1, ⟨rfl, rfl, rfl, rfl, rfl⟩, rfl,
   ⟨⟨rfl, rfl, rfl, rfl, rfl, rfl⟩, by decide, by decide, by decide⟩, rfl, rfl, rfl, rfl, rfl, rfl⟩

theorem witness_VectorMoves :
    let s := wv 3 (pal4 7)
    let p := s.palOf (vw 3#5 19#5 18#5 17#5)
    s.dispatches (vw 3#5 19#5 18#5 17#5) true ∧ s.dispatches (vw 3#5 19#5 18#5 17#5) false ∧ palPlain p = true ∧
    scalesZero p false false false = true ∧ anyFmt (palFa p) s.bits = true ∧ anyFmt (palFb p) s.bits = true ∧
    anyFmt (palFd p) s.bits = true ∧ s.hart.vstart = 0 ∧ (vw 0#5 0#5 18#5 17#5).vs3 = 0#5 ∧
    (vw 1#5 0#5 18#5 17#5).vs3 = 1#5 ∧ (vw 2#5 0#5 18#5 17#5).vs3 = 2#5 ∧ (vw 3#5 19#5 18#5 17#5).vs3 = 3#5 :=
  ⟨⟨⟨rfl, rfl, rfl, rfl, rfl, rfl⟩, by decide, by decide, by decide⟩,
   ⟨⟨rfl, rfl, rfl, rfl, rfl, rfl⟩, by decide, by decide, by decide⟩, rfl, rfl, rfl, rfl, rfl, rfl, rfl, rfl, rfl, rfl⟩

theorem witness_VectorFloatArithmetic :
    let s := wq 3 (pal4 0xC)
    let p := s.palOf vq
    floatFmt (palFa p) s.bits = some .f64 ∧ floatFmt (palFd p) s.bits = some .f64 ∧ palPlain p = true ∧
    s.dispatches vq true ∧ floatFmt (palFb p) s.bits = some .f64 ∧ floatFmt (palFc p) s.bits = some .f64 ∧
    (wv 3 (pal4 0xC)).dispatches (vw 7#5 0#5 18#5 17#5) false ∧ scalesZero p true false true = true ∧
    4 ≤ (7#5).toNat ∧ (7#5).toNat < 8 :=
  ⟨rfl, rfl, rfl, ⟨⟨rfl, rfl, rfl, rfl, rfl, rfl⟩, by decide, by decide, by decide⟩, rfl, rfl,
   ⟨⟨rfl, rfl, rfl, rfl, rfl, rfl⟩, by decide, by decide, by decide⟩, rfl, by decide, by decide⟩

/-- F64 to its class, its sign, F64 to E4M3 from groups of eight registers and back, and F64 to F64. -/
theorem witness_VectorFormatChanges :
    (let s := wv 3 (7 + 32 * 0xC)
     let p := s.palOf (vw 0#5 0#5 18#5 17#5)
     s.dispatches (vw 0#5 0#5 18#5 17#5) false ∧ palPlain p = true ∧ scalesZero p false false false = true ∧
     floatFmt (palFa p) s.bits = some .f64 ∧ (intFmt (palFd p) s.bits).isSome = true) ∧
    (let s := wv 3 (0xC + 32 * 0xC + 1024 * 0xC)
     let p := s.palOf (vw 0#5 19#5 18#5 17#5)
     s.dispatches (vw 0#5 19#5 18#5 17#5) true ∧ palPlain p = true ∧ scalesZero p false false false = true ∧
     floatFmt (palFa p) s.bits = some .f64 ∧ palFb p = palFa p ∧ palFd p = palFa p) ∧
    (let s := wv 0 (0xD + 32 * 0xC)
     let p := s.palOf (vw 0#5 0#5 16#5 17#5)
     s.dispatches (vw 0#5 0#5 16#5 17#5) false ∧ palPlain p = true ∧ scalesZero p true false true = true ∧
     regFmt (palFa p) = some .f64 ∧ regFmt (palFd p) = some .e4m3 ∧ Fmt.e4m3.width = s.bits ∧
     Fmt.f64.width = s.bits * 2 ^ 3 ∧ (16#5).toNat % 2 ^ 3 = 0) ∧
    (let s := wv 3 (0xC + 32 * 0xC)
     let p := s.palOf (vw 0#5 0#5 18#5 17#5)
     s.dispatches (vw 0#5 0#5 18#5 17#5) false ∧ regFmt (palFa p) = some .f64 ∧ Fmt.f64.width = s.bits * 2 ^ 0) ∧
    (let s := wv 0 (0xC + 32 * 0xD)
     let p := s.palOf (vw 0#5 0#5 17#5 24#5)
     s.dispatches (vw 0#5 0#5 17#5 24#5) false ∧ palPlain p = true ∧ scalesZero p true false true = true ∧
     regFmt (palFa p) = some .e4m3 ∧ regFmt (palFd p) = some .f64 ∧ Fmt.e4m3.width = s.bits ∧ 0 < 3 ∧
     Fmt.f64.width = s.bits * 2 ^ 3 ∧ (24#5).toNat % 2 ^ 3 = 0) := by
  refine ⟨⟨⟨⟨rfl, rfl, rfl, rfl, rfl, rfl⟩, by decide, by decide, by decide⟩, rfl, rfl, rfl, rfl⟩,
    ⟨⟨⟨rfl, rfl, rfl, rfl, rfl, rfl⟩, by decide, by decide, by decide⟩, rfl, rfl, rfl, rfl, rfl⟩,
    ⟨⟨⟨rfl, rfl, rfl, rfl, rfl, rfl⟩, by decide, by decide, by decide⟩, rfl, rfl, rfl, rfl, rfl, rfl, rfl⟩,
    ⟨⟨⟨rfl, rfl, rfl, rfl, rfl, rfl⟩, by decide, by decide, by decide⟩, rfl, rfl⟩,
    ⟨⟨⟨rfl, rfl, rfl, rfl, rfl, rfl⟩, by decide, by decide, by decide⟩, rfl, rfl, rfl, rfl, rfl, by decide, rfl, rfl⟩⟩

theorem witness_PredicateResults :
    let w := vw 5#5 2#5 1#5 15#5
    0 < w.vd.toNat ∧ w.vd.toNat < 16 ∧ w.em = 0#1 ∧
    (let s := wv 3 (pal4 7)
     let p := s.palOf w
     s.dispatches w true ∧ intFmt (palFa p) s.bits = some true ∧ intFmt (palFb p) s.bits = some true ∧
     palPlain p = true ∧ scalesZero p false false false = true) ∧
    (let s := wv 3 (pal4 0xC)
     let p := s.palOf w
     s.dispatches w true ∧ floatFmt (palFa p) s.bits = some .f64 ∧ floatFmt (palFb p) s.bits = some .f64 ∧
     palPlain p = true ∧ scalesZero p true true false = true ∧ s.dispatches w false ∧ s.hart.vstart = 0) := by
  refine ⟨by decide, by decide, rfl, ⟨⟨⟨rfl, rfl, rfl, rfl, rfl, rfl⟩, by decide, by decide, by decide⟩, rfl, rfl, rfl, rfl⟩,
    ⟨⟨⟨rfl, rfl, rfl, rfl, rfl, rfl⟩, by decide, by decide, by decide⟩, rfl, rfl, rfl, rfl,
     ⟨⟨rfl, rfl, rfl, rfl, rfl, rfl⟩, by decide, by decide, by decide⟩, rfl⟩⟩

theorem witness_VectorPredicateSet :
    (wv 3 0).dispatches (vw 0#5 19#5 0#5 15#5) true ∧ 0 < (15#5).toNat ∧ (15#5).toNat < 16 :=
  ⟨⟨⟨rfl, rfl, rfl, rfl, rfl, rfl⟩, by decide, by decide, by decide⟩, by decide, by decide⟩

theorem witness_VectorReductions :
    (wv 3 (pal4 7)).dispatches (vw 5#5 19#5 18#5 17#5) true ∧ (wv 3 (pal4 7)).hart.vstart = 0 ∧
    (wv 3 (pal4 7)).intPalette (vw 5#5 19#5 18#5 17#5) true true true ∧
    (let s := wv 3 (pal4 0xC)
     let p := s.palOf (vw 3#5 19#5 18#5 17#5)
     s.dispatches (vw 3#5 19#5 18#5 17#5) true ∧ floatFmt (palFa p) s.bits = some .f64 ∧
     floatFmt (palFb p) s.bits = some .f64 ∧ floatFmt (palFd p) s.bits = some .f64 ∧ palPlain p = true ∧
     scalesZero p true true false = true) :=
  ⟨⟨⟨rfl, rfl, rfl, rfl, rfl, rfl⟩, by decide, by decide, by decide⟩, rfl, ⟨rfl, rfl, rfl, rfl, rfl⟩,
   ⟨⟨rfl, rfl, rfl, rfl, rfl, rfl⟩, by decide, by decide, by decide⟩, rfl, rfl, rfl, rfl, rfl⟩

/-- A mask stack with room for one more entry, a full one, and an entry on top; a queue and lq with room. -/
theorem witness_MaskStackAndScalarResults :
    let m : MaskEntry := { saved := 1#2048, branch := 0#2048 }
    let s : State := { wv 3 0 with hart := { (wv 3 0).hart with masks := List.replicate 16 m, vmsp := 16 } }
    (wv 3 0).dispatches (vw 0#5 0#5 1#5 0#5) false ∧ s.dispatches (vw 0#5 0#5 1#5 0#5) false ∧ (wv 3 0).hart.vmsp < 16 ∧
    s.hart.masks = m :: List.replicate 15 m ∧ 0 < s.hart.vmsp ∧ s.hart.vmsp ≤ 16 ∧ s.hart.quiet ∧
    (vw 1#5 0#5 18#5 7#5).vd.toNat < 8 ∧ (wv 3 0).hart.q[7].length < 8 ∧ (wv 3 0).hart.vstart = 0 ∧
    (vw 0#5 0#5 1#5 7#5).vd ≠ 0#5 ∧ (vw 0#5 0#5 1#5 0#5).vd = 0#5 ∧
    ((wv 3 0).popped (vw 0#5 0#5 1#5 0#5) false).hart.lq.length < 8 := by
  refine ⟨⟨⟨rfl, rfl, rfl, rfl, rfl, rfl⟩, by decide, by decide, by decide⟩,
    ⟨⟨rfl, rfl, rfl, rfl, rfl, rfl⟩, by decide, by decide, by decide⟩, by decide, rfl, by decide, by decide,
    ⟨rfl, rfl, rfl, rfl, rfl, rfl⟩, by decide, by decide, rfl, by decide, rfl, by decide⟩

/-- One element in each form, of four fields in the segment form, in memory and registers of 64 bits; and one of 4 bits,
stored from 8. -/
theorem witness_VectorLoadsAndStores :
    let s := wv 3 (7 + 32 * 7 + 1024 * 7)
    let w := vw 17#5 19#5 18#5 17#5
    let seg : WWord := { w with aux9 := 0x180#9 }
    let pa := fun (_ f : Nat) => 0x10_0000_0000 + 8 * f
    let reads := fun (w : WWord) (form : Form) => s.dispatches w false ∧
      memFmts (s.context (.vld w) w false).e form false = some (.int true 64, .int true 64) ∧
      w.vd.toNat + w.fields ≤ 32 ∧
      ∀ k f, (s.context (.vld w) w false).computes s k = true → f < w.fields →
        s.loadsFrom ((s.context (.vld w) w false).placeOf s form (.int true 64) k f) 8 (pa k f)
    let writes := fun (w : WWord) (form : Form) =>
      memFmts (s.context (.vst w) w false).e form true = some (.int true 64, .int true 64) ∧ w.order.toNat < 2 ∧
      w.vs3.toNat + w.fields ≤ 32 ∧
      (∀ k f, (s.context (.vst w) w false).computes s k = true → f < w.fields →
        s.storesTo ((s.context (.vst w) w false).placeOf s form (.int true 64) k f) 8 (pa k f)) ∧
      ∀ k f l g, (s.context (.vst w) w false).computes s k = true → (s.context (.vst w) w false).computes s l = true →
        f < w.fields → g < w.fields → (k, f) ≠ (l, g) → pa k f + 8 ≤ pa l g ∨ pa l g + 8 ≤ pa k f
    Fmt.isQ (.int true 64) = false ∧ s.Inv ∧ reads w .unit ∧ reads w .strided ∧ reads w .indexed ∧ reads seg .segment ∧
    writes w .unit ∧ writes w .strided ∧ writes w .indexed ∧ writes seg .segment := by
  have d : ∀ w : WWord, w.rm = 0#3 → w.lqv = 0#1 → (wv 3 (7 + 32 * 7 + 1024 * 7)).dispatches w false := fun w h1 h2 =>
    ⟨⟨rfl, rfl, rfl, rfl, rfl, rfl⟩, by simp [h1], by simp [h2], by simp⟩
  refine ⟨rfl, rfl, ?_, ?_, ?_, ?_, ?_, ?_, ?_, ?_⟩
  iterate 3
    refine ⟨d _ rfl rfl, rfl, by decide, fun k f hk hf => ?_⟩
    obtain rfl := only_zero rfl hk; obtain rfl : f = 0 := Nat.lt_one_iff.mp hf
    exact ⟨by decide +kernel, by decide +kernel, by decide +kernel, trivial, by decide +kernel⟩
  · refine ⟨d _ rfl rfl, rfl, by decide, fun k f hk hf => ?_⟩
    obtain rfl := only_zero rfl hk
    have hf : f < 4 := hf
    interval_cases f <;> exact ⟨by decide +kernel, by decide +kernel, by decide +kernel, trivial, by decide +kernel⟩
  iterate 3
    refine ⟨rfl, by decide, by decide, fun k f hk hf => ?_, fun k f l g hk hl hf hg h => ?_⟩
    · obtain rfl := only_zero rfl hk; obtain rfl : f = 0 := Nat.lt_one_iff.mp hf
      exact ⟨by decide +kernel, by decide +kernel, by decide +kernel, trivial, by decide +kernel⟩
    · obtain rfl := only_zero rfl hk; obtain rfl := only_zero rfl hl
      obtain rfl : f = 0 := Nat.lt_one_iff.mp hf; obtain rfl : g = 0 := Nat.lt_one_iff.mp hg
      exact absurd rfl h
  · refine ⟨rfl, by decide, by decide, fun k f hk hf => ?_, fun k f l g hk hl hf hg h => ?_⟩
    · obtain rfl := only_zero rfl hk
      have hf : f < 4 := hf
      interval_cases f <;> exact ⟨by decide +kernel, by decide +kernel, by decide +kernel, trivial, by decide +kernel⟩
    · obtain rfl := only_zero rfl hk; obtain rfl := only_zero rfl hl
      have h : f ≠ g := fun e => h (by rw [e])
      show 0x10_0000_0000 + 8 * f + 8 ≤ 0x10_0000_0000 + 8 * g ∨ 0x10_0000_0000 + 8 * g + 8 ≤ 0x10_0000_0000 + 8 * f
      omega

theorem witness_VectorAtomics :
    let s := wv 3 (7 + 32 * 7 + 1024 * 7)
    let w := vw 20#5 19#5 18#5 17#5
    let p := s.palOf w
    let c := s.context (.vamo w) w false
    let pa := fun (_ : Nat) => 0x10_0000_0000
    s.Inv ∧ s.dispatches w false ∧ regFmt (palFa p) = some (.int true 64) ∧ intFmt (palFb p) s.bits = some true ∧
    palPlain p = true ∧ scalesZero p false false false = true ∧ palFd p = palFa p ∧ palFc p = 0 ∧
    (Fmt.int true 64).width = s.bits ∧ vamoFmtOk (w.vd.toNat % 16) (.int true 64) = true ∧ w.order.toNat < 2 ∧
    (∀ k, c.computes s k = true →
      s.storesTo (s.hart.rx w.vs1 + BitVec.ofInt 64 (decodeInt true s.bits (s.el w.vs2 k))) 8 (pa k) ∧
      s.poisoned (pa k) 8 = false) ∧
    (∀ k l, c.computes s k = true → c.computes s l = true → k ≠ l → pa k + 8 ≤ pa l ∨ pa l + 8 ≤ pa k) ∧
    w.vd.getLsbD 4 = true ∧ (vw 20#5 19#5 18#5 1#5).vd.getLsbD 4 = false := by
  refine ⟨rfl, ⟨⟨rfl, rfl, rfl, rfl, rfl, rfl⟩, by decide, by decide, by decide⟩, rfl, rfl, rfl, rfl, rfl, rfl, rfl, rfl,
    by decide, fun k hk => ?_, fun k l hk hl h => ?_, rfl, rfl⟩
  · obtain rfl := only_zero rfl hk; exact ⟨⟨by decide +kernel, by decide +kernel, by decide +kernel, trivial, by decide +kernel⟩, rfl⟩
  · obtain rfl := only_zero rfl hk; obtain rfl := only_zero rfl hl; exact absurd rfl h

/-- A scatter of one element; a train of one element at the end of a line behind one that is performed; and no train. -/
theorem witness_RemoteScatters :
    (let s := wv 3 (7 + 32 * 7 + 1024 * 7)
     let w := vw 20#5 19#5 18#5 0#5
     let c := s.context (.vstr w) w false
     s.Inv ∧ s.dispatches w false ∧ memFmts c.e .indexed true = some (.int true 64, .int true 64) ∧
     Fmt.is4 (.int true 64) = false ∧ s.hart.trains = [] ∧ w.order.toNat < 2 ∧
     ∀ k, c.computes s k = true → s.storesTo (c.placeOf s .indexed (.int true 64) k 0) 8 0x10_0000_0000) ∧
    (let done_ : Train := { dest := 99999, elems := [], done_ := true }
     let tr : Train := { dest := 0, elems := [(0x10_0000_007F, 1, 0x55)], done_ := false }
     let s : State := { wm with hart := { wm.hart with trains := [done_, tr] } }
     s.Inv ∧ (s.hartAt s.hart.id).trains.find? (fun u => !u.done_) = some tr ∧
     (∀ x, x ∈ tr.elems → s.served x.1 ∧ 0 < x.2.1 ∧ x.1 % 128 + x.2.1 ≤ 128) ∧ (∀ l, s.lineHeld (some s.hart.id) l = false) ∧
     (s.hartAt s.hart.id).trains.find? (fun u => u.done_) = some done_ ∧ done_.dest < 100000) ∧
    (wm.hartAt wm.hart.id).trains = [] := by
  refine ⟨⟨rfl, ⟨⟨rfl, rfl, rfl, rfl, rfl, rfl⟩, by decide, by decide, by decide⟩, rfl, rfl, rfl, by decide, fun k hk => ?_⟩,
    ⟨rfl, rfl, fun x hx => ?_, no_line rfl, rfl, by decide⟩, rfl⟩
  · obtain rfl := only_zero rfl hk; exact ⟨by decide +kernel, by decide +kernel, by decide +kernel, trivial, by decide +kernel⟩
  · obtain rfl := List.mem_singleton.mp hx; exact ⟨served_hbm _ (by decide) (by decide), by decide, by decide⟩

/-- A window of 4,096 bytes of N64 sums at the start of a page; one that is open, with a touched element; a control word
that is none. -/
def wwin : AccWindow := { base := 0#64, ctl := 0x1FF_0800#64, copies := [[(4088, 5#64)], [], [], []], next := 0 }

theorem witness_AccumulationWindows :
    let s : State := { wm with hart := { wm.hart with x := wm.hart.x.set 11 0x1FF_0800#64 } }
    let o : State := { s with hart := { s.hart with window := some wwin } }
    s.Inv ∧ s.hart.quiet ∧ s.hart.window = none ∧ winOk (s.hart.rx 14#5) (s.hart.rx 11#5) = true ∧
    s.maps .store (s.hart.rx 14#5) 1 0x10_0000_0000 s ∧ winOk (s.hart.rx 13#5) (s.hart.rx 11#5) = false ∧
    o.Inv ∧ o.hart.quiet ∧ o.hart.window.isSome = true ∧ o.hart.window = some wwin ∧
    winFmt wwin.ctl = some (.int false 64) ∧ wwin.next = 0 ∧ o.heldPa .store wwin.base = some 0x10_0000_0000 ∧
    (∀ l, l ∈ wwin.copies → (l.map Prod.fst).Nodup ∧ ∀ q v, (q, v) ∈ l → q % 8 = 0 ∧ q < 4096 ∧
      o.storesTo (wwin.base + BitVec.ofNat 64 q) 8 (0x10_0000_0000 + q) ∧ o.poisoned (0x10_0000_0000 + q) 8 = false) ∧
    (let t : State := { wv 3 (8 + 32 * 8 + 1024 * 8) with hart := { (wv 3 (8 + 32 * 8 + 1024 * 8)).hart with window := some wwin } }
     let w := vw 17#5 19#5 0#5 0#5
     let c := t.context (.vwacc w) w false
     let p := t.palOf w
     t.Inv ∧ t.hart.quiet ∧ t.dispatches w false ∧ t.hart.window = some wwin ∧ regFmt (palFa p) = some (.int false 64) ∧
     intFmt (palFb p) t.bits = some false ∧ palPlain p = true ∧ scalesZero p false false false = true ∧
     palFd p = palFa p ∧ palFa p = (wwin.ctl.extractLsb' 8 5).toNat ∧ (Fmt.int false 64).width = t.bits ∧
     0 < wwin.copies.length ∧
     (∀ k, c.computes t k = true → decodeInt false t.bits (t.el w.vs2 k) % 8 = 0 ∧
       0 ≤ decodeInt false t.bits (t.el w.vs2 k) ∧ decodeInt false t.bits (t.el w.vs2 k) < winSize wwin.ctl) ∧
     ∀ k l, c.computes t k = true → c.computes t l = true → k ≠ l → k % wwin.copies.length = l % wwin.copies.length →
       decodeInt false t.bits (t.el w.vs2 k) ≠ decodeInt false t.bits (t.el w.vs2 l)) := by
  refine ⟨rfl, ⟨rfl, rfl, rfl, rfl, rfl, rfl⟩, rfl, rfl, ⟨by decide, by decide, by decide, ⟨0, rfl⟩, trivial⟩, rfl, rfl,
    ⟨rfl, rfl, rfl, rfl, rfl, rfl⟩, rfl, rfl, rfl, rfl, rfl, ?_, ?_⟩
  · intro l hl
    have : l = [(4088, 5#64)] ∨ l = [] := by simpa [wwin] using hl
    rcases this with rfl | rfl
    · refine ⟨by simp, fun q v hq => ?_⟩
      obtain ⟨rfl, rfl⟩ : q = 4088 ∧ v = 5#64 := by simpa using hq
      exact ⟨by decide, by decide, ⟨rfl, rfl, rfl, trivial, rfl⟩, rfl⟩
    · exact ⟨by simp, by simp⟩
  · refine ⟨rfl, ⟨rfl, rfl, rfl, rfl, rfl, rfl⟩, ⟨⟨rfl, rfl, rfl, rfl, rfl, rfl⟩, by decide, by decide, by decide⟩, rfl, rfl, rfl,
      rfl, rfl, rfl, rfl, rfl, by decide, fun k hk => ?_, fun k l hk hl h => ?_⟩
    · obtain rfl := only_zero rfl hk; decide +kernel
    · obtain rfl := only_zero rfl hk; obtain rfl := only_zero rfl hl; exact absurd rfl h

/-- Bytes that a load finds at pa, in HBM. -/
def loadsAt (s : State) (va : Word) (n pa : Nat) : Bool :=
  va.toNat % n == 0 && s.heldPa .load va == some pa && pa % 128 == va.toNat % 128 &&
  decide (0x10_0000_0000 ≤ pa) && decide (pa < 0xD0_0000_0000) && !s.poisoned pa n

theorem loads_of {s : State} {va : Word} {n pa : Nat} (h : loadsAt s va n pa = true) : s.loadsFrom va n pa := by
  simp only [loadsAt, Bool.and_eq_true, beq_iff_eq, decide_eq_true_eq, Bool.not_eq_true'] at h
  obtain ⟨⟨⟨⟨⟨h1, h2⟩, h3⟩, h4⟩, h5⟩, h6⟩ := h
  exact ⟨h1, h2, h3, served_hbm s h4 h5, h6⟩

/-- The thread of the gang with eight tiles, of which tile 5 is enabled in a mode; p9 holds row and element 31 alone; x15
is the window's base. -/
def wt (width pal : Nat) (m : TileMode) : State := { wg with hart := { wg.hart with
  vl := 1, vgrant := BitVec.ofNat 64 width, vpal := BitVec.ofNat 64 pal
  tiles := wg.hart.tiles.set 5 (some (Tile.zeros m false))
  p := wg.hart.p.set 9 (2147483648#2048)
  x := wg.hart.x.set 15 0x100_0000#64 } }

/-- A W instruction under p9, on tile 5. -/
def tw : WWord := fields 0#9 0#1 0#3 0#1 0#1 0#4 9#4 0#5 0#5 0#5 15#5 5#5

theorem witness_TileControl :
    let s := wt 3 0 .f64
    let pa := fun (_ n : Nat) => 0x4000_0000 + (2 + n / 128) * 0x2_0000 + 1920 + n % 128
    let on := fun i => i < 32 ∧ (s.context (.mldt tw) tw false).mask.getLsbD i = true
    s.hart.quiet ∧ (7#3).toNat < s.hart.tileLimit ∧ s.Inv ∧ s.dispatches tw false ∧ tw.lqv = 0#1 ∧
    s.hart.tile (tw.vd.toNat % 8) = some (Tile.zeros .f64 false) ∧ on 31 ∧ (∀ i, on i → s.rowAt tw i (pa i)) ∧
    (Tile.zeros .f64 false).chk = false ∧
    ∀ i n k m, on i → on k → n < 256 → m < 256 → (i, n) ≠ (k, m) → pa i n ≠ pa k m := by
  have one : ∀ i, (i < 32 ∧ ((wt 3 0 .f64).context (.mldt tw) tw false).mask.getLsbD i = true) → i = 31 := by
    rintro i ⟨hi, h⟩; revert h; revert i; decide +kernel
  refine ⟨⟨rfl, rfl, rfl, rfl, rfl, rfl⟩, by decide, rfl, ⟨⟨rfl, rfl, rfl, rfl, rfl, rfl⟩, by decide, by decide, by decide⟩, rfl, rfl,
    ⟨by decide, by decide +kernel⟩, fun i hi => ?_, rfl, fun i n k m hi hk hn hm h => ?_⟩
  · obtain rfl := one i hi
    refine ⟨by decide +kernel, by decide +kernel, fun n hn => ?_, fun n hn => ?_⟩
    · have hn : (0x100_1F00#64 + BitVec.ofNat 64 n).toNat % 128 ≠ 127 := hn
      simp only [BitVec.toNat_add, BitVec.toNat_ofNat] at hn
      show 0x4000_0000 + (2 + (n + 1) / 128) * 0x2_0000 + 1920 + (n + 1) % 128 =
        0x4000_0000 + (2 + n / 128) * 0x2_0000 + 1920 + n % 128 + 1
      omega
    · have all : (List.range 256).all (fun n =>
          let b := (wt 3 0 .f64).rowAddress tw 31 + BitVec.ofNat 64 n
          let p := 0x4000_0000 + (2 + n / 128) * 0x2_0000 + 1920 + n % 128
          (wt 3 0 .f64).heldPa .load b == some p && (wt 3 0 .f64).heldPa .store b == some p &&
          (region p == .aperture 0 (p - 0x4000_0000)) && (wt 3 0 .f64).apertureOpen 0 (p - 0x4000_0000) &&
          p % 128 == b.toNat % 128) = true := by decide +kernel
      have := List.all_eq_true.mp all n (List.mem_range.mpr hn)
      simp only [Bool.and_eq_true, beq_iff_eq] at this
      obtain ⟨⟨⟨⟨h1, h2⟩, h3⟩, h4⟩, h5⟩ := this
      refine ⟨h1, h2, ?_, h5, rfl, rfl⟩
      simp only [State.served, h3]; exact h4
  · obtain rfl := one i hi; obtain rfl := one k hk
    have h : n ≠ m := fun e => h (by rw [e])
    show 0x4000_0000 + (2 + n / 128) * 0x2_0000 + 1920 + n % 128 ≠
      0x4000_0000 + (2 + m / 128) * 0x2_0000 + 1920 + m % 128
    omega

theorem witness_TileArithmetic :
    let s := wt 3 (pal4 0xC) .f64
    let w := vw 0#5 19#5 18#5 5#5
    let p := s.palOf w
    s.dispatches w false ∧ palDefined p = true ∧ palFd p ∉ [0x0F, 0x10] ∧ s.hart.tile (w.vd.toNat % 8) = some (Tile.zeros .f64 false) ∧
    regFmt (palFa p) = some .f64 ∧ regFmt (palFb p) = some .f64 ∧ fmtOf (palFc p) = some (Tile.zeros .f64 false).mode.fmt ∧
    regFmt (palFd p) = some .f64 ∧ Fmt.f64.width = s.bits ∧ Fmt.f64.isInt = ((Tile.zeros .f64 false).mode == .i64) ∧
    scaleOk (palSa p) .f64 = true ∧ scaleOk (palSb p) .f64 = true ∧ scaleOk (palSd p) .f64 = true ∧ palSa p = 0 ∧
    palSb p = 0 ∧ palSd p = 0 ∧
    s.hart.tile ((vw 1#5 0#5 5#5 31#5).vs1.toNat % 8) = some (Tile.zeros .f64 false) ∧ (Tile.zeros .f64 false).chk = false := by
  refine ⟨⟨⟨rfl, rfl, rfl, rfl, rfl, rfl⟩, by decide, by decide, by decide⟩, rfl, by decide, rfl, rfl, rfl, rfl, rfl, rfl, rfl, rfl, rfl,
    rfl, rfl, rfl, rfl, rfl, rfl⟩

/-- F16 operands for an F32P tile, with one K position kept, and both groups of loc 1 rings that are to be released. -/
theorem witness_MatrixMultiply :
    let w : WWord := { vw 9#5 12#5 11#5 5#5 with aux9 := 11#9 }
    let ga : OperandGroup := { handle := 0x0100_0000_0000_0000#64, first := 0, pas := [0x4008_0000, 0x4008_0200] }
    let gb : OperandGroup := { handle := 0x0100_0000_0000_0001#64, first := 0, pas := [0x4008_0400, 0x4008_0600, 0x4008_0800, 0x4008_0A00] }
    let t := wt 3 (0xB + 32 * 9 + 1024 * 9 + 32768 * 0xB) .f32p
    let s : State := { t with hart := { t.hart with
      groupA := some ga, groupB := some gb, x := (t.hart.x.set 11 ga.handle).set 12 gb.handle } }
    let p := s.palOf w
    let row : MacRow := { g := 1, kd := 32, cols := 64, a := 2048, b := 4096, kc := true }
    s.dispatches w false ∧ w.lqv = 0#1 ∧ s.hart.tile (w.vd.toNat % 8) = some (Tile.zeros .f32p false) ∧
    fmtOf (palFa p) = some .f16 ∧ fmtOf (palFb p) = some .f16 ∧ fmtOf (palFc p) = some (Tile.zeros .f32p false).mode.fmt ∧
    palDefined p = true ∧ palFd p ∉ [0x0F, 0x10] ∧ scaleOk (palSa p) .f16 = true ∧ scaleOk (palSb p) .f16 = true ∧ palSd p = 0 ∧
    macRow .f32p .f16 .f16 = some row ∧ Fmt.isQ .f16 = false ∧ w.aux9.getLsbD 3 = true ∧ row.kc = true ∧
    ((List.range row.kd).filter fun k => (s.hart.rp (w.vs3.toNat % 16) &&& lowMask row.kd).getLsbD k).length ≤ row.kd / 2 ∧
    s.hart.groupA = some ga ∧ ga.handle = s.hart.rx w.vs1 ∧ s.hart.groupB = some gb ∧ gb.handle = s.hart.rx w.vs2 ∧
    s.hart.rx w.vs1 ≠ s.hart.rx w.vs2 ∧ s.poison = [] ∧ s.linesOpen ∧ w.aux9.getLsbD 0 = true ∧
    ga.handle.extractLsb' 56 4 = 1#4 ∧ w.aux9.getLsbD 1 = true ∧ gb.handle.extractLsb' 56 4 = 1#4 ∧
    row.a / 2 ≤ 512 * ga.pas.length ∧ row.b / 2 ≤ 512 * gb.pas.length := by
  refine ⟨⟨⟨rfl, rfl, rfl, rfl, rfl, rfl⟩, by decide, by decide, by decide⟩, rfl, rfl, rfl, rfl, rfl, rfl, by decide, rfl, rfl, rfl,
    rfl, rfl, rfl, rfl, by decide +kernel, rfl, rfl, rfl, rfl, by decide, rfl, open_of rfl, rfl, by decide, rfl, by decide, by decide, by decide⟩

/-- A stream descriptor of one field in memory, and one bound in a register. -/
def streamBytes : List Byte :=
  lowBytes 8 0x4000 ++ lowBytes 8 (7 + 32 * 7) ++ List.replicate 20 0#8 ++ lowBytes 4 1 ++ lowBytes 4 1 ++ lowBytes 4 1 ++
    List.replicate 16 0#8

def streamDesc : StreamDesc :=
  { base := 0x4000#64, pal := 231#64, stride1 := 0#64, stride2 := 0#64, stride0 := 0#32, count0 := 1, count1 := 1, count2 := 1,
    store := false, fields := 1, rm := 0#3, sat := false, scope := 0 }

theorem witness_StreamInstructions :
    let s : State := { wm with
      mem := at_ 0x10_0000_2000 streamBytes
      hart := { wm.hart with
        st := wm.hart.st.set 15 { desc := some streamDesc, pos := [0], ahead := [], appended := [], ready := [] }
        x := ((wm.hart.x.set 15 1#64).set 16 2#64).set 17 231#64 } }
    s.hart.vq = [] ∧ s.hart.mq = [] ∧ s.hart.faults = [] ∧ s.hart.tx = none ∧ (∀ k : Fin 16, s.hart.st[k].appended = []) ∧
    s.loadsFrom (s.hart.rx 10#5) 64 0x10_0000_2000 ∧ parseDesc (s.mem.read 0x10_0000_2000 64) s.hart.vfrm = some streamDesc ∧
    (s.hart.st[15] : StreamReg).desc = some streamDesc ∧ s.hart.rx 14#5 = 0#64 ∧ s.hart.rx 15#5 = 1#64 ∧ s.hart.rx 16#5 = 2#64 ∧
    streamPalOk streamDesc.store streamDesc.fields streamDesc.count1 streamDesc.count2 streamDesc.stride0 (s.hart.rx 17#5) = true ∧
    (31#5).toNat + streamDesc.fields ≤ 32 := by
  refine ⟨rfl, rfl, rfl, rfl, by decide, loads_of (by decide +kernel), by decide +kernel, rfl, rfl, rfl, rfl, by decide +kernel,
    by decide⟩

/-- A texture of one texel with a nearest sampler; the same bytes at the end of a line serve as a fragment record. -/
def wx_ : State :=
  let s := wv 2 (0xB + 32 * 0xB)
  { s with
    mem := at_ 0x10_0000_2000 (lowBytes 8 0x4000 ++ [0#8, 1#8])
    hart := { s.hart with x := (s.hart.x.set 11 0x2040#64) } }

theorem witness_InterpolationAndTextures :
    let s := wx_
    let w : WWord := { vw 10#5 4#5 18#5 0#5 with aux9 := 3#9 }
    let p := s.palOf w
    let va := s.hart.rx w.vs3
    let b := s.mem.read 0x10_0000_2000 128
    let t := TexBinding.ofBytes va b
    s.dispatches w false ∧ floatFmt (palFa p) s.bits = some .f32 ∧ floatFmt (palFd p) s.bits = some .f32 ∧ palPlain p = true ∧
    palFb p = 0 ∧ palFc p = 0 ∧ scalesZero p false false false = true ∧ s.loadsFrom va 128 0x10_0000_2000 ∧
    (let va2 := s.hart.rx 11#5
     va2.toNat % 128 = 64 ∧ s.loadsFrom va2 64 0x10_0000_2040 ∧ s.loadsFrom (va2 + 64#64) 64 0x10_0000_2080) ∧
    textureOk b = true ∧ samplerOk b = true ∧ t.mag = 0 ∧ t.small = 0 ∧ t.mip = 0 ∧ t.cmp = 0 ∧ t.dim = 0 ∧
    w.vs1.toNat + 1 < 32 ∧ w.vd.toNat + 4 ≤ 32 ∧ w.vs2.toNat + 3 < 32 ∧ (w.aux9.extractLsb' 0 2).toNat + 1 = 4 ∧
    (∀ k, (s.context (.vtex w) w false).computes s k = true →
      t.texelThere s (fun _ _ => 0x10_0000_4000) (t.nearest (s.texCoords (s.context (.vtex w) w false) .f32 w.vs1 k))) ∧
    ∀ k xy, (s.context (.vtexq w) w false).computes s k = true →
      xy ∈ t.gathered (s.texCoords (s.context (.vtexq w) w false) .f32 w.vs1 k) →
      t.texelThere s (fun _ _ => 0x10_0000_4000) xy := by
  have there : ∀ xy : Int × Int, (TexBinding.ofBytes (wx_.hart.rx 10#5) (wx_.mem.read 0x10_0000_2000 128)).texelThere wx_
      (fun _ _ => 0x10_0000_4000) xy := by
    intro xy i j hi hj
    have e : (TexBinding.ofBytes (wx_.hart.rx 10#5) (wx_.mem.read 0x10_0000_2000 128)).width 0 = 1 ∧
      (TexBinding.ofBytes (wx_.hart.rx 10#5) (wx_.mem.read 0x10_0000_2000 128)).height 0 = 1 ∧
      (TexBinding.ofBytes (wx_.hart.rx 10#5) (wx_.mem.read 0x10_0000_2000 128)).au = 0 ∧
      (TexBinding.ofBytes (wx_.hart.rx 10#5) (wx_.mem.read 0x10_0000_2000 128)).av = 0 := by decide +kernel
    rw [e.1, e.2.2.1] at hi; rw [e.2.1, e.2.2.2] at hj
    simp only [addressTexel, Nat.cast_one, Int.emod_one, Int.toNat_zero, Option.some.injEq] at hi hj
    subst hi hj
    exact loads_of (by decide +kernel)
  refine ⟨⟨⟨rfl, rfl, rfl, rfl, rfl, rfl⟩, by decide, by decide, by decide⟩, rfl, rfl, rfl, rfl, rfl, rfl, loads_of (by decide +kernel),
    ⟨by decide, loads_of (by decide +kernel), loads_of (by decide +kernel)⟩, by decide +kernel, by decide +kernel,
    by decide +kernel, by decide +kernel, by decide +kernel, by decide +kernel, by decide +kernel, by decide, by decide,
    by decide, by decide, fun k _ => there _, fun k xy _ _ => there xy⟩

/-- Queries under way: one with a triangle to visit, one with nothing left, and one with a candidate; the triangle's bytes
are zero but for its opaque bit. -/
def wr (q : RayQuery) : State :=
  let s := wv 2 0
  { s with
    mem := at_ 0x10_0000_402C [1#8]
    hart := { s.hart with v := s.hart.v.set 24 1#16384 }
    dev := { s.dev with queries := [q] } }

def aRay : List Nat := List.replicate 8 0
def atLeaf : RayQuery := { status := 1, flags := 0, tcur := 0, hit := none, cand := none,
                           work := [{ base := 0x4000#64, ref := 2 ^ 31, ray := aRay, inst := none }] }
def atEnd : RayQuery := { status := 2, flags := 0, tcur := 0, hit := none, cand := none, work := [] }
def candidate : RayQuery := { atEnd with cand := some {
  t := 0, u := 0, v := 0, prim := 0, geom := 0, inst := none, front := true, key := (0, 0) } }

theorem witness_RayQueries :
    let w := vw 10#5 0#5 24#5 24#5
    (wr atLeaf).dispatches w false ∧ (wr atLeaf).bits = 32 ∧ (wr atLeaf).dev.queries.length + 2048 < 2 ^ 64 ∧
    w.vd.toNat + 8 ≤ 32 ∧ w.vs1.toNat + 8 ≤ 32 ∧ w.em = 0#1 ∧
    (∀ k, ((wr atLeaf).context (.vrayt w) w false).computes (wr atLeaf) k = true → k < 512 ∧
      (wr atLeaf).rayBlock w.vd k = some atLeaf) ∧
    (atLeaf.status = 1 ∧ refType (2 ^ 31) = 2 ∧ (wr atLeaf).loadsFrom 0x4000#64 64 0x10_0000_4000 ∧
      bitsAt ((wr atLeaf).mem.read 0x10_0000_4000 64) 352 1 = 1 ∧
      bitsAt ((wr atLeaf).mem.read 0x10_0000_4000 64) 384 128 = 0 ∧
      (triangleHit (recordWords ((wr atLeaf).mem.read 0x10_0000_4000 64) 0 9) aRay).isSome = true) ∧
    (∀ k, ((wr atEnd).context (.vrayt w) w false).computes (wr atEnd) k = true → k < 512 ∧
      (wr atEnd).rayBlock w.vd k = some atEnd) ∧ atEnd.status = 2 ∧ atEnd.work = [] ∧
    (∀ k, ((wr candidate).context (.vrayc w) w false).computes (wr candidate) k = true → k < 512 ∧
      (wr candidate).rayBlock w.vd k = some candidate) ∧ candidate.cand.isSome = true := by
  refine ⟨⟨⟨rfl, rfl, rfl, rfl, rfl, rfl⟩, by decide, by decide, by decide⟩, rfl, by decide, by decide, by decide, rfl,
    fun k hk => ?_, ⟨rfl, by decide, loads_of (by decide +kernel), by decide +kernel, by decide +kernel, by decide +kernel⟩,
    fun k hk => ?_, rfl, rfl, fun k hk => ?_, rfl⟩
  all_goals obtain rfl := only_zero rfl hk; exact ⟨by decide, by decide +kernel⟩

/-- A descriptor in memory. -/
def descAt (pa : Nat) (d : RingDesc) : Memory := at_ pa (d.words.flatMap (lowBytes 8))

/-- A work ring of two slots of 8 bytes with one committed slot, whose notify names host beacon 253. -/
def ringD : RingDesc :=
  { ctl := 0x3_0001_0000#64, base := 0x1_0000#64, head := 0, acq := 0, tail := 1, resv := 1, cmask := 0#64, rmask := 0#64,
    notify := 0xC000_0000_3800_07E8#64, eosidx := 0, window := 0, last := 0 }

def ringR : RingRef := { handle := 0x2040#64, va := 0x2040#64, pa := 0x10_0000_2040, cluster := 0, gang := none }

/-- The hart names the ring in x10, and its slot list holds a producer slot with the last counter and a consumer slot. -/
def wri : State := { wm with
  mem := descAt 0x10_0000_2040 ringD
  hart := { wm.hart with
    x := wm.hart.x.set 10 0x2040#64
    slots := [{ handle := 0x2040#64, consumer := false, counter := 3 }, { handle := 0x2040#64, consumer := true, counter := 0 }] } }

set_option maxRecDepth 100000 in
theorem ring_at : wri.ringAt (wri.hart.rx 10#5) ringR ringD :=
  ⟨(by decide +kernel : wri.mem.wf = true), ⟨rfl, rfl, rfl⟩, rfl, open_of rfl, rfl, fun _ => trivial⟩

theorem witness_RingInstructions :
    wri.ringAt (wri.hart.rx 10#5) ringR ringD ∧ (3#3 : BitVec 3) ≠ 5#3 ∧ wri.released ∧
    (∀ op, op < 9 → ringAllows ringD.kind op = true) ∧ ringD.reserve.1.st = 0 ∧ wri.hart.slots.length < 8 ∧
    ringD.acquire.1.st = 0 ∧ 3 < ringD.m ∧
    wri.hart.slots.find? (fun x => x.handle == wri.hart.rx 10#5 && !x.consumer) =
      some { handle := 0x2040#64, consumer := false, counter := 3 } ∧
    wri.hart.slots.find? (fun x => x.handle == wri.hart.rx 10#5 && x.consumer) =
      some { handle := 0x2040#64, consumer := true, counter := 0 } ∧
    wri.hart.slots.length + 1 + (wri.attachment ringR.pa ringD.acquire.1.counter).toList.length ≤ 8 ∧
    wri.storesTo (slotAddr wri.hart.ctx ringD ringD.reserve.1.counter) 8 0x10_0001_0008 ∧
    (0x10_0001_0008 + 8 ≤ ringR.pa ∨ ringR.pa + 64 ≤ 0x10_0001_0008) ∧
    wri.loadsFrom (slotAddr wri.hart.ctx ringD ringD.acquire.1.counter) 8 0x10_0001_0000 ∧ ringD.kind ≠ 1 ∧
    ringD.notify.getLsbD 62 = true ∧ (ringD.notify.extractLsb' 0 56).toNat = 0x3800_0000 + 8 * 253 ∧ 253 < 254 ∧
    wm.direct ∧ handleOk (wm.hart.rx 11#5) = false ∧ wm.trapsHere 26 1#64 := by
  refine ⟨ring_at, by decide, ⟨rfl, rfl⟩, by decide, by decide, by decide, by decide, by decide, rfl, rfl, by decide,
    ⟨rfl, rfl, rfl, trivial, rfl⟩, by decide, ⟨rfl, rfl, rfl, trivial, rfl⟩, by decide, rfl, rfl, by decide, ⟨rfl, rfl, rfl⟩, rfl,
    ⟨rfl, rfl, by decide, by decide, rfl⟩⟩

/-! Delta rings: one with a committed record that ends its batch, one with none, one that is closed; the record is key 5,
payload 6 and 7, multiplicity 1. -/

def deltaD : RingDesc :=
  { ctl := 0x1000_0005_0003_0001#64 &&& 0xFFF_FFFF_FFFF#64, base := 0x1_0000#64, head := 0, acq := 0, tail := 1, resv := 1, cmask := 0#64,
    rmask := 0#64, notify := 0#64, eosidx := 0, window := 4, last := 0 }

def deltaH : Word := 0x1000_0000_0000_2040#64

def rec5 : DeltaRec := { key := 5#64, plo := 6#64, phi := 7#64, mult := 1, stage := 0, split := false }

def rec5Bits : Nat := bytesToNat (rec5.bytes true 1)

/-- A hart whose element 0 of v20 to v23 is that record, and a ring with a descriptor and an open batch. -/
def wd (d : RingDesc) (l : List DeltaRec) : State :=
  let s := wv 3 0
  { s with
    mem := descAt 0x10_0000_2040 d ++ at_ 0x10_0001_0000 (rec5.bytes true 1)
    hart := { s.hart with
      x := s.hart.x.set 10 deltaH
      v := (((s.hart.v.set 20 5#16384).set 21 6#16384).set 22 7#16384).set 23 1#16384 }
    dev := { s.dev with
      members := [{ pa := 0x10_0000_2040, graph := 0x10_0000_3000, va := 0x3000#64, asid := 0 }]
      graphs := [{ pa := 0x10_0000_3000, va := 0x3000#64, asid := 0, quiet := 0#64, cleared := false, zero := false }]
      rings := if l.isEmpty then [] else [{
        pa := 0x10_0000_2040, unit := 1, open_ := l, pending := none, sealNext := false, handle := deltaH,
        satp := s.hart.satp, sbase := 0#64, gang := none, priv := .user, sum := false, die := 0 }] } }

/-- The ring as the hart reaches it. -/
def deltaA (s : State) : DeltaAt :=
  let r : RingRef := { handle := deltaH, va := 0x2040#64, pa := 0x10_0000_2040, cluster := 0, gang := none }
  { p := s.party, r := r, unit := unitOf r 0 }

def deltaG : GraphMember := { pa := 0x10_0000_2040, graph := 0x10_0000_3000, va := 0x3000#64, asid := 0 }

/-- A ring with nothing in it, a closed one, and one whose slots are all taken. -/
def emptyD : RingDesc := { deltaD with acq := 1, head := 1 }
def closedD : RingDesc := { emptyD with ctl := deltaD.ctl ||| 0x400_0000_0000#64 }
def fullD : RingDesc := { deltaD with tail := 4, resv := 4 }
def rec9 : DeltaRec := { rec5 with key := 9#64 }

set_option maxRecDepth 100000 in
theorem opens_equal : (wd deltaD [rec5]).deltaOpens deltaH (deltaA (wd deltaD [rec5])) deltaD deltaG :=
  ⟨rfl, open_of rfl⟩
set_option maxRecDepth 100000 in
theorem opens_other : (wd deltaD [rec9]).deltaOpens deltaH (deltaA (wd deltaD [rec9])) deltaD deltaG :=
  ⟨rfl, open_of rfl⟩
set_option maxRecDepth 100000 in
theorem opens_record : (wd deltaD []).deltaOpens deltaH (deltaA (wd deltaD [])) deltaD deltaG :=
  ⟨rfl, open_of rfl⟩
set_option maxRecDepth 100000 in
theorem opens_empty : (wd emptyD []).deltaOpens deltaH (deltaA (wd emptyD [])) emptyD deltaG :=
  ⟨rfl, open_of rfl⟩
set_option maxRecDepth 100000 in
theorem opens_closed : (wd closedD []).deltaOpens deltaH (deltaA (wd closedD [])) closedD deltaG :=
  ⟨rfl, open_of rfl⟩
set_option maxRecDepth 100000 in
theorem opens_full : (wd fullD [rec5]).deltaOpens deltaH (deltaA (wd fullD [rec5])) fullD deltaG :=
  ⟨rfl, open_of rfl⟩

/-- One element is computed, element 0. -/
theorem one_push (j : Nat) : ((wd deltaD [rec5]).context (.dpush (vw 10#5 0#5 20#5 15#5)) (vw 10#5 0#5 20#5 15#5) false).computes
    (wd deltaD [rec5]) j = decide (j = 0) := by
  by_cases hj : j = 0
  · subst hj; decide +kernel
  · rw [decide_eq_false hj]; exact Bool.eq_false_iff.mpr fun h => hj (only_zero rfl h)

set_option maxRecDepth 100000 in
theorem pops_record : (deltaA (wd deltaD [])).slot deltaD deltaD.acq (wd deltaD []) = .ok rec5Bits (wd deltaD []) := rfl

/-- DPUSH into an open batch with an equal record and with another, and into a closed ring; DPOP from empty rings and from
the ring with a record; DSEAL with nothing open and of a batch that has no room. -/
theorem witness_DeltaRings :
    let w := vw 10#5 0#5 20#5 15#5
    let s := wd deltaD [rec5]
    let e := wd emptyD []
    (wd deltaD [rec5]).mem.wf = true ∧ s.dispatches w false ∧ s.hart.rx w.vs3 = deltaH ∧
    s.deltaOpens deltaH (deltaA s) deltaD deltaG ∧
    (∀ j, (s.context (.dpush w) w false).computes s j = decide (j = 0)) ∧ s.bits = 64 ∧ w.vd.toNat < 16 ∧ w.vs1.toNat + 4 ≤ 32 ∧
    deltaD.pscope ≠ 5 ∧ s.deltaRecord w.vs1 0 = rec5 ∧ fitsMult rec5.mult = true ∧ deltaD.pclosed = false ∧
    deltaD.cclosed = false ∧ rec5.mult ≠ 0 ∧ (s.deltaRing (deltaA s)).open_ = [] ++ rec5 :: [] ∧ rec5.same rec5 = true ∧
    fitsMult (rec5.mult + rec5.mult) = true ∧
    ((wd deltaD [rec9]).deltaOpens deltaH (deltaA (wd deltaD [rec9])) deltaD deltaG ∧ rec9.same rec5 = false ∧
      [rec9].length + 1 < deltaD.window ∧
      ((wd deltaD [rec9]).dev.rings.filter fun y => y.unit == (deltaA s).unit).length < 64) ∧
    ((wd closedD []).deltaOpens deltaH (deltaA (wd closedD [])) closedD deltaG ∧ closedD.pclosed = true) ∧
    ((wd emptyD []).mem.wf = true ∧ e.dispatches w false ∧ e.deltaOpens deltaH (deltaA e) emptyD deltaG ∧ emptyD.acq = emptyD.tail ∧
      w.lqv = 0#1 ∧ e.hart.vstart = 0 ∧ (e.deltaRing (deltaA e)).open_ = [] ∧ (e.deltaRing (deltaA e)).pending = none ∧
      e.hart.lq.length < 8 ∧ (e.hart.q.toList.getD 7 []).length < 8 ∧ w.vd.toNat + 5 ≤ 32) ∧
    ((wd deltaD []).deltaOpens deltaH (deltaA (wd deltaD [])) deltaD deltaG ∧ deltaD.tail = (deltaD.acq + 1) % deltaD.m ∧
      deltaD.head = deltaD.acq ∧ (deltaA (wd deltaD [])).slot deltaD deltaD.acq (wd deltaD []) = .ok rec5Bits (wd deltaD []) ∧
      bitsAt rec5Bits 250 1 = 1) ∧
    ((wd fullD [rec5]).deltaOpens deltaH (deltaA (wd fullD [rec5])) fullD deltaG ∧ fullD.free < [rec5].length ∧
      ((wd fullD [rec5]).deltaRing (deltaA (wd fullD [rec5]))).open_ ≠ [] ∧
      ((wd fullD [rec5]).deltaRing (deltaA (wd fullD [rec5]))).pending = none) := by
  refine ⟨by decide +kernel, ⟨⟨rfl, rfl, rfl, rfl, rfl, rfl⟩, by decide, by decide, by decide⟩, rfl, opens_equal, one_push, rfl,
    by decide, by decide, by decide, by decide +kernel, rfl, rfl, rfl, by decide, rfl, rfl, rfl,
    ⟨opens_other, rfl, by decide, by decide +kernel⟩, ⟨opens_closed, rfl⟩,
    ⟨by decide +kernel, ⟨⟨rfl, rfl, rfl, rfl, rfl, rfl⟩, by decide, by decide, by decide⟩, opens_empty, rfl, rfl, rfl, rfl, rfl,
      by decide, by decide, by decide⟩,
    ⟨opens_record, by decide, rfl, pops_record, by decide +kernel⟩,
    ⟨opens_full, by decide, by decide +kernel, rfl⟩⟩

/-! Arrangements: a header at va 0x2000 over a table of 16 slots at va 0x8000, empty or with the record of key 5 at home. -/

def arrHeader : Nat := 0x8000 + 4 * 2 ^ 64

/-- The home of key 5 in a table of 16. -/
def home5 : Nat := (arrangementOf 0x2000#64 arrHeader).home 5#64

def wa (filled : Bool) (at3 : BitVec 16384) : State :=
  let s := wv 3 0
  { s with
    mem := num 0x10_0000_2000 64 arrHeader ++ num 0x10_0000_2080 8 42 ++
      (if filled then at_ (0x10_0000_8000 + 32 * home5) (rec5.bytes false 1) else [])
    hart := { s.hart with
      x := (s.hart.x.set 11 0#64).set 12 0#64
      v := ((((s.hart.v.set 20 5#16384).set 21 6#16384).set 22 7#16384).set 23 1#16384).set 11 at3 } }

def slotPa (p : Nat) : Nat := 0x10_0000_8000 + 32 * p

theorem arrangement_at (f : Bool) (p : Nat) (hp : p = 3 ∨ p = 99) :
    (wa f (BitVec.ofNat 16384 p)).arrangementAt 0x2000#64 0x10_0000_2000 arrHeader := by
  cases f <;> obtain rfl | rfl := hp <;>
    exact ⟨loads_of (by decide +kernel), by decide, by decide +kernel, by decide +kernel, 0x10_0000_8000, by decide +kernel, .inl ⟨0, rfl⟩⟩

/-- Slot p can be loaded. -/
def slotOk (s : State) (p : Nat) : Bool :=
  loadsAt s ((arrangementOf 0x2000#64 arrHeader).slotVa p) 32 (slotPa p) &&
  (let m := (DeltaRec.ofNat (s.mem.read (slotPa p) 32)).2
   m / 2 ^ 28 == 0 && m / 2 ^ 8 % 2 ^ 16 == 0 && slotState m != 3)

theorem slot_of {s : State} {p : Nat} (h : slotOk s p = true) : s.slotAt (arrangementOf 0x2000#64 arrHeader) p (slotPa p) := by
  simp only [slotOk, Bool.and_eq_true, beq_iff_eq, bne_iff_ne] at h
  exact ⟨loads_of h.1, h.2.1.1, h.2.1.2, h.2.2⟩

/-- Only element 0 is computed. -/
theorem one_element {i : Instr} {w : WWord} {s : State} (hv : (s.context i w false).vl = 1)
    (h0 : (s.context i w false).computes s 0 = true) (j : Nat) : (s.context i w false).computes s j = decide (j = 0) := by
  by_cases hj : j = 0
  · subst hj; rw [h0]; rfl
  · rw [decide_eq_false hj]; exact Bool.eq_false_iff.mpr fun h => hj (only_zero hv h)

/-- DBIND's ring in x10 and graph in x11, the notify vector in x12; and an arrangement in x13 over an empty table. -/
def wb (g : Word) (m : Bool) : State :=
  let s := wd emptyD []
  { s with
    mem := s.mem ++ num 0x10_0012_0000 64 arrHeader
    hart := { s.hart with x := ((s.hart.x.set 11 g).set 12 0x17#64).set 13 0x12_0000#64 }
    dev := { s.dev with members := if m then s.dev.members else [] } }

set_option maxRecDepth 100000 in
set_option exponentiation.threshold 5000 in
theorem bind_opens : openDelta (wb 0x3000#64 true).party deltaH (wb 0x3000#64 true) =
    .ok (deltaA (wb 0x3000#64 true), emptyD) (wb 0x3000#64 true) := rfl

set_option maxRecDepth 100000 in
set_option exponentiation.threshold 5000 in
theorem unbind_opens : openDelta (wb 0#64 true).party deltaH (wb 0#64 true) =
    .ok (deltaA (wb 0#64 true), emptyD) (wb 0#64 true) := rfl

/-- Records in v20 to v23, the key in v20, the results in v8 to v11. -/
def aw : WWord := { fields 1#9 0#1 0#3 0#1 0#1 0#4 0#4 0#5 10#5 12#5 20#5 8#5 with em := 0#1 }

/-- DLOOK with and without a match; DNEXT from a position and from past the table; DAPPLY with multiplicity 1; DSCAN of an
empty table; and DQSTAT. -/
theorem witness_Arrangements :
    let s := wa false 3#16384
    let a := arrangementOf 0x2000#64 arrHeader
    let next := fun (s : State) => (s.el (aw.vd + 3#5) 0 + 1) % a.size
    s.mem.wf = true ∧ (wa true 3#16384).mem.wf = true ∧ s.dispatches aw false ∧ aw.em = 0#1 ∧ s.hart.rx aw.vs3 = 0x2000#64 ∧
    s.arrangementAt 0x2000#64 0x10_0000_2000 arrHeader ∧ s.bits = 64 ∧ aw.vd.toNat + 4 ≤ 32 ∧ aw.vs1.toNat + 4 ≤ 32 ∧
    (∀ n, (s.context (.dlook aw) aw false).computes s n = true → n = 0) ∧
    wordOf (s.el aw.vs1 0) = 5#64 ∧ a.home 5#64 = home5 ∧ s.slotAt a home5 (slotPa home5) ∧
    slotState (DeltaRec.ofNat (s.mem.read (slotPa home5) 32)).2 = 0 ∧
    (wa true 3#16384).slotAt a home5 (slotPa home5) ∧
    slotState (DeltaRec.ofNat ((wa true 3#16384).mem.read (slotPa home5) 32)).2 = 1 ∧
    (DeltaRec.ofNat ((wa true 3#16384).mem.read (slotPa home5) 32)).1.key = 5#64 ∧
    s.el (aw.vd + 3#5) 0 < a.size ∧ next s ≠ home5 ∧ s.slotAt a (next s) (slotPa (next s)) ∧
    ¬(wa false 99#16384).el (aw.vd + 3#5) 0 < a.size ∧
    (∀ j, (s.context (.dapply aw) aw false).computes s j = decide (j = 0)) ∧
    fitsMult (s.deltaRecord aw.vs1 0).mult = true ∧ (s.deltaRecord aw.vs1 0).mult ≠ 0 ∧
    s.storesTo (a.slotVa home5) 32 (slotPa home5) ∧ s.heldPa .store (0x2000#64 + 12#64) = some (0x10_0000_2000 + 12) ∧
    s.lineHeld (some s.hart.id) (0x10_0000_2000 / 128) = false ∧ 0x10_0000_2000 + 64 ≤ slotPa home5 ∧
    s.hart.vstart = 0 ∧ 0 < (aw.aux9.extractLsb' 0 3).toNat ∧
    (s.hart.q.toList.getD (aw.aux9.extractLsb' 0 3).toNat []).length < 8 ∧
    (∀ p, (s.hart.rx aw.vs2).toNat ≤ p → p < a.size → s.slotAt a p (slotPa p) ∧
      slotState (DeltaRec.ofNat (s.mem.read (slotPa p) 32)).2 ≠ 1) ∧ aw.lqv = 0#1 ∧
    s.loadsFrom (0x2000#64 + 128#64) 8 0x10_0000_2080 ∧ 0 < (4#5 : Reg).toNat ∧ (4#5 : Reg).toNat < 8 ∧
    (s.hart.q.toList.getD 4 []).length < 8 := by
  refine ⟨by decide +kernel, by decide +kernel, ⟨⟨rfl, rfl, rfl, rfl, rfl, rfl⟩, by decide, by decide, by decide⟩, rfl, by decide +kernel,
    arrangement_at false 3 (.inl rfl), rfl, by decide, by decide, fun n h => only_zero (by decide +kernel) h, by decide +kernel, rfl, slot_of (by decide +kernel),
    by decide +kernel, slot_of (by decide +kernel), by decide +kernel, by decide +kernel, by decide +kernel,
    by decide +kernel, slot_of (by decide +kernel), by decide +kernel, one_element rfl (by decide +kernel), by decide +kernel,
    by decide +kernel, ⟨by decide +kernel, by decide +kernel, by decide +kernel, served_hbm _ (by decide +kernel) (by decide +kernel),
      by decide +kernel⟩, by decide +kernel, by decide +kernel, by decide +kernel, rfl, by decide, by decide, fun p _ hp => ?_, rfl,
    loads_of (by decide +kernel), by decide, by decide, by decide⟩
  have all : (List.range 16).all (fun p => slotOk (wa false 3#16384) p &&
      slotState (DeltaRec.ofNat ((wa false 3#16384).mem.read (slotPa p) 32)).2 != 1) = true := by decide +kernel
  have h := List.all_eq_true.mp all p (List.mem_range.mpr hp)
  simp only [Bool.and_eq_true, bne_iff_ne] at h
  exact ⟨slot_of h.1, h.2⟩

/-- DBIND of a ring to a graph, with a notify vector and with none; to no graph; of an arrangement; and DBIND's release. -/
theorem witness_DeltaBinds :
    let w := fun (mode vs1 : BitVec 5) => fields (mode.setWidth 9) 0#1 0#3 0#1 0#1 0#4 0#4 0#5 11#5 12#5 vs1 0#5
    let s := wb 0x3000#64 true
    let u := wb 0#64 true
    let graphAt := fun (s : State) pa => s.hart.rx 11#5 ≠ 0#64 ∧ (s.hart.rx 11#5).toNat % 256 = 0 ∧
      s.heldPa .store (s.hart.rx 11#5) = some pa ∧ ∃ die, region pa = .hbm die
    s.mem.wf = true ∧ u.mem.wf = true ∧ s.dispatches (w 0 10) false ∧ s.others = [] ∧
    openDelta s.party (s.hart.rx 10#5) s = .ok (deltaA s, emptyD) s ∧ graphAt s 0x10_0000_3000 ∧
    (∀ m, s.graphOf 0x10_0000_2040 = some m → m.graph = 0x10_0000_3000) ∧
    u.hart.rx 11#5 = 0#64 ∧ openDelta u.party (u.hart.rx 10#5) u = .ok (deltaA u, emptyD) u ∧ u.ringCount 0x10_0000_2040 = 0 ∧
    ((w 1 13).aux9.extractLsb' 0 2).toNat = 1 ∧ s.arrangementAt (s.hart.rx 13#5) 0x10_0012_0000 arrHeader ∧
    wordOf (bitsAt arrHeader 192 64) = 0#64 ∧ s.storesTo (s.hart.rx 13#5 + 24#64) 8 (0x10_0012_0000 + 24) ∧
    2 ≤ ((w 2 0).aux9.extractLsb' 0 2).toNat := by
  refine ⟨by decide +kernel, by decide +kernel, ⟨⟨rfl, rfl, rfl, rfl, rfl, rfl⟩, by decide, by decide, by decide⟩, rfl, bind_opens,
    ⟨by decide +kernel, by decide +kernel, by decide +kernel, 0, by decide +kernel⟩, ?_, by decide +kernel, unbind_opens, by decide +kernel,
    by decide, ⟨loads_of (by decide +kernel), by decide +kernel, by decide +kernel, by decide +kernel, 0x10_0000_8000, by decide +kernel,
      .inl ⟨0, rfl⟩⟩,
    by decide +kernel, ⟨by decide +kernel, by decide +kernel, by decide +kernel, served_hbm _ (by decide) (by decide),
      by decide +kernel⟩, by decide⟩
  intro m h
  have : (wb 0x3000#64 true).graphOf 0x10_0000_2040 = some deltaG := by decide +kernel
  rw [this] at h; obtain rfl := Option.some.inj h; rfl

/-! Transactions: one to four levels, the outermost with a checkpoint of x5 and a target. -/

def txLevel (alt : Bool) : TxLevel := { alt := alt, x := w0.hart.x.set 5 9#64, vl := 3, target := 0x5000#64 }

def txOf (levels : List TxLevel) (doomed : Bool) : Tx :=
  { levels := levels, reads := [{ line := 0x1000_0040, va := 0x2000#64, page := none }],
    writes := [{ sector := 0x10_0000_2000 / 32, va := 0x2000#64, page := none, level := 1, bytes := [(0, 5#8, 0xFF#8), (31, 7#8, 0xFF#8)] }],
    sends := [], flips := [], slots := [], taken := [], doomed := doomed, doomVa := none, ordered := false,
    begin_ := 0x900#64, rd := 6#5 }

def wtx (levels : List TxLevel) (doomed : Bool) : State :=
  { wm with hart := { wm.hart with tx := some (txOf levels doomed) } }

def plainLevels (n : Nat) : List TxLevel := List.replicate n (txLevel false)

/-- Outside a transaction, the first TBEGIN and an ordered one; inside, one level and four; a commit; a doomed TEND; a
TRETRY with an alternative, and without one, doomed and not. -/
theorem witness_TransactionInstructions :
    let ord : State := { wm with hart := { wm.hart with
      txstat := 0x0800_0000#64, lastBegin := some wm.hart.pc, footprint := [0x2000_0040] } }
    let two := [txLevel false, txLevel true, txLevel false]
    wm.hart.vq = [] ∧ wm.hart.mq = [] ∧ wm.hart.tx = none ∧
    wm.trapsHere 2 (BitVec.ofNat 64 (bytesToNat (encode .tend))) ∧
    (decide (8 ≤ (ord.hart.txstat.extractLsb' 24 8).toNat) && ord.hart.lastBegin == some ord.hart.pc) = true ∧
    (∀ l, l ∈ ord.hart.footprint → ord.lineHeld (some ord.hart.id) l = false) ∧
    (∀ n, 1 ≤ n → n ≤ 4 → (wtx (plainLevels n) false).hart.tx = some (txOf (plainLevels n) false) ∧
      (txOf (plainLevels n) false).levels.getLast? = some (txLevel false) ∧ (plainLevels n).length = n) ∧
    (txOf (plainLevels 1) true).doomed = true ∧
    (let s := wtx (plainLevels 1) false
     let tr := txOf (plainLevels 1) false
     s.mem.wf = true ∧ tr.doomed = false ∧ tr.sends = [] ∧ tr.flips = [] ∧ tr.taken = [] ∧
     ∀ w, w ∈ tr.writes → (∃ die, region (32 * w.sector) = .hbm die) ∧ (w.bytes.map Prod.fst).Nodup ∧
       (∀ b, b ∈ w.bytes → b.1 < 32) ∧ s.lineHeld (some s.hart.id) (w.sector / 4) = false) ∧
    two = [txLevel false] ++ txLevel true :: [txLevel false] ∧ (txLevel true).alt = true ∧
    (∀ l, l ∈ [txLevel false] → l.alt = false) ∧ (∀ l, l ∈ plainLevels 1 → l.alt = false) ∧
    wm.hart.hinfo.getLsbD 7 = false := by
  refine ⟨rfl, rfl, rfl, ⟨rfl, rfl, by decide, by decide, rfl⟩, by decide, by decide, fun n h1 h4 => ?_, rfl,
    ⟨by decide, rfl, rfl, rfl, rfl, ?_⟩, rfl, rfl, by simp [txLevel], by simp [txLevel, plainLevels], by decide⟩
  · obtain rfl | rfl | rfl | rfl : n = 1 ∨ n = 2 ∨ n = 3 ∨ n = 4 := by omega
    all_goals exact ⟨rfl, rfl, rfl⟩
  · intro w h
    obtain rfl := List.mem_singleton.mp h
    exact ⟨⟨0, by decide⟩, by decide, by decide, by decide⟩

theorem witness_TransactionAbort : (wtx (plainLevels 2) false).hart.tx = some (txOf (plainLevels 2) false) ∧
    (txOf (plainLevels 2) false).levels.getLast? = some (txLevel false) ∧ wm.hart.tx = none := ⟨rfl, rfl, rfl⟩

/-! A context of a gang, whose core has channel 5 bound by another gang that is placed. -/

def someGang (n : Nat) : Gang :=
  { number := n, launch := 0, index := 0, die := 0, cluster := 0, units := [], banks := [], hctx := 1, harts := [w0.hart.id] }

def wh (bound : Bool) (x14 x15 : Word) : State := { wm with
  hart := { wm.hart with
    x := (wm.hart.x.set 14 x14).set 15 x15
    sbase := 0x100_0000#64
    placed := some { launch := 0, gang := 0, ctx := true, number := 0, stage := 0, vclass := 0, prio := 0, bclass := 0, tiles := 0,
                     groups := [] } }
  cores := wm.cores.map fun c => (c.1, { c.2 with
    channels := if bound then [(5, { entry := 0x200_0000_0000_0000#64, gang := 1, overflow := 0 })] else [] })
  dev := { wm.dev with nextId := 2, gangs := [someGang 0, someGang 1] } }

theorem hsend_reads : (wh true 0x200_0000_0000_4000#64 0x2F_0000#64).readable 0x2000#64 48 0x10_0000_2000
    (wh true 0x200_0000_0000_4000#64 0x2F_0000#64) :=
  ⟨⟨by decide, by decide, by decide, ⟨0, rfl⟩, trivial⟩, rfl⟩

theorem witness_HandlerInstructions :
    let core := wm.hart.id.coreId
    let bind := wh false 0x200_0000_0000_4000#64 0x70_0000#64
    let taken := wh true 0x200_0000_0000_4000#64 0x2F_0000#64
    let ctx := fun (s : State) (r : Reg) => core.hart ((s.hart.rx r).extractLsb' 61 3).toNat
    wm.hart.tx = none ∧ 32 ≤ (wm.hart.rx 10#5).toNat ∧ wm.trapsHere 29 1#64 ∧ (wm.hart.rx 11#5).toNat < 32 ∧
    wm.isContext (ctx wm 14#5) 0 = false ∧ wm.trapsHere 29 2#64 ∧ taken.isContext (ctx taken 14#5) 0 = true ∧
    taken.boundElsewhere core (taken.hart.rx 11#5).toNat 0 = true ∧ taken.trapsHere 29 3#64 ∧
    bind.isContext (ctx bind 14#5) 0 = true ∧ bind.boundElsewhere core (bind.hart.rx 11#5).toNat 0 = false ∧
    (bind.hart.rx 12#5).toNat % 4 ≠ 0 ∧ bind.isContext (ctx bind 12#5) 0 = true ∧ bind.trapsHere 29 4#64 ∧
    (bind.hart.rx 14#5).toNat % 4 = 0 ∧ (bind.hart.rx 14#5).getLsbD 57 = true ∧
    (bind.hart.rx 0#5).toNat % 4 = 0 ∧ (bind.hart.rx 0#5).getLsbD 57 = false ∧ bind.isContext (ctx bind 0#5) 0 = true ∧
    bind.direct ∧ (bind.hart.rx 15#5).extractLsb' 22 42 ≠ 0#42 ∧ bind.trapsHere 29 5#64 ∧
    (0x3000#64 : Word).extractLsb' 22 42 = 0#42 ∧ 47 < ((0x3000#64 : Word).extractLsb' 8 6).toNat ∧
    (taken.hart.rx 15#5).extractLsb' 22 42 = 0#42 ∧ ((taken.hart.rx 15#5).extractLsb' 8 6).toNat ≤ 47 ∧
    ((taken.hart.rx 15#5).extractLsb' 16 6).toNat + 1 = 48 ∧ 128 < (0x2070#64 : Word).toNat % 128 + 48 ∧
    taken.trapsHere 4 0x2070#64 ∧ taken.hart.rx 10#5 = 0x2000#64 ∧ taken.readable 0x2000#64 48 0x10_0000_2000 taken ∧
    bind.hart.vq = [] ∧ bind.hart.mq = [] ∧ bind.hart.slots = [] ∧ (∀ k : Fin 16, bind.hart.st[k].appended = []) ∧
    bind.hart.serving = none ∧ ({ bind.hart with serving := some (5, 63) } : Hart).serving = some (5, 63) := by
  refine ⟨rfl, by decide, ⟨rfl, rfl, by decide, by decide, rfl⟩, by decide, by decide, ⟨rfl, rfl, by decide, by decide, rfl⟩,
    by decide, by decide, ⟨rfl, rfl, by decide, by decide, rfl⟩, by decide, by decide, by decide, by decide,
    ⟨rfl, rfl, by decide, by decide, rfl⟩, by decide, by decide, by decide, by decide, by decide, ⟨rfl, rfl, rfl⟩, by decide,
    ⟨rfl, rfl, by decide, by decide, rfl⟩, by decide, by decide, by decide, by decide, by decide, by decide,
    ⟨rfl, rfl, by decide, by decide, rfl⟩, by decide, hsend_reads, rfl, rfl, rfl, by decide, rfl,
    rfl⟩

/-! A launch of 70 rows and cols columns with a panel, at a band. -/

def panelLaunch (cols band col : Nat) : Launch :=
  { number := 0, packet := List.replicate 26 0#8 ++ [1#8, 0#8] ++ lowBytes 4 70 ++ lowBytes 4 cols ++ List.replicate 4 0#8 ++
      lowBytes 8 0x1234 ++ lowBytes 8 0x5678 ++ List.replicate 72 0#8,
    entries := [], satp := wm.hart.satp, sbase := 0x100_0000#64, trroute := 0#64, slot := some 3, band := band, col := col,
    complete := 0, lost := 0, contained := false }

def wpan (cols band col : Nat) : State := { wg with
  hart := { wg.hart with x := wg.hart.x.set 10 0x300#64 }
  dev := { wg.dev with launches := [panelLaunch cols band col] } }

/-- A work ring in the gang's FIFO bank, two slots of 8 bytes; slot 0 is committed and slot 1 is free. -/
def fifoD : RingDesc := { ringD with ctl := 0x3_0001_0010#64, base := 0#64, notify := 0#64 }

def wown (x12 : Word) (consumer : Bool) (counter : Nat) : State := { wg with
  mem := descAt (ringTableEntry 0 8) fifoD
  clusters := wg.clusters.map fun c => (c.1, { c.2 with owners := [0x4008_0000] })
  hart := { wg.hart with
    x := (wg.hart.x.set 10 (0x140_0000#64 + BitVec.ofNat 64 (8 * counter))).set 12 x12
    slots := [{ handle := 0x100_0000_0000_0008#64, consumer := consumer, counter := counter }] } }

def fifoR : RingRef :=
  { handle := 0x100_0000_0000_0008#64, va := 0x1000_0200#64, pa := 0x1000_0200, cluster := 0,
    gang := some { number := 0, launch := 0, index := 0, die := 0, cluster := 0, units := [(0, 0)], banks := [4], hctx := 0,
                   harts := [wm.hart.id] } }

set_option maxRecDepth 100000 in
set_option exponentiation.threshold 5000 in
theorem fifo_slot1 : ringAtAddr (wown 1#64 false 1).party ((wown 1#64 false 1).hart.rx 10#5) (wown 1#64 false 1) =
    .ok (some (fifoR, fifoD, 1)) (wown 1#64 false 1) := rfl

set_option maxRecDepth 100000 in
set_option exponentiation.threshold 5000 in
theorem fifo_slot0 : ringAtAddr (wown 0#64 true 0).party ((wown 0#64 true 0).hart.rx 10#5) (wown 0#64 true 0) =
    .ok (some (fifoR, fifoD, 0)) (wown 0#64 true 0) := rfl

set_option maxRecDepth 100000 in
set_option exponentiation.threshold 5000 in
theorem fifo_open1 : (wown 1#64 false 1).ringAt fifoR.handle fifoR fifoD :=
  ⟨(by decide +kernel : (wown 1#64 false 1).mem.wf = true), ⟨rfl, rfl, rfl⟩, rfl, open_of rfl, rfl,
   by simp [fifoR]⟩

set_option maxRecDepth 100000 in
set_option exponentiation.threshold 5000 in
theorem fifo_open0 : (wown 0#64 true 0).ringAt fifoR.handle fifoR fifoD :=
  ⟨(by decide +kernel : (wown 0#64 true 0).mem.wf = true), ⟨rfl, rfl, rfl⟩, rfl, open_of rfl, rfl,
   by simp [fifoR]⟩

/-- Another launch's handle; an own panel: each kind, a malformed request, a panel that is exhausted, one with no columns,
and claims in the middle, at the end of a band and at the last row; and a slot to commit and one to release. -/
theorem witness_PanelsAndOwners :
    wg.hart.tx = none ∧ wg.panelOf wg.hart (wg.hart.rx 10#5) = none ∧
    (∀ p, p ∈ [(100, 0, 0), (100, 3, 0), (0, 0, 0), (100, 2, 99)] →
      (wpan p.1 p.2.1 p.2.2).panelOf (wpan p.1 p.2.1 p.2.2).hart ((wpan p.1 p.2.1 p.2.2).hart.rx 10#5) =
        some (panelLaunch p.1 p.2.1 p.2.2)) ∧
    (∀ k, k < 4 → ((BitVec.ofNat 64 (2 ^ 62 * k)).extractLsb' 62 2).toNat = k) ∧
    (0x1_0000#64 : Word).extractLsb' 16 46 ≠ 0#46 ∧ (panelLaunch 100 0 0).rows = 70 ∧ (panelLaunch 100 0 0).cols = 100 ∧
    (panelLaunch 100 3 0).rows ≤ 32 * (panelLaunch 100 3 0).band ∧ (panelLaunch 0 0 0).cols = 0 ∧
    32 * (panelLaunch 100 2 99).band < (panelLaunch 100 2 99).rows ∧ (panelLaunch 100 2 99).col < (panelLaunch 100 2 99).cols ∧
    (let s := wown 1#64 false 1
     let e : SlotEntry := { handle := fifoR.handle, consumer := false, counter := 1 }
     s.direct ∧ ringAtAddr s.party (s.hart.rx 10#5) s = .ok (some (fifoR, fifoD, 1)) s ∧
     (∃ g, fifoR.gang = some g ∧ g.fifoPa (fifoD.base.toNat + 1 % fifoD.n * fifoD.size) = some 0x4008_0008) ∧
     s.ringAt fifoR.handle fifoR fifoD ∧ s.hart.rx 12#5 = 1#64 ∧ e.counter < fifoD.m ∧ e.counter % fifoD.n = 1 ∧
     s.hart.slots.find? (fun x => x.handle == fifoR.handle && x.consumer == (s.hart.rx 12#5 == 0#64) &&
       x.counter % fifoD.n == 1) = some e) ∧
    (let s := wown 0#64 true 0
     let e : SlotEntry := { handle := fifoR.handle, consumer := true, counter := 0 }
     ringAtAddr s.party (s.hart.rx 10#5) s = .ok (some (fifoR, fifoD, 0)) s ∧ s.ringAt fifoR.handle fifoR fifoD ∧
     s.hart.rx 12#5 = 0#64 ∧ e.counter < fifoD.m ∧ e.counter % fifoD.n = 0 ∧
     s.hart.slots.find? (fun x => x.handle == fifoR.handle && x.consumer == (s.hart.rx 12#5 == 0#64) &&
       x.counter % fifoD.n == 0) = some e) := by
  refine ⟨rfl, by decide, by decide, by decide, by decide, by decide, by decide, by decide, by decide, by decide, by decide,
    ⟨⟨rfl, rfl, rfl⟩, fifo_slot1, ⟨_, rfl, by decide⟩, fifo_open1, by decide, by decide, by decide, by decide⟩,
    ⟨fifo_slot0, fifo_open0, by decide, by decide, by decide, by decide⟩⟩

/-! Copies: a queue entry of CPYT x10 at the head of CQ, and a descriptor of 4 bytes from va 0x3000 to va 0x3100. -/

def copyEntry (ready : Bool) : QEntry :=
  { pc := 0x1000#64, instr := .cpyt 10#5, seq := 0, start := none, ready := ready,
    cap := { x1 := 0x2000#64, x2 := 0#64, x3 := 0#64, pal := 0#64, vl := 0, width := 0#2, level := 0#2, vfrm := 0#3,
             vxmask := 0x3C#6 } }

def copyDesc : Nat :=
  1 + 2 ^ 128 * 0x3000 + 2 ^ 192 * 0x3100 + 2 ^ 512 * 4

def wcq (cq : List QEntry) : State :=
  { wm with mem := num 0x10_0000_2000 88 copyDesc, hart := { wm.hart with cq := cq } }

def copyCmd : CopyCmd :=
  { hart := wm.hart.id, entry := copyEntry true, desc := copyDesc, gang := none, satp := wm.hart.satp, sbase := wm.hart.sbase,
    priv := .user, sum := false, mxr := false, slot := none, joined := false, stopped := false, next := 0, flags := 0#6, ended := none,
    host := false }

def wcc : State :=
  let s := wcq [copyEntry true]
  { s with cores := s.cores.map fun c => (c.1, { c.2 with copies := [copyCmd] }) }

theorem witness_CopyCommands :
    wm.hart.vq = [] ∧ wm.hart.mq = [] ∧ wm.hart.faults = [] ∧ wm.hart.tx = none ∧ wm.hart.cq.length < 2 ∧
    2 ≤ (wcq [copyEntry false, copyEntry false]).hart.cq.length ∧
    ((wtx (plainLevels 1) false).hart.tx = some (txOf (plainLevels 1) false) ∧
      (txOf (plainLevels 1) false).levels.getLast? = some (txLevel false)) ∧
    (let s := wcq [copyEntry false]
     let e := copyEntry false
     s.direct ∧ s.hart.cq = [e] ∧ e.ready = false ∧ e.instr = .cpyt 10#5 ∧ s.loadsFrom e.cap.x1 64 0x10_0000_2000 ∧
     e.cap.x1.toNat % 128 = 0 ∧ s.poisoned (0x10_0000_2000 + 64) 24 = false ∧
     s.heldPa .load (e.cap.x1 + 64#64) = some (0x10_0000_2000 + 64) ∧
     s.mem.read 0x10_0000_2000 64 + 2 ^ 512 * s.mem.read (0x10_0000_2000 + 64) 24 = copyDesc) ∧
    cdNdims copyDesc = 1 ∧ cdComp copyDesc = 0 ∧ cdCword copyDesc = 0#64 ∧
    (let s := wcc
     let c := copyCmd
     s.mem.wf = true ∧ ((s.core s.hart.id.coreId).copies.filter fun x => x.hart == s.hart.id) = [c] ∧ c.hart = s.hart.id ∧
     c.entry.instr = .cpyt 10#5 ∧ c.ended = none ∧ c.joined = false ∧ c.stopped = false ∧ c.next = 0 ∧
     s.enginePending s.hart.id = false ∧ copyWellFormed .tensor (s.isRoot c) c.entry c.desc = some (.bytes, 0) ∧
     cdComp c.desc = 0 ∧ cdCword c.desc = 0#64 ∧
     cdDims c.desc = [{ count := 4, zero := 0, ss := 0#64, ds := 0#64 }] ∧
     (cdNotify c.desc).getLsbD 31 = false ∧ (cdCtl c.desc).getLsbD 6 = false ∧
     ∀ j, j < 4 →
       s.heldFor c.party.ctx .load (cdSrc c.desc + BitVec.ofNat 64 j) = some (0x10_0000_3000 + j) ∧ s.served (0x10_0000_3000 + j) ∧
       s.poisoned (0x10_0000_3000 + j) 1 = false ∧
       s.heldFor c.party.ctx .store (cdDst c.desc + BitVec.ofNat 64 j) = some (0x10_0000_3100 + j) ∧
       s.served (0x10_0000_3100 + j) ∧ s.lineHeld none ((0x10_0000_3100 + j) / 128) = false ∧
       ∀ k, k < 4 → 0x10_0000_3100 + k = 0x10_0000_3100 + j → k = j) := by
  refine ⟨rfl, rfl, rfl, rfl, by decide, by decide, ⟨rfl, rfl⟩,
    ⟨⟨rfl, rfl, rfl⟩, rfl, rfl, rfl, loads_of (by decide +kernel), by decide, by decide +kernel, by decide +kernel,
      by decide +kernel⟩,
    by decide +kernel, by decide +kernel, by decide +kernel,
    ⟨by decide +kernel, by decide +kernel, rfl, rfl, rfl, rfl, rfl, rfl, by decide +kernel, by decide +kernel, by decide +kernel,
      by decide +kernel, by decide +kernel, by decide +kernel, by decide +kernel, fun j hj => ?_⟩⟩
  have h : ∀ j : Fin 4, wcc.heldFor copyCmd.party.ctx .load (cdSrc copyCmd.desc + BitVec.ofNat 64 j) = some (0x10_0000_3000 + j.val) ∧
      wcc.poisoned (0x10_0000_3000 + j.val) 1 = false ∧
      wcc.heldFor copyCmd.party.ctx .store (cdDst copyCmd.desc + BitVec.ofNat 64 j) = some (0x10_0000_3100 + j.val) ∧
      wcc.lineHeld none ((0x10_0000_3100 + j.val) / 128) = false := by decide +kernel
  obtain ⟨h1, h2, h3, h4⟩ := h ⟨j, hj⟩
  exact ⟨h1, served_hbm _ (by omega) (by omega), h2, h3, served_hbm _ (by omega) (by omega), h4, fun k _ e => by omega⟩

/-! One step: the instruction add x12, x11, x10 at the pc. -/

def wstep : State := { wm with mem := num 0x10_0000_1000 4 0x00A5_8633 }

theorem witness_StepRunsDecoded :
    wstep.dev.boot = .running ∧ wstep.selected = true ∧ wstep.inbox = [] ∧ wstep.hart.run = .running ∧ wstep.hart.vq = [] ∧
    wstep.hart.mq = [] ∧ wstep.hart.faults = [] ∧ wstep.hart.bindings = [] ∧ wstep.pendingInterrupt = none ∧
    wstep.hart.fetchBuf = [] ∧ wstep.hart.pc.toNat % 4 = 0 ∧ wstep.maps .fetch wstep.hart.pc 4 0x10_0000_1000 wstep ∧
    wstep.poisoned 0x10_0000_1000 4 = false ∧
    decode (lowBytes 4 (wstep.mem.read 0x10_0000_1000 4)) = .ok (.add 12#5 11#5 10#5, 4) ∧
    State.reset.selected = false ∧ Instr.wf (.ageStep wm.hart.id) = true ∧ isReset .warmReset = true ∧
    isReset .tickBoundary = false ∧ inRecovery (.getVersion []) = true ∧ inRecovery .tickBoundary = false ∧
    Instr.wf (.getVersion []) = true ∧
    ({ State.reset.dev with boot := .frozen } : Device).boot = .frozen ∧
    ({ State.reset.dev with boot := .recovery } : Device).boot = .recovery :=
  ⟨rfl, rfl, rfl, rfl, rfl, rfl, rfl, rfl, by decide, rfl, by decide, ⟨by decide, by decide, by decide, ⟨0, rfl⟩, trivial⟩,
   by decide +kernel, rfl, rfl, rfl, rfl, rfl, rfl, rfl, rfl, rfl, rfl⟩

theorem witness_StepKeepsTheInvariant : State.reset.Inv ∧
    step { State.reset with dev := { State.reset.dev with boot := .frozen } } =
      .next { State.reset with dev := { State.reset.dev with boot := .frozen } } := ⟨rfl, rfl⟩

theorem witness_ResetsPowerAndDebug :
    wm.Inv ∧ (wm.hartAt wm.hart.id).run = .running ∧
    (({ wm with hart := { wm.hart with run := .halted } } : State).hartAt wm.hart.id).run = .halted := ⟨rfl, rfl, rfl⟩

/-! The host and a peer: MSI-X vector 5, masked or not, and requests to device 9 that wait. -/

def someRequest (id : Nat) (write : Bool) : RemoteRequest :=
  { id := id, hart := some wm.hart.id, engine := none, write := write, amo := false, pa := 2 ^ 55 + 9 * 2 ^ 44, size := 4, data := none, poison := false,
    dropped := false }

def whost (masked : Bool) : State := { wm with dev := { wm.dev with
  msix := [{ vector := 5, addr := 0#64, data := 0#32, masked := masked, pending := masked }]
  requests := [someRequest 1 true, someRequest 2 false] } }

theorem witness_HostAndPeers :
    (∀ m, (whost m).Inv ∧ (whost m).linesFree ∧
      (whost m).dev.msix.find? (fun x => x.vector == 5) =
        some { vector := 5, addr := 0#64, data := 0#32, masked := m, pending := m }) ∧
    0x3FFF_FFF8 + 8 ≤ Config.bar2Gib * 2 ^ 30 ∧ (wm.dev.bar2ctl.extractLsb' 30 10).toNat = 0 ∧
    ¬0x100_0000_0001 ≤ Config.bar2Gib * 2 ^ 30 ∧ (253 : Nat) < 254 ∧
    (∃ die, region 0xCF_FFFF_FFF8 = .hbm die) ∧ wg.apertureOpen 0 0 = true ∧ region 0x4000_0000 = .aperture 0 0 ∧
    0xCF_FFFF_FFF8 % 8 = 0 ∧ wm.poisoned 0xCF_FFFF_FFF8 8 = false ∧ region 0xD0_0000_0000 = .none ∧
    someRequest 1 true ∈ (whost false).dev.requests ∧ someRequest 2 false ∈ (whost false).dev.requests ∧
    [1#8, 2#8, 3#8, 4#8].length = (someRequest 2 false).size ∧ (someRequest 1 true).isTo 9 = true := by
  have hb : 1 ≤ Config.bar2Gib := Nat.one_le_two_pow
  have ht : Config.bar2Gib ≤ 2 ^ 10 := Nat.pow_le_pow_right (by decide) (by have := Config.bar2Log.isLt; omega)
  refine ⟨fun m => ⟨rfl, free_of rfl, rfl⟩, by omega, by decide, by omega, by decide, ⟨3, by decide⟩, by decide, by decide, by decide,
    by decide, by decide, by simp [whost], by simp [whost], by decide, by decide⟩

/-! Shootdowns: one of cluster 0 that waits for a core, for a cluster's TLB, or for nobody. -/

def sdOf (silent : List Nat) : Broadcast :=
  { va := 0x2000#64, ctl := 0#64, cword := some 0x10_0000_4000, silent := silent, order := 1 }

def wsd (silent : List Nat) : State := { wm with
  clusters := [({ die := 0, cluster := 0 }, { Cluster.reset with sd := {
    va := 0x2000#64, ctl := 0#64, cword := 0x10_0000_4000#64, issued := some (sdOf silent) } })] }

theorem witness_Shootdowns :
    let c : ClusterId := { die := 0, cluster := 0 }
    let go := fun r => BitVec.ofNat 64 (1 + 2 ^ 20 * r)
    wm.Inv ∧ c.die < 4 ∧ c.cluster < 48 ∧ (0x30_0000#64 : Word).getLsbD 0 = false ∧
    (wm.cluster c).sd.issued = none ∧ wm.dev.hsd.issued = none ∧ ((wsd [0]).cluster c).sd.issued.isSome = true ∧
    (∀ r : Nat, r < 4 → ((go r).extractLsb' 20 2).toNat = r ∧ (go r).getLsbD 0 = true) ∧
    (∀ l, (wsd l).Inv ∧ ((wsd l).shootdown 0).issued = some (sdOf l) ∧ (wsd l).broadcasts = [sdOf l] ∧ (wsd l).linesFree) ∧
    (0 ∈ (sdOf [0]).silent ∧ (wsd [0]).unperformed (partyCore 0) = false ∧
      ∀ h, h ∈ (wsd [0]).coreHarts (partyCore 0) → h.hasAppended = false ∧ h.trains = [] ∧ h.hostDirty = false) ∧
    (1536 ∈ (sdOf [1536]).silent ∧ 1727 ∈ (sdOf [1727]).silent) ∧
    (sdOf []).cword = some 0x10_0000_4000 ∧ (∃ die, region 0x10_0000_4000 = .hbm die) ∧ 0x10_0000_4000 % 8 = 0 ∧
    (∀ j, j ∈ [1528, 1535, 1727] → 1528 ≤ if j < 1536 then j else 8 * (j - 1536)) := by
  refine ⟨rfl, by decide, by decide, by decide, rfl, rfl, rfl, by decide, fun l => ⟨rfl, rfl, rfl, free_of rfl⟩,
    ⟨by decide, by decide, by decide⟩, by decide, rfl, ⟨0, by decide⟩, by decide, by decide⟩

/-! The expansion table: grp 7, op 63 is experimental; grp 0, op 0 is not. -/

def wdx (sel : Word) (table : List DxEntry) : State := { wm with
  clusters := [({ die := 0, cluster := 0 }, { Cluster.reset with dxsel := sel, dxtable := table })] }

/-- An entry for that combination, whose stream is a number, and a hart with instructions in CQ. -/
def wdef (stream : Nat) (cq : List QEntry) : State := { wcq cq with
  clusters := (wdx 0#64 [{ grp := 7#3, op := 63#6, word := BitVec.ofNat 64 (2 ^ 63 + 2 ^ 61 * stream + 1) }]).clusters }

theorem witness_TrustAndExpansion :
    let c : ClusterId := { die := 0, cluster := 0 }
    let k := (wdx 0x1FF#64 []).cluster c
    let i : Instr := .experimentalInstruction 7#3 63#6 (vw 0#5 0#5 0#5 0#5)
    let entry := fun (s : State) => (s.cluster s.hart.id.clusterId).expansion 7#3 63#6
    experimental (k.dxsel.extractLsb' 6 3) (k.dxsel.extractLsb' 0 6) = true ∧
    experimental (((wdx 0#64 []).cluster c).dxsel.extractLsb' 6 3) (((wdx 0#64 []).cluster c).dxsel.extractLsb' 0 6) = false ∧
    (entry (wdx 0#64 [])).getLsbD 63 = false ∧
    (wdx 0#64 []).trapsHere 2 (BitVec.ofNat 64 (bytesToNat (encode i))) ∧
    (∀ n : Nat, n < 4 → (entry (wdef n [])).getLsbD 63 = true ∧ ((entry (wdef n [])).extractLsb' 61 2).toNat = n) ∧
    (∀ l, (wdef 2 l).hart.vq = [] ∧ (wdef 2 l).hart.mq = [] ∧ (wdef 2 l).hart.faults = [] ∧ (wdef 2 l).hart.cq = l) ∧
    wm.dev.log.length < 64 := by
  refine ⟨by decide, by decide, by decide, ⟨rfl, rfl, by decide, by decide, rfl⟩, by decide, fun _ => ⟨rfl, rfl, rfl, rfl⟩, by decide⟩

/-! A hart as the Lantern of its cluster selects it, parked or running. -/

def wpark (idx : Word) (run : RunState) (cause : Word) : State := { wm with
  hart := { wm.hart with
    run := run, scause := cause,
    placed := some { launch := 4, gang := 0, ctx := false, number := 0, stage := 0, vclass := 0, prio := 0, bclass := 0, tiles := 0,
                     groups := [] } }
  clusters := [({ die := 0, cluster := 0 }, { Cluster.reset with pcidx := idx })] }

theorem witness_ParkedHarts :
    let c : ClusterId := { die := 0, cluster := 0 }
    let id := fun (s : State) => s.selectedHart c
    (wpark 0#64 .running 8#64).hartAt (id (wpark 0#64 .running 8#64)) = (wpark 0#64 .running 8#64).hart ∧
    (wpark 0#64 .running 8#64).hart.run ≠ .parked ∧ (wpark 0#64 .running 8#64).hart.tx = none ∧
    ((wpark 0#64 .running 8#64).core (id (wpark 0#64 .running 8#64)).coreId).copies = [] ∧
    (∀ n, n ∈ [0x1F, 0x20, 0x21, 0xE000] → ((wpark (BitVec.ofNat 64 n) .parked 8#64).cluster c).pcidx.toNat = n) ∧
    (let s := wpark 0x1F#64 .parked 8#64
     (s.hartAt (id s)).run = .parked ∧ (s.hartAt (id s)).frame = none ∧ (s.hartAt (id s)).scause.getLsbD 63 = false ∧
     (s.hartAt (id s)).scause ≠ 48#64 ∧ (s.hartAt (id s)).placed = s.hart.placed ∧ s.hart.placed.isSome = true) := by
  refine ⟨rfl, by decide, rfl, rfl, by decide, ⟨rfl, rfl, by decide, by decide, rfl, rfl⟩⟩

/-! Banks of a cluster whose mode word is 0x255: bank 0 belongs to a scratch unit, bank 6 to nobody. -/

theorem witness_ClusterRegisters :
    let c : ClusterId := { die := 0, cluster := 0 }
    wg.Inv ∧ budgetOf 0x207#64 = none ∧ budgetOf 0x203#64 = some (2, 0, 3) ∧ budgetOf 0x017#64 = some (0, 1, 7) ∧
    wm.findHart wm.hart.id = some wm.hart ∧
    fieldOf (wg.cluster c).bankmode 0 2 ≠ 0 ∧ wg.refusal c 0 0 = some 1 ∧
    fieldOf (wg.cluster c).bankmode 14 2 ≠ 1 ∧ wg.refusal c 7 1 = none ∧
    fieldOf (wg.cluster c).bankmode 62 2 ≠ 3 ∧ wg.refusal c 31 3 = some 2 ∧
    natAligned (256 : Nat) 8 = true ∧ natAligned 4095 1 = true := by
  refine ⟨rfl, by decide, by decide, by decide, rfl, by decide, by decide, by decide, by decide, by decide, by decide, by decide, by decide⟩

/-! Events of harts: an interrupt that is pending, a sleep with a mark and a deadline, a doomed transaction. -/

def wint : State := { wm with hart := { wm.hart with sie := 2#64, ssip := true } }

def wsleep : State := { wm with hart := { wm.hart with
  run := .sleeping, marks := [{ line := 0x2000_0040, va := 0x2000#64, page := none }], deadline := some 100,
  sleepTarget := some { target := 0x5000#64, rd := 6#5, ordered := true } } }

/-- Context 0 of a core with an arrival of channel 5, beside thread 1 of the same gang; arrivals fill its area where full is
set. -/
def warr (run : RunState) (arrivals : List (Nat × ArrivalSlot)) : State :=
  let s := wh true 0#64 0#64
  { s with
    hart := { s.hart with run := run }
    others := [{ w0.hart with
      id := { s.hart.id with hart := 1 }
      placed := some { launch := 0, gang := 1, ctx := false, number := 0, stage := 0, vclass := 0, prio := 0, bclass := 0,
                       tiles := 0, groups := [] } }]
    cores := s.cores.map fun c => (c.1, { c.2 with arrivals := arrivals })
    dev := { s.dev with gangs := [{ someGang 0 with banks := [4], harts := [s.hart.id, { s.hart.id with hart := 1 }] }, someGang 1] } }

def arr (slot : Nat) : Nat × ArrivalSlot :=
  (0, { slot := slot, chan := 5, kind := 0, source := none, len := 8, running := false })

/-- A copy of 8 bytes for channel c. -/
def hsend (c : Nat) : Arrival := { chan := c, kind := 0, source := none, len := 8, record := [1#8, 2#8] }

def chan5 : Channel := { entry := 0x200_0000_0000_0000#64, gang := 1, overflow := 0 }

/-- A channel with no record and three that were turned away. -/
def woverflow : State :=
  let s := warr .dormant []
  { s with cores := s.cores.map fun c => (c.1, { c.2 with channels := [(5, { chan5 with overflow := 3 })] }) }

theorem witness_HartEvents :
    let core := wm.hart.id.coreId
    wm.hart.run = .running ∧ ({ wm.hart with run := .paused } : Hart).run = .paused ∧
    wint.hart.faults = [] ∧ wint.hart.frame = none ∧ wint.hart.tx = none ∧ wint.pendingInterrupt = some 1 ∧
    wsleep.hart.run = .sleeping ∧ (∃ m, m ∈ wsleep.hart.marks ∧ m.line = 0x2000_0040) ∧ (wsleep.core core).wakes = [] ∧
    wsleep.hart.deadline = some 100 ∧ wsleep.hart.sleepTarget = some { target := 0x5000#64, rd := 6#5, ordered := true } ∧ wsleep.hart.tx = none ∧
    (wtx (plainLevels 2) true).hart.tx = some (txOf (plainLevels 2) true) ∧ (txOf (plainLevels 2) true).doomed = true ∧
    (txOf (plainLevels 2) true).levels.getLast? = some (txLevel false) ∧
    ((warr .dormant []).core core).channel (hsend 6).chan = none ∧
    (let s := warr .dormant [arr 0]
     let h := s.hartAt (core.hart 0)
     s.Inv ∧ (s.core core).channel (hsend 5).chan = some chan5 ∧ (chan5.entry.extractLsb' 61 3).toNat = 0 ∧
     (∃ p g, h.placed = some p ∧ s.gang p.gang = some g ∧ s.preempted g = false ∧
       arrivalPa g p.number 1 = some (0x4008_0000 + 0x2_0000 - 4096 + 64)) ∧
     (hsend 5).kind = 0 ∧ (hsend 5).record.length ≤ 64 ∧ (s.core core).freeSlot 0 = some 1 ∧
     s.linesFree ∧ h.run = .dormant ∧ (s.core core).nextChannel 0 = some 5 ∧ (s.core core).unserved 5 = [arr 0] ∧ (arr 0).2.kind ≠ 2) ∧
    ((woverflow.hartAt (core.hart 0)).run = .dormant ∧ (woverflow.core core).nextChannel 0 = some 5 ∧
      (woverflow.core core).channel 5 = some { chan5 with overflow := 3 } ∧ (woverflow.core core).unserved 5 = []) ∧
    ((warr .running ((List.range 64).map arr)).core core).freeSlot 0 = none ∧
    (let s : State := { wm with
       hart := { wm.hart with run := .parked }
       clusters := [({ die := 0, cluster := 0 }, { Cluster.reset with wakeup := [(wm.hart.id, 0x2000_0040)] })] }
     (s.hartAt s.hart.id).run = .parked ∧ (s.hartAt s.hart.id).frame = none ∧
     ∃ line, (s.hart.id, line) ∈ (s.cluster s.hart.id.clusterId).wakeup) := by
  refine ⟨rfl, rfl, rfl, rfl, rfl, by decide, rfl, ⟨_, List.mem_singleton.mpr rfl, rfl⟩, rfl, rfl, rfl, rfl, rfl, rfl, rfl, by decide,
    ⟨rfl, by decide, by decide, ⟨_, _, rfl, rfl, by decide, by decide⟩, rfl, by decide, by decide, free_of rfl, rfl, by decide, by decide,
      by decide⟩, ⟨rfl, by decide, by decide, by decide⟩,
    by decide, ⟨rfl, rfl, ⟨_, List.mem_singleton.mpr rfl⟩⟩⟩

/-! Launches: a share that waits for one thread, a packet that is malformed, and a completion record. -/

def oneThread : Launch :=
  { panelLaunch 0 0 0 with
    packet := List.replicate 8 0#8 ++ [1#8, 0#8] ++ List.replicate 118 0#8, slot := some 0 }

def wplace (harts : List Hart) : State := { wm with
  hart := { wm.hart with run := .idle, placed := none }
  others := harts
  diesSt := [(0, { Die.reset with normal := [{ launch := 0, gangs := 0, left := 1, pass := 0, high := false }], maskNorm := 1 })]
  dev := { wm.dev with launches := [oneThread], dies := 1#4, nextId := 1 } }

/-- A launch ring with one committed packet, all zeros, and an empty one; a done ring of 32-byte slots with room, and
without. -/
def launchD : RingDesc := { ringD with ctl := 0x7_0001_0003#64 , notify := 0#64 }
def emptyLaunchD : RingDesc := { launchD with acq := 1, head := 1 }
def doneD : RingDesc := { ringD with ctl := 0x5_0001_0000#64, notify := 0#64 }
def fullDoneD : RingDesc := { doneD with tail := 2, resv := 2 }

def someSpace : AddressSpace := { asid := 0, satp := 0x9000_0000_0100_0000#64, sbase := 0x4000_0000#64, trroute := none }

/-- A root table at 0x10_0000_0000 whose first entry maps the first 512 GiB to the second 512 GiB of physical addresses, all
permissions and bits set. -/
def rootPte : Nat := 0x80_0000_0000 / 4096 * 1024 + 0xDF

/-- How a unit translates there. -/
def unitCtx : TransCtx :=
  { satp := 0x9000_0000_0100_0000#64, sbase := 0x4000_0000#64, gang := none, priv := .user, sum := false, mxr := false, core := none,
    cluster := none, die := 0, slice := 0, self := none }

/-- The TLB-like entry that the walk finds. -/
def rootEntry : TlbEntry :=
  { asid := 0, glob := false, va := 0, bits := 39, pa := 0x80_0000_0000, read := true, write := true, exec := true, user := true,
    dirty := true, skew := 0, dup := false, slice := 0 }

theorem walk_step {m : Memory} (h : m.read 0x10_0000_0000 8 = rootPte) {va : Word} (hv : fieldOf va 39 9 = 0)
    (hz : va.toNat / 2 ^ 39 = 0) :
    walkFrom m 0 va 3 0x10_0000_0000 = .leaf rootEntry 0x10_0000_0000 (wordOf rootPte) := by
  have e : walkStep m 0 va 3 0x10_0000_0000 = .leaf rootEntry 0x10_0000_0000 (wordOf rootPte) := by
    unfold walkStep leafEntry
    have hn : BitVec.getLsbD (wordOf rootPte) 63 = false := by decide
    simp only [hv, h, hn, Bool.false_eq_true, if_false, Nat.reduceMul, Nat.reduceAdd, hz]
    decide
  simp only [walkFrom, e]

/-- An address outside the window that the root table's first entry maps. -/
abbrev rooted (va : Word) : Prop := fieldOf va 39 9 = 0 ∧ va.toNat / 2 ^ 39 = 0 ∧ canonical 4 va = true ∧ unitCtx.windowOff va = none

theorem walks {s : State} {m : Memory} (h : m.read 0x10_0000_0000 8 = rootPte) {va : Word} {a : Access}
    (hv : rooted va) (hx : a = .load ∨ a = .store) :
    translate { s with mem := m } unitCtx va a =
      .ok ({ pa := 0x80_0000_0000 + va.toNat % 2 ^ 39, skew := 0 }, { s with mem := m }) := by
  have hl : satpLevels unitCtx.satp = some 4 := by decide
  have hr : fieldOf unitCtx.satp 0 44 * 4096 = 0x10_0000_0000 := by decide
  have ha : fieldOf unitCtx.satp 44 16 = 0 := by decide
  have hq : permits unitCtx a true true true true false = true := by obtain rfl | rfl := hx <;> decide
  have hp : (wordOf rootPte ||| accessBits a) = wordOf rootPte := by obtain rfl | rfl := hx <;> decide
  have hw := walk_step h hv.1 hv.2.1
  have ht : ({ s with mem := m } : State).tlb unitCtx = [] := rfl
  have hf : (rootEntry.target unitCtx.die va) = 0x80_0000_0000 + va.toNat % 2 ^ 39 := rfl
  have hi : ∀ e, ({ s with mem := m } : State).idleNote (.fill none none e 0x10_0000_0000 (accessBits a) none) = true := fun e => by
    simp [State.idleNote, h, hp]
  unfold Machine.translate walk State.noteTlb
  simp only [hv.2.2.2, hl, hv.2.2.1, ht, List.find?_nil, ha, hr, hw, if_true]
  simp only [rootEntry] at *
  simp only [hq, if_true, hf]
  simp only [unitCtx, hi, if_true]

def doneRec : DoneRecord := { tag := 7#64, asid := 0, ring := 0x2040#64, bytes := List.replicate 32 1#8, line := 0 }

def wlaunch (d : RingDesc) : State := { wm with
  mem := num 0x10_0000_0000 8 rootPte ++ descAt 0x80_0000_2040 d
  diesSt := [(0, { Die.reset with rings := [{ ring := 0, handle := 0x3000_0000_0000_2040#64, asid := 0 }], done := [doneRec] })]
  dev := { wm.dev with spaces := [someSpace] } }

def unitParty : Party := { ctx := unitCtx, self := none, plain := true }

def launchRef : RingRef := { handle := 0x3000_0000_0000_2040#64, va := 0x2040#64, pa := 0x80_0000_2040, cluster := 0, gang := none }

set_option maxRecDepth 100000 in
set_option exponentiation.threshold 5000 in
theorem launch_opens : openRing unitParty 0x3000_0000_0000_2040#64 (wlaunch launchD) =
    .ok (launchRef, launchD) (wlaunch launchD) := rfl

set_option maxRecDepth 100000 in
set_option exponentiation.threshold 5000 in
theorem launch_empty : openRing unitParty 0x3000_0000_0000_2040#64 (wlaunch emptyLaunchD) =
    .ok (launchRef, emptyLaunchD) (wlaunch emptyLaunchD) := rfl

/-- Everything that LAUNCH_RING_SERVICE does with a packet of zeros succeeds. -/
def serviceRuns (s : State) : Bool :=
  match saveRing unitParty launchRef launchD launchD.acquire.2 s with
  | .ok () s1 =>
    match loadBytes unitParty (slotAddr unitParty.ctx launchD launchD.acquire.1.counter) 128 s1 with
    | .ok b s2 =>
      match takePacket 0 b s2 with
      | .ok () s3 =>
        match ringBytes unitParty launchRef s3 with
        | .ok x s4 =>
          match releaseSlot unitParty launchRef (RingDesc.ofNat x) launchD.acquire.1.counter s4 with
          | .ok () _ => b == List.replicate 128 0#8
          | _ => false
        | _ => false
      | _ => false
    | _ => false
  | _ => false

theorem service_of {s : State} (h : serviceRuns s = true) :
    ∃ s1 s2 s3 s4 s5 x, saveRing unitParty launchRef launchD launchD.acquire.2 s = .ok () s1 ∧
      loadBytes unitParty (slotAddr unitParty.ctx launchD launchD.acquire.1.counter) 128 s1 = .ok (List.replicate 128 0#8) s2 ∧
      takePacket 0 (List.replicate 128 0#8) s2 = .ok () s3 ∧ ringBytes unitParty launchRef s3 = .ok x s4 ∧
      releaseSlot unitParty launchRef (RingDesc.ofNat x) launchD.acquire.1.counter s4 = .ok () s5 := by
  unfold serviceRuns at h
  repeat' split at h
  all_goals first | exact absurd h (by decide) | skip
  obtain rfl := beq_iff_eq.mp h
  exact ⟨_, _, _, _, _, _, ‹_›, ‹_›, ‹_›, ‹_›, ‹_›⟩

theorem ends_ok {α : Type} {m : M α} {s : State} (p : α → Bool)
    (h : (match m s with | .ok a _ => p a | .error _ _ => false) = true) : ∃ a t, m s = .ok a t ∧ p a = true := by
  split at h
  · next a t e => exact ⟨a, t, e, h⟩
  · exact absurd h (by decide)

theorem done_written : ∃ u, writeDone 0 doneRec (wlaunch doneD) = .ok .written u := by
  obtain ⟨a, t, e, h⟩ := ends_ok (m := writeDone 0 doneRec) (s := wlaunch doneD) (fun x => x == .written) (by decide +kernel)
  obtain rfl := beq_iff_eq.mp h
  exact ⟨t, e⟩

theorem done_full : ∃ u, writeDone 0 doneRec (wlaunch fullDoneD) = .ok (.full (0x80_0000_2040 / 128)) u := by
  obtain ⟨a, t, e, h⟩ := ends_ok (m := writeDone 0 doneRec) (s := wlaunch fullDoneD)
    (fun x => x == .full (0x80_0000_2040 / 128)) (by decide +kernel)
  obtain rfl := beq_iff_eq.mp h
  exact ⟨t, e⟩

/-- A packet that is malformed with a done ring of its own, the head of a queue that fits one thread, a packet of zeros on a
launch ring, an empty launch ring, a gang that is done, and a record whose ring has a slot and one whose ring has none. -/
theorem witness_LaunchesAndPlacement :
    (wm.die 0).queue = [] ∧
    (let s := wplace []
     (s.die 0).queue = [{ launch := 0, gangs := 0, left := 1, pass := 0, high := false }] ∧ s.launch 0 = some oneThread ∧
     oneThread.slot.isSome = true ∧ oneThread.corez = false ∧
     (fitFirst oneThread (((s.die 0).clusters false).map fun k => s.view { die := 0, cluster := k })).isSome = true) ∧
    (let s := wlaunch launchD
     let b := List.replicate 128 0#8
     s.dev.spaces.find? (fun x => x.asid == bytesToNat ((b.drop 24).take 2)) = some someSpace ∧
     s.spaceParty (bytesToNat ((b.drop 24).take 2)) 0 = some unitParty ∧ packetOk s.dev.dies b = false ∧
     (s.die 0).rings.find? (fun r => r.ring == 0) = some { ring := 0, handle := 0x3000_0000_0000_2040#64, asid := 0 } ∧
     (s.die 0).done.length < 64 ∧ openRing unitParty 0x3000_0000_0000_2040#64 s = .ok (launchRef, launchD) s ∧
     launchD.kind = 3 ∧ launchD.acquire.1.st = 0 ∧
     ∃ s1 s2 s3 s4 s5 x, saveRing unitParty launchRef launchD launchD.acquire.2 s = .ok () s1 ∧
       loadBytes unitParty (slotAddr unitParty.ctx launchD launchD.acquire.1.counter) 128 s1 = .ok b s2 ∧
       takePacket 0 b s2 = .ok () s3 ∧ ringBytes unitParty launchRef s3 = .ok x s4 ∧
       releaseSlot unitParty launchRef (RingDesc.ofNat x) launchD.acquire.1.counter s4 = .ok () s5) ∧
    (let s := wlaunch emptyLaunchD
     openRing unitParty 0x3000_0000_0000_2040#64 s = .ok (launchRef, emptyLaunchD) s ∧ emptyLaunchD.acquire.1.st ≠ 0) ∧
    (let g := someGang 0
     let s := { wh false 0#64 0#64 with hart := { (wh false 0#64 0#64).hart with run := .dormant } }
     s.gang g.number = some g ∧ s.gangDone g = true ∧ (∀ c, (s.core c).copies = []) ∧
     s.cores.map Prod.fst = (s.cores.map Prod.fst).eraseDups) ∧
    (∃ u, writeDone 0 doneRec (wlaunch doneD) = .ok .written u) ∧
    (∃ line u, writeDone 0 doneRec (wlaunch fullDoneD) = .ok (.full line) u) ∧ ((wlaunch doneD).die 0).done = [doneRec] := by
  refine ⟨rfl, ⟨rfl, rfl, rfl, rfl, by decide +kernel⟩,
    ⟨rfl, rfl, by decide +kernel, rfl, by decide, launch_opens, by decide, by decide, service_of (by decide +kernel)⟩,
    ⟨launch_empty, by decide⟩, ⟨rfl, by decide, fun c => ?_, by decide⟩, done_written, ?_, rfl⟩
  · simp only [State.core, wh, wm, w0, List.map, assocGet]
    split <;> rfl
  · obtain ⟨u, h⟩ := done_full
    exact ⟨_, u, h⟩

/-! Streams at work: an instruction of VQ at the pc, a load stream that can load ahead, a store stream with one element
appended, and an MMAC whose first operand ring is empty. -/

def wqueue : State := { wm with mem := num 0x10_0000_1000 8 0x0000_0000_0041_01BF }

def wahead : State := { wm with hart := { wm.hart with
  st := wm.hart.st.set 15 { desc := some streamDesc, pos := [0], ahead := [], appended := [], ready := [] } } }

def someElem : AppendedElem := { va := 0x207F#64, pa := some 0x10_0000_207F, size := 1, data := 0x1FF, half := none }

def wappended : State := { wm with hart := { wm.hart with
  st := wm.hart.st.set 15 { desc := none, pos := [], ahead := [], ready := [], appended := [someElem] } } }

def mmacW : WWord := { vw 9#5 12#5 11#5 5#5 with aux9 := 3#9 }

def mmacEntry : QEntry :=
  { pc := 0x1000#64, instr := .mmac mmacW, seq := 0, start := none, ready := true,
    cap := { x1 := 0x0100_0000_0000_0008#64, x2 := 0x0100_0000_0000_0009#64, x3 := 0#64,
             pal := BitVec.ofNat 64 (0xB + 32 * 9 + 1024 * 9 + 32768 * 0xB), vl := 1, width := 3#2, level := 0#2, vfrm := 0#3,
             vxmask := 0x3C#6 } }

def operandD : RingDesc := { fifoD with ctl := 0x9_000F_0010#64, tail := 0, resv := 0 }

def wmmac : State :=
  let s := wt 3 (0xB + 32 * 9 + 1024 * 9 + 32768 * 0xB) .f32p
  { s with
    mem := descAt (ringTableEntry 0 8) operandD
    hart := { s.hart with mq := [mmacEntry] } }

theorem witness_StreamEvents :
    let h := wm.hart.id
    (let k := wqueue.hartAt h
     k.run = .running ∧
     (match fetchParcels (wqueue.focus h) with
       | .ok x u => match queuedOf x.1 x.2 with
         | some i => (captureOf u.hart i).isSome && u.enqueueStream i == some 1 && u.hart.room 1
         | none => false
       | .error _ _ => false) = true) ∧
    (let k := wahead.hartAt h
     k.st[(15#4).toNat].desc = some streamDesc ∧ streamDesc.store = false ∧ streamDesc.fields = 1 ∧ k.st[(15#4).toNat].pos = [0] ∧
     k.st[(15#4).toNat].ahead = [] ∧ 0 < streamDesc.count0 * streamDesc.count1 * streamDesc.count2 ∧
     ∃ raw u, streamRaw 15 { (wahead.focus h).party with plain := true } streamDesc 0 0 (wahead.focus h) = .ok (raw, 0#6) u ∧
       ∀ n, n = 0x1000#64 ∨ n = 0x2000#64 → (u.heldPa .load (streamDesc.addr 0 0 + n)).isSome = true) ∧
    (let k := wappended.hartAt h
     k.st[(15#4).toNat].appended = [someElem] ∧ someElem.pa = some 0x10_0000_207F ∧ wappended.served 0x10_0000_207F ∧
     0x10_0000_207F % 128 + someElem.size ≤ 128 ∧ 0 < someElem.size ∧ ∀ l, wappended.lineHeld (some h) l = false) ∧
    (wmmac.cluster h.clusterId).mtimeout.extractLsb' 0 32 ≠ 0#32 ∧ (wmmac.hartAt h).mq = [mmacEntry] ∧
    mmacEntry.instr = .mmac mmacW ∧ (wmmac.hartAt h).faults = [] ∧ wmmac.mem.wf = true ∧
    ∃ va, timedOut mmacEntry mmacW (wmmac.focus h) = some va := by
  refine ⟨⟨rfl, by decide +kernel⟩, ⟨rfl, rfl, rfl, rfl, rfl, by decide, ?_⟩,
    ⟨rfl, rfl, served_hbm _ (by decide) (by decide), by decide, by decide, no_line rfl⟩, by decide, rfl, rfl, rfl, by decide +kernel, ?_⟩
  · have h : (match streamRaw 15 { (wahead.focus wm.hart.id).party with plain := true } streamDesc 0 0 (wahead.focus wm.hart.id) with
      | .ok a u => a.2 == 0#6 && (u.heldPa .load (streamDesc.addr 0 0 + 0x1000#64)).isSome &&
        (u.heldPa .load (streamDesc.addr 0 0 + 0x2000#64)).isSome
      | .error _ _ => false) = true := by decide +kernel
    split at h
    · next a u e =>
      simp only [Bool.and_eq_true, beq_iff_eq] at h
      refine ⟨a.1, u, by rw [e, ← h.1.1], ?_⟩
      rintro n (rfl | rfl)
      · exact h.1.2
      · exact h.2
    · exact absurd h (by decide)
  · exact Option.isSome_iff_exists.mp (by decide +kernel)

/-- A unit's access is mapped as the root table says, whatever bytes elsewhere hold. -/
theorem unit_maps {s : State} {q : Nat → Prop} {va : Word} {a : Access} (hs : s.mem.read 0x10_0000_0000 8 = rootPte)
    (hq : ∀ b, q b → 0x80_0000_0000 ≤ b) (hv : rooted va)
    (ha : a = .load ∨ a = .store) : s.mapsFor unitCtx a va (0x80_0000_0000 + va.toNat % 2 ^ 39) q :=
  ⟨0, fun _ hm => walks ((Memory.read_congr fun c _ hc => hm c fun hb => by have := hq c hb; omega).trans hs) hv ha⟩

/-! A group's use that drains, that waits for its members, and an idle group; a graph that is cleared and empty; and a delta
ring with a pending batch of two records, with room and without. -/

def drainD (free : Bool) : RingDesc :=
  { deltaD with tail := if free then 1 else 4, resv := if free then 1 else 4 }

def drainRing : DeltaRing :=
  { pa := 0x80_0000_2040, unit := 1, open_ := [], pending := some [rec5, rec9], sealNext := false, handle := deltaH,
    satp := unitCtx.satp, sbase := unitCtx.sbase, gang := none, priv := .user, sum := false, die := 0 }

def drainRef : RingRef := { handle := deltaH, va := 0x2040#64, pa := 0x80_0000_2040, cluster := 0, gang := none }

def wunit (free : Bool) : State := { wm with
  mem := num (groupEntry 0 3 + 16) 8 0x10_0000_6000 ++ num 0x10_0000_0000 8 rootPte ++ descAt 0x80_0000_2040 (drainD free)
  dev := { wm.dev with
    uses := [{ die := 0, group := 3, uses := 4, busy := true, count := 1, joined := [], moved := true, done_ := 0 },
             { die := 0, group := 4, uses := 0, busy := true, count := 2, joined := [(0, wm.hart.id, 0)], moved := false, done_ := 0 }]
    graphs := [{ pa := 0x10_0000_3000, va := 0x3000#64, asid := 0, quiet := 0#64, cleared := true, zero := true }]
    rings := [drainRing] } }

set_option maxRecDepth 100000 in
set_option exponentiation.threshold 5000 in
theorem drain_place (b : Bool) : deltaPlace drainRing.party drainRing.handle (wunit b) = .ok (drainRef, 0) (wunit b) := by
  cases b <;> rfl

theorem witness_UnitEvents :
    let s := wunit true
    s.mem.wf = true ∧ (wunit false).mem.wf = true ∧ (s.groupUse 0 3).busy = true ∧ (s.groupUse 0 3).moved = true ∧
    (s.groupUse 0 3).joined.length ≤ (s.groupUse 0 3).done_ ∧ (∃ d, region (s.mem.read (groupEntry 0 3 + 16) 8) = .hbm d) ∧
    (s.groupUse 0 5).busy = false ∧ 24 + [1#8, 2#8, 3#8, 4#8, 5#8, 6#8, 7#8, 8#8].length ≤ 32 ∧
    (s.groupUse 0 4).busy = true ∧ (s.groupUse 0 4).moved = false ∧ (s.groupUse 0 4).joined ≠ [] ∧
    s.dev.graphs.find? (fun x => x.asid == 0 && x.va.toNat == 0x3000) =
      some { pa := 0x10_0000_3000, va := 0x3000#64, asid := 0, quiet := 0#64, cleared := true, zero := true } ∧
    (∀ b, (wunit b).dev.rings.find? (fun y => y.pa == drainRing.pa) = some drainRing ∧
      deltaPlace drainRing.party drainRing.handle (wunit b) = .ok (drainRef, 0) (wunit b) ∧ (wunit b).linesFree ∧
      (wunit b).served drainRef.pa ∧ (wunit b).poisoned drainRef.pa 64 = false ∧ (wunit b).descriptor drainRef = drainD b) ∧
    drainRef.pa = drainRing.pa ∧ drainRef.gang = none ∧ drainRing.pending = some [rec5, rec9] ∧ drainRing.sealNext = false ∧
    (drainD false).free < 2 ∧ 2 ≤ (drainD true).free ∧ (drainD true).countersOk = true ∧
    (let pa := fun k => 0x80_0001_0000 + 32 * (k + 1)
     let written := fun b => (drainRef.pa ≤ b ∧ b < drainRef.pa + 64) ∨ ∃ k, k < 2 ∧ pa k ≤ b ∧ b < pa k + 32
     ∀ k, k < 2 →
       let va := slotAddr drainRing.party.ctx (drainD true) (((drainD true).tail + k) % (drainD true).m)
       va.toNat % 128 + 32 ≤ 128 ∧ s.mapsFor drainRing.party.ctx .store va (pa k) written ∧ pa k % 128 = va.toNat % 128 ∧
       s.served (pa k) ∧ (pa k + 32 ≤ drainRef.pa ∨ drainRef.pa + 64 ≤ pa k) ∧
       ∀ j, j < 2 → j ≠ k → pa k + 32 ≤ pa j ∨ pa j + 32 ≤ pa k) := by
  refine ⟨by decide +kernel, by decide +kernel, rfl, rfl, by decide, ⟨0, by decide +kernel⟩, rfl, by decide, rfl, rfl, by decide, by decide,
    fun b => ⟨rfl, drain_place b, free_of rfl, served_hbm _ (by decide) (by decide), rfl, by cases b <;> decide +kernel⟩, rfl, rfl, rfl,
    rfl, by decide, by decide, by decide, fun k hk => ?_⟩
  have root : (wunit true).mem.read 0x10_0000_0000 8 = rootPte := by decide +kernel
  have fits : ∀ b, ((drainRef.pa ≤ b ∧ b < drainRef.pa + 64) ∨
      ∃ k, k < 2 ∧ 0x80_0001_0000 + 32 * (k + 1) ≤ b ∧ b < 0x80_0001_0000 + 32 * (k + 1) + 32) → 0x80_0000_0000 ≤ b := by
    rintro b (⟨h, _⟩ | ⟨k, _, h, _⟩)
    · exact le_trans (by decide) h
    · omega
  obtain rfl | rfl : k = 0 ∨ k = 1 := by omega
  all_goals
    exact ⟨by decide, unit_maps root fits (by decide) (.inr rfl), by decide, served_hbm _ (by decide) (by decide), by decide,
      fun j hj hn => by dsimp only; omega⟩

/-! Agents at work: a ring of records at va 0x2040 with one or none, two output rings at 0x2080 and 0x20C0, with room or
without, records, primitives and a table of targets. -/

def agentInp : Word := 0x2000_0000_0000_2040#64
def ringA : Word := 0x2000_0000_0000_2080#64
def ringB : Word := 0x2000_0000_0000_20C0#64

/-- A ring of the pipeline with two slots of 2 ^ lsize bytes, and one committed record or none. -/
def agentD (lsize : Nat) (one : Bool) : RingDesc :=
  { fifoD with ctl := BitVec.ofNat 64 (lsize * 2 ^ 32 + 0x1_0002), base := 0x1_0000#64, tail := if one then 1 else 0,
               resv := if one then 1 else 0 }

/-- An output ring that is empty or full. -/
def outD (lsize : Nat) (base : Word) (full : Bool) : RingDesc :=
  { agentD lsize false with base := base, tail := if full then 2 else 0, resv := if full then 2 else 0 }

def agentRef : RingRef := { handle := agentInp, va := 0x2040#64, pa := 0x80_0000_2040, cluster := 0, gang := none }

def agentId (k : AgentKind) : AgentId := { die := 0, kind := k, index := 0 }

/-- The agent of a kind, changed by f, over what memory holds of the rings and records. -/
def wagent (k : AgentKind) (f : Agent → Agent) (d a b : RingDesc) (record prim entry : List Byte) (batches : List Batch) : State :=
  let s : State := { wm with
    mem := num 0x10_0000_0000 8 rootPte ++ descAt 0x80_0000_2040 d ++ descAt 0x80_0000_2080 a ++ descAt 0x80_0000_20C0 b ++
      at_ 0x80_0001_0000 record ++ at_ 0x80_0004_0000 prim ++ at_ 0x80_0005_0000 entry
    diesSt := [(0, { Die.reset with batches := batches })]
    dev := { wm.dev with spaces := [someSpace] } }
  s.setAgent (agentId k) (f { Agent.reset with ctl := 1#64, state := 2, inp := agentInp, progress := 1 })

/-- The ring opens for the agent, and its descriptor can be written. -/
def opensFor (s : State) (d : RingDesc) : Prop := s.unitRing unitParty agentInp agentRef d

/-- n bytes of the record at the head can be loaded, from off on. -/
def recordLoads (s : State) (d : RingDesc) (off n : Nat) : Prop :=
  s.loadsFor unitParty agentRef (slotAddr unitParty.ctx d 0 + BitVec.ofNat 64 off) n (0x80_0001_0000 + off)

theorem past_root : ∀ b, agentRef.pa ≤ b ∧ b < agentRef.pa + 64 → 0x80_0000_0000 ≤ b := fun _ h => le_trans (by decide) h.1

/-- A load that the agent makes elsewhere. -/
theorem unit_loads {s : State} (hs : s.mem.read 0x10_0000_0000 8 = rootPte) (hp : s.poison = []) {va : Word} (hv : rooted va) {n : Nat}
    (hn : va.toNat % 128 + n ≤ 128) (h : va.toNat < 2 ^ 38) :
    s.loadsFor unitParty agentRef va n (0x80_0000_0000 + va.toNat % 2 ^ 39) :=
  ⟨hn, unit_maps hs past_root hv (.inl rfl), by omega, served_hbm _ (by omega) (by omega), by simp [State.poisoned, hp]⟩

theorem agent_party {s : State} {k : AgentKind} (h : (s.agent (agentId k)).ctl = 1#64) (d : s.dev.spaces = [someSpace]) :
    s.agentParty (agentId k) = some unitParty := by
  unfold State.agentParty
  dsimp only
  rw [h, d]; rfl

/-! The mesh distributor. -/

def drawRec (version tasks : Nat) : List Byte := lowBytes 8 (version + 2 ^ 32 * tasks)

def wdraw (f : Agent → Agent) (one fullA fullB : Bool) (record : List Byte) : State :=
  wagent .distributor f (agentD 6 one) (outD 6 0x2_0000#64 fullA) (outD 7 0x3_0000#64 fullB) record [] [] []

def idle_draw : State := wdraw id false false false []
def draw_bad : State := wdraw (fun a => { a with counter := some 0 }) true false false (drawRec 2 1)
def draw_over : State := wdraw (fun a => { a with counter := some 0 }) true false false (drawRec 1 1)
def draw_lone : State := wdraw (fun a => { a with counter := some 0 }) true false false (drawRec 1 2)
def draw_task (fullA fullB : Bool) : State :=
  wdraw (fun a => { a with counter := some 0, outs := [ringA, ringB, 0#64] }) true fullA fullB (drawRec 1 2)

/-- How far the reservations and the commit of a task come: 1 and 2 where a ring is full, 3 to the end. -/
def drawCode (s : State) : Nat :=
  let id := agentId .distributor
  let b := s.mem.read 0x80_0001_0000 64
  match reserveHere id unitParty ringA 64 (s.setAgent id { s.agent id with state := 2, waits := none }) with
  | .ok (.error _) _ => 1
  | .ok (.ok batch) s1 =>
    match agentReserve unitParty ringB 128 s1 with
    | .ok (.error _) _ => 2
    | .ok (.ok task) s2 =>
      match slotVa unitParty batch 64 s2 with
      | .ok (va, _) s3 =>
        match agentCommit unitParty task 128 (taskRecord b 1 0 va) batch s3 with
        | .ok () _ => 3
        | _ => 0
      | _ => 0
    | _ => 0
  | _ => 0

theorem draw_waits {s : State} (h : drawCode s = 1) : ∃ x u, reserveHere (agentId .distributor) unitParty ringA 64
    (s.setAgent (agentId .distributor) { s.agent (agentId .distributor) with state := 2, waits := none }) = .ok (.error x) u := by
  unfold drawCode at h
  dsimp only at h
  repeat' split at h
  all_goals first | exact absurd h (by decide) | exact ⟨_, _, ‹_›⟩

theorem draw_waits_task {s : State} (h : drawCode s = 2) : ∃ batch s1 x s2, reserveHere (agentId .distributor) unitParty ringA 64
    (s.setAgent (agentId .distributor) { s.agent (agentId .distributor) with state := 2, waits := none }) = .ok (.ok batch) s1 ∧
    agentReserve unitParty ringB 128 s1 = .ok (.error x) s2 := by
  unfold drawCode at h
  dsimp only at h
  repeat' split at h
  all_goals first | exact absurd h (by decide) | exact ⟨_, _, _, _, ‹_›, ‹_›⟩

theorem draw_runs {s : State} (h : drawCode s = 3) : ∃ batch s1 task s2 va line s3 s4,
    reserveHere (agentId .distributor) unitParty ringA 64
      (s.setAgent (agentId .distributor) { s.agent (agentId .distributor) with state := 2, waits := none }) = .ok (.ok batch) s1 ∧
    agentReserve unitParty ringB 128 s1 = .ok (.ok task) s2 ∧ slotVa unitParty batch 64 s2 = .ok (va, line) s3 ∧
    agentCommit unitParty task 128 (taskRecord (s.mem.read 0x80_0001_0000 64) 1 0 va) batch s3 = .ok () s4 := by
  unfold drawCode at h
  dsimp only at h
  repeat' split at h
  all_goals first | exact absurd h (by decide) | exact ⟨_, _, _, _, _, _, _, _, ‹_›, ‹_›, ‹_›, ‹_›⟩

set_option maxRecDepth 100000 in
set_option exponentiation.threshold 5000 in
theorem idle_draw_opens : opensFor idle_draw (agentD 6 false) :=
  ⟨(by decide +kernel : idle_draw.mem.wf = true), free_of rfl, rfl, rfl, served_hbm _ (by decide) (by decide), rfl⟩
set_option maxRecDepth 100000 in
set_option exponentiation.threshold 5000 in
theorem draw_opens : ∀ s, s = draw_bad ∨ s = draw_over ∨ s = draw_lone ∨ s = draw_task false false ∨ s = draw_task false true ∨
    s = draw_task true false → opensFor s (agentD 6 true) := by
  rintro s (rfl | rfl | rfl | rfl | rfl | rfl) <;>
  exact ⟨by unfold State.Inv; decide +kernel, free_of rfl, rfl, rfl, served_hbm _ (by decide) (by decide), rfl⟩

/-- Writes of ctl to an agent in each state; a distributor with no draw, a malformed one, a finished one, one without a
shader's ring, and one with a task, where each ring is full and where both have room. -/
theorem witness_GraphicsAgents :
    let i := agentId .distributor
    let a := fun (s : State) => s.agent i
    let at_ := fun (n : Nat) (w : Option Nat) => a (wdraw (fun a => { a with state := n, waits := w }) false false false [])
    (wm.agent i).state = 0 ∧ (1#64 : Word).getLsbD 0 = true ∧ (2#64 : Word).getLsbD 0 = false ∧ (3#64 : Word).getLsbD 1 = true ∧
    (∀ n, n = 1 ∨ n = 2 ∨ n = 3 → (at_ n none).state = n ∧ (at_ n none).ctl.getLsbD 0 = true) ∧
    ((at_ 2 (some 5)).state = 2 ∧ (at_ 2 (some 5)).waits.isSome = true) ∧
    agentInp.extractLsb' 60 4 = 2#4 ∧ agentInp.extractLsb' 56 4 = 0#4 ∧ (agentD 6 true).size = 64 ∧ 0 < (agentD 6 true).m ∧
    (∀ s, s = idle_draw ∨ s = draw_bad ∨ s = draw_over ∨ s = draw_lone ∨ (∃ x y, s = draw_task x y) →
      (a s).state = 2 ∧ s.agentParty i = some unitParty ∧ (a s).inp = agentInp ∧ (a s).progress = 1) ∧
    (opensFor idle_draw (agentD 6 false) ∧ (agentD 6 false).acquire.1.st ≠ 0 ∧ (a idle_draw).counter = none) ∧
    (opensFor draw_bad (agentD 6 true) ∧ (a draw_bad).counter = some 0 ∧ recordLoads draw_bad (agentD 6 true) 0 64 ∧
      drawOk (draw_bad.mem.read 0x80_0001_0000 64) = false) ∧
    (opensFor draw_over (agentD 6 true) ∧ (a draw_over).counter = some 0 ∧ recordLoads draw_over (agentD 6 true) 0 64 ∧
      drawOk (draw_over.mem.read 0x80_0001_0000 64) = true ∧ bitsAt (draw_over.mem.read 0x80_0001_0000 64) 32 32 ≤ 1) ∧
    (opensFor draw_lone (agentD 6 true) ∧ (a draw_lone).counter = some 0 ∧ recordLoads draw_lone (agentD 6 true) 0 64 ∧
      drawOk (draw_lone.mem.read 0x80_0001_0000 64) = true ∧ 1 < bitsAt (draw_lone.mem.read 0x80_0001_0000 64) 32 32 ∧
      ((a draw_lone).outs.drop 1).filter (· ≠ 0#64) = []) ∧
    (∀ s, s = draw_task false false ∨ s = draw_task false true ∨ s = draw_task true false → opensFor s (agentD 6 true)) ∧
    (∀ x y, (a (draw_task x y)).counter = some 0 ∧
      recordLoads (draw_task x y) (agentD 6 true) 0 64 ∧ drawOk ((draw_task x y).mem.read 0x80_0001_0000 64) = true ∧
      1 < bitsAt ((draw_task x y).mem.read 0x80_0001_0000 64) 32 32 ∧ (a (draw_task x y)).outs.getD 0 0#64 = ringA ∧
      ((a (draw_task x y)).outs.drop 1).filter (· ≠ 0#64) = [ringB] ∧ [ringB].getD (1 % [ringB].length) 0#64 = ringB ∧
      bitsAt ((draw_task x y).mem.read 0x80_0001_0000 64) 8 8 = 0 ∧ (a (draw_task x y)).cfg = 0#64) ∧
    (∃ x u, reserveHere i unitParty ringA 64 ((draw_task true false).setAgent i { a (draw_task true false) with state := 2, waits := none }) =
      .ok (.error x) u) ∧
    (∃ batch s1 x s2,
      reserveHere i unitParty ringA 64 ((draw_task false true).setAgent i { a (draw_task false true) with state := 2, waits := none }) =
        .ok (.ok batch) s1 ∧ agentReserve unitParty ringB 128 s1 = .ok (.error x) s2) ∧
    ∃ batch s1 task s2 va line s3 s4,
      reserveHere i unitParty ringA 64 ((draw_task false false).setAgent i { a (draw_task false false) with state := 2, waits := none }) =
        .ok (.ok batch) s1 ∧ agentReserve unitParty ringB 128 s1 = .ok (.ok task) s2 ∧ slotVa unitParty batch 64 s2 = .ok (va, line) s3 ∧
      agentCommit unitParty task 128 (taskRecord ((draw_task false false).mem.read 0x80_0001_0000 64) 1 0 va) batch s3 = .ok () s4 := by
  have ld : ∀ (s : State), s.mem.read 0x10_0000_0000 8 = rootPte → s.poison = [] → recordLoads s (agentD 6 true) 0 64 :=
    fun s h hp => unit_loads h hp (by decide) (by decide) (by decide)
  refine ⟨rfl, by decide, by decide, by decide, ?_, ⟨rfl, rfl⟩, by decide, by decide, by decide, by decide, ?_,
    ⟨idle_draw_opens, by decide, rfl⟩,
    ⟨draw_opens _ (.inl rfl), rfl, ld _ (by decide +kernel) rfl, by decide +kernel⟩,
    ⟨draw_opens _ (.inr (.inl rfl)), rfl, ld _ (by decide +kernel) rfl, by decide +kernel, by decide +kernel⟩,
    ⟨draw_opens _ (.inr (.inr (.inl rfl))), rfl, ld _ (by decide +kernel) rfl, by decide +kernel, by decide +kernel, rfl⟩,
    fun s h => draw_opens s (.inr (.inr (.inr h))), fun x y => ⟨rfl, ld _ (by cases x <;> cases y <;> decide +kernel) rfl,
      by cases x <;> cases y <;> decide +kernel, by cases x <;> cases y <;> decide +kernel, rfl, rfl, rfl,
      by cases x <;> cases y <;> decide +kernel, rfl⟩,
    draw_waits (by decide +kernel), draw_waits_task (by decide +kernel), draw_runs (by decide +kernel)⟩
  · rintro n (rfl | rfl | rfl) <;> exact ⟨rfl, rfl⟩
  · rintro s (rfl | rfl | rfl | rfl | ⟨x, y, rfl⟩)
    iterate 4 exact ⟨rfl, rfl, rfl, rfl⟩
    cases x <;> cases y <;> exact ⟨rfl, rfl, rfl, rfl⟩

/-! The rasterisers: batches of one and of two primitives, and a triangle on block (0, 0), one of no area, and one whose
first position is infinite. -/

def batchRec (count mask : Nat) : List Byte := lowBytes 16 (count + 2 ^ 32 * mask + 2 ^ 64 * (0x4_0000 - 64))
def triangle : List Byte := lowBytes 64 (2 ^ 128 * 0x4080_0000 + 2 ^ 288 * 0x4080_0000)
def flatPrim : List Byte := []
def badPrim : List Byte := lowBytes 4 0x7F80_0000

/-- A target entry: the colour block at va 0x6_0000, one block wide and high, of format 0, with a write mask. -/
def targetRec (wmask : Nat) : List Byte :=
  lowBytes 64 (0x6_0000 + 2 ^ 128 + 2 ^ 184 * wmask + 2 ^ 192 + 2 ^ 208)

/-- A rasteriser, the blend unit that has the target table, and the one at the home of the colour block, whose ring is A. -/
def wbatch (f : Agent → Agent) (one fullA fullB : Bool) (record prim : List Byte) (batches : List Batch) : State :=
  let s := wagent .rasteriser f (agentD 6 one) (outD 8 0x2_0000#64 fullA) (outD 7 0x3_0000#64 fullB) record prim (targetRec 15) batches
  let h := homeSlice 0x80_0006_0000 0
  (s.setAgent { die := h / 64, kind := .blend, index := h % 64 } { Agent.reset with inp := ringA }).setAgent (agentId .blend)
    { Agent.reset with ctl := 1#64, outs := [0x5_0000#64] }

def openSlot (mask : Nat) : Batch :=
  { ring := agentRef.pa, counter := 0, user := some 7#64, opened := true, mask := mask, done_ := 0 }

def idle_batch : State := wbatch id false false false [] [] []
def batch_next (count mask : Nat) : State := wbatch id true false false (batchRec count mask) [] []
def batch_at (count mask : Nat) (prim : List Byte) (fullA fullB : Bool) : State :=
  wbatch (fun a => { a with counter := some 0, outs := [ringB] }) true fullA fullB (batchRec count mask) prim [openSlot mask]

def triPrim : Prim :=
  { x := [0, 1024, 0], y := [0, 0, 1024], area := 1048576, z := [0, 0, 0], rw_ := [0, 0, 0], id := 0 }

/-- How far a block's reservations and commit come. -/
def blockCode (s : State) : Nat :=
  let id := agentId .rasteriser
  match homeRing id unitParty 0 0 0 (s.setAgent id { s.agent id with state := 2, waits := none, counter := some 0 }) with
  | .ok ring s1 =>
    match reserveHere id unitParty ring 256 s1 with
    | .ok (.error _) _ => 1
    | .ok (.ok blend) s2 =>
      match agentReserve unitParty ringB 128 s2 with
      | .ok (.error _) _ => 2
      | .ok (.ok out) s3 =>
        match slotVa unitParty blend 256 s3 with
        | .ok (va, _) s4 =>
          match agentCommit unitParty out 128 (fragmentRecord triPrim 0 0 0 7#64 0 0 ((triPrim.coverage 0 0)) va blend.handle) blend s4 with
          | .ok () _ => 3
          | _ => 0
        | _ => 0
      | _ => 0
    | _ => 0
  | _ => 0

/-- The premises of the three outcomes of a block. -/
def blockHome (s : State) (ring : Word) (s1 : State) : Prop :=
  homeRing (agentId .rasteriser) unitParty 0 0 0 (s.setAgent (agentId .rasteriser)
    { s.agent (agentId .rasteriser) with state := 2, waits := none, counter := some 0 }) = .ok ring s1

theorem block_waits {s : State} (h : blockCode s = 1) : ∃ ring s1 x s2, blockHome s ring s1 ∧
    reserveHere (agentId .rasteriser) unitParty ring 256 s1 = .ok (.error x) s2 := by
  unfold blockCode at h
  dsimp only at h
  repeat' split at h
  all_goals first | exact absurd h (by decide) | exact ⟨_, _, _, _, ‹_›, ‹_›⟩

theorem block_waits_out {s : State} (h : blockCode s = 2) : ∃ ring s1 blend s2 x s3, blockHome s ring s1 ∧
    reserveHere (agentId .rasteriser) unitParty ring 256 s1 = .ok (.ok blend) s2 ∧
    agentReserve unitParty ringB 128 s2 = .ok (.error x) s3 := by
  unfold blockCode at h
  dsimp only at h
  repeat' split at h
  all_goals first | exact absurd h (by decide) | exact ⟨_, _, _, _, _, _, ‹_›, ‹_›, ‹_›⟩

theorem block_runs {s : State} (h : blockCode s = 3) : ∃ ring s1 blend s2 out s3 va line s4 s5, blockHome s ring s1 ∧
    reserveHere (agentId .rasteriser) unitParty ring 256 s1 = .ok (.ok blend) s2 ∧
    agentReserve unitParty ringB 128 s2 = .ok (.ok out) s3 ∧ slotVa unitParty blend 256 s3 = .ok (va, line) s4 ∧
    agentCommit unitParty out 128 (fragmentRecord triPrim 0 0 0 7#64 0 0 (triPrim.coverage 0 0) va blend.handle) blend s4 = .ok () s5 := by
  unfold blockCode at h
  dsimp only at h
  repeat' split at h
  all_goals first | exact absurd h (by decide) | exact ⟨_, _, _, _, _, _, _, _, _, _, ‹_›, ‹_›, ‹_›, ‹_›, ‹_›⟩

set_option maxRecDepth 100000 in
set_option exponentiation.threshold 5000 in
theorem idle_batch_opens : opensFor idle_batch (agentD 6 false) :=
  ⟨(by decide +kernel : idle_batch.mem.wf = true), free_of rfl, rfl, rfl, served_hbm _ (by decide) (by decide), rfl⟩
set_option maxRecDepth 100000 in
set_option exponentiation.threshold 5000 in
theorem batch_opens : ∀ s, s = batch_next 0 0 ∨ s = batch_next 2 3 ∨ s = batch_at 1 1 [] false false ∨ s = batch_at 1 3 [] false false ∨
    s = batch_at 2 1 badPrim false false ∨ s = batch_at 2 1 flatPrim false false ∨ s = batch_at 2 1 triangle true false ∨
    s = batch_at 2 1 triangle false true ∨ s = batch_at 2 1 triangle false false → opensFor s (agentD 6 true) := by
  rintro s (rfl | rfl | rfl | rfl | rfl | rfl | rfl | rfl | rfl) <;>
  exact ⟨by unfold State.Inv; decide +kernel, free_of rfl, rfl, rfl, served_hbm _ (by decide) (by decide), rfl⟩

set_option maxRecDepth 100000 in
/-- No batch; one that is empty and one of two primitives that nobody has acquired; an acquired one that the last rasteriser of
its mask finishes, and one that it leaves to another; a malformed primitive, one that covers nothing, and a block whose rings
are full or have room. -/
theorem witness_GraphicsRasterisers :
    let i := agentId .rasteriser
    let a := fun (s : State) => s.agent i
    let b := fun (s : State) => s.mem.read 0x80_0001_0000 64
    agentInp.extractLsb' 60 4 = 2#4 ∧ agentInp.extractLsb' 56 4 = 0#4 ∧ (agentD 6 true).size = 64 ∧ (agentD 6 true).acq = 0 ∧
    0 < (agentD 6 true).m ∧ (agentD 6 true).acquire.1.st = 0 ∧ 0x80_0001_0000 + 64 ≥ agentRef.pa + 64 ∧
    (opensFor idle_batch (agentD 6 false) ∧ (a idle_batch).state = 2 ∧ (a idle_batch).inp = agentInp ∧
      idle_batch.agentParty i = some unitParty ∧ (a idle_batch).counter = none ∧
      batchCounter (idle_batch.die 0) agentRef (agentD 6 false) 0 = none) ∧
    (∀ n m, (a (batch_next n m)).state = 2 ∧ (a (batch_next n m)).inp = agentInp ∧ (batch_next n m).agentParty i = some unitParty ∧
      (a (batch_next n m)).counter = none ∧ batchCounter ((batch_next n m).die 0) agentRef (agentD 6 true) 0 = some 0 ∧
      ((batch_next n m).die 0).batches.find? (fun b => b.is agentRef.pa 0 && b.opened) = none) ∧
    (opensFor (batch_next 0 0) (agentD 6 true) ∧ recordLoads (batch_next 0 0) (agentD 6 true) 0 64 ∧ bitsAt (b (batch_next 0 0)) 0 32 = 0) ∧
    (opensFor (batch_next 2 3) (agentD 6 true) ∧ recordLoads (batch_next 2 3) (agentD 6 true) 0 64 ∧ batchOk (b (batch_next 2 3)) = true ∧
      bitsAt (b (batch_next 2 3)) 0 32 ≠ 0 ∧ bitsAt (b (batch_next 2 3)) 32 8 = 3) := by
  have ld : ∀ (s : State), s.mem.read 0x10_0000_0000 8 = rootPte → s.poison = [] → recordLoads s (agentD 6 true) 0 64 :=
    fun s h hp => unit_loads h hp (by decide) (by decide) (by decide)
  exact ⟨by decide, by decide, by decide, by decide, by decide, by decide, by decide,
    ⟨idle_batch_opens, rfl, rfl, rfl, rfl, by decide +kernel⟩, fun n m => ⟨rfl, rfl, agent_party rfl rfl, rfl, rfl, rfl⟩,
    ⟨batch_opens _ (.inl rfl), ld _ (by decide +kernel) rfl, by decide +kernel⟩,
    ⟨batch_opens _ (.inr (.inl rfl)), ld _ (by decide +kernel) rfl, by decide +kernel, by decide +kernel, by decide +kernel⟩⟩

set_option maxRecDepth 100000 in
theorem witness_GraphicsRasterisers_open :
    let i := agentId .rasteriser
    let a := fun (s : State) => s.agent i
    let b := fun (s : State) => s.mem.read 0x80_0001_0000 64
    let prim := fun (s : State) => primOf (s.mem.read 0x80_0004_0000 64)
    (∀ n m l x y, let s := batch_at n m l x y
      (a s).state = 2 ∧ (a s).inp = agentInp ∧ s.agentParty i = some unitParty ∧ (a s).counter = some (openSlot m).counter ∧
      (a s).progress = 1 ∧ (a s).part = 0 ∧ (a s).outs.getD 0 0#64 = ringB ∧
      (s.die 0).batches.find? (fun b => b.is agentRef.pa (openSlot m).counter && b.opened) = some (openSlot m)) ∧
    ((openSlot 1).mask &&& ((openSlot 1).done_ ||| 2 ^ 0) = (openSlot 1).mask ∧
      (openSlot 3).mask &&& ((openSlot 3).done_ ||| 2 ^ 0) ≠ (openSlot 3).mask ∧ (openSlot 1).user = some 7#64) ∧
    (∀ m, m = 1 ∨ m = 3 → opensFor (batch_at 1 m [] false false) (agentD 6 true) ∧
      recordLoads (batch_at 1 m [] false false) (agentD 6 true) 0 64 ∧ bitsAt (b (batch_at 1 m [] false false)) 0 32 ≤ 1) ∧
    (∀ s, s = batch_at 2 1 badPrim false false ∨ s = batch_at 2 1 flatPrim false false ∨ s = batch_at 2 1 triangle true false ∨
        s = batch_at 2 1 triangle false true ∨ s = batch_at 2 1 triangle false false →
      opensFor s (agentD 6 true) ∧ recordLoads s (agentD 6 true) 0 64 ∧ 1 < bitsAt (b s) 0 32 ∧ bitsAt (b s) 32 8 = 1 ∧
      bitsAt (b s) 40 8 = 0 ∧ bitsAt (b s) 48 8 = 0 ∧ bitsAt (b s) 128 32 = 0 ∧
      BitVec.ofNat 64 (bitsAt (b s) 64 64 + 64 * 1) = 0x4_0000#64 ∧ s.loadsFor unitParty agentRef 0x4_0000#64 64 0x80_0004_0000) ∧
    prim (batch_at 2 1 badPrim false false) = none ∧
    (prim (batch_at 2 1 flatPrim false false)).map (fun q => q.culled 0) = some true ∧
    (∀ x y, (x && y) = false → prim (batch_at 2 1 triangle x y) = some triPrim) ∧ triPrim.culled 0 = false ∧
    (triPrim.blocks 1 0)[0]? = some (0, 0, triPrim.coverage 0 0) ∧
    (∃ ring s1 x s2, blockHome (batch_at 2 1 triangle true false) ring s1 ∧
      reserveHere i unitParty ring 256 s1 = .ok (.error x) s2) ∧
    (∃ ring s1 blend s2 x s3, blockHome (batch_at 2 1 triangle false true) ring s1 ∧
      reserveHere i unitParty ring 256 s1 = .ok (.ok blend) s2 ∧ agentReserve unitParty ringB 128 s2 = .ok (.error x) s3) ∧
    ∃ ring s1 blend s2 out s3 va line s4 s5, blockHome (batch_at 2 1 triangle false false) ring s1 ∧
      reserveHere i unitParty ring 256 s1 = .ok (.ok blend) s2 ∧ agentReserve unitParty ringB 128 s2 = .ok (.ok out) s3 ∧
      slotVa unitParty blend 256 s3 = .ok (va, line) s4 ∧
      agentCommit unitParty out 128 (fragmentRecord triPrim 0 0 0 7#64 0 0 (triPrim.coverage 0 0) va blend.handle) blend s4 = .ok () s5 := by
  have ld : ∀ (s : State), s.mem.read 0x10_0000_0000 8 = rootPte → s.poison = [] → recordLoads s (agentD 6 true) 0 64 :=
    fun s h hp => unit_loads h hp (by decide) (by decide) (by decide)
  refine ⟨fun n m l x y => ⟨rfl, rfl, agent_party rfl rfl, rfl, rfl, rfl, rfl, rfl⟩, by decide, ?_, ?_, by decide +kernel, by decide +kernel, ?_,
    by decide +kernel, by decide +kernel, block_waits (by decide +kernel), block_waits_out (by decide +kernel),
    block_runs (by decide +kernel)⟩
  · rintro m (rfl | rfl)
    · exact ⟨batch_opens _ (.inr (.inr (.inl rfl))), ld _ (by decide +kernel) rfl, by decide +kernel⟩
    · exact ⟨batch_opens _ (.inr (.inr (.inr (.inl rfl)))), ld _ (by decide +kernel) rfl, by decide +kernel⟩
  · intro s h
    refine ⟨batch_opens s (.inr (.inr (.inr (.inr h)))), ?_⟩
    obtain rfl | rfl | rfl | rfl | rfl := h <;>
    exact ⟨ld _ (by decide +kernel) rfl, by decide +kernel, by decide +kernel, by decide +kernel, by decide +kernel, by decide +kernel,
      by decide +kernel, unit_loads (by decide +kernel) rfl (by decide) (by decide) (by decide)⟩
  · intro x y h
    cases x <;> cases y <;> first | exact absurd h (by decide) | decide +kernel

/-! The blend units: no record, one for no pixel, one whose target does not exist, one whose entry is malformed, and one pixel
on a target whose channels are masked off. -/

def blendRec (target mask : Nat) : List Byte := lowBytes 4 (target + 2 ^ 16 * mask)

def wblend (one : Bool) (record entry : List Byte) : State :=
  wagent .blend (fun a => { a with counter := if one then some 0 else none, outs := [0x5_0000#64] }) (agentD 8 one)
    (outD 6 0x2_0000#64 false) (outD 7 0x3_0000#64 false) record [] entry []

def blend_ready : State :=
  let s := wblend true (blendRec 0 1) (targetRec 0)
  s.setAgent (agentId .blend) { s.agent (agentId .blend) with state := 2, waits := none }

set_option maxRecDepth 100000 in
set_option exponentiation.threshold 5000 in
theorem idle_blend_opens : opensFor (wblend false [] []) (agentD 8 false) :=
  ⟨by unfold State.Inv; decide +kernel, free_of rfl, rfl, rfl, served_hbm _ (by decide) (by decide), rfl⟩

set_option maxRecDepth 100000 in
set_option exponentiation.threshold 5000 in
theorem blend_opens : ∀ s, s = wblend true (blendRec 0 0) [] ∨ s = wblend true (blendRec 64 1) [] ∨ s = wblend true (blendRec 0 1) [] ∨
    s = wblend true (blendRec 0 1) (targetRec 0) ∨ s = blend_ready → opensFor s (agentD 8 true) := by
  rintro s (rfl | rfl | rfl | rfl | rfl) <;>
  exact ⟨by unfold State.Inv; decide +kernel, free_of rfl, rfl, rfl, served_hbm _ (by decide) (by decide), rfl⟩

/-- A load of a unit in one line. -/
theorem unit_load {s : State} {va : Word} {n : Nat} (hs : s.mem.read 0x10_0000_0000 8 = rootPte) (hp : s.poison = [])
    (hi : s.hart.streamsIdle) (hv : rooted va) (h0 : 0 < n) (hn : va.toNat % 128 + n ≤ 128) (h : va.toNat < 2 ^ 38) :
    loadVa unitParty va .load n s = .ok (s.mem.read (0x80_0000_0000 + va.toNat % 2 ^ 39) n) s := by
  have there : s.served (0x80_0000_0000 + va.toNat % 2 ^ 39) := served_hbm _ (by omega) (by omega)
  exact loadVa_readable (x := { pa := 0x80_0000_0000 + va.toNat % 2 ^ 39, skew := 0 }) hi h0 hn
    (walks (s := s) (m := s.mem) hs hv (.inl rfl)) there (by simp [State.poisoned, hp])
    (by simp [State.inTx, unitParty])

/-- No channel is written, and no depth is tested: nothing changes. -/
theorem blend_pixel : forM' (fun i => if (1 : Nat).testBit i then
      blendPixel unitParty (slotAddr unitParty.ctx (agentD 8 true) 0) (2 ^ 16) (bytesToNat (targetRec 0)) i else pure ()) (List.range 16)
    blend_ready = .ok () blend_ready := by
  have root : blend_ready.mem.read 0x10_0000_0000 8 = rootPte := by decide +kernel
  have idle : blend_ready.hart.streamsIdle := rfl
  refine forM'_same fun i hi => ?_
  have hi : i < 16 := List.mem_range.mp hi
  have bit : ∀ j, j < 16 → (1 : Nat).testBit j = decide (j = 0) := by decide
  rw [bit i hi]
  by_cases h : i = 0
  · subst h
    have f : bitsAt (bytesToNat (targetRec 0)) (8 * 20) (8 * 1) = 0 ∧ bitsAt (bytesToNat (targetRec 0)) (8 * 23) (8 * 1) = 0 ∧
      bitsAt (2 ^ 16) 8 1 = 0 := by decide +kernel
    have va : bitsAt (bytesToNat (targetRec 0)) (8 * 0) (8 * 8) = 0x6_0000 ∧ bitsAt (2 ^ 16) 48 16 = 0 ∧ bitsAt (2 ^ 16) 32 16 = 0 := by
      decide +kernel
    have a0 : slotAddr unitParty.ctx (agentD 8 true) 0 = 0x1_0000#64 := by decide
    have l1 : loadVa unitParty (0x1_0000#64 + wordOf (128 + 64 / 16 * 0)) .load (64 / 16) blend_ready = _ :=
      unit_load root rfl idle (by decide) (by decide) (by decide) (by decide)
    have l2 : loadVa unitParty (wordOf (0x6_0000 + 64 * 0 + 64 / 16 * 0)) .load (64 / 16) blend_ready = _ :=
      unit_load root rfl idle (by decide) (by decide) (by decide) (by decide)
    unfold blendPixel
    simp only [a0, f.1, f.2.1, f.2.2, va.1, va.2.1, va.2.2, targetBlock, decide_true, if_true, Nat.reduceBEq, Bool.and_false,
      Bool.false_eq_true, if_false, M.bind_apply, M.pure_apply, Nat.zero_mul, Nat.add_zero]
    simp only [show (if (0 : Nat) = 2 then 128 else 64) = 64 from rfl, l1, l2]
    rfl
  · rw [decide_eq_false h]; rfl

theorem witness_GraphicsBlending :
    let i := agentId .blend
    let a := fun (s : State) => s.agent i
    let hdr := fun (s : State) => s.mem.read 0x80_0001_0000 8
    agentInp.extractLsb' 60 4 = 2#4 ∧ agentInp.extractLsb' 56 4 = 0#4 ∧ (agentD 8 true).size = 256 ∧ 0 < (agentD 8 true).m ∧
    (opensFor (wblend false [] []) (agentD 8 false) ∧ (agentD 8 false).acquire.1.st ≠ 0 ∧ (a (wblend false [] [])).counter = none) ∧
    (∀ x l m, (a (wblend x l m)).state = 2 ∧ (a (wblend x l m)).inp = agentInp ∧ (wblend x l m).agentParty i = some unitParty ∧
      (a (wblend true l m)).counter = some 0 ∧ (a (wblend x l m)).outs.getD 0 0#64 = 0x5_0000#64) ∧
    (∀ s, s = wblend true (blendRec 0 0) [] ∨ s = wblend true (blendRec 64 1) [] ∨ s = wblend true (blendRec 0 1) [] ∨
      s = wblend true (blendRec 0 1) (targetRec 0) ∨ s = blend_ready →
      opensFor s (agentD 8 true) ∧ recordLoads s (agentD 8 true) 0 8) ∧
    bitsAt (hdr (wblend true (blendRec 0 0) [])) 16 16 = 0 ∧
    (bitsAt (hdr (wblend true (blendRec 64 1) [])) 16 16 ≠ 0 ∧ 63 < bitsAt (hdr (wblend true (blendRec 64 1) [])) 0 8) ∧
    (let s := wblend true (blendRec 0 1) []
     bitsAt (hdr s) 16 16 ≠ 0 ∧ bitsAt (hdr s) 0 8 ≤ 63 ∧ s.loadsFor unitParty agentRef (0x5_0000#64 + 0#64) 64 0x80_0005_0000 ∧
     blendOk (hdr s) (s.mem.read 0x80_0005_0000 64) = false) ∧
    (let s := wblend true (blendRec 0 1) (targetRec 0)
     hdr s = 2 ^ 16 ∧ bitsAt (hdr s) 16 16 = 1 ∧ s.loadsFor unitParty agentRef (0x5_0000#64 + 0#64) 64 0x80_0005_0000 ∧
     s.mem.read 0x80_0005_0000 64 = bytesToNat (targetRec 0) ∧ blendOk (hdr s) (bytesToNat (targetRec 0)) = true ∧
     s.setAgent i { a s with state := 2, waits := none } = blend_ready ∧
     forM' (fun i => if (1 : Nat).testBit i then
         blendPixel unitParty (slotAddr unitParty.ctx (agentD 8 true) 0) (2 ^ 16) (bytesToNat (targetRec 0)) i else pure ())
       (List.range 16) blend_ready = .ok () blend_ready ∧ (a blend_ready).counter = some 0 ∧ (a blend_ready).skipped = (a s).skipped) ∧
    (let s := wblend true (blendRec 0 1) (targetRec 15)
     let e := bytesToNat (targetRec 15)
     unitParty.self = none ∧ s.linesFree ∧ bitsAt e 176 4 = 0 ∧ targetBlock (bitsAt e 160 8) / 16 = 4 ∧ bitsAt e 184 8 = 15 ∧
     s.mapsFor unitParty.ctx .load (0x1_0000#64 + BitVec.ofNat 64 (128 + 4 * 1)) (0x80_0001_0000 + 132) (fun _ => False) ∧
     s.mapsFor unitParty.ctx .load (BitVec.ofNat 64 (0x6_0000 + 64 * 0 + 4 * 1)) (0x80_0006_0000 + 4) (fun _ => False) ∧
     s.mapsFor unitParty.ctx .store (BitVec.ofNat 64 (0x6_0000 + 64 * 0 + 4 * 1)) (0x80_0006_0000 + 4) (fun _ => False) ∧
     s.served (0x80_0001_0000 + 132) ∧ s.served (0x80_0006_0000 + 4) ∧ s.poisoned (0x80_0001_0000 + 132) 4 = false ∧
     s.poisoned (0x80_0006_0000 + 4) 4 = false) := by
  have none_ : ∀ b, False → 0x80_0000_0000 ≤ b := fun _ h => h.elim
  refine ⟨by decide, by decide, by decide, by decide, ⟨idle_blend_opens, by decide, rfl⟩, fun x l m => ⟨rfl, rfl, agent_party rfl rfl, rfl, rfl⟩,
    fun s h => ⟨blend_opens s h, ?_⟩, by decide +kernel, ⟨by decide +kernel, by decide +kernel⟩,
    ⟨by decide +kernel, by decide +kernel, unit_loads (by decide +kernel) rfl (by decide +kernel) (by decide) (by decide), by decide +kernel⟩,
    ⟨by decide +kernel, by decide +kernel, unit_loads (by decide +kernel) rfl (by decide +kernel) (by decide) (by decide), by decide +kernel,
      by decide +kernel, rfl, blend_pixel, rfl, rfl⟩,
    ⟨rfl, free_of rfl, by decide +kernel, by decide +kernel, by decide +kernel,
      unit_maps (by decide +kernel) none_ (by decide +kernel) (.inl rfl), unit_maps (by decide +kernel) none_ (by decide +kernel) (.inl rfl),
      unit_maps (by decide +kernel) none_ (by decide +kernel) (.inr rfl), served_hbm _ (by decide) (by decide),
      served_hbm _ (by decide) (by decide), rfl, rfl⟩⟩
  obtain rfl | rfl | rfl | rfl | rfl := h <;>
  exact unit_loads (by decide +kernel) rfl (by decide) (by decide) (by decide)

theorem witness_MatrixZero : (wt 3 0 .f64).dispatches tw false ∧ tw.lqv = 0#1 ∧
    (wt 3 0 .f64).hart.tile (tw.vd.toNat % 8) = some (Tile.zeros .f64 false) :=
  ⟨⟨⟨rfl, rfl, rfl, rfl, rfl, rfl⟩, by decide, by decide, by decide⟩, rfl, rfl⟩

/-! ## Ill-formed instructions: one for each check of the well-formedness, beside a form that passes -/

/-- A W instruction with its aux9 and register fields, all others 0. -/
def wx (aux9 : BitVec 9) (vs3 vs2 vs1 vd : Reg) : WWord := { vw vs3 vs2 vs1 vd with aux9 := aux9 }

/-- The first passes and none of the others does. -/
def refuses (good : Instr) (bad : List Instr) : Bool := good.wf && bad.all fun i => !i.wf

/-- em without a predicate, pe without em, the reserved rounding modes, and a rounding mode where nothing rounds (R54, R70,
R73). -/
theorem test_refuses_modifiers :
    refuses (.vfadd vq) [.vfadd { vw 0 0 0 0 with em := 1#1 }, .vfadd { vw 0 0 0 0 with pe := 3#4 },
      .vfadd { vw 0 0 0 0 with rm := 5#3 }, .vfadd { vw 0 0 0 0 with rm := 6#3 }, .vadd { vw 0 0 0 0 with rm := 1#3 },
      .vand { vw 0 0 0 0 with sat := 1#1 }, .vslup { wx 1 0 0 0 0 with xp := 1#5 }, .vslup { wx 1 0 0 0 0 with em := 1#1, pe := 1#4 },
      .vmpush { vw 0 0 0 0 with lqv := 1#1 }, .vmpush { vw 0 0 0 0 with pg := 1#4 }] = true := by decide

/-- The second operand: aux9[8:2] beside kinds 0 to 2, q4 and above, vs2 beside an immediate; and VFMA and VFSGN, which take
no immediate (R71, R117, R122). -/
theorem test_refuses_second_operands :
    refuses (.vadd (wx 0x1FF 0 0 0 0)) [.vadd (wx 4 0 0 0 0), .vadd (wx 5 0 0 0 0), .vadd (wx 6 0 0 0 0), .vadd (wx 2 0 4 0 0),
      .vadd (wx 3 0 1 0 0), .vadd (wx 0 1 0 0 0), .vfma (wx 3 0 0 0 0), .vfma (wx 16 0 0 0 0), .vfsgn (wx 12 0 0 0 0),
      .vfsqrt (wx 0 0 1 0 0), .vslup (wx 0 0 0 0 0), .vbcast (wx 0 0 0 0 0), .vbcast (wx 1 0 0 1 0)] = true := by decide

/-- Predicate fields and destinations, and operation numbers (R113, R120, R124, R128 to R135). -/
theorem test_refuses_predicates :
    refuses (.vcmp (wx 0 5 0 0 15)) [.vcmp (wx 0 5 0 0 0), .vcmp (wx 0 5 0 0 16), .vcmp (wx 0 6 0 0 1), .vfcmp (wx 0 8 0 0 1),
      .vsel (wx 0 16 0 0 0), .vmvx (wx 1 2 0 0 0), .vmvq (wx 1 0 0 0 3), .vmvq (wx 1 0 0 0 8), .vplog (wx 0 16 0 0 1),
      .vplog (wx 0 0 16 0 1), .vpcnt (wx 0 0 0 0 1), .vpfirst (wx 0 3 0 0 1), .vpscan (wx 0 2 0 0 0), .vpset (wx 1 0 0 0 0),
      .vmelse (wx 0 0 0 1 0), .vredi (wx 0 6 0 0 0), .vredf (wx 0 4 0 0 0), .vquad (wx 0 8 0 0 0),
      .vquad { wx 0 3 0 0 0 with sat := 1#1 }] = true := by decide

/-- Scope, order, .sc, .ord and field counts, and register groups past v31 (R72, R140, R141, R185 to R187, R192). -/
theorem test_refuses_memory_modifiers :
    refuses (.vlseg (wx 0x180 0 0 0 28)) [.vlseg (wx 0x180 0 0 0 29), .vsseg (wx 0x180 29 0 0 0), .vld (wx 6 0 0 0 0),
      .vld (wx 0x10 0 0 0 0), .vst (wx 8 0 0 0 0), .vst (wx 0 0 0 0 1), .vld (wx 0x20 0 0 0 0), .vld (wx 0x40 0 0 0 0),
      .vld (wx 0x80 0 0 0 0), .vldx (wx 0x64 0 0 0 0), .vlds (wx 0x18 0 0 0 0), .vamo (wx 0 0 0 0 8),
      .vamo { wx 0 0 0 0 0 with sat := 1#1 }, .vstr (wx 0x40 0 0 0 0), .vwacc (wx 1 0 0 0 0), .vprf (wx 0x10 0 0 0 0)] = true := by
  decide

/-- Tiles, texture, ray and delta instructions (R296, R327, R331, R352). -/
theorem test_refuses_units :
    refuses (.vtex (wx 3 0 0 30 28)) [.vtex (wx 3 0 0 30 29), .vtex (wx 3 0 0 31 0), .vtex (wx 4 0 0 0 0), .vtexg (wx 0 0 29 0 0),
      .vtexq (wx 2 0 0 0 0), .vintp (wx 0 0 0 0 0), .vintp (wx 1 0 0 1 0), .vrayi (wx 0 0 0 0 4), .vraya (wx 0 0 0 1 0),
      .vrayt (wx 1 0 0 0 0), .mzero (wx 0 0 0 0 8), .mmac (wx 16 0 0 0 0), .mmac (wx 0 16 0 0 0), .mslco (wx 0 0 0 0 0),
      .mslco (wx 1 2 0 0 0), .mldt (wx 0 1 0 0 0), .mscal (wx 0 2 0 0 0), .mena 0 3, .dpush (wx 0 0 0 29 0), .dpush (wx 0 0 0 0 16),
      .dpop (wx 1 0 0 0 0), .dpop (wx 8 0 0 0 28), .dseal (wx 0 0 0 0 1), .dlook (wx 0 0 0 0 29), .dapply (wx 0 0 0 29 0),
      .dscan (wx 0 0 0 0 0), .dqstat (wx 0 0 0 0 3), .dbind (wx 3 0 0 0 0), .dbind (wx 2 0 0 1 0)] = true := by decide

/-- The 32-bit instructions: scopes, queues, strip pointers and branch offsets; FENCE's fields of PAUSE; experimental
combinations; and operands of events (R69, R74, R90, R101, R406). -/
theorem test_refuses_others :
    refuses (.tbegin 5 0xFFE) [.tbegin 5 1, .torelse 1, .qpush 4 0, .qpop 0 3, .qpop 0 8, .qstat 0 8, .vstrip 1 29 0, .vstrip 8 5 0,
      .racq 6 0 0, .fenceS 7 0 0, .awmerge 6, .fence 0 1 0 0 0, .experimentalInstruction 0 55 (vw 0 0 0 0),
      .experimentalInstruction 7 0 { vw 0 0 0 0 with rm := 5#3 }, .place 4, .stop { die := 0, cluster := 48 },
      .ageStep { die := 0, cluster := 0, core := 8, hart := 0 }, .ageStep { die := 0, cluster := 0, core := 0, hart := 8 },
      .agentBeacon { die := 0, kind := .rasteriser, index := 8 }, .agentBeacon { die := 0, kind := .distributor, index := 1 },
      .launchBeaconWrite 0 64 0, .hostBeaconWrite 256 0, .msixUnmask 256] = true := by decide

/-- Words that are no instruction: all zeros and all ones, a 16-bit parcel, LOAD with funct3 111, a W word with pe and no em, and
group 1's unused op 55; and two experimental words (R64, R69, R73, R74). -/
theorem test_decode_refuses :
    decodeTableWord 32 0 = none ∧ decodeTableWord 32 0xFFFF_FFFF = none ∧ decodeTableWord 32 0x0000_7003 = none ∧
    decodeTableWord 64 (0x3F + 2 ^ 39 * 1) = none ∧ decodeTableWord 64 (0x3F + 2 ^ 12 * 1 + 2 ^ 49 * 55) = none ∧
    decodeTableWord 64 (0x3F + 2 ^ 12 * 7) = some (.experimentalInstruction 7 0 (vw 0 0 0 0)) ∧
    decodeTableWord 64 (0x3F + 2 ^ 49 * 63) = some (.experimentalInstruction 0 63 (vw 0 0 0 0)) :=
  ⟨rfl, rfl, rfl, rfl, rfl, rfl, rfl⟩

/-! ## One step of an instruction, with values worked out from the spec -/

/-- The instruction answers a next state of which f holds. -/
def gives (i : Instr) (s : State) (f : State → Bool) : Bool :=
  match exec i s with
  | .next t => f t
  | _ => false

/-- A hart with values in x10, x11 and x12. -/
def wxs (a b c : Word) : State := { wm with hart := { wm.hart with x := ((wm.hart.x.set 10 a).set 11 b).set 12 c } }

/-- R89 and the division corners of its table. -/
theorem test_add_wraps : gives (.add 12 10 11) (wxs (BitVec.allOnes 64) 2 0) (fun t => t.hart.rx 12 == 1#64) = true := by
  decide +kernel
theorem test_div_by_zero : gives (.div 12 10 11) (wxs 7 0 0) (fun t => t.hart.rx 12 == BitVec.allOnes 64) = true := by
  decide +kernel
theorem test_div_overflow : gives (.div 10 10 11) (wxs 0x8000_0000_0000_0000 (BitVec.allOnes 64) 0)
    (fun t => t.hart.rx 10 == 0x8000_0000_0000_0000#64) = true := by decide +kernel
theorem test_sraw_sign : gives (.sraw 12 10 11) (wxs 0x8000_0000 33 0)
    (fun t => t.hart.rx 12 == 0xFFFF_FFFF_C000_0000#64) = true := by decide +kernel

/-- Little-endian stores and a load that extends the sign (R2, R89). -/
theorem test_sd_bytes : gives (.sd 10 11 0) (wxs 0x2000 0x0102_0304_0506_0708 0)
    (fun t => t.mem.get 0x10_0000_2000 == 8#8 && t.mem.get 0x10_0000_2007 == 1#8) = true := by decide +kernel
theorem test_lh_sign : gives (.lh 12 10 6) { wxs 0x2000 0 0 with mem := num 0x10_0000_2006 2 0x8001 }
    (fun t => t.hart.rx 12 == 0xFFFF_FFFF_FFFF_8001#64) = true := by decide +kernel

/-- An environment call enters S mode (R364): cause 8 from U mode, sepc its own address, SPP clear. -/
theorem test_ecall : gives .ecall w0 (fun t =>
    t.hart.priv == .supervisor && t.hart.scause == 8#64 && t.hart.sepc == 0x1000#64 && t.hart.pc == 0x4000#64) = true := by
  decide +kernel

/-- The first VSTRIP of R101's table: 100 elements, class S at width 32. -/
theorem test_vstrip : gives (.vstrip 10 11 8) { wm with hart := { wm.hart with
      x := ((wm.hart.x.set 10 100#64).set 11 0x10_0000_1000#64).set 12 0x10_0000_2000#64
      vsptr := 0x4_0004#64, vgrant := 2#64, vl := 0 } }
    (fun t => t.hart.vl == 64 && t.hart.rx 10 == 36#64 && t.hart.rx 11 == 0x10_0000_1000#64 && t.hart.pc == 0x1004#64) = true := by
  decide +kernel
/-- The second: the pointers advance by 64 elements. -/
theorem test_vstrip_again : gives (.vstrip 10 11 8) { wm with hart := { wm.hart with
      x := ((wm.hart.x.set 10 36#64).set 11 0x10_0000_1000#64).set 12 0x10_0000_2000#64
      vsptr := 0x4_0004#64, vgrant := 2#64, vl := 64 } }
    (fun t => t.hart.vl == 36 && t.hart.rx 10 == 0#64 && t.hart.rx 11 == 0x10_0000_1100#64 && t.hart.rx 12 == 0x10_0000_2100#64)
    = true := by decide +kernel

/-- The conversion of R123's example: 17, −300, 500 and 0.001 from F32 to E4M3, with the overflow marked in p5; and its
word. -/
theorem test_vcvt_word : decodeTableWord 64 0x001E_0A82_4004_10BF =
    some (.vcvt { vw 0 0 8 1 with em := 1#1, pe := 5#4, xp := 9#5 }) := rfl
theorem test_vcvt : gives (.vcvt { vw 0 0 8 1 with em := 1#1, pe := 5#4, xp := 9#5 }) { wm with hart := { wm.hart with
      x := wm.hart.x.set 9 0x16D#64
      vgrant := 0#64, vl := 4, v := wm.hart.v.set 8 (0x3A83126F_43FA0000_C3960000_41880000#16384) } }
    (fun t => elem (t.hart.rv 1) 32 0 == 0x017F_F958 && t.hart.rp 5 == 4#2048 && t.hart.vfflags == 7#6) = true := by
  decide +kernel
/-- Division of R112: −7 / 2 is −3 and −7 rem 2 is −1, in I8. -/
theorem test_vdiv_vrem : gives (.vdiv (vw 0 3 2 1)) { wm with hart := { wm.hart with
      vpal := BitVec.ofNat 64 (pal4 1), vgrant := 0#64, vl := 1, v := (wm.hart.v.set 2 0xF9#16384).set 3 2#16384 } }
    (fun t => elem (t.hart.rv 1) 8 0 == 0xFD) = true := by decide +kernel

/-- Words that the spec's examples give (R96, R100, R102, R113, R125, R141, R161, R163, R165, R192, R293, R294, R305). -/
theorem test_spec_words :
    decodeTableWord 32 0x8020_050B = some (.vgrant 10 2 2) ∧ decodeTableWord 32 0x00B5_280B = some (.vstrip 10 11 8) ∧
    decodeTableWord 32 0x0005_110B = some (.qpush 2 10) ∧ decodeTableWord 32 0x0068_22AB = some (.pclaim 5 16 6) ∧
    decodeTableWord 32 0x00B5_102B = some (.hbind 10 11) ∧ decodeTableWord 32 0x04B5_102B = some (.hsend 10 11) ∧
    decodeTableWord 32 0x00B5_505B = some (.awopen 10 11) ∧ decodeTableWord 32 0x0400_505B = some .awclose ∧
    decodeTableWord 32 0x0001_23FB = some (.mena 7 2) ∧ decodeTableWord 32 0x0200_207B = some (.mdis 0) ∧
    decodeTableWord 64 0x0000_0000_0000_41BF = some (.mzero (vw 0 0 0 3)) ∧
    decodeTableWord 64 0x0006_0008_0000_A13F = some (.vcompr { vw 0 0 1 2 with pg := 1#4 }) ∧
    decodeTableWord 64 0x01A0_0000_0401_01BF = some (.vcmp (wx 3 2 0 2 3)) ∧
    decodeTableWord 64 0x0000_E002_4005_30BF = some (.vld { vw 0 0 10 1 with rm := 7#3, xp := 9#5 }) :=
  ⟨rfl, rfl, rfl, rfl, rfl, rfl, rfl, rfl, rfl, rfl, rfl, rfl, rfl, rfl⟩

/-- The smallest code object of a generation and a set of features: a header, one section without contents, and its name. -/
def ico (gen features : Nat) : List Byte :=
  lowBytes 4 0x014F4349 ++ lowBytes 1 1 ++ lowBytes 1 gen ++ lowBytes 2 0 ++ lowBytes 8 features ++ lowBytes 2 0 ++
  lowBytes 2 1 ++ lowBytes 12 0 ++ lowBytes 4 64 ++ lowBytes 4 96 ++ lowBytes 4 96 ++ lowBytes 4 96 ++ lowBytes 4 96 ++
  lowBytes 4 1 ++ lowBytes 8 0 ++ lowBytes 4 0 ++ lowBytes 1 9 ++ lowBytes 27 0 ++ [0#8]

/-- The bundle of R422 on a device that masks mi4 and peer: the second image is chosen. -/
theorem test_select_image :
    (selectImage { Cluster.reset with featen := 0b101_1110_1111#11 } [ico 1 0b10101, ico 1 0b1101, ico 2 1, ico 1 0b100101] ==
      some (ico 1 0b1101)) = true := by decide +kernel
theorem test_image_flags : icoOk (ico 0 1) = false ∧ icoOk (ico 1 (2 ^ 11)) = false := by decide +kernel

/-- Reads of registers: a budget at reset (R434), hostbase through BAR0 and the offsets beside it (R405, R406). -/
theorem test_read_budval : ((wm.readLantern { die := 0, cluster := 0 } 0x7C5).map Prod.fst == some 131072#64) = true := by
  decide +kernel
theorem test_read_bar0 : ({ wm with dev := { wm.dev with hostbase := 0x5000#64 } } : State).readBar0 0x10 = 0x5000#64 ∧
    wm.readBar0 0x18 = 0#64 := by decide +kernel

end Sys2Proof.Tests
end

namespace Sys2Proof.Machine
open Sys2Proof

/-- A vector of equal entries, read with that entry as the default. -/
theorem getD_replicate_same {α : Type} (n k : Nat) (a : α) : (Vector.replicate n a).toList.getD k a = a := by
  rw [Vector.toList_replicate, List.getD_eq_getElem?_getD, List.getElem?_getD_replicate_default_eq]

theorem Hart.reset_rx (id : HartId) (r : Reg) : (Hart.reset id).rx r = 0#64 := by
  simp [Hart.rx, Hart.reset]

theorem Hart.reset_rv (id : HartId) (r : Nat) : (Hart.reset id).rv r = 0#16384 := by
  exact getD_replicate_same 32 r 0#16384

theorem Hart.reset_rp (id : HartId) (r : Nat) (h0 : 0 < r) : (Hart.reset id).rp r = 0#2048 := by
  by_cases h : r < 16
  · simp [Hart.rp, Hart.reset, List.getD_eq_getElem?_getD, h, Nat.ne_of_gt h0]
  · simp [Hart.rp, Hart.reset, List.getD_eq_getElem?_getD, h, Nat.ne_of_gt h0]

theorem Hart.reset_tile (id : HartId) (n : Nat) : (Hart.reset id).tile n = none := by
  exact getD_replicate_same 8 n none

@[simp] theorem Hart.wx_zero (h : Hart) (v : Word) : h.wx 0#5 v = h := rfl
@[simp] theorem Hart.wp_zero (h : Hart) (b : BitVec 2048) : h.wp 0 b = h := rfl

/-- Settles O44: reset is given as data, and the two hard-wired registers are the first cases of their accessors. -/
theorem resetAndHardwired : Obligations.ResetAndHardwired := by
  unfold Obligations.ResetAndHardwired
  refine ⟨⟨Memory.wf_nil, Hart.reset_rx _, Hart.reset_rv _, Hart.reset_rp _, rfl, rfl, rfl, rfl, rfl, rfl, rfl, rfl, rfl,
    rfl, rfl, rfl, rfl, Hart.reset_tile _, fun _ => rfl⟩, fun h v b => ⟨h.rx_zero, h.rp_zero, h.wx_zero v, h.wp_zero b⟩⟩

end Sys2Proof.Machine

namespace Sys2Proof.Machine
open Sys2Proof

theorem keepWalks_self (s : State) : s.keepWalks s = s := by
  unfold State.keepWalks; rw [List.drop_length]; rfl

/-- A scalar instruction whose effect is a trap of its own, from a state that it has not changed. -/
theorem trapsWith_of_scalar {i : Instr} {m : M Unit} {s : State} {cause : Nat} {tval : Word}
    (run : exec i s = runScalar m s) (h : m s = .error (.trap { cause := cause, tval := tval, vf := none }) s)
    (here : s.trapsHere cause tval) : trapsWith i s cause tval := by
  refine trapsWith_of_fault ?_ here
  rw [run, runScalar_error h]
  unfold State.ended
  simp only [keepWalks_self]

/-! ## Instructions that are Illegal -/

/-- An instruction is Illegal as a statement about it: it traps with cause 2 and its encoding in stval. -/
def isIllegal (i : Instr) (s : State) : Prop :=
  s.trapsHere 2 (BitVec.ofNat 64 (bytesToNat (encode i))) → trapsWith i s 2 (BitVec.ofNat 64 (bytesToNat (encode i)))

theorem illegal_apply {α : Type} (i : Instr) (s : State) :
    (illegal i : M α) s = .error (.trap { cause := 2, tval := encodingOf i, vf := none }) s := rfl

/-- An effect that is Illegal where no transaction is open makes its instruction Illegal. -/
theorem isIllegal_of_scalar {i : Instr} {m : M Unit} {s : State} (run : exec i s = runScalar m s)
    (h : s.hart.tx = none → m s = .error (.trap { cause := 2, tval := encodingOf i, vf := none }) s) : isIllegal i s :=
  fun here => trapsWith_of_scalar run (h here.1) here

theorem supervisorOnly_user {i : Instr} {s : State} (hu : s.hart.priv = .user) (htx : s.hart.tx = none) :
    supervisorOnly i s = .error (.trap { cause := 2, tval := encodingOf i, vf := none }) s := by
  unfold supervisorOnly
  rw [M.bind_ok (abortIfTx_outside htx), M.bind_ok (getH_apply s), if_pos hu, illegal_apply]

/-- An effect that begins with the check for S mode. -/
theorem isIllegal_supervisorOnly {i : Instr} {f : Unit → M Unit} {s : State}
    (run : exec i s = runScalar (supervisorOnly i >>= f) s) (hu : s.hart.priv = .user) : isIllegal i s :=
  isIllegal_of_scalar run fun htx => M.bind_error (supervisorOnly_user hu htx)

/-- A cache-block operation that U mode may not use. -/
theorem isIllegal_cboOp {i : Instr} {rs1 : Reg} {allowed : Bool} {act : Party → Word → M Unit} {s : State}
    (run : exec i s = runScalar (cboOp i rs1 allowed act) s) (hu : s.hart.priv = .user) (ha : allowed = false) :
    isIllegal i s := by
  refine isIllegal_of_scalar run fun htx => ?_
  unfold cboOp
  rw [M.bind_ok (abortIfTx_outside htx), M.bind_ok (getH_apply s)]
  rw [if_pos ⟨hu, by rw [ha]; rfl⟩]
  exact M.bind_error (illegal_apply i s)

/-! ## CSR instructions -/

theorem csrTx_outside {a : Nat} {s : State} (htx : s.hart.tx = none) : csrTx a s = .ok () s := by
  unfold csrTx
  split
  · exact abortIfTx_outside htx
  · rfl

/-- A Zicsr instruction is Illegal where no CSR stands at its address or the access is not allowed (R11, R95). -/
theorem isIllegal_csrOp {i : Instr} {csr : BitVec 12} {rd : Reg} {f : Option (Word → Word)} {s : State}
    (run : exec i s = runScalar (csrOp i csr rd f) s)
    (h : s.readCsr csr.toNat = none ∨ s.hart.csrAllowed csr.toNat f.isSome = false) : isIllegal i s := by
  refine isIllegal_of_scalar run fun htx => ?_
  unfold csrOp
  rw [M.bind_ok (M.get_apply s)]
  cases e : s.readCsr csr.toNat with
  | none => exact illegal_apply i s
  | some old =>
    have na : s.hart.csrAllowed csr.toNat f.isSome = false := h.resolve_left (by rw [e]; simp)
    simp only
    rw [M.bind_ok (csrTx_outside htx), M.bind_ok (getH_apply s)]
    rw [if_pos (by rw [na]; rfl)]
    exact M.bind_error (illegal_apply i s)

theorem csrAllowed_user_smode {h : Hart} {a : Nat} {w : Bool} (hu : h.priv = .user)
    (ha : (0x100 ≤ a ∧ a < 0x200) ∨ (0x5C0 ≤ a ∧ a ≤ 0x5C5)) : h.csrAllowed a w = false := by
  have : (isSmodeCsr a || (decide (0x5C0 ≤ a) && decide (a ≤ 0x5C5))) = true := by simpa [isSmodeCsr] using ha
  simp [Hart.csrAllowed, hu, this]

theorem csrAllowed_write_readonly {h : Hart} {a : Nat} (ha : 0xC00 ≤ a) : h.csrAllowed a true = false := by
  simp [Hart.csrAllowed, ha]

/-- Settles O7: each instruction ends in its trap before it has changed anything. -/
theorem trappingInstructions : Obligations.TrappingInstructions := by
  unfold Obligations.TrappingInstructions
  refine ⟨fun s => ⟨fun hu here => ?_, fun hs here => ?_, fun here => ?_⟩, fun s rs1 rs2 rd csr => ?_⟩
  · refine trapsWith_of_scalar rfl ?_ here
    rw [M.bind_ok (abortIfTx_outside here.1), if_pos hu, trap_apply]
  · refine trapsWith_of_scalar rfl ?_ here
    rw [M.bind_ok (abortIfTx_outside here.1), if_neg (by rw [hs]; decide), trap_apply]
  · refine trapsWith_of_scalar rfl ?_ here
    rw [M.bind_ok (abortIfTx_outside here.1), trap_apply]
  · refine ⟨fun hu => ⟨?_, ?_, ?_, ?_⟩, fun htw => ?_, fun hu hb => ?_, fun hu hb => ⟨?_, ?_⟩, fun hu hb => ?_,
      fun hn => ⟨?_, ?_, ?_⟩, fun hu ha => ⟨?_, ?_, ?_⟩, fun ha => ⟨?_, ?_, fun h0 => ⟨?_, ?_, ?_, ?_⟩⟩⟩
    case refine_1 => exact isIllegal_supervisorOnly rfl hu
    case refine_2 => exact isIllegal_supervisorOnly rfl hu
    case refine_3 => exact isIllegal_supervisorOnly rfl hu
    case refine_4 => exact isIllegal_supervisorOnly rfl hu
    case refine_5 =>
      refine isIllegal_of_scalar (i := .wfi) rfl fun _ => ?_
      rw [M.bind_ok (getH_apply s), if_pos htw]
      exact M.bind_error (illegal_apply .wfi s)
    case refine_6 => exact isIllegal_cboOp rfl hu hb
    case refine_7 => exact isIllegal_cboOp rfl hu hb
    case refine_8 => exact isIllegal_cboOp rfl hu hb
    case refine_9 => exact isIllegal_cboOp rfl hu hb
    case refine_10 => exact isIllegal_csrOp rfl (.inl hn)
    case refine_11 => exact isIllegal_csrOp rfl (.inl hn)
    case refine_12 => exact isIllegal_csrOp rfl (.inl hn)
    case refine_13 => exact isIllegal_csrOp rfl (.inr (csrAllowed_user_smode hu ha))
    case refine_14 => exact isIllegal_csrOp rfl (.inr (csrAllowed_user_smode hu ha))
    case refine_15 => exact isIllegal_csrOp rfl (.inr (csrAllowed_user_smode hu ha))
    case refine_16 => exact isIllegal_csrOp rfl (.inr (csrAllowed_write_readonly ha))
    case refine_17 => exact isIllegal_csrOp rfl (.inr (csrAllowed_write_readonly ha))
    all_goals exact isIllegal_csrOp rfl (.inr (by rw [if_neg h0]; exact csrAllowed_write_readonly ha))

end Sys2Proof.Machine

namespace Sys2Proof.Machine
open Sys2Proof

/-! ## A copy whose source byte a poisoned read has brought already (O41)

The hart's engine copies one byte from va 0x3000 to va 0x3100. The source lies in HBM and holds 0, but a read of this
engine at the source's address stands among the requests, completed with poison and the data 5 (R403), and engineRead
takes that data before it looks at memory. -/

/-- The descriptor: one dimension of one byte. -/
def oneByteDesc : Nat := 1 + 2 ^ 128 * 0x3000 + 2 ^ 192 * 0x3100 + 2 ^ 512

/-- CPYT x10 at the head of CQ, handed over. -/
def oneByteEntry : QEntry :=
  { pc := 0x1000#64, instr := .cpyt 10#5, seq := 0, start := none, ready := true,
    cap := { x1 := 0x2000#64, x2 := 0#64, x3 := 0#64, pal := 0#64, vl := 0, width := 0#2, level := 0#2, vfrm := 0#3,
             vxmask := 0x3C#6 } }

/-- The address space of the copy: a satp whose pages are found in the core's TLB. -/
def oneByteSatp : Word := 0x9000_0000_0000_0000#64

/-- The engine's command. -/
def oneByteCmd : CopyCmd :=
  { hart := State.reset.hart.id, entry := oneByteEntry, desc := oneByteDesc, gang := none, satp := oneByteSatp, sbase := 0x4000_0000#64,
    priv := .user, sum := false, mxr := false, slot := none, joined := false, stopped := false, next := 0, flags := 0#6,
    ended := none, host := false }

/-- A page of 2 MiB over the start of HBM. -/
def hbmPage : TlbEntry :=
  { asid := 0, glob := true, va := 0, bits := 21, pa := 0x10_0000_0000, read := true, write := true, exec := true,
    user := true, dirty := true, skew := 0, dup := false, slice := 0 }

/-- A read of the engine at the source that has come back with poison. -/
def poisonedRead : RemoteRequest :=
  { id := 0, hart := none, engine := some State.reset.hart.id, write := false, amo := false, pa := 0x10_0000_3000, size := 1,
    data := some 5, poison := true, dropped := false }

/-- The state with the command, and the poisoned read among the requests. -/
def poisonedCopy : State := { State.reset with
  hart := { State.reset.hart with satp := oneByteSatp, cq := [oneByteEntry] }
  cores := [(State.reset.hart.id.coreId, { Core.reset with tlb := [hbmPage], copies := [oneByteCmd] })]
  dev := { State.reset.dev with requests := [poisonedRead] } }

/-- What a run leaves at an address of memory. -/
def byteAfter (o : Host.Outcome State Fault Refusal) (pa : Nat) : Option (BitVec 8) :=
  match o with
  | .next t => some (t.mem.get pa)
  | _ => none

theorem byteAfter_poisonedCopy :
    byteAfter (exec (.copyCompletion poisonedCopy.hart.id 0) poisonedCopy) 0x10_0000_3100 = some 5#8 := by
  decide +kernel

theorem poisonedCopy_maps :
    poisonedCopy.heldFor oneByteCmd.party.ctx .load (cdSrc oneByteDesc + BitVec.ofNat 64 0) = some 0x10_0000_3000 ∧
    poisonedCopy.heldFor oneByteCmd.party.ctx .store (cdDst oneByteDesc + BitVec.ofNat 64 0) = some 0x10_0000_3100 := by
  decide +kernel

theorem poisonedCopy_served : poisonedCopy.served 0x10_0000_3000 ∧ poisonedCopy.served 0x10_0000_3100 := by
  simp [State.served, region]

/-- Refutes O41: in poisonedCopy, which meets every premise of the completion's clause, the engine takes the data that a
read of its own has brought with poison, 5, where memory holds 0 at the source. -/
theorem not_copyCommands : ¬ Obligations.CopyCommands := by
  unfold Obligations.CopyCommands
  intro h
  obtain ⟨-, -, -, complete⟩ := h poisonedCopy 10#5 0#5
  obtain ⟨t, ran, copied, -⟩ := complete oneByteCmd { count := 1, zero := 0, ss := 0#64, ds := 0#64 } 0
    (fun _ => 0x10_0000_3000) (fun _ => 0x10_0000_3100) rfl (by decide +kernel) rfl ⟨_, rfl⟩ rfl rfl rfl rfl
    (by decide +kernel) (by decide +kernel) (by decide +kernel) rfl rfl (by decide +kernel) (by decide +kernel)
    (by decide +kernel) (by decide +kernel)
    (fun j hj => by
      obtain rfl : j = 0 := Nat.lt_one_iff.mp hj
      exact ⟨poisonedCopy_maps.1, poisonedCopy_served.1, rfl, poisonedCopy_maps.2,
        poisonedCopy_served.2, rfl, fun k hk _ => Nat.lt_one_iff.mp hk⟩) 0
  have five := byteAfter_poisonedCopy
  rw [ran] at five
  have zero : t.mem.get 0x10_0000_3100 = 0#8 := copied 0 Nat.one_pos
  rw [byteAfter, zero] at five
  exact absurd five (by decide)

end Sys2Proof.Machine

namespace Sys2Proof.Machine
open Sys2Proof

/-! ## Fields of a word -/

theorem setField_getLsbD (v : Word) (lo len n k : Nat) (hk : k < 64) :
    (setField v lo len n).getLsbD k = if lo ≤ k ∧ k < lo + len then n.testBit (k - lo) else v.getLsbD k := by
  have ofNat_bit : ∀ x : Nat, (BitVec.ofNat 64 x).getLsbD k = x.testBit k := fun x => by
    rw [BitVec.getLsbD_ofNat]; simp [hk]
  unfold setField
  simp only [BitVec.getLsbD_or, BitVec.getLsbD_and, BitVec.getLsbD_not, hk, ofNat_bit, decide_true, Bool.true_and,
    Nat.testBit_mul_two_pow, Nat.testBit_two_pow_sub_one, Nat.testBit_mod_two_pow]
  by_cases below : k < lo
  · simp [Nat.not_le.mpr below]
  · by_cases inside : k - lo < len
    · simp [inside, Nat.not_lt.mp below, show k < lo + len by omega]
    · simp [inside, show ¬ k < lo + len by omega]

theorem extractLsb'_setField_same (v : Word) {lo len : Nat} (n : Nat) (h : lo + len ≤ 64) :
    (setField v lo len n).extractLsb' lo len = BitVec.ofNat len n := by
  refine BitVec.eq_of_getLsbD_eq fun k hk => ?_
  rw [BitVec.getLsbD_extractLsb', setField_getLsbD _ _ _ _ _ (by omega), BitVec.getLsbD_ofNat]
  simp [hk]

theorem extractLsb'_setField_other (v : Word) {lo len lo' len' : Nat} (n : Nat) (h : lo' + len' ≤ 64)
    (apart : lo' + len' ≤ lo ∨ lo + len ≤ lo') : (setField v lo len n).extractLsb' lo' len' = v.extractLsb' lo' len' := by
  refine BitVec.eq_of_getLsbD_eq fun k hk => ?_
  rw [BitVec.getLsbD_extractLsb', BitVec.getLsbD_extractLsb', setField_getLsbD _ _ _ _ _ (by omega), if_neg (by omega)]

theorem fieldOf_setField_same (v : Word) {lo len : Nat} (n : Nat) (h : lo + len ≤ 64) :
    fieldOf (setField v lo len n) lo len = n % 2 ^ len := by
  rw [fieldOf, extractLsb'_setField_same v n h, BitVec.toNat_ofNat]

theorem fieldOf_setField_other (v : Word) {lo len lo' len' : Nat} (n : Nat) (h : lo' + len' ≤ 64)
    (apart : lo' + len' ≤ lo ∨ lo + len ≤ lo') : fieldOf (setField v lo len n) lo' len' = fieldOf v lo' len' := by
  rw [fieldOf, extractLsb'_setField_other v n h apart, fieldOf]

/-! ## Effects that end in moving on -/

/-- What a state is after rd is written and the instruction has moved on by n bytes. -/
theorem wx_advance_goesOn (s : State) (rd : Reg) (v : Word) (n : Nat) :
    setsReg s ((s.wx rd v).advance n).goesOn rd v ∧ movesOn s ((s.wx rd v).advance n).goesOn n ∧
      scalarOnly s ((s.wx rd v).advance n).goesOn := by
  refine ⟨⟨Hart.rx_wx_same s.hart rd v, fun r hr => Hart.rx_wx_other s.hart rd r v hr⟩, ?_, ?_⟩
  · simp [movesOn]
  · unfold scalarOnly State.goesOn State.advance State.wx Hart.wx
    split <;> rfl

theorem setsReg_congr {s t u : State} {r : Reg} {v : Word} (hx : t.hart.x = s.hart.x) :
    setsReg t u r v = setsReg s u r v := by
  unfold setsReg Hart.rx; rw [hx]

/-- An effect that makes t of the state, writes rd and moves on. -/
theorem runScalar_writes {m : M Unit} {s : State} (t : State) (rd : Reg) (v : Word) {n : Nat}
    (h : m s = .ok () ((t.wx rd v).advance n)) :
    reaches (runScalar m s) fun u => setsReg t u rd v ∧ movesOn t u n ∧ scalarOnly t u :=
  ⟨_, runScalar_ok h, wx_advance_goesOn t rd v n⟩

/-- An effect that makes t of the state and moves on. -/
theorem runScalar_moves {m : M Unit} {s : State} (t : State) (h : m s = .ok () (t.advance 4)) :
    reaches (runScalar m s) fun u => sameRegs t u ∧ movesOn t u 4 ∧ scalarOnly t u :=
  ⟨_, runScalar_ok h, rfl, rfl, rfl⟩

/-- A hart without a transaction that is Held before its instruction has changed anything. -/
theorem State.hold_self {s : State} (w : Held) (htx : s.hart.tx = none) :
    (s.hold s w).hart = { s.hart with held := some w } ∧ (s.hold s w).mem = s.mem := by
  unfold State.hold State.keepRequests
  rw [htx, keepWalks_self]
  exact ⟨rfl, rfl⟩

theorem waitsFor_of_scalar {i : Instr} {m : M Unit} {s : State} {w : Held} (htx : s.hart.tx = none)
    (run : exec i s = runScalar m s) (h : m s = .error (.held w) s) : waitsFor i s w :=
  ⟨_, run.trans (runScalar_error h), State.hold_self w htx⟩

end Sys2Proof.Machine

namespace Sys2Proof.Machine
open Sys2Proof

/-! ## VGRANT -/

/-- The hart after a grant (R97): the registers at the new level, the grant byte, vl within the new VLMAX. -/
def Hart.granted (h : Hart) (width : BitVec 2) (new : Nat) : Hart :=
  let k := if new = h.level then h else h.resize h.level new
  { k with vgrant := setField (setField h.vgrant 0 2 width.toNat) 2 2 new, vl := min h.vl (vlmaxOf width.toNat new),
           vstart := 0 }

theorem negotiate_clusters (lev : Nat) (s : State) : ∃ cl, negotiate lev s = .ok () { s with clusters := cl } := by
  unfold negotiate
  rw [M.bind_ok (M.get_apply s)]
  cases e : s.hart.placed.bind fun p => s.gang p.gang with
  | none => exact ⟨s.clusters, by simp only; rfl⟩
  | some g => exact ⟨_, by simp only; rfl⟩

theorem Hart.drained_of_empty {h : Hart} (hv : h.vq = []) (hm : h.mq = []) : h.drained = true := by
  simp [Hart.drained, hv, hm]

/-- VGRANT with the queues empty and no frame held: which parts of the state change. -/
theorem exec_vgrant (s : State) (rd : Reg) (level width : BitVec 2) (hv : s.hart.vq = []) (hm : s.hart.mq = [])
    (hf : s.hart.frame = none) :
    let g := grantOf s.hart level.toNat
    let h := s.hart.granted width g.2
    ∃ cl, (g.2 = s.hart.level → cl = s.clusters) ∧
      exec (.vgrant rd level width) s =
        .next (((({ s with hart := h, clusters := cl } : State).wx rd
          (setField (wordOf (256 * g.1)) 0 8 (fieldOf h.vgrant 0 8))).advance 4).goesOn) := by
  intro g h
  have noFrame : ¬(s.hart.frame.isSome = true ∧ g.2 ≠ s.hart.level) := by simp [hf]
  by_cases same : g.2 = s.hart.level
  · refine ⟨s.clusters, fun _ => rfl, runScalar_ok ?_⟩
    rw [M.bind_ok (drain_drained (Hart.drained_of_empty hv hm)), M.bind_ok (getH_apply s), if_neg noFrame,
      if_neg (not_not.mpr same)]
    simp only [h, Hart.granted, if_pos same]
    rfl
  · obtain ⟨cl, negotiated⟩ := negotiate_clusters g.2 s
    refine ⟨cl, fun e => absurd e same, runScalar_ok ?_⟩
    rw [M.bind_ok (drain_drained (Hart.drained_of_empty hv hm)), M.bind_ok (getH_apply s), if_neg noFrame,
      if_pos same]
    simp only [h, Hart.granted, if_neg same]
    rw [M.bind_ok negotiated]
    rfl

theorem Hart.resize_rv (h : Hart) (old new r k : Nat) :
    ((h.resize old new).rv r).getLsbD k = ((h.rv r).getLsbD k && decide (k < 2048 * 2 ^ min old new)) := by
  by_cases hr : r < 32
  · have e : (h.resize old new).rv r = h.rv r &&& BitVec.ofNat 16384 (2 ^ (2048 * 2 ^ min old new) - 1) := by
      simp [Hart.resize, Hart.rv, List.getD_eq_getElem?_getD, hr]
    rw [e, BitVec.getLsbD_and, BitVec.getLsbD_ofNat, Nat.testBit_two_pow_sub_one]
    by_cases hk : k < 16384
    · simp [hk]
    · simp [BitVec.getLsbD_of_ge _ _ (Nat.le_of_not_lt hk)]
  · simp [Hart.rv_outside _ _ (Nat.le_of_not_lt hr)]

theorem Hart.resize_rp (h : Hart) (old new r k : Nat) (r0 : r ≠ 0) :
    ((h.resize old new).rp r).getLsbD k = ((h.rp r).getLsbD k && decide (k < 256 * 2 ^ min old new)) := by
  by_cases hr : r < 16
  · have e : (h.resize old new).rp r = h.rp r &&& lowMask (256 * 2 ^ min old new) := by
      simp [Hart.resize, Hart.rp, List.getD_eq_getElem?_getD, hr, r0]
    rw [e, BitVec.getLsbD_and, lowMask, BitVec.getLsbD_ofNat, Nat.testBit_two_pow_sub_one]
    by_cases hk : k < 2048
    · simp [hk]
    · simp [BitVec.getLsbD_of_ge _ _ (Nat.le_of_not_lt hk)]
  · simp [Hart.rp, List.getD_eq_getElem?_getD, hr, r0]

theorem keepsLevel_granted {s t : State} (width : BitVec 2) (new : Nat) (hv : t.hart.v = (s.hart.granted width new).v)
    (hp : t.hart.p = (s.hart.granted width new).p) : keepsLevel s t s.hart.level new := by
  have rv : ∀ r, t.hart.rv r = (s.hart.granted width new).rv r := fun r => by rw [Hart.rv, Hart.rv, hv]
  have rp : ∀ r, t.hart.rp r = (s.hart.granted width new).rp r := fun r => by rw [Hart.rp, Hart.rp, hp]
  by_cases same : new = s.hart.level
  · refine ⟨fun r k => ?_, fun r k r0 => ?_⟩
    · rw [rv, Hart.granted, if_pos same]; simp [same, Hart.rv]
    · rw [rp, Hart.granted, if_pos same]; simp [same, Hart.rp]
  · refine ⟨fun r k => ?_, fun r k r0 => ?_⟩
    · rw [rv, Hart.granted, if_neg same, decide_eq_false (Ne.symm same), Bool.false_or]
      exact Hart.resize_rv s.hart s.hart.level new r k
    · rw [rp, Hart.granted, if_neg same, decide_eq_false (Ne.symm same), Bool.false_or]
      exact Hart.resize_rp s.hart s.hart.level new r k r0

/-- Status and level of a request in the words of R97. -/
theorem grantOf_eq (h : Hart) (level : BitVec 2) :
    let top := (h.vgrant.extractLsb' 6 2).toNat
    let st := if 0 < level.toNat ∧ h.vclass ≠ 2 then 2 else if top < level.toNat then 1 else 0
    grantOf h level.toNat = (st, if st = 2 then 0 else min level.toNat top) := by
  intro top st
  show (if 0 < level.toNat ∧ h.vclass ≠ 2 then (2, 0) else if top < level.toNat then (1, top) else (0, level.toNat)) = _
  by_cases refused : 0 < level.toNat ∧ h.vclass ≠ 2
  · simp [st, refused]
  · by_cases less : top < level.toNat
    · simp [st, refused, less, Nat.le_of_lt less]
    · simp [st, refused, less, Nat.le_of_not_lt less]

theorem granted_width (h : Hart) (width : BitVec 2) (new : Nat) :
    (h.granted width new).vgrant.extractLsb' 0 2 = width := by
  rw [Hart.granted, extractLsb'_setField_other _ _ (by decide) (.inl (by decide)),
    extractLsb'_setField_same _ _ (by decide), BitVec.ofNat_toNat, BitVec.setWidth_eq]

theorem granted_level (h : Hart) (width : BitVec 2) {new : Nat} (hn : new < 4) :
    ((h.granted width new).vgrant.extractLsb' 2 2).toNat = new := by
  rw [Hart.granted, extractLsb'_setField_same _ _ (by decide), BitVec.toNat_ofNat, Nat.mod_eq_of_lt hn]

theorem granted_high (h : Hart) (width : BitVec 2) (new k : Nat) (hk : 4 ≤ k) :
    (h.granted width new).vgrant.getLsbD k = h.vgrant.getLsbD k := by
  by_cases h64 : k < 64
  · rw [Hart.granted, setField_getLsbD _ _ _ _ _ h64, if_neg (by omega), setField_getLsbD _ _ _ _ _ h64,
      if_neg (by omega)]
  · rw [BitVec.getLsbD_of_ge _ _ (Nat.le_of_not_lt h64), BitVec.getLsbD_of_ge _ _ (Nat.le_of_not_lt h64)]

/-- The word that VGRANT leaves in rd: the status above the grant byte. -/
theorem grantResult (st : Nat) (w : Word) :
    setField (wordOf (256 * st)) 0 8 (fieldOf w 0 8) = BitVec.ofNat 64 (256 * st + w.toNat % 256) := by
  refine BitVec.eq_of_getLsbD_eq fun k hk => ?_
  have shifted : wordOf (256 * st) = BitVec.ofNat 64 (2 ^ 8 * st) := rfl
  have split : 256 * st + w.toNat % 256 = 2 ^ 8 * st + w.toNat % 2 ^ 8 := rfl
  rw [setField_getLsbD _ _ _ _ _ hk, shifted, split, BitVec.getLsbD_ofNat, BitVec.getLsbD_ofNat,
    Nat.testBit_two_pow_mul_add _ (Nat.mod_lt _ (by decide)), Nat.testBit_two_pow_mul, fieldOf]
  by_cases low : k < 8
  · simp [low, hk]
  · simp [low, hk, Nat.le_of_not_lt low]

/-- What a grant changes of the hart. -/
theorem granted_frame (h : Hart) (width : BitVec 2) (new : Nat) :
    h.granted width new = { h with
      vgrant := (h.granted width new).vgrant, vl := (h.granted width new).vl, vstart := 0,
      v := (h.granted width new).v, p := (h.granted width new).p } := by
  unfold Hart.granted; split <;> rfl

/-- VGRANT as the statement about it says. -/
theorem vgrant_effect (s : State) (rd : Reg) (level width : BitVec 2) (hv : s.hart.vq = []) (hm : s.hart.mq = [])
    (hf : s.hart.frame = none) :
    let top := (s.hart.vgrant.extractLsb' 6 2).toNat
    let old := (s.hart.vgrant.extractLsb' 2 2).toNat
    let st := if 0 < level.toNat ∧ s.hart.vclass ≠ 2 then 2 else if top < level.toNat then 1 else 0
    let new := if st = 2 then 0 else min level.toNat top
    reaches (exec (.vgrant rd level width) s) fun t =>
      (t.hart.vgrant.extractLsb' 0 2) = width ∧ (t.hart.vgrant.extractLsb' 2 2).toNat = new ∧
      (∀ k, 4 ≤ k → t.hart.vgrant.getLsbD k = s.hart.vgrant.getLsbD k) ∧
      t.hart.vl = min s.hart.vl (2048 * 2 ^ new / (8 * 2 ^ width.toNat)) ∧ keepsLevel s t old new ∧
      setsReg s t rd (BitVec.ofNat 64 (256 * st + t.hart.vgrant.toNat % 256)) ∧ movesOn s t 4 ∧
      scalarOnly { s with
        hart := { s.hart with vgrant := t.hart.vgrant, vl := t.hart.vl, vstart := 0, v := t.hart.v, p := t.hart.p },
        clusters := if old = new then s.clusters else t.clusters } t := by
  intro top old st new
  have granted : grantOf s.hart level.toNat = (st, new) := grantOf_eq s.hart level
  have small : new < 4 := by
    have := level.isLt
    simp only [new]; split <;> omega
  obtain ⟨cl, kept, ran⟩ := exec_vgrant s rd level width hv hm hf
  rw [granted] at kept ran
  obtain ⟨sets, moves, only⟩ := wx_advance_goesOn { s with hart := s.hart.granted width new, clusters := cl } rd
    (setField (wordOf (256 * st)) 0 8 (fieldOf (s.hart.granted width new).vgrant 0 8)) 4
  refine ⟨_, ran, ?_⟩
  generalize hu : State.goesOn _ = u at sets moves only ⊢
  obtain ⟨vgrant, vl, v, p, clusters⟩ : u.hart.vgrant = (s.hart.granted width new).vgrant ∧
      u.hart.vl = (s.hart.granted width new).vl ∧ u.hart.v = (s.hart.granted width new).v ∧
      u.hart.p = (s.hart.granted width new).p ∧ u.clusters = cl := by
    rw [scalarOnly] at only
    rw [only]
    exact ⟨rfl, rfl, rfl, rfl, rfl⟩
  have x : (s.hart.granted width new).x = s.hart.x := by rw [granted_frame]
  have pc : (s.hart.granted width new).pc = s.hart.pc := by rw [granted_frame]
  rw [grantResult, setsReg_congr x] at sets
  rw [movesOn, pc] at moves
  refine ⟨?_, ?_, fun k hk => ?_, vl, keepsLevel_granted width new v p, ?_, moves, ?_⟩
  · rw [vgrant, granted_width]
  · rw [vgrant, granted_level _ _ small]
  · rw [vgrant, granted_high _ _ _ _ hk]
  · rw [vgrant]
    exact sets
  · have clEq : (if old = new then s.clusters else u.clusters) = cl := by
      by_cases same : old = new
      · rw [if_pos same, kept same.symm]
      · rw [if_neg same, clusters]
    rw [vgrant, vl, v, p, clEq]
    rw [← granted_frame]
    exact only

end Sys2Proof.Machine

namespace Sys2Proof.Machine
open Sys2Proof

/-! ## Registers moved by steps -/

/-- Registers given by indices each move by a step of their own. -/
def Hart.moveRegs (h : Hart) (reg : Nat → Reg) (step : Nat → Word) (l : List Nat) : Hart :=
  l.foldl (fun k i => k.wx (reg i) (k.rx (reg i) + step i)) h

theorem Hart.wx_eq (h : Hart) (r : Reg) (v : Word) : h.wx r v = { h with x := (h.wx r v).x } := by
  unfold Hart.wx; split <;> rfl

theorem Hart.moveRegs_frame (h : Hart) (reg : Nat → Reg) (step : Nat → Word) (l : List Nat) :
    h.moveRegs reg step l = { h with x := (h.moveRegs reg step l).x } := by
  induction l generalizing h with
  | nil => rfl
  | cons i l ih =>
    show (h.wx _ _).moveRegs reg step l = { h with x := ((h.wx _ _).moveRegs reg step l).x }
    rw [ih]
    rw [Hart.wx_eq]

theorem Hart.moveRegs_other (h : Hart) {reg : Nat → Reg} (step : Nat → Word) {l : List Nat} {r : Reg}
    (out : ∀ i, i ∈ l → r ≠ reg i) : (h.moveRegs reg step l).rx r = h.rx r := by
  induction l generalizing h with
  | nil => rfl
  | cons i l ih =>
    obtain ⟨here, rest⟩ := List.forall_mem_cons.mp out
    exact (ih _ rest).trans (Hart.rx_wx_other h (reg i) r _ here)

theorem Hart.moveRegs_same (h : Hart) {reg : Nat → Reg} (step : Nat → Word) {l : List Nat} (apart : (l.map reg).Nodup)
    {i : Nat} (hi : i ∈ l) (h0 : reg i ≠ 0#5) : (h.moveRegs reg step l).rx (reg i) = h.rx (reg i) + step i := by
  induction l generalizing h with
  | nil => cases hi
  | cons j l ih =>
    rw [List.map_cons, List.nodup_cons] at apart
    obtain ⟨fresh, apart⟩ := apart
    show ((h.wx (reg j) (h.rx (reg j) + step j)).moveRegs reg step l).rx (reg i) = _
    rcases List.mem_cons.mp hi with rfl | later
    · rw [Hart.moveRegs_other _ _ fun k hk e => fresh (by rw [e]; exact List.mem_map_of_mem hk), Hart.rx_wx_same, if_neg h0]
    · rw [ih _ apart later, Hart.rx_wx_other]
      exact fun e => fresh (e ▸ List.mem_map_of_mem later)

/-! ## VSTRIP -/

/-- The k-th register from a first one. -/
def regFrom (first : Reg) (k : Nat) : Reg := first + BitVec.ofNat 5 k

theorem regFrom_toNat {first : Reg} {k : Nat} (hf : first.toNat < 29) (hk : k < 4) :
    (regFrom first k).toNat = first.toNat + k := by
  simp only [regFrom, BitVec.toNat_add, BitVec.toNat_ofNat]; omega

theorem regFrom_nodup {first : Reg} (hf : first.toNat < 29) : ((List.range 4).map (regFrom first)).Nodup := by
  refine (List.nodup_map_iff_inj_on List.nodup_range).mpr fun i hi j hj e => ?_
  have := congrArg BitVec.toNat e
  rw [regFrom_toNat hf (List.mem_range.mp hi), regFrom_toNat hf (List.mem_range.mp hj)] at this
  omega

/-- A word moved by a number of signed steps, in the words of R100. -/
theorem add_mul_signExtend (x : Word) (n : Nat) (step : BitVec 16) :
    x + wordOf n * step.signExtend 64 = BitVec.ofInt 64 (x.toInt + n * step.toInt) := by
  rw [BitVec.ofInt_add, BitVec.ofInt_mul, BitVec.ofInt_toInt, BitVec.ofInt_natCast]
  rfl

/-- The hart after VSTRIP has moved the pointers, or nothing where the first one is x0. -/
def Hart.stripped (h : Hart) (first : Reg) : Hart := if first = 0#5 then h else advancePointers h first

theorem advancePointers_eq (h : Hart) (first : Reg) :
    advancePointers h first =
      h.moveRegs (regFrom first) (fun i => wordOf h.vl * (h.vsptr.extractLsb' (16 * i) 16).signExtend 64) (List.range 4) := rfl

theorem stripped_frame (h : Hart) (first : Reg) : h.stripped first = { h with x := (h.stripped first).x } := by
  unfold Hart.stripped
  split
  · rfl
  · rw [advancePointers_eq]; exact Hart.moveRegs_frame ..

theorem stripped_pointer (h : Hart) {first : Reg} (h0 : first ≠ 0#5) (hf : first.toNat < 29) {k : Nat} (hk : k < 4) :
    (h.stripped first).rx (regFrom first k) =
      BitVec.ofInt 64 ((h.rx (regFrom first k)).toInt + h.vl * (h.vsptr.extractLsb' (16 * k) 16).toInt) := by
  have nz : regFrom first k ≠ 0#5 := fun e => by
    have := congrArg BitVec.toNat e
    rw [regFrom_toNat hf hk] at this
    exact h0 (BitVec.eq_of_toNat_eq (by simp at this ⊢; omega))
  rw [Hart.stripped, if_neg h0, advancePointers_eq, Hart.moveRegs_same h _ (regFrom_nodup hf) (List.mem_range.mpr hk) nz,
    add_mul_signExtend]

theorem stripped_other (h : Hart) {first r : Reg} (out : ∀ k, k < 4 → first = 0#5 ∨ r ≠ regFrom first k) :
    (h.stripped first).rx r = h.rx r := by
  unfold Hart.stripped
  split
  · rfl
  · next h0 =>
    rw [advancePointers_eq]
    exact Hart.moveRegs_other h _ fun i hi => (out i (List.mem_range.mp hi)).resolve_left h0

theorem branchTarget_eq (s : State) (off : BitVec 12) : s.hart.pc + branchOffset off = s.branchTarget off := by
  have doubled : (off ++ 0#1).toInt = 2 * off.toInt := by
    rw [BitVec.toInt_append]; simp
  rw [State.branchTarget, BitVec.ofInt_add, BitVec.ofInt_toInt, branchOffset, BitVec.signExtend, doubled]

/-- The registers after VSTRIP, its counter rs1 apart: the pointers have moved, the others stay. -/
def stripPointers (s t : State) (rs1 rs2 : Reg) : Prop :=
  (∀ k, k < 4 → rs2 ≠ 0#5 →
    t.hart.rx (rs2 + BitVec.ofNat 5 k) =
      BitVec.ofInt 64 ((s.hart.rx (rs2 + BitVec.ofNat 5 k)).toInt +
        s.hart.vl * (s.hart.vsptr.extractLsb' (16 * k) 16).toInt)) ∧
  ∀ r, r ≠ rs1 → (∀ k, k < 4 → rs2 = 0#5 ∨ r ≠ rs2 + BitVec.ofNat 5 k) → t.hart.rx r = s.hart.rx r

/-- What the decoder asks of VSTRIP: the counter is none of the pointers, and they are four registers from rs2 on. -/
theorem stripOk_apart {rs1 rs2 : Reg} (ok : stripOk rs1 rs2 = true) :
    (rs2 ≠ 0#5 → rs2.toNat < 29) ∧ ∀ k, k < 4 → rs2 = 0#5 ∨ rs1 ≠ regFrom rs2 k := by
  by_cases h0 : rs2 = 0#5
  · exact ⟨fun h => absurd h0 h, fun _ _ => .inl h0⟩
  · simp only [stripOk, h0, beq_iff_eq, Bool.or_eq_true, Bool.and_eq_true, decide_eq_true_eq, false_or,
      Bool.not_eq_true', Bool.and_eq_false_imp, decide_eq_false_iff_not] at ok
    obtain ⟨below, outside⟩ := ok
    have hf : rs2.toNat < 29 := BitVec.lt_def.mp below
    refine ⟨fun _ => hf, fun k hk => .inr fun e => ?_⟩
    have := congrArg BitVec.toNat e
    rw [regFrom_toNat hf hk] at this
    omega

theorem stripPointers_of {s t : State} {rs1 rs2 : Reg} (ok : stripOk rs1 rs2 = true)
    (h : ∀ r, r ≠ rs1 → t.hart.rx r = (s.hart.stripped rs2).rx r) : stripPointers s t rs1 rs2 := by
  obtain ⟨below, apart⟩ := stripOk_apart ok
  refine ⟨fun k hk h0 => ?_, fun r hr out => ?_⟩
  · exact (h _ fun e => ((apart k hk).resolve_left h0) e.symm).trans (stripped_pointer s.hart h0 (below h0) hk)
  · exact (h r hr).trans (stripped_other s.hart out)

theorem exec_vstrip (s : State) (rs1 rs2 : Reg) (off : BitVec 12) :
    exec (.vstrip rs1 rs2 off) s =
      let n := s.hart.rx rs1
      let h := s.hart.stripped rs2
      let target := s.hart.pc + branchOffset off
      if n = 0#64 then
        if target.toNat % 4 = 0 then ({ s with hart := { h with vl := 0 } } : State).goto 0#5 0#64 target
        else s.goto 0#5 0#64 target
      else
        let vl := min n.toNat h.vlmax
        .next (({ s with hart := { h with vl := vl }.wx rs1 (n - wordOf vl) } : State).advance 4).goesOn := rfl

theorem goto_aligned (s : State) (rd : Reg) (link target : Word) (h : target.toNat % 4 = 0) :
    s.goto rd link target = .next ((s.wx rd link).jump target).goesOn := if_pos h

/-- VSTRIP with the counter at 0 leaves the loop. -/
theorem vstrip_leaves (s : State) {rs1 rs2 : Reg} {off : BitVec 12} (ok : stripOk rs1 rs2 = true)
    (hn : s.hart.rx rs1 = 0#64) (aligned : (s.branchTarget off).toNat % 4 = 0) :
    reaches (exec (.vstrip rs1 rs2 off) s) fun t =>
      stripPointers s t rs1 rs2 ∧ t.hart.rx rs1 = 0#64 ∧ t.hart.pc = s.branchTarget off ∧
      scalarOnly { s with hart := { s.hart with vl := 0 } } t := by
  let t : State := (({ s with hart := { s.hart.stripped rs2 with vl := 0 } } : State).jump (s.branchTarget off)).goesOn
  have ran : exec (.vstrip rs1 rs2 off) s = .next t := by
    simp only [exec_vstrip, hn, branchTarget_eq, aligned, if_true, goto_aligned _ _ _ _ aligned]
    rfl
  refine ⟨t, ran, stripPointers_of ok fun r _ => rfl, ?_, rfl, ?_⟩
  · exact (stripped_other s.hart (stripOk_apart ok).2).trans hn
  · show scalarOnly _ (({ s with hart := { s.hart.stripped rs2 with vl := 0 } } : State).jump (s.branchTarget off)).goesOn
    rw [stripped_frame]
    rfl

/-- VSTRIP with elements left sets vl and counts down. -/
theorem vstrip_goes_on (s : State) {rs1 rs2 : Reg} {off : BitVec 12} (ok : stripOk rs1 rs2 = true)
    (hn : s.hart.rx rs1 ≠ 0#64) :
    let vl := min (s.hart.rx rs1).toNat s.hart.vlmax
    reaches (exec (.vstrip rs1 rs2 off) s) fun t =>
      stripPointers s t rs1 rs2 ∧ t.hart.rx rs1 = s.hart.rx rs1 - BitVec.ofNat 64 vl ∧ movesOn s t 4 ∧
      scalarOnly { s with hart := { s.hart with vl := vl } } t := by
  intro vl
  let s1 : State := { s with hart := { s.hart.stripped rs2 with vl := vl } }
  have ran : exec (.vstrip rs1 rs2 off) s = .next ((s1.wx rs1 (s.hart.rx rs1 - wordOf vl)).advance 4).goesOn := by
    have vlmax : (s.hart.stripped rs2).vlmax = s.hart.vlmax := by rw [stripped_frame]; rfl
    simp only [exec_vstrip, hn, vlmax, if_false]
    rfl
  obtain ⟨⟨same, other⟩, moves, only⟩ := wx_advance_goesOn s1 rs1 (s.hart.rx rs1 - wordOf vl) 4
  have r0 : rs1 ≠ 0#5 := fun e => hn (by rw [e, Hart.rx_zero])
  refine ⟨_, ran, stripPointers_of ok other, same.trans (if_neg r0), ?_, ?_⟩
  · rw [movesOn, moves]
    show (s.hart.stripped rs2).pc + _ = _
    rw [stripped_frame]
  · rw [scalarOnly] at only ⊢
    rw [only]
    show ({ s with hart := { s.hart.stripped rs2 with vl := vl, x := _, pc := _, instret := (s.hart.stripped rs2).instret + 1, held := _ } } : State) = _
    rw [stripped_frame]

end Sys2Proof.Machine

namespace Sys2Proof.Machine
open Sys2Proof

/-! ## The queue instructions -/

section
variable {s : State} {n : Reg} (hn : n.toNat < 8)

theorem qpush_appends (rs1 : Reg) (room : s.hart.q[n.toNat].length < 8) :
    let t : State := { s with hart := { s.hart with q := s.hart.q.set n.toNat (s.hart.q[n.toNat] ++ [s.hart.rx rs1]) } }
    reaches (exec (.qpush n rs1) s) fun u => sameRegs t u ∧ movesOn t u 4 ∧ scalarOnly t u := by
  refine runScalar_moves _ ?_
  rw [M.bind_ok (getH_apply s), dif_pos hn, if_neg (Nat.not_le.mpr room)]
  rfl

theorem qpush_waits (rs1 : Reg) (htx : s.hart.tx = none) (full : 8 ≤ s.hart.q[n.toNat].length) :
    waitsFor (.qpush n rs1) s .queueFull := by
  refine waitsFor_of_scalar htx rfl ?_
  rw [M.bind_ok (getH_apply s), dif_pos hn, if_pos full]
  rfl

theorem qpop_takes (rd : Reg) {v : Word} {l : List Word} (front : s.hart.q[n.toNat] = v :: l) :
    let t : State := { s with hart := { s.hart with q := s.hart.q.set n.toNat l } }
    reaches (exec (.qpop rd n) s) fun u => setsReg t u rd v ∧ movesOn t u 4 ∧ scalarOnly t u := by
  refine runScalar_writes _ rd v ?_
  rw [M.bind_ok (getH_apply s), dif_pos hn, front]
  rfl

theorem qpop_waits (rd : Reg) (htx : s.hart.tx = none) (empty : s.hart.q[n.toNat] = []) :
    waitsFor (.qpop rd n) s .queueEmpty := by
  refine waitsFor_of_scalar htx rfl ?_
  rw [M.bind_ok (getH_apply s), dif_pos hn, empty]
  rfl

theorem qstat_counts (rd : Reg) : scalarResult (.qstat rd n) s rd (BitVec.ofNat 64 s.hart.q[n.toNat].length) := by
  have entry : s.hart.q.toList.getD n.toNat [] = s.hart.q[n.toNat] := by
    simp [List.getD_eq_getElem?_getD, hn]
  rw [← entry]
  exact ⟨_, rfl, wx_advance_goesOn s rd _ 4⟩

end

theorem lqpop_takes {s : State} (rd : Reg) {v : BitVec 32} {l : List (BitVec 32)} (front : s.hart.lq = v :: l) :
    let t : State := { s with hart := { s.hart with lq := l } }
    reaches (exec (.lqpop rd) s) fun u => setsReg t u rd (BitVec.ofNat 64 v.toNat) ∧ movesOn t u 4 ∧ scalarOnly t u := by
  refine runScalar_writes _ rd _ ?_
  rw [M.bind_ok (getH_apply s), front, BitVec.ofNat_toNat]
  rfl

theorem lqpop_waits {s : State} (rd : Reg) (htx : s.hart.tx = none) (empty : s.hart.lq = []) :
    waitsFor (.lqpop rd) s .lqEmpty := by
  refine waitsFor_of_scalar htx rfl ?_
  rw [M.bind_ok (getH_apply s), empty]
  rfl

theorem vdrain_completes {s : State} (hv : s.hart.vq = []) (hm : s.hart.mq = []) :
    reaches (exec .vdrain s) fun u => sameRegs s u ∧ movesOn s u 4 ∧ scalarOnly s u := by
  refine runScalar_moves s ?_
  rw [M.bind_ok (drain_drained (Hart.drained_of_empty hv hm)), advance_apply]

theorem vdrain_waits {s : State} (htx : s.hart.tx = none) (busy : s.hart.vq ≠ [] ∨ s.hart.mq ≠ []) :
    waitsFor .vdrain s .drain := by
  have full : s.hart.drained = false := by
    rw [Hart.drained, Bool.and_eq_false_iff]
    simpa using busy
  exact waitsFor_of_scalar htx rfl (M.bind_error (drain_waits full))

/-- Settles O15: VGRANT and VSTRIP by the state that each leaves, the queue instructions case by case. -/
theorem grantsStripsAndQueues : Obligations.GrantsStripsAndQueues := by
  unfold Obligations.GrantsStripsAndQueues
  refine ⟨⟨vgrant_effect, fun s rs1 rs2 off => ?_⟩,
    fun s rd rs1 n hn htx => ?_⟩
  · intro n step vl pointers ok
    exact ⟨fun h0 aligned => vstrip_leaves s ok h0 aligned, fun h0 => vstrip_goes_on s ok h0⟩
  · exact ⟨qpush_appends hn rs1, qpush_waits hn rs1 htx, fun v l => qpop_takes hn rd, qpop_waits hn rd htx,
      qstat_counts hn rd, fun v l => lqpop_takes rd, lqpop_waits rd htx, vdrain_completes, vdrain_waits htx⟩

end Sys2Proof.Machine

namespace Sys2Proof.Machine
open Sys2Proof

/-! ## What a write of a CSR leaves -/

/-- A write of a CSR, field by field of the hart. -/
theorem Hart.writeCsr_eq (h : Hart) (a : Nat) (v : Word) :
    h.writeCsr a v = { h with
      sstatus := if a = 0x100 then v &&& 0xC_0122#64 else h.sstatus
      sie := if a = 0x104 then v &&& 0xFFFF#64 else h.sie
      stvec := if a = 0x105 then v &&& ~~~2#64 else h.stvec
      scounteren := if a = 0x106 then v &&& 7#64 else h.scounteren
      senvcfg := if a = 0x10A then newSenvcfg h.senvcfg v else h.senvcfg
      sscratch := if a = 0x140 then v else h.sscratch
      sepc := if a = 0x141 then v &&& ~~~3#64 else h.sepc
      scause := if a = 0x142 then v else h.scause
      stval := if a = 0x143 then v else h.stval
      ssip := if a = 0x144 then v.getLsbD 1 else h.ssip
      stimecmp := if a = 0x14D then v else h.stimecmp
      xfbase := if a = 0x5C0 then v else h.xfbase
      vfpc := if a = 0x5C1 then v else h.vfpc
      vfcause := if a = 0x5C2 then v &&& 0xFF03_03FF#64 else h.vfcause
      vfaddr := if a = 0x5C3 then v else h.vfaddr
      hbase := if a = 0x5C5 then v else h.hbase
      vpal := if a = 0x800 then v else h.vpal
      vfrm := if a = 0x801 then v.extractLsb' 0 3 else h.vfrm
      vfflags := if a = 0x802 then v.extractLsb' 0 6 else h.vfflags
      vstart := if a = 0x803 then fieldOf v 0 11 else h.vstart
      vxmask := if a = 0x804 then v.extractLsb' 0 6 else h.vxmask
      vmspill := if a = 0x806 then v &&& ~~~0x1FF#64 else h.vmspill
      vsptr := if a = 0x807 then v else h.vsptr
      rstat := if a = 0x808 then v &&& 0xFFFF_FFFF_0000_1F1F#64 else h.rstat
      txstat := if a = 0x809 then v &&& 0xFF87_FFFF#64 else h.txstat
      txdeadline := if a = 0x80A then v else h.txdeadline
      hinfo := if a = 0x80B then masked 0xFF_871F_077F#64 h.hinfo v else h.hinfo
      awst := if a = 0x80C then v.extractLsb' 29 3 else h.awst } := by
  unfold Hart.writeCsr
  split
  case h_29 =>
    simp only [imp_false] at *
    simp only [*, if_false]
  all_goals rfl

end Sys2Proof.Machine

namespace Sys2Proof.Machine
open Sys2Proof

/-- Writing rd and moving on changes what instret reads, and no other CSR. -/
theorem readCsr_moved (s : State) (rd : Reg) (v : Word) {b : Nat} (hb : b ≠ 0xC02) :
    ((s.wx rd v).advance 4).goesOn.readCsr b = s.readCsr b := by
  rw [State.wx, Hart.wx_eq]
  unfold State.readCsr
  split
  case h_34 => exact absurd rfl hb
  all_goals rfl

/-- A write of a CSR changes what no other reads, but for the timer bit of sip. -/
theorem readCsr_writeCsr_other (s : State) {a b : Nat} (v : Word) (hb : b ≠ a) (timer : ¬(a = 0x14D ∧ b = 0x144)) :
    ({ s with hart := s.hart.writeCsr a v } : State).readCsr b = s.readCsr b := by
  unfold State.readCsr
  split
  case h_10 =>
    have noTimer : a ≠ 0x14D := fun e => timer ⟨e, rfl⟩
    simp only [Hart.writeCsr_eq, State.readSip, if_neg hb.symm, if_neg noTimer]
  all_goals simp only [Hart.writeCsr_eq, Hart.readSstatus, Hart.readAwctl, if_neg hb.symm]
  all_goals rfl

/-- The low bits of a word, kept as a shorter one and read again. -/
theorem extendLow (v : Word) (n : Nat) :
    wordOf (v.extractLsb' 0 n).toNat = v &&& BitVec.ofNat 64 (2 ^ n - 1) := by
  refine BitVec.eq_of_getLsbD_eq fun k hk => ?_
  rw [wordOf, BitVec.ofNat_toNat, BitVec.getLsbD_setWidth, BitVec.getLsbD_extractLsb', BitVec.getLsbD_and,
    BitVec.getLsbD_ofNat, Nat.testBit_two_pow_sub_one]
  by_cases h : k < n <;> simp [h, hk]

theorem masked_eq (m old v : Word) : masked m old v = (v &&& m) ||| (old &&& ~~~m) := BitVec.or_comm ..

/-- sstatus after a write: its kept bits as written, UXL fixed. -/
theorem sstatus_after (x v : Word) :
    (v &&& 0xC_0122#64 &&& 0xC_0122#64) ||| 0x2_0000_0000#64 =
      (v &&& 0xC_0122#64) ||| (((x &&& 0xC_0122#64) ||| 0x2_0000_0000#64) &&& 0x2_0000_0000#64) := by
  rw [BitVec.and_assoc, BitVec.and_self]
  congr 1
  refine BitVec.eq_of_getLsbD_eq fun k hk => ?_
  rw [BitVec.getLsbD_and, BitVec.getLsbD_or, Bool.and_comm, Bool.and_or_distrib_left, Bool.and_self, Bool.or_eq_right_iff_imp.mpr]
  exact fun h => (Bool.and_eq_true_iff.mp h).1

theorem take_all (v old : Word) : v = (v &&& BitVec.allOnes 64) ||| (old &&& 0#64) := by
  rw [BitVec.and_allOnes, BitVec.and_zero, BitVec.or_zero]

theorem take_masked (m v old : Word) : v &&& m = (v &&& m) ||| (old &&& 0#64) := by simp

theorem take_none (v old : Word) : old = (v &&& 0#64) ||| (old &&& ~~~0#64) := by
  rw [BitVec.not_zero, BitVec.and_allOnes, BitVec.and_zero, BitVec.zero_or]

theorem take_low (n : Nat) (v old : Word) :
    wordOf (v.extractLsb' 0 n).toNat = (v &&& BitVec.ofNat 64 (2 ^ n - 1)) ||| (old &&& 0#64) := by
  rw [extendLow, ← take_masked]

/-- senvcfg after a write: a reserved CBIE leaves CBIE as it was. -/
theorem newSenvcfg_eq (old v : Word) :
    newSenvcfg old v = (v &&& csrTakes 0x10A v) ||| (old &&& ~~~(csrTakes 0x10A v)) := by
  have reserved : fieldOf v 4 2 = 2 ↔ v.extractLsb' 4 2 = 2#2 := by rw [BitVec.toNat_eq]; rfl
  have mask : (if fieldOf v 4 2 = 2 then 0xC1#64 else 0xF1#64) = csrTakes 0x10A v := if_congr reserved rfl rfl
  rw [newSenvcfg, masked_eq, mask]

/-- sip after a write: SSIP as written, STIP as the timer stands. -/
theorem readSip_after (s : State) (v : Word) :
    ({ s with hart := { s.hart with ssip := v.getLsbD 1 } } : State).readSip = (v &&& 2#64) ||| (s.readSip &&& ~~~2#64) := by
  have ssip : (if v.getLsbD 1 then 2#64 else 0#64) = v &&& 2#64 := (BitVec.and_twoPow v 1).symm
  have rest : ∀ (b : Bool) (p : Prop) [Decidable p],
      (if p then 0x20#64 else 0#64) = ((if b then 2#64 else 0#64) ||| (if p then 0x20#64 else 0#64)) &&& ~~~2#64 := by
    intro b p _
    cases b <;> by_cases h : p <;> simp [h]
  show (if v.getLsbD 1 then 2#64 else 0#64) ||| _ = _
  rw [ssip, State.readSip, ← rest]

theorem readAwctl_status (h : Hart) {k : Nat} (lo : 29 ≤ k) (hi : k < 29 + 3) :
    h.readAwctl.getLsbD k = h.awst.toNat.testBit (k - 29) := by
  have hk : k < 64 := by omega
  unfold Hart.readAwctl
  cases h.window with
  | none => simp only [setField_getLsbD _ _ _ _ _ hk, if_pos (And.intro lo hi)]
  | some w =>
    simp only [setField_getLsbD _ _ _ _ _ hk, if_pos (And.intro lo hi), if_neg (show ¬(0 ≤ k ∧ k < 0 + 28) by omega),
      if_neg (show ¬(28 ≤ k ∧ k < 28 + 1) by omega), if_neg (show ¬(32 ≤ k ∧ k < 32 + 4) by omega)]

theorem readAwctl_rest (h : Hart) (st : BitVec 3) {k : Nat} (hk : k < 64) (out : ¬(29 ≤ k ∧ k < 29 + 3)) :
    ({ h with awst := st } : Hart).readAwctl.getLsbD k = h.readAwctl.getLsbD k := by
  unfold Hart.readAwctl
  cases h.window <;> simp only [setField_getLsbD _ _ _ _ _ hk, if_neg out]

/-- awctl after a write: the status as written, the rest as it stood. -/
theorem readAwctl_after (h : Hart) (v : Word) :
    ({ h with awst := v.extractLsb' 29 3 } : Hart).readAwctl = (v &&& 0xE000_0000#64) ||| (h.readAwctl &&& ~~~0xE000_0000#64) := by
  refine BitVec.eq_of_getLsbD_eq fun k hk => ?_
  have mask : (0xE000_0000#64).getLsbD k = decide (29 ≤ k ∧ k < 29 + 3) := by
    show (BitVec.ofNat 64 ((2 ^ 3 - 1) * 2 ^ 29)).getLsbD k = _
    rw [BitVec.getLsbD_ofNat, Nat.testBit_mul_two_pow, Nat.testBit_two_pow_sub_one, ← Bool.decide_and]
    simp only [hk, decide_true, Bool.true_and, decide_eq_decide]
    omega
  rw [BitVec.getLsbD_or, BitVec.getLsbD_and, BitVec.getLsbD_and, BitVec.getLsbD_not, mask]
  by_cases status : 29 ≤ k ∧ k < 29 + 3
  · obtain ⟨lo, hi⟩ := status
    rw [readAwctl_status _ lo hi, BitVec.testBit_toNat, BitVec.getLsbD_extractLsb', Nat.add_sub_cancel' lo]
    simp [lo, hi, show k - 29 < 3 by omega]
  · rw [readAwctl_rest h _ hk status]
    simp [status, hk]

theorem readCsr_writeCsr_same {s : State} {a : Nat} {old v : Word} (reads : s.readCsr a = some old)
    (allowed : s.hart.csrAllowed a true = true) (noMask : a ≠ 0x805) :
    ({ s with hart := s.hart.writeCsr a v } : State).readCsr a = some (csrAfter a old v) := by
  have low : ¬ 0xC00 ≤ a := fun h => by
    rw [csrAllowed_write_readonly h] at allowed
    cases allowed
  unfold State.readCsr at reads
  split at reads
  case h_44 => cases reads
  all_goals cases reads
  case h_1 => exact congrArg some (sstatus_after s.hart.sstatus v)
  case h_5 => exact congrArg some (newSenvcfg_eq s.hart.senvcfg v)
  case h_10 => exact congrArg some (readSip_after s v)
  case h_12 => exact congrArg some (take_none v s.hart.satp)
  case h_17 => exact congrArg some (take_none v s.hart.trroute)
  case h_20 => exact congrArg some (take_low 3 v (wordOf s.hart.vfrm.toNat))
  case h_21 => exact congrArg some (take_low 6 v (wordOf s.hart.vfflags.toNat))
  case h_22 => exact congrArg some (take_low 11 v (wordOf s.hart.vstart))
  case h_23 => exact congrArg some (take_low 6 v (wordOf s.hart.vxmask.toNat))
  case h_24 => exact absurd rfl noMask
  case h_30 => exact congrArg some (masked_eq (csrTakes 0x80B v) s.hart.hinfo v)
  case h_31 => exact congrArg some (readAwctl_after s.hart v)
  case h_2 | h_3 | h_4 | h_7 | h_15 | h_25 | h_27 | h_28 => exact congrArg some (take_masked _ v _)
  case h_6 | h_8 | h_9 | h_11 | h_13 | h_14 | h_16 | h_18 | h_19 | h_26 | h_29 => exact congrArg some (take_all v _)
  all_goals exact absurd (by decide) low

end Sys2Proof.Machine

namespace Sys2Proof.Machine
open Sys2Proof

/-! ## The six CSR instructions -/

section
variable {i : Instr} {csr : BitVec 12} {rd : Reg} {old : Word} {s : State}

theorem writeCsr_apply {a : Nat} (noMask : a ≠ 0x805) (v : Word) (s : State) :
    writeCsr a v s = .ok () { s with hart := s.hart.writeCsr a v } := by
  unfold writeCsr
  rw [if_neg noMask, modH_apply]

/-- A CSR instruction whose CSR is there and allowed, with the queues empty under rule D: f is the new value from the
old one, if it writes. -/
theorem csrOp_ok {f : Option (Word → Word)} (reads : s.readCsr csr.toNat = some old) (htx : s.hart.tx = none)
    (ruleD : isRuleD csr.toNat = true → s.hart.vq = [] ∧ s.hart.mq = [])
    (allowed : s.hart.csrAllowed csr.toNat f.isSome = true) (noMask : f.isSome = true → csr.toNat ≠ 0x805) :
    csrOp i csr rd f s = .ok () ((({ s with
      hart := f.elim s.hart fun g => s.hart.writeCsr csr.toNat (g old) } : State).wx rd old).advance 4) := by
  have drained : isRuleD csr.toNat = true → s.hart.drained = true := fun r =>
    Hart.drained_of_empty (ruleD r).1 (ruleD r).2
  unfold csrOp
  rw [M.bind_ok (M.get_apply s), reads]
  simp only
  rw [M.bind_ok (csrTx_outside htx), M.bind_ok (getH_apply s), if_neg (by rw [allowed]; decide)]
  by_cases r : isRuleD csr.toNat = true
  · rw [if_pos r, M.bind_ok (drain_drained (drained r)), M.bind_ok (M.get_apply s), reads]
    cases f with
    | none => rfl
    | some g => exact M.bind_ok (writeCsr_apply (noMask rfl) (g old) s)
  · rw [if_neg r, M.bind_ok (M.get_apply s), reads]
    cases f with
    | none => rfl
    | some g => exact M.bind_ok (writeCsr_apply (noMask rfl) (g old) s)

theorem csrReads_of (run : exec i s = runScalar (csrOp i csr rd none) s) (reads : s.readCsr csr.toNat = some old)
    (htx : s.hart.tx = none) (ruleD : isRuleD csr.toNat = true → s.hart.vq = [] ∧ s.hart.mq = [])
    (allowed : s.hart.csrAllowed csr.toNat false = true) : csrReads i s rd old := by
  rw [csrReads, run]
  exact runScalar_writes s rd old (csrOp_ok reads htx ruleD allowed fun h => by cases h)

theorem csrWrites_of {g : Word → Word} (run : exec i s = runScalar (csrOp i csr rd (some g)) s)
    (reads : s.readCsr csr.toNat = some old) (htx : s.hart.tx = none)
    (ruleD : isRuleD csr.toNat = true → s.hart.vq = [] ∧ s.hart.mq = [])
    (allowed : s.hart.csrAllowed csr.toNat true = true) (noMask : csr.toNat ≠ 0x805) :
    csrWrites i s csr.toNat rd old (g old) := by
  let s1 : State := { s with hart := s.hart.writeCsr csr.toNat (g old) }
  have ran : exec i s = .next ((s1.wx rd old).advance 4).goesOn :=
    run.trans (runScalar_ok (csrOp_ok reads htx ruleD allowed fun _ => noMask))
  obtain ⟨sets, moves, -⟩ := wx_advance_goesOn s1 rd old 4
  have x : s1.hart.x = s.hart.x := by simp only [s1, Hart.writeCsr_eq]
  have pc : s1.hart.pc = s.hart.pc := by simp only [s1, Hart.writeCsr_eq]
  rw [setsReg_congr x] at sets
  rw [movesOn, pc] at moves
  have low : csr.toNat ≠ 0xC02 := fun h => by
    rw [csrAllowed_write_readonly (by omega)] at allowed
    cases allowed
  refine ⟨_, ran, sets, moves, ?_, fun b hb instret timer => ?_, rfl, ?_⟩
  · rw [readCsr_moved s1 rd old low]
    exact readCsr_writeCsr_same reads allowed noMask
  · rw [readCsr_moved s1 rd old instret]
    exact readCsr_writeCsr_other s (g old) hb timer
  · simp [s1, Hart.writeCsr_eq]

end

/-- Settles O14: one Zicsr operation that reads and one that writes; what the CSRs read afterwards follows from the write
field by field. -/
theorem csrInstructions : Obligations.CsrInstructions := by
  unfold Obligations.CsrInstructions
  intro s csr rd rs1 old reads htx ruleD a u
  refine ⟨fun allowed => ?_, fun allowed noMask => ?_⟩
  · exact ⟨csrReads_of rfl reads htx ruleD allowed, csrReads_of rfl reads htx ruleD allowed,
      csrReads_of rfl reads htx ruleD allowed, csrReads_of rfl reads htx ruleD allowed⟩
  · refine ⟨csrWrites_of (g := fun _ => s.hart.rx rs1) rfl reads htx ruleD allowed noMask,
      csrWrites_of (g := fun _ => u) rfl reads htx ruleD allowed noMask, fun h0 => ?_⟩
    have writes : ∀ i g, runScalar (csrOp i csr rd (if rs1 = 0#5 then none else some g)) s =
        runScalar (csrOp i csr rd (some g)) s := fun i g => by rw [if_neg h0]
    exact ⟨csrWrites_of (g := fun o => o ||| s.hart.rx rs1) (writes _ _) reads htx ruleD allowed noMask,
      csrWrites_of (g := fun o => o &&& ~~~(s.hart.rx rs1)) (writes _ _) reads htx ruleD allowed noMask,
      csrWrites_of (g := fun o => o ||| u) (writes _ _) reads htx ruleD allowed noMask,
      csrWrites_of (g := fun o => o &&& ~~~u) (writes _ _) reads htx ruleD allowed noMask⟩

end Sys2Proof.Machine

namespace Sys2Proof.Machine
open Sys2Proof

/-! ## A vector instruction dispatched on a quiet hart, with or without an lq entry for vl -/

/-- The context of an instruction at its dispatch; the entry also notes the element that it begins at. -/
def State.taken (s : State) (i : Instr) (w : WWord) : VCtx :=
  { s.context i w false with e := { (s.context i w false).e with first := s.hart.vstart } }

/-- The state in which the instruction's own effect runs: its entry is alone in VQ, and its lq entry is taken. -/
def State.atDispatch (s : State) (i : Instr) (w : WWord) : State :=
  { s.popped w false with hart := { (s.popped w false).hart with
      vq := [(s.taken i w).e], seq := s.hart.seq + 1, pc := s.hart.pc + 8#64, instret := s.hart.instret + 1 } }

/-- What an instruction word captures on the hart. -/
def State.capturedBy (s : State) (w : WWord) : Captured := s.hart.capture w.xp w.vs1 w.vs2 w.vs3

theorem setVqHead_apply {s : State} {e d : QEntry} {l : List QEntry} (hq : s.hart.vq = e :: l) :
    setVqHead d s = .ok () { s with hart := { s.hart with vq := d :: l } } := by
  unfold setVqHead
  rw [modH_apply, hq]

theorem atomically_ok {α : Type} {m : M α} {s t : State} {a : α} (h : m s = .ok a t) : atomically m s = .ok a t := by
  unfold atomically; rw [h]

/-- The vl that popping leaves in an entry, from the lq entries of a state. -/
def State.vlTaken (s : State) (w : WWord) (e : QEntry) : Nat :=
  if w.lqv = 1#1 then min (s.hart.lq.headD 0#32).toNat (vlmaxOf e.cap.width.toNat e.cap.level.toNat) else e.cap.vl

theorem popOperands_lq {s : State} {w : WWord} {e : QEntry} {l : List QEntry} (hr : e.ready = false)
    (hl : w.lqv = 1#1 → s.hart.lq ≠ []) (hq : s.hart.vq = e :: l) :
    let d := { e with ready := true, first := s.hart.vstart, cap := { e.cap with vl := s.vlTaken w e } }
    popOperands w e false s = .ok d { s with hart := { s.hart with
      vq := d :: l, lq := if w.lqv = 1#1 then s.hart.lq.tail else s.hart.lq } } := by
  intro d
  unfold popOperands
  rw [if_neg (by rw [hr]; decide), M.bind_ok (getH_apply s)]
  refine atomically_ok ?_
  by_cases lqv : w.lqv = 1#1
  · obtain ⟨n, rest, front⟩ := List.exists_cons_of_ne_nil (hl lqv)
    have pop : popLq e (vlmaxOf e.cap.width.toNat e.cap.level.toNat) s =
        .ok (s.vlTaken w e) { s with hart := { s.hart with lq := rest } } := by
      unfold popLq
      rw [M.bind_ok (getH_apply s), State.vlTaken, if_pos lqv, front]
      rfl
    simp only [if_pos lqv, front, List.tail_cons]
    rw [M.bind_ok pop]
    show (setVqHead d >>= fun _ => pure d) _ = _
    exact M.bind_ok (setVqHead_apply hq)
  · have vl : e.cap.vl = s.vlTaken w e := by rw [State.vlTaken, if_neg lqv]
    simp only [if_neg lqv, vl]
    show (setVqHead d >>= fun _ => pure d) s = _
    exact M.bind_ok (setVqHead_apply hq)

theorem rm_eq_seven (w : WWord) : w.rm.toNat = 7 ↔ w.rm = 7#3 := by rw [BitVec.toNat_eq]; rfl

/-- Dispatch on a quiet hart: the context is the one that the instruction captured and took. -/
theorem dispatchV_quiet {s : State} {i : Instr} {w : WWord} (d : s.dispatches w false) (hs : streamOf i = 1) :
    dispatchV w (s.entryOf i (s.capturedBy w)) false (s.atHead i (s.capturedBy w) 8) =
      .ok (s.taken i w) (s.atDispatch i w) := by
  obtain ⟨⟨-, hm, -⟩, hrm, hl, -⟩ := d
  have head : (s.atHead i (s.capturedBy w) 8).hart.vq = s.entryOf i (s.capturedBy w) :: [] := if_pos hs
  have rounding : roundingMode (s.entryOf i (s.capturedBy w)) w.rm.toNat (s.atHead i (s.capturedBy w) 8) =
      .ok (s.taken i w).rm (s.atHead i (s.capturedBy w) 8) := by
    rw [roundingMode_ok fun h => hrm ((rm_eq_seven w).mp h)]
    exact congrArg (fun n => EStateM.Result.ok n _) (if_congr (rm_eq_seven w) rfl rfl)
  have pops := popOperands_lq (s := s.atHead i (s.capturedBy w) 8) (e := s.entryOf i (s.capturedBy w)) rfl hl head
  have vl : (s.atHead i (s.capturedBy w) 8).vlTaken w (s.entryOf i (s.capturedBy w)) = s.vlOf w := rfl
  unfold dispatchV
  show (roundingMode (s.entryOf i (s.capturedBy w)) w.rm.toNat >>= fun rm =>
    popOperands w (s.entryOf i (s.capturedBy w)) false >>= fun e1 => getH >>= fun h => (pure {
      w := w, e := e1, vl := e1.cap.vl, vlmax := vlmaxOf e1.cap.width.toNat e1.cap.level.toNat,
      bits := widthBits e1.cap.width.toNat, mask := h.rp w.pg.toNat &&& h.currentMask, rm := rm, again := false } : M VCtx)) _ = _
  rw [M.bind_ok rounding, M.bind_ok pops, M.bind_ok (getH_apply _), vl]
  refine congrArg (EStateM.Result.ok (s.taken i w)) ?_
  unfold State.atDispatch State.atHead State.popped
  rw [if_neg (show ¬ streamOf i = 2 by omega), ← hm]
  rfl

end Sys2Proof.Machine

namespace Sys2Proof.Machine
open Sys2Proof

/-- An instruction of the vector stream on a quiet hart that completes at once. -/
theorem issueW_completes {s u : State} {i : Instr} {w : WWord} (q : s.hart.quiet) (hs : streamOf i = 1)
    (run : runEntry (s.entryOf i (s.capturedBy w)) (s.atHead i (s.capturedBy w) 8) = .ok () u)
    (hv : u.hart.vq.tail = []) (hm : u.hart.mq = s.hart.mq) (hf : u.hart.faults = s.hart.faults) :
    s.issueW i w = .next { u with hart := { u.hart with vq := s.hart.vq, held := none } } := by
  obtain ⟨noV, noM, noF, -⟩ := id q
  rw [noV]
  exact issue_vector q hs run hv (hm.trans noM) (hf.trans noF)

/-! ## The mask stack -/

/-- A state whose vector instruction has completed with a depth and entries for the mask stack. -/
def State.withMasks (s : State) (n : Nat) (l : List MaskEntry) : State :=
  { s with hart := { s.hart with vstart := 0, vmsp := n, masks := l } }

/-- Completion after an effect that is all or nothing and has left vstart at 0. -/
theorem atomically_completes {m : M Unit} {s d : State} {n : Nat} {l : List MaskEntry}
    (h : m s = .ok () (d.withMasks n l)) : (atomically m >>= fun _ => completeV) s = .ok () (d.withMasks n l) :=
  M.bind_ok (atomically_ok h)

/-- The mask that VMPUSH narrows to. -/
def pushedMask (h : Hart) (p : Nat) : BitVec 2048 := h.currentMask &&& (h.rp p &&& lowMask (256 * 2 ^ h.level))

theorem pushedMask_getLsbD (h : Hart) (p k : Nat) (hk : k < 2048) :
    (pushedMask h p).getLsbD k =
      (h.currentMask.getLsbD k && (h.rp p).getLsbD k && decide (k < 256 * 2 ^ (h.vgrant.extractLsb' 2 2).toNat)) := by
  rw [pushedMask, BitVec.getLsbD_and, BitVec.getLsbD_and, lowMask, BitVec.getLsbD_ofNat, Nat.testBit_two_pow_sub_one,
    decide_eq_true hk, Bool.true_and, Bool.and_assoc]
  rfl

section
variable {w : WWord} {e : QEntry} {c : VCtx} {s d : State} (disp : dispatchV w e false s = .ok c d)
include disp

theorem runVmpush_ok (room : d.hart.vmsp < 16) :
    runVmpush w e s = .ok () (d.withMasks (d.hart.vmsp + 1)
      ({ saved := d.hart.currentMask, branch := pushedMask d.hart w.vs1.toNat } :: d.hart.masks.take 15)) := by
  unfold runVmpush
  rw [M.bind_ok disp, atStart, M.bind_ok (modH_apply _ _)]
  refine atomically_completes ?_
  rw [M.bind_ok (getH_apply _), if_neg (show ¬ d.hart.vmsp = 256 by omega), if_neg (show ¬ 16 ≤ d.hart.vmsp by omega)]
  rfl

theorem runVmelse_ok {m : MaskEntry} {l : List MaskEntry} (top : d.hart.masks = m :: l) (pos : 0 < d.hart.vmsp) :
    runVmelse w e s = .ok () (d.withMasks d.hart.vmsp ({ m with branch := m.saved &&& ~~~m.branch } :: l)) := by
  unfold runVmelse
  rw [M.bind_ok disp, atStart, M.bind_ok (modH_apply _ _), M.bind_ok (modH_apply _ _), M.bind_ok (getH_apply _)]
  simp only [top]
  rw [if_neg (show ¬ d.hart.vmsp = 0 by omega)]
  rfl

theorem runVmpop_ok (pos : 0 < d.hart.vmsp) (held : d.hart.vmsp ≤ 16) :
    runVmpop w e s = .ok () (d.withMasks (d.hart.vmsp - 1) d.hart.masks.tail) := by
  unfold runVmpop
  rw [M.bind_ok disp, atStart, M.bind_ok (modH_apply _ _), ← List.drop_one]
  refine atomically_completes ?_
  rw [M.bind_ok (getH_apply _), if_neg (show ¬ d.hart.vmsp = 0 by omega)]
  beta_reduce
  rw [M.bind_ok (modH_apply _ _), if_neg (show ¬ 16 ≤ d.hart.vmsp - 1 by omega)]
  rfl

end

/-- A mask-stack instruction has given the stack a depth and entries; it has changed no register, predicate or flag. -/
def maskDone (s t : State) (w : WWord) (n : Nat) (l : List MaskEntry) : Prop :=
  vectorDone { s with hart := { s.hart with vmsp := n, masks := l } } t w false ∧ t.hart.v = s.hart.v ∧
    t.hart.p = s.hart.p ∧ t.hart.vfflags = s.hart.vfflags

theorem maskDone_of {s : State} {i : Instr} {w : WWord} {n : Nat} {l : List MaskEntry} (q : s.hart.quiet)
    (hs : streamOf i = 1)
    (run : runEntry (s.entryOf i (s.capturedBy w)) (s.atHead i (s.capturedBy w) 8) =
      .ok () ((s.atDispatch i w).withMasks n l)) :
    reaches (s.issueW i w) fun t => maskDone s t w n l :=
  ⟨_, issueW_completes q hs run rfl rfl rfl, rfl, rfl, rfl, rfl⟩

theorem maskStack (s : State) (w : WWord) (d : s.dispatches w false) :
    (s.hart.vmsp < 16 → reaches (exec (.vmpush w) s) fun t => ∃ b : BitVec 2048,
      (∀ k, k < 2048 → b.getLsbD k = (s.hart.currentMask.getLsbD k && (s.hart.rp w.vs1.toNat).getLsbD k &&
        decide (k < 256 * 2 ^ (s.hart.vgrant.extractLsb' 2 2).toNat))) ∧
      maskDone s t w (s.hart.vmsp + 1) ({ saved := s.hart.currentMask, branch := b } :: s.hart.masks.take 15)) ∧
    (∀ m l, s.hart.masks = m :: l → 0 < s.hart.vmsp → reaches (exec (.vmelse w) s) fun t =>
      maskDone s t w s.hart.vmsp ({ m with branch := m.saved &&& ~~~m.branch } :: l)) ∧
    (0 < s.hart.vmsp → s.hart.vmsp ≤ 16 → reaches (exec (.vmpop w) s) fun t =>
      maskDone s t w (s.hart.vmsp - 1) s.hart.masks.tail) := by
  refine ⟨fun room => ?_, fun m l top pos => ?_, fun pos held => ?_⟩
  · obtain ⟨t, ran, done⟩ := maskDone_of (i := .vmpush w) (n := s.hart.vmsp + 1)
      (l := { saved := s.hart.currentMask, branch := pushedMask s.hart w.vs1.toNat } :: s.hart.masks.take 15) d.1 rfl
      (runVmpush_ok (dispatchV_quiet d rfl) room)
    exact ⟨t, ran, pushedMask s.hart w.vs1.toNat, pushedMask_getLsbD s.hart w.vs1.toNat, done⟩
  · exact maskDone_of d.1 rfl (runVmelse_ok (dispatchV_quiet (i := .vmelse w) d rfl) top pos)
  · exact maskDone_of d.1 rfl (runVmpop_ok (dispatchV_quiet (i := .vmpop w) d rfl) pos held)

end Sys2Proof.Machine

namespace Sys2Proof.Machine
open Sys2Proof

/-! ## Elements and counts for the scalar stream -/

theorem deliver_unbound {c : VCtx} {lo hi reg : Nat} {s : State} (h : s.hart.binding reg = none) :
    deliver c lo hi reg s = .ok none s := by
  unfold deliver
  rw [M.bind_ok (getH_apply s), h]
  rfl

/-- The one source of an instruction, where it is not bound: the register as it stands. -/
def plainSource (c : VCtx) (s : State) (reg lo : Nat) : Sources :=
  { regs := [(reg, s.hart.rv reg)], dels := [], lo := lo, bits := c.bits }

theorem sources_unbound {c : VCtx} {lo hi reg : Nat} {s : State} (h : s.hart.binding reg = none) :
    sources c [reg] lo hi s = .ok (plainSource c s reg lo) s := by
  have one : [reg].eraseDups = [reg] := by simp [List.eraseDups_cons]
  have none_delivered : [reg].filterMapM (fun r => deliver c lo hi r) s = .ok [] s := by
    rw [List.filterMapM_cons, M.bind_ok (deliver_unbound h)]
    rfl
  unfold sources
  simp only [one]
  rw [M.bind_ok none_delivered]
  rfl

theorem plainSource_get (c : VCtx) (s : State) (reg lo : Nat) : (plainSource c s reg lo).get reg = s.hart.rv reg := by
  simp [plainSource, Sources.get]

theorem consumeAll_plain (c : VCtx) (s t : State) (reg lo n : Nat) : consumeAll (plainSource c s reg lo) n t = .ok () t := by
  unfold consumeAll
  exact forM'_same fun i _ => rfl

theorem wholeSource_unbound {c : VCtx} {reg : Nat} {s : State} (h : s.hart.binding reg = none) :
    wholeSource c reg s =
      .ok (plainSource c s reg 0) { s with hart := { s.hart with vstart := 0 } } := by
  unfold wholeSource
  rw [M.bind_ok (modH_apply _ s)]
  exact sources_unbound (s := { s with hart := { s.hart with vstart := 0 } }) h

theorem binding_none {h : Hart} (hb : h.bindings = []) (reg : Nat) : h.binding reg = none := by
  rw [Hart.binding, hb]; rfl

theorem vectorFault_ok {α : Type} {m : M α} {s t : State} {a : α} (h : m s = .ok a t) : vectorFault m s = .ok a t := by
  unfold vectorFault; rw [h]

/-- VMVX on a quiet hart. -/
theorem vmvx_effect {s : State} {w : WWord} (q : s.hart.quiet) :
    let v := extendElem (s.hart.rv w.vs1.toNat) s.bits s.hart.vlmax (moveIndex s w) (w.vs3 == 1#5)
    reaches (exec (.vmvx w) s) fun t =>
      setsReg s t w.vd v ∧ movesOn s t 8 ∧ scalarOnly { s with hart := { s.hart with vstart := 0 } } t := by
  intro v
  obtain ⟨noV, noM, -, unbound, -⟩ := id q
  refine runScalar_writes { s with hart := { s.hart with vstart := 0 } } w.vd v ?_
  have idle : (!s.hart.vq.isEmpty || s.hart.mq.any fun m => (writesV m.instr).contains w.vs1.toNat) = false := by
    rw [noV, noM]; rfl
  rw [M.bind_ok (getH_apply s), if_neg (by rw [idle]; decide)]
  refine (M.bind_ok (vectorFault_ok (a := s.hart.rv w.vs1.toNat) ?_)).trans rfl
  rw [M.bind_ok (wholeSource_unbound (binding_none unbound _)), M.bind_ok (consumeAll_plain ..), plainSource_get]
  rfl

/-- A state whose vector instruction has completed with entries for the q registers and lq. -/
def State.withQueues (s : State) (q : Vector (List Word) 8) (lq : List (BitVec 32)) : State :=
  { s with hart := { s.hart with vstart := 0, q := q, lq := lq } }

theorem wholeVector_ok {e : QEntry} {s : State} (h0 : s.hart.vstart = 0) (hs : e.start = none) : wholeVector e s = .ok () s := by
  unfold wholeVector requireV
  rw [M.bind_ok (getH_apply s), hs, Option.getD_none, h0]
  rfl

section
variable {w : WWord} {e : QEntry} {c : VCtx} {s d : State} (disp : dispatchV w e false s = .ok c d)
include disp

theorem runVmvq_ok (unbound : d.hart.bindings = []) (hk : w.vd.toNat < 8) (room : d.hart.q[w.vd.toNat].length < 8) :
    runVmvq w e s = .ok () (d.withQueues (d.hart.q.set w.vd.toNat (d.hart.q[w.vd.toNat] ++
      [extendElem (d.hart.rv w.vs1.toNat) c.bits c.vlmax c.amount (w.vs3 == 1#5)])) d.hart.lq) := by
  unfold runVmvq
  rw [M.bind_ok disp, M.bind_ok (wholeSource_unbound (binding_none unbound _)), M.bind_ok (getH_apply _)]
  simp only
  rw [dif_pos hk, if_neg (Nat.not_le.mpr room), M.bind_ok (consumeAll_plain ..), plainSource_get]
  rfl

theorem runVpcnt_q (h0 : s.hart.vstart = 0) (hs : e.start = none) (nz : w.vd ≠ 0#5) (hk : w.vd.toNat < 8)
    (room : d.hart.q[w.vd.toNat].length < 8) :
    runVpcnt w e s = .ok () (d.withQueues (d.hart.q.set w.vd.toNat (d.hart.q[w.vd.toNat] ++
      [wordOf (c.setIn (d.hart.rp w.vs1.toNat)).length])) d.hart.lq) := by
  have nz' : ¬ w.vd.toNat = 0 := fun h => nz (BitVec.eq_of_toNat_eq h)
  unfold runVpcnt
  rw [M.bind_ok (wholeVector_ok h0 hs), M.bind_ok disp, M.bind_ok (getH_apply d)]
  simp only
  rw [if_neg nz', dif_pos hk, if_neg (Nat.not_le.mpr room)]
  rfl

theorem runVpcnt_lq (h0 : s.hart.vstart = 0) (hs : e.start = none) (zero : w.vd = 0#5) (room : d.hart.lq.length < 8) :
    runVpcnt w e s = .ok () (d.withQueues d.hart.q
      (d.hart.lq ++ [BitVec.ofNat 32 (c.setIn (d.hart.rp w.vs1.toNat)).length])) := by
  have zero' : w.vd.toNat = 0 := by rw [zero]; rfl
  unfold runVpcnt
  rw [M.bind_ok (wholeVector_ok h0 hs), M.bind_ok disp, M.bind_ok (getH_apply d)]
  simp only
  rw [if_pos zero', if_neg (Nat.not_le.mpr room)]
  rfl

end

/-- An instruction has given the queues of the scalar stream entries; of the hart nothing else has changed. -/
def queuesDone (s t : State) (q : Vector (List Word) 8) (lq : List (BitVec 32)) : Prop :=
  t = { s with hart := { s.hart with
    q := t.hart.q, lq := t.hart.lq, vstart := 0, pc := s.hart.pc + 8#64, instret := s.hart.instret + 1,
    seq := s.hart.seq + 1, held := none } } ∧ t.hart.lq = lq ∧ t.hart.q = q

theorem queuesDone_of {s : State} {i : Instr} {w : WWord} {q : Vector (List Word) 8} {lq : List (BitVec 32)}
    (quiet : s.hart.quiet) (hs : streamOf i = 1)
    (run : runEntry (s.entryOf i (s.capturedBy w)) (s.atHead i (s.capturedBy w) 8) =
      .ok () ((s.atDispatch i w).withQueues q lq)) :
    reaches (s.issueW i w) fun t => queuesDone s t q lq := by
  refine ⟨_, issueW_completes quiet hs run rfl rfl rfl, ?_, rfl, rfl⟩
  unfold State.withQueues State.atDispatch State.popped
  rfl

/-- The element that VMVX and VMVQ give, in the words of R127. -/
theorem extendElem_eq (s : State) (w : WWord) (j : Nat) :
    extendElem (s.hart.rv w.vs1.toNat) s.bits s.hart.vlmax j (w.vs3 == 1#5) =
      if s.hart.vlmax ≤ j then 0#64
      else if w.vs3 = 1#5 then BitVec.ofNat 64 (s.el w.vs1 j)
      else BitVec.ofInt 64 (decodeInt true s.bits (s.el w.vs1 j)) := by
  unfold extendElem
  simp only [beq_iff_eq]
  rfl

/-- Settles O24: each instruction is dispatched on the quiet hart, and its effect then runs at once. -/
theorem maskStackAndScalarResults : Obligations.MaskStackAndScalarResults := by
  unfold Obligations.MaskStackAndScalarResults
  refine ⟨fun s w d => maskStack s w d, fun s w => ?_⟩
  simp only [← extendElem_eq]
  refine ⟨fun q => vmvx_effect q, fun hk => ⟨fun d room => ?_, fun d h0 nz room => ?_, fun d h0 zero room => ?_⟩⟩
  · exact queuesDone_of d.1 rfl (runVmvq_ok (dispatchV_quiet (i := .vmvq w) d rfl) d.1.2.2.2.1 hk room)
  · exact queuesDone_of d.1 rfl (runVpcnt_q (dispatchV_quiet (i := .vpcnt w) d rfl) h0 rfl nz hk room)
  · obtain ⟨t, ran, done, lq, q⟩ :=
      queuesDone_of (i := .vpcnt w) d.1 rfl (runVpcnt_lq (dispatchV_quiet (i := .vpcnt w) d rfl) h0 rfl zero room)
    exact ⟨t, ran, done, q, lq⟩

end Sys2Proof.Machine

namespace Sys2Proof.Machine
open Sys2Proof

/-! ## The hart whose turn it is, and the others -/

theorem hartAt_of_hart {s : State} {id : HartId} (h : s.hart.id = id) : s.hartAt id = s.hart := by
  simp [State.hartAt, State.findHart, State.harts, h]

theorem focus_hart (s : State) (id : HartId) : (s.focus id).hart = s.hartAt id := by
  unfold State.focus
  by_cases here : s.hart.id = id
  · rw [if_pos here, hartAt_of_hart here]
  · rw [if_neg here]
    have rest : s.hartAt id = (s.others.find? fun h => h.id == id).getD (Hart.reset id) := by
      simp [State.hartAt, State.findHart, State.harts, here]
    rw [rest]
    split
    · next found => rw [found]; rfl
    · next missing => rw [missing]; rfl

theorem hartAt_id (s : State) (id : HartId) : (s.hartAt id).id = id := by
  unfold State.hartAt
  cases found : s.findHart id with
  | none => rfl
  | some h => simpa using List.find?_some found

theorem focus_id (s : State) (id : HartId) : (s.focus id).hart.id = id := by rw [focus_hart, hartAt_id]

/-- Giving the turn to another hart leaves the hart that had it as it is. -/
theorem focus_hartAt {s : State} {id : HartId} (me : HartId) (h : s.hart.id = id) : (s.focus me).hartAt id = s.hart := by
  unfold State.focus
  by_cases here : s.hart.id = me
  · rw [if_pos here, hartAt_of_hart h]
  · rw [if_neg here]
    have other : ¬ me = id := fun e => here (h.trans e.symm)
    split
    · next k found =>
      have kid : k.id = me := by simpa using List.find?_some found
      simp [State.hartAt, State.findHart, State.harts, h, kid, other]
    · simp [State.hartAt, State.findHart, State.harts, h, other, Hart.reset]

theorem focus_mem (s : State) (id : HartId) : (s.focus id).mem = s.mem := by
  unfold State.focus
  split
  · rfl
  · split <;> rfl

/-- A change of every hart that keeps their names, seen at one of them. -/
theorem findHart_mapHarts (s : State) (f : Hart → Hart) (hf : ∀ h, (f h).id = h.id) (id : HartId) :
    (s.mapHarts f).findHart id = (s.findHart id).map f := by
  show ((s.hart :: s.others).map f).find? (fun h => h.id == id) = ((s.hart :: s.others).find? _).map f
  rw [List.find?_map]
  exact congrArg (Option.map f) (congrArg (fun p => List.find? p _) (funext fun h => by simp [hf]))

theorem modHart_same {s : State} {id : HartId} {f : Hart → Hart} (hf : ∀ h, (f h).id = h.id) {k : Hart}
    (found : s.findHart id = some k) : (s.modHart id f).hartAt id = f k := by
  have kid : k.id = id := by simpa using List.find?_some found
  unfold State.hartAt State.modHart
  rw [findHart_mapHarts s _ (fun h => by split <;> simp [hf]), found, Option.map_some, Option.getD_some, if_pos kid]

theorem modHart_other {s : State} {id g : HartId} {f : Hart → Hart} (hf : ∀ h, (f h).id = h.id) (other : g ≠ id) :
    (s.modHart id f).hartAt g = s.hartAt g := by
  unfold State.hartAt State.modHart
  rw [findHart_mapHarts s _ (fun h => by split <;> simp [hf])]
  cases found : s.findHart g with
  | none => rfl
  | some k =>
    have kid : k.id = g := by simpa using List.find?_some found
    simp [kid, other]

/-- A hart with one more fault of its streams. -/
def Hart.withFault (h : Hart) (f : StreamFault) : Hart := { h with faults := h.faults ++ [f] }

/-- The fault of an MMAC that has waited too long. -/
def ownershipFault (e : QEntry) (va : Word) : StreamFault :=
  { seq := e.seq, pc := e.pc, stream := 2, cause := 25, sub := 3, addr := va, tval := 0#64, vstart := 0 }

/-- OWNERSHIP_TIMEOUT as the statement about it says: the fault joins the hart's list. -/
theorem ownershipTimeout_faults {s : State} {h : HartId} {e : QEntry} {w : WWord} {va : Word} {rest : List QEntry}
    (limit : (s.cluster h.clusterId).mtimeout.extractLsb' 0 32 ≠ 0#32) (head : (s.hartAt h).mq = e :: rest)
    (mmac : e.instr = .mmac w) (fresh : ∀ x, x ∈ (s.hartAt h).faults → x.seq ≠ e.seq)
    (expired : timedOut e w (s.focus h) = some va) :
    reaches (exec (.ownershipTimeout h) s) fun t =>
      t.mem = s.mem ∧ hartBecomes s t h ((s.hartAt h).withFault (ownershipFault e va)) := by
  have limit' : ¬ fieldOf (s.cluster h.clusterId).mtimeout 0 32 = 0 := fun z => limit (BitVec.eq_of_toNat_eq z)
  have fresh' : ((s.hartAt h).faults.any fun f => f.seq == e.seq) = false := by
    simpa [List.any_eq_false] using fresh
  have found : s.findHart h = some (s.hartAt h) := by
    unfold State.hartAt at head ⊢
    cases f : s.findHart h with
    | some x => rfl
    | none => rw [f] at head; cases head
  have ran : exec (.ownershipTimeout h) s = .next (s.modHart h fun k => k.withFault (ownershipFault e va)) := by
    show execOwnershipTimeout h s = _
    unfold execOwnershipTimeout
    simp only [if_neg limit', head, List.head?_cons, mmac, fresh', expired, Bool.false_eq_true, if_false]
    rfl
  have named : ∀ k : Hart, (k.withFault (ownershipFault e va)).id = k.id := fun _ => rfl
  exact ⟨_, ran, rfl, modHart_same named found, fun g other => modHart_other named other⟩

end Sys2Proof.Machine

namespace Sys2Proof.Machine
open Sys2Proof

/-! ## What writes of lines leave of a hart -/

/-- k is h but for a reservation that may have ended and a transaction that may be doomed. -/
def marksOnly (h k : Hart) : Prop :=
  (k = { h with reservation := k.reservation, tx := k.tx }) ∧ k.heldLines = h.heldLines

theorem marksOnly.refl (h : Hart) : marksOnly h h := ⟨rfl, rfl⟩

theorem marksOnly.trans {a b c : Hart} (h : marksOnly a b) (k : marksOnly b c) : marksOnly a c := by
  obtain ⟨hb, lb⟩ := h
  obtain ⟨hc, lc⟩ := k
  refine ⟨?_, lc.trans lb⟩
  rw [hc, hb]

theorem marksOnly.id_eq {h k : Hart} (m : marksOnly h k) : k.id = h.id := by rw [m.1]
theorem marksOnly.x_eq {h k : Hart} (m : marksOnly h k) : k.x = h.x := by rw [m.1]
theorem marksOnly.pc_eq {h k : Hart} (m : marksOnly h k) : k.pc = h.pc := by rw [m.1]
theorem marksOnly.p_eq {h k : Hart} (m : marksOnly h k) : k.p = h.p := by rw [m.1]
theorem marksOnly.v_eq {h k : Hart} (m : marksOnly h k) : k.v = h.v := by rw [m.1]
theorem marksOnly.st_eq {h k : Hart} (m : marksOnly h k) : k.st = h.st := by rw [m.1]
theorem marksOnly.ticket_eq {h k : Hart} (m : marksOnly h k) (l : Nat) : k.ticket l = h.ticket l := by
  rw [m.1]; rfl

/-- The hart without a reservation on a line. -/
def Hart.unreserved (h : Hart) (line : Nat) : Hart :=
  { h with reservation := h.reservation.filter fun r => decide (r.line ≠ line) }

/-- The hart with its transaction doomed if another party's write of a line reaches a mark of it. -/
def Hart.doomedBy (h : Hart) (coarse : List Nat) (self : Option HartId) (line : Nat) : Hart :=
  match h.tx with
  | some t =>
    match hitMark coarse t.reads line with
    | some m =>
      if some h.id ≠ self then
        { h with tx := some { t with
          doomed := true, doomVa := if t.doomed then t.doomVa else if m.line = line then some m.va else none } }
      else h
    | none => h
  | none => h

theorem seesWrite_eq (coarse : List Nat) (h : Hart) (self : Option HartId) (line : Nat) :
    h.seesWrite coarse self line = (h.unreserved line).doomedBy coarse self line := by
  unfold Hart.seesWrite
  cases hr : h.reservation with
  | none =>
    have kept : h.unreserved line = h := by rw [Hart.unreserved, hr, Option.filter_none, ← hr]
    rw [kept]
    rfl
  | some r =>
    by_cases here : r.line = line
    · have lost : h.unreserved line = { h with reservation := none } := by simp [Hart.unreserved, hr, here]
      rw [lost]
      simp only [if_pos here]
      rfl
    · have kept : h.unreserved line = h := by
        rw [Hart.unreserved, hr, Option.filter_some, if_pos (by simpa using here), ← hr]
      rw [kept]
      simp only [if_neg here]
      rfl

theorem doomedBy_marksOnly (h : Hart) (coarse : List Nat) (self : Option HartId) (line : Nat) :
    marksOnly h (h.doomedBy coarse self line) := by
  unfold Hart.doomedBy
  split
  · next t open_ =>
    split
    · split
      · exact ⟨rfl, by simp only [Hart.heldLines, open_]⟩
      · exact .refl h
    · exact .refl h
  · exact .refl h

theorem seesWrite_marksOnly (coarse : List Nat) (h : Hart) (self : Option HartId) (line : Nat) :
    marksOnly h (h.seesWrite coarse self line) := by
  rw [seesWrite_eq]
  exact marksOnly.trans ⟨rfl, rfl⟩ (doomedBy_marksOnly _ coarse self line)

/-! ## Lines that are held -/

/-- Harts that change by what writes of lines do to them hold no line that they did not hold, and wait as they did. -/
theorem lineHeld_mapHarts {s : State} {f : Hart → Hart} (hf : ∀ h, marksOnly h (f h)) (self : Option HartId) (l : Nat) :
    (s.mapHarts f).lineHeld self l = s.lineHeld self l := by
  have harts : (s.mapHarts f).harts = s.harts.map f := rfl
  have own : ((s.harts.map f).find? fun h => some h.id == self).bind (fun h => h.ticket l) =
      (s.harts.find? fun h => some h.id == self).bind fun h => h.ticket l := by
    rw [List.find?_map]
    have named : ((fun h : Hart => some h.id == self) ∘ f) = fun h => some h.id == self :=
      funext fun h => by simp [(hf h).id_eq]
    rw [named]
    cases s.harts.find? fun h => some h.id == self with
    | none => rfl
    | some h => exact (hf h).ticket_eq l
  unfold State.lineHeld
  simp only [harts, own, List.any_map]
  exact congrArg (List.any s.harts) (funext fun h => by simp [(hf h).id_eq, (hf h).ticket_eq, (hf h).2])

theorem lineHeld_noteLine (s : State) (self p : Option HartId) (line l : Nat) :
    (s.noteLine p line).lineHeld self l = s.lineHeld self l :=
  lineHeld_mapHarts (fun h => seesWrite_marksOnly s.dev.coarse h p line) self l

theorem lineHeld_some {s : State} {id : HartId} {l : Nat} :
    s.lineHeld (some id) l = false ↔ ∀ h, h ∈ s.harts → h.id ≠ id →
      (h.heldLines.contains l || older (h.ticket l) ((s.findHart id).bind fun k => k.ticket l)) = false := by
  have own : (s.harts.find? fun h => some h.id == some id) = s.findHart id := rfl
  unfold State.lineHeld
  rw [own, List.any_eq_false]
  refine forall₂_congr fun h _ => ?_
  by_cases here : h.id = id <;> simp [here]

theorem ticket_hartAt (s : State) (id : HartId) (l : Nat) :
    (s.hartAt id).ticket l = (s.findHart id).bind fun k => k.ticket l := by
  unfold State.hartAt
  cases s.findHart id with
  | none => rfl
  | some k => rfl

/-- Giving a hart the turn brings no other hart into being. -/
theorem mem_focus_harts {s : State} {id : HartId} {h : Hart} (hm : h ∈ (s.focus id).harts) (other : h.id ≠ id) :
    h ∈ s.harts := by
  have front : h ≠ (s.focus id).hart := fun e => other (e ▸ focus_id s id)
  have rest : h ∈ (s.focus id).others := (List.mem_cons.mp hm).resolve_left front
  unfold State.focus at rest
  split at rest
  · exact List.mem_cons_of_mem _ rest
  · split at rest
    · rcases List.mem_cons.mp rest with rfl | old
      · exact List.mem_cons_self ..
      · exact List.mem_cons_of_mem _ (List.mem_of_mem_filter old)
    · exact rest

/-- A line that no other hart holds, or has waited for longer, is so when the hart has the turn. -/
theorem lineHeld_focus {s : State} {id : HartId} {l : Nat} (free : s.lineHeld (some id) l = false) :
    (s.focus id).lineHeld (some id) l = false := by
  rw [lineHeld_some] at free ⊢
  have found : (s.focus id).findHart id = some (s.hartAt id) := by
    rw [← focus_hart]
    simp [State.findHart, State.harts, focus_id]
  intro h hm other
  rw [found, Option.bind_some, ticket_hartAt]
  exact free h (mem_focus_harts hm other) other

end Sys2Proof.Machine

namespace Sys2Proof.Machine
open Sys2Proof

/-! ## Appended elements performed -/

theorem mergeByte_high (old : Byte) (n : Nat) (hn : n < 16) :
    (mergeByte old (BitVec.ofNat 8 (16 * n)) 0xF0#8).toNat = old.toNat % 16 + 16 * n := by
  have mask : ∀ k, k < 8 → (0xF0#8).getLsbD k = decide (4 ≤ k) := by decide
  have split : old.toNat % 16 + 16 * n = 2 ^ 4 * n + old.toNat % 2 ^ 4 := Nat.add_comm ..
  refine Nat.eq_of_testBit_eq fun k => ?_
  rw [split, Nat.testBit_two_pow_mul_add _ (Nat.mod_lt _ (by decide)), Nat.testBit_mod_two_pow, mergeByte]
  simp only [BitVec.testBit_toNat]
  by_cases hk : k < 8
  · rw [BitVec.getLsbD_or, BitVec.getLsbD_and, BitVec.getLsbD_and, BitVec.getLsbD_not, mask k hk, BitVec.getLsbD_ofNat,
      show 16 * n = 2 ^ 4 * n from rfl, Nat.testBit_two_pow_mul]
    by_cases low : k < 4
    · simp [low, hk, Nat.not_le.mpr low]
    · simp [low, hk, Nat.le_of_not_lt low]
  · have zero : n.testBit (k - 4) = false := Nat.testBit_lt_two_pow (Nat.lt_of_lt_of_le hn
      (Nat.pow_le_pow_right (show 0 < 2 by decide) (show 4 ≤ k - 4 by omega)))
    rw [BitVec.getLsbD_of_ge _ _ (Nat.le_of_not_lt hk), zero]
    simp [show ¬ k < 4 by omega]

theorem mergeByte_low (old : Byte) (n : Nat) (hn : n < 16) :
    (mergeByte old (BitVec.ofNat 8 n) 0x0F#8).toNat = old.toNat / 16 * 16 + n := by
  have mask : ∀ k, k < 8 → (0x0F#8).getLsbD k = decide (k < 4) := by decide
  have split : old.toNat / 16 * 16 + n = 2 ^ 4 * (old.toNat / 2 ^ 4) + n := congrArg (· + n) (Nat.mul_comm ..)
  refine Nat.eq_of_testBit_eq fun k => ?_
  rw [split, Nat.testBit_two_pow_mul_add _ hn, Nat.testBit_div_two_pow, mergeByte]
  simp only [BitVec.testBit_toNat]
  by_cases hk : k < 8
  · rw [BitVec.getLsbD_or, BitVec.getLsbD_and, BitVec.getLsbD_and, BitVec.getLsbD_not, mask k hk, BitVec.getLsbD_ofNat]
    by_cases low : k < 4
    · simp [low, hk]
    · have high : k - 4 + 4 = k := by omega
      simp [low, hk, high]
  · rw [BitVec.getLsbD_of_ge _ _ (Nat.le_of_not_lt hk), if_neg (by omega), Nat.sub_add_cancel (by omega),
      BitVec.getLsbD_of_ge _ _ (Nat.le_of_not_lt hk)]

theorem Memory.read_one (m : Memory) (a : Nat) : m.read a 1 = (m.get a).toNat := by
  simp [Memory.read]

/-- What a store of half a byte writes, in the words of R36. -/
theorem mergeByte_half (m : Memory) (pa : Nat) (hi : Bool) (v : Nat) :
    (mergeByte (m.get pa) (BitVec.ofNat 8 (if hi then 16 * (v % 16) else v % 16)) (if hi then 0xF0#8 else 0x0F#8)).toNat =
      if hi then m.read pa 1 % 16 + 16 * (v % 16) else m.read pa 1 / 16 * 16 + v % 16 := by
  rw [Memory.read_one]
  cases hi
  · exact mergeByte_low (m.get pa) (v % 16) (Nat.mod_lt _ (by decide))
  · exact mergeByte_high (m.get pa) (v % 16) (Nat.mod_lt _ (by decide))

/-- A store of bits that memory serves, in a line that no other hart's ordered transaction holds. -/
theorem storeBits_served {s : State} {p : Party} {va : Word} {pa : Nat} (b mask : Byte) (h : s.served pa)
    (ht : s.inTx p = false) (hl : s.lineHeld p.self (pa / 128) = false) :
    storeBits p va pa b mask s = .ok () (s.physStore p.self pa 1 (mergeByte (s.mem.get pa) b mask).toNat) := by
  have lines : linesOf pa 1 = [pa / 128] := linesOf_one (by decide) (by omega)
  have written : ∀ v, plainWrite p pa 1 v s = .ok () (s.physStore p.self pa 1 v) := fun v => by
    have free : awaitLines p pa 1 s = .ok () s := by
      unfold awaitLines
      rw [M.bind_ok (M.get_apply s)]
      simp [lines, hl]
    unfold plainWrite
    rw [M.bind_ok free]
    rfl
  unfold storeBits
  rw [M.bind_ok (checkPa_served true h), M.bind_ok (M.get_apply s)]
  unfold State.served at h
  split at h
  · next e => simp [e, ht, written]
  · next e => simp [e, ht, written]
  · exact h.elim

/-- An appended element that can be performed: it has its address, in memory, in one line. -/
def performable (s : State) (e : AppendedElem) (pa : Nat) : Prop :=
  e.pa = some pa ∧ s.served pa ∧ pa % 128 + e.size ≤ 128 ∧ 0 < e.size ∧ (e.half.isSome = true → e.size = 1)

theorem performElem_ok {s : State} {p : Party} {e : AppendedElem} {pa : Nat} (h : performable s e pa)
    (ht : s.inTx p = false) (hl : s.lineHeld p.self (pa / 128) = false) :
    ∃ n v, 0 < n ∧ pa % 128 + n ≤ 128 ∧ performElem p e s = .ok () (s.physStore p.self pa n v) ∧
      s.mem.write pa n v = s.mem.put e := by
  obtain ⟨epa, served, line, pos, -⟩ := h
  unfold performElem Memory.put
  rw [epa]
  cases half : e.half with
  | none => exact ⟨e.size, e.data, pos, line, storePa_served true served ht pos line hl, rfl⟩
  | some hi =>
    refine ⟨1, _, by decide, by omega, storeBits_served _ _ served ht hl, ?_⟩
    rw [mergeByte_half]
    rfl

/-- What performing elements leaves of the state: memory as they make it, and of each hart but its reservation and
whether its transaction is doomed, all that it was. -/
def performed (s t : State) (m : Memory) : Prop :=
  t.mem = m ∧ marksOnly s.hart t.hart ∧ (∀ pa, t.served pa ↔ s.served pa) ∧
    ∀ self l, t.lineHeld self l = s.lineHeld self l

theorem performed_physStore {s : State} {self : Option HartId} {pa n v : Nat} (h0 : 0 < n) (h1 : pa % 128 + n ≤ 128) :
    performed s (s.physStore self pa n v) (s.mem.write pa n v) := by
  rw [physStore_one_line h0 h1]
  exact ⟨rfl, seesWrite_marksOnly _ _ _ _, fun _ => Iff.rfl, fun p l => lineHeld_noteLine _ p self _ l⟩

theorem performed.trans {s t u : State} {m k : Memory} (h : performed s t m) (g : performed t u k) : performed s u k := by
  obtain ⟨-, th, ts, tl⟩ := h
  obtain ⟨um, uh, us, ul⟩ := g
  exact ⟨um, th.trans uh, fun pa => (us pa).trans (ts pa), fun self l => (ul self l).trans (tl self l)⟩

theorem performElems_ok {p : Party} (plain : p.plain = true) {l : List AppendedElem} {s : State}
    (h : ∀ e, e ∈ l → ∃ pa, performable s e pa) (hl : ∀ k, s.lineHeld p.self k = false) :
    ∃ t, forM' (performElem p) l s = .ok () t ∧ performed s t (l.foldl Memory.put s.mem) := by
  induction l generalizing s with
  | nil => exact ⟨s, rfl, rfl, .refl _, fun _ => Iff.rfl, fun _ _ => rfl⟩
  | cons e l ih =>
    obtain ⟨here, rest⟩ := List.forall_mem_cons.mp h
    obtain ⟨pa, able⟩ := here
    have outside : s.inTx p = false := by simp [State.inTx, plain]
    obtain ⟨n, v, h0, h1, ran, written⟩ := performElem_ok able outside (hl _)
    have step := performed_physStore (s := s) (self := p.self) (v := v) h0 h1
    obtain ⟨-, -, served, lines⟩ := id step
    obtain ⟨t, ranRest, done⟩ := ih (s := s.physStore p.self pa n v)
      (fun e he => (rest e he).imp fun _ ⟨a, b, c⟩ => ⟨a, (served _).mpr b, c⟩) (fun k => (lines _ k).trans (hl k))
    refine ⟨t, ?_, ?_⟩
    · rw [forM'_cons, M.bind_ok ran, ranRest]
    · rw [List.foldl_cons, ← written, ← step.1]
      exact step.trans done

end Sys2Proof.Machine

namespace Sys2Proof.Machine
open Sys2Proof

/-! ## STREAM_STORE_PERFORM -/

theorem focus_served (s : State) (id : HartId) (pa : Nat) : (s.focus id).served pa ↔ s.served pa := by
  unfold State.focus
  split
  · exact Iff.rfl
  · split <;> exact Iff.rfl

/-- An effect with another hart's turn, when it completes. -/
theorem onHart_ok {id : HartId} {m : M Unit} {s t : State} (h : m (s.focus id) = .ok () t) :
    onHart id m s = .ok () (t.focus s.hart.id) := by
  unfold onHart
  rw [M.bind_ok (getH_apply s), M.bind_ok (M.modify_apply _ s), M.bind_ok h]
  rfl

/-- The hart whose stream has nothing more to perform. -/
def Hart.appendedDone (h : Hart) (st : Nat) (hst : st < 16) : Hart :=
  { h with st := h.st.set st { h.st[st] with appended := [] } }

/-- The hart whose streams have loaded nothing ahead. -/
def Hart.aheadDropped (h : Hart) : Hart := { h with st := h.st.map fun r => { r with ahead := [] } }

theorem dropAhead_cases (p : Party) (s : State) :
    dropAhead p s = .ok () s ∨ dropAhead p s = .ok () { s with hart := s.hart.aheadDropped } := by
  unfold dropAhead
  rw [M.bind_ok (getH_apply s)]
  split
  · exact .inr rfl
  · exact .inl rfl

theorem lineHeld_withHart {s : State} {k : Hart} (id : k.id = s.hart.id) (ticket : ∀ l, k.ticket l = s.hart.ticket l)
    (held : k.heldLines = s.hart.heldLines) (self : Option HartId) (l : Nat) :
    ({ s with hart := k } : State).lineHeld self l = s.lineHeld self l := by
  unfold State.lineHeld State.harts
  simp only [List.any_cons, List.find?_cons, id, held, ticket]
  cases some s.hart.id == self <;> simp only [Option.bind_some, ticket]

/-- Once its appended elements are out of the stream, they are performed, and the hart keeps its registers. -/
theorem performAppended_ok {s : State} {st : Nat} (hst : st < 16)
    (h : ∀ e, e ∈ s.hart.st[st].appended → ∃ pa, performable s e pa)
    (hl : ∀ l, s.lineHeld (some s.hart.id) l = false) :
    ∃ t, performAppended st s = .ok () t ∧ t.mem = s.hart.st[st].appended.foldl Memory.put s.mem ∧
      t.hart.id = s.hart.id ∧ t.hart.st[st].appended = [] ∧ t.hart.x = s.hart.x ∧ t.hart.v = s.hart.v := by
  unfold performAppended
  by_cases none_ : s.hart.st[st].appended = []
  · refine ⟨s, atomically_ok ?_, by rw [none_]; rfl, rfl, none_, rfl, rfl⟩
    rw [M.bind_ok (getH_apply s), dif_pos hst]
    simp [none_]
  · let p : Party := { ctx := s.hart.ctx, self := some s.hart.id, plain := true }
    let s1 : State := { s with hart := s.hart.appendedDone st hst }
    have taken : s1.hart.st[st].appended = [] := by simp [s1, Hart.appendedDone]
    obtain ⟨s2, dropped, kept⟩ : ∃ s2, dropAhead p s1 = .ok () s2 ∧
        (s2 = s1 ∨ s2 = { s1 with hart := s1.hart.aheadDropped }) :=
      (dropAhead_cases p s1).elim (fun e => ⟨_, e, .inl rfl⟩) fun e => ⟨_, e, .inr rfl⟩
    have same : ∃ v, s2 = { s with hart := { s.hart with st := v } } ∧ v[st].appended = [] := by
      rcases kept with rfl | rfl
      · exact ⟨_, rfl, taken⟩
      · exact ⟨_, rfl, by simpa [Hart.aheadDropped] using taken⟩
    obtain ⟨v, rfl, gone⟩ := same
    have lines : ∀ l, ({ s with hart := { s.hart with st := v } } : State).lineHeld p.self l = false := fun l =>
      (lineHeld_withHart (k := { s.hart with st := v }) rfl (fun _ => rfl) rfl _ l).trans (hl l)
    obtain ⟨t, ran, mem, marks, -, -⟩ :=
      performElems_ok (s := { s with hart := { s.hart with st := v } }) (p := p) rfl h lines
    refine ⟨t, atomically_ok ?_, mem, marks.id_eq, ?_, marks.x_eq, marks.v_eq⟩
    · rw [M.bind_ok (getH_apply s), dif_pos hst]
      have some_ : (!s.hart.st[st].appended.isEmpty) = true := by simpa using none_
      dsimp only
      rw [if_pos some_, M.bind_ok (modH_apply _ s)]
      exact (M.bind_ok dropped).trans ran
    · simpa only [marks.st_eq] using gone

/-- STREAM_STORE_PERFORM as the statement about it says. -/
theorem streamStorePerform_performs {s : State} {h : HartId} {st : BitVec 4}
    (able : ∀ e, e ∈ (s.hartAt h).st[st.toNat].appended → ∃ pa, performable s e pa)
    (free : ∀ l, s.lineHeld (some h) l = false) :
    reaches (exec (.streamStorePerform h st) s) fun t =>
      t.mem = (s.hartAt h).st[st.toNat].appended.foldl Memory.put s.mem ∧
      (t.hartAt h).st[st.toNat].appended = [] ∧ (t.hartAt h).x = (s.hartAt h).x ∧ (t.hartAt h).v = (s.hartAt h).v := by
  have turn := focus_hart s h
  have able' : ∀ e, e ∈ (s.focus h).hart.st[st.toNat].appended → ∃ pa, performable (s.focus h) e pa := by
    rw [turn]
    exact fun e he => (able e he).imp fun pa ⟨a, b, c⟩ => ⟨a, (focus_served s h pa).mpr b, c⟩
  obtain ⟨t, ran, mem, id, gone, x, v⟩ := performAppended_ok st.isLt able' fun l => by
    rw [focus_id]; exact lineHeld_focus (free l)
  have back : (t.focus s.hart.id).hartAt h = t.hart := focus_hartAt _ (id.trans (focus_id s h))
  refine ⟨t.focus s.hart.id, ?_, ?_, ?_, ?_, ?_⟩
  · show execStreamStorePerform h st s = _
    unfold execStreamStorePerform
    rw [onHart_ok ran]
  · rw [focus_mem, mem, turn, focus_mem]
  · rw [back]; exact gone
  · rw [back, x, turn]
  · rw [back, v, turn]

end Sys2Proof.Machine

namespace Sys2Proof.Machine
open Sys2Proof

/-! ## Effects that leave the turn to the hart that has it -/

/-- An effect that completes from a state leaves the turn to the hart that had it. -/
def TurnKept {α : Type} (m : M α) (s : State) : Prop := ∀ a t, m s = .ok a t → t.hart.id = s.hart.id

namespace TurnKept
variable {α β : Type} {s : State}

theorem pure (a : α) : TurnKept (Pure.pure a : M α) s := by
  intro b t h
  cases h
  rfl

theorem throw (e : Exit) : TurnKept (MonadExcept.throw e : M α) s := fun _ _ h => nomatch h

theorem hold (w : Held) : TurnKept (Machine.hold w : M α) s := fun _ _ h => nomatch h

theorem set {u : State} (h : u.hart.id = s.hart.id) : TurnKept (MonadStateOf.set u : M PUnit) s := by
  intro b t ran
  cases ran
  exact h

theorem modify {f : State → State} (hf : (f s).hart.id = s.hart.id) : TurnKept (modify f : M PUnit) s := set hf

theorem modH {f : Hart → Hart} (hf : (f s.hart).id = s.hart.id) : TurnKept (Machine.modH f) s := set hf

theorem bind {m : M α} {f : α → M β} (hm : TurnKept m s) (hf : ∀ a t, TurnKept (f a) t) : TurnKept (m >>= f) s := by
  intro b u h
  obtain ⟨a, t, first, then_⟩ := M.bind_ok_cases h
  exact (hf a t b u then_).trans (hm a t first)

/-- What follows an effect that has only looked. -/
theorem bind_same {m : M α} {f : α → M β} (hm : ∀ a t, m s = .ok a t → t = s) (hf : ∀ a, TurnKept (f a) s) :
    TurnKept (m >>= f) s := by
  intro b u h
  obtain ⟨a, t, first, then_⟩ := M.bind_ok_cases h
  obtain rfl := hm a t first
  exact hf a b u then_

theorem throw_bind (e : Exit) (f : α → M β) : TurnKept (MonadExcept.throw e >>= f) s := fun _ _ h => nomatch h

theorem get_bind {f : State → M β} (hf : TurnKept (f s) s) : TurnKept (get >>= f) s := hf

theorem getH_bind {f : Hart → M β} (hf : TurnKept (f s.hart) s) : TurnKept (getH >>= f) s := hf

theorem ite {c : Prop} [Decidable c] {m n : M α} (hm : TurnKept m s) (hn : TurnKept n s) :
    TurnKept (if c then m else n) s := by
  split
  · exact hm
  · exact hn

theorem forM' {f : α → M Unit} (hf : ∀ a s, TurnKept (f a) s) (l : List α) : TurnKept (Machine.forM' f l) s := by
  induction l generalizing s with
  | nil => exact pure ()
  | cons a l ih =>
    rw [forM'_cons]
    exact bind (hf a s) fun _ _ => ih

theorem mapM {f : α → M β} (hf : ∀ a s, TurnKept (f a) s) (l : List α) : TurnKept (l.mapM f) s := by
  induction l generalizing s with
  | nil => exact pure []
  | cons a l ih =>
    rw [List.mapM_cons]
    exact bind (hf a s) fun _ _ => bind ih fun _ _ => pure _

theorem atomically {m : M α} (hm : TurnKept m s) : TurnKept (Machine.atomically m) s := by
  intro a t h
  unfold Machine.atomically at h
  split at h
  · next b u ran =>
    cases h
    exact hm _ _ ran
  · cases h

end TurnKept

/-! ## States with the same turn -/

theorem foldl_keepsTurn {β : Type} {f : State → β → State} (hf : ∀ s b, (f s b).hart.id = s.hart.id) (l : List β)
    (s : State) : (l.foldl f s).hart.id = s.hart.id := by
  induction l generalizing s with
  | nil => rfl
  | cons b l ih => exact (ih (f s b)).trans (hf s b)

theorem noteLine_turn (s : State) (p : Option HartId) (line : Nat) : (s.noteLine p line).hart.id = s.hart.id :=
  (seesWrite_marksOnly s.dev.coarse s.hart p line).id_eq

theorem physStore_turn (s : State) (p : Option HartId) (pa n v : Nat) : (s.physStore p pa n v).hart.id = s.hart.id :=
  foldl_keepsTurn (fun s l => noteLine_turn s p l) _ _

/-! ## Translation -/

theorem modTlbs_hart (s : State) (a : Option CoreId) (b : Option ClusterId) (f g : List TlbEntry → List TlbEntry) :
    (s.modTlbs a b f g).hart = s.hart := by
  unfold State.modTlbs
  cases a <;> cases b <;> rfl

theorem noteWalk_marks (s : State) (self : Option HartId) (line : Nat) : marksOnly s.hart (s.noteWalk self line).hart := by
  show marksOnly s.hart (if some s.hart.id = self then s.hart else s.hart.seesWrite s.dev.coarse self line)
  split
  · exact .refl _
  · exact seesWrite_marksOnly _ _ _ _

theorem walked_marks (s : State) (w : WalkNote) : marksOnly s.hart (s.walked w).hart := by
  cases w with
  | drop core cluster e =>
    rw [State.walked, modTlbs_hart]
    exact .refl _
  | fill core cluster e addr bits self =>
    rw [State.walked, modTlbs_hart]
    split
    · exact .refl _
    · exact noteWalk_marks { s with mem := s.mem.write addr 8 _ } self (lineOf addr)

theorem noteTlb_marks (s : State) (w : WalkNote) : marksOnly s.hart (s.noteTlb w).hart := by
  rcases noteTlb_cases s w with e | e <;> rw [e]
  · exact .refl _
  · exact walked_marks s w

theorem keepWalks_marks (s t : State) : marksOnly s.hart (s.keepWalks t).hart := by
  unfold State.keepWalks
  generalize t.walks.drop s.walks.length = l
  induction l generalizing s with
  | nil => exact .refl _
  | cons w l ih => exact (noteTlb_marks s w).trans (ih (s.noteTlb w))

theorem walk_marks {s t : State} {c : TransCtx} {l : Nat} {va : Word} {a : Access} {x : Translation}
    (h : walk s c l va a = .ok (x, t)) : marksOnly s.hart t.hart := by
  unfold walk at h
  dsimp only at h
  split at h
  · split at h
    · cases h
      exact noteTlb_marks _ _
    · cases h
  · cases h
  · cases h

theorem translate_marks {s t : State} {c : TransCtx} {va : Word} {a : Access} {x : Translation}
    (h : translate s c va a = .ok (x, t)) : marksOnly s.hart t.hart := by
  unfold translate at h
  split at h
  · split at h
    · cases h
      exact .refl _
    · cases h
  · split at h
    · cases h
    · split at h
      · split at h
        · split at h
          · cases h
            exact .refl _
          · exact (noteTlb_marks s _).trans (walk_marks h)
        · exact walk_marks h
      · cases h

theorem translateM_marks {s t : State} {c : TransCtx} {va : Word} {a : Access} {x : Translation}
    (h : translateM c va a s = .ok x t) : marksOnly s.hart t.hart := by
  cases ran : translate s c va a with
  | ok r =>
    obtain ⟨y, u⟩ := r
    rw [translateM_ok ran] at h
    cases h
    exact translate_marks ran
  | error r =>
    obtain ⟨f, u⟩ := r
    rw [translateM_error ran] at h
    cases h

theorem translateM_turn (c : TransCtx) (va : Word) (a : Access) (s : State) : TurnKept (translateM c va a) s :=
  fun _ _ h => (translateM_marks h).id_eq

end Sys2Proof.Machine

namespace Sys2Proof.Machine
open Sys2Proof

/-! ## The accesses of a hart leave the turn to it -/

theorem txTouch_turn (p : Party) (pa n : Nat) (s : State) : TurnKept (txTouch p pa n) s := by
  refine .get_bind (.ite ?_ (.pure _))
  split
  · exact .ite (.throw _) (.pure _)
  · exact .pure _

theorem addMark_turn {s t : State} {m : Mark} (h : s.addMark m = some t) : t.hart.id = s.hart.id := by
  unfold State.addMark at h
  split at h
  · split at h
    · cases h; rfl
    · split at h
      · cases h
      · cases h; rfl
  · cases h; rfl

theorem addMarks_turn {s t : State} {l : List Mark} (h : l.foldlM State.addMark s = some t) : t.hart.id = s.hart.id := by
  induction l generalizing s with
  | nil => cases h; rfl
  | cons m l ih =>
    rw [List.foldlM_cons] at h
    obtain ⟨u, first, rest⟩ := Option.bind_eq_some_iff.mp h
    exact (ih rest).trans (addMark_turn first)

theorem txRead_turn (p : Party) (va : Word) (pa n : Nat) (s : State) : TurnKept (txRead p va pa n) s := by
  refine .bind (txTouch_turn p pa n s) fun _ t => .get_bind ?_
  split
  · next u marked => exact .bind (.set (addMarks_turn marked)) fun _ _ => .pure _
  · exact .throw _

theorem modTx_turn (f : Tx → Option Tx) (s : State) : TurnKept (modTx f) s := by
  refine .getH_bind ?_
  split
  · split
    · exact .modH rfl
    · exact .throw _
  · exact .pure _

theorem txWrite_turn (p : Party) (va : Word) (pa n v : Nat) (s : State) : TurnKept (txWrite p va pa n v) s :=
  .bind (txTouch_turn p pa n s) fun _ _ => .get_bind (modTx_turn _ _)

theorem txWriteBits_turn (p : Party) (va : Word) (pa : Nat) (b mask : Byte) (s : State) :
    TurnKept (txWriteBits p va pa b mask) s :=
  .bind (txTouch_turn p pa 1 s) fun _ _ => .get_bind (modTx_turn _ _)

theorem txFlip_turn (va : Word) (pa : Nat) (owned : Bool) (s : State) : TurnKept (txFlip va pa owned) s := modTx_turn _ s

theorem awaitLines_same {p : Party} {pa n : Nat} {s t : State} (h : awaitLines p pa n s = .ok () t) : t = s := by
  unfold awaitLines at h
  rw [M.bind_ok (M.get_apply s)] at h
  cases found : (linesOf pa n).find? fun l => s.lineHeld p.self l with
  | some l => simp [found] at h
  | none => simpa [found] using h.symm

theorem plainWrite_turn (p : Party) (pa n v : Nat) (s : State) : TurnKept (plainWrite p pa n v) s :=
  .bind_same (fun _ _ h => awaitLines_same h) fun _ => .modify (physStore_turn s p.self pa n v)

theorem plainRead_turn (va : Word) (a : Access) (pa n : Nat) (s : State) : TurnKept (plainRead va a pa n) s :=
  .get_bind (.ite (.throw_bind _ _) (.pure _))

theorem noTx_turn (p : Party) (s : State) : TurnKept (noTx p) s := .get_bind (.ite (.throw _) (.pure _))

theorem checkPa_turn (p : Party) (a : Access) (va : Word) (pa : Nat) (natural : Bool) (s : State) :
    TurnKept (checkPa p a va pa natural) s := by
  refine .get_bind ?_
  split
  case h_1 => exact .pure _
  case h_2 => exact .ite (.throw _) (.pure _)
  case h_3 =>
    dsimp only
    split
    · exact .ite (.throw _) (.pure _)
    · exact .bind (noTx_turn p s) fun _ _ => .ite (.throw _) (.pure _)
  case h_4 => exact noTx_turn p s
  case h_5 | h_6 => exact .bind (noTx_turn p s) fun _ _ => .ite (.throw _) (.pure _)
  case h_7 => exact .throw _

theorem agentLoad_turn (p : Party) (va : Word) (a : Access) (pa n : Nat) (s : State) :
    TurnKept (agentLoad p va a pa n) s := by
  refine .get_bind ?_
  split
  case h_1 => exact .ite (txRead_turn p va pa n s) (.pure _)
  case h_4 => exact .ite (.throw_bind _ _) (.pure _)
  all_goals exact .pure _

theorem resetOwners_turn (s : State) (self : Option HartId) (cluster entry : Nat) :
    (s.resetOwners self cluster entry).hart.id = s.hart.id := by
  unfold State.resetOwners
  split
  · dsimp only
    split
    · exact foldl_keepsTurn (fun s o => noteLine_turn s self (lineOf o)) _ _
    · rfl
  · rfl

theorem storeRingTable_turn (s : State) (p : Party) (gang : Option Nat) (pa n v c e off : Nat) :
    (s.storeRingTable p gang pa n v c e off).hart.id = s.hart.id := by
  unfold State.storeRingTable
  split
  · dsimp only
    split
    · exact (resetOwners_turn _ _ _ _).trans (physStore_turn s p.self pa n v)
    · exact physStore_turn s p.self pa n v
  · rfl

theorem writeAgent_hart (s : State) (id : AgentId) (off : Nat) (v : Word) : (s.writeAgent id off v).hart = s.hart := by
  unfold State.writeAgent State.writeAgentCtl
  dsimp only
  split
  · split <;> rfl
  · split
    · split <;> rfl
    · split
      · rfl
      · split
        · rfl
        · split <;> rfl

theorem writeHostBeacon_hart (s : State) (unit : Bool) (b : Nat) (v : Word) : (s.writeHostBeacon unit b v).hart = s.hart := by
  unfold State.writeHostBeacon
  split <;> rfl

theorem agentStore_turn (p : Party) (va : Word) (pa n v : Nat) (s : State) : TurnKept (agentStore p va pa n v) s := by
  refine .get_bind ?_
  split
  case h_1 c e off _ =>
    exact .ite (.bind (txWrite_turn p va pa n v s) fun _ t => .ite (txFlip_turn va _ false t) (.pure _))
      (.bind_same (fun _ _ h => awaitLines_same h) fun _ => .set (storeRingTable_turn s p _ pa n v c e off))
  case h_5 => exact .ite (.throw_bind _ _) (.set (congrArg Hart.id (writeAgent_hart ..)))
  case h_6 => exact .set (congrArg Hart.id (writeHostBeacon_hart ..))
  case h_7 => exact .set rfl
  all_goals exact .pure _

theorem homeLoad_turn (p : Party) (va : Word) (a : Access) (pa n : Nat) (s : State) : TurnKept (homeLoad p va a pa n) s :=
  .get_bind (.ite (.throw _) (.ite (txRead_turn p va pa n s) (.pure _)))

theorem remoteRead_turn (p : Party) (va : Word) (a : Access) (pa n : Nat) (send : Nat → Output) (s : State) :
    TurnKept (remoteRead p va a pa n send) s := by
  refine .get_bind ?_
  split
  · refine .ite (.throw_bind _ _) ?_
    dsimp only
    split
    · exact .bind (.set rfl) fun _ _ => .pure _
    · exact .hold _
  · exact .bind (.set rfl) fun _ _ => .hold _

theorem loadPa_turn (p : Party) (va : Word) (a : Access) (pa n : Nat) (natural : Bool) (s : State) :
    TurnKept (loadPa p va a pa n natural) s := by
  refine .bind (checkPa_turn p a va pa natural s) fun _ t => ?_
  split
  · exact homeLoad_turn p va a pa n t
  · exact homeLoad_turn p va a pa n t
  · exact plainRead_turn va a pa n t
  · exact agentLoad_turn p va a pa n t
  · exact remoteRead_turn p va a pa n _ t
  · exact remoteRead_turn p va a pa n _ t
  · exact .throw _

theorem sendWrite_turn (s : State) (p : Party) (pa n v : Nat) : (s.sendWrite p pa n v).hart.id = s.hart.id := by
  unfold State.sendWrite
  split <;> rfl

theorem storePa_turn (p : Party) (va : Word) (pa n v : Nat) (natural : Bool) (s : State) :
    TurnKept (storePa p va pa n v natural) s := by
  refine .bind (checkPa_turn p .store va pa natural s) fun _ t => .get_bind ?_
  split
  case h_1 | h_2 => exact .ite (txWrite_turn p va pa n v t) (plainWrite_turn p pa n v t)
  case h_3 => exact agentStore_turn p va pa n v t
  case h_4 | h_5 => exact .set (sendWrite_turn t p pa n v)
  case h_6 | h_7 => exact .pure _

theorem storeBits_turn (p : Party) (va : Word) (pa : Nat) (b mask : Byte) (s : State) :
    TurnKept (storeBits p va pa b mask) s := by
  refine .bind (checkPa_turn p .store va pa true s) fun _ t => .get_bind ?_
  split
  case h_1 | h_2 => exact .ite (txWriteBits_turn p va pa b mask t) (plainWrite_turn p pa 1 _ t)
  case h_3 | h_4 =>
    exact .bind (loadPa_turn p va .store pa 1 true t) fun _ u => .modify (sendWrite_turn u p pa 1 _)
  case h_5 | h_6 | h_7 => exact .pure _

theorem locate_turn (p : Party) (a : Access) (natural : Bool) (l : List (Word × Nat)) (s : State) :
    TurnKept (locate p a natural l) s := by
  induction l generalizing s with
  | nil => exact .pure _
  | cons q l ih =>
    exact .bind (translateM_turn p.ctx q.1 a s) fun x t => .bind (checkPa_turn p a q.1 x.pa natural t) fun _ u =>
      .bind (ih u) fun _ _ => .pure _

theorem dropAhead_turn (p : Party) (s : State) : TurnKept (dropAhead p) s :=
  .getH_bind (.ite (.modH rfl) (.pure _))

theorem performElem_turn (p : Party) (e : AppendedElem) (s : State) : TurnKept (performElem p e) s := by
  have store : ∀ (pa : Nat) t, TurnKept (match e.half with
      | none => storePa p e.va pa e.size e.data true
      | some hi => storeNibble p e.va pa hi e.data) t := fun pa t => by
    split
    · exact storePa_turn p e.va pa e.size e.data true t
    · exact storeBits_turn p e.va pa _ _ t
  unfold performElem
  split
  · exact .bind (.pure _) store
  · exact .bind (.bind (translateM_turn p.ctx e.va .store s) fun _ _ => .pure _) store

theorem performAppended_turn (st : Nat) (s : State) : TurnKept (performAppended st) s := by
  refine .atomically (.getH_bind ?_)
  split
  · exact .ite (.bind (.modH rfl) fun _ t => .bind (dropAhead_turn _ t) fun _ _ => .forM' (performElem_turn _) _) (.pure _)
  · exact .pure _

theorem settleStreams_turn (p : Party) (s : State) : TurnKept (settleStreams p) s :=
  .get_bind (.ite (.ite (.bind (.hold _) fun _ _ => .forM' performAppended_turn _) (.forM' performAppended_turn _)) (.pure _))

theorem loadVa_turn (p : Party) (va : Word) (a : Access) (n : Nat) (s : State) : TurnKept (loadVa p va a n) s :=
  .bind (settleStreams_turn p s) fun _ t => .bind (locate_turn p a _ _ t) fun ps _ =>
    .bind (.mapM (fun q v => .bind (loadPa_turn p q.1 a q.2.1 q.2.2 _ v) fun _ _ => .pure _) ps) fun _ _ => .pure _

end Sys2Proof.Machine

namespace Sys2Proof.Machine
open Sys2Proof

/-! ## The fetch of a hart and the loads of its streams leave the turn to it -/

theorem frameWalk_turn (p : Party) (k : Nat) (a : Word) (s : State) : TurnKept (frameWalk p k a) s := by
  induction k generalizing a s with
  | zero => exact .pure _
  | succ k ih => exact .bind (loadVa_turn p a .load 16 s) fun _ t => .ite (.pure _) (ih _ t)

theorem frameIndexed_turn (p : Party) (k : Nat) (table : Word) (s : State) : TurnKept (frameIndexed p k table) s :=
  .bind (loadVa_turn p table .load 32 s) fun _ t =>
    .ite (.pure _) (.bind (loadVa_turn p _ .load 4 t) fun _ _ => .pure _)

theorem qFrame_turn (p : Party) (indexed : Bool) (base : Word) (k : Nat) (s : State) :
    TurnKept (qFrame p indexed base k) s := by
  refine .ite (.bind (frameIndexed_turn p k base s) fun a t => ?_) (frameWalk_turn p k base s)
  split <;> exact .pure _

theorem qElement_turn (p : Party) (f : Fmt) (indexed : Bool) (base : Word) (n : Nat) (s : State) :
    TurnKept (qElement p f indexed base n) s := by
  refine .bind (qFrame_turn p indexed base _ s) fun _ t => .ite (.pure _) ?_
  refine .bind (loadVa_turn p _ .load 16 t) fun _ u => .ite (.pure _) ?_
  refine .ite (.pure _) (.bind (loadVa_turn p _ .load _ u) fun _ v => ?_)
  split <;> exact .pure _

theorem setStream_id (h : Hart) (st : Nat) (r : StreamReg) : (h.setStream st r).id = h.id := by
  unfold Hart.setStream
  split <;> rfl

theorem streamTranslate_turn (st : Nat) (p : Party) (a : Access) (va : Word) (s : State) :
    TurnKept (streamTranslate st p a va) s := by
  refine .getH_bind ?_
  dsimp only
  split
  · exact .pure _
  · refine .bind (translateM_turn p.ctx va a s) fun x t => .get_bind (.ite ?_ (.pure _))
    split
    · exact .bind (.modH (setStream_id _ _ _)) fun _ _ => .pure _
    · exact .pure _

theorem checkElemBy_turn {tr : M Translation} (htr : ∀ s, TurnKept tr s) (p : Party) (a : Access) (va : Word) (size : Nat)
    (s : State) : TurnKept (checkElemBy tr p a va size) s := by
  refine .ite (.throw_bind _ _) (.bind (htr s) fun x t => ?_)
  have rest : ∀ u, TurnKept (do checkPa p a va x.pa true; return x.pa) u := fun u =>
    .bind (checkPa_turn p a va x.pa true u) fun _ _ => .pure _
  exact .ite (.bind (noTx_turn p t) fun _ _ => .throw_bind _ _) (rest t)

theorem streamLoad_turn (st : Nat) (p : Party) (va : Word) (size : Nat) (s : State) : TurnKept (streamLoad st p va size) s :=
  .bind (settleStreams_turn p s) fun _ t =>
    .bind (checkElemBy_turn (streamTranslate_turn st p .load va) p .load va size t) fun pa u =>
      loadPa_turn p va .load pa size true u

theorem streamRaw_turn (st : Nat) (p : Party) (d : StreamDesc) (f n : Nat) (s : State) : TurnKept (streamRaw st p d f n) s := by
  unfold streamRaw
  split
  · next m _ =>
    have coded : ∀ t, TurnKept (qElement p m (palXi d.pal) d.base n >>= fun r => match r with
        | .ok v => pure (v, 0#6)
        | .error a => if palZr d.pal then pure (0, fNV) else vfault 5 a) t := fun t => by
      refine .bind (qElement_turn p m _ d.base n t) fun r u => ?_
      split
      · exact .pure _
      · exact .ite (.pure _) (.throw _)
    exact .ite (.ite (.throw_bind _ _) (coded s)) (.ite
      (.bind (streamLoad_turn st p _ 1 s) fun _ _ => .pure _)
      (.bind (streamLoad_turn st p _ m.bytes s) fun _ _ => .pure _))
  · exact .throw _

theorem fetchWord_turn (va : Word) (s : State) : TurnKept (fetchWord va) s := by
  refine .getH_bind ?_
  split
  · exact .bind (.modH rfl) fun _ _ => .pure _
  · refine .bind (translateM_turn _ va .fetch s) fun x t => .bind (loadPa_turn _ va .fetch x.pa 4 true t) fun w u => ?_
    dsimp only
    split
    case h_1 | h_2 => exact .bind (.modify rfl) fun _ _ => .pure _
    case h_3 => exact .bind (.modH rfl) fun _ _ => .pure _

theorem fetchParcels_turn (s : State) : TurnKept fetchParcels s := by
  refine .getH_bind (.ite (.throw_bind _ _) (.bind (fetchWord_turn _ s) fun lo t => .ite ?_ (.pure _)))
  exact .bind (fetchWord_turn _ t) fun _ _ => .pure _

end Sys2Proof.Machine

namespace Sys2Proof.Machine
open Sys2Proof

/-! ## ENQUEUE -/

/-- The entry that an instruction takes with it into its queue. -/
def Hart.newEntry (h : Hart) (i : Instr) (c : Captured) : QEntry :=
  { pc := h.pc, instr := i, cap := c, seq := h.seq, start := none, ready := false }

/-- The hart after an instruction of n bytes has entered the queue of stream j. -/
def Hart.enqueued (h w : Hart) (j : Nat) (e : QEntry) (n : Nat) : Prop :=
  w.pc = h.pc + BitVec.ofNat 64 n ∧ w.x = h.x ∧ w.v = h.v ∧ w.p = h.p ∧
  w.vq = h.vq ++ (if j = 1 then [e] else []) ∧ w.mq = h.mq ++ (if j = 2 then [e] else []) ∧
  w.cq = h.cq ++ (if j ≠ 1 ∧ j ≠ 2 then [e] else [])

theorem enqueueIn_enqueued (u : State) (j : Nat) (i : Instr) (c : Captured) (n : Nat) :
    let t := ((u.enqueueIn j i c).advance n).goesOn
    t.mem = u.mem ∧ t.hart.id = u.hart.id ∧ u.hart.enqueued t.hart j (u.hart.newEntry i c) n := by
  unfold State.enqueueIn
  split
  case h_1 => exact ⟨rfl, rfl, rfl, rfl, rfl, rfl, rfl, (List.append_nil _).symm, (List.append_nil _).symm⟩
  case h_2 => exact ⟨rfl, rfl, rfl, rfl, rfl, rfl, (List.append_nil _).symm, rfl, (List.append_nil _).symm⟩
  case h_3 n1 n2 =>
    refine ⟨rfl, rfl, rfl, rfl, rfl, rfl, ?_, ?_, ?_⟩
    · rw [if_neg n1]; exact (List.append_nil _).symm
    · rw [if_neg n2]; exact (List.append_nil _).symm
    · rw [if_pos ⟨n1, n2⟩]; rfl

/-- ENQUEUE as the statement about it says. -/
theorem enqueue_enters {s u : State} {h : HartId} {n x j : Nat} {i : Instr} {cap : Captured}
    (running : (s.hartAt h).run = .running) (fetched : fetchParcels (s.focus h) = .ok (n, x) u)
    (queued : queuedOf n x = some i) (captured : captureOf u.hart i = some cap) (stream : u.enqueueStream i = some j)
    (room : u.hart.room j = true) :
    reaches (exec (.enqueue h) s) fun t =>
      t.mem = u.mem ∧ u.hart.enqueued (t.hartAt h) j (u.hart.newEntry i cap) n := by
  obtain ⟨mem, id, entered⟩ := enqueueIn_enqueued u j i cap n
  have turn : u.hart.id = h := (fetchParcels_turn _ _ _ fetched).trans (focus_id s h)
  have back := focus_hartAt s.hart.id (id.trans turn)
  refine ⟨(((u.enqueueIn j i cap).advance n).goesOn).focus s.hart.id, ?_, ?_, ?_⟩
  · show execEnqueue h s = _
    unfold execEnqueue
    rw [if_neg (not_not_intro running), fetched]
    simp only [queued, captured, stream, Option.bind_some, Option.map_some, room, if_true]
  · rw [focus_mem, mem]
  · rw [back]
    exact entered

end Sys2Proof.Machine

namespace Sys2Proof.Machine
open Sys2Proof

/-! ## STREAM_RUN_AHEAD -/

theorem stream_eq (h : Hart) {st : Nat} (hst : st < 16) : h.stream st = h.st[st] := by
  simp [Hart.stream, hst]

theorem stream_setStream (h : Hart) {st : Nat} (hst : st < 16) (r : StreamReg) : (h.setStream st r).stream st = r := by
  rw [stream_eq _ hst, Hart.setStream, dif_pos hst]
  exact Vector.getElem_set_self hst

theorem setStream_only (h : Hart) (st : Nat) (r : StreamReg) : ∃ v, h.setStream st r = { h with st := v } := by
  unfold Hart.setStream
  split
  · exact ⟨_, rfl⟩
  · exact ⟨h.st, rfl⟩

theorem setStream_x (h : Hart) (st : Nat) (r : StreamReg) : (h.setStream st r).x = h.x := by
  unfold Hart.setStream
  split <;> rfl

theorem setStream_v (h : Hart) (st : Nat) (r : StreamReg) : (h.setStream st r).v = h.v := by
  unfold Hart.setStream
  split <;> rfl

/-- A state in which translations of a stream may have been made ready: the turn, the registers and what the stream has
loaded ahead are the same. -/
def readied (st : Nat) (s t : State) : Prop :=
  t.hart.id = s.hart.id ∧ t.hart.x = s.hart.x ∧ t.hart.v = s.hart.v ∧ (t.hart.stream st).ahead = (s.hart.stream st).ahead

theorem readied.trans {st : Nat} {s t u : State} (h : readied st s t) (k : readied st t u) : readied st s u := by
  obtain ⟨hi, hx, hv, ha⟩ := h
  obtain ⟨ki, kx, kv, ka⟩ := k
  exact ⟨ki.trans hi, kx.trans hx, kv.trans hv, ka.trans ha⟩

theorem readied_of_marks {st : Nat} {s t : State} (m : marksOnly s.hart t.hart) : readied st s t :=
  ⟨m.id_eq, m.x_eq, m.v_eq, by rw [Hart.stream, Hart.stream, m.st_eq]⟩

/-- A stream's translation kept ready with the others. -/
def Hart.withReady (h : Hart) (st : Nat) (l : List TlbEntry) : Hart := h.setStream st { h.stream st with ready := l }

theorem readied_withReady {st : Nat} (hst : st < 16) (s : State) (l : List TlbEntry) :
    readied st s { s with hart := s.hart.withReady st l } :=
  ⟨setStream_id _ _ _, setStream_x _ _ _, setStream_v _ _ _, 
    by rw [Hart.withReady, stream_setStream _ hst]⟩

/-- A stream's translation is one that it has ready, or any translation, which it may then keep. -/
theorem streamTranslate_cases {st : Nat} {p : Party} {a : Access} {va : Word} (s : State) :
    (∃ x, streamTranslate st p a va s = .ok x s) ∨
    (∃ e t, translateM p.ctx va a s = .error e t ∧ streamTranslate st p a va s = .error e t) ∨
    ∃ x t, translateM p.ctx va a s = .ok x t ∧ (streamTranslate st p a va s = .ok x t ∨
      ∃ l, streamTranslate st p a va s = .ok x { t with hart := t.hart.withReady st l }) := by
  unfold streamTranslate
  rw [M.bind_ok (getH_apply s)]
  dsimp only
  generalize (if (p.ctx.windowOff va).isSome = true then none else _) = found
  cases found with
  | some e => exact .inl ⟨_, rfl⟩
  | none =>
    right
    dsimp only
    cases ran : translateM p.ctx va a s with
    | error e t => exact .inl ⟨e, t, rfl, M.bind_error ran⟩
    | ok x t =>
      refine .inr ⟨x, t, rfl, ?_⟩
      rw [M.bind_ok ran, M.bind_ok (M.get_apply t)]
      split
      · cases (t.tlb p.ctx).find? fun e => e.hits (fieldOf p.ctx.satp 44 16) va with
        | some e => exact .inr ⟨_, rfl⟩
        | none => exact .inl rfl
      · exact .inl rfl

/-- A page that is made ready, or that faults and is not. -/
theorem readyPage_ok {st : Nat} (hst : st < 16) (d : StreamDesc) (va : Word) (s : State) :
    ∃ t, readyPage st d va s = .ok () t ∧ readied st s t := by
  unfold readyPage
  rcases streamTranslate_cases (st := st) (p := { ctx := s.hart.ctx, self := some s.hart.id, plain := true })
    (a := if d.store then .store else .load) (va := va) s with
    ⟨x, ran⟩ | ⟨e, t, -, ran⟩ | ⟨x, t, tr, ran | ⟨l, ran⟩⟩
  all_goals rw [ran]
  · exact ⟨s, rfl, readied_of_marks (.refl _)⟩
  · exact ⟨s.keepWalks t, rfl, readied_of_marks (keepWalks_marks s t)⟩
  · exact ⟨t, rfl, readied_of_marks (translateM_marks tr)⟩
  · exact ⟨_, rfl, (readied_of_marks (translateM_marks tr)).trans (readied_withReady hst t l)⟩

/-- A page whose translation is held: nothing but the stream changes. -/
theorem readyPage_held {st : Nat} {d : StreamDesc} {va : Word} {s : State} (load : d.store = false)
    (held : (s.heldPa .load va).isSome = true) :
    ∃ v, readyPage st d va s = .ok () { s with hart := { s.hart with st := v } } := by
  obtain ⟨pa, hpa⟩ := Option.isSome_iff_exists.mp held
  obtain ⟨skew, tr⟩ := translate_held hpa
  have ran := translateM_ok tr
  unfold readyPage
  rw [if_neg (by rw [load]; decide)]
  rcases streamTranslate_cases (st := st) (p := { ctx := s.hart.ctx, self := some s.hart.id, plain := true })
    (a := .load) (va := va) s with ⟨x, e⟩ | ⟨e, t, no, -⟩ | ⟨x, t, yes, e | ⟨l, e⟩⟩
  · exact ⟨s.hart.st, by rw [e]⟩
  · cases ran.symm.trans no
  · cases ran.symm.trans yes
    exact ⟨s.hart.st, by rw [e]⟩
  · cases ran.symm.trans yes
    obtain ⟨v, only⟩ := setStream_only s.hart st { s.hart.stream st with ready := l }
    exact ⟨v, by rw [e, Hart.withReady, only]⟩

/-- What the streams of the hart hold has no part in a translation that is held. -/
theorem heldPa_streams (s : State) (v : Vector StreamReg 16) (a : Access) (va : Word) :
    ({ s with hart := { s.hart with st := v } } : State).heldPa a va = s.heldPa a va := rfl

/-- The state after a load stream has taken an element ahead. -/
def State.withAhead (s : State) (st : Nat) (x : AheadElem) : State :=
  { s with hart := s.hart.setStream st { s.hart.stream st with ahead := (s.hart.stream st).ahead ++ [x] } }

/-- An element of a stream that has loaded nothing ahead, at its position. -/
theorem aheadElem_ok {st pos raw : Nat} {d : StreamDesc} {s u : State} (at_ : (s.hart.stream st).pos = [pos])
    (none_ : (s.hart.stream st).ahead = []) (more : pos < d.total)
    (loaded : streamRaw st { s.party with plain := true } d 0 pos s = .ok (raw, 0#6) u) :
    aheadElem st d 0 s = .ok () (u.withAhead st { field := 0, pos := pos, raw := raw, fault := none }) := by
  unfold aheadElem
  simp only [at_, none_, List.getD_cons_zero, List.filter_nil, List.length_nil, Nat.add_zero]
  rw [if_neg (Nat.not_le.mpr more)]
  unfold State.party at loaded
  simp only [loaded, if_true]
  rfl

/-- STREAM_RUN_AHEAD on a stream of one field: the element, and two pages made ready. -/
theorem runAhead_ok {st pos raw : Nat} {d : StreamDesc} {s u : State} (hst : st < 16)
    (desc : (s.hart.stream st).desc = some d) (load : d.store = false) (one : d.fields = 1)
    (at_ : (s.hart.stream st).pos = [pos]) (none_ : (s.hart.stream st).ahead = []) (more : pos < d.total)
    (loaded : streamRaw st { s.party with plain := true } d 0 pos s = .ok (raw, 0#6) u) :
    let x : AheadElem := { field := 0, pos := pos, raw := raw, fault := none }
    ∃ t, runAhead st s = .ok () t ∧ readied st (u.withAhead st x) t ∧
      ((∀ n, n = 0x1000#64 ∨ n = 0x2000#64 → (u.heldPa .load (d.addr 0 pos + n)).isSome = true) → t.mem = u.mem) := by
  intro x
  have elems : forM' (aheadElem st d) (List.range d.fields) s = .ok () (u.withAhead st x) := by
    rw [one, show List.range 1 = [0] from rfl, forM'_cons, M.bind_ok (aheadElem_ok at_ none_ more loaded)]
    rfl
  obtain ⟨t1, ran1, kept1⟩ := readyPage_ok hst d (d.addr 0 pos + 0x2000#64) (u.withAhead st x)
  obtain ⟨t2, ran2, kept2⟩ := readyPage_ok hst d (d.addr 0 pos + 0x1000#64) t1
  refine ⟨t2, ?_, kept1.trans kept2, fun held => ?_⟩
  · unfold runAhead
    rw [M.bind_ok (getH_apply s)]
    simp only [desc, at_, load, List.headD_cons, Bool.not_false, if_true]
    rw [M.bind_ok elems, if_pos more, M.bind_ok ran1, ran2]
  · obtain ⟨v, only⟩ := setStream_only u.hart st { u.hart.stream st with ahead := (u.hart.stream st).ahead ++ [x] }
    have taken : u.withAhead st x = { u with hart := { u.hart with st := v } } := by rw [State.withAhead, only]
    rw [taken] at ran1
    obtain ⟨v1, first⟩ := readyPage_held (st := st) (s := { u with hart := { u.hart with st := v } }) load
      ((congrArg Option.isSome (heldPa_streams u v .load _)).trans (held 0x2000#64 (.inr rfl)))
    cases first.symm.trans ran1
    obtain ⟨v2, second⟩ := readyPage_held (st := st) (s := { u with hart := { u.hart with st := v1 } }) load
      ((congrArg Option.isSome (heldPa_streams u v1 .load _)).trans (held 0x1000#64 (.inl rfl)))
    cases second.symm.trans ran2
    rfl

/-- STREAM_RUN_AHEAD as the statement about it says. -/
theorem streamRunAhead_loads {s u : State} {h : HartId} {st : BitVec 4} {d : StreamDesc} {pos raw : Nat}
    (desc : (s.hartAt h).st[st.toNat].desc = some d) (load : d.store = false) (one : d.fields = 1)
    (at_ : (s.hartAt h).st[st.toNat].pos = [pos]) (none_ : (s.hartAt h).st[st.toNat].ahead = [])
    (more : pos < d.count0 * d.count1 * d.count2)
    (loaded : streamRaw st.toNat { (s.focus h).party with plain := true } d 0 pos (s.focus h) = .ok (raw, 0#6) u) :
    reaches (exec (.streamRunAhead h st) s) fun t =>
      (t.hartAt h).st[st.toNat].ahead =
        u.hart.st[st.toNat].ahead ++ [{ field := 0, pos := pos, raw := raw, fault := none }] ∧
      (t.hartAt h).x = u.hart.x ∧ (t.hartAt h).v = u.hart.v ∧
      ((∀ n, n = 0x1000#64 ∨ n = 0x2000#64 → (u.heldPa .load (d.addr 0 pos + n)).isSome = true) → t.mem = u.mem) := by
  have stream : (s.focus h).hart.stream st.toNat = (s.hartAt h).st[st.toNat] := by
    rw [focus_hart, stream_eq _ st.isLt]
  obtain ⟨t, ran, ⟨id, x, v, ahead⟩, mem⟩ := runAhead_ok st.isLt (by rw [stream]; exact desc) load one
    (by rw [stream]; exact at_) (by rw [stream]; exact none_) more loaded
  have turn : u.hart.id = h := (streamRaw_turn _ _ _ _ _ _ _ _ loaded).trans (focus_id s h)
  have back : (t.focus s.hart.id).hartAt h = t.hart :=
    focus_hartAt _ (id.trans ((setStream_id _ _ _).trans turn))
  refine ⟨t.focus s.hart.id, ?_, ?_, ?_, ?_, ?_⟩
  · show execStreamRunAhead h st s = _
    unfold execStreamRunAhead
    rw [onHart_ok ran]
  · rw [back, ← stream_eq _ st.isLt, ahead, State.withAhead, stream_setStream _ st.isLt, stream_eq _ st.isLt]
  · rw [back, x]; exact setStream_x _ _ _
  · rw [back, v]; exact setStream_v _ _ _
  · rw [focus_mem]; exact mem

/-- Settles O53: each event gives the turn to its hart, does what the hart's own effect does, and gives the turn back;
no access of a hart changes whose turn it is. -/
theorem streamEvents : Obligations.StreamEvents := by
  unfold Obligations.StreamEvents
  intro s h st _
  refine ⟨?_, ?_, ?_, ?_⟩
  · intro n x u i cap j running fetched queued captured stream room
    obtain ⟨t, ran, mem, pc, rx, rv, rp, vq, mq, cq⟩ := enqueue_enters running fetched queued captured stream room
    exact ⟨t, ran, pc, rx, rv, rp, mem, vq, mq, cq⟩
  · intro d pos raw u desc load one at_ none_ more loaded
    exact streamRunAhead_loads desc load one at_ none_ more loaded
  · intro able free
    exact streamStorePerform_performs able free
  · intro e w va rest limit head mmac fresh expired
    exact ownershipTimeout_faults limit head mmac fresh expired

end Sys2Proof.Machine

namespace Sys2Proof.Machine
open Sys2Proof

/-! ## Bytes of memory after a clearing and after a write of bytes -/

theorem Memory.get_clear_inside (m : Memory) {lo hi a : Nat} (h0 : lo ≤ a) (h1 : a < hi) : (m.clear lo hi).get a = blank a := by
  have gone : ∀ c ∈ m.clear lo hi, c.1 ≠ a := by
    intro c hc
    have outside := (List.mem_filter.mp hc).2
    simp only [Bool.or_eq_true, decide_eq_true_eq] at outside
    omega
  generalize m.clear lo hi = l at gone
  induction l with
  | nil => rfl
  | cons c l ih =>
    obtain ⟨here, rest⟩ := List.forall_mem_cons.mp gone
    rw [Memory.get, if_neg (Ne.symm here), ih rest, ite_self]

theorem Memory.get_write_bytes {m : Memory} (a : Nat) (bs : List Byte) (w : m.wf = true) (j : Nat) (hj : j < bs.length) :
    (m.write a bs.length (bytesToNat bs)).get (a + j) = bs.getD j 0#8 := by
  induction bs generalizing m a j with
  | nil => exact absurd hj (Nat.not_lt_zero j)
  | cons b bs ih =>
    have low : BitVec.ofNat 8 (bytesToNat (b :: bs)) = b := by
      refine BitVec.eq_of_toNat_eq ?_
      have := b.isLt
      simp only [bytesToNat, BitVec.toNat_ofNat]
      omega
    have high : bytesToNat (b :: bs) / 256 = bytesToNat bs := by
      have := b.isLt
      simp only [bytesToNat]
      omega
    rw [List.length_cons, Memory.write, low, high]
    have set_ := Memory.wf_set a b w
    cases j with
    | zero => rw [Memory.get_write_outside _ _ _ _ (by omega) set_, Nat.add_zero, Memory.get_set_same a b w]; rfl
    | succ j =>
      rw [show a + (j + 1) = a + 1 + j by omega, ih (a + 1) set_ j (by simpa using hj)]
      rfl

/-! ## The records of clusters and dies -/

section Assoc
variable {α β : Type} [DecidableEq α]

theorem assocGet_assocSet_same (k : α) (d v : β) (l : List (α × β)) : assocGet k d (assocSet k v l) = v := by
  induction l with
  | nil => exact if_pos rfl
  | cons e l ih =>
    obtain ⟨a, b⟩ := e
    by_cases here : a = k
    · simp [assocSet, assocGet, here]
    · simp [assocSet, assocGet, here, ih]

theorem assocGet_assocSet_other {k j : α} (other : j ≠ k) (d v : β) (l : List (α × β)) :
    assocGet j d (assocSet k v l) = assocGet j d l := by
  induction l with
  | nil => exact if_neg (Ne.symm other)
  | cons e l ih =>
    obtain ⟨a, b⟩ := e
    by_cases here : a = k
    · subst here
      simp [assocSet, assocGet, Ne.symm other]
    · simp [assocSet, assocGet, here, ih]

end Assoc

theorem modCluster_same (s : State) (c : ClusterId) (f : Cluster → Cluster) : (s.modCluster c f).cluster c = f (s.cluster c) :=
  assocGet_assocSet_same c _ _ _

theorem modCluster_other (s : State) {c d : ClusterId} (other : d ≠ c) (f : Cluster → Cluster) :
    (s.modCluster c f).cluster d = s.cluster d :=
  assocGet_assocSet_other other _ _ _

theorem modDie_same (s : State) (d : Nat) (f : Die → Die) : (s.modDie d f).die d = f (s.die d) :=
  assocGet_assocSet_same d _ _ _

theorem modCluster_becomes (s : State) (c : ClusterId) (f : Cluster → Cluster) :
    clusterBecomes s (s.modCluster c f) c (f (s.cluster c)) :=
  ⟨rfl, modCluster_same s c f, fun _ other => modCluster_other s other f⟩

/-! ## Entries of a list by a name -/

/-- An entry put in place of those of its name is the one found under it. -/
theorem find?_replaced_same {α : Type} {p : α → Bool} {x : α} (h : p x = true) (l : List α) :
    (l.filter (fun y => !p y) ++ [x]).find? p = some x := by
  have gone : (l.filter fun y => !p y).find? p = none := by
    simp [List.find?_eq_none]
  rw [List.find?_append, gone, List.find?_singleton, if_pos h]
  rfl

/-- Under every other name the list holds what it held. -/
theorem find?_replaced_other {α : Type} {p q : α → Bool} {x : α} (h : q x = false) (apart : ∀ y, q y = true → p y = false)
    (l : List α) : (l.filter (fun y => !p y) ++ [x]).find? q = l.find? q := by
  have same : (fun y => !p y && q y) = q := funext fun y => by
    cases hq : q y with
    | false => exact Bool.and_false _
    | true => rw [apart y hq]; rfl
  rw [List.find?_append, List.find?_filter, List.find?_singleton, if_neg (by simp [h]), Option.or_none]
  exact congrArg (fun r => List.find? r l) (by simpa using same)

end Sys2Proof.Machine

namespace Sys2Proof.Machine
open Sys2Proof

/-! ## Plain registers, budgets and interrupts -/

/-- A register of a cluster whose write is no more than a change of the cluster. -/
theorem registerWrite_becomes {s : State} {c : ClusterId} {v : Word} {r : DeviceReg} {f : Cluster → Cluster}
    (write : exec (.registerWrite r v) s = .next (s.modCluster c f)) :
    reaches (exec (.registerWrite r v) s) fun t => clusterBecomes s t c (f (s.cluster c)) :=
  ⟨_, write, modCluster_becomes s c f⟩

/-- The cluster after a write of bankctl: a minimum that is no multiple of 4 from 4 to 32 is not taken. -/
def Cluster.withMinimum (k : Cluster) (v : Word) : Cluster :=
  { k with mincache := let m := (v.extractLsb' 0 6).toNat; if m % 4 = 0 ∧ 4 ≤ m ∧ m ≤ 32 then m else k.mincache }

theorem bankctlWrite_becomes (s : State) (c : ClusterId) (v : Word) :
    reaches (exec (.registerWrite (.bankctl c) v) s) fun t => clusterBecomes s t c ((s.cluster c).withMinimum v) := by
  show reaches (.next (s.writeRegister (.bankctl c) v)) _
  unfold State.writeRegister fieldOf Cluster.withMinimum
  dsimp only
  split
  · exact ⟨_, rfl, modCluster_becomes s c _⟩
  · exact ⟨s, rfl, rfl, rfl, fun _ _ => rfl⟩

/-- The entry of an address space that the firmware has, or the one that comes into being with its first write. -/
def Device.space (d : Device) (n : Nat) : AddressSpace :=
  (d.spaces.find? fun x => x.asid == n).getD { asid := n, satp := 0#64, sbase := 0#64, trroute := none }

theorem space_asid (d : Device) (n : Nat) : (d.space n).asid = n := by
  unfold Device.space
  cases found : d.spaces.find? fun x => x.asid == n with
  | none => rfl
  | some x => simpa using List.find?_some found

theorem spaceSatpWrite_effect (s : State) (n : Nat) (v : Word) :
    reaches (exec (.registerWrite (.spaceSatp n) v) s) fun t =>
      t = { s with dev := { s.dev with spaces := t.dev.spaces } } ∧
      ((t.dev.spaces.find? fun x => x.asid == n).map AddressSpace.satp) = some v ∧
      ∀ m, m ≠ n → t.dev.spaces.find? (fun x => x.asid == m) = s.dev.spaces.find? fun x => x.asid == m := by
  have named : (({ s.dev.space n with satp := v } : AddressSpace).asid == n) = true := by simp [space_asid]
  refine ⟨_, rfl, rfl, ?_, fun m other => ?_⟩
  · exact congrArg (Option.map AddressSpace.satp) (find?_replaced_same (p := fun x => x.asid == n) named s.dev.spaces)
  · refine find?_replaced_other (p := fun x => x.asid == n) (q := fun x => x.asid == m) ?_ (fun y hy => ?_) s.dev.spaces
    · exact beq_eq_false_iff_ne.mpr fun e => other (e.symm.trans (space_asid s.dev n))
    · simp only [beq_iff_eq] at hy
      simp [hy, other]

theorem ageLimitWrite_effect (s : State) (die : Nat) (v : Word) :
    reaches (exec (.registerWrite (.ageLimit die) v) s) fun t => t.hart = s.hart ∧ t.mem = s.mem ∧
      (t.die die).ageLimit = if 1 ≤ v.toNat ∧ v.toNat ≤ 255 then v.toNat else (s.die die).ageLimit := by
  show reaches (.next (s.writeRegister (.ageLimit die) v)) _
  unfold State.writeRegister
  dsimp only
  split
  · exact ⟨_, rfl, rfl, rfl, congrArg Die.ageLimit (modDie_same s die _)⟩
  · exact ⟨s, rfl, rfl, rfl, rfl⟩

/-! ### Budgets -/

theorem budget_isFor (k : Cluster) (unit cls sub : Nat) : (k.budget unit cls sub).isFor unit cls sub = true := by
  unfold Cluster.budget
  cases found : k.budgets.find? fun b => b.isFor unit cls sub with
  | none => simp [Budget.isFor, Budget.reset]
  | some b => simpa using List.find?_some found

/-- A budget whose next value waits for the tick. -/
def Budget.withPending (b : Budget) (unit : Nat) (v : Word) : Budget :=
  { b with pending := some (if unit = 0 then min 131072 (v.toNat % 2 ^ 48) else v.toNat % 2 ^ 48, v.getLsbD 63) }

theorem budvalWrite_effect {s : State} {c : ClusterId} {v : Word} {unit cls sub : Nat}
    (sel : budgetOf (s.cluster c).budsel = some (unit, cls, sub)) :
    reaches (exec (.budvalWrite c v) s) fun t =>
      let home : ClusterId := if unit = 1 then { die := c.die, cluster := 0 } else c
      t = { s with clusters := t.clusters } ∧
      (t.cluster home).budget unit cls sub = ((s.cluster home).budget unit cls sub).withPending unit v := by
  let home : ClusterId := if unit = 1 then { die := c.die, cluster := 0 } else c
  let b := ((s.cluster home).budget unit cls sub).withPending unit v
  have ran : exec (.budvalWrite c v) s = .next (s.modCluster home fun k =>
      { k with budgets := (k.budgets.filter fun x => !x.isFor unit cls sub) ++
        [{ k.budget unit cls sub with pending := some (budgetLimit unit v, v.getLsbD 63) }] }) := by
    show execBudvalWrite c v s = _
    unfold execBudvalWrite
    rw [sel]
  have limit : budgetLimit unit v = if unit = 0 then min 131072 (v.toNat % 2 ^ 48) else v.toNat % 2 ^ 48 := by
    simp [budgetLimit, fieldOf]
  have mine : b.isFor unit cls sub = true := budget_isFor _ unit cls sub
  refine ⟨_, ran, rfl, ?_⟩
  rw [modCluster_same, limit]
  exact congrArg (Option.getD · (Budget.reset unit cls sub))
    (find?_replaced_same (p := fun x : Budget => x.isFor unit cls sub) mine _)

/-! ### SSIP and the timer -/

/-- A hart with SSIP set. -/
def Hart.withSsip (h : Hart) : Hart := { h with ssip := true }

theorem ssisetWrite_effect (s : State) (c : ClusterId) (v : Word) :
    reaches (exec (.ssisetWrite c v) s) fun t => t.mem = s.mem ∧ ∀ g x, s.findHart g = some x →
      t.findHart g = some (if g.clusterId = c ∧ v.getLsbD (8 * g.core + g.hart) = true then x.withSsip else x) := by
  refine ⟨_, rfl, rfl, fun g x found => ?_⟩
  obtain rfl : x.id = g := by simpa using List.find?_some found
  refine (findHart_mapHarts s _ (fun h => ?_) _).trans ?_
  · split <;> rfl
  · rw [found]
    rfl

theorem timerInterrupt_effect (s : State) (h : HartId) :
    reaches (exec (.supervisorTimerInterrupt h) s) fun t => (s.hartAt h).stimecmp.toNat ≤ t.dev.refTime ∧
      s.dev.refTime ≤ t.dev.refTime ∧ t = { s with dev := { s.dev with refTime := t.dev.refTime } } :=
  ⟨_, rfl, Nat.le_max_right _ _, Nat.le_max_left _ _, rfl⟩

end Sys2Proof.Machine

namespace Sys2Proof.Machine
open Sys2Proof

/-! ## A write of bankmode -/

/-- Banks that are to keep their modes are passed over. -/
theorem switchBanks_skip {s : State} {c : ClusterId} {v : Word} {l m : List Nat} {r : Option (Nat × Nat)}
    (same : ∀ j, j ∈ l → fieldOf (s.cluster c).bankmode (2 * j) 2 = fieldOf v (2 * j) 2) :
    s.switchBanks c v (l ++ m) r = s.switchBanks c v m r := by
  induction l with
  | nil => rfl
  | cons j l ih =>
    obtain ⟨here, rest⟩ := List.forall_mem_cons.mp same
    rw [List.cons_append, State.switchBanks, if_pos here, ih rest]

theorem switchBanks_same {s : State} {c : ClusterId} {v : Word} {l : List Nat} {r : Option (Nat × Nat)}
    (same : ∀ j, j ∈ l → fieldOf (s.cluster c).bankmode (2 * j) 2 = fieldOf v (2 * j) 2) :
    s.switchBanks c v l r = (s, r) := by
  rw [← List.append_nil l, switchBanks_skip same]
  rfl

theorem wipeBank_bankmode (s : State) (c : ClusterId) (b : Nat) :
    ((s.wipeBank c b).cluster c).bankmode = (s.cluster c).bankmode := by
  unfold State.wipeBank State.wipe
  rw [modCluster_same]
  rfl

theorem switchBank_bankmode (s : State) (c : ClusterId) (b new : Nat) :
    ((s.switchBank c b new).cluster c).bankmode = setField (s.cluster c).bankmode (2 * b) 2 new := by
  unfold State.switchBank
  rw [modCluster_same, wipeBank_bankmode]

/-- A write that gives one bank a new mode does no more than its switch, or shows why it is refused. -/
theorem switchBanks_one {s : State} {c : ClusterId} {b new : Nat} (hb : b < 32) (hn : new < 4)
    (change : fieldOf (s.cluster c).bankmode (2 * b) 2 ≠ new) :
    s.switchBanks c (setField (s.cluster c).bankmode (2 * b) 2 new) (List.range 32) none =
      match s.refusal c b new with
      | some why => (s, some (b, why))
      | none => (s.switchBank c b new, none) := by
  let v := setField (s.cluster c).bankmode (2 * b) 2 new
  obtain ⟨before, after, split⟩ := List.append_of_mem (List.mem_range.mpr hb)
  have once : (before ++ b :: after).Nodup := split ▸ List.nodup_range
  have small : ∀ j, j ∈ before ++ b :: after → j < 32 := fun j hj => List.mem_range.mp (split ▸ hj)
  obtain ⟨-, tail, apart⟩ := List.nodup_append.mp once
  have kept : ∀ j, j < 32 → j ≠ b → fieldOf (s.cluster c).bankmode (2 * j) 2 = fieldOf v (2 * j) 2 := fun j hj other =>
    (fieldOf_setField_other _ new (by omega) (by omega)).symm
  have first : ∀ j, j ∈ before → fieldOf (s.cluster c).bankmode (2 * j) 2 = fieldOf v (2 * j) 2 := fun j hj =>
    kept j (small j (by simp [hj])) fun e => apart j hj b (List.mem_cons_self ..) e
  have rest : ∀ j, j ∈ after → fieldOf (s.cluster c).bankmode (2 * j) 2 = fieldOf v (2 * j) 2 := fun j hj =>
    kept j (small j (by simp [hj])) fun e => (List.nodup_cons.mp tail).1 (e ▸ hj)
  have field : fieldOf v (2 * b) 2 = new :=
    (fieldOf_setField_same _ new (by omega)).trans (Nat.mod_eq_of_lt hn)
  rw [split, switchBanks_skip first, State.switchBanks, field, if_neg change]
  cases s.refusal c b new with
  | some why => exact switchBanks_same rest
  | none => exact switchBanks_same fun j _ => by rw [switchBank_bankmode]

/-- What bankctl shows of a refusal: the bank and the reason. -/
theorem bankst_refused {b : Nat} (hb : b < 32) (why : Nat) :
    setField (setField 0#64 8 5 b) 16 4 why = BitVec.ofNat 64 (256 * b + 2 ^ 16 * (why % 16)) := by
  refine BitVec.eq_of_getLsbD_eq fun k hk => ?_
  have split : 256 * b + 2 ^ 16 * (why % 16) = 2 ^ 16 * (why % 2 ^ 4) + 2 ^ 8 * b := Nat.add_comm ..
  have zero : ∀ j, 5 ≤ j → b.testBit j = false := fun j hj =>
    Nat.testBit_lt_two_pow (Nat.lt_of_lt_of_le hb (Nat.pow_le_pow_right (show 0 < 2 by decide) hj))
  rw [setField_getLsbD _ _ _ _ _ hk, setField_getLsbD _ _ _ _ _ hk, BitVec.getLsbD_zero,
    BitVec.getLsbD_ofNat, split, Nat.testBit_two_pow_mul_add _ (by omega), Nat.testBit_two_pow_mul,
    Nat.testBit_mod_two_pow]
  by_cases low : k < 16
  · by_cases bank : 8 ≤ k ∧ k < 8 + 5
    · simp [low, bank, hk, show ¬ 16 ≤ k by omega]
    · have none_ : (decide (8 ≤ k) && b.testBit (k - 8)) = false := by
        by_cases h : 8 ≤ k
        · simp [zero (k - 8) (by omega)]
        · simp [h]
      simp [low, bank, show ¬ 16 ≤ k by omega, none_]
  · by_cases reason : k < 16 + 4
    · simp [low, reason, hk, show 16 ≤ k by omega, show k - 16 < 4 by omega]
    · simp [low, reason, show ¬ k < 8 + 5 by omega, show ¬ k - 16 < 4 by omega]

/-- What bankctl shows, in the cluster that a write of bankmode leaves. -/
theorem cluster_shown (s : State) (c : ClusterId) (st : Word) (l : List Instr) :
    ((s.modCluster c fun k => { k with bankst := st }).post l).cluster c = { s.cluster c with bankst := st } :=
  modCluster_same s c fun k => { k with bankst := st }

theorem bankmodeWrite_refused {s : State} {c : ClusterId} {b new why : Nat} (hb : b < 32) (hn : new < 4)
    (change : fieldOf (s.cluster c).bankmode (2 * b) 2 ≠ new) (refused : s.refusal c b new = some why) :
    reaches (exec (.bankmodeWrite c (setField (s.cluster c).bankmode (2 * b) 2 new)) s) fun t =>
      t = { s with clusters := t.clusters, inbox := s.inbox ++ [.place c.die] } ∧
      t.cluster c = { s.cluster c with bankst := BitVec.ofNat 64 (256 * b + 2 ^ 16 * (why % 16)) } := by
  refine ⟨_, rfl, ?_, ?_⟩
  · simp only [switchBanks_one hb hn change, refused]
    rfl
  · simp only [switchBanks_one hb hn change, refused, bankst_refused hb]
    exact cluster_shown s c _ _

theorem bankmodeWrite_switches {s : State} {c : ClusterId} {b new : Nat} (i : s.Inv) (hb : b < 32) (hn : new < 4)
    (change : fieldOf (s.cluster c).bankmode (2 * b) 2 ≠ new) (free : s.refusal c b new = none) :
    reaches (exec (.bankmodeWrite c (setField (s.cluster c).bankmode (2 * b) 2 new)) s) fun t =>
      (t.cluster c).bankmode = setField (s.cluster c).bankmode (2 * b) 2 new ∧ (t.cluster c).bankst = 0#64 ∧
      t.hart = s.hart ∧ ∀ a, t.mem.get a =
        if apertureBase c.index + 0x2_0000 * b ≤ a ∧ a < apertureBase c.index + 0x2_0000 * (b + 1) then blank a
        else s.mem.get a := by
  have ran : exec (.bankmodeWrite c (setField (s.cluster c).bankmode (2 * b) 2 new)) s =
      .next (((s.switchBank c b new).modCluster c fun k => { k with bankst := 0#64 }).post [.place c.die]) := by
    show execBankmodeWrite _ _ s = _
    unfold execBankmodeWrite
    simp only [switchBanks_one hb hn change, free]
  refine ⟨_, ran, ?_, ?_, rfl, fun a => ?_⟩
  · rw [cluster_shown]; exact switchBank_bankmode s c b new
  · rw [cluster_shown]
  · show (s.mem.clear _ _).get a = _
    split
    · next inside => exact Memory.get_clear_inside s.mem inside.1 inside.2
    · next outside => exact Memory.get_clear_outside _ _ a (by omega) i

/-! ## A write of the ring table -/

theorem noteLines_keep (self : Option HartId) (l : List Nat) (s : State) :
    (l.foldl (fun t o => t.noteLine self (lineOf o)) s).mem = s.mem ∧
      marksOnly s.hart (l.foldl (fun t o => t.noteLine self (lineOf o)) s).hart := by
  induction l generalizing s with
  | nil => exact ⟨rfl, .refl _⟩
  | cons o l ih =>
    obtain ⟨mem, marks⟩ := ih (s.noteLine self (lineOf o))
    exact ⟨mem, (seesWrite_marksOnly s.dev.coarse s.hart self (lineOf o)).trans marks⟩

/-- Owner fields that go back to 0 change no byte, and of the hart no more than writes of lines do. -/
theorem resetOwners_keeps (s : State) (self : Option HartId) (cluster entry : Nat) :
    (s.resetOwners self cluster entry).mem = s.mem ∧ marksOnly s.hart (s.resetOwners self cluster entry).hart := by
  unfold State.resetOwners
  split
  · dsimp only
    split
    · exact noteLines_keep self _ (s.setCluster (ClusterId.ofIndex cluster) _)
    · exact ⟨rfl, .refl _⟩
  · exact ⟨rfl, .refl _⟩

/-- A naturally aligned access has 1, 2, 4 or 8 bytes, at a multiple of its size. -/
theorem natAligned_cases {off n : Nat} (small : off < 4096) (h : natAligned off n = true) :
    (n = 1 ∨ n = 2 ∨ n = 4 ∨ n = 8) ∧ off % n = 0 := by
  unfold natAligned at h
  have value : ((off : Word)).toNat = off := by
    show (BitVec.ofNat 64 off).toNat = off
    rw [BitVec.toNat_ofNat]
    omega
  simp only [Bool.and_eq_true, Bool.or_eq_true, beq_iff_eq, value] at h
  omega

/-- The device's own store to a ring table. -/
theorem storeRingTable_keeps {s : State} {pa n v cluster entry off : Nat} (h0 : 0 < n) (h1 : pa % 128 + n ≤ 128) :
    (s.storeRingTable deviceParty none pa n v cluster entry off).mem = s.mem.write pa n v ∧
      marksOnly s.hart (s.storeRingTable deviceParty none pa n v cluster entry off).hart := by
  obtain ⟨mem, marks, -, -⟩ := performed_physStore (s := s) (self := none) (v := v) h0 h1
  unfold State.storeRingTable
  rw [if_pos (by rfl)]
  dsimp only
  split
  · obtain ⟨same, more⟩ := resetOwners_keeps (s.physStore none pa n v) none cluster entry
    exact ⟨same.trans mem, marks.trans more⟩
  · exact ⟨mem, marks⟩

theorem ringTableWrite_stores {s : State} {c : ClusterId} {off : Nat} {data : List Byte} (i : s.Inv) (small : off < 4096)
    (natural : natAligned off data.length = true) :
    reaches (exec (.ringTableWrite c off data) s) fun t => bytesBecome s t (ringTableEntry c.index 0 + off) data := by
  obtain ⟨size, aligned⟩ := natAligned_cases small natural
  have oneLine : (ringTableEntry c.index 0 + off) % 128 + data.length ≤ 128 := by
    unfold ringTableEntry
    rcases size with n | n | n | n <;> rw [n] at aligned ⊢ <;> omega
  obtain ⟨mem, marks⟩ := storeRingTable_keeps (s := s) (v := bytesToNat data) (cluster := c.index) (entry := off / 64)
    (off := off % 64) (by omega) oneLine
  refine ⟨_, ?_, ?_, ?_, marks.x_eq, marks.pc_eq, marks.v_eq, marks.p_eq⟩
  · show execRingTableWrite c off data s = _
    unfold execRingTableWrite
    rw [if_pos ⟨natural, small⟩]
  · rw [mem]
    exact Memory.get_write_bytes _ data i
  · intro a outside
    rw [mem]
    exact Memory.get_write_outside _ _ _ a outside i

end Sys2Proof.Machine

namespace Sys2Proof.Machine
open Sys2Proof

/-- Settles O50: most of the registers are one change of one record; a write of bankmode passes over the banks that keep
their modes, and the device's store to the ring table lies in one line. -/
theorem clusterRegisters : Obligations.ClusterRegisters := by
  unfold Obligations.ClusterRegisters
  intro s c h v die n i
  refine ⟨?irq, ?errlog, ?pcsel, ?pcidx, ?budsel, ?mtimeout, ?sdva, ?sdcw, ?dxsel, bankctlWrite_becomes s c v, ?hostbase,
    ?hsdva, ?hsdcw, ?devid, spaceSatpWrite_effect s n v, ageLimitWrite_effect s die v, ?budval, ssisetWrite_effect s c v,
    timerInterrupt_effect s h, ?sweep, ?bankmode, ?ringTable⟩
  case irq => exact ⟨_, rfl, modCluster_becomes s c fun k => { k with irqs := k.irqs ++ [v] }⟩
  case errlog =>
    obtain ⟨-, read, others⟩ := modCluster_becomes s c fun k => { k with errlog := 0#64 }
    exact ⟨_, rfl, rfl, read, others⟩
  case pcsel => exact registerWrite_becomes (f := fun k => { k with pcsel := v &&& 0x3F#64 }) rfl
  case pcidx => exact registerWrite_becomes (f := fun k => { k with pcidx := v }) rfl
  case budsel => exact registerWrite_becomes (f := fun k => { k with budsel := v &&& 0xFFF#64 }) rfl
  case mtimeout => exact registerWrite_becomes (f := fun k => { k with mtimeout := v &&& 0xFFFF_FFFF#64 }) rfl
  case sdva => exact registerWrite_becomes (f := fun k => { k with sd := { k.sd with va := v } }) rfl
  case sdcw => exact registerWrite_becomes (f := fun k => { k with sd := { k.sd with cword := v &&& ~~~7#64 } }) rfl
  case dxsel => exact registerWrite_becomes (f := fun k => { k with dxsel := v &&& 0x1FF#64 }) rfl
  case hostbase | hsdva | hsdcw | devid => exact ⟨_, rfl, rfl⟩
  case budval => exact fun unit cls sub sel => budvalWrite_effect sel
  case sweep => exact ⟨s, rfl, rfl⟩
  case bankmode =>
    rintro b new hb hn change rfl
    exact ⟨fun why refused => bankmodeWrite_refused hb hn change refused, bankmodeWrite_switches i hb hn change⟩
  case ringTable => exact fun off data small natural => ringTableWrite_stores i small natural

end Sys2Proof.Machine

namespace Sys2Proof.Machine
open Sys2Proof

/-! ## Integer formats (R36, R48, R51) -/

/-- The bounds of an integer format. -/
def intLow (signed : Bool) (w : Nat) : Int := if signed then -2 ^ (w - 1) else 0
def intHigh (signed : Bool) (w : Nat) : Int := if signed then 2 ^ (w - 1) - 1 else 2 ^ w - 1

/-- The pattern of w bits that an integer wraps to. -/
def wrapTo (w : Nat) (v : Int) : Nat := (v % (2 ^ w : Nat)).toNat

theorem wrapTo_cast (w : Nat) (v : Int) : (wrapTo w v : Int) = v % (2 ^ w : Nat) :=
  Int.toNat_of_nonneg (Int.emod_nonneg v (by positivity))

theorem wrapTo_lt (w : Nat) (v : Int) : wrapTo w v < 2 ^ w := by
  have h := Int.emod_lt_of_pos v (b := (2 ^ w : Nat)) (by positivity)
  rw [← wrapTo_cast] at h
  exact_mod_cast h

theorem encodeInt_saturates (signed : Bool) (w : Nat) (v : Int) :
    encodeInt signed w true v =
      if v < intLow signed w then (wrapTo w (intLow signed w), fSAT)
      else if intHigh signed w < v then (wrapTo w (intHigh signed w), fSAT) else (wrapTo w v, 0#6) := by
  unfold encodeInt intLow intHigh wrapTo
  simp only [if_true]
  push_cast
  rfl

/-- A pattern differs from the integer that wraps to it by a multiple of 2^w. -/
theorem decodeInt_wrapTo_emod (signed : Bool) (w : Nat) (v : Int) : (decodeInt signed w (wrapTo w v) - v) % 2 ^ w = 0 := by
  have small : wrapTo w v % 2 ^ w = wrapTo w v := Nat.mod_eq_of_lt (wrapTo_lt w v)
  have cast : (wrapTo w v : Int) = v % 2 ^ w := by simpa using wrapTo_cast w v
  unfold decodeInt
  simp only [small]
  split
  · push_cast
    rw [cast, sub_right_comm, Int.sub_emod_right, Int.emod_sub_emod, sub_self, Int.zero_emod]
  · rw [cast, Int.emod_sub_emod, sub_self, Int.zero_emod]

/-- An integer in range is the value of the pattern that it wraps to. -/
theorem decodeInt_wrapTo (signed : Bool) {w : Nat} (hw : 0 < w) {v : Int} (hl : intLow signed w ≤ v)
    (hh : v ≤ intHigh signed w) :
    decodeInt signed w (wrapTo w v) = v := by
  have small : wrapTo w v % 2 ^ w = wrapTo w v := Nat.mod_eq_of_lt (wrapTo_lt w v)
  obtain ⟨k, rfl⟩ : ∃ k, w = k + 1 := ⟨w - 1, by omega⟩
  have pow : (2 : Int) ^ (k + 1) = 2 * 2 ^ k := by ring
  have cast : (wrapTo (k + 1) v : Int) = v % 2 ^ (k + 1) := by simpa using wrapTo_cast (k + 1) v
  have natPow : (2 : Nat) ^ (k + 1) = 2 * 2 ^ k := by ring
  unfold intLow at hl
  unfold intHigh at hh
  unfold decodeInt
  simp only [small, Nat.add_sub_cancel] at hl hh ⊢
  have pos : (0 : Int) < 2 ^ k := by positivity
  by_cases neg : v < 0
  · have signed_ : signed = true := by by_contra h; simp [h] at hl; omega
    have value : (wrapTo (k + 1) v : Int) = v + 2 ^ (k + 1) := by
      rw [cast, ← Int.add_emod_right, Int.emod_eq_of_lt] <;> simp only [signed_, if_true] at hl <;> omega
    have top : 2 ^ (k + 1) ≤ 2 * wrapTo (k + 1) v := by
      have : (2 : Int) ^ (k + 1) ≤ 2 * (wrapTo (k + 1) v : Int) := by simp only [signed_, if_true] at hl; omega
      exact_mod_cast this
    rw [if_pos (by simp [signed_, top]), value]
    push_cast
    omega
  · have value : (wrapTo (k + 1) v : Int) = v := by
      rw [cast, Int.emod_eq_of_lt (by omega)]
      split at hh <;> omega
    rw [if_neg, value]
    simp only [Bool.and_eq_true, decide_eq_true_eq, not_and]
    intro signed_ top
    have : (2 : Int) ^ (k + 1) ≤ 2 * (wrapTo (k + 1) v : Int) := by exact_mod_cast top
    simp only [signed_, if_true] at hh
    omega

theorem intLow_le_intHigh (signed : Bool) (w : Nat) : intLow signed w ≤ intHigh signed w := by
  have p : (0 : Int) < 2 ^ (w - 1) := by positivity
  have q : (0 : Int) < 2 ^ w := by positivity
  unfold intLow intHigh
  split <;> omega

theorem encodeInt_inRange (signed sat : Bool) (w : Nat) {v : Int} (hl : intLow signed w ≤ v)
    (hh : v ≤ intHigh signed w) :
    encodeInt signed w sat v = (wrapTo w v, 0#6) := by
  cases sat with
  | false => rfl
  | true => rw [encodeInt_saturates, if_neg (by omega), if_neg (by omega)]

theorem encodeInt_below {signed : Bool} {w : Nat} {v : Int} (h : v < intLow signed w) :
    encodeInt signed w true v = (wrapTo w (intLow signed w), fSAT) := by
  rw [encodeInt_saturates, if_pos h]

theorem encodeInt_above {signed : Bool} {w : Nat} {v : Int} (h : intHigh signed w < v) :
    encodeInt signed w true v = (wrapTo w (intHigh signed w), fSAT) := by
  have ends := intLow_le_intHigh signed w
  rw [encodeInt_saturates, if_neg (by omega), if_pos h]

theorem encodeInt_lt (signed sat : Bool) (w : Nat) (v : Int) : (encodeInt signed w sat v).1 < 2 ^ w := by
  cases sat with
  | false => exact wrapTo_lt w v
  | true =>
    rw [encodeInt_saturates]
    split
    · exact wrapTo_lt w _
    · split <;> exact wrapTo_lt w _

/-! ## Floating-point formats (R35 to R38, R50 to R53) -/

theorem roundUp_exact (rm : Nat) (neg odd : Bool) : roundUp rm neg odd false (-1) = false := by
  unfold roundUp
  split <;> simp

/-- A value that is a multiple of 2^q is rounded to itself. -/
theorem roundTo_exact (rm : Nat) (neg : Bool) (m : Nat) {e q : Int} (h : q ≤ e) :
    roundTo rm neg m e false q = (m * 2 ^ (e - q).toNat, false) := by
  unfold roundTo
  rw [if_pos h]
  simp only [roundUp_exact, Bool.false_eq_true, if_false]

/-- The pattern of a sign, an exponent field and a mantissa field. -/
def packFields (f : Fmt) (neg : Bool) (ex m : Nat) : Nat := (if neg then 2 ^ (f.mbits + f.ebits) else 0) + ex * 2 ^ f.mbits + m

theorem packFields_of_bits (f : Fmt) {n : Nat} (h : n < 2 ^ (f.mbits + f.ebits + 1)) :
    packFields f (n / 2 ^ (f.mbits + f.ebits) % 2 == 1) (n / 2 ^ f.mbits % 2 ^ f.ebits) (n % 2 ^ f.mbits) = n := by
  have low := Nat.div_add_mod n (2 ^ f.mbits)
  have high := Nat.div_add_mod (n / 2 ^ f.mbits) (2 ^ f.ebits)
  have sign : n / 2 ^ (f.mbits + f.ebits) < 2 := Nat.div_lt_of_lt_mul (by rw [← pow_succ]; exact h)
  rw [Nat.div_div_eq_div_mul, ← pow_add] at high
  have top : (if (n / 2 ^ (f.mbits + f.ebits) % 2 == 1) then 2 ^ (f.mbits + f.ebits) else 0) =
      2 ^ (f.mbits + f.ebits) * (n / 2 ^ (f.mbits + f.ebits)) := by
    obtain z | o := Nat.le_one_iff_eq_zero_or_eq_one.mp (Nat.lt_succ_iff.mp sign)
    · rw [z]; rfl
    · rw [o]; simp
  unfold packFields
  rw [top]
  calc _ = 2 ^ f.mbits * (2 ^ f.ebits * (n / 2 ^ (f.mbits + f.ebits)) + n / 2 ^ f.mbits % 2 ^ f.ebits) + n % 2 ^ f.mbits := by
        rw [pow_add]; ring
    _ = n := by rw [high, low]

theorem log2_significand {mb m : Nat} (h : m < 2 ^ mb) : Nat.log2 (2 ^ mb + m) = mb := by
  have p := Nat.two_pow_pos mb
  exact (Nat.log2_eq_iff (by omega)).mpr ⟨by omega, by rw [pow_succ]; omega⟩

theorem packFinite_normal (f : Fmt) (neg : Bool) {ex m : Nat} (h1 : 1 ≤ ex) (hm : m < 2 ^ f.mbits) :
    packFinite f neg (2 ^ f.mbits + m) ((ex : Int) - f.bias - f.mbits) = packFields f neg ex m := by
  have p := Nat.two_pow_pos f.mbits
  have normal : f.emin ≤ (f.mbits : Int) + ((ex : Int) - f.bias - f.mbits) := by unfold Fmt.emin; omega
  have field : ((f.mbits : Int) + ((ex : Int) - f.bias - f.mbits) + f.bias).toNat = ex := by omega
  unfold packFinite packFields
  simp only [log2_significand hm, if_neg (show ¬ 2 ^ f.mbits + m = 0 by omega), if_pos normal, field, le_refl, if_true,
    Nat.sub_self, pow_zero, Nat.mul_one, Nat.add_sub_cancel_left]

theorem packFinite_denormal (f : Fmt) (neg : Bool) {m : Nat} (hm : m < 2 ^ f.mbits) :
    packFinite f neg m (f.emin - f.mbits) = packFields f neg 0 m := by
  unfold packFinite packFields
  by_cases zero : m = 0
  · simp [zero]
  · have short : Nat.log2 m < f.mbits := (Nat.log2_lt zero).mpr hm
    have tiny : ¬ f.emin ≤ (Nat.log2 m : Int) + (f.emin - f.mbits) := by omega
    simp [zero, tiny]

/-- A significand of the format's precision, or one at its denormal spacing, that does not overflow is encoded as it is. -/
theorem encodeFloat_exact (f : Fmt) (c : EncMode) (noFlush : c.ftz = false) (s : Bool) {m : Nat} {e : Int} (hm : m ≠ 0)
    (fits : (Nat.log2 m = f.mbits ∧ f.emin - f.mbits ≤ e) ∨ (Nat.log2 m < f.mbits ∧ e = f.emin - f.mbits))
    (inRange : (Nat.log2 m : Int) + e - f.mbits < f.maxExp ∨
      ((Nat.log2 m : Int) + e - f.mbits = f.maxExp ∧ e = f.maxExp ∧ m ≤ f.maxSig)) :
    encodeFloat f f.prec c (.num s m e false) = (packFinite f s m e, 0#6) := by
  have places : ((f.prec - 1 : Nat) : Int) = f.mbits := rfl
  have spacing : max (leadExp m e - f.mbits) (f.emin - f.mbits) = e := by unfold leadExp; omega
  have fine : leadExp m e - f.mbits ≤ e := by unfold leadExp; omega
  have noOverflow : ¬(m ≠ 0 ∧ (f.maxExp < leadExp m e - f.mbits ∨ f.maxExp = leadExp m e - f.mbits ∧
      (f.maxSig : Int) * 2 ^ (f.maxExp - e).toNat < m * 2 ^ (e - f.maxExp).toNat)) := by
    rintro ⟨-, beyond | ⟨top, beyond⟩⟩
    · unfold leadExp at beyond; omega
    · unfold leadExp at top
      obtain ⟨-, rfl, sig⟩ : (Nat.log2 m : Int) + e - f.mbits = f.maxExp ∧ e = f.maxExp ∧ m ≤ f.maxSig := by omega
      simp at beyond
      omega
  unfold encodeFloat
  simp only [places, spacing, roundTo_exact _ _ _ (le_refl e), roundTo_exact _ _ _ fine, sub_self, Int.toNat_zero, pow_zero,
    Nat.mul_one, hm, false_and, if_false, if_neg noOverflow, noFlush, Bool.and_false, Bool.false_eq_true, BitVec.or_zero]

theorem float_cases {f : Fmt} (h : f ∈ [Fmt.f64, .f32, .f16, .b16, .e4m3, .e5m2]) :
    f.width = f.mbits + f.ebits + 1 ∧ f.emin - f.mbits < f.maxExp ∧ (f.hasInf = true ∨ f = .e4m3) := by
  revert f; decide

/-- The largest finite value of a format with an infinity has the exponent field next to the top one and every bit of the
mantissa. -/
theorem largest_withInf {f : Fmt} (inf : f.hasInf = true) :
    f.maxExp = (2 ^ f.ebits - 2 : Nat) - (f.bias : Int) - f.mbits ∧ f.maxSig = 2 ^ f.mbits + (2 ^ f.mbits - 1) := by
  have p := Nat.two_pow_pos f.mbits
  unfold Fmt.maxExp Fmt.maxSig
  rw [if_pos inf, if_pos inf, pow_succ]
  exact ⟨rfl, by omega⟩

/-- A finite pattern means its fields: a denormal, or a significand with the implicit bit that is at most the largest. -/
theorem decodeFloat_cases {f : Fmt} {n : Nat} (known : f.hasInf = true ∨ f = .e4m3) (fin : (decodeFloat f n).finite = true) :
    let m := n % 2 ^ f.mbits
    let ex := n / 2 ^ f.mbits % 2 ^ f.ebits
    let s := n / 2 ^ (f.mbits + f.ebits) % 2 == 1
    (ex = 0 ∧ decodeFloat f n = .num s m (f.emin - f.mbits) false) ∨
    (1 ≤ ex ∧ decodeFloat f n = .num s (2 ^ f.mbits + m) ((ex : Int) - f.bias - f.mbits) false ∧
      ((ex : Int) - f.bias - f.mbits < f.maxExp ∨ ((ex : Int) - f.bias - f.mbits = f.maxExp ∧
        2 ^ f.mbits + m ≤ f.maxSig))) := by
  intro m ex s
  have hm : m < 2 ^ f.mbits := Nat.mod_lt _ (Nat.two_pow_pos _)
  have hex : ex < 2 ^ f.ebits := Nat.mod_lt _ (Nat.two_pow_pos _)
  have value : decodeFloat f n = if f.hasInf && ex == 2 ^ f.ebits - 1 then
        if m = 0 then .inf s else .nan (some (s, m, f.mbits)) (f.hasSnan && decide (m < 2 ^ (f.mbits - 1)))
      else if !f.hasInf && ex == 2 ^ f.ebits - 1 && m == 7 then .nan (some (s, m, f.mbits)) false
      else if ex = 0 then .num s m (f.emin - f.mbits) false
      else .num s (2 ^ f.mbits + m) ((ex : Int) - f.bias - f.mbits) false := rfl
  rw [value] at fin ⊢
  rcases known with inf | rfl
  · obtain ⟨exp, sig⟩ := largest_withInf inf
    by_cases top : ex = 2 ^ f.ebits - 1
    · rw [if_pos (by simp [inf, top])] at fin
      split at fin <;> simp [Val.finite] at fin
    · rw [if_neg (by simp [top]), if_neg (by simp [inf])]
      by_cases zero : ex = 0
      · exact .inl ⟨zero, by rw [if_pos zero]⟩
      · exact .inr ⟨by omega, by rw [if_neg zero], by rw [exp, sig]; omega⟩
  · have exp : Fmt.e4m3.maxExp = 15 - (Fmt.e4m3.bias : Int) - Fmt.e4m3.mbits := rfl
    have sig : Fmt.e4m3.maxSig = 2 ^ Fmt.e4m3.mbits + 6 := rfl
    have bits : 2 ^ Fmt.e4m3.ebits = 16 := rfl
    have mant : 2 ^ Fmt.e4m3.mbits = 8 := rfl
    rw [if_neg (by simp [Fmt.hasInf])] at fin ⊢
    by_cases nan : ex = 15 ∧ m = 7
    · rw [if_pos (by simp [nan, Fmt.hasInf, bits])] at fin
      simp [Val.finite] at fin
    · rw [if_neg (by simpa [Fmt.hasInf, bits] using nan)]
      by_cases zero : ex = 0
      · exact .inl ⟨zero, by rw [if_pos zero]⟩
      · exact .inr ⟨by omega, by rw [if_neg zero], by rw [exp, sig]; omega⟩

theorem encodeFloat_zero (f : Fmt) (prec : Nat) (c : EncMode) (s : Bool) (e : Int) :
    encodeFloat f prec c (.num s 0 e false) = (packFields f s 0 0, 0#6) := by
  simp [encodeFloat, packFinite, packFields]

theorem encodeFloat_decodeFloat {f : Fmt} {n : Nat} (c : EncMode) (h : f ∈ [Fmt.f64, .f32, .f16, .b16, .e4m3, .e5m2])
    (hn : n < 2 ^ f.width) (noFlush : c.ftz = false) (fin : (decodeFloat f n).finite = true) :
    encodeFloat f f.prec c (decodeFloat f n) = (n, 0#6) := by
  obtain ⟨width, room, known⟩ := float_cases h
  have hm : n % 2 ^ f.mbits < 2 ^ f.mbits := Nat.mod_lt _ (Nat.two_pow_pos _)
  have pattern := packFields_of_bits f (width ▸ hn)
  have one : f.emin - f.mbits = ((1 : Nat) : Int) - f.bias - f.mbits := rfl
  rcases decodeFloat_cases known fin with ⟨zero, value⟩ | ⟨pos, value, largest⟩
  · rw [zero] at pattern
    rw [value]
    by_cases m0 : n % 2 ^ f.mbits = 0
    · rw [m0] at pattern ⊢
      rw [encodeFloat_zero, pattern]
    · have short : Nat.log2 (n % 2 ^ f.mbits) < f.mbits := (Nat.log2_lt m0).mpr hm
      rw [encodeFloat_exact f c noFlush _ m0 (.inr ⟨short, rfl⟩) (.inl (by omega)), packFinite_denormal f _ hm, pattern]
  · have lead := log2_significand hm
    rw [value, encodeFloat_exact f c noFlush _ (by have := Nat.two_pow_pos f.mbits; omega) (.inl ⟨lead, by omega⟩)
      (by rw [lead]; omega), packFinite_normal f _ pos hm, pattern]

/-- Settles O16: an integer in range is the value of the pattern it wraps to, and a finite floating-point value is a
multiple of the spacing that it is rounded to. -/
theorem numberFormats : Obligations.NumberFormats := by
  unfold Obligations.NumberFormats
  refine ⟨fun signed sat w v hw => ?_, fun f n rm sat nanprop hf hn _ fin => encodeFloat_decodeFloat _ hf hn rfl fin⟩
  have ends := intLow_le_intHigh signed w
  refine ⟨encodeInt_lt signed sat w v, fun hl hh => ?_, ?_, ?_, ?_⟩
  · rw [encodeInt_inRange signed sat w hl hh]
    exact ⟨decodeInt_wrapTo signed hw hl hh, rfl⟩
  · rintro rfl below
    rw [encodeInt_below below]
    exact ⟨decodeInt_wrapTo signed hw le_rfl ends, rfl⟩
  · rintro rfl above
    rw [encodeInt_above above]
    exact ⟨decodeInt_wrapTo signed hw ends le_rfl, rfl⟩
  · rintro rfl
    exact ⟨decodeInt_wrapTo_emod signed w v, rfl⟩

end Sys2Proof.Machine

namespace Sys2Proof.Machine
open Sys2Proof

/-! ## VNSHR on an element beyond VLMAX whose second operand lies behind the group (O17)

A state's vl is not bounded by its VLMAX. The doubly wide operand of VNSHR v17, v18, v20 is the group v18, v19, and the
statement reads 0 for an element beyond it; the element loop goes on to v20, which it holds as the second operand. -/

/-- VNSHR v17, v18, v20. -/
def behindGroup : WWord :=
  { aux9 := 0#9, sat := 0#1, rm := 0#3, lqv := 0#1, em := 0#1, pe := 0#4, pg := 0#4, xp := 0#5, vs3 := 0#5, vs2 := 20#5,
    vs1 := 18#5, vd := 17#5 }

/-- The width in force is 32 bits, so VLMAX is 64; fa is I64, fb and fd are I32, and element 64 alone is computed. -/
def beyondVlmax : State := { State.reset with
  hart := { State.reset.hart with
    vgrant := 2#64, vl := 65, vstart := 64, vpal := BitVec.ofNat 64 (5 + 7 * 2 ^ 5 + 5 * 2 ^ 10)
    v := State.reset.hart.v.set 20 1#16384 } }

/-- What a run leaves in an element of a vector register. -/
def elemAfter (o : Host.Outcome State Fault Refusal) (r w i : Nat) : Option Nat :=
  match o with
  | .next t => some (elem (t.hart.rv r) w i)
  | _ => none

theorem elemAfter_beyondVlmax : elemAfter (exec (.vnshr behindGroup) beyondVlmax) 17 32 64 = some 1 := by
  decide +kernel

theorem beyondVlmax_dispatches : beyondVlmax.dispatches behindGroup true :=
  ⟨⟨rfl, rfl, rfl, rfl, rfl, rfl⟩, by decide, by decide, by decide⟩

/-- Refutes O17: in beyondVlmax, which meets every premise of VNSHR's clause, element 64 becomes 1, the 64-bit element 0 of
v20, where the statement has the quotient of 0. -/
theorem not_vectorIntegerArithmetic : ¬ Obligations.VectorIntegerArithmetic := by
  unfold Obligations.VectorIntegerArithmetic
  intro h
  obtain ⟨t, ran, -, ⟨-, elements⟩, -⟩ := h.2 beyondVlmax behindGroup true true true beyondVlmax_dispatches rfl rfl
    rfl rfl rfl
    (by decide)
  have one := elemAfter_beyondVlmax
  rw [ran] at one
  have zero : elem (t.hart.rv 17) 32 64 = 0 := (elements 64 (by decide)).trans (by decide +kernel)
  rw [elemAfter, zero] at one
  exact absurd one (by decide)

end Sys2Proof.Machine

namespace Sys2Proof.Machine
open Sys2Proof

/-! ## A vector instruction dispatched on a quiet hart, with the lq entry and the q entry that it takes -/

/-- The context that dispatch gives an instruction: it also notes the element that the instruction begins at. -/
def State.dispatchCtx (s : State) (i : Instr) (w : WWord) (usesQ : Bool) : VCtx :=
  { s.context i w usesQ with e := { (s.context i w usesQ).e with first := s.hart.vstart } }

/-- The state after dispatch: the entry is alone in VQ, and the entries that it takes have left lq and q. -/
def State.dispatchedBy (s : State) (i : Instr) (w : WWord) (usesQ : Bool) : State :=
  { s.popped w usesQ with hart := { (s.popped w usesQ).hart with
      vq := [(s.dispatchCtx i w usesQ).e], seq := s.hart.seq + 1, pc := s.hart.pc + 8#64, instret := s.hart.instret + 1 } }

theorem getD_vector {α : Type} {n k : Nat} (v : Vector α n) (a : α) (hk : k < n) : v.toList.getD k a = v[k] := by
  simp [List.getD_eq_getElem?_getD, hk]

theorem popQ_front {s : State} {k : Nat} (hk : k < 8) (there : s.hart.q.toList.getD k [] ≠ []) :
    popQ k s = .ok ((s.hart.q.toList.getD k []).headD 0#64)
      { s with hart := { s.hart with q := s.hart.q.setIfInBounds k (s.hart.q.toList.getD k []).tail } } := by
  rw [getD_vector _ _ hk] at there ⊢
  obtain ⟨v, l, front⟩ := List.exists_cons_of_ne_nil there
  unfold popQ
  rw [M.bind_ok (getH_apply s), dif_pos hk]
  simp only [front, List.headD_cons, List.tail_cons]
  rw [M.bind_ok (modH_apply _ s)]
  simp [Vector.setIfInBounds, Vector.set, Array.setIfInBounds, hk]

theorem popLq_front {s : State} {e : QEntry} (vlmax : Nat) (there : s.hart.lq ≠ []) :
    popLq e vlmax s = .ok (min (s.hart.lq.headD 0#32).toNat vlmax) { s with hart := { s.hart with lq := s.hart.lq.tail } } := by
  obtain ⟨n, l, front⟩ := List.exists_cons_of_ne_nil there
  unfold popLq
  rw [M.bind_ok (getH_apply s)]
  simp only [front]
  rfl

/-- An effect with one continuation after the two branches of a condition. -/
theorem M.ite_bind_ok {α β : Type} {p : Prop} [Decidable p] {m n : M α} {f : α → M β} {s t : State} {a : α}
    (h : (if p then m else n) s = .ok a t) : (if p then m >>= f else n >>= f) s = f a t := by
  split at h
  · rw [if_pos ‹p›, M.bind_ok h]
  · rw [if_neg ‹¬p›, M.bind_ok h]

/-- The second operand that popping leaves in an entry. -/
def State.x2Taken (s : State) (w : WWord) (e : QEntry) (usesQ : Bool) : Word :=
  if usesQ && w.kind == 2 then (s.hart.q.toList.getD (w.vs2.toNat % 4) []).headD 0#64 else e.cap.x2

/-- The entry after its operands have been popped into it. -/
def State.entryTaken (s : State) (w : WWord) (e : QEntry) (usesQ : Bool) : QEntry :=
  { e with ready := true, first := s.hart.vstart, cap := { e.cap with vl := s.vlTaken w e, x2 := s.x2Taken w e usesQ } }

theorem popOperands_ok {s : State} {w : WWord} {e : QEntry} {l : List QEntry} {usesQ : Bool} (hr : e.ready = false)
    (hl : w.lqv = 1#1 → s.hart.lq ≠ [])
    (hq2 : usesQ = true → w.kind = 2 → s.hart.q.toList.getD (w.vs2.toNat % 4) [] ≠ []) (hq : s.hart.vq = e :: l) :
    popOperands w e usesQ s = .ok (s.entryTaken w e usesQ) { s.popped w usesQ with hart := { (s.popped w usesQ).hart with
      vq := s.entryTaken w e usesQ :: l } } := by
  let lqPopped : State := { s with hart := { s.hart with lq := if w.lqv = 1#1 then s.hart.lq.tail else s.hart.lq } }
  have first : (if w.lqv = 1#1 then popLq e (vlmaxOf e.cap.width.toNat e.cap.level.toNat) else pure e.cap.vl : M Nat) s =
      .ok (s.vlTaken w e) lqPopped := by
    unfold State.vlTaken
    by_cases lqv : w.lqv = 1#1
    · simp only [if_pos lqv, lqPopped]
      exact popLq_front _ (hl lqv)
    · simp only [if_neg lqv, lqPopped]
      rfl
  have second : (if usesQ && w.kind == 2 then popQ (w.vs2.toNat % 4) else pure e.cap.x2 : M Word) lqPopped =
      .ok (s.x2Taken w e usesQ) (s.popped w usesQ) := by
    unfold State.x2Taken State.popped
    by_cases takes : (usesQ && w.kind == 2) = true
    · obtain ⟨uses, kind⟩ := Bool.and_eq_true_iff.mp takes
      simp only [if_pos takes]
      exact popQ_front (by omega) (hq2 uses (by simpa using kind))
    · simp only [if_neg takes]
      rfl
  unfold popOperands
  rw [if_neg (by rw [hr]; decide), M.bind_ok (getH_apply s)]
  refine atomically_ok ?_
  refine (M.ite_bind_ok first).trans ((M.ite_bind_ok second).trans ?_)
  show (setVqHead (s.entryTaken w e usesQ) >>= fun _ => pure (s.entryTaken w e usesQ)) (s.popped w usesQ) = _
  exact M.bind_ok (setVqHead_apply hq)

theorem State.dispatches.unbound {s : State} {w : WWord} {usesQ : Bool} (d : s.dispatches w usesQ) : s.hart.bindings = [] := by
  obtain ⟨⟨-, -, -, unbound, -⟩, -⟩ := d
  exact unbound

theorem roundingMode_atHead {s : State} {w : WWord} {usesQ : Bool} (i : Instr) (d : s.dispatches w usesQ) :
    roundingMode (s.entryOf i (s.capturedBy w)) w.rm.toNat (s.atHead i (s.capturedBy w) 8) =
      .ok (s.context i w usesQ).rm (s.atHead i (s.capturedBy w) 8) := by
  obtain ⟨-, hrm, -⟩ := d
  rw [roundingMode_ok fun h => hrm ((rm_eq_seven w).mp h)]
  exact congrArg (fun n => EStateM.Result.ok n _) (if_congr (rm_eq_seven w) rfl rfl)

/-- Dispatch on a quiet hart: the context is the one that the instruction captured and took (R27, R28). -/
theorem dispatchV_ok {s : State} {i : Instr} {w : WWord} {usesQ : Bool} (d : s.dispatches w usesQ) (hs : streamOf i = 1) :
    dispatchV w (s.entryOf i (s.capturedBy w)) usesQ (s.atHead i (s.capturedBy w) 8) =
      .ok (s.dispatchCtx i w usesQ) (s.dispatchedBy i w usesQ) := by
  have rounding := roundingMode_atHead i d
  obtain ⟨⟨-, hm, -⟩, -, hl, hq2⟩ := d
  have head : (s.atHead i (s.capturedBy w) 8).hart.vq = s.entryOf i (s.capturedBy w) :: [] := if_pos hs
  have pops := popOperands_ok (s := s.atHead i (s.capturedBy w) 8) (e := s.entryOf i (s.capturedBy w)) (usesQ := usesQ)
    rfl hl hq2 head
  unfold dispatchV
  show (roundingMode (s.entryOf i (s.capturedBy w)) w.rm.toNat >>= fun rm =>
    popOperands w (s.entryOf i (s.capturedBy w)) usesQ >>= fun e1 => getH >>= fun h => (pure {
      w := w, e := e1, vl := e1.cap.vl, vlmax := vlmaxOf e1.cap.width.toNat e1.cap.level.toNat,
      bits := widthBits e1.cap.width.toNat, mask := h.rp w.pg.toNat &&& h.currentMask, rm := rm, again := false } : M VCtx)) _ = _
  rw [M.bind_ok rounding, M.bind_ok pops, M.bind_ok (getH_apply _)]
  refine congrArg (EStateM.Result.ok (s.dispatchCtx i w usesQ)) ?_
  unfold State.dispatchedBy State.atHead State.popped
  rw [if_neg (show ¬ streamOf i = 2 by omega), ← hm]
  rfl

/-! ## Sources and destinations that no stream is bound to -/

/-- The sources of an instruction as they stand in their registers. -/
def registerSources (c : VCtx) (s : State) (regs : List Nat) (lo : Nat) : Sources :=
  { regs := regs.eraseDups.map fun r => (r, s.hart.rv r), dels := [], lo := lo, bits := c.bits }

theorem sources_of_registers {c : VCtx} {regs : List Nat} {lo hi : Nat} {s : State} (unbound : s.hart.bindings = []) :
    sources c regs lo hi s = .ok (registerSources c s regs lo) s := by
  have nothing : ∀ l : List Nat, l.filterMapM (fun r => deliver c lo hi r) s = .ok [] s := by
    intro l
    induction l with
    | nil => rfl
    | cons r l ih =>
      rw [List.filterMapM_cons, M.bind_ok (deliver_unbound (binding_none unbound r))]
      exact ih
  unfold sources
  exact (M.bind_ok (nothing _)).trans rfl

theorem lookup_map_self {α β : Type} [BEq α] [LawfulBEq α] (f : α → β) {l : List α} {a : α} (h : a ∈ l) :
    (l.map fun x => (x, f x)).lookup a = some (f a) := by
  induction l with
  | nil => cases h
  | cons x l ih =>
    by_cases e : a = x
    · subst e; simp
    · have rest : a ∈ l := (List.mem_cons.mp h).resolve_left e
      rw [List.map_cons, List.lookup_cons, beq_eq_false_iff_ne.mpr e]
      exact ih rest

theorem registerSources_get {c : VCtx} {s : State} {regs : List Nat} {lo r : Nat} (h : r ∈ regs) :
    (registerSources c s regs lo).get r = s.hart.rv r := by
  unfold registerSources Sources.get
  rw [lookup_map_self _ (List.mem_eraseDups.mpr h)]
  rfl

@[simp] theorem consume_registers (c : VCtx) (s t : State) (regs : List Nat) (lo i : Nat) :
    consume (registerSources c s regs lo) i t = .ok () t := rfl

@[simp] theorem consumeAll_registers (c : VCtx) (s t : State) (regs : List Nat) (lo n : Nat) :
    consumeAll (registerSources c s regs lo) n t = .ok () t := by
  unfold consumeAll
  exact forM'_same fun i _ => rfl

theorem checkDest_unbound {c : VCtx} {reg : Nat} {s : State} (unbound : s.hart.bindings = []) :
    checkDest c reg s = .ok () s := by
  unfold checkDest
  rw [M.bind_ok (getH_apply s), binding_none unbound]
  rfl

theorem append_unbound {reg x : Nat} {active : Bool} {s : State} (unbound : s.hart.bindings = []) :
    append reg active x s = .ok () s := by
  unfold append
  rw [M.bind_ok (getH_apply s), binding_none unbound]
  rfl

theorem writeElem_unbound {c : VCtx} {reg i x : Nat} {s : State} (unbound : s.hart.bindings = []) :
    writeElem c reg i x s =
      .ok () { s with hart := s.hart.wv reg (setElem (s.hart.rv reg) c.bits i x) } := by
  unfold writeElem
  rw [M.bind_ok (modH_apply _ s)]
  exact append_unbound (by simpa using unbound)

/-! ## The exception mask -/

theorem setBit_getLsbD (x : BitVec 2048) (i : Nat) (b : Bool) {k : Nat} (hk : k < 2048) :
    (setBit x i b).getLsbD k = if k = i then b else x.getLsbD k := by
  unfold setBit
  have bit : (BitVec.ofNat 2048 (2 ^ i)).getLsbD k = decide (i = k) := by
    rw [BitVec.getLsbD_ofNat, Nat.testBit_two_pow, decide_eq_true hk, Bool.true_and]
  cases b with
  | false =>
    rw [if_neg Bool.false_ne_true, BitVec.getLsbD_and, BitVec.getLsbD_not, bit]
    by_cases e : k = i
    · simp [e]
    · simp [e, Ne.symm e, hk]
  | true =>
    rw [if_pos rfl, BitVec.getLsbD_or, bit]
    by_cases e : k = i
    · simp [e]
    · simp [e, Ne.symm e]

theorem lowMask_getLsbD (n : Nat) {k : Nat} (hk : k < 2048) : (lowMask n).getLsbD k = decide (k < n) := by
  rw [lowMask, BitVec.getLsbD_ofNat, Nat.testBit_two_pow_sub_one, decide_eq_true hk, Bool.true_and]

/-- A write of predicate p, read bit by bit at a predicate other than p0. -/
theorem rp_wp (h : Hart) (p : Nat) (x : BitVec 2048) {r : Nat} (hr : 0 < r) (hp : p < 16) :
    (h.wp p x).rp r = if r = p then x else h.rp r := by
  split
  · next e => subst e; exact h.rp_wp_same r x hr hp
  · next e => exact h.rp_wp_other p r x e

/-! ## The element loop of an instruction with a vector destination -/

/-- Of the hart only vector registers, predicates, flags and vstart have changed. -/
def vectorOnly (s t : State) : Prop :=
  t = { s with hart := { s.hart with
    v := t.hart.v, p := t.hart.p, vfflags := t.hart.vfflags, vstart := t.hart.vstart } }

/-- What an element-wise instruction has done when it stands at element n: the computed elements below n have their
patterns, flags and em bits. -/
structure elementsDone (c : VCtx) (s t : State) (dst : Nat) (f : Nat → Nat × Flags) (n : Nat) : Prop where
  only : vectorOnly s t
  others : ∀ r, r ≠ dst → t.hart.rv r = s.hart.rv r
  elems : ∀ k, (k + 1) * c.bits ≤ 16384 → elem (t.hart.rv dst) c.bits k =
    if k < n ∧ c.computes s k = true then (f k).1 % 2 ^ c.bits else elem (s.hart.rv dst) c.bits k
  flags : t.hart.vfflags = ((List.range n).filter (c.computes s)).foldl (fun a k => a ||| (f k).2) s.hart.vfflags
  preds : ∀ r k, 0 < r → k < 2048 → (t.hart.rp r).getLsbD k =
    if c.w.em = 1#1 ∧ r = c.w.pe.toNat ∧ s.hart.vstart ≤ k ∧ k < n then c.computes s k && (f k).2 &&& c.e.cap.vxmask != 0#6
    else (s.hart.rp r).getLsbD k

theorem vectorOnly.refl (s : State) : vectorOnly s s := rfl

theorem vectorOnly.trans {s t u : State} (h : vectorOnly s t) (k : vectorOnly t u) : vectorOnly s u := by
  unfold vectorOnly at h k ⊢
  rw [k, h]

theorem vectorOnly.bindings_eq {s t : State} (h : vectorOnly s t) : t.hart.bindings = s.hart.bindings := by rw [h]

theorem vectorOnly_wv (s : State) (r : Nat) (x : BitVec 16384) : vectorOnly s { s with hart := s.hart.wv r x } := by
  unfold vectorOnly Hart.wv
  split <;> rfl

theorem vectorOnly_wp (s : State) (p : Nat) (x : BitVec 2048) : vectorOnly s { s with hart := s.hart.wp p x } := by
  unfold vectorOnly Hart.wp
  split <;> rfl

/-- The hart after the em bit of an element has been written. -/
def Hart.marked (h : Hart) (c : VCtx) (i : Nat) (f : Flags) : Hart :=
  if c.w.em = 1#1 then h.wp c.w.pe.toNat (setBit (h.rp c.w.pe.toNat) i (f &&& c.e.cap.vxmask != 0#6)) else h

theorem emBit_apply (c : VCtx) (i : Nat) (f : Flags) (s : State) :
    emBit c i f s = .ok () { s with hart := s.hart.marked c i f } := by
  unfold emBit Hart.marked
  split
  · exact modH_apply _ s
  · rfl

@[simp] theorem marked_rv (h : Hart) (c : VCtx) (i : Nat) (f : Flags) (r : Nat) : (h.marked c i f).rv r = h.rv r := by
  unfold Hart.marked Hart.rv
  split <;> simp

@[simp] theorem marked_vfflags (h : Hart) (c : VCtx) (i : Nat) (f : Flags) : (h.marked c i f).vfflags = h.vfflags := by
  unfold Hart.marked
  split <;> simp

theorem vectorOnly_marked (s : State) (c : VCtx) (i : Nat) (f : Flags) : vectorOnly s { s with hart := s.hart.marked c i f } := by
  unfold Hart.marked
  split
  · exact vectorOnly_wp s _ _
  · exact .refl s

theorem marked_rp (h : Hart) (c : VCtx) (i : Nat) (f : Flags) {r k : Nat} (hr : 0 < r) (hk : k < 2048) :
    ((h.marked c i f).rp r).getLsbD k =
      if c.w.em = 1#1 ∧ r = c.w.pe.toNat ∧ k = i then f &&& c.e.cap.vxmask != 0#6 else (h.rp r).getLsbD k := by
  unfold Hart.marked
  by_cases em : c.w.em = 1#1
  · rw [if_pos em, rp_wp h _ _ hr c.w.pe.isLt]
    by_cases pe : r = c.w.pe.toNat
    · rw [if_pos pe, setBit_getLsbD _ _ _ hk]
      simp [em, pe]
    · simp [pe]
  · simp [em]

/-- The hart after an element has been computed: its pattern in dst, its flags and its em bit. -/
def Hart.computed (h : Hart) (c : VCtx) (dst i : Nat) (r : Nat × Flags) : Hart :=
  ({ h.wv dst (setElem (h.rv dst) c.bits i r.1) with vfflags := h.vfflags ||| r.2 } : Hart).marked c i r.2

theorem vectorOnly_computed (s : State) (c : VCtx) (dst i : Nat) (r : Nat × Flags) :
    vectorOnly s { s with hart := s.hart.computed c dst i r } :=
  ((vectorOnly_wv s dst _).trans (t := { s with hart := s.hart.wv dst (setElem (s.hart.rv dst) c.bits i r.1) })
    (u := { s with hart := { s.hart.wv dst (setElem (s.hart.rv dst) c.bits i r.1) with vfflags := s.hart.vfflags ||| r.2 } })
    rfl).trans (vectorOnly_marked _ c i r.2)

theorem computed_rv_other (h : Hart) (c : VCtx) {dst i n : Nat} (r : Nat × Flags) (other : n ≠ dst) :
    (h.computed c dst i r).rv n = h.rv n := by
  unfold Hart.computed
  rw [marked_rv]
  exact h.rv_wv_other dst n _ other

theorem computed_rv_same (h : Hart) (c : VCtx) {dst : Nat} (i : Nat) (r : Nat × Flags) (hdst : dst < 32) :
    (h.computed c dst i r).rv dst = setElem (h.rv dst) c.bits i r.1 := by
  unfold Hart.computed
  rw [marked_rv]
  exact h.rv_wv_same dst _ hdst

theorem computed_vfflags (h : Hart) (c : VCtx) (dst i : Nat) (r : Nat × Flags) :
    (h.computed c dst i r).vfflags = h.vfflags ||| r.2 := by
  unfold Hart.computed
  rw [marked_vfflags]

theorem computed_rp (h : Hart) (c : VCtx) (dst i : Nat) (x : Nat × Flags) {r k : Nat} (hr : 0 < r) (hk : k < 2048) :
    ((h.computed c dst i x).rp r).getLsbD k =
      if c.w.em = 1#1 ∧ r = c.w.pe.toNat ∧ k = i then x.2 &&& c.e.cap.vxmask != 0#6 else (h.rp r).getLsbD k := by
  have same : ({ h.wv dst (setElem (h.rv dst) c.bits i x.1) with vfflags := h.vfflags ||| x.2 } : Hart).rp r = h.rp r := by
    unfold Hart.rp
    simp
  unfold Hart.computed
  rw [marked_rp _ c i x.2 hr hk, same]

/-- The hart after the element loop has passed an element: computed if it is active, its em bit clear if it is not. -/
def Hart.passed (h : Hart) (c : VCtx) (dst i : Nat) (r : Nat × Flags) : Hart :=
  if c.active i then h.computed c dst i r else h.marked c i 0#6

theorem vectorOnly_passed (s : State) (c : VCtx) (dst i : Nat) (r : Nat × Flags) :
    vectorOnly s { s with hart := s.hart.passed c dst i r } := by
  unfold Hart.passed
  split
  · exact vectorOnly_computed s c dst i r
  · exact vectorOnly_marked s c i 0#6

theorem passed_rv_other (h : Hart) (c : VCtx) {dst i n : Nat} (r : Nat × Flags) (other : n ≠ dst) :
    (h.passed c dst i r).rv n = h.rv n := by
  unfold Hart.passed
  split
  · exact computed_rv_other h c r other
  · exact marked_rv h c i 0#6 n

theorem passed_elem (h : Hart) (c : VCtx) {dst i k : Nat} (r : Nat × Flags) (hdst : dst < 32) (fits : (k + 1) * c.bits ≤ 16384) :
    elem ((h.passed c dst i r).rv dst) c.bits k =
      if k = i ∧ c.active i = true then r.1 % 2 ^ c.bits else elem (h.rv dst) c.bits k := by
  unfold Hart.passed
  by_cases act : c.active i = true
  · rw [if_pos act, computed_rv_same h c i r hdst]
    by_cases here : k = i
    · subst here
      rw [elem_setElem_same _ _ _ _ fits, if_pos ⟨rfl, act⟩]
    · rw [elem_setElem_other _ _ _ _ _ here, if_neg (by tauto)]
  · rw [if_neg act, marked_rv, if_neg (by tauto)]

theorem passed_vfflags (h : Hart) (c : VCtx) (dst i : Nat) (r : Nat × Flags) :
    (h.passed c dst i r).vfflags = if c.active i then h.vfflags ||| r.2 else h.vfflags := by
  unfold Hart.passed
  split
  · exact computed_vfflags h c dst i r
  · exact marked_vfflags h c i 0#6

theorem passed_rp (h : Hart) (c : VCtx) (dst i : Nat) (x : Nat × Flags) {r k : Nat} (hr : 0 < r) (hk : k < 2048) :
    ((h.passed c dst i x).rp r).getLsbD k =
      if c.w.em = 1#1 ∧ r = c.w.pe.toNat ∧ k = i then c.active i && x.2 &&& c.e.cap.vxmask != 0#6 else (h.rp r).getLsbD k := by
  unfold Hart.passed
  by_cases act : c.active i = true
  · rw [if_pos act, computed_rp h c dst i x hr hk, act, Bool.true_and]
  · rw [if_neg act, marked_rp h c i 0#6 hr hk, Bool.eq_false_iff.mpr act, BitVec.zero_and]
    rfl

namespace elementsDone

theorem start (c : VCtx) (s : State) (dst : Nat) (f : Nat → Nat × Flags) : elementsDone c s s dst f s.hart.vstart where
  only := rfl
  others _ _ := rfl
  elems k _ := by
    rw [if_neg]
    rintro ⟨below, computed⟩
    simp [VCtx.computes] at computed
    omega
  flags := by
    have none_ : (List.range s.hart.vstart).filter (c.computes s) = [] := by
      refine List.filter_eq_nil_iff.mpr fun k hk computed => ?_
      have := List.mem_range.mp hk
      simp [VCtx.computes] at computed
      omega
    rw [none_]
    rfl
  preds r k _ _ := by rw [if_neg (by omega)]

variable {c : VCtx} {s t : State} {dst n : Nat} {f : Nat → Nat × Flags}

/-- One more element, which the loop names in vstart first. -/
theorem step (h : elementsDone c s t dst f n) (hdst : dst < 32) (lo : s.hart.vstart ≤ n) (hi : n < c.vl) :
    elementsDone c s { t with hart := ({ t.hart with vstart := n } : Hart).passed c dst n (f n) } dst f (n + 1) := by
  have computes : c.computes s n = c.active n := by simp [VCtx.computes, lo, hi]
  refine ⟨?_, fun r other => ?_, fun k fits => ?_, ?_, fun r k hr hk => ?_⟩
  · have moved : vectorOnly s { t with hart := { t.hart with vstart := n } } := h.only.trans rfl
    exact moved.trans (vectorOnly_passed _ c dst n (f n))
  · exact (passed_rv_other _ c _ other).trans (h.others r other)
  · refine (passed_elem _ c _ hdst fits).trans ?_
    by_cases here : k = n
    · subst here
      rw [← computes]
      refine (ite_congr (by simp) (fun _ => rfl) fun out => ?_)
      exact (h.elems k fits).trans (if_neg (by simp))
    · rw [if_neg (by tauto)]
      refine (h.elems k fits).trans (if_congr ?_ rfl rfl)
      exact and_congr_left fun _ => by omega
  · refine (passed_vfflags _ c dst n (f n)).trans ?_
    rw [List.range_succ, List.filter_append, List.filter_cons, computes, List.filter_nil, List.foldl_append, ← h.flags]
    split <;> rfl
  · refine (passed_rp _ c dst n (f n) hr hk).trans ?_
    by_cases here : k = n
    · subst here
      rw [← computes]
      refine ite_congr (by simp [lo]) (fun _ => rfl) fun out => ?_
      exact (h.preds r k hr hk).trans (if_neg (by simp))
    · rw [if_neg (by tauto)]
      refine (h.preds r k hr hk).trans (if_congr ?_ rfl rfl)
      exact and_congr_right fun _ => and_congr_right fun _ => and_congr_right fun _ => by omega

/-- Beyond vl nothing more is computed. -/
theorem to_vl (h : elementsDone c s t dst f (max s.hart.vstart c.vl)) :
    elementsBecome c s t dst (fun k => (f k).1) ∧ flagsGathered c s t fun k => (f k).2 := by
  refine ⟨⟨h.others, fun k fits => (h.elems k fits).trans (if_congr ?_ rfl rfl)⟩, h.flags.trans ?_⟩
  · refine and_iff_right_of_imp fun computed => ?_
    simp [VCtx.computes] at computed
    omega
  · obtain ⟨j, hj⟩ : ∃ j, max s.hart.vstart c.vl = c.vl + j := ⟨max s.hart.vstart c.vl - c.vl, by omega⟩
    have beyond : ((List.range j).map (c.vl + ·)).filter (c.computes s) = [] := by
      refine List.filter_eq_nil_iff.mpr fun k hk computed => ?_
      obtain ⟨i, -, rfl⟩ := List.mem_map.mp hk
      simp [VCtx.computes] at computed
    rw [hj, List.range_add, List.filter_append, beyond, List.append_nil]

end elementsDone

/-- The hart after the em bits from n upwards have been cleared. -/
def Hart.tailCleared (h : Hart) (c : VCtx) (n : Nat) : Hart :=
  if c.w.em = 1#1 then h.wp c.w.pe.toNat (h.rp c.w.pe.toNat &&& lowMask (min n c.vlmax)) else h

theorem emTail_apply (c : VCtx) (n : Nat) (s : State) : emTail c n s = .ok () { s with hart := s.hart.tailCleared c n } := by
  unfold emTail Hart.tailCleared
  split
  · exact modH_apply _ s
  · rfl

theorem vectorOnly_tailCleared (s : State) (c : VCtx) (n : Nat) : vectorOnly s { s with hart := s.hart.tailCleared c n } := by
  unfold Hart.tailCleared
  split
  · exact vectorOnly_wp s _ _
  · exact .refl s

theorem tailCleared_v (h : Hart) (c : VCtx) (n : Nat) : (h.tailCleared c n).v = h.v := by
  unfold Hart.tailCleared
  split <;> simp

theorem tailCleared_vfflags (h : Hart) (c : VCtx) (n : Nat) : (h.tailCleared c n).vfflags = h.vfflags := by
  unfold Hart.tailCleared
  split <;> simp

theorem tailCleared_rp (h : Hart) (c : VCtx) (n : Nat) {r k : Nat} (hr : 0 < r) (hk : k < 2048) :
    ((h.tailCleared c n).rp r).getLsbD k =
      if c.w.em = 1#1 ∧ r = c.w.pe.toNat then (h.rp r).getLsbD k && decide (k < min n c.vlmax) else (h.rp r).getLsbD k := by
  unfold Hart.tailCleared
  by_cases em : c.w.em = 1#1
  · rw [if_pos em, rp_wp h _ _ hr c.w.pe.isLt]
    by_cases pe : r = c.w.pe.toNat
    · rw [if_pos pe, if_pos ⟨em, pe⟩, BitVec.getLsbD_and, lowMask_getLsbD _ hk, pe]
    · rw [if_neg pe, if_neg (by tauto)]
  · rw [if_neg em, if_neg (by tauto)]

/-- The em bits once the tail has been cleared. -/
theorem elementsDone.predicates {c : VCtx} {s t : State} {dst : Nat} {f : Nat → Nat × Flags}
    (h : elementsDone c s t dst f (max s.hart.vstart c.vl)) (mask : c.e.cap.vxmask = s.hart.vxmask) {r k : Nat} (hr : 0 < r)
    (hk : k < 2048) : ((t.hart.tailCleared c (max c.vl s.hart.vstart)).rp r).getLsbD k =
      if c.w.em = 1#1 ∧ r = c.w.pe.toNat then c.emBecomes s (fun k => (f k).2) k else (s.hart.rp r).getLsbD k := by
  rw [tailCleared_rp _ c _ hr hk, h.preds r k hr hk]
  by_cases em : c.w.em = 1#1 ∧ r = c.w.pe.toNat
  · obtain ⟨em, rfl⟩ := em
    unfold VCtx.emBecomes
    simp only [em, true_and, if_true, mask]
    by_cases before : k < s.hart.vstart
    · rw [if_neg (by omega), if_pos before, Bool.and_comm]
      congr 1
      simp only [decide_eq_decide]
      omega
    · rw [if_neg before]
      by_cases within : k < max s.hart.vstart c.vl
      · rw [if_pos ⟨by omega, within⟩, Bool.and_comm]
        congr 1
        simp only [decide_eq_decide]
        omega
      · have out : c.computes s k = false := by simp [VCtx.computes]; omega
        rw [out, show decide (k < min (max c.vl s.hart.vstart) c.vlmax) = false by simp; omega]
        simp
  · rw [if_neg em, if_neg em, if_neg (by tauto)]

/-- The element loop passes one element of a destination that no stream is bound to. -/
theorem passElement_ok {c : VCtx} {dst i : Nat} (r : Nat × Flags) {s : State} (unbound : s.hart.bindings = []) :
    (if c.active i then do
        writeElem c dst i r.1
        raise r.2
        emBit c i r.2
      else do
        append dst false 0
        emBit c i 0#6 : M Unit) s = .ok () { s with hart := s.hart.passed c dst i r } := by
  unfold Hart.passed
  split
  · rw [M.bind_ok (writeElem_unbound unbound), M.bind_ok (raise_apply _ _), emBit_apply]
    simp only [Hart.wv_vfflags]
    rfl
  · rw [M.bind_ok (append_unbound unbound), emBit_apply]

/-- An element-wise instruction whose sources are registers, on a hart with no register bound to a stream (R54, R55, R106). -/
theorem elementwise_ok {c : VCtx} {s : State} {srcs : List Nat} {dst : Nat} (f : Sources → Nat → Nat × Flags)
    (unbound : s.hart.bindings = []) (hdst : dst < 32) (mask : c.e.cap.vxmask = s.hart.vxmask) :
    let g := f (registerSources c s srcs s.hart.vstart)
    ∃ t, elementwise c srcs dst f s = .ok () t ∧ vectorOnly s t ∧ t.hart.vstart = 0 ∧
      elementsBecome c s t dst (fun k => (g k).1) ∧ flagsGathered c s t (fun k => (g k).2) ∧
      predicatesKeep c s t fun k => (g k).2 := by
  intro g
  obtain ⟨t, ran, done⟩ := elemLoop_induction (f := fun i => do
      consume (registerSources c s srcs s.hart.vstart) i
      if c.active i then
        let r := g i
        writeElem c dst i r.1
        raise r.2
        emBit c i r.2
      else
        append dst false 0
        emBit c i 0#6) (fun n t => elementsDone c s t dst g n) (c.vl - s.hart.vstart) s.hart.vstart s
    (elementsDone.start c s dst g) fun k t lo hi done => by
      have free : t.hart.bindings = [] := done.only.bindings_eq.trans unbound
      refine ⟨_, ?_, done.step hdst lo (by omega)⟩
      exact (M.bind_ok (consume_registers ..)).trans (passElement_ok (g k) free)
  rw [show s.hart.vstart + (c.vl - s.hart.vstart) = max s.hart.vstart c.vl by omega] at done
  obtain ⟨elements, flags⟩ := done.to_vl
  have v := tailCleared_v t.hart c (max c.vl s.hart.vstart)
  refine ⟨_, ?_, (done.only.trans (vectorOnly_tailCleared t c (max c.vl s.hart.vstart))).trans
    (u := { t with hart := { t.hart.tailCleared c (max c.vl s.hart.vstart) with vstart := 0 } }) rfl, rfl, ?_, ?_, ?_⟩
  · unfold elementwise
    rw [M.bind_ok (getH_apply s)]
    simp only
    rw [M.bind_ok (checkDest_unbound unbound), M.bind_ok (sources_of_registers unbound), M.bind_ok ran,
      M.bind_ok (emTail_apply c _ t)]
    rfl
  · unfold elementsBecome Hart.rv at elements ⊢
    simpa only [v] using elements
  · exact (tailCleared_vfflags t.hart c _).trans flags
  · exact fun r k hr hk => done.predicates mask hr hk

/-! ## Instructions that are dispatched and run element by element -/

/-- A vector instruction that completes has changed of the hart what its element loop changes. -/
theorem vectorDone_of {s u : State} {i : Instr} {w : WWord} {usesQ : Bool}
    (only : vectorOnly (s.dispatchedBy i w usesQ) u) (start : u.hart.vstart = 0) :
    vectorDone s { u with hart := { u.hart with vq := s.hart.vq, held := none } } w usesQ := by
  unfold vectorOnly at only
  unfold vectorDone
  rw [only, start]
  rfl

theorem issueW_vectorOnly {s u : State} {i : Instr} {w : WWord} {usesQ : Bool} (d : s.dispatches w usesQ) (hs : streamOf i = 1)
    (run : runEntry (s.entryOf i (s.capturedBy w)) (s.atHead i (s.capturedBy w) 8) = .ok () u)
    (only : vectorOnly (s.dispatchedBy i w usesQ) u) :
    s.issueW i w = .next { u with hart := { u.hart with vq := s.hart.vq, held := none } } := by
  refine issueW_completes d.1 hs run ?_ ?_ ?_ <;> rw [only] <;> rfl

/-- What is left of an element-wise instruction once its own checks have passed. -/
theorem vectorResult_of {s : State} {i : Instr} {w : WWord} {usesQ : Bool} {srcs : List Nat} {dst : Reg}
    {f : VCtx → Nat → Nat × Flags} {g : VCtx → Sources → Nat → Nat × Flags}
    (d : s.dispatches w usesQ) (hs : streamOf i = 1) (issue : exec i s = s.issueW i w)
    (run : runEntry (s.entryOf i (s.capturedBy w)) =
      dispatchV w (s.entryOf i (s.capturedBy w)) usesQ >>= fun c => elementwise c srcs dst.toNat (g c))
    (agree : ∀ x : Sources, (∀ r, r ∈ srcs → x.get r = s.hart.rv r) → ∀ k,
      g (s.dispatchCtx i w usesQ) x k = f (s.context i w usesQ) k) : vectorResult i s w usesQ dst f := by
  obtain ⟨u, ran, only, start, elements, flags, preds⟩ :=
    elementwise_ok (c := s.dispatchCtx i w usesQ) (s := s.dispatchedBy i w usesQ) (srcs := srcs) (dst := dst.toNat)
      (g (s.dispatchCtx i w usesQ)) d.unbound dst.isLt rfl
  have values : g (s.dispatchCtx i w usesQ) (registerSources (s.dispatchCtx i w usesQ) (s.dispatchedBy i w usesQ) srcs
      (s.dispatchedBy i w usesQ).hart.vstart) = f (s.context i w usesQ) :=
    funext (agree _ fun r hr => registerSources_get hr)
  rw [values] at elements flags preds
  have whole : runEntry (s.entryOf i (s.capturedBy w)) (s.atHead i (s.capturedBy w) 8) = .ok () u := by
    rw [run, M.bind_ok (dispatchV_ok d hs), ran]
  refine ⟨_, issue.trans (issueW_vectorOnly d hs whole only), vectorDone_of only start, elements, flags, preds⟩

/-! ## W group 1: the exact result, scaled and rounded once (O19) -/

theorem requireV_true {e : QEntry} {b : Bool} (h : b = true) : requireV e b = pure () := by
  unfold requireV
  rw [if_pos h]

theorem mem_sourceRegs_vs1 (w : WWord) : w.vs1.toNat ∈ sourceRegs w := List.mem_cons_self ..

theorem mem_sourceRegs_vs2 {w : WWord} (h : w.kind = 0) : w.vs2.toNat ∈ sourceRegs w := by
  unfold sourceRegs
  rw [if_pos h]
  simp

/-- The second operand reads its vector source for kind 0 alone (R71). -/
theorem operand_congr (c : VCtx) (f : Fmt) {x y : BitVec 16384} (h : c.w.kind = 0 → x = y) (k : Nat) :
    c.operand f x k = c.operand f y k := by
  unfold VCtx.operand
  split
  · next kind => rw [h kind]
  · rfl
  · rfl

theorem fpBinary_eq {w : WWord} {e : QEntry} {op : Nat → Val → Val → Val × Flags} {fa fb fd : Fmt}
    (ha : floatFmt (palFa e.cap.pal) e.bits = some fa) (hb : floatFmt (palFb e.cap.pal) e.bits = some fb)
    (hd : floatFmt (palFd e.cap.pal) e.bits = some fd) (plain : palPlain e.cap.pal = true) :
    fpBinary w e op = dispatchV w e true >>= fun c => elementwise c (sourceRegs w) w.vd.toNat fun x k =>
      finishFp c fd fd.prec
        (op c.rm (fpSource c fa (palSa e.cap.pal) (x.get w.vs1.toNat) k) (fpOperand c fb (x.get w.vs2.toNat) k)) := by
  unfold fpBinary
  simp only [ha, hb, hd, requireV_true plain]
  rfl

theorem fpUnary_eq {w : WWord} {e : QEntry} {limit : Nat} {op : Val → Val × Flags} {fa fd : Fmt}
    (ha : floatFmt (palFa e.cap.pal) e.bits = some fa) (hd : floatFmt (palFd e.cap.pal) e.bits = some fd)
    (plain : palPlain e.cap.pal = true) (scales : scalesZero e.cap.pal true false true = true) :
    fpUnary w e limit op = dispatchV w e false >>= fun c => elementwise c [w.vs1.toNat] w.vd.toNat fun x k =>
      finishFp c fd (min fd.prec limit) (op (fpSource c fa (palSa e.cap.pal) (x.get w.vs1.toNat) k)) := by
  unfold fpUnary
  simp only [ha, hd, requireV_true (show (palPlain e.cap.pal && scalesZero e.cap.pal true false true) = true by
    rw [plain, scales]; rfl)]
  rfl

theorem runVfma_eq {w : WWord} {e : QEntry} {fa fb fc fd : Fmt}
    (ha : floatFmt (palFa e.cap.pal) e.bits = some fa) (hb : floatFmt (palFb e.cap.pal) e.bits = some fb)
    (hc : floatFmt (palFc e.cap.pal) e.bits = some fc) (hd : floatFmt (palFd e.cap.pal) e.bits = some fd)
    (plain : palPlain e.cap.pal = true) :
    runVfma w e = dispatchV w e true >>= fun c => elementwise c (sourceRegs w ++ [w.vs3.toNat]) w.vd.toNat fun x k =>
      finishFp c fd fd.prec (fmaVal c.rm (w.aux9.getLsbD 2) (w.aux9.getLsbD 3)
        (fpSource c fa (palSa e.cap.pal) (x.get w.vs1.toNat) k) (fpOperand c fb (x.get w.vs2.toNat) k)
        (fpSource c fc 0 (x.get w.vs3.toNat) k)) := by
  unfold runVfma
  simp only [ha, hb, hc, hd, requireV_true plain]
  rfl

theorem runVquad_eq {w : WWord} {e : QEntry} {fa fd : Fmt} (mode : ¬ w.vs3.toNat < 4)
    (ha : floatFmt (palFa e.cap.pal) e.bits = some fa) (hd : floatFmt (palFd e.cap.pal) e.bits = some fd)
    (plain : palPlain e.cap.pal = true) (scales : scalesZero e.cap.pal true false true = true) :
    runVquad w e = dispatchV w e false >>= fun c => elementwise c [w.vs1.toNat] w.vd.toNat fun x k =>
      let q := quadPartners w.vs3.toNat k
      let a := fpSource c fa (palSa e.cap.pal) (x.get w.vs1.toNat) q.1
      let b := fpSource c fa (palSa e.cap.pal) (x.get w.vs1.toNat) q.2
      finishFp c fd fd.prec (addVal c.rm [a, b] a b.negate) := by
  unfold runVquad
  simp only [if_neg mode, ha, hd, requireV_true (show (palPlain e.cap.pal && scalesZero e.cap.pal true false true) = true by
    rw [plain, scales]; rfl)]
  rfl

/-- The partners of an element in the derivative modes of VQUAD (R135). -/
theorem quadPartners_derivative {m : Reg} (h4 : 4 ≤ m.toNat) (h8 : m.toNat < 8) (k : Nat) :
    quadPartners m.toNat k =
      let q := k / 4 * 4
      if m = 4#5 then (q + k % 4 / 2 * 2 + 1, q + k % 4 / 2 * 2)
      else if m = 5#5 then (q + k % 2 + 2, q + k % 2) else if m = 6#5 then (q + 1, q) else (q + 2, q) := by
  obtain e | e | e | e : m = 4#5 ∨ m = 5#5 ∨ m = 6#5 ∨ m = 7#5 := by
    simp only [BitVec.toNat_eq, BitVec.toNat_ofNat]
    omega
  all_goals subst e
  · have high : k % 4 &&& 2 = k % 4 / 2 * 2 := by
      have := Nat.mod_lt k (show 0 < 4 by decide)
      interval_cases k % 4 <;> rfl
    simp only [quadPartners, BitVec.toNat_ofNat, Nat.reducePow, Nat.reduceMod, high, if_true]
  · have low : k % 4 &&& 1 = k % 2 := by rw [Nat.and_one_is_mod]; omega
    simp only [quadPartners, BitVec.toNat_ofNat, Nat.reducePow, Nat.reduceMod, low]
    rfl
  · rfl
  · rfl

theorem finishFp_dispatchCtx (s : State) (i : Instr) (w : WWord) (usesQ : Bool) :
    finishFp (s.dispatchCtx i w usesQ) = finishFp (s.context i w usesQ) := rfl

theorem fpOperand_dispatchCtx (s : State) (i : Instr) (w : WWord) (usesQ : Bool) (f : Fmt) {x : BitVec 16384} (k : Nat)
    (h : w.kind = 0 → x = s.hart.rv w.vs2.toNat) :
    fpOperand (s.dispatchCtx i w usesQ) f x k = decodeScaled (s.context i w usesQ).pal f (palSb (s.context i w usesQ).pal)
      ((s.context i w usesQ).operand f (s.hart.rv w.vs2.toNat) k) :=
  congrArg (decodeScaled (s.palOf w) f (palSb (s.palOf w))) (operand_congr (s.context i w usesQ) f h k)

section
variable {s : State} {i : Instr} {w : WWord} {fa fb fd : Fmt}
  (ha : floatFmt (palFa (s.palOf w)) s.bits = some fa) (hd : floatFmt (palFd (s.palOf w)) s.bits = some fd)
  (plain : palPlain (s.palOf w) = true)
include ha hd plain

theorem fpResult_of {op : Nat → Val → Val → Val × Flags} (d : s.dispatches w true)
    (hb : floatFmt (palFb (s.palOf w)) s.bits = some fb) (hs : streamOf i = 1) (issue : exec i s = s.issueW i w)
    (run : runEntry (s.entryOf i (s.capturedBy w)) = fpBinary w (s.entryOf i (s.capturedBy w)) op) :
    fpResult i s w fa fb fd fun c => op c.rm := by
  refine vectorResult_of d hs issue (run.trans (fpBinary_eq ha hb hd plain)) fun x get k => ?_
  rw [finishFp_dispatchCtx, fpOperand_dispatchCtx s i w true fb k fun kind => get _ (mem_sourceRegs_vs2 kind),
    get _ (mem_sourceRegs_vs1 w)]
  rfl

theorem fpResult1_of {limit : Nat} {op : Val → Val × Flags} (d : s.dispatches w false)
    (scales : scalesZero (s.palOf w) true false true = true) (hs : streamOf i = 1) (issue : exec i s = s.issueW i w)
    (run : runEntry (s.entryOf i (s.capturedBy w)) = fpUnary w (s.entryOf i (s.capturedBy w)) limit op) :
    fpResult1 i s w fa fd limit op := by
  refine vectorResult_of d hs issue (run.trans (fpUnary_eq ha hd plain scales)) fun x get k => ?_
  rw [get _ (List.mem_singleton_self _)]
  rfl

theorem vfma_result {fc : Fmt} (d : s.dispatches w true) (hb : floatFmt (palFb (s.palOf w)) s.bits = some fb)
    (hc : floatFmt (palFc (s.palOf w)) s.bits = some fc) :
    vectorResult (.vfma w) s w true w.vd fun c k =>
      finishFp c fd fd.prec (fmaVal c.rm (w.aux9.getLsbD 2) (w.aux9.getLsbD 3) (s.fpEl c fa (palSa c.pal) w.vs1 k)
        (decodeScaled c.pal fb (palSb c.pal) (c.operand fb (s.hart.rv w.vs2.toNat) k)) (s.fpEl c fc 0 w.vs3 k)) := by
  refine vectorResult_of d rfl rfl (runVfma_eq ha hb hc hd plain) fun x get k => ?_
  rw [finishFp_dispatchCtx, get _ (List.mem_append_left _ (mem_sourceRegs_vs1 w)),
    get w.vs3.toNat (List.mem_append_right _ (List.mem_singleton_self _)),
    fpOperand_dispatchCtx s (.vfma w) w true fb k fun kind => get _ (List.mem_append_left _ (mem_sourceRegs_vs2 kind))]
  rfl

theorem vquad_derivative (d : s.dispatches w false) (scales : scalesZero (s.palOf w) true false true = true)
    (h4 : 4 ≤ w.vs3.toNat) (h8 : w.vs3.toNat < 8) :
    vectorResult (.vquad w) s w false w.vd fun c k =>
      let q := k / 4 * 4
      let from_ := if w.vs3 = 4#5 then (q + k % 4 / 2 * 2 + 1, q + k % 4 / 2 * 2)
        else if w.vs3 = 5#5 then (q + k % 2 + 2, q + k % 2) else if w.vs3 = 6#5 then (q + 1, q) else (q + 2, q)
      let a := s.fpEl c fa (palSa c.pal) w.vs1 from_.1
      let b := s.fpEl c fa (palSa c.pal) w.vs1 from_.2
      finishFp c fd fd.prec (addVal c.rm [a, b] a b.negate) := by
  refine vectorResult_of d rfl rfl (runVquad_eq (Nat.not_lt.mpr h4) ha hd plain scales) fun x get k => ?_
  rw [quadPartners_derivative h4 h8, get _ (List.mem_singleton_self _)]
  rfl

end

/-- Settles O19: every instruction is dispatched on the quiet hart, and its element loop gives each computed element the
result of the operands that its registers hold. -/
theorem vectorFloatArithmetic : Obligations.VectorFloatArithmetic := by
  unfold Obligations.VectorFloatArithmetic
  intro s w fa fd p ha hd plain
  refine ⟨fun fb d hb => ?_, fun d scales => ?_⟩
  · exact ⟨fpResult_of ha hd plain (op := fun rm a b => addVal rm [a, b] a b) d hb rfl rfl rfl,
      fpResult_of ha hd plain (op := fun rm a b => addVal rm [a, b] a b.negate) d hb rfl rfl rfl,
      fpResult_of ha hd plain (op := fun _ a b => mulVal [a, b] a b) d hb rfl rfl rfl,
      fpResult_of ha hd plain (op := fun _ a b => divVal a b) d hb rfl rfl rfl,
      fpResult_of ha hd plain (op := fun _ a b => minMaxVal false a b) d hb rfl rfl rfl,
      fpResult_of ha hd plain (op := fun _ a b => minMaxVal true a b) d hb rfl rfl rfl,
      fun fc hc => vfma_result ha hd plain d hb hc⟩
  · exact ⟨fpResult1_of ha hd plain d scales rfl rfl rfl, fpResult1_of ha hd plain d scales rfl rfl rfl,
      fpResult1_of ha hd plain d scales rfl rfl rfl, fpResult1_of ha hd plain d scales rfl rfl rfl,
      fpResult1_of ha hd plain d scales rfl rfl rfl, vquad_derivative ha hd plain d scales⟩

end Sys2Proof.Machine

namespace Sys2Proof.Machine
open Sys2Proof

/-! ## Reductions (R133, R134; O23) -/

/-- The hart after a reduction: element 0 of dst, the flags, and the exception mask with bit 0 alone. -/
def Hart.reduced (h : Hart) (c : VCtx) (dst : Nat) (r : Nat × Flags) : Hart :=
  let k : Hart := { h.wv dst (setElem (h.rv dst) c.bits 0 r.1) with vfflags := h.vfflags ||| r.2 }
  if c.w.em = 1#1 then k.wp c.w.pe.toNat (setBit 0#2048 0 (r.2 &&& c.e.cap.vxmask != 0#6)) else k

theorem writeSome_unbound {c : VCtx} {dst x : Nat} {s : State} (unbound : s.hart.bindings = []) :
    writeSome c dst [(0, x)] s = .ok () { s with hart := s.hart.wv dst (setElem (s.hart.rv dst) c.bits 0 x) } := by
  unfold writeSome
  refine (M.bind_ok (t := { s with hart := s.hart.wv dst (setElem (s.hart.rv dst) c.bits 0 x) }) rfl).trans ?_
  refine forM'_same fun i _ => ?_
  have free : ({ s with hart := s.hart.wv dst (setElem (s.hart.rv dst) c.bits 0 x) } : State).hart.bindings = [] := by
    simpa using unbound
  show (match [(0, x)].lookup i with
    | some x => append dst true x
    | none => append dst false 0 : M Unit) _ = _
  cases [(0, x)].lookup i with
  | some y => exact append_unbound free
  | none => exact append_unbound free

theorem finishReduction_unbound {c : VCtx} {dst : Nat} (r : Nat × Flags) {s : State} (unbound : s.hart.bindings = []) :
    finishReduction c dst r s = .ok () { s with hart := s.hart.reduced c dst r } := by
  unfold finishReduction Hart.reduced
  rw [M.bind_ok (writeSome_unbound unbound), M.bind_ok (raise_apply _ _)]
  simp only [Hart.wv_vfflags]
  split
  · exact modH_apply _ _
  · rfl

theorem vectorOnly_reduced (s : State) (c : VCtx) (dst : Nat) (r : Nat × Flags) :
    vectorOnly s { s with hart := s.hart.reduced c dst r } := by
  have first : vectorOnly s { s with hart := { s.hart.wv dst (setElem (s.hart.rv dst) c.bits 0 r.1) with
      vfflags := s.hart.vfflags ||| r.2 } } := (vectorOnly_wv s dst _).trans rfl
  unfold Hart.reduced
  dsimp only
  split
  · exact first.trans (vectorOnly_wp _ _ _)
  · exact first

theorem reduced_rv (h : Hart) (c : VCtx) (dst : Nat) (r : Nat × Flags) :
    (h.reduced c dst r).rv = (h.wv dst (setElem (h.rv dst) c.bits 0 r.1)).rv := by
  have same : (h.reduced c dst r).v = (h.wv dst (setElem (h.rv dst) c.bits 0 r.1)).v := by
    unfold Hart.reduced
    dsimp only
    split <;> simp
  funext n
  show (h.reduced c dst r).v.toList.getD n 0#16384 = _
  rw [same]
  rfl

theorem reduced_vfflags (h : Hart) (c : VCtx) (dst : Nat) (r : Nat × Flags) :
    (h.reduced c dst r).vfflags = h.vfflags ||| r.2 := by
  unfold Hart.reduced
  dsimp only
  split <;> simp

theorem reduced_rp (h : Hart) (c : VCtx) (dst : Nat) (x : Nat × Flags) {n k : Nat} (hn : 0 < n) (hk : k < 2048) :
    ((h.reduced c dst x).rp n).getLsbD k =
      if c.w.em = 1#1 ∧ n = c.w.pe.toNat then decide (k = 0) && (x.2 &&& c.e.cap.vxmask != 0#6) else (h.rp n).getLsbD k := by
  have same : ({ h.wv dst (setElem (h.rv dst) c.bits 0 x.1) with vfflags := h.vfflags ||| x.2 } : Hart).rp n = h.rp n := by
    unfold Hart.rp
    simp
  unfold Hart.reduced
  dsimp only
  by_cases em : c.w.em = 1#1
  · rw [if_pos em, rp_wp _ _ _ hn c.w.pe.isLt]
    by_cases pe : n = c.w.pe.toNat
    · rw [if_pos pe, if_pos ⟨em, pe⟩, setBit_getLsbD _ _ _ hk]
      by_cases k0 : k = 0 <;> simp [k0]
    · rw [if_neg pe, if_neg (by tauto), same]
  · rw [if_neg em, if_neg (by tauto), same]

/-- What is left of a reduction once its own checks have passed. -/
def runReduction (w : WWord) (e : QEntry) (g : VCtx → Sources → Nat × Flags) : M Unit := do
  wholeVector e
  let c ← dispatchV w e true
  checkDest c w.vd.toNat
  let x ← sources c (sourceRegs w) 0 c.vl
  whole do
    consumeAll x c.vl
    finishReduction c w.vd.toNat (g c x)

theorem runReduction_ok {s : State} {i : Instr} {w : WWord} {g : VCtx → Sources → Nat × Flags} (d : s.dispatches w true)
    (h0 : s.hart.vstart = 0) (hs : streamOf i = 1) :
    let c := s.dispatchCtx i w true
    let k := s.dispatchedBy i w true
    runReduction w (s.entryOf i (s.capturedBy w)) g (s.atHead i (s.capturedBy w) 8) = .ok () { k with
      hart := { k.hart.reduced c w.vd.toNat (g c (registerSources c k (sourceRegs w) 0)) with vstart := 0 } } := by
  intro c k
  have unbound : k.hart.bindings = [] := d.unbound
  unfold runReduction
  rw [M.bind_ok (wholeVector_ok (s := s.atHead i (s.capturedBy w) 8) h0 rfl), M.bind_ok (dispatchV_ok d hs),
    M.bind_ok (checkDest_unbound unbound), M.bind_ok (sources_of_registers unbound)]
  unfold whole
  rw [M.bind_ok (atomically_ok ((M.bind_ok (consumeAll_registers ..)).trans (finishReduction_unbound _ unbound)))]
  rfl

theorem reductionResult_of {s : State} {i : Instr} {w : WWord} {f : VCtx → Nat × Flags} {g : VCtx → Sources → Nat × Flags}
    (d : s.dispatches w true) (h0 : s.hart.vstart = 0) (hs : streamOf i = 1) (issue : exec i s = s.issueW i w)
    (run : runEntry (s.entryOf i (s.capturedBy w)) = runReduction w (s.entryOf i (s.capturedBy w)) g)
    (agree : ∀ x : Sources, (∀ r, r ∈ sourceRegs w → x.get r = s.hart.rv r) →
      g (s.dispatchCtx i w true) x = f (s.context i w true)) : reductionResult i s w f := by
  let c := s.dispatchCtx i w true
  let k := s.dispatchedBy i w true
  have value : g c (registerSources c k (sourceRegs w) 0) = f (s.context i w true) := agree _ fun r hr => registerSources_get hr
  have ran := runReduction_ok (g := g) d h0 hs
  rw [← run] at ran
  have only : vectorOnly k { k with
      hart := { k.hart.reduced c w.vd.toNat (g c (registerSources c k (sourceRegs w) 0)) with vstart := 0 } } :=
    (vectorOnly_reduced k c w.vd.toNat _).trans rfl
  refine ⟨_, issue.trans (issueW_vectorOnly d hs ran only), vectorDone_of only rfl, ?_, fun n other => ?_, fun j fits => ?_,
    fun n j hn hj => ?_⟩
  · exact (reduced_vfflags k.hart c w.vd.toNat _).trans (congrArg (fun r => s.hart.vfflags ||| r.2) value)
  · exact (congrFun (reduced_rv k.hart c w.vd.toNat _) n).trans (k.hart.rv_wv_other _ n _ other)
  · refine (congrArg (fun v => elem v c.bits j) ((congrFun (reduced_rv k.hart c w.vd.toNat _) w.vd.toNat).trans
      (k.hart.rv_wv_same _ _ w.vd.isLt))).trans ?_
    by_cases j0 : j = 0
    · subst j0
      rw [if_pos rfl, value]
      exact elem_setElem_same _ _ _ _ fits
    · rw [if_neg j0]
      exact elem_setElem_other _ _ _ _ _ j0
  · refine (reduced_rp k.hart c w.vd.toNat _ hn hj).trans ?_
    rw [value]
    rfl

theorem foldl_add_eq_sum (l : List Int) (a : Int) : l.foldl (· + ·) a = a + l.sum := by
  induction l generalizing a with
  | nil => simp
  | cons x l ih => rw [List.foldl_cons, ih, List.sum_cons]; ring

theorem smaller_eq_min (a b : Int) : (if b < a then b else a) = min a b := by
  rw [min_comm, min_def_lt]

theorem larger_eq_max (a b : Int) : (if a < b then b else a) = max a b := (max_def_lt a b).symm

/-- What VREDI computes by its code (R133). -/
def vrediResult (cc : Nat) (enc : Int → Nat × Flags) (init : Int) (as_ : List Int) (x0 : Nat) (xs : List Nat) : Nat × Flags :=
  match cc with
  | 0 => enc (init + as_.sum)
  | 1 => enc (as_.foldl min init)
  | 2 => enc (as_.foldl max init)
  | 3 => (xs.foldl (· &&& ·) x0, 0#6)
  | 4 => (xs.foldl (· ||| ·) x0, 0#6)
  | _ => (xs.foldl (· ^^^ ·) x0, 0#6)

theorem reduce_eq_vrediResult (cc : Nat) (enc : Int → Nat × Flags) (init : Int) (as_ : List Int) (x0 : Nat) (xs : List Nat) :
    (if cc < 3 then enc (reduceInt cc init as_) else (reducePat cc x0 xs, 0#6)) = vrediResult cc enc init as_ x0 xs := by
  match cc with
  | 0 => exact congrArg enc (foldl_add_eq_sum as_ init)
  | 1 => simp [reduceInt, vrediResult, smaller_eq_min]
  | 2 => simp [reduceInt, vrediResult, larger_eq_max]
  | 3 => rfl
  | 4 => rfl
  | _ + 5 => rfl

theorem runVredi_eq {w : WWord} {e : QEntry} {sa sb sd : Bool} (ha : intFmt (palFa e.cap.pal) e.bits = some sa)
    (hb : intFmt (palFb e.cap.pal) e.bits = some sb) (hd : intFmt (palFd e.cap.pal) e.bits = some sd)
    (plain : palPlain e.cap.pal = true) (scales : scalesZero e.cap.pal false false false = true) :
    runVredi w e = runReduction w e fun c x =>
      let pats := (c.actives c.vl).map fun k => elem (x.get w.vs1.toNat) e.bits k
      let init := c.operand (.int sb e.bits) (x.get w.vs2.toNat) 0
      if w.vs3.toNat < 3 then encodeInt sd e.bits c.sat (reduceInt w.vs3.toNat (decodeInt sb e.bits init)
        (pats.map (decodeInt sa e.bits))) else (reducePat w.vs3.toNat init pats, 0#6) := by
  unfold runVredi
  simp only [ha, hb, hd, requireV_true (show (palPlain e.cap.pal && scalesZero e.cap.pal false false false) = true by
    rw [plain, scales]; rfl)]
  rfl

theorem runVredf_eq {w : WWord} {e : QEntry} {fa fb fd : Fmt} (ha : floatFmt (palFa e.cap.pal) e.bits = some fa)
    (hb : floatFmt (palFb e.cap.pal) e.bits = some fb) (hd : floatFmt (palFd e.cap.pal) e.bits = some fd)
    (plain : palPlain e.cap.pal = true) (scales : scalesZero e.cap.pal true true false = true) :
    runVredf w e = runReduction w e fun c x =>
      let init := fpOperand c fb (x.get w.vs2.toNat) 0
      let xs := (c.actives c.vl).map fun k => (k, fpSource c fa (palSa e.cap.pal) (x.get w.vs1.toNat) k)
      let r := (reduceFp c fd w.vs3.toNat init xs).encode c fd
      (r.1, r.2 ||| snanFlag (init :: xs.map Prod.snd)) := by
  unfold runVredf
  simp only [ha, hb, hd, requireV_true (show (palPlain e.cap.pal && scalesZero e.cap.pal true true false) = true by
    rw [plain, scales]; rfl)]
  rfl

theorem combine_dispatchCtx (s : State) (i : Instr) (w : WWord) (usesQ : Bool) (fd : Fmt) :
    combine (s.dispatchCtx i w usesQ) fd = combine (s.context i w usesQ) fd := rfl

theorem pairUp_dispatchCtx (s : State) (i : Instr) (w : WWord) (usesQ : Bool) (fd : Fmt) (l : List (Option Partial)) :
    pairUp (s.dispatchCtx i w usesQ) fd l = pairUp (s.context i w usesQ) fd l := by
  induction l using pairUp.induct with
  | case1 a b l ih => rw [pairUp, pairUp, ih, combine_dispatchCtx]
  | case2 l short => rw [pairUp.eq_2 _ _ _ short, pairUp.eq_2 _ _ _ short]

theorem treeLevels_dispatchCtx (s : State) (i : Instr) (w : WWord) (usesQ : Bool) (fd : Fmt) (n : Nat)
    (l : List (Option Partial)) :
    treeLevels (s.dispatchCtx i w usesQ) fd n l = treeLevels (s.context i w usesQ) fd n l := by
  induction n generalizing l with
  | zero => rfl
  | succ n ih => rw [treeLevels, treeLevels, pairUp_dispatchCtx, ih]

theorem reduceFp_dispatchCtx (s : State) (i : Instr) (w : WWord) (usesQ : Bool) :
    reduceFp (s.dispatchCtx i w usesQ) = reduceFp (s.context i w usesQ) := by
  funext fd cc init xs
  match cc with
  | 0 => simp only [reduceFp, combine_dispatchCtx, treeLevels_dispatchCtx]; rfl
  | 1 => rfl
  | _ + 2 => rfl

theorem vredi_result {s : State} {w : WWord} {sa sb sd : Bool} (d : s.dispatches w true) (h0 : s.hart.vstart = 0)
    (pal : s.intPalette w sa sb sd) :
    reductionResult (.vredi w) s w fun c =>
      vrediResult w.vs3.toNat (encodeInt sd s.bits (w.sat == 1#1)) (c.intOperand s sb 0)
        ((c.activeBelow.map (s.el w.vs1)).map (decodeInt sa s.bits)) (c.operand (.int sb s.bits) (s.hart.rv w.vs2.toNat) 0)
        (c.activeBelow.map (s.el w.vs1)) := by
  obtain ⟨ha, hb, hd, plain, scales⟩ := pal
  refine reductionResult_of d h0 rfl rfl (runVredi_eq ha hb hd plain scales) fun x get => ?_
  rw [← reduce_eq_vrediResult, get _ (mem_sourceRegs_vs1 w),
    operand_congr (s.dispatchCtx (.vredi w) w true) _ (fun kind => get _ (mem_sourceRegs_vs2 kind)) 0]
  rfl

theorem vredf_result {s : State} {w : WWord} {fa fb fd : Fmt} (d : s.dispatches w true) (h0 : s.hart.vstart = 0)
    (ha : floatFmt (palFa (s.palOf w)) s.bits = some fa) (hb : floatFmt (palFb (s.palOf w)) s.bits = some fb)
    (hd : floatFmt (palFd (s.palOf w)) s.bits = some fd) (plain : palPlain (s.palOf w) = true)
    (scales : scalesZero (s.palOf w) true true false = true) :
    reductionResult (.vredf w) s w fun c =>
      let init := decodeScaled c.pal fb (palSb c.pal) (c.operand fb (s.hart.rv w.vs2.toNat) 0)
      let xs := c.activeBelow.map fun k => (k, s.fpEl c fa (palSa c.pal) w.vs1 k)
      let x := (reduceFp c fd w.vs3.toNat init xs).encode c fd
      (x.1, x.2 ||| snanFlag (init :: xs.map Prod.snd)) := by
  refine reductionResult_of d h0 rfl rfl (runVredf_eq ha hb hd plain scales) fun x get => ?_
  simp only [reduceFp_dispatchCtx, get _ (mem_sourceRegs_vs1 w),
    fpOperand_dispatchCtx s (.vredf w) w true fb 0 fun kind => get _ (mem_sourceRegs_vs2 kind)]
  rfl

/-- Settles O23: a reduction reads its sources whole, and what it computes of them goes to element 0, to the flags and to
bit 0 of the exception mask. -/
theorem vectorReductions : Obligations.VectorReductions := by
  unfold Obligations.VectorReductions
  intro s w d h0 p
  exact ⟨fun sa sb sd pal => vredi_result d h0 pal,
    fun fa fb fd ha hb hd plain scales => vredf_result d h0 ha hb hd plain scales⟩

end Sys2Proof.Machine

namespace Sys2Proof.Machine
open Sys2Proof

/-! ## The release of ring slots by a hart in no transaction, to which every line is open (R222, R298)

Of the hart's state a release changes a reservation alone, and it leaves every line as held as it was. -/

/-- The party, a hart in no transaction, waits for no line. -/
structure openTo (p : Party) (s : State) : Prop where
  tx : s.hart.tx = none
  lines : ∀ l, s.lineHeld p.self l = false

/-- Of the hart only the reservation has changed, and no line is held that was not. -/
structure reservationOnly (s t : State) : Prop where
  hart : t.hart = { s.hart with reservation := t.hart.reservation }
  lines : ∀ self l, t.lineHeld self l = s.lineHeld self l

theorem reservationOnly.refl (s : State) : reservationOnly s s := ⟨rfl, fun _ _ => rfl⟩

theorem reservationOnly.trans {s t u : State} (h : reservationOnly s t) (k : reservationOnly t u) : reservationOnly s u :=
  ⟨by rw [k.hart, h.hart], fun self l => (k.lines self l).trans (h.lines self l)⟩

theorem openTo.keep {p : Party} {s t : State} (o : openTo p s) (h : reservationOnly s t) : openTo p t :=
  ⟨by rw [h.hart]; exact o.tx, fun l => (h.lines p.self l).trans (o.lines l)⟩

theorem openTo.outside {p : Party} {s : State} (o : openTo p s) : s.inTx p = false := by
  unfold State.inTx
  rw [o.tx]
  simp

theorem noteLine_reservationOnly {s : State} (tx : s.hart.tx = none) (self : Option HartId) (line : Nat) :
    reservationOnly s (s.noteLine self line) := by
  refine ⟨?_, fun p l => lineHeld_noteLine s p self line l⟩
  have seen := seesWrite_outside s.dev.coarse self line tx
  show s.hart.seesWrite s.dev.coarse self line =
    { s.hart with reservation := (s.hart.seesWrite s.dev.coarse self line).reservation }
  rw [seen]

theorem noteLines_reservationOnly {self : Option HartId} (l : List Nat) {s : State} (tx : s.hart.tx = none) :
    reservationOnly s (l.foldl (fun t k => t.noteLine self k) s) := by
  induction l generalizing s with
  | nil => exact .refl s
  | cons k l ih =>
    have first := noteLine_reservationOnly tx self k
    exact first.trans (ih (by rw [first.hart]; exact tx))

theorem lineHeld_congr {s t : State} (h : t.harts = s.harts) (self : Option HartId) (l : Nat) :
    t.lineHeld self l = s.lineHeld self l := by
  unfold State.lineHeld
  rw [h]

theorem physStore_reservationOnly {s : State} (tx : s.hart.tx = none) (self : Option HartId) (pa n v : Nat) :
    reservationOnly s (s.physStore self pa n v) :=
  (show reservationOnly s { s with mem := s.mem.write pa n v, poison := clearPoison s.poison pa n } from
    ⟨rfl, fun self l => lineHeld_congr rfl self l⟩).trans (noteLines_reservationOnly _ tx)

theorem setOwner_reservationOnly {s : State} (tx : s.hart.tx = none) (self : Option HartId) (cluster pa : Nat) (owned : Bool) :
    reservationOnly s (s.setOwner self cluster pa owned) := by
  unfold State.setOwner
  exact (show reservationOnly s (s.modCluster (ClusterId.ofIndex cluster) _) from
    ⟨rfl, fun self l => lineHeld_congr rfl self l⟩).trans (noteLine_reservationOnly (by exact tx) self _)

/-- An effect completes for the party, and of its hart changes the reservation alone. -/
def passes (p : Party) (m : M Unit) : Prop :=
  ∀ s, openTo p s → ∃ t, m s = .ok () t ∧ reservationOnly s t

theorem passes.bind {p : Party} {m n : M Unit} (hm : passes p m) (hn : passes p n) : passes p (do m; n) := by
  intro s o
  obtain ⟨t, ranM, keptM⟩ := hm s o
  obtain ⟨u, ranN, keptN⟩ := hn t (o.keep keptM)
  exact ⟨u, (M.bind_ok ranM).trans ranN, keptM.trans keptN⟩

theorem passes.forM' {α : Type} {p : Party} {f : α → M Unit} (h : ∀ a, passes p (f a)) (l : List α) :
    passes p (Machine.forM' f l) := by
  induction l with
  | nil => exact fun s _ => ⟨s, rfl, .refl s⟩
  | cons a l ih => exact (h a).bind ih

theorem passes_pure (p : Party) : passes p (pure ()) := fun s _ => ⟨s, rfl, .refl s⟩

theorem awaitLines_open {p : Party} {s : State} (o : openTo p s) (pa n : Nat) : awaitLines p pa n s = .ok () s := by
  have free : (linesOf pa n).find? (fun l => s.lineHeld p.self l) = none := by
    rw [List.find?_eq_none]
    exact fun l _ => by rw [o.lines l]; decide
  unfold awaitLines
  rw [M.bind_ok (M.get_apply s), free]
  rfl

theorem passes_plainWrite (p : Party) (pa n v : Nat) : passes p (plainWrite p pa n v) := fun s o =>
  ⟨s.physStore p.self pa n v, M.bind_ok (awaitLines_open o pa n), physStore_reservationOnly o.tx ..⟩

/-- The words of a ring-table entry are written one by one. -/
theorem passes_saveRing {p : Party} {r : RingRef} (loc1 : r.gang.isSome = true) (old new : RingDesc) :
    passes p (saveRing p r old new) := by
  unfold saveRing
  refine .forM' (fun k => ?_) _
  dsimp only
  split
  · intro s o
    obtain ⟨t, ran, kept⟩ := passes_plainWrite p (r.pa + 8 * k) 8 (new.words.getD k 0) s o
    refine ⟨t, (M.bind_ok (M.get_apply s)).trans ?_, kept⟩
    rw [o.outside]
    exact ran
  · exact passes_pure p

theorem passes_flipOwner (p : Party) (r : RingRef) (d : RingDesc) (c : Nat) (owned : Bool) :
    passes p (flipOwner p r d c owned) := by
  intro s o
  unfold flipOwner
  cases r.gang.bind fun g => g.fifoPa (d.base.toNat + d.slotOff c) with
  | none => exact passes_pure p s o
  | some pa =>
    refine ⟨s.setOwner p.self r.cluster pa owned, (M.bind_ok (M.get_apply s)).trans ?_, setOwner_reservationOnly o.tx ..⟩
    rw [o.outside]
    exact M.bind_ok (awaitLines_open o pa 1)

theorem passes_releaseSlot {p : Party} {r : RingRef} (loc1 : r.gang.isSome = true) (d : RingDesc) (c : Nat) :
    passes p (releaseSlot p r d c) :=
  (passes_saveRing loc1 d _).bind (passes_flipOwner p r d c false)

/-- An effect gives a value with a property, or traps; either way the state stays. -/
def looksUp {α : Type} (m : M α) (s : State) (q : α → Prop) : Prop :=
  (∃ x, m s = .ok x s ∧ q x) ∨ ∃ f, m s = .error (.trap f) s

theorem looksUp.pure {α : Type} {x : α} {s : State} {q : α → Prop} (h : q x) : looksUp (Pure.pure x) s q :=
  .inl ⟨x, rfl, h⟩

theorem looksUp_ringFault {α : Type} (reason : Nat) (s : State) (q : α → Prop) : looksUp (ringFault reason) s q :=
  .inr ⟨_, rfl⟩

theorem looksUp.bind {α β : Type} {m : M α} {f : α → M β} {s : State} {q : α → Prop} {r : β → Prop}
    (hm : looksUp m s q) (hf : ∀ x, q x → looksUp (f x) s r) : looksUp (m >>= f) s r := by
  obtain ⟨x, ran, hx⟩ | ⟨e, ran⟩ := hm
  · unfold looksUp
    rw [M.bind_ok ran]
    exact hf x hx
  · exact .inr ⟨e, M.bind_error ran⟩

theorem looksUp_get (s : State) : looksUp (get : M State) s (· = s) := .inl ⟨s, rfl, rfl⟩

/-- The place of a ring-table entry is found without a translation. -/
theorem ringPlace_loc1 {p : Party} {h : Word} (s : State) (loc1 : h.extractLsb' 56 4 = 1#4) :
    looksUp (ringPlace p h) s fun r => r.gang.isSome = true := by
  have entry : fieldOf h 56 4 ≠ 0 := by
    unfold fieldOf
    rw [loc1]
    decide
  unfold ringPlace
  by_cases bad : (!handleOk h) = true
  · rw [if_pos bad]
    exact looksUp_ringFault 1 s _
  · rw [if_neg bad]
    simp only [if_neg entry]
    refine (looksUp_get s).bind fun u _ => ?_
    cases u.entryGang (fieldOf h 0 56 / 64) (fieldOf h 0 56 % 64) with
    | none => exact looksUp_ringFault 6 s _
    | some g =>
      dsimp only
      split
      · exact looksUp_ringFault 6 s _
      · exact .pure rfl

/-- A ring-table entry opens, or has a fault of R219. -/
theorem openRing_loc1 {p : Party} {h : Word} {s : State} (loc1 : h.extractLsb' 56 4 = 1#4) (o : openTo p s) :
    looksUp (openRing p h) s fun x => x.1.gang.isSome = true := by
  have bytes : ∀ r : RingRef, r.gang.isSome = true → looksUp (ringBytes p r) s fun _ => True := by
    intro r gang
    refine (looksUp_get s).bind fun u hu => ?_
    rw [if_pos gang, hu, o.outside]
    exact .pure trivial
  refine (ringPlace_loc1 s loc1).bind fun r gang => (bytes r gang).bind fun b _ => ?_
  dsimp only
  split
  · exact looksUp_ringFault 2 s _
  · cases hg : r.gang with
    | none => rw [hg] at gang; cases gang
    | some g =>
      dsimp only
      split
      · exact looksUp_ringFault 6 s _
      · exact .pure gang

theorem keepRequests_self_reservationOnly (s : State) : reservationOnly s (s.keepRequests s) := by
  have walks : s.keepWalks s = s := by
    unfold State.keepWalks
    rw [List.drop_length]
    rfl
  unfold State.keepRequests
  rw [walks]
  exact ⟨rfl, fun self l => lineHeld_congr rfl self l⟩

/-- A release that cannot be made is passed over. -/
theorem passes_ifItCan {α : Type} {p : Party} {m : M α} {f : α → M Unit} {q : α → Prop}
    (hm : ∀ s, openTo p s → looksUp m s q) (hf : ∀ x, q x → passes p (f x)) : passes p (ifItCan (m >>= f)) := by
  intro s o
  unfold ifItCan
  obtain ⟨x, ran, hx⟩ | ⟨e, ran⟩ := hm s o
  · obtain ⟨t, ranF, kept⟩ := hf x hx s o
    exact ⟨t, by rw [M.bind_ok ran, ranF], kept⟩
  · exact ⟨s.keepRequests s, by rw [M.bind_error ran], keepRequests_self_reservationOnly s⟩

/-- A hart without one of its operand groups. -/
def Hart.dropGroup (h : Hart) (sideB : Bool) : Hart :=
  if sideB then { h with groupB := none } else { h with groupA := none }

/-- The release of an operand group: it leaves the engine, and the slots are released where they can be (R298). -/
theorem releaseGroup_ok {p : Party} {g : OperandGroup} {s : State} (sideB : Bool) (loc1 : g.handle.extractLsb' 56 4 = 1#4)
    (o : openTo p s) :
    ∃ t, releaseGroup p sideB g s = .ok () { t with hart := t.hart.dropGroup sideB } ∧ reservationOnly s t := by
  have slots : passes p (forM' (fun n => ifItCan (do
      let x ← openRing p g.handle
      releaseSlot p x.1 x.2 ((g.first + n) % x.2.m))) (List.range g.pas.length)) :=
    .forM' (fun n => passes_ifItCan (fun _ o => openRing_loc1 loc1 o) fun x gang => passes_releaseSlot gang x.2 _) _
  obtain ⟨t, ran, kept⟩ := slots s o
  refine ⟨t, (M.bind_ok ran).trans ?_, kept⟩
  cases sideB <;> rfl

theorem openTo.withHart {p : Party} {s : State} {k : Hart} (o : openTo p s) (tx : k.tx = none) (id : k.id = s.hart.id)
    (ticket : ∀ l, k.ticket l = s.hart.ticket l) (held : k.heldLines = s.hart.heldLines) : openTo p { s with hart := k } :=
  ⟨tx, fun l => (lineHeld_withHart id ticket held p.self l).trans (o.lines l)⟩

theorem openTo.dropGroup {p : Party} {s : State} (o : openTo p s) (sideB : Bool) :
    openTo p { s with hart := s.hart.dropGroup sideB } := by
  cases sideB <;> exact o.withHart o.tx rfl (fun _ => rfl) rfl

/-- The hart has let its groups go as told, and of the rest of it the reservation alone has changed. -/
structure letGo (s t : State) (a b : Bool) : Prop where
  hart : t.hart = { s.hart with
    groupA := if a then none else s.hart.groupA, groupB := if b then none else s.hart.groupB,
    reservation := t.hart.reservation }
  mem : a = false → b = false → t.mem = s.mem

/-- MMAC's releases, by the bits of its mode. -/
def releaseGroups (p : Party) (a b : Bool) (ga gb : OperandGroup) : M Unit := do
  if a then releaseGroup p false ga
  if b then releaseGroup p true gb

theorem releaseIf_ok {p : Party} {g : OperandGroup} {s : State} {rel : Bool} (sideB : Bool)
    (loc1 : rel = true → g.handle.extractLsb' 56 4 = 1#4) (o : openTo p s) :
    ∃ t, (if rel then releaseGroup p sideB g else pure () : M Unit) s = .ok () t ∧ openTo p t ∧
      letGo s t (rel && !sideB) (rel && sideB) := by
  cases rel with
  | false => exact ⟨s, rfl, o, rfl, fun _ _ => rfl⟩
  | true =>
    obtain ⟨t, ran, kept⟩ := releaseGroup_ok sideB (loc1 rfl) o
    refine ⟨_, ran, (o.keep kept).dropGroup sideB, ?_, by cases sideB <;> simp⟩
    unfold Hart.dropGroup
    rw [kept.hart]
    cases sideB <;> rfl

theorem releaseGroups_ok {p : Party} {a b : Bool} {ga gb : OperandGroup} {s : State}
    (ha : a = true → ga.handle.extractLsb' 56 4 = 1#4) (hb : b = true → gb.handle.extractLsb' 56 4 = 1#4) (o : openTo p s) :
    ∃ t, releaseGroups p a b ga gb s = .ok () t ∧ letGo s t a b := by
  obtain ⟨t, ranA, openA, letA⟩ := releaseIf_ok false ha o
  obtain ⟨u, ranB, -, letB⟩ := releaseIf_ok true hb openA
  refine ⟨u, (M.ite_bind_ok (f := fun _ => if b then releaseGroup p true gb else pure ()) ranA).trans ranB,
    ?_, fun na nb => ?_⟩
  · rw [letB.hart, letA.hart]
    simp
  · exact (letB.mem (by simp) (by simp [nb])).trans (letA.mem (by simp [na]) (by simp))

end Sys2Proof.Machine

namespace Sys2Proof.Machine
open Sys2Proof

/-! ## Rank updates of a tile (R58 to R60) -/

/-- The same accumulator and flags, whatever the check sums. -/
def Acc.agree (x y : Acc) : Prop := x.acc = y.acc ∧ x.flags = y.flags

theorem fuseInt_agree {x y : Acc} (sat : Bool) (l : List (Int × Int)) (h : x.agree y) :
    (fuseInt sat x l).agree (fuseInt sat y l) := by
  obtain ⟨acc, flags⟩ := h
  unfold fuseInt Acc.agree
  simp only [acc, flags, and_self]

theorem fuseFloat_agree {x y : Acc} (pal : Word) (f : Fmt) (l : List (Val × Val)) (h : x.agree y) :
    (fuseFloat pal f x l).agree (fuseFloat pal f y l) := by
  obtain ⟨acc, flags⟩ := h
  unfold fuseFloat Acc.agree
  simp only [acc, flags]
  split <;> exact ⟨rfl, rfl⟩

theorem foldl_agree {α : Type} {f : Acc → α → Acc} (hf : ∀ a x y, x.agree y → (f x a).agree (f y a)) (l : List α)
    {x y : Acc} (h : x.agree y) : (l.foldl f x).agree (l.foldl f y) := by
  induction l generalizing x y with
  | nil => exact h
  | cons a l ih => exact ih (hf a x y h)

/-- Check sums have no part in what an update makes of an element. -/
theorem updateElem_agree {x y : Acc} (pal : Word) (mode : TileMode) (row : MacRow) (sat : Bool) (km : BitVec 2048)
    (a b : Nat → Nat) (fa fb : Fmt) (h : x.agree y) :
    (updateElem pal mode row sat km a b fa fb x).agree (updateElem pal mode row sat km a b fa fb y) := by
  unfold updateElem
  refine foldl_agree (fun t x y h => ?_) _ h
  cases keptOf km row.g t with
  | nil => exact h
  | cons k ks =>
    cases mode with
    | i64 => exact fuseInt_agree sat _ h
    | f64 => exact fuseFloat_agree pal _ _ h
    | f32p => exact fuseFloat_agree pal _ _ h

/-! ## Elements of a tile -/

theorem setElem_row_same (t : Tile) {i : Nat} (j x : Nat) (hi : i < 32) :
    (t.setElem i j x).row i = Machine.setElem (t.row i) t.mode.bits j x := by
  simp [Tile.setElem, Tile.setRow, Tile.row, hi]

theorem setElem_row_other (t : Tile) {i k : Nat} (j x : Nat) (other : k ≠ i) : (t.setElem i j x).row k = t.row k := by
  unfold Tile.setElem Tile.setRow Tile.row
  split
  · simp [List.getD_eq_getElem?_getD, Ne.symm other]
  · rfl

theorem setElem_mode (t : Tile) (i j x : Nat) : (t.setElem i j x).mode = t.mode := by
  unfold Tile.setElem Tile.setRow
  split <;> rfl

theorem column_fits (m : TileMode) {j : Nat} (h : j < m.cols) : (j + 1) * m.bits ≤ 2048 := by
  cases m <;> simp [TileMode.cols, TileMode.bits, TileMode.fmt, Fmt.width] at h ⊢ <;> omega

theorem elem_setElem_tile (t : Tile) {i j : Nat} (x k l : Nat) (hi : i < 32) (hj : j < t.mode.cols) :
    (t.setElem i j x).elem k l = if (k, l) = (i, j) then x % 2 ^ t.mode.bits else t.elem k l := by
  unfold Tile.elem
  rw [setElem_mode]
  by_cases row : k = i
  · subst row
    rw [setElem_row_same t j x hi]
    by_cases col : l = j
    · subst col
      rw [if_pos rfl, elem_setElem_same _ _ _ _ (column_fits t.mode hj)]
    · rw [if_neg (by simp [col]), elem_setElem_other _ _ _ _ _ col]
  · rw [if_neg (by simp [row]), setElem_row_other t j x row]

/-- One update of a tile: its element, the check sums of its column, and the flags gathered. -/
def updateAt (f : Nat → Nat → Acc → Acc) (s : Tile × Flags) (ij : Nat × Nat) : Tile × Flags :=
  let x := f ij.1 ij.2 { acc := s.1.elem ij.1 ij.2, flags := 0#6, check := s.1.checks.getD ij.2 ColumnCheck.zero }
  ({ (s.1.setElem ij.1 ij.2 x.acc) with checks := s.1.checks.set ij.2 x.check }, s.2 ||| x.flags)

theorem updateTile_concat (f : Nat → Nat → Acc → Acc) (t : Tile) (acts : List (Nat × Nat)) (ij : Nat × Nat) :
    updateTile t (acts ++ [ij]) f = updateAt f (updateTile t acts f) ij := by
  unfold updateTile
  rw [List.foldl_append]
  rfl

/-- What updates of positions have made of a tile: each of them has its element and flags from the tile's own element. -/
structure tileUpdated (f : Nat → Nat → Acc → Acc) (t : Tile) (acts : List (Nat × Nat)) (u : Tile × Flags) : Prop where
  mode : u.1.mode = t.mode
  elems : ∀ i j, u.1.elem i j =
    if (i, j) ∈ acts then (f i j (Acc.start (t.elem i j))).acc % 2 ^ t.mode.bits else t.elem i j
  flags : ∀ b, u.2.getLsbD b = true ↔ ∃ i j, (i, j) ∈ acts ∧ (f i j (Acc.start (t.elem i j))).flags.getLsbD b = true

theorem tileUpdated.concat {f : Nat → Nat → Acc → Acc} (agree : ∀ i j x y, x.agree y → (f i j x).agree (f i j y))
    {t : Tile} {acts : List (Nat × Nat)} {u : Tile × Flags} (h : tileUpdated f t acts u) {i j : Nat} (hi : i < 32)
    (hj : j < t.mode.cols) (new : (i, j) ∉ acts) : tileUpdated f t (acts ++ [(i, j)]) (updateAt f u (i, j)) := by
  have old : u.1.elem i j = t.elem i j := by rw [h.elems, if_neg new]
  obtain ⟨acc, flags⟩ := agree i j
    { acc := u.1.elem i j, flags := 0#6, check := u.1.checks.getD j ColumnCheck.zero } (Acc.start (t.elem i j)) ⟨old, rfl⟩
  refine ⟨(setElem_mode u.1 i j _).trans h.mode, fun k l => ?_, fun b => ?_⟩
  · refine (elem_setElem_tile u.1 _ k l hi (h.mode ▸ hj)).trans ?_
    by_cases here : (k, l) = (i, j)
    · obtain ⟨rfl, rfl⟩ := Prod.mk.inj here
      rw [if_pos rfl, if_pos (by simp), acc, h.mode]
    · rw [if_neg here, h.elems]
      exact if_congr (by simp [here]) rfl rfl
  · show (u.2 ||| _).getLsbD b = true ↔ _
    rw [BitVec.getLsbD_or, Bool.or_eq_true, h.flags, flags]
    constructor
    · rintro (⟨k, l, hm, hb⟩ | hb)
      · exact ⟨k, l, List.mem_append_left _ hm, hb⟩
      · exact ⟨i, j, by simp, hb⟩
    · rintro ⟨k, l, hm, hb⟩
      obtain hm | hm := List.mem_append.mp hm
      · exact .inl ⟨k, l, hm, hb⟩
      · obtain ⟨rfl, rfl⟩ := Prod.mk.inj (List.mem_singleton.mp hm)
        exact .inr hb

/-- Each position of a list without repetition takes its update once. -/
theorem updateTile_updated {f : Nat → Nat → Acc → Acc} (agree : ∀ i j x y, x.agree y → (f i j x).agree (f i j y))
    (t : Tile) (acts : List (Nat × Nat)) (once : acts.Nodup) (inside : ∀ i j, (i, j) ∈ acts → i < 32 ∧ j < t.mode.cols) :
    tileUpdated f t acts (updateTile t acts f) := by
  induction acts using List.reverseRecOn with
  | nil => exact ⟨rfl, fun _ _ => rfl, by simp [updateTile]⟩
  | append_singleton acts ij ih =>
    obtain ⟨i, j⟩ := ij
    obtain ⟨hi, hj⟩ := inside i j (by simp)
    rw [updateTile_concat]
    obtain ⟨before, -, apart⟩ := List.nodup_append.mp once
    exact (ih before fun k l hm => inside k l (List.mem_append_left _ hm)).concat agree hi hj
      fun hm => apart _ hm _ (by simp) rfl

/-- The positions of rows and columns without repetition. -/
theorem nodup_positions {rows cols : List Nat} (hr : rows.Nodup) (hc : cols.Nodup) :
    (rows.flatMap fun i => cols.map fun j => (i, j)).Nodup := hr.product hc

theorem mem_positions {rows cols : List Nat} {i j : Nat} :
    (i, j) ∈ (rows.flatMap fun i => cols.map fun j => (i, j)) ↔ i ∈ rows ∧ j ∈ cols := List.mem_product

end Sys2Proof.Machine

namespace Sys2Proof.Machine
open Sys2Proof

/-! ## MMAC on held groups (R301, R302; O31) -/

/-- The state after the dispatch of a matrix instruction that pops nothing. -/
def State.matrixDispatched (s : State) (i : Instr) (w : WWord) : State :=
  { s.atHead i (s.capturedBy w) 8 with hart := { (s.atHead i (s.capturedBy w) 8).hart with mq := [(s.context i w false).e] } }

theorem dispatchM_ok {s : State} {i : Instr} {w : WWord} (d : s.dispatches w false) (plain : w.lqv = 0#1)
    (hs : streamOf i = 2) :
    dispatchM w (s.entryOf i (s.capturedBy w)) (s.atHead i (s.capturedBy w) 8) =
      .ok (s.context i w false) (s.matrixDispatched i w) := by
  have noPop : ¬ w.lqv = 1#1 := by rw [plain]; decide
  have vl : s.vlOf w = s.hart.vl := if_neg noPop
  have head : setMqHead (s.context i w false).e (s.atHead i (s.capturedBy w) 8) = .ok () (s.matrixDispatched i w) := by
    have queue : (s.atHead i (s.capturedBy w) 8).hart.mq = [s.entryOf i (s.capturedBy w)] := if_pos hs
    unfold setMqHead
    rw [modH_apply, queue]
    rfl
  have ready : (s.context i w false).e =
      { s.entryOf i (s.capturedBy w) with ready := true, cap := { (s.capturedBy w) with vl := s.hart.vl } } := by
    unfold State.context
    simp only [vl]
    rfl
  unfold dispatchM
  refine (M.bind_ok (roundingMode_atHead i d)).trans ?_
  rw [if_neg (show ¬ (s.entryOf i (s.capturedBy w)).ready = true from Bool.false_ne_true), if_neg noPop]
  refine (M.bind_ok (a := (s.context i w false).e) (t := s.matrixDispatched i w) ?_).trans rfl
  rw [ready] at head ⊢
  exact (M.bind_ok (a := s.hart.vl) (t := s.atHead i (s.capturedBy w) 8) rfl).trans ((M.bind_ok head).trans rfl)

theorem takeGroup_held {patient : Bool} {p : Party} {h other : Word} {sideB : Bool} {q : Nat} {g : OperandGroup} {s : State}
    (there : (if sideB then s.hart.groupB else s.hart.groupA) = some g) (same : g.handle = h) :
    takeGroup patient p h other sideB q s = .ok g s := by
  unfold takeGroup
  rw [M.bind_ok (getH_apply s)]
  simp only [there, if_pos same]
  rfl

/-- The bytes of a held operand group. -/
def State.groupValue (s : State) (g : OperandGroup) : Nat :=
  g.pas.foldr (fun a acc => s.mem.read a 512 + 2 ^ 4096 * acc) 0

theorem groupBits_held {g : OperandGroup} {need : Nat} {s : State} (enough : need ≤ 512 * g.pas.length) :
    groupBits g need s = .ok (s.groupValue g) s := by
  unfold groupBits
  rw [M.bind_ok (M.get_apply s)]
  simp only [if_pos enough]
  rfl

theorem operandGet_dense {o : Operand} (dense : o.f.isQ = false) (n : Nat) :
    o.get n = some (bitsAt o.bits (n * o.f.width) o.f.width) := by
  unfold Operand.get
  rw [if_neg (by rw [dense]; decide)]

theorem groupPoisoned_none {s : State} (clean : s.poison = []) (g : OperandGroup) (lo n : Nat) :
    groupPoisoned s g lo n = false := by
  unfold groupPoisoned
  rw [List.any_eq_false]
  intro k _
  split
  · simp [State.poisoned, clean]
  · decide

theorem requireV_ok {e : QEntry} {b : Bool} (h : b = true) (s : State) : requireV e b s = .ok () s := by
  rw [requireV_true h]
  rfl

theorem needTile_ok {n : Nat} {x : Tile} {s : State} (h : s.hart.tile n = some x) : needTile n s = .ok x s := by
  unfold needTile
  rw [M.bind_ok (getH_apply s)]
  simp only [h]
  rfl

/-- A palette whose formats of fd and fc are not coded ones and whose scales apply (R44, R46, R49). -/
theorem needPal_ok {e : QEntry} {b : Bool} {f : Fmt} (defined : palDefined e.cap.pal = true)
    (fd : palFd e.cap.pal ∉ [0x0F, 0x10]) (fc : fmtOf (palFc e.cap.pal) = some f) (dense : f.isQ = false) (hb : b = true)
    (s : State) :
    needPal e b s = .ok () s := by
  have plain : ∀ n, n = palFc e.cap.pal → (n == 0x0F || n == 0x10) = false := by
    rintro n rfl
    rw [Bool.or_eq_false_iff, beq_eq_false_iff_ne, beq_eq_false_iff_ne]
    constructor <;> intro code <;> rw [code] at fc <;> cases fc <;> cases dense
  unfold needPal
  refine requireV_ok ?_ s
  simp only [List.mem_cons, List.not_mem_nil, or_false, not_or] at fd
  simp [defined, fd, plain _ rfl, hb]

/-- The kept K positions of an MMAC (R302). -/
def State.keptK (k : State) (w : WWord) (row : MacRow) : List Nat :=
  (List.range row.kd).filter fun n => (k.hart.rp (w.vs3.toNat % 16) &&& lowMask row.kd).getLsbD n

/-- What the run of an MMAC asks of the state that dispatch leaves and of its entry: the palette, the tile, the groups, and a
row of R297. -/
structure mmacReady (k : State) (e : QEntry) (w : WWord) (x : Tile) (fa fb : Fmt) (row : MacRow) (ga gb : OperandGroup) :
    Prop where
  tile : k.hart.tile (w.vd.toNat % 8) = some x
  formatA : fmtOf (palFa e.cap.pal) = some fa
  formatB : fmtOf (palFb e.cap.pal) = some fb
  formatC : fmtOf (palFc e.cap.pal) = some x.mode.fmt
  formatD : palFd e.cap.pal ∉ [0x0F, 0x10]
  defined : palDefined e.cap.pal = true
  scaleA : scaleOk (palSa e.cap.pal) fa = true
  scaleB : scaleOk (palSb e.cap.pal) fb = true
  scaleD : palSd e.cap.pal = 0
  macRow : macRow x.mode fa fb = some row
  denseA : fa.isQ = false
  denseB : fb.isQ = false
  compressed : w.aux9.getLsbD 3 = true → row.kc = true ∧ (k.keptK w row).length ≤ row.kd / 2
  groupA : k.hart.groupA = some ga
  handleA : ga.handle = e.cap.x1
  groupB : k.hart.groupB = some gb
  handleB : gb.handle = e.cap.x2
  enoughA : (if w.aux9.getLsbD 3 then row.a / 2 else row.a) ≤ 512 * ga.pas.length
  enoughB : (if w.aux9.getLsbD 3 then row.b / 2 else row.b) ≤ 512 * gb.pas.length
  clean : k.poison = []
  lines : openTo k.party k
  locA : w.aux9.getLsbD 0 = true → ga.handle.extractLsb' 56 4 = 1#4
  locB : w.aux9.getLsbD 1 = true → gb.handle.extractLsb' 56 4 = 1#4

/-- The update that MMAC makes of element (i, j). -/
def State.mmacUpdate (k : State) (pal : Word) (w : WWord) (mode : TileMode) (fa fb : Fmt) (row : MacRow)
    (ga gb : OperandGroup) (i j : Nat) (x : Acc) : Acc :=
  let rank := fun n => if w.aux9.getLsbD 3 then ((k.keptK w row).filter (· < n)).length else n
  let depth := if w.aux9.getLsbD 3 then row.kd / 2 else row.kd
  updateElem pal mode row (w.sat == 1#1) (k.hart.rp (w.vs3.toNat % 16) &&& lowMask row.kd)
    (fun n => bitsAt (k.groupValue ga) ((i * depth + rank n) * fa.width) fa.width)
    (fun n => bitsAt (k.groupValue gb) ((rank n * row.cols + j) * fb.width) fb.width) fa fb x

/-- The tile and the flags that MMAC makes. -/
def State.mmacTile (k : State) (c : VCtx) (pal : Word) (w : WWord) (x : Tile) (fa fb : Fmt) (row : MacRow)
    (ga gb : OperandGroup) : Tile × Flags :=
  updateTile x ((activeRows c).flatMap fun i => (activeCols k.hart w row.cols).map fun j => (i, j))
    (k.mmacUpdate pal w x.mode fa fb row ga gb)

/-- The state after the update of the tile. -/
def State.mmacUpdated (k : State) (w : WWord) (x : Tile) (u : Tile × Flags) : State :=
  let y := if w.aux9.getLsbD 2 then u.1 else { u.1 with chk := false, checks := x.checks }
  let h : Hart := { k.hart with vfflags := k.hart.vfflags ||| u.2 }
  { k with hart := h.setTile (w.vd.toNat % 8) (some y) }

theorem openTo.mmacUpdated {p : Party} {k : State} (o : openTo p k) (w : WWord) (x : Tile) (u : Tile × Flags) :
    openTo p (k.mmacUpdated w x u) := by
  unfold State.mmacUpdated Hart.setTile
  dsimp only
  split <;> exact o.withHart o.tx rfl (fun _ => rfl) rfl

theorem find_poisoned_none {s : State} (clean : s.poison = []) (g : OperandGroup) (o : Operand) (l : List Nat) :
    l.find? (fun n => (o.ranges n).any fun r => groupPoisoned s g r.1 r.2) = none := by
  rw [List.find?_eq_none]
  intro n _
  simp [groupPoisoned_none clean]

theorem find_never {α : Type} (l : List α) : l.find? (fun _ => false) = none := by
  simp

theorem runMmac_ok {s k : State} {e : QEntry} {c : VCtx} {w : WWord} {x : Tile} {fa fb : Fmt} {row : MacRow}
    {ga gb : OperandGroup} (dispatched : dispatchM w e s = .ok c k) (pal : c.pal = e.cap.pal)
    (r : mmacReady k e w x fa fb row ga gb) :
    ∃ t, runMmac w e s = .ok () t ∧ letGo (k.mmacUpdated w x (k.mmacTile c e.cap.pal w x fa fb row ga gb)) t
      (w.aux9.getLsbD 0) (w.aux9.getLsbD 1) := by
  have code : (x.mode.fmt == x.mode.fmt && (!w.aux9.getLsbD 3 || row.kc) && palSd e.cap.pal == 0) = true := by
    rw [r.scaleD]
    cases h : w.aux9.getLsbD 3 with
    | false => simp
    | true => simp [(r.compressed h).1]
  have short : (!w.aux9.getLsbD 3 || decide ((k.keptK w row).length ≤ row.kd / 2)) = true := by
    cases h : w.aux9.getLsbD 3 with
    | false => simp
    | true => simp [(r.compressed h).2]
  have taken : (do
      let ga ← takeGroup true k.party e.cap.x1 e.cap.x2 false ((if w.aux9.getLsbD 3 then row.a / 2 else row.a) / 512)
      let gb ← takeGroup true k.party e.cap.x2 e.cap.x1 true ((if w.aux9.getLsbD 3 then row.b / 2 else row.b) / 512)
      return (ga, gb) : M (OperandGroup × OperandGroup)) k = .ok (ga, gb) k :=
    (M.bind_ok (takeGroup_held (sideB := false) r.groupA r.handleA)).trans
      (M.bind_ok (takeGroup_held (sideB := true) r.groupB r.handleB))
  unfold runMmac runMmacBy
  rw [M.bind_ok dispatched, M.bind_ok (getH_apply k)]
  simp only [pal, r.formatA, r.formatB, r.formatC]
  rw [M.bind_ok (needPal_ok r.defined r.formatD r.formatC (by cases x.mode <;> rfl) (by rw [r.scaleA, r.scaleB]; rfl) k)]
  rw [M.bind_ok (needTile_ok (n := tileNo w.vd) r.tile)]
  simp only [r.macRow]
  rw [State.keptK] at short
  rw [M.bind_ok (requireV_ok code k), M.bind_ok (requireV_ok short k), M.bind_ok (show ownParty k = .ok k.party k from rfl),
    M.bind_ok (atomically_ok taken), M.bind_ok (groupBits_held r.enoughA), M.bind_ok (groupBits_held r.enoughB),
    M.bind_ok (M.get_apply k)]
  simp only [find_poisoned_none r.clean, operandGet_dense (o := ⟨fa, _, _⟩) r.denseA,
    operandGet_dense (o := ⟨fb, _, _⟩) r.denseB, Option.isNone_some, find_never, Option.isSome_none, Option.getD_some,
    Bool.false_and, Bool.or_self, Bool.false_eq_true, if_false, BitVec.or_zero, ite_self]
  have written := r.lines.mmacUpdated w x (k.mmacTile c e.cap.pal w x fa fb row ga gb)
  obtain ⟨t, ran, groups⟩ := releaseGroups_ok r.locA r.locB written
  refine ⟨t, atomically_ok ?_, groups⟩
  exact (M.bind_ok (raise_apply _ k)).trans ((M.bind_ok (modH_apply _ _)).trans ran)

theorem macRow_cols {m : TileMode} {fa fb : Fmt} {row : MacRow} (h : macRow m fa fb = some row) : row.cols = m.cols := by
  unfold macRow at h
  cases m <;> dsimp only at h <;> split_ifs at h <;> cases h <;> rfl

theorem mem_mmacActs {k : State} {c : VCtx} {w : WWord} {row : MacRow} {i j : Nat} :
    (i, j) ∈ ((activeRows c).flatMap fun i => (activeCols k.hart w row.cols).map fun j => (i, j)) ↔
      (decide (i < 32) && c.mask.getLsbD i && decide (j < row.cols) &&
        (w.em == 0#1 || (k.hart.rp w.pe.toNat).getLsbD j)) = true := by
  rw [mem_positions]
  unfold activeRows activeCols VCtx.active
  simp only [List.mem_filter, List.mem_range, Bool.and_eq_true, decide_eq_true_eq]
  tauto

theorem mmacUpdate_agree (k : State) (pal : Word) (w : WWord) (m : TileMode) (fa fb : Fmt) (row : MacRow)
    (ga gb : OperandGroup) (i j : Nat) (x y : Acc) (h : x.agree y) :
    (k.mmacUpdate pal w m fa fb row ga gb i j x).agree (k.mmacUpdate pal w m fa fb row ga gb i j y) := by
  unfold State.mmacUpdate
  exact updateElem_agree _ _ _ _ _ _ _ _ _ h

theorem mmacTile_updated {k : State} {c : VCtx} {pal : Word} {w : WWord} {x : Tile} {fa fb : Fmt} {row : MacRow}
    {ga gb : OperandGroup} (cols : row.cols = x.mode.cols) :
    tileUpdated (k.mmacUpdate pal w x.mode fa fb row ga gb) x
      ((activeRows c).flatMap fun i => (activeCols k.hart w row.cols).map fun j => (i, j))
      (k.mmacTile c pal w x fa fb row ga gb) := by
  unfold State.mmacTile
  refine updateTile_updated (mmacUpdate_agree k pal w x.mode fa fb row ga gb) x _
    (nodup_positions (List.nodup_range.filter _) (List.nodup_range.filter _)) fun i j h => ?_
  rw [mem_positions] at h
  unfold activeRows activeCols at h
  simp only [List.mem_filter, List.mem_range] at h
  exact ⟨h.1.1, cols ▸ h.2.1⟩

/-- What an MMAC leaves of the hart that its dispatch left, in the state t after the releases. -/
structure mmacLeaves (k t : State) (w : WWord) (x : Tile) (u : Tile × Flags) : Prop where
  flags : t.hart.vfflags = k.hart.vfflags ||| u.2
  otherTiles : ∀ m, m ≠ w.vd.toNat % 8 → t.hart.tile m = k.hart.tile m
  tile : ∃ y, t.hart.tile (w.vd.toNat % 8) = some y ∧ y.mode = u.1.mode ∧ ∀ i j, y.elem i j = u.1.elem i j
  groupA : t.hart.groupA = if w.aux9.getLsbD 0 then none else k.hart.groupA
  groupB : t.hart.groupB = if w.aux9.getLsbD 1 then none else k.hart.groupB
  queues : t.hart.vq = k.hart.vq ∧ t.hart.mq = k.hart.mq ∧ t.hart.faults = k.hart.faults
  registers : t.hart.x = k.hart.x ∧ t.hart.v = k.hart.v ∧ t.hart.p = k.hart.p ∧ t.hart.pc = k.hart.pc
  mem : w.aux9.getLsbD 0 = false → w.aux9.getLsbD 1 = false → t.mem = k.mem

theorem mmacLeaves_of {k t : State} {w : WWord} {x : Tile} {u : Tile × Flags}
    (l : letGo (k.mmacUpdated w x u) t (w.aux9.getLsbD 0) (w.aux9.getLsbD 1)) : mmacLeaves k t w x u := by
  obtain ⟨hart, mem⟩ := l
  have tiles : ∀ m, t.hart.tile m = (k.mmacUpdated w x u).hart.tile m := fun m => by rw [hart]; rfl
  refine ⟨?_, fun m other => ?_, ?_, ?_, ?_, ⟨?_, ?_, ?_⟩, ⟨?_, ?_, ?_, ?_⟩, mem⟩
  · rw [hart]; exact Hart.setTile_vfflags _ _ _
  · exact (tiles m).trans (Hart.tile_setTile_other _ _ m _ other)
  · refine ⟨_, (tiles _).trans (Hart.tile_setTile_same _ _ _ (Nat.mod_lt _ (by decide))), ?_, fun i j => ?_⟩ <;> split <;> rfl
  · rw [hart]; exact congrArg (fun g => if w.aux9.getLsbD 0 then none else g) (Hart.setTile_groupA _ _ _)
  · rw [hart]; exact congrArg (fun g => if w.aux9.getLsbD 1 then none else g) (Hart.setTile_groupB _ _ _)
  · rw [hart]; exact Hart.setTile_vq _ _ _
  · rw [hart]; exact Hart.setTile_mq _ _ _
  · rw [hart]; exact Hart.setTile_faults _ _ _
  · rw [hart]; exact Hart.setTile_x _ _ _
  · rw [hart]; exact Hart.setTile_v _ _ _
  · rw [hart]; exact Hart.setTile_p _ _ _
  · rw [hart]; exact Hart.setTile_pc _ _ _

theorem engineOp_ok {m : M Unit} {s t : State} (tx : s.hart.tx = none) (ran : m s = .ok () t) : engineOp m s = .ok () t := by
  unfold engineOp
  rw [M.bind_ok (getH_apply s), tx]
  exact ran

/-- Settles O31: the groups that the engine holds are taken as they are, each active element takes its update once from the
tile's own element, and of the hart the releases change the groups and the reservation alone. -/
theorem matrixMultiply : Obligations.MatrixMultiply := by
  unfold Obligations.MatrixMultiply
  intro s w x fa fb row ga gb p c kc km kept d noLq tile hfa hfb hfc defined fd sa sb sd hrow denseA denseB compressed groupA
    handleA groupB handleB _ clean lines locA locB bytes enoughA enoughB held rank depth a b on new
  obtain ⟨⟨-, -, noFault, -, noTx, -⟩, -⟩ := id d
  have free : openTo s.party s := ⟨noTx, lines⟩
  obtain ⟨t, ran, groups⟩ := runMmac_ok (dispatchM_ok d noLq (show streamOf (.mmac w) = 2 from rfl)) rfl
    (r := { tile := tile, formatA := hfa, formatB := hfb, formatC := hfc, formatD := fd, defined := defined, scaleA := sa,
            scaleB := sb, scaleD := sd, macRow := hrow, denseA := denseA, denseB := denseB, compressed := compressed,
            groupA := groupA, handleA := handleA, groupB := groupB, handleB := handleB, enoughA := enoughA,
            enoughB := enoughB, clean := clean, lines := free.withHart noTx rfl (fun _ => rfl) rfl,
            locA := locA, locB := locB })
  have updated := mmacTile_updated (k := s.matrixDispatched (.mmac w) w) (c := s.context (.mmac w) w false)
    (pal := (s.entryOf (.mmac w) (s.capturedBy w)).cap.pal) (w := w) (fa := fa) (fb := fb) (ga := ga) (gb := gb)
    (macRow_cols hrow)
  generalize (s.matrixDispatched (.mmac w) w).mmacTile _ _ w x fa fb row ga gb = u at updated groups
  have elemsNow : ∀ i j, u.1.elem i j = if on i j = true then (new i j).acc % 2 ^ x.mode.bits else x.elem i j :=
    fun i j => (updated.elems i j).trans (if_congr mem_mmacActs rfl rfl)
  have flagsNow : ∀ n, u.2.getLsbD n = true ↔ ∃ i j, on i j = true ∧ (new i j).flags.getLsbD n = true :=
    fun n => (updated.flags n).trans (exists₂_congr fun i j => and_congr mem_mmacActs Iff.rfl)
  obtain ⟨flags, otherTiles, ⟨y, tileNow, mode, elems⟩, gA, gB, ⟨vq, mq, faults⟩, ⟨xs, vs, ps, pc⟩, mem⟩ :=
    mmacLeaves_of groups
  have outside : engineOp (runMmac w (s.entryOf (.mmac w) (s.capturedBy w))) (s.atHead (.mmac w) (s.capturedBy w) 8) =
      .ok () t := engineOp_ok noTx ran
  refine ⟨_, issue_matrix d.1 rfl outside vq (by rw [mq]; rfl) (faults.trans noFault), fun n => ?_,
    ⟨y.chk, otherTiles, y, tileNow, mode.trans updated.mode, rfl, fun i j _ _ => ?_⟩, ?_, ?_, rfl, ?_, xs, vs, ps, pc, mem⟩
  · refine (Bool.eq_iff_iff.mp (congrArg (fun f : Flags => f.getLsbD n) flags)).trans ?_
    rw [BitVec.getLsbD_or, Bool.or_eq_true, flagsNow]
    rfl
  · rw [elems, elemsNow]
    dsimp only
    split
    · rfl
    · exact (Nat.mod_eq_of_lt (elem_lt _ _ _)).symm
  · rw [gA]; exact congrArg (fun g => if w.aux9.getLsbD 0 then none else g) groupA
  · rw [gB]; exact congrArg (fun g => if w.aux9.getLsbD 1 then none else g) groupB
  · exact faults.trans noFault

end Sys2Proof.Machine

namespace Sys2Proof

/-! ## Bytes and numbers -/

theorem length_natToBytes (n v : Nat) : (natToBytes n v).length = n := by
  induction n generalizing v with
  | zero => rfl
  | succ n ih => exact congrArg (· + 1) (ih (v / 256))

theorem bytesToNat_natToBytes (n v : Nat) : bytesToNat (natToBytes n v) = v % 256 ^ n := by
  induction n generalizing v with
  | zero => exact (Nat.mod_one v).symm
  | succ n ih =>
    rw [natToBytes, bytesToNat, ih, BitVec.toNat_ofNat, show 256 ^ (n + 1) = 256 * 256 ^ n from Nat.pow_succ']
    exact Nat.mod_mul.symm

theorem natToBytes_bytesToNat (bs : List Byte) : natToBytes bs.length (bytesToNat bs) = bs := by
  induction bs with
  | nil => rfl
  | cons b bs ih =>
    have low : BitVec.ofNat 8 (b.toNat + 256 * bytesToNat bs) = b := by
      apply BitVec.eq_of_toNat_eq
      rw [BitVec.toNat_ofNat]
      omega
    have high : (b.toNat + 256 * bytesToNat bs) / 256 = bytesToNat bs := by omega
    rw [List.length_cons, bytesToNat, natToBytes, low, high, ih]

/-- The first bytes hold the low part of the number that all of them hold. -/
theorem bytesToNat_take (n : Nat) (bs : List Byte) : bytesToNat (bs.take n) = bytesToNat bs % 256 ^ n := by
  induction n generalizing bs with
  | zero => exact (Nat.mod_one _).symm
  | succ n ih =>
    cases bs with
    | nil => exact (Nat.zero_mod _).symm
    | cons b bs =>
      have low : (b.toNat + 256 * bytesToNat bs) % 256 = b.toNat := by omega
      have high : (b.toNat + 256 * bytesToNat bs) / 256 = bytesToNat bs := by omega
      rw [List.take_succ_cons, bytesToNat, bytesToNat, ih, Nat.pow_succ', Nat.mod_mul, low, high]

/-! ## Words and their fields (R63, R70) -/

theorem Fields.of_word (x : Fields) : Fields.of x.word = x := by
  obtain ⟨f7, b, a, f3, d, opc⟩ := x
  simp only [Fields.of, Fields.word, Fields.mk.injEq]
  refine ⟨?_, ?_, ?_, ?_, ?_, ?_⟩ <;> repeat rw [BitVec.extractLsb'_append_eq_of_le (by decide)]
  · exact BitVec.extractLsb'_eq_self
  all_goals exact (BitVec.extractLsb'_append_eq_of_add_le (by decide)).trans BitVec.extractLsb'_eq_self

theorem Fields.word_of (w : BitVec 32) : (Fields.of w).word = w := by
  simp only [Fields.of, Fields.word]
  repeat rw [BitVec.extractLsb'_append_extractLsb'_eq_extractLsb' (by decide)]
  exact BitVec.extractLsb'_eq_self

theorem WFields.of_word (x : WFields) : WFields.of x.word = x := by
  obtain ⟨grp, op, aux9, sat, rm, lqv, em, pe, pg, xp, vs3, vs2, vs1, vd⟩ := x
  simp only [WFields.of, WFields.word, WFields.mk.injEq, WWord.mk.injEq]
  refine ⟨?_, ?_, ?_, ?_, ?_, ?_, ?_, ?_, ?_, ?_, ?_, ?_, ?_, ?_⟩ <;>
    repeat rw [BitVec.extractLsb'_append_eq_of_le (by decide)]
  case refine_3 => exact BitVec.extractLsb'_eq_self
  all_goals exact (BitVec.extractLsb'_append_eq_of_add_le (by decide)).trans BitVec.extractLsb'_eq_self

theorem WFields.word_of (v : BitVec 64) (h : v.extractLsb' 0 7 = 0x3F#7) : (WFields.of v).word = v := by
  simp only [WFields.of, WFields.word, ← h]
  repeat rw [BitVec.extractLsb'_append_extractLsb'_eq_extractLsb' (by decide)]
  exact BitVec.extractLsb'_eq_self

/-! ## A vector of two parts, cut and joined -/

theorem cut_high (v w : Nat) (x : BitVec v) (y : BitVec w) : (x ++ y).extractLsb' w v = x := by
  rw [BitVec.extractLsb'_append_eq_of_le (Nat.le_refl w), Nat.sub_self, BitVec.extractLsb'_eq_self]

theorem cut_low (v w : Nat) (x : BitVec v) (y : BitVec w) : (x ++ y).extractLsb' 0 w = y := by
  rw [BitVec.extractLsb'_append_eq_of_add_le (Nat.zero_add w).le, BitVec.extractLsb'_eq_self]

theorem join_parts (v w : Nat) (x : BitVec (v + w)) : x.extractLsb' w v ++ x.extractLsb' 0 w = x :=
  BitVec.extractLsb'_append_extractLsb'

theorem join_high (v w : Nat) {x : BitVec (v + w)} {c : BitVec v} (h : x.extractLsb' w v = c) :
    c ++ x.extractLsb' 0 w = x := by rw [← h, join_parts]

theorem join_low (v w : Nat) {x : BitVec (v + w)} {c : BitVec w} (h : x.extractLsb' 0 w = c) :
    x.extractLsb' w v ++ c = x := by rw [← h, join_parts]

/-- The parts of a B layout's offset, imm[12], [11], [10:5] and [4:1]. -/
theorem offB_parts (p q : BitVec 1) (r : BitVec 6) (t : BitVec 4) :
    (p ++ q ++ r ++ t).extractLsb' 11 1 = p ∧ (p ++ q ++ r ++ t).extractLsb' 10 1 = q ∧
    (p ++ q ++ r ++ t).extractLsb' 4 6 = r ∧ (p ++ q ++ r ++ t).extractLsb' 0 4 = t := by
  refine ⟨?_, ?_, ?_, ?_⟩ <;> repeat rw [BitVec.extractLsb'_append_eq_of_le (by decide)]
  · exact BitVec.extractLsb'_eq_self
  all_goals exact (BitVec.extractLsb'_append_eq_of_add_le (by decide)).trans BitVec.extractLsb'_eq_self

/-- The parts of a J layout's offset, imm[20], [19:15], [14:12], [11], [10:5] and [4:1]. -/
theorem offJ_parts (p q : BitVec 1) (m : BitVec 5) (n : BitVec 3) (r : BitVec 6) (t : BitVec 4) :
    (p ++ (m ++ n) ++ q ++ r ++ t).extractLsb' 19 1 = p ∧ (p ++ (m ++ n) ++ q ++ r ++ t).extractLsb' 14 5 = m ∧
    (p ++ (m ++ n) ++ q ++ r ++ t).extractLsb' 11 3 = n ∧ (p ++ (m ++ n) ++ q ++ r ++ t).extractLsb' 10 1 = q ∧
    (p ++ (m ++ n) ++ q ++ r ++ t).extractLsb' 4 6 = r ∧ (p ++ (m ++ n) ++ q ++ r ++ t).extractLsb' 0 4 = t := by
  refine ⟨?_, ?_, ?_, ?_, ?_, ?_⟩ <;> repeat rw [BitVec.extractLsb'_append_eq_of_le (by decide)]
  · exact BitVec.extractLsb'_eq_self
  · exact (BitVec.extractLsb'_append_eq_of_add_le (by decide)).trans (cut_high 5 3 m n)
  · exact (BitVec.extractLsb'_append_eq_of_add_le (by decide)).trans (cut_low 5 3 m n)
  all_goals exact (BitVec.extractLsb'_append_eq_of_add_le (by decide)).trans BitVec.extractLsb'_eq_self

/-! ## The layouts of R63: the immediate of a word's fields gives back the fields it was cut into -/

section
variable (f7 : BitVec 7) (b b' a a' d d' : Reg) (f3 f3' : BitVec 3) (opc opc' : BitVec 7)

theorem Fields.i_immI : Fields.i opc f3 d a (Fields.immI ⟨f7, b, a', f3', d', opc'⟩) = ⟨f7, b, a, f3, d, opc⟩ := by
  simp [Fields.i, Fields.immI, cut_high 7 5, cut_low 7 5]

theorem Fields.s_immS : Fields.s opc f3 a b (Fields.immS ⟨f7, b', a', f3', d, opc'⟩) = ⟨f7, b, a, f3, d, opc⟩ := by
  simp [Fields.s, Fields.immS, cut_high 7 5, cut_low 7 5]

theorem Fields.br_offB : Fields.br opc f3 a b (Fields.offB ⟨f7, b', a', f3', d, opc'⟩) = ⟨f7, b, a, f3, d, opc⟩ := by
  obtain ⟨hp, hq, hr, ht⟩ := offB_parts (f7.extractLsb' 6 1) (d.extractLsb' 0 1) (f7.extractLsb' 0 6) (d.extractLsb' 1 4)
  simp only [Fields.br, Fields.offB, hp, hq, hr, ht, join_parts 1 6, join_parts 4 1]

theorem Fields.u_immU : Fields.u opc d (Fields.immU ⟨f7, b, a, f3, d', opc'⟩) = ⟨f7, b, a, f3, d, opc⟩ := by
  simp only [Fields.u, Fields.immU, Fields.mk.injEq, and_true]
  refine ⟨?_, ?_, ?_, ?_⟩ <;> repeat rw [BitVec.extractLsb'_append_eq_of_le (by decide)]
  · exact BitVec.extractLsb'_eq_self
  all_goals exact (BitVec.extractLsb'_append_eq_of_add_le (by decide)).trans BitVec.extractLsb'_eq_self

theorem Fields.j_offJ : Fields.j opc d (Fields.offJ ⟨f7, b, a, f3, d', opc'⟩) = ⟨f7, b, a, f3, d, opc⟩ := by
  obtain ⟨hp, hm, hn, hq, hr, ht⟩ :=
    offJ_parts (f7.extractLsb' 6 1) (b.extractLsb' 0 1) a f3 (f7.extractLsb' 0 6) (b.extractLsb' 1 4)
  simp only [Fields.j, Fields.offJ, hp, hm, hn, hq, hr, ht, join_parts 1 6, join_parts 4 1]

theorem Fields.sh_parts (f6 : BitVec 6) (h : f7.extractLsb' 1 6 = f6) :
    Fields.sh opc f3 f6 d a (f7.extractLsb' 0 1 ++ b) = ⟨f7, b, a, f3, d, opc⟩ := by
  simp [Fields.sh, cut_high 1 5, cut_low 1 5, join_high 6 1 h]
end

theorem Fields.parts_of_imm {f7 : BitVec 7} {b : Reg} {c : BitVec 12} (h : f7 ++ b = c) :
    f7 = c.extractLsb' 5 7 ∧ b = c.extractLsb' 0 5 := by
  rw [← h]
  exact ⟨(cut_high 7 5 f7 b).symm, (cut_low 7 5 f7 b).symm⟩

/-- funct5, aq and rl of an atomic make up its funct7. -/
theorem join_amo {f7 : BitVec 7} {c : BitVec 5} (h : f7.extractLsb' 2 5 = c) :
    c ++ f7.extractLsb' 1 1 ++ f7.extractLsb' 0 1 = f7 := by
  rw [← h]
  repeat rw [BitVec.extractLsb'_append_extractLsb'_eq_extractLsb' (by decide)]
  exact BitVec.extractLsb'_eq_self

/-- aq, rl, scope and width of AMOINCW make up its funct7. -/
theorem join_amoincw (f7 : BitVec 7) :
    f7.extractLsb' 6 1 ++ f7.extractLsb' 5 1 ++ f7.extractLsb' 2 3 ++ f7.extractLsb' 0 2 = f7 := by
  repeat rw [BitVec.extractLsb'_append_extractLsb'_eq_extractLsb' (by decide)]
  exact BitVec.extractLsb'_eq_self

/-! ## From the decoder's fields back (R65 to R68, R89)

Each branch of a decoder fixes the fields that it tests, and the fields that the instruction encodes to join back to the
others. -/

section
variable {f7 : BitVec 7} {b a d : Reg} {f3 : BitVec 3} {i : Instr}

theorem encodeFields_of_decodeBranch (h : decodeBranch ⟨f7, b, a, f3, d, 0x63#7⟩ = some i) :
    encodeFields i = some ⟨f7, b, a, f3, d, 0x63#7⟩ := by
  unfold decodeBranch at h
  dsimp only at h
  split at h <;> cases h <;> exact congrArg some (Fields.br_offB ..)

theorem encodeFields_of_decodeLoad (h : decodeLoad ⟨f7, b, a, f3, d, 0x03#7⟩ = some i) :
    encodeFields i = some ⟨f7, b, a, f3, d, 0x03#7⟩ := by
  unfold decodeLoad at h
  dsimp only at h
  split at h <;> cases h <;> exact congrArg some (Fields.i_immI ..)

theorem encodeFields_of_decodeStore (h : decodeStore ⟨f7, b, a, f3, d, 0x23#7⟩ = some i) :
    encodeFields i = some ⟨f7, b, a, f3, d, 0x23#7⟩ := by
  unfold decodeStore at h
  dsimp only at h
  split at h <;> cases h <;> exact congrArg some (Fields.s_immS ..)

theorem encodeFields_of_decodeOpImm (h : decodeOpImm ⟨f7, b, a, f3, d, 0x13#7⟩ = some i) :
    encodeFields i = some ⟨f7, b, a, f3, d, 0x13#7⟩ := by
  unfold decodeOpImm at h
  dsimp only at h
  repeat' split at h
  all_goals cases h <;> simp_all [encodeFields, Fields.i_immI, Fields.sh_parts, Fields.r]
  all_goals bv_omega

theorem encodeFields_of_decodeOpImm32 (h : decodeOpImm32 ⟨f7, b, a, f3, d, 0x1B#7⟩ = some i) :
    encodeFields i = some ⟨f7, b, a, f3, d, 0x1B#7⟩ := by
  unfold decodeOpImm32 at h
  dsimp only at h
  repeat' split at h
  all_goals cases h <;> simp_all [encodeFields, Fields.i_immI, Fields.sh_parts, Fields.r]

theorem encodeFields_of_decodeOp (h : decodeOp ⟨f7, b, a, f3, d, 0x33#7⟩ = some i) :
    encodeFields i = some ⟨f7, b, a, f3, d, 0x33#7⟩ := by
  unfold decodeOp at h
  dsimp only at h
  repeat' split at h
  all_goals cases h <;> simp_all [encodeFields, Fields.r]
  all_goals bv_omega

theorem encodeFields_of_decodeOp32 (h : decodeOp32 ⟨f7, b, a, f3, d, 0x3B#7⟩ = some i) :
    encodeFields i = some ⟨f7, b, a, f3, d, 0x3B#7⟩ := by
  unfold decodeOp32 at h
  dsimp only at h
  repeat' split at h
  all_goals cases h <;> simp_all [encodeFields, Fields.r]

theorem encodeFields_of_decodeMiscMem (h : decodeMiscMem ⟨f7, b, a, f3, d, 0x0F#7⟩ = some i) :
    encodeFields i = some ⟨f7, b, a, f3, d, 0x0F#7⟩ := by
  unfold decodeMiscMem at h
  dsimp only at h
  split at h
  case h_1 =>
    split at h
    case isTrue c =>
      obtain ⟨imm, rfl, rfl⟩ := c
      obtain ⟨rfl, rfl⟩ := Fields.parts_of_imm imm
      cases h
      rfl
    case isFalse =>
      cases h
      simp [encodeFields, Fields.r, cut_high 3 1, cut_low 3 1, join_parts 4 3, join_parts 1 4]
  case h_2 => cases h; exact congrArg some (Fields.i_immI ..)
  case h_3 =>
    split at h
    case isTrue c =>
      obtain rfl := c
      split at h <;> rename_i imm <;> cases h
      all_goals
        obtain ⟨rfl, rfl⟩ := Fields.parts_of_imm imm
        rfl
    case isFalse => cases h
  case h_4 => cases h

theorem encodeFields_of_decodeAmo (h : decodeAmo ⟨f7, b, a, f3, d, 0x2F#7⟩ = some i) :
    encodeFields i = some ⟨f7, b, a, f3, d, 0x2F#7⟩ := by
  unfold decodeAmo at h
  dsimp only at h
  split at h
  case isFalse => cases h
  case isTrue =>
  repeat' split at h
  all_goals cases h <;> simp_all [encodeFields, Fields.r, join_high 2 1, join_amo]

theorem encodeFields_of_decodeSystem (h : decodeSystem ⟨f7, b, a, f3, d, 0x73#7⟩ = some i) :
    encodeFields i = some ⟨f7, b, a, f3, d, 0x73#7⟩ := by
  unfold decodeSystem at h
  dsimp only at h
  repeat' split at h
  all_goals cases h <;> simp_all [encodeFields, Fields.r, Fields.i_immI]
  all_goals exact (Fields.parts_of_imm ‹_›).imp Eq.symm Eq.symm

theorem encodeFields_of_decodeCustom0 (h : decodeCustom0 ⟨f7, b, a, f3, d, 0x0B#7⟩ = some i) :
    encodeFields i = some ⟨f7, b, a, f3, d, 0x0B#7⟩ := by
  unfold decodeCustom0 at h
  dsimp only at h
  repeat' split at h
  all_goals
    cases h <;> simp_all [encodeFields, Fields.r, Fields.br_offB, join_high 3 2, join_low 2 5, join_high 1 4]

theorem encodeFields_of_decodeCustom1 (h : decodeCustom1 ⟨f7, b, a, f3, d, 0x2B#7⟩ = some i) :
    encodeFields i = some ⟨f7, b, a, f3, d, 0x2B#7⟩ := by
  unfold decodeCustom1 at h
  dsimp only at h
  repeat' split at h
  all_goals
    cases h <;> simp_all [encodeFields, Fields.r, join_high 4 3, join_high 4 1]

theorem encodeFields_of_decodeCustom2 (h : decodeCustom2 ⟨f7, b, a, f3, d, 0x5B#7⟩ = some i) :
    encodeFields i = some ⟨f7, b, a, f3, d, 0x5B#7⟩ := by
  unfold decodeCustom2 at h
  dsimp only at h
  repeat' split at h
  all_goals
    cases h <;> simp_all [encodeFields, Fields.r, Fields.i_immI, join_high 1 4, join_high 2 3, join_parts 5 2, join_amoincw]

theorem encodeFields_of_decodeCustom3 (h : decodeCustom3 ⟨f7, b, a, f3, d, 0x7B#7⟩ = some i) :
    encodeFields i = some ⟨f7, b, a, f3, d, 0x7B#7⟩ := by
  unfold decodeCustom3 at h
  dsimp only at h
  repeat' split at h
  all_goals
    cases h <;> simp_all [encodeFields, Fields.r, join_high 1 4, join_high 2 3, join_high 3 2]

end

theorem encodeFields_of_decodeFields {x : Fields} {i : Instr} (h : decodeFields x = some i) : encodeFields i = some x := by
  obtain ⟨f7, b, a, f3, d, opc⟩ := x
  unfold decodeFields at h
  dsimp only at h
  split at h
  case h_1 | h_2 => cases h; exact congrArg some (Fields.u_immU ..)
  case h_3 => cases h; exact congrArg some (Fields.j_offJ ..)
  case h_4 =>
    split at h
    case isTrue f0 => cases f0; cases h; exact congrArg some (Fields.i_immI ..)
    case isFalse => cases h
  · exact encodeFields_of_decodeBranch h
  · exact encodeFields_of_decodeLoad h
  · exact encodeFields_of_decodeStore h
  · exact encodeFields_of_decodeOpImm h
  · exact encodeFields_of_decodeOpImm32 h
  · exact encodeFields_of_decodeOp h
  · exact encodeFields_of_decodeOp32 h
  · exact encodeFields_of_decodeMiscMem h
  · exact encodeFields_of_decodeAmo h
  · exact encodeFields_of_decodeSystem h
  · exact encodeFields_of_decodeCustom0 h
  · exact encodeFields_of_decodeCustom1 h
  · exact encodeFields_of_decodeCustom2 h
  · exact encodeFields_of_decodeCustom3 h
  · cases h

/-- Every opcode of R63 names a 32-bit instruction (R61). -/
theorem opcode_of_decodeFields {x : Fields} {i : Instr} (h : decodeFields x = some i) :
    x.opc.extractLsb' 0 2 = 3#2 ∧ x.opc.extractLsb' 2 3 ≠ 7#3 := by
  unfold decodeFields at h
  split at h <;> rename_i o
  case h_19 => cases h
  all_goals rw [o]; decide

/-! ## From an instruction's fields (R65 to R68, R89) -/

theorem join_offB (off : BitVec 12) :
    off.extractLsb' 11 1 ++ off.extractLsb' 10 1 ++ off.extractLsb' 4 6 ++ off.extractLsb' 0 4 = off := by
  repeat rw [BitVec.extractLsb'_append_extractLsb'_eq_extractLsb' (by decide)]
  exact BitVec.extractLsb'_eq_self

theorem join_offJ (off : BitVec 20) :
    off.extractLsb' 19 1 ++ (off.extractLsb' 14 5 ++ off.extractLsb' 11 3) ++ off.extractLsb' 10 1 ++ off.extractLsb' 4 6 ++
      off.extractLsb' 0 4 = off := by
  repeat rw [BitVec.extractLsb'_append_extractLsb'_eq_extractLsb' (by decide)]
  exact BitVec.extractLsb'_eq_self

theorem join_immU (imm : BitVec 20) :
    imm.extractLsb' 13 7 ++ imm.extractLsb' 8 5 ++ imm.extractLsb' 3 5 ++ imm.extractLsb' 0 3 = imm := by
  repeat rw [BitVec.extractLsb'_append_extractLsb'_eq_extractLsb' (by decide)]
  exact BitVec.extractLsb'_eq_self

/-- funct5, aq and rl are found again in the funct7 of an atomic. -/
theorem amo_parts (c : BitVec 5) (aq rl : BitVec 1) :
    (c ++ aq ++ rl).extractLsb' 2 5 = c ∧ (c ++ aq ++ rl).extractLsb' 1 1 = aq ∧
    (c ++ aq ++ rl).extractLsb' 0 1 = rl := by
  refine ⟨?_, ?_, cut_low 6 1 (c ++ aq) rl⟩ <;> repeat rw [BitVec.extractLsb'_append_eq_of_le (by decide)]
  · exact BitVec.extractLsb'_eq_self
  · exact cut_low 5 1 c aq

theorem amoincw_parts (aq rl : BitVec 1) (scope : BitVec 3) (width : BitVec 2) :
    (aq ++ rl ++ scope ++ width).extractLsb' 6 1 = aq ∧ (aq ++ rl ++ scope ++ width).extractLsb' 5 1 = rl ∧
    (aq ++ rl ++ scope ++ width).extractLsb' 2 3 = scope ∧ (aq ++ rl ++ scope ++ width).extractLsb' 0 2 = width := by
  refine ⟨?_, ?_, ?_, cut_low 5 2 (aq ++ rl ++ scope) width⟩ <;> repeat rw [BitVec.extractLsb'_append_eq_of_le (by decide)]
  · exact BitVec.extractLsb'_eq_self
  · exact cut_low 1 1 aq rl
  · exact cut_low 2 3 (aq ++ rl) scope

theorem decodeFields_of_encodeFields {i : Instr} {x : Fields} (h : encodeFields i = some x) (wf : i.wf = true) :
    decodeFields x = some i := by
  cases i with
  | lui rd imm | auipc rd imm =>
    cases h
    conv_rhs => rw [← join_immU imm]
    rfl
  | jal rd off =>
    cases h
    simpa [decodeFields, Fields.j, Fields.offJ, cut_high 1 6, cut_low 1 6, cut_high 4 1, cut_low 4 1] using join_offJ off
  | beq rs1 rs2 off | bne rs1 rs2 off | blt rs1 rs2 off | bge rs1 rs2 off | bltu rs1 rs2 off | bgeu rs1 rs2 off
  | vstrip rs1 rs2 off | bpany p off | bpall p off | bpnone p off =>
    cases h
    simp [decodeFields, decodeBranch, decodeCustom0, Fields.br, Fields.offB, cut_high 1 6, cut_low 1 6, cut_high 4 1,
      cut_low 4 1, join_offB, cut_high 1 4, cut_low 1 4]
  | jalr rd rs1 imm | lb rd rs1 imm | lh rd rs1 imm | lw rd rs1 imm | ld rd rs1 imm | lbu rd rs1 imm | lhu rd rs1 imm
  | lwu rd rs1 imm | sb rs1 rs2 imm | sh rs1 rs2 imm | sw rs1 rs2 imm | sd rs1 rs2 imm
  | addi rd rs1 imm | slti rd rs1 imm | sltiu rd rs1 imm | xori rd rs1 imm | ori rd rs1 imm | andi rd rs1 imm
  | addiw rd rs1 imm | fenceI imm rs1 rd | csrrw imm rd rs1 | csrrs imm rd rs1 | csrrc imm rd rs1 | csrrwi imm rd rs1
  | csrrsi imm rd rs1 | csrrci imm rd rs1 | tbegin rd imm | torelse imm =>
    cases h
    conv_rhs => rw [← join_parts 7 5 imm]
    rfl
  | slli rd rs1 shamt | srli rd rs1 shamt | srai rd rs1 shamt | rori rd rs1 shamt =>
    cases h
    simp [decodeFields, decodeOpImm, Fields.sh, cut_high 6 1, cut_low 6 1, join_parts 1 5]
  | slliUw rd rs1 shamt =>
    cases h
    have other : 2#6 ++ shamt.extractLsb' 5 1 ≠ 0#7 := fun e => by
      have top := cut_high 6 1 2#6 (shamt.extractLsb' 5 1)
      rw [e] at top
      exact absurd top (by decide)
    simp [decodeFields, decodeOpImm32, Fields.sh, other, cut_high 6 1, cut_low 6 1, join_parts 1 5]
  | clz rd rs1 | ctz rd rs1 | cpop rd rs1 | sextB rd rs1 | sextH rd rs1 | orcB rd rs1 | rev8 rd rs1 =>
    cases h
    simp [decodeFields, decodeOpImm, Fields.r]
  | clzw rd rs1 | ctzw rd rs1 | cpopw rd rs1 =>
    cases h
    simp [decodeFields, decodeOpImm32, Fields.r]
  | cboInval rs1 | cboClean rs1 | cboFlush rs1 | cboZero rs1 =>
    cases h
    simp [decodeFields, decodeMiscMem, Fields.r, Fields.immI]
  | lr aq rl w rd rs1 | sc aq rl w rd rs1 rs2 | amoswap aq rl w rd rs1 rs2 | amoadd aq rl w rd rs1 rs2
  | amoxor aq rl w rd rs1 rs2 | amoand aq rl w rd rs1 rs2 | amoor aq rl w rd rs1 rs2 | amomin aq rl w rd rs1 rs2
  | amomax aq rl w rd rs1 rs2 | amominu aq rl w rd rs1 rs2 | amomaxu aq rl w rd rs1 rs2 =>
    cases h
    simp [decodeFields, decodeAmo, Fields.r, amo_parts, cut_high 2 1, cut_low 2 1]
  | fence fm pred succ rs1 rd =>
    cases h
    have notPause :
        ¬((fm ++ pred.extractLsb' 1 3) ++ (pred.extractLsb' 0 1 ++ succ) = 0x010#12 ∧ rs1 = 0#5 ∧ rd = 0#5) := by
      rintro ⟨imm, rfl, rfl⟩
      obtain ⟨high, low⟩ := Fields.parts_of_imm imm
      obtain rfl : fm = 0#4 := (cut_high 4 3 fm _).symm.trans (congrArg (·.extractLsb' 3 4) high)
      obtain rfl : succ = 0#4 := (cut_low 1 4 _ succ).symm.trans (congrArg (·.extractLsb' 0 4) low)
      have top := (cut_low 4 3 0#4 _).symm.trans (congrArg (·.extractLsb' 0 3) high)
      have bottom := (cut_high 1 4 _ 0#4).symm.trans (congrArg (·.extractLsb' 4 1) low)
      obtain rfl : pred = 1#4 := by
        rw [← join_parts 3 1 pred, top, bottom]
        rfl
      cases wf
    simp [decodeFields, decodeMiscMem, Fields.r, Fields.immI, notPause, cut_high 4 3, cut_low 4 3, cut_high 1 4, cut_low 1 4,
      join_parts 3 1]
  | vgrant rd level width =>
    cases h
    simp [decodeFields, decodeCustom0, Fields.r, cut_high 2 5, cut_low 2 5, cut_high 3 2, cut_low 3 2]
  | rres scope flag rd rs1 | rcom scope flag rs1 | rclose scope flag rs1 | racq scope rd rs1 | rrel scope rs1
  | rpush scope rs1 rs2 | rpop scope rd rs1 | rstat scope rd rs1 | rbeacon scope rs1 rs2 =>
    cases h
    simp [decodeFields, decodeCustom1, Fields.r, cut_high 4 3, cut_low 4 3, cut_high 4 1, cut_low 4 1]
  | fenceS scope succ pred | awmerge scope =>
    cases h
    simp [decodeFields, decodeCustom2, Fields.r, cut_high 2 3, cut_low 2 3, cut_high 1 4, cut_low 1 4]
  | amoincw aq rl scope width rd rs1 rs2 | amoaddb width rd rs1 rs2 rs3 =>
    cases h
    simp [decodeFields, decodeCustom2, Fields.r, amoincw_parts, cut_high 5 2, cut_low 5 2]
  | sbind st rs1 | sset st rs1 rs2 | sfence st | vbind vm st | mena tile mode | mdis tile =>
    cases h
    simp [decodeFields, decodeCustom3, Fields.r, cut_high 1 4, cut_low 1 4, cut_high 2 3, cut_low 2 3, cut_high 3 2,
      cut_low 3 2]
  | _ => cases h <;> rfl

/-! ## 64-bit instructions (R70, R74) -/

theorem decodeW0_encodes {op : BitVec 6} {w : WWord} {i : Instr} (h : decodeW0 op w = some i) :
    encodeFields i = none ∧ encodeWFields i = some { grp := 0#3, op := op, w := w } := by
  unfold decodeW0 at h
  split at h <;> cases h <;> exact ⟨rfl, rfl⟩

theorem decodeW1_encodes {op : BitVec 6} {w : WWord} {i : Instr} (h : decodeW1 op w = some i) :
    encodeFields i = none ∧ encodeWFields i = some { grp := 1#3, op := op, w := w } := by
  unfold decodeW1 at h
  split at h <;> cases h <;> exact ⟨rfl, rfl⟩

theorem decodeW2_encodes {op : BitVec 6} {w : WWord} {i : Instr} (h : decodeW2 op w = some i) :
    encodeFields i = none ∧ encodeWFields i = some { grp := 2#3, op := op, w := w } := by
  unfold decodeW2 at h
  split at h <;> cases h <;> exact ⟨rfl, rfl⟩

theorem decodeW3_encodes {op : BitVec 6} {w : WWord} {i : Instr} (h : decodeW3 op w = some i) :
    encodeFields i = none ∧ encodeWFields i = some { grp := 3#3, op := op, w := w } := by
  unfold decodeW3 at h
  split at h <;> cases h <;> exact ⟨rfl, rfl⟩

theorem decodeW4_encodes {op : BitVec 6} {w : WWord} {i : Instr} (h : decodeW4 op w = some i) :
    encodeFields i = none ∧ encodeWFields i = some { grp := 4#3, op := op, w := w } := by
  unfold decodeW4 at h
  split at h <;> cases h <;> exact ⟨rfl, rfl⟩

theorem decodeW5_encodes {op : BitVec 6} {w : WWord} {i : Instr} (h : decodeW5 op w = some i) :
    encodeFields i = none ∧ encodeWFields i = some { grp := 5#3, op := op, w := w } := by
  unfold decodeW5 at h
  split at h <;> cases h <;> exact ⟨rfl, rfl⟩

theorem decodeW6_encodes {op : BitVec 6} {w : WWord} {i : Instr} (h : decodeW6 op w = some i) :
    encodeFields i = none ∧ encodeWFields i = some { grp := 6#3, op := op, w := w } := by
  unfold decodeW6 at h
  split at h <;> cases h <;> exact ⟨rfl, rfl⟩

theorem encodeWFields_of_decodeWFields {x : WFields} {i : Instr} (h : decodeWFields x = some i) :
    encodeFields i = none ∧ encodeWFields i = some x := by
  obtain ⟨grp, op, w⟩ := x
  unfold decodeWFields at h
  split at h
  case isTrue => cases h; exact ⟨rfl, rfl⟩
  case isFalse plain =>
    dsimp only at h plain
    split at h
    · exact decodeW0_encodes h
    · exact decodeW1_encodes h
    · exact decodeW2_encodes h
    · exact decodeW3_encodes h
    · exact decodeW4_encodes h
    · exact decodeW5_encodes h
    · obtain rfl : grp = 6#3 := by
        simp only [experimental, Bool.or_eq_true, beq_iff_eq, not_or] at plain
        simp only [imp_false] at *
        bv_omega
      exact decodeW6_encodes h

theorem decodeWFields_of_encodeWFields {i : Instr} {x : WFields} (h : encodeWFields i = some x) (wf : i.wf = true) :
    decodeWFields x = some i := by
  cases i with
  | experimentalInstruction grp op w =>
    cases h
    have e : experimental grp op = true := by
      simp only [Instr.wf, Bool.and_eq_true] at wf
      exact wf.1.1.1
    exact if_pos e
  | _ => cases h <;> rfl

/-! ## One word (R69, R73) -/

theorem decode32_eq_ok {w : BitVec 32} {i : Instr} :
    decode32 w = .ok i ↔ decodeFields (Fields.of w) = some i ∧ i.wf = true := by
  unfold decode32
  cases decodeFields (Fields.of w) with
  | none => simp
  | some j => cases hj : j.wf <;> simp [hj] <;> rintro rfl <;> exact hj

theorem decode64_eq_ok {v : BitVec 64} {i : Instr} :
    decode64 v = .ok i ↔ decodeWFields (WFields.of v) = some i ∧ i.wf = true := by
  unfold decode64
  cases decodeWFields (WFields.of v) with
  | none => simp
  | some j => cases hj : j.wf <;> simp [hj] <;> rintro rfl <;> exact hj

/-! ## Length (R61) -/

theorem parcelLength_four {p : BitVec 32}
    (h : (p.extractLsb' 0 7).extractLsb' 0 2 = 3#2 ∧ (p.extractLsb' 0 7).extractLsb' 2 3 ≠ 7#3) :
    parcelLength p = .ok 4 := by
  rw [BitVec.extractLsb'_extractLsb'_of_le (by decide), BitVec.extractLsb'_extractLsb'_of_le (by decide)] at h
  rw [parcelLength, if_neg (not_not.mpr h.1), if_pos h.2]

theorem parcelLength_eight {p : BitVec 32} (h : p.extractLsb' 0 7 = 0x3F#7) : parcelLength p = .ok 8 := by
  have h2 : p.extractLsb' 0 2 = 3#2 := by rw [← BitVec.extractLsb'_extractLsb'_of_le (len' := 7) (by decide), h]; rfl
  have h5 : p.extractLsb' 2 3 = 7#3 := by rw [← BitVec.extractLsb'_extractLsb'_of_le (len' := 7) (by decide), h]; rfl
  rw [parcelLength, if_neg (not_not.mpr h2), if_neg (not_not.mpr h5), if_pos h]

theorem parcelLength_eq_ok {p : BitVec 32} {n : Nat} (h : parcelLength p = .ok n) :
    n = 4 ∨ (n = 8 ∧ p.extractLsb' 0 7 = 0x3F#7) := by
  unfold parcelLength at h
  split_ifs at h with _ _ e <;> cases h
  · exact .inl rfl
  · exact .inr ⟨rfl, e⟩

/-! ## The words that bytes begin with -/

/-- The first 4 bytes as a word. -/
def word32 (bs : List Byte) : BitVec 32 := BitVec.ofNat 32 (bytesToNat (bs.take 4))

/-- The first 8 bytes as a word. -/
def word64 (bs : List Byte) : BitVec 64 := BitVec.ofNat 64 (bytesToNat (bs.take 8))

theorem word32_eq_setWidth (bs : List Byte) : word32 bs = (word64 bs).setWidth 32 := by
  apply BitVec.eq_of_toNat_eq
  simp only [word32, word64, BitVec.toNat_setWidth, BitVec.toNat_ofNat, bytesToNat_take]
  omega

theorem word32_low (bs : List Byte) : (word32 bs).extractLsb' 0 7 = (word64 bs).extractLsb' 0 7 := by
  rw [word32_eq_setWidth, BitVec.extractLsb'_setWidth_of_le (by decide)]

theorem word32_natToBytes (w : BitVec 32) (rest : List Byte) : word32 (natToBytes 4 w.toNat ++ rest) = w := by
  rw [word32, List.take_left' (length_natToBytes 4 _), bytesToNat_natToBytes, Nat.mod_eq_of_lt (b := 256 ^ 4) w.isLt,
    BitVec.ofNat_toNat, BitVec.setWidth_eq]

theorem word64_natToBytes (v : BitVec 64) (rest : List Byte) : word64 (natToBytes 8 v.toNat ++ rest) = v := by
  rw [word64, List.take_left' (length_natToBytes 8 _), bytesToNat_natToBytes, Nat.mod_eq_of_lt (b := 256 ^ 8) v.isLt,
    BitVec.ofNat_toNat, BitVec.setWidth_eq]

theorem bytesToNat_lt (bs : List Byte) : bytesToNat bs < 256 ^ bs.length := by
  rw [← natToBytes_bytesToNat bs, bytesToNat_natToBytes, length_natToBytes]
  exact Nat.mod_lt _ (by positivity)

theorem natToBytes_word32 {bs : List Byte} (h : 4 ≤ bs.length) : natToBytes 4 (word32 bs).toNat = bs.take 4 := by
  have len : (bs.take 4).length = 4 := List.length_take_of_le h
  have small := bytesToNat_lt (bs.take 4)
  rw [len] at small
  rw [word32, BitVec.toNat_ofNat, Nat.mod_eq_of_lt (b := 2 ^ 32) small]
  exact (congrArg (natToBytes · _) len.symm).trans (natToBytes_bytesToNat (bs.take 4))

theorem natToBytes_word64 {bs : List Byte} (h : 8 ≤ bs.length) : natToBytes 8 (word64 bs).toNat = bs.take 8 := by
  have len : (bs.take 8).length = 8 := List.length_take_of_le h
  have small := bytesToNat_lt (bs.take 8)
  rw [len] at small
  rw [word64, BitVec.toNat_ofNat, Nat.mod_eq_of_lt (b := 2 ^ 64) small]
  exact (congrArg (natToBytes · _) len.symm).trans (natToBytes_bytesToNat (bs.take 8))

/-! ## The decoder of bytes -/

theorem decode_four {bs : List Byte} {i : Instr} (long : 4 ≤ bs.length) (p : parcelLength (word32 bs) = .ok 4)
    (h : decode32 (word32 bs) = .ok i) : decode bs = .ok (i, 4) := by
  unfold word32 at p h
  simp only [decode, if_neg (Nat.not_lt.mpr long), p, h]
  rfl

theorem decode_eight {bs : List Byte} {i : Instr} (long : 8 ≤ bs.length) (p : parcelLength (word32 bs) = .ok 8)
    (h : decode64 (word64 bs) = .ok i) : decode bs = .ok (i, 8) := by
  unfold word32 at p
  unfold word64 at h
  have long4 : ¬bs.length < 4 := by omega
  simp only [decode, if_neg (Nat.not_lt.mpr long), if_neg long4, p, h]
  rfl

theorem map_eq_ok {ε α β : Type} {f : α → β} {m : Except ε α} {b : β} (h : m.map f = .ok b) :
    ∃ a, m = .ok a ∧ f a = b := by
  cases m with
  | error e => cases h
  | ok a => exact ⟨a, rfl, Except.ok.inj h⟩

/-- What the decoder accepts is one word of 32 or of 64 bits. -/
theorem decode_eq_ok {bs : List Byte} {i : Instr} {n : Nat} (h : decode bs = .ok (i, n)) :
    (n = 4 ∧ 4 ≤ bs.length ∧ decode32 (word32 bs) = .ok i) ∨
    (n = 8 ∧ 8 ≤ bs.length ∧ (word32 bs).extractLsb' 0 7 = 0x3F#7 ∧ decode64 (word64 bs) = .ok i) := by
  unfold decode at h
  by_cases short : bs.length < 4
  · rw [if_pos short] at h; cases h
  rw [if_neg short] at h
  cases p : parcelLength (word32 bs) with
  | error e => unfold word32 at p; rw [p] at h; cases h
  | ok m =>
    rcases parcelLength_eq_ok p with rfl | ⟨rfl, low⟩ <;> unfold word32 at p <;> rw [p] at h
    · obtain ⟨j, d, e⟩ := map_eq_ok h
      cases e
      exact .inl ⟨rfl, Nat.not_lt.mp short, d⟩
    · by_cases shorter : bs.length < 8
      · rw [if_pos shorter] at h; cases h
      rw [if_neg shorter] at h
      obtain ⟨j, d, e⟩ := map_eq_ok h
      cases e
      exact .inr ⟨rfl, Nat.not_lt.mp shorter, low, d⟩

/-! ## Decoding and encoding -/

theorem encode_of_fields {i : Instr} {x : Fields} (h : encodeFields i = some x) : encode i = natToBytes 4 x.word.toNat := by
  rw [encode, h]

theorem encode_of_wfields {i : Instr} {x : WFields} (no : encodeFields i = none) (h : encodeWFields i = some x) :
    encode i = natToBytes 8 x.word.toNat := by
  rw [encode, no, h]

/-- Settles O1: the fields of a well-formed instruction decode to it, and its bytes are the word of those fields. -/
theorem decodeAfterEncode : Obligations.DecodeAfterEncode := by
  unfold Obligations.DecodeAfterEncode
  intro i rest program wf
  cases h : encodeFields i with
  | some x =>
    have fields := decodeFields_of_encodeFields h wf
    rw [encode_of_fields h, length_natToBytes]
    refine decode_four (by simp [length_natToBytes]) ?_ ?_ <;> rw [word32_natToBytes]
    · apply parcelLength_four
      rw [show x.word.extractLsb' 0 7 = x.opc from congrArg Fields.opc (Fields.of_word x)]
      exact opcode_of_decodeFields fields
    · exact decode32_eq_ok.mpr ⟨by rw [Fields.of_word, fields], wf⟩
  | none =>
    cases k : encodeWFields i with
    | none => rw [Instr.isProgram, h, k] at program; cases program
    | some x =>
      rw [encode_of_wfields h k, length_natToBytes]
      refine decode_eight (by simp [length_natToBytes]) ?_ ?_
      · apply parcelLength_eight
        rw [word32_low, word64_natToBytes]
        exact cut_low 57 7 _ 0x3F#7
      · rw [word64_natToBytes]
        exact decode64_eq_ok.mpr ⟨by rw [WFields.of_word, decodeWFields_of_encodeWFields k wf], wf⟩

/-- Settles O2: the fields of a word encode from the instruction that they decode to, and make up the whole word. -/
theorem encodeAfterDecode : Obligations.EncodeAfterDecode := by
  unfold Obligations.EncodeAfterDecode
  intro bs i n h
  rcases decode_eq_ok h with ⟨rfl, long, word⟩ | ⟨rfl, long, low, word⟩
  · obtain ⟨fields, wf⟩ := decode32_eq_ok.mp word
    have enc := encodeFields_of_decodeFields fields
    refine ⟨by simp [Instr.isProgram, enc], wf, .inl rfl, long, ?_⟩
    rw [encode_of_fields enc, Fields.word_of, natToBytes_word32 long]
  · obtain ⟨fields, wf⟩ := decode64_eq_ok.mp word
    obtain ⟨no, enc⟩ := encodeWFields_of_decodeWFields fields
    refine ⟨by simp [Instr.isProgram, enc], wf, .inr rfl, long, ?_⟩
    rw [encode_of_wfields no enc, WFields.word_of _ (word32_low bs ▸ low), natToBytes_word64 long]

end Sys2Proof

namespace Sys2Proof.Machine
open Sys2Proof

/-! ## Jumps and branches (R64, R89) -/

theorem goto_goesTo {i : Instr} {s : State} {rd : Reg} {link target : Word} (run : exec i s = s.goto rd link target) :
    goesTo i s rd link target := by
  refine ⟨fun aligned => ?_, fun misaligned here => trapsWith_of_fault (run.trans (if_neg misaligned)) here⟩
  refine ⟨_, run.trans (goto_aligned s rd link target aligned), ⟨?_, ?_⟩, rfl, ?_⟩
  · exact Hart.rx_wx_same s.hart rd link
  · exact fun r other => Hart.rx_wx_other s.hart rd r link other
  · unfold scalarOnly State.goesOn State.jump State.wx Hart.wx
    split <;> rfl

theorem branch_branchesTo {i : Instr} {s : State} {b : Bool} {off : BitVec 12} {taken : Prop}
    (run : exec i s = s.branch b off) (test : b = true ↔ taken) : branchesTo i s taken (s.branchTarget off) := by
  refine ⟨fun yes => goto_goesTo ?_, fun no => ?_⟩
  · rw [run, State.branch, if_pos (test.mpr yes), branchTarget_eq]
  · exact ⟨_, run.trans (if_neg fun h => no (test.mp h)), rfl, rfl, rfl⟩

theorem jalTarget_eq (pc : Word) (off : BitVec 20) :
    pc + (off ++ 0#1).signExtend 64 = BitVec.ofInt 64 (pc.toInt + 2 * off.toInt) := by
  have doubled : (off ++ 0#1).toInt = 2 * off.toInt := by
    rw [BitVec.toInt_append]; simp
  rw [BitVec.ofInt_add, BitVec.ofInt_toInt, BitVec.signExtend, doubled]

/-- A word without its bit 0 is the even number below. -/
theorem clearBit0_eq (x : Word) : x &&& ~~~1#64 = BitVec.ofNat 64 (2 * (x.toNat / 2)) := by
  refine BitVec.eq_of_getLsbD_eq fun k hk => ?_
  rw [BitVec.getLsbD_ofNat]
  cases k with
  | zero => simp
  | succ k =>
    have even : (2 * (x.toNat / 2)).testBit (k + 1) = x.toNat.testBit (k + 1) := by
      rw [Nat.testBit_succ, Nat.testBit_succ, Nat.mul_div_cancel_left _ (by decide)]
    have one : (1#64).getLsbD (k + 1) = false := by rw [BitVec.getLsbD_one]; simp
    rw [even, BitVec.testBit_toNat, BitVec.getLsbD_and, BitVec.getLsbD_not, one]
    simp [hk]

theorem jalrTarget_eq (a : Word) (off : BitVec 12) :
    (a + immWord off) &&& ~~~1#64 = BitVec.ofInt 64 (2 * ((a.toInt + off.toInt) / 2)) := by
  have sum : a + immWord off = BitVec.ofInt 64 (a.toInt + off.toInt) := by
    rw [BitVec.ofInt_add, BitVec.ofInt_toInt, immWord, BitVec.signExtend]
  rw [sum, clearBit0_eq]
  generalize a.toInt + off.toInt = z
  apply BitVec.eq_of_toNat_eq
  rw [BitVec.toNat_ofNat, BitVec.toNat_ofInt, BitVec.toNat_ofInt]
  omega

/-! ## Branches on predicates (R104) -/

theorem predCounts_set {h : Hart} {p : BitVec 4} :
    (h.predCounts p).1 = 0 ↔ ¬∃ k, k < h.vl ∧ h.currentMask.getLsbD k = true ∧ (h.rp p.toNat).getLsbD k = true := by
  simp only [Hart.predCounts, Hart.activeElems, List.length_eq_zero_iff, List.filter_eq_nil_iff, List.mem_filter,
    List.mem_range, not_exists, not_and]
  tauto

theorem predCounts_clear {h : Hart} {p : BitVec 4} :
    (h.predCounts p).2 = 0 ↔ ¬∃ k, k < h.vl ∧ h.currentMask.getLsbD k = true ∧ (h.rp p.toNat).getLsbD k = false := by
  have all : (h.predCounts p).2 = 0 ↔ h.activeElems.filter (fun k => (h.rp p.toNat).getLsbD k) = h.activeElems := by
    rw [Hart.predCounts, Nat.sub_eq_zero_iff_le]
    exact ⟨fun le => List.filter_sublist.eq_of_length_le le, fun e => (congrArg List.length e).ge⟩
  simp only [all, List.filter_eq_self, Hart.activeElems, List.mem_filter, List.mem_range, not_exists, not_and,
    ← Bool.not_eq_true, not_not]
  tauto

theorem predBranch_branchesTo {i : Instr} {s : State} {p : BitVec 4} {off : BitVec 12} {test : Nat × Nat → Bool}
    {taken : Prop} (run : exec i s = predBranch p off test s) (empty : s.hart.vq = [])
    (iff : test (s.hart.predCounts p) = true ↔ taken) : branchesTo i s taken (s.branchTarget off) :=
  branch_branchesTo (run.trans (if_pos (by rw [empty]; rfl))) iff

/-- Settles O6: each instruction is one use of the shared jump or branch, under the condition that the statement names. -/
theorem jumpsAndBranches : Obligations.JumpsAndBranches := by
  unfold Obligations.JumpsAndBranches
  refine ⟨fun s rd rs1 rs2 off far => ⟨?_, ?_, ?_, ?_, ?_, ?_, ?_, ?_⟩, fun s p off empty => ⟨?_, ?_, ?_⟩⟩
  case refine_1 => exact jalTarget_eq s.hart.pc far ▸ goto_goesTo rfl
  case refine_2 => exact jalrTarget_eq (s.hart.rx rs1) off ▸ goto_goesTo rfl
  case refine_3 => exact branch_branchesTo rfl beq_iff_eq
  case refine_4 => exact branch_branchesTo rfl bne_iff_ne
  case refine_5 => exact branch_branchesTo rfl BitVec.slt_iff_toInt_lt
  case refine_6 =>
    refine branch_branchesTo rfl ?_
    rw [Bool.not_eq_true', ← Bool.not_eq_true, BitVec.slt_iff_toInt_lt, Int.not_lt]
    rfl
  case refine_7 => exact branch_branchesTo rfl BitVec.ult_iff_lt
  case refine_8 =>
    refine branch_branchesTo rfl ?_
    rw [Bool.not_eq_true', ← Bool.not_eq_true, BitVec.ult_iff_lt, BitVec.not_lt]
    rfl
  case refine_9 =>
    refine predBranch_branchesTo (test := fun c => decide (0 < c.1)) rfl empty ?_
    rw [decide_eq_true_eq, Nat.pos_iff_ne_zero, ne_eq, predCounts_set, not_not]
  case refine_10 => exact predBranch_branchesTo (test := fun c => c.2 == 0) rfl empty (beq_iff_eq.trans predCounts_clear)
  case refine_11 => exact predBranch_branchesTo (test := fun c => c.1 == 0) rfl empty (beq_iff_eq.trans predCounts_set)

end Sys2Proof.Machine

namespace Sys2Proof

/-- Settles O3: the decoder computes. -/
theorem wordsDecode : Obligations.WordsDecode := ⟨rfl, rfl, rfl, rfl, rfl, rfl⟩

end Sys2Proof

namespace Sys2Proof.Machine
open Sys2Proof

/-! ## The bytes of a fetch (R61, R62) -/

theorem lowBytes_eq (n v : Nat) : lowBytes n v = natToBytes n v := by
  induction n generalizing v with
  | zero => rfl
  | succ n ih =>
    rw [natToBytes, ← ih, lowBytes, List.range_succ_eq_map, List.map_cons, List.map_map]
    simp [lowBytes, Function.comp_def, Nat.pow_succ', Nat.div_div_eq_div_mul]

theorem Memory.read_add (m : Memory) (a n k : Nat) : m.read a (n + k) = m.read a n + 256 ^ n * m.read (a + n) k := by
  induction n generalizing a with
  | zero => simp [Memory.read]
  | succ n ih =>
    rw [Nat.succ_add, Memory.read, Memory.read, ih, Nat.pow_succ', Nat.succ_add_eq_add_succ]
    ring

/-- No poison in a range, none in a part of it. -/
theorem poisoned_part {s : State} {pa n a k : Nat} (h : s.poisoned pa n = false) (lo : pa ≤ a) (hi : a + k ≤ pa + n) :
    s.poisoned a k = false := by
  unfold State.poisoned at *
  rw [List.any_eq_false] at *
  intro x hx clash
  simp only [Bool.and_eq_true, decide_eq_true_eq] at clash
  exact h x hx (by simp only [Bool.and_eq_true, decide_eq_true_eq]; omega)

/-- The low seven bits of a word of memory. -/
theorem word32_low_eq {n v : Nat} (long : 4 ≤ n) :
    (word32 (lowBytes n v)).extractLsb' 0 7 = 0x3F#7 ↔ v % 128 = 0x3F := by
  have bytes : bytesToNat ((natToBytes n v).take 4) % 128 = v % 128 := by
    obtain ⟨k, rfl⟩ := Nat.exists_eq_add_of_le long
    have wide : 128 ∣ 256 ^ (4 + k) := Dvd.dvd.trans (by decide) (Nat.pow_dvd_pow 256 (Nat.le_add_right 4 k))
    rw [bytesToNat_take, bytesToNat_natToBytes, Nat.mod_mod_of_dvd _ (by decide), Nat.mod_mod_of_dvd _ wide]
  rw [← BitVec.toNat_inj, word32, lowBytes_eq, BitVec.extractLsb'_toNat, BitVec.toNat_ofNat, ← bytes]
  simp only [Nat.shiftRight_zero, BitVec.toNat_ofNat]
  omega

theorem decode_length {bs : List Byte} {i : Instr} {n : Nat} (h : decode bs = .ok (i, n)) :
    (n = 4 ∧ (word32 bs).extractLsb' 0 7 ≠ 0x3F#7) ∨ (n = 8 ∧ (word32 bs).extractLsb' 0 7 = 0x3F#7) := by
  rcases decode_eq_ok h with ⟨rfl, long, word⟩ | ⟨rfl, -, low, -⟩
  · refine .inl ⟨rfl, fun low => ?_⟩
    have eight := parcelLength_eight low
    unfold word32 at eight
    simp only [decode, if_neg (Nat.not_lt.mpr long), eight] at h
    split at h
    · cases h
    · obtain ⟨j, -, e⟩ := map_eq_ok h
      cases e
  · exact .inr ⟨rfl, low⟩

/-! ## Fetch (R253) -/

/-- A state with another fetch buffer. -/
def State.buffered (s : State) (b : List (Nat × Nat)) : State := { s with hart := { s.hart with fetchBuf := b } }

/-- A parcel that memory serves: it comes with the rest of its line. -/
theorem fetchWord_served {s t : State} {va : Word} {x : Translation} (empty : s.hart.fetchBuf = [])
    (htr : translate s s.hart.ctx va .fetch = .ok (x, t)) (hs : t.served x.pa) (hp : t.poisoned x.pa 4 = false) :
    fetchWord va s = .ok (t.mem.read x.pa 4) (t.buffered (t.wordsAfter va x.pa)) := by
  unfold fetchWord
  rw [M.bind_ok (getH_apply s), empty]
  simp only [List.lookup_nil]
  rw [M.bind_ok (translateM_ok htr), M.bind_ok (loadPa_served true hs hp (by simp [State.inTx]))]
  unfold State.served at hs
  split at hs
  · rename_i e; simp only [e]; rfl
  · rename_i e; simp only [e]; rfl
  · exact hs.elim

/-- A parcel that the buffer begins with. -/
theorem fetchWord_buffered {s : State} {va : Word} {w : Nat} {l : List (Nat × Nat)} :
    ∃ b, fetchWord va (s.buffered ((va.toNat, w) :: l)) = .ok w (s.buffered b) := by
  refine ⟨((va.toNat, w) :: l).filter fun x => decide (va.toNat < x.1), ?_⟩
  unfold fetchWord
  rw [M.bind_ok (getH_apply _)]
  simp only [State.buffered, List.lookup_cons_self]
  rfl

/-- The word after a parcel stands first in what its fetch takes of the line. -/
theorem wordsAfter_next {s : State} {va : Word} {pa : Nat} (room : pa % 128 + 8 ≤ 128) (hp : s.poisoned (pa + 4) 4 = false) :
    ∃ l, s.wordsAfter va pa = (va.toNat + 4, s.mem.read (pa + 4) 4) :: l := by
  obtain ⟨m, hm⟩ : ∃ m, 31 - pa % 128 / 4 = m + 1 := ⟨30 - pa % 128 / 4, by omega⟩
  rw [State.wordsAfter, hm, List.range_succ_eq_map, List.filterMap_cons_some (b := (va.toNat + 4, s.mem.read (pa + 4) 4))]
  · exact ⟨_, rfl⟩
  · simp [hp, State.physLoad]

/-- A fetch of an instruction that lies in one line. -/
theorem fetchInstr_served {s t : State} {x : Translation} {i : Instr} {n : Nat} (empty : s.hart.fetchBuf = [])
    (aligned : s.hart.pc.toNat % 4 = 0) (line : s.hart.pc.toNat % 128 + n ≤ 128) (same : x.pa % 128 = s.hart.pc.toNat % 128)
    (htr : translate s s.hart.ctx s.hart.pc .fetch = .ok (x, t)) (hs : t.served x.pa) (hp : t.poisoned x.pa n = false)
    (dec : decode (lowBytes n (t.mem.read x.pa n)) = .ok (i, n)) :
    ∃ b, fetchInstr s = .ok (.instr i n) (t.buffered b) := by
  have four : 4 ≤ n := by rcases decode_length dec with ⟨rfl, -⟩ | ⟨rfl, -⟩ <;> decide
  have first := fetchWord_served empty htr hs (poisoned_part hp le_rfl (by omega))
  have parcels : ∃ b, fetchParcels s = .ok (n, t.mem.read x.pa n) (t.buffered b) := by
    unfold fetchParcels
    rw [M.bind_ok (getH_apply s)]
    simp only [aligned, ne_eq, not_true_eq_false, if_false]
    rw [M.bind_ok first]
    rcases decode_length dec with ⟨rfl, low⟩ | ⟨rfl, low⟩
    · exact ⟨_, by rw [if_neg fun h => low ((word32_low_eq le_rfl).mpr h)]; rfl⟩
    · have sum : t.mem.read x.pa 8 = _ := Memory.read_add t.mem x.pa 4 4
      have lo := (word32_low_eq (by decide)).mp low
      have next : (s.hart.pc + 4#64).toNat = s.hart.pc.toNat + 4 := by
        have := s.hart.pc.isLt
        rw [BitVec.toNat_add]; simp only [BitVec.toNat_ofNat]; omega
      have clean : t.poisoned (x.pa + 4) 4 = false := poisoned_part hp (by omega) (by omega)
      obtain ⟨l, rest⟩ := wordsAfter_next (va := s.hart.pc) (by omega) clean
      obtain ⟨b, second⟩ := fetchWord_buffered (s := t) (va := s.hart.pc + 4#64) (w := t.mem.read (x.pa + 4) 4) (l := l)
      rw [next, ← rest] at second
      refine ⟨b, ?_⟩
      rw [if_pos (by omega), M.bind_ok second, sum]
      rfl
  obtain ⟨b, run⟩ := parcels
  refine ⟨b, ?_⟩
  unfold fetchInstr
  rw [M.bind_ok run, fetchedOf, dec]
  rfl

/-! ## A step (R170, R430, R435) -/

theorem step_of_event {s : State} {i : Instr} {l : List Instr} (next : s.nextEvent = some (i, l)) (wf : i.wf = true) :
    step s = exec i { s with inbox := l } := by
  unfold step
  simp only [next, wf, if_true]

theorem step_of_hart {s : State} (boot : s.dev.boot = .running) (next : s.nextEvent = none) : step s = stepHart s := by
  unfold step
  simp only [next, boot, if_true]

theorem step_of_none {s : State} (boot : s.dev.boot ≠ .running) (next : s.nextEvent = none) : step s = .next s := by
  unfold step
  simp only [next, boot, if_false]

theorem isReset_wf {i : Instr} (h : isReset i = true) : i.wf = true := by
  unfold isReset at h
  split at h
  · rfl
  · rfl
  · cases h

/-- A hart that has the turn with nothing before its next instruction. -/
theorem stepHart_runs {s : State} (sel : s.selected = true) (inbox : s.inbox = []) (run : s.hart.run = .running)
    (hv : s.hart.vq = []) (hm : s.hart.mq = []) (hf : s.hart.faults = []) (int : s.pendingInterrupt = none) :
    stepHart s = finish State.endIssue (runInstr s) := by
  have able : s.hart.runnable = true := by rw [Hart.runnable, run]; rfl
  have pump : s.pump = s := if_pos (Hart.drained_of_empty hv hm)
  have boundary : s.boundary = none := by simp [State.boundary, hf, int]
  have turn : s.turn = .run s := by simp [State.turn, State.begin_, sel, inbox, able, pump, boundary]
  have plain : s.hart.expansionDue = false := by simp [Hart.expansionDue, Hart.vqReady, Hart.mqReady, hv, hm]
  simp [stepHart, turn, plain]

/-- Settles O42: the next event, or the turn and its fetch, is the one that the statement's conditions leave. -/
theorem stepRunsDecoded : Obligations.StepRunsDecoded := by
  unfold Obligations.StepRunsDecoded
  refine ⟨?_, fun s i l => ⟨?_, ?_, ?_, ?_, ?_⟩⟩
  · intro s t i n pa boot sel inbox run hv hm hf _ int empty aligned maps hp dec
    obtain ⟨-, line, same, ⟨skew, htr⟩, hs⟩ := maps
    obtain ⟨b, fetch⟩ := fetchInstr_served empty aligned line same htr hs hp dec
    refine ⟨b, ?_⟩
    rw [step_of_hart boot (by simp [State.nextEvent, boot, sel]), stepHart_runs sel inbox run hv hm hf int, runInstr, fetch]
    rfl
  · intro boot sel inbox wf
    exact step_of_event (by simp [State.nextEvent, boot, sel, inbox]) wf
  · intro boot none
    refine step_of_none (by simp [boot]) ?_
    simpa [State.nextEvent, boot] using none
  · intro boot inbox reset
    exact step_of_event (l := s.inbox) (by simp [State.nextEvent, boot, inbox, reset]) (isReset_wf reset)
  · intro boot none
    have skip : s.inbox.dropWhile (fun i => !inRecovery i) = [] := by simpa [List.dropWhile_eq_nil_iff] using none
    exact step_of_none (by simp [boot]) (by simp [State.nextEvent, boot, skip])
  · intro boot inbox able wf
    exact step_of_event (by simp [State.nextEvent, boot, inbox, able]) wf

end Sys2Proof.Machine

namespace Sys2Proof.Machine
open Sys2Proof

/-! ## An experimental instruction of the copy stream in a doomed transaction (R207, R427) -/

/-- An experimental instruction of the copy stream, on a hart whose CQ is full and whose transaction is doomed, aborts
instead of waiting. -/
theorem experimental_doomed {s : State} {grp : BitVec 3} {op : BitVec 6} {w : WWord} (copy : s.expansionStream grp op = some 3)
    (full : s.hart.room 3 = false) (drained : s.hart.drained = true) (doom : (s.hart.tx.map Tx.doomed).getD false = true) :
    exec (.experimentalInstruction grp op w) s = .next (s.abortTx 1 0).settle := by
  have pump : s.pump = s := if_pos drained
  have queue : exec (.experimentalInstruction grp op w) s =
      s.issueIn 3 (.experimentalInstruction grp op w) (s.hart.capture w.xp w.vs1 w.vs2 w.vs3) 8 := by
    change execExperimentalInstruction grp op w s = _
    unfold execExperimentalInstruction
    rw [copy]
    rfl
  rw [queue, State.issueIn, pump]
  simp [full, State.hold, doom]

/-- A queued copy. -/
def queuedCopy (seq : Nat) : QEntry :=
  { pc := 0#64, instr := .cpyt 1#5, cap := State.reset.hart.capture 0#5 1#5 0#5 0#5, seq := seq, start := none,
    ready := false }

/-- A transaction of one level that a conflict has doomed. -/
def doomedTx : Tx :=
  { levels := [{ alt := false, x := State.reset.hart.x, vl := 0, target := 0#64 }], reads := [], writes := [], sends := [],
    flips := [], slots := [], taken := [], doomed := true, doomVa := none, ordered := false, begin_ := 0#64, rd := 0#5 }

/-- A hart with a full CQ and a doomed transaction, in a cluster whose table gives group 7, operation 63 to the copy
stream. -/
def doomedCopy : State :=
  { State.reset with
    clusters := [(State.reset.hart.id.clusterId,
      { Cluster.reset with dxtable := [{ grp := 7#3, op := 63#6, word := 0xC000_0000_0000_0000#64 }] })]
    hart := { State.reset.hart with cq := [queuedCopy 0, queuedCopy 1], seq := 2, tx := some doomedTx } }

/-- Refutes O48: in doomedCopy, an experimental instruction that the table gives to the copy stream finds CQ full, and does
not wait, as the last clause says: the doomed transaction aborts. -/
theorem not_trustAndExpansion : ¬ Obligations.TrustAndExpansion := by
  unfold Obligations.TrustAndExpansion
  intro h
  obtain ⟨-, -, -, -, -, -, -, -, -, -, -, -, -, -, -, queued⟩ :=
    h doomedCopy [] { stage := 0, status := 0, svn := 0, digest := [] } doomedCopy.hart.id.clusterId 0#64 7#3 63#6
      { aux9 := 0#9, sat := 0#1, rm := 0#3, lqv := 0#1, em := 0#1, pe := 0#4, pg := 0#4, xp := 0#5, vs3 := 0#5, vs2 := 0#5,
        vs1 := 0#5, vd := 0#5 }
  obtain ⟨-, wait⟩ := queued (by decide) (by decide) rfl rfl rfl
  obtain ⟨t, ran, held, -⟩ := wait (by decide) (by decide)
  rw [experimental_doomed (by decide) (by decide) (by decide) (by decide)] at ran
  cases ran
  have aborted : (doomedCopy.abortTx 1 0).settle.hart.tx = none := rfl
  rw [held] at aborted
  cases aborted

end Sys2Proof.Machine

namespace Sys2Proof.Machine
open Sys2Proof

/-! ## A unit-stride store of two fields of 4 bits (O25)

The statement takes every word, also one whose aux9 asks VST for two fields, which R73 refuses. The unit form has one address
for both fields, and for 4-bit elements the statement asks only elements of different bytes to lie apart: both fields go to
one half of a byte, and memory keeps the second. -/

/-- VST v2 to x1 with two fields, v2 and v3. -/
def twoFields : WWord :=
  { aux9 := 0x80#9, sat := 0#1, rm := 0#3, lqv := 0#1, em := 0#1, pe := 0#4, pg := 0#4, xp := 0#5, vs3 := 2#5, vs2 := 0#5,
    vs1 := 1#5, vd := 0#5 }

/-- The width in force is 8 bits, fa is I8 and fd is I4; element 0 alone is computed, it is 1 in v2 and 2 in v3, and x1 is an
address in a page that the TLB holds. -/
def oneHalf : State := { State.reset with
  hart := { State.reset.hart with
    satp := oneByteSatp, sbase := 0x4000_0000#64, x := State.reset.hart.x.set 1 0x3000#64, vl := 1
    vpal := BitVec.ofNat 64 (0x11 + 1 * 2 ^ 5), v := (State.reset.hart.v.set 2 1#16384).set 3 2#16384 }
  cores := [(State.reset.hart.id.coreId, { Core.reset with tlb := [hbmPage] })] }

theorem oneHalf_dispatches : oneHalf.dispatches twoFields false :=
  ⟨⟨rfl, rfl, rfl, rfl, rfl, rfl⟩, by decide, by decide, by decide⟩

theorem byteAfter_oneHalf : byteAfter (exec (.vst twoFields) oneHalf) 0x10_0000_3000 = some 2#8 := by
  decide +kernel

/-- Element 0 is the only one that is computed. -/
theorem oneHalf_computes {k : Nat} (h : (oneHalf.context (.vst twoFields) twoFields false).computes oneHalf k = true) :
    k = 0 := by
  simp only [VCtx.computes, Bool.and_eq_true, decide_eq_true_eq] at h
  exact Nat.lt_one_iff.mp h.1.2

theorem oneHalf_storesTo : oneHalf.storesTo 0x3000#64 1 0x10_0000_3000 :=
  ⟨by decide, by decide +kernel, by decide, by simp [State.served, region], by decide +kernel⟩

/-- Refutes O25: in oneHalf, which meets every premise of VST's clause, the low half of the byte becomes 2, the second
field, where the statement has 1 for the first. -/
theorem not_vectorLoadsAndStores : ¬ Obligations.VectorLoadsAndStores := by
  unfold Obligations.VectorLoadsAndStores
  intro h
  obtain ⟨unit, -⟩ := h.2 oneHalf twoFields rfl oneHalf_dispatches
  obtain ⟨t, ran, -, -, -, -, stored, -⟩ := unit .i4 (.int true 8) (fun _ _ => 0x10_0000_3000) (by decide +kernel)
    (.inl (by decide)) (by decide)
    (fun k f active _ => by obtain rfl := oneHalf_computes active; exact oneHalf_storesTo)
    (fun k f l g here there _ _ apart => by
      obtain rfl := oneHalf_computes here
      obtain rfl := oneHalf_computes there
      exact absurd rfl apart)
  have two := byteAfter_oneHalf
  rw [ran, byteAfter, Option.some.injEq] at two
  have one := stored 0 0 (by decide +kernel) (by decide)
  rw [rawAt, if_pos (by rfl : Fmt.i4.is4 = true), Memory.read_one, two] at one
  exact absurd one (by decide +kernel)

end Sys2Proof.Machine

namespace Sys2Proof.Machine
open Sys2Proof

/-! ## A scalar instruction whose whole effect is a value for rd (R89) -/

theorem scalar_result {i : Instr} {s : State} {rd : Reg} {v w : Word} (run : exec i s = s.scalar rd v) (value : v = w) :
    scalarResult i s rd w :=
  value ▸ ⟨_, run, wx_advance_goesOn s rd v 4⟩

theorem scalar_bits {i : Instr} {s : State} {rd : Reg} {v : Word} {f : Nat → Bool} (run : exec i s = s.scalar rd v)
    (bits : ∀ k, k < 64 → v.getLsbD k = f k) : scalarBits i s rd f :=
  ⟨v, bits, scalar_result run rfl⟩

theorem scalar_count {i : Instr} {s : State} {rd : Reg} {n : Nat} {p : Nat → Prop} (run : exec i s = s.scalar rd (wordOf n))
    (count : p n) : countResult i s rd p :=
  ⟨n, count, scalar_result run rfl⟩

/-! ## Words as exact integers -/

theorem sub_eq_ofInt {n : Nat} (a b : BitVec n) : a - b = BitVec.ofInt n (a.toInt - b.toInt) := by
  rw [Int.sub_eq_add_neg, BitVec.ofInt_add, BitVec.ofInt_neg, BitVec.ofInt_toInt, BitVec.ofInt_toInt, BitVec.sub_eq_add_neg]

theorem add_eq_ofInt {n : Nat} (a b : BitVec n) : a + b = BitVec.ofInt n (a.toInt + b.toInt) := by
  rw [BitVec.ofInt_add, BitVec.ofInt_toInt, BitVec.ofInt_toInt]

theorem mul_eq_ofInt {n : Nat} (a b : BitVec n) : a * b = BitVec.ofInt n (a.toInt * b.toInt) := by
  rw [BitVec.ofInt_mul, BitVec.ofInt_toInt, BitVec.ofInt_toInt]

theorem ofInt_emod_eq (n : Nat) (z : Int) : BitVec.ofInt n (z % (2 ^ n : Nat)) = BitVec.ofInt n z := by
  apply BitVec.eq_of_toNat_eq
  rw [BitVec.toNat_ofInt, BitVec.toNat_ofInt, Int.emod_emod]

theorem ofInt_bmod_eq (n : Nat) (z : Int) : BitVec.ofInt n (z.bmod (2 ^ n)) = BitVec.ofInt n z := by
  rw [← ofInt_emod_eq n (z.bmod (2 ^ n)), Int.bmod_emod, ofInt_emod_eq]

theorem sdiv_eq_ofInt {n : Nat} (a b : BitVec n) : a.sdiv b = BitVec.ofInt n (a.toInt.tdiv b.toInt) := by
  rw [← ofInt_bmod_eq, ← BitVec.toInt_sdiv, BitVec.ofInt_toInt]

theorem srem_eq_ofInt {n : Nat} (a b : BitVec n) : a.srem b = BitVec.ofInt n (a.toInt.tmod b.toInt) := by
  rw [← BitVec.toInt_srem, BitVec.ofInt_toInt]

theorem udiv_eq_ofNat {n : Nat} (a b : BitVec n) : a / b = BitVec.ofNat n (a.toNat / b.toNat) := by
  rw [← BitVec.toNat_udiv, BitVec.ofNat_toNat, BitVec.setWidth_eq]

theorem umod_eq_ofNat {n : Nat} (a b : BitVec n) : a % b = BitVec.ofNat n (a.toNat % b.toNat) := by
  rw [← BitVec.toNat_umod, BitVec.ofNat_toNat, BitVec.setWidth_eq]

/-! ## Upper immediates, immediates and shifted addends -/

theorem upperImm_eq (imm : BitVec 20) : (imm ++ 0#12).signExtend 64 = BitVec.ofInt 64 (4096 * imm.toInt) := by
  have scaled : (imm ++ 0#12).toInt = 4096 * imm.toInt := by
    rw [BitVec.toInt_append]; simp
  rw [BitVec.signExtend, scaled]

theorem add_upperImm_eq (pc : Word) (imm : BitVec 20) :
    pc + (imm ++ 0#12).signExtend 64 = BitVec.ofInt 64 (pc.toInt + 4096 * imm.toInt) := by
  rw [BitVec.ofInt_add, BitVec.ofInt_toInt, upperImm_eq]

theorem add_immWord_eq (a : Word) (imm : BitVec 12) : a + immWord imm = BitVec.ofInt 64 (a.toInt + imm.toInt) := by
  rw [BitVec.ofInt_add, BitVec.ofInt_toInt, immWord, BitVec.signExtend]

theorem shiftLeft_add_eq (a b : Word) (k : Nat) : (a <<< k) + b = BitVec.ofNat 64 (2 ^ k * a.toNat + b.toNat) := by
  apply BitVec.eq_of_toNat_eq
  rw [BitVec.toNat_add, BitVec.toNat_shiftLeft, BitVec.toNat_ofNat, Nat.shiftLeft_eq, Nat.mod_add_mod, Nat.mul_comm]

theorem zext32_toNat (v : Word) : (zext32 v).toNat = v.toNat % 2 ^ 32 := by
  have small : v.toNat % 2 ^ 32 < 2 ^ 64 := by omega
  rw [zext32, BitVec.zeroExtend, BitVec.toNat_setWidth, BitVec.extractLsb'_toNat, Nat.shiftRight_zero, Nat.mod_eq_of_lt small]

theorem zext32_shiftLeft_add_eq (a b : Word) (k : Nat) :
    (zext32 a <<< k) + b = BitVec.ofNat 64 (2 ^ k * (a.toNat % 2 ^ 32) + b.toNat) := by
  rw [shiftLeft_add_eq, zext32_toNat]

theorem zext32_add_eq (a b : Word) : zext32 a + b = BitVec.ofNat 64 (a.toNat % 2 ^ 32 + b.toNat) := by
  rw [← zext32_toNat, BitVec.ofNat_add, BitVec.ofNat_toNat, BitVec.ofNat_toNat, BitVec.setWidth_eq, BitVec.setWidth_eq]

theorem zext32_shiftLeft_eq (a : Word) (k : Nat) : zext32 a <<< k = BitVec.ofNat 64 (a.toNat % 2 ^ 32 * 2 ^ k) := by
  rw [← zext32_toNat, ← Nat.shiftLeft_eq]
  exact BitVec.eq_of_toNat_eq (by rw [BitVec.toNat_shiftLeft, BitVec.toNat_ofNat])

/-! ## The high half of a product -/

theorem high_half_eq (z : Int) : (BitVec.ofInt 128 z).extractLsb' 64 64 = BitVec.ofInt 64 (z / 2 ^ 64) := by
  apply BitVec.eq_of_toNat_eq
  rw [BitVec.extractLsb'_toNat, BitVec.toNat_ofInt, BitVec.toNat_ofInt, Nat.shiftRight_eq_div_pow]
  omega

theorem zeroExtend_eq_ofInt (v : Word) : v.zeroExtend 128 = BitVec.ofInt 128 v.toNat := by
  rw [BitVec.ofInt_natCast, BitVec.ofNat_toNat, BitVec.zeroExtend]

theorem mulh_eq (a b : Word) :
    (a.signExtend 128 * b.signExtend 128).extractLsb' 64 64 = BitVec.ofInt 64 (a.toInt * b.toInt / 2 ^ 64) := by
  rw [← high_half_eq, BitVec.ofInt_mul, BitVec.signExtend, BitVec.signExtend]

theorem mulhsu_eq (a b : Word) :
    (a.signExtend 128 * b.zeroExtend 128).extractLsb' 64 64 = BitVec.ofInt 64 (a.toInt * b.toNat / 2 ^ 64) := by
  rw [← high_half_eq, BitVec.ofInt_mul, BitVec.signExtend, zeroExtend_eq_ofInt]

theorem mulhu_eq (a b : Word) :
    (a.zeroExtend 128 * b.zeroExtend 128).extractLsb' 64 64 = BitVec.ofNat 64 (a.toNat * b.toNat / 2 ^ 64) := by
  have cast : ((a.toNat * b.toNat / 2 ^ 64 : Nat) : Int) = a.toNat * b.toNat / 2 ^ 64 := by push_cast; rfl
  rw [zeroExtend_eq_ofInt, zeroExtend_eq_ofInt, ← BitVec.ofInt_mul, high_half_eq, ← cast, BitVec.ofInt_natCast]

/-! ## Results of 32 bits -/

theorem low32_toNat (v : Word) : (low32 v).toNat = v.toNat % 2 ^ 32 := BitVec.extractLsb'_toNat ..

theorem low32_ofInt (z : Int) : low32 (BitVec.ofInt 64 z) = BitVec.ofInt 32 z := by
  apply BitVec.eq_of_toNat_eq
  rw [low32_toNat, BitVec.toNat_ofInt, BitVec.toNat_ofInt]
  omega

theorem low32_toInt (v : Word) : (low32 v).toInt = as32 v.toInt := by
  rw [← BitVec.ofInt_toInt (x := v), low32_ofInt, BitVec.toInt_ofInt, BitVec.ofInt_toInt, as32]

theorem signExtend_ofInt (z : Int) : (BitVec.ofInt 32 z).signExtend 64 = BitVec.ofInt 64 (as32 z) := by
  rw [BitVec.signExtend, BitVec.toInt_ofInt, as32]

theorem signExtend_ofNat (n : Nat) : (BitVec.ofNat 32 n).signExtend 64 = BitVec.ofInt 64 (as32 n) := by
  rw [← BitVec.ofInt_natCast, signExtend_ofInt]

theorem toInt_eq_zero_iff {n : Nat} (b : BitVec n) : b.toInt = 0 ↔ b = 0#n := by
  rw [← BitVec.toInt_inj, BitVec.toInt_zero]

theorem toNat_eq_zero_iff {n : Nat} (b : BitVec n) : b.toNat = 0 ↔ b = 0#n := by
  rw [← BitVec.toNat_inj]; simp

theorem addiw_eq (a : Word) (imm : BitVec 12) :
    sext32 (a + immWord imm) = BitVec.ofInt 64 (as32 ((low32 a).toInt + imm.toInt)) := by
  have low : as32 (as32 a.toInt + imm.toInt) = as32 (a.toInt + imm.toInt) := Int.bmod_add_bmod
  rw [low32_toInt, low, add_immWord_eq, ← signExtend_ofInt, ← low32_ofInt, sext32, low32]

theorem divw_eq (x y : BitVec 32) : (divSigned x y).signExtend 64 =
    BitVec.ofInt 64 (if y.toInt = 0 then -1 else as32 (x.toInt.tdiv y.toInt)) := by
  unfold divSigned
  simp only [toInt_eq_zero_iff]
  split
  · rfl
  · rw [sdiv_eq_ofInt, signExtend_ofInt]

theorem divuw_eq (x y : BitVec 32) : (divUnsigned x y).signExtend 64 =
    BitVec.ofInt 64 (if y.toNat = 0 then -1 else as32 (x.toNat / y.toNat : Nat)) := by
  unfold divUnsigned
  simp only [toNat_eq_zero_iff]
  split
  · rfl
  · rw [udiv_eq_ofNat, signExtend_ofNat]

theorem remw_eq (x y : BitVec 32) : (remSigned x y).signExtend 64 =
    BitVec.ofInt 64 (if y.toInt = 0 then x.toInt else as32 (x.toInt.tmod y.toInt)) := by
  unfold remSigned
  simp only [toInt_eq_zero_iff]
  split
  · rfl
  · rw [srem_eq_ofInt, signExtend_ofInt]

theorem remuw_eq (x y : BitVec 32) : (remUnsigned x y).signExtend 64 =
    BitVec.ofInt 64 (if y.toNat = 0 then as32 x.toNat else as32 (x.toNat % y.toNat : Nat)) := by
  unfold remUnsigned
  simp only [toNat_eq_zero_iff]
  split
  · rw [← signExtend_ofNat, BitVec.ofNat_toNat, BitVec.setWidth_eq]
  · rw [umod_eq_ofNat, signExtend_ofNat]

/-- Settles O4: each instruction is a value for rd, and the value is the exact one. -/
theorem scalarArithmetic : Obligations.ScalarArithmetic := by
  unfold Obligations.ScalarArithmetic
  refine ⟨fun s rd rs1 rs2 imm imm20 sh => ⟨?_, ?_, ?_, ?_, ?_, ?_, ?_, ?_, ?_, ?_, ?_, ?_, ?_, ?_, ?_, ?_, ?_, ?_, ?_, ?_, ?_⟩,
    fun s rd rs1 rs2 imm => ?_⟩
  case refine_1 => exact scalar_result rfl (upperImm_eq imm20)
  case refine_2 => exact scalar_result rfl (add_upperImm_eq s.hart.pc imm20)
  case refine_3 => exact scalar_result rfl (add_immWord_eq _ imm)
  case refine_4 => exact scalar_result rfl (add_eq_ofInt _ _)
  case refine_5 => exact scalar_result rfl (sub_eq_ofInt _ _)
  case refine_6 => exact scalar_result rfl (shiftLeft_add_eq _ _ 1)
  case refine_7 => exact scalar_result rfl (shiftLeft_add_eq _ _ 2)
  case refine_8 => exact scalar_result rfl (shiftLeft_add_eq _ _ 3)
  case refine_9 => exact scalar_result rfl (zext32_add_eq _ _)
  case refine_10 => exact scalar_result rfl (zext32_shiftLeft_add_eq _ _ 1)
  case refine_11 => exact scalar_result rfl (zext32_shiftLeft_add_eq _ _ 2)
  case refine_12 => exact scalar_result rfl (zext32_shiftLeft_add_eq _ _ 3)
  case refine_13 => exact scalar_result rfl (zext32_shiftLeft_eq _ _)
  case refine_14 => exact scalar_result rfl (mul_eq_ofInt _ _)
  case refine_15 => exact scalar_result rfl (mulh_eq _ _)
  case refine_16 => exact scalar_result rfl (mulhsu_eq _ _)
  case refine_17 => exact scalar_result rfl (mulhu_eq _ _)
  case refine_18 => exact scalar_result rfl (by rw [divSigned, sdiv_eq_ofInt]; rfl)
  case refine_19 => exact scalar_result rfl (by rw [divUnsigned, udiv_eq_ofNat]; rfl)
  case refine_20 => exact scalar_result rfl (by rw [remSigned, srem_eq_ofInt]; rfl)
  case refine_21 => exact scalar_result rfl (by rw [remUnsigned, umod_eq_ofNat]; rfl)
  case refine_22 =>
    simp only [← low32_toInt, ← low32_toNat]
    refine ⟨?_, ?_, ?_, ?_, ?_, ?_, ?_, ?_⟩
    · exact scalar_result rfl (addiw_eq _ imm)
    · exact scalar_result rfl (by rw [add_eq_ofInt, signExtend_ofInt]; rfl)
    · exact scalar_result rfl (by rw [sub_eq_ofInt, signExtend_ofInt]; rfl)
    · exact scalar_result rfl (by rw [mul_eq_ofInt, signExtend_ofInt]; rfl)
    · exact scalar_result rfl (divw_eq _ _)
    · exact scalar_result rfl (divuw_eq _ _)
    · exact scalar_result rfl (remw_eq _ _)
    · exact scalar_result rfl (remuw_eq _ _)

end Sys2Proof.Machine

namespace Sys2Proof.Machine
open Sys2Proof

/-! ## Comparisons -/

theorem boolWord_slt (a b : Word) : boolWord (a.slt b) = if a.toInt < b.toInt then 1#64 else 0#64 := by
  simp only [boolWord, BitVec.slt_iff_toInt_lt]

theorem boolWord_ult (a b : Word) : boolWord (a.ult b) = if a.toNat < b.toNat then 1#64 else 0#64 := by
  simp only [boolWord, BitVec.ult_iff_lt, BitVec.lt_def]

theorem immWord_toInt (imm : BitVec 12) : (immWord imm).toInt = imm.toInt :=
  BitVec.toInt_signExtend_of_le (by decide)

theorem min_eq_ofInt (a b : Word) : (if b.slt a then b else a) = BitVec.ofInt 64 (min a.toInt b.toInt) := by
  simp only [BitVec.slt_iff_toInt_lt]
  split
  · next lt => rw [min_eq_right lt.le, BitVec.ofInt_toInt]
  · next le => rw [min_eq_left (not_lt.mp le), BitVec.ofInt_toInt]

theorem max_eq_ofInt (a b : Word) : (if a.slt b then b else a) = BitVec.ofInt 64 (max a.toInt b.toInt) := by
  simp only [BitVec.slt_iff_toInt_lt]
  split
  · next lt => rw [max_eq_right lt.le, BitVec.ofInt_toInt]
  · next le => rw [max_eq_left (not_lt.mp le), BitVec.ofInt_toInt]

theorem minu_eq_ofNat (a b : Word) : (if b.ult a then b else a) = BitVec.ofNat 64 (min a.toNat b.toNat) := by
  simp only [BitVec.ult_iff_lt, BitVec.lt_def]
  split
  · next lt => rw [min_eq_right lt.le, BitVec.ofNat_toNat, BitVec.setWidth_eq]
  · next le => rw [min_eq_left (not_lt.mp le), BitVec.ofNat_toNat, BitVec.setWidth_eq]

theorem maxu_eq_ofNat (a b : Word) : (if a.ult b then b else a) = BitVec.ofNat 64 (max a.toNat b.toNat) := by
  simp only [BitVec.ult_iff_lt, BitVec.lt_def]
  split
  · next lt => rw [max_eq_right lt.le, BitVec.ofNat_toNat, BitVec.setWidth_eq]
  · next le => rw [max_eq_left (not_lt.mp le), BitVec.ofNat_toNat, BitVec.setWidth_eq]

/-! ## Bits of extensions, shifts and rotations -/

/-- A sign extension repeats the top bit. -/
theorem signExtend_bit {w : Nat} (v : BitVec w) (h0 : 0 < w) {k : Nat} (hk : k < 64) :
    (v.signExtend 64).getLsbD k = v.getLsbD (min k (w - 1)) := by
  rw [BitVec.getLsbD_signExtend, BitVec.msb_eq_getLsbD_last]
  by_cases inside : k < w
  · simp [hk, inside, show min k (w - 1) = k by omega]
  · simp [hk, inside, show min k (w - 1) = w - 1 by omega]

theorem immWord_bit (imm : BitVec 12) {k : Nat} (hk : k < 64) : (immWord imm).getLsbD k = imm.getLsbD (min k 11) :=
  signExtend_bit imm (by decide) hk

theorem low32_bit (v : Word) {k : Nat} (hk : k < 32) : (low32 v).getLsbD k = v.getLsbD k := by
  rw [low32, BitVec.getLsbD_extractLsb', Nat.zero_add]; simp [hk]

theorem shiftLeft_bit {w : Nat} (v : BitVec w) (n : Nat) {k : Nat} (hk : k < w) :
    (v <<< n).getLsbD k = (decide (n ≤ k) && v.getLsbD (k - n)) := by
  rw [BitVec.getLsbD_shiftLeft]
  by_cases h : n ≤ k
  · simp [hk, h, Nat.not_lt.mpr h]
  · simp [h, Nat.not_le.mp h]

theorem ushiftRight_bit {w : Nat} (v : BitVec w) (n k : Nat) :
    (v >>> n).getLsbD k = (decide (k + n < w) && v.getLsbD (k + n)) := by
  rw [BitVec.getLsbD_ushiftRight, Nat.add_comm n k]
  by_cases h : k + n < w
  · simp [h]
  · simp [h, BitVec.getLsbD_of_ge _ _ (Nat.not_lt.mp h)]

theorem sshiftRight_bit {w : Nat} (v : BitVec w) (n : Nat) {k : Nat} (hk : k < w) :
    (v.sshiftRight n).getLsbD k = v.getLsbD (min (k + n) (w - 1)) := by
  rw [BitVec.getLsbD_sshiftRight, BitVec.msb_eq_getLsbD_last, Nat.add_comm n k]
  by_cases inside : k + n < w
  · simp [Nat.not_le.mpr hk, inside, show min (k + n) (w - 1) = k + n by omega]
  · simp [Nat.not_le.mpr hk, inside, show min (k + n) (w - 1) = w - 1 by omega]

theorem rotateR_bit {w : Nat} (v : BitVec w) {n k : Nat} (hn : n < w) (hk : k < w) :
    (rotateR v n).getLsbD k = v.getLsbD ((k + n) % w) := by
  rw [rotateR, BitVec.getLsbD_or, ushiftRight_bit, shiftLeft_bit _ _ hk]
  by_cases inside : k + n < w
  · simp [inside, Nat.mod_eq_of_lt inside, show ¬ w - n ≤ k by omega]
  · have wraps : (k + n) % w = k - (w - n) := by
      rw [Nat.mod_eq_sub_mod (Nat.not_lt.mp inside), Nat.mod_eq_of_lt (by omega)]
      omega
    simp [inside, wraps, show w - n ≤ k by omega]

/-- A rotation to the left is one to the right by what is missing to the width. -/
theorem rotateL_eq_rotateR {w : Nat} (v : BitVec w) {n : Nat} (hn : n ≤ w) : rotateL v n = rotateR v (w - n) := by
  rw [rotateL, rotateR, BitVec.or_comm, Nat.sub_sub_self hn]

theorem rotateL_bit {w : Nat} (v : BitVec w) {n k : Nat} (hn : n < w) (hk : k < w) :
    (rotateL v n).getLsbD k = v.getLsbD ((k + w - n) % w) := by
  rw [rotateL_eq_rotateR v hn.le]
  by_cases zero : n = 0
  · subst zero
    simp [rotateR, Nat.mod_eq_of_lt hk]
  · rw [rotateR_bit v (by omega) hk, Nat.add_sub_assoc hn.le]

theorem not_bit {w : Nat} (v : BitVec w) {k : Nat} (hk : k < w) : (~~~v).getLsbD k = !v.getLsbD k := by
  rw [BitVec.getLsbD_not]; simp [hk]

theorem lowExtend_bit (v : Word) {w : Nat} (h0 : 0 < w) (h : w ≤ 64) {k : Nat} (hk : k < 64) :
    ((v.extractLsb' 0 w).signExtend 64).getLsbD k = v.getLsbD (min k (w - 1)) := by
  rw [signExtend_bit _ h0 hk, BitVec.getLsbD_extractLsb', Nat.zero_add]
  simp [show min k (w - 1) < w by omega]

theorem zextH_bit (v : Word) {k : Nat} (hk : k < 64) :
    ((v.extractLsb' 0 16).zeroExtend 64).getLsbD k = (decide (k < 16) && v.getLsbD k) := by
  rw [BitVec.zeroExtend, BitVec.getLsbD_setWidth, BitVec.getLsbD_extractLsb', Nat.zero_add]
  simp [hk]

/-! ## Bits of the 32-bit shifts and rotations, whose result is sign-extended -/

theorem extended_bit (v : BitVec 32) {k : Nat} (hk : k < 64) : (v.signExtend 64).getLsbD k = v.getLsbD (low31 k) :=
  signExtend_bit v (by decide) hk

theorem low31_lt (k : Nat) : low31 k < 32 := by unfold low31; omega

theorem slliw_bit (v : Word) (n : Nat) {k : Nat} (hk : k < 64) :
    ((low32 v <<< n).signExtend 64).getLsbD k = (decide (n ≤ low31 k) && v.getLsbD (low31 k - n)) := by
  have lt := low31_lt k
  rw [extended_bit _ hk, shiftLeft_bit _ _ lt, low32_bit v (by omega)]

theorem srliw_bit (v : Word) (n : Nat) {k : Nat} (hk : k < 64) :
    ((low32 v >>> n).signExtend 64).getLsbD k = (decide (low31 k + n < 32) && v.getLsbD (low31 k + n)) := by
  rw [extended_bit _ hk, ushiftRight_bit]
  by_cases inside : low31 k + n < 32
  · rw [low32_bit v inside]
  · simp only [inside, decide_false, Bool.false_and]

theorem sraiw_bit (v : Word) (n : Nat) {k : Nat} (hk : k < 64) :
    (((low32 v).sshiftRight n).signExtend 64).getLsbD k = v.getLsbD (min (low31 k + n) 31) := by
  rw [extended_bit _ hk, sshiftRight_bit _ _ (low31_lt k), low32_bit v (by omega)]

theorem roriw_bit (v : Word) {n k : Nat} (hn : n < 32) (hk : k < 64) :
    ((rotateR (low32 v) n).signExtend 64).getLsbD k = v.getLsbD ((low31 k + n) % 32) := by
  rw [extended_bit _ hk, rotateR_bit _ hn (low31_lt k), low32_bit v (Nat.mod_lt _ (by decide))]

theorem roliw_bit (v : Word) {n k : Nat} (hn : n < 32) (hk : k < 64) :
    ((rotateL (low32 v) n).signExtend 64).getLsbD k = v.getLsbD ((low31 k + 32 - n) % 32) := by
  rw [extended_bit _ hk, rotateL_bit _ hn (low31_lt k), low32_bit v (Nat.mod_lt _ (by decide))]

/-! ## Shift amounts -/

theorem shamt6_eq (v : Word) : shamt6 v = v.toNat % 64 := BitVec.extractLsb'_toNat ..
theorem shamt5_eq (v : Word) : shamt5 v = v.toNat % 32 := BitVec.extractLsb'_toNat ..

/-! ## Bytes of a word -/

theorem bytesToNat_testBit (l : List Byte) (k : Nat) :
    (bytesToNat l).testBit k = (l.getD (k / 8) 0#8).getLsbD (k % 8) := by
  induction l generalizing k with
  | nil => simp [bytesToNat]
  | cons b l ih =>
    have join : bytesToNat (b :: l) = 2 ^ 8 * bytesToNat l + b.toNat := Nat.add_comm ..
    rw [join, Nat.testBit_two_pow_mul_add _ b.isLt]
    by_cases low : k < 8
    · rw [if_pos low, Nat.div_eq_of_lt low, Nat.mod_eq_of_lt low, BitVec.testBit_toNat]; rfl
    · have next : k / 8 = (k - 8) / 8 + 1 := by omega
      rw [if_neg low, ih, next, List.getD_cons_succ, show (k - 8) % 8 = k % 8 by omega]

theorem ofWordBytes_bit (l : List Byte) {k : Nat} (hk : k < 64) :
    (ofWordBytes l).getLsbD k = (l.getD (k / 8) 0#8).getLsbD (k % 8) := by
  rw [ofWordBytes, wordOf, BitVec.getLsbD_ofNat, bytesToNat_testBit]; simp [hk]

/-- Byte j of a word. -/
theorem wordBytes_eq (v : Word) : wordBytes v = (List.range 8).map fun j => v.extractLsb' (8 * j) 8 := by
  refine List.map_congr_left fun j _ => BitVec.eq_of_toNat_eq ?_
  rw [BitVec.toNat_ofNat, BitVec.extractLsb'_toNat, Nat.shiftRight_eq_div_pow, Nat.pow_mul]

theorem wordBytes_getD (v : Word) {j : Nat} (hj : j < 8) : (wordBytes v).getD j 0#8 = v.extractLsb' (8 * j) 8 := by
  rw [wordBytes_eq, List.getD_eq_getElem?_getD]; simp [hj]

theorem wordBytes_length (v : Word) : (wordBytes v).length = 8 := by rw [wordBytes_eq]; simp

theorem rev8_bit (v : Word) {k : Nat} (hk : k < 64) :
    (ofWordBytes (wordBytes v).reverse).getLsbD k = v.getLsbD (8 * (7 - k / 8) + k % 8) := by
  have hj : k / 8 < 8 := by omega
  have mirrored : (wordBytes v).reverse.getD (k / 8) 0#8 = (wordBytes v).getD (7 - k / 8) 0#8 := by
    rw [List.getD_eq_getElem?_getD, List.getD_eq_getElem?_getD,
      List.getElem?_reverse (by rw [wordBytes_length]; exact hj), wordBytes_length]
  rw [ofWordBytes_bit _ hk, mirrored, wordBytes_getD v (by omega), BitVec.getLsbD_extractLsb']
  simp [Nat.mod_lt]

/-- A byte is not zero if one of its bits is set. -/
theorem byte_ne_zero_eq_any (b : Byte) : decide (b ≠ 0#8) = (List.range 8).any fun j => b.getLsbD j := by
  revert b; decide

/-- All ones for a byte that has a bit set, and zero for zero (R89). -/
def spreadByte (b : Byte) : Byte := if b = 0#8 then 0#8 else 0xFF#8

theorem spreadByte_bit (b : Byte) {k : Nat} (hk : k < 8) :
    (spreadByte b).getLsbD k = (List.range 8).any fun j => b.getLsbD j := by
  have ones : ∀ j, j < 8 → (0xFF#8).getLsbD j = true := by decide
  rw [← byte_ne_zero_eq_any, spreadByte]
  split
  · next zero => simp [zero]
  · next set => rw [ones k hk]; exact (decide_eq_true set).symm

theorem orcB_bit (v : Word) {k : Nat} (hk : k < 64) :
    (ofWordBytes ((wordBytes v).map spreadByte)).getLsbD k = (List.range 8).any fun j => v.getLsbD (8 * (k / 8) + j) := by
  have hj : k / 8 < 8 := by omega
  have spread : ((wordBytes v).map spreadByte).getD (k / 8) 0#8 = spreadByte (v.extractLsb' (8 * (k / 8)) 8) := by
    rw [wordBytes_eq, List.getD_eq_getElem?_getD]; simp [hj]
  rw [ofWordBytes_bit _ hk, spread, spreadByte_bit _ (Nat.mod_lt _ (by decide))]
  simp only [BitVec.getLsbD_extractLsb']
  rfl

/-! ## Counts of bits -/

theorem leadingZeros_zerosAbove {w v : Nat} (hv : v < 2 ^ w) : zerosAbove v.testBit w (leadingZeros w v) := by
  unfold leadingZeros
  split
  · next zero => exact ⟨le_rfl, fun k _ => by rw [zero, Nat.zero_testBit], fun lt => absurd lt (lt_irrefl w)⟩
  · next set =>
    have top : Nat.log2 v < w := (Nat.log2_lt set).mpr hv
    refine ⟨by omega, fun k hk => ?_, fun _ => ?_⟩
    · exact Nat.testBit_lt_two_pow ((Nat.log2_lt set).mp (by omega))
    · rw [show w - 1 - (w - 1 - Nat.log2 v) = Nat.log2 v by omega]
      exact Nat.testBit_log2 set

theorem trailingZeros_zerosBelow (w v : Nat) : zerosBelow v.testBit w (trailingZeros w v) := by
  unfold trailingZeros
  cases found : (List.range w).find? fun k => v.testBit k with
  | none =>
    rw [List.find?_eq_none] at found
    exact ⟨le_rfl, fun k hk => by simpa using found k (List.mem_range.mpr hk), fun lt => absurd lt (lt_irrefl w)⟩
  | some n =>
    rw [List.find?_range_eq_some] at found
    obtain ⟨set, lt, below⟩ := found
    exact ⟨(List.mem_range.mp lt).le, fun k hk => by simpa using below k hk, fun _ => set⟩

/-- A statement about the low w bits of f says the same of any g that agrees with it there. -/
theorem zerosAbove_congr {f g : Nat → Bool} {w n : Nat} (h : ∀ k, k < w → f k = g k) (z : zerosAbove f w n) :
    zerosAbove g w n := by
  obtain ⟨le, clear, top⟩ := z
  exact ⟨le, fun k hk => h (w - 1 - k) (by omega) ▸ clear k hk, fun lt => h (w - 1 - n) (by omega) ▸ top lt⟩

theorem zerosBelow_congr {f g : Nat → Bool} {w n : Nat} (h : ∀ k, k < w → f k = g k) (z : zerosBelow f w n) :
    zerosBelow g w n := by
  obtain ⟨le, clear, top⟩ := z
  exact ⟨le, fun k hk => h k (by omega) ▸ clear k hk, fun lt => h n lt ▸ top lt⟩

theorem zerosAbove_toNat {w : Nat} (v : BitVec w) : zerosAbove v.getLsbD w (leadingZeros w v.toNat) :=
  zerosAbove_congr (fun _ _ => BitVec.testBit_toNat v) (leadingZeros_zerosAbove v.isLt)

theorem zerosBelow_toNat {w : Nat} (v : BitVec w) : zerosBelow v.getLsbD w (trailingZeros w v.toNat) :=
  zerosBelow_congr (fun _ _ => BitVec.testBit_toNat v) (trailingZeros_zerosBelow w v.toNat)

theorem bitCount_congr {f : Nat → Bool} {w v : Nat} (h : ∀ k, k < w → v.testBit k = f k) :
    bitCount w v = ((List.range w).filter f).length :=
  congrArg List.length (List.filter_congr fun k hk => h k (List.mem_range.mp hk))

/-- Settles O5: each instruction is a value for rd, given by its comparison, by its bits or by its count. -/
theorem scalarLogicAndShifts : Obligations.ScalarLogicAndShifts := by
  unfold Obligations.ScalarLogicAndShifts
  refine ⟨⟨fun s rd rs1 rs2 imm => ⟨?_, ?_, ?_, ?_, ?_, ?_, ?_, ?_, ?_, ?_⟩,
    fun s rd rs1 rs2 imm => ⟨?_, ?_, ?_, ?_, ?_, ?_, ?_, ?_, ?_, ?_, ?_, ?_, ?_, ?_, ?_, ?_, ?_, ?_, ?_, ?_⟩⟩,
    fun s rd rs1 rs2 sh sh5 => ⟨?_, ?_, ?_, ?_, ?_, ?_, ?_, ?_, ?_, ?_, ?_, ?_, ?_, ?_, ?_, ?_, ?_, ?_⟩⟩
  case refine_1 => exact scalar_result rfl (immWord_toInt imm ▸ boolWord_slt _ _)
  case refine_2 => exact scalar_result rfl (boolWord_ult _ _)
  case refine_3 => exact scalar_result rfl (boolWord_slt _ _)
  case refine_4 => exact scalar_result rfl (boolWord_ult _ _)
  case refine_5 => exact scalar_result rfl (min_eq_ofInt _ _)
  case refine_6 => exact scalar_result rfl (minu_eq_ofNat _ _)
  case refine_7 => exact scalar_result rfl (max_eq_ofInt _ _)
  case refine_8 => exact scalar_result rfl (maxu_eq_ofNat _ _)
  case refine_9 => exact scalar_result rfl rfl
  case refine_10 => exact scalar_result rfl (ite_not ..).symm
  case refine_11 => exact scalar_bits rfl fun k hk => by rw [BitVec.getLsbD_and, immWord_bit imm hk]; rfl
  case refine_12 => exact scalar_bits rfl fun k hk => by rw [BitVec.getLsbD_or, immWord_bit imm hk]; rfl
  case refine_13 => exact scalar_bits rfl fun k hk => by rw [BitVec.getLsbD_xor, immWord_bit imm hk]; rfl
  case refine_14 => exact scalar_bits rfl fun k _ => BitVec.getLsbD_and
  case refine_15 => exact scalar_bits rfl fun k _ => BitVec.getLsbD_or
  case refine_16 => exact scalar_bits rfl fun k _ => BitVec.getLsbD_xor
  case refine_17 => exact scalar_bits rfl fun k hk => by rw [BitVec.getLsbD_and, not_bit _ hk]; rfl
  case refine_18 => exact scalar_bits rfl fun k hk => by rw [BitVec.getLsbD_or, not_bit _ hk]; rfl
  case refine_19 =>
    refine scalar_bits rfl fun k hk => ?_
    rw [not_bit _ hk, BitVec.getLsbD_xor, ← Bool.bne_eq_xor, bne, Bool.not_not]
    rfl
  case refine_20 => exact scalar_bits rfl fun k hk => lowExtend_bit _ (by decide) (by decide) hk
  case refine_21 => exact scalar_bits rfl fun k hk => lowExtend_bit _ (by decide) (by decide) hk
  case refine_22 => exact scalar_bits rfl fun k hk => zextH_bit _ hk
  case refine_23 => exact scalar_bits rfl fun k hk => rev8_bit _ hk
  case refine_24 => exact scalar_bits rfl fun k hk => orcB_bit _ hk
  case refine_25 => exact scalar_count rfl (zerosAbove_toNat _)
  case refine_26 => exact scalar_count rfl (zerosAbove_congr (fun k hk => low32_bit _ hk) (zerosAbove_toNat _))
  case refine_27 => exact scalar_count rfl (zerosBelow_toNat _)
  case refine_28 => exact scalar_count rfl (zerosBelow_congr (fun k hk => low32_bit _ hk) (zerosBelow_toNat _))
  case refine_29 => exact scalar_count rfl (bitCount_congr fun k _ => BitVec.testBit_toNat ..)
  case refine_30 => exact scalar_count rfl (bitCount_congr fun k hk => (BitVec.testBit_toNat ..).trans (low32_bit _ hk))
  case refine_31 => exact scalar_bits rfl fun k hk => shiftLeft_bit _ _ hk
  case refine_32 => exact scalar_bits rfl fun k _ => ushiftRight_bit _ _ k
  case refine_33 => exact scalar_bits rfl fun k hk => sshiftRight_bit _ _ hk
  case refine_34 => exact scalar_bits rfl fun k hk => rotateR_bit _ sh.isLt hk
  case refine_35 => exact shamt6_eq _ ▸ scalar_bits rfl fun k hk => shiftLeft_bit _ _ hk
  case refine_36 => exact shamt6_eq _ ▸ scalar_bits rfl fun k _ => ushiftRight_bit _ _ k
  case refine_37 => exact shamt6_eq _ ▸ scalar_bits rfl fun k hk => sshiftRight_bit _ _ hk
  case refine_38 => exact shamt6_eq _ ▸ scalar_bits rfl fun k hk => rotateL_bit _ (BitVec.isLt _) hk
  case refine_39 => exact shamt6_eq _ ▸ scalar_bits rfl fun k hk => rotateR_bit _ (BitVec.isLt _) hk
  case refine_40 => exact scalar_bits rfl fun k hk => slliw_bit _ _ hk
  case refine_41 => exact scalar_bits rfl fun k hk => srliw_bit _ _ hk
  case refine_42 => exact scalar_bits rfl fun k hk => sraiw_bit _ _ hk
  case refine_43 => exact scalar_bits rfl fun k hk => roriw_bit _ sh5.isLt hk
  case refine_44 => exact shamt5_eq _ ▸ scalar_bits rfl fun k hk => slliw_bit _ _ hk
  case refine_45 => exact shamt5_eq _ ▸ scalar_bits rfl fun k hk => srliw_bit _ _ hk
  case refine_46 => exact shamt5_eq _ ▸ scalar_bits rfl fun k hk => sraiw_bit _ _ hk
  case refine_47 => exact shamt5_eq _ ▸ scalar_bits rfl fun k hk => roliw_bit _ (BitVec.isLt _) hk
  case refine_48 => exact shamt5_eq _ ▸ scalar_bits rfl fun k hk => roriw_bit _ (BitVec.isLt _) hk

end Sys2Proof.Machine

namespace Sys2Proof.Machine
open Sys2Proof

/-! ## What a scalar access waits for -/

theorem ownParty_apply (s : State) : ownParty s = .ok s.party s := rfl

theorem waitOlder_ok {s : State} (h : s.hart.memoryQueued = false) : waitOlder s = .ok () s := by
  unfold waitOlder
  rw [M.bind_ok (getH_apply s)]
  simp [h]

section
variable {s : State} (d : s.direct)
include d

theorem State.direct.older : s.hart.memoryQueued = false := d.1
theorem State.direct.idle : s.hart.streamsIdle := d.2.1
theorem State.direct.outside : s.hart.tx = none := d.2.2
end

theorem inTx_outside {s : State} (p : Party) (h : s.hart.tx = none) : s.inTx p = false := by
  simp [State.inTx, h]

/-- A release has nothing to wait for at a narrower scope than the system's, or where nothing is outstanding beyond the
device (R179, R401, R408). -/
theorem releaseOf_ok {s : State} {scope : Nat} (peers : Bool) (h : scope ≠ 5 ∨ s.released) :
    releaseOf scope peers s = .ok () s := by
  unfold releaseOf
  by_cases system : scope = 5
  · obtain ⟨requests, clean⟩ := h.resolve_left (not_not.mpr system)
    have none_write : (s.dev.requests.any fun r => r.write) = false := by
      rw [List.any_eq_false]
      intro r hr
      have := List.all_eq_true.mp requests r hr
      simpa using this
    rw [if_pos system, M.bind_ok (M.get_apply s)]
    simp [none_write, clean]
  · rw [if_neg system]
    rfl

theorem releaseBit_ok {s : State} {rl : BitVec 1} {scope : Nat} (d : s.direct) (h : rl = 0#1 ∨ scope ≠ 5 ∨ s.released) :
    releaseBit rl scope s = .ok () s := by
  obtain ⟨older, idle, -⟩ := d
  unfold releaseBit
  rw [M.bind_ok (getH_apply s)]
  split
  · next set =>
    have free : scope ≠ 5 ∨ s.released := h.resolve_left fun zero => absurd (zero.symm.trans set.1) (by decide)
    unfold scalarRelease
    rw [M.bind_ok (waitOlder_ok older), M.bind_ok (ownParty_apply s), M.bind_ok (settleStreams_idle idle)]
    exact releaseOf_ok true free
  · rfl

/-! ## Translations of a hart's own accesses -/

/-- An entry that leaves the TLBs is no change of the hart. -/
theorem noteDrop_hart (s : State) (k : Option CoreId) (m : Option ClusterId) (e : TlbEntry) :
    (s.noteTlb (.drop k m e)).hart = s.hart := by
  rcases noteTlb_cases s (.drop k m e) with h | h <;> rw [h]
  exact modTlbs_hart ..

/-- A walk that a hart makes for itself changes nothing of it (R94, R207). -/
theorem noteFill_hart (s : State) (k : Option CoreId) (m : Option ClusterId) (e : TlbEntry) (addr : Nat) (bits : Word) :
    (s.noteTlb (.fill k m e addr bits (some s.hart.id))).hart = s.hart := by
  rcases noteTlb_cases s (.fill k m e addr bits (some s.hart.id)) with h | h <;> rw [h]
  show (s.walked (.fill k m e addr bits (some s.hart.id))).hart = s.hart
  rw [State.walked, modTlbs_hart]
  split
  · rfl
  · exact if_pos rfl

theorem walk_hart {s t : State} {c : TransCtx} {l : Nat} {va : Word} {a : Access} {x : Translation}
    (own : c.self = some s.hart.id) (h : walk s c l va a = .ok (x, t)) : t.hart = s.hart := by
  unfold walk at h
  dsimp only at h
  split at h
  · split at h
    · cases h
      rw [own]
      exact noteFill_hart ..
    · cases h
  · cases h
  · cases h

theorem translate_hart {s t : State} {c : TransCtx} {va : Word} {a : Access} {x : Translation}
    (own : c.self = some s.hart.id) (h : translate s c va a = .ok (x, t)) : t.hart = s.hart := by
  unfold translate at h
  split at h
  · split at h
    · cases h
      rfl
    · cases h
  · split at h
    · cases h
    · split at h
      · split at h
        · next e _ =>
          split at h
          · cases h
            rfl
          · have dropped := noteDrop_hart s c.core c.cluster e
            exact (walk_hart (dropped.symm ▸ own) h).trans dropped
        · exact walk_hart own h
      · cases h

/-- A translation that fails has at most dropped the entry that denied the access (R261). -/
theorem translate_failed {s t : State} {c : TransCtx} {va : Word} {a : Access} {f : MemFault}
    (h : translate s c va a = .error (f, t)) : t = s ∨ ∃ e, t = s.noteTlb (.drop c.core c.cluster e) := by
  unfold translate at h
  split at h
  · split at h <;> cases h
    exact .inl rfl
  · split at h
    · cases h
      exact .inl rfl
    · split at h
      · split at h
        · split at h
          · cases h
          · exact .inr ⟨_, walk_error h⟩
        · exact .inl (walk_error h)
      · cases h
        exact .inl rfl

/-- What one note of the walker has done stays done when the instruction ends early. -/
theorem keepWalks_note (s : State) (w : WalkNote) : s.keepWalks (s.noteTlb w) = s.noteTlb w := by
  rcases noteTlb_cases s w with idle | noted
  · rw [idle, keepWalks_self]
  · have walks : (s.noteTlb w).walks.drop s.walks.length = [w] := by
      rw [noted, List.drop_left]
    rw [State.keepWalks, walks]
    rfl

theorem translate_failed_keeps {s t : State} {c : TransCtx} {va : Word} {a : Access} {f : MemFault}
    (h : translate s c va a = .error (f, t)) : s.keepWalks t = t ∧ t.hart = s.hart := by
  rcases translate_failed h with rfl | ⟨e, rfl⟩
  · exact ⟨keepWalks_self t, rfl⟩
  · exact ⟨keepWalks_note s _, noteDrop_hart ..⟩

/-! ## Accesses that the scalar stream makes at once -/

/-- A mapped access leaves the hart as it was and the state's memory well-formed. -/
theorem maps_kept {s t : State} {a : Access} {va : Word} {n pa : Nat} (h : s.maps a va n pa t) :
    t.hart = s.hart ∧ (s.Inv → t.Inv) := by
  obtain ⟨-, -, -, ⟨skew, tr⟩, -⟩ := h
  exact ⟨translate_hart rfl tr, fun i => translate_keeps_wf i tr⟩

theorem maps_translateM {s t : State} {a : Access} {va : Word} {n pa : Nat} (h : s.maps a va n pa t) :
    ∃ skew, translateM s.party.ctx va a s = .ok { pa := pa, skew := skew } t := by
  obtain ⟨-, -, -, ⟨skew, tr⟩, -⟩ := h
  exact ⟨skew, translateM_ok tr⟩

/-- A load of mapped bytes that are free of poison, by the hart itself. -/
theorem loadVa_direct {s t : State} {va : Word} {n pa : Nat} (d : s.direct) (r : s.readable va n pa t) :
    loadVa s.party va .load n s = .ok (t.mem.read pa n) t := by
  obtain ⟨-, idle, tx⟩ := d
  obtain ⟨m, clean⟩ := r
  have hart := (maps_kept m).1
  obtain ⟨h0, h1, -, ⟨skew, tr⟩, served⟩ := m
  exact loadVa_readable (x := ⟨pa, skew⟩) idle h0 h1 tr served clean (inTx_outside _ (hart ▸ tx))

/-! ## Ends of an instruction in a state that differs from the first one's -/

/-- What t and s have in common is all that a statement about registers and the pc asks of them. -/
theorem setsReg_movesOn_of {s t u : State} {rd : Reg} {v : Word} {n : Nat} (hx : t.hart.x = s.hart.x)
    (hpc : t.hart.pc = s.hart.pc) (h : setsReg t u rd v ∧ movesOn t u n) : setsReg s u rd v ∧ movesOn s u n := by
  rw [setsReg_congr hx] at h
  rwa [movesOn, hpc] at h

/-- An effect that makes t of s, with the registers and the pc that s had, and then writes rd and moves on. -/
theorem runScalar_writes_from {m : M Unit} {s t : State} {rd : Reg} {v : Word} (hx : t.hart.x = s.hart.x)
    (hpc : t.hart.pc = s.hart.pc) (h : m s = .ok () ((t.wx rd v).advance 4)) :
    reaches (runScalar m s) fun u => setsReg s u rd v ∧ movesOn s u 4 ∧ scalarOnly t u := by
  obtain ⟨u, ran, regs, pc, rest⟩ := runScalar_writes t rd v h
  obtain ⟨regs, pc⟩ := setsReg_movesOn_of hx hpc ⟨regs, pc⟩
  exact ⟨u, ran, regs, pc, rest⟩

/-- An effect that makes t of s, with the registers and the pc that s had, and then moves on. -/
theorem runScalar_moves_from {m : M Unit} {s t : State} (hx : t.hart.x = s.hart.x) (hpc : t.hart.pc = s.hart.pc)
    (h : m s = .ok () (t.advance 4)) : reaches (runScalar m s) fun u => sameRegs s u ∧ movesOn s u 4 ∧ scalarOnly t u := by
  obtain ⟨u, ran, regs, pc, rest⟩ := runScalar_moves t h
  exact ⟨u, ran, regs.trans hx, by rwa [movesOn, ← hpc], rest⟩

/-! ## What a store of the hart's own leaves -/

/-- The state after a store by the hart of n bytes in one line: the bytes, the poison of their sectors, and the line's
marks (R94, R207, R211, R382). -/
def State.stored (t : State) (pa n v : Nat) : State :=
  { t with
    mem := t.mem.write pa n v, poison := clearPoison t.poison pa n, inbox := t.inbox ++ t.wakesOf (pa / 128),
    hart := { t.hart with reservation := t.hart.reservation.filter fun r => r.line ≠ pa / 128 },
    others := t.others.map fun h => h.seesWrite t.dev.coarse (some t.hart.id) (pa / 128) }

theorem physStore_direct {t : State} {pa n : Nat} (v : Nat) (tx : t.hart.tx = none) (h0 : 0 < n) (h1 : pa % 128 + n ≤ 128) :
    t.physStore (some t.hart.id) pa n v = t.stored pa n v := by
  rw [physStore_one_line h0 h1, State.stored, ← seesWrite_outside t.dev.coarse (some t.hart.id) (pa / 128) tx]
  rfl

theorem scalarOnly_stored {t u : State} {pa n v : Nat} (i : t.Inv) (h : scalarOnly (t.stored pa n v) u) :
    u.mem.read pa n = v % 256 ^ n ∧ sameBytesBut t u pa n ∧ storeOnly t u (pa / 128) := by
  have mem : u.mem = t.mem.write pa n v := by rw [h]; rfl
  have marks : storeOnly t u (pa / 128) := by
    rw [h]
    exact ⟨rfl, rfl, fun k hk => List.mem_of_mem_filter hk⟩
  refine ⟨?_, fun a out => ?_, marks⟩
  · rw [mem, Memory.read_write_same pa n v i]
  · rw [mem, Memory.get_write_outside pa n v a out i]

/-- An effect that stores, writes rd and moves on. -/
theorem runScalar_stores {m : M Unit} {s t : State} {pa n v : Nat} {rd : Reg} {x : Word} (hart : t.hart = s.hart) (i : t.Inv)
    (h : m s = .ok () (((t.stored pa n v).wx rd x).advance 4)) : reaches (runScalar m s) fun u =>
      setsReg s u rd x ∧ movesOn s u 4 ∧ u.mem.read pa n = v % 256 ^ n ∧ sameBytesBut t u pa n ∧ storeOnly t u (pa / 128) := by
  obtain ⟨u, ran, regs, pc, rest⟩ :=
    runScalar_writes_from (t := t.stored pa n v) (by rw [← hart]; rfl) (by rw [← hart]; rfl) h
  exact ⟨u, ran, regs, pc, scalarOnly_stored i rest⟩

/-- An effect that stores and moves on. -/
theorem runScalar_stores_only {m : M Unit} {s t : State} {pa n v : Nat} (hart : t.hart = s.hart) (i : t.Inv)
    (h : m s = .ok () ((t.stored pa n v).advance 4)) : reaches (runScalar m s) fun u =>
      u.mem.read pa n = v % 256 ^ n ∧ sameBytesBut t u pa n ∧ sameRegs s u ∧ movesOn s u 4 ∧ storeOnly t u (pa / 128) := by
  obtain ⟨u, ran, regs, pc, rest⟩ :=
    runScalar_moves_from (t := t.stored pa n v) (by rw [← hart]; rfl) (by rw [← hart]; rfl) h
  obtain ⟨bytes, others, marks⟩ := scalarOnly_stored i rest
  exact ⟨u, ran, bytes, others, regs, pc, marks⟩

/-- A store of mapped bytes by the hart itself. -/
theorem storeVa_direct {s t : State} {va : Word} {n pa : Nat} (v : Nat) (d : s.direct) (w : s.writable va n pa t) :
    storeVa s.party va n v s = .ok () (t.stored pa n v) := by
  obtain ⟨-, idle, tx⟩ := d
  obtain ⟨m, free⟩ := w
  have hart := (maps_kept m).1
  obtain ⟨h0, h1, line, ⟨skew, tr⟩, served⟩ := m
  have outside : t.hart.tx = none := hart ▸ tx
  rw [← physStore_direct v outside h0 (by omega), hart]
  exact storeVa_writable (x := ⟨pa, skew⟩) idle h0 h1 tr line served free (inTx_outside _ outside)

/-! ## Loads and stores (R92) -/

theorem addressOf_eq (s : State) (rs1 : Reg) (imm : BitVec 12) : s.hart.rx rs1 + immWord imm = s.addressOf rs1 imm :=
  add_immWord_eq _ imm

theorem decodeInt_unsigned (n x : Nat) : BitVec.ofInt 64 (decodeInt false (8 * n) x) = unsignedBytes n x := by
  rw [unsignedBytes, ← BitVec.ofInt_natCast]
  simp [decodeInt, Nat.pow_mul]

theorem decodeInt_signed_eq_bmod (w x : Nat) : decodeInt true w x = Int.bmod x (2 ^ w) := by
  unfold decodeInt Int.bmod
  rw [← Int.natCast_mod]
  generalize x % 2 ^ w = r
  generalize 2 ^ w = m
  simp only [Bool.true_and, decide_eq_true_eq]
  split <;> split <;> omega

theorem decodeInt_signed (n x : Nat) : BitVec.ofInt 64 (decodeInt true (8 * n) x) = signedBytes n x := by
  rw [signedBytes, decodeInt_signed_eq_bmod, Nat.pow_mul]

theorem loadOp_result {i : Instr} {s : State} {rd rs1 : Reg} {imm : BitVec 12} {n : Nat} {signed : Bool} {f : Nat → Word}
    (d : s.direct) (run : exec i s = runScalar (loadOp rd rs1 imm n signed) s)
    (value : ∀ x, BitVec.ofInt 64 (decodeInt signed (8 * n) x) = f x) : loadResult i s rd (s.addressOf rs1 imm) n f := by
  intro pa t r
  have hart := (maps_kept r.1).1
  rw [run]
  refine runScalar_writes_from (congrArg Hart.x hart) (congrArg Hart.pc hart) ?_
  unfold loadOp
  rw [M.bind_ok (waitOlder_ok d.older), M.bind_ok (ownParty_apply s), M.bind_ok (readX_apply rs1 s), addressOf_eq,
    M.bind_ok (loadVa_direct d r), value]
  rfl

theorem storeOp_result {i : Instr} {s : State} {rs1 rs2 : Reg} {imm : BitVec 12} {n : Nat} (inv : s.Inv) (d : s.direct)
    (run : exec i s = runScalar (storeOp rs1 rs2 imm n) s) :
    storeResult i s (s.addressOf rs1 imm) n (s.hart.rx rs2).toNat := by
  intro pa t w
  obtain ⟨hart, keeps⟩ := maps_kept w.1
  rw [run]
  refine runScalar_stores_only hart (keeps inv) ?_
  unfold storeOp
  rw [M.bind_ok (waitOlder_ok d.older), M.bind_ok (ownParty_apply s), M.bind_ok (readX_apply rs1 s), addressOf_eq,
    M.bind_ok (readX_apply rs2 s), M.bind_ok (storeVa_direct _ d w)]
  rfl

/-- Settles O10: every load and every store is the shared one, which goes to memory at once. -/
theorem scalarLoadsAndStores : Obligations.ScalarLoadsAndStores := by
  unfold Obligations.ScalarLoadsAndStores
  refine ⟨fun s rd rs1 imm d => ⟨?_, ?_, ?_, ?_, ?_, ?_, ?_⟩, fun s rs1 rs2 imm inv d => ⟨?_, ?_, ?_, ?_⟩⟩
  case refine_1 => exact loadOp_result d rfl (decodeInt_signed 1)
  case refine_2 => exact loadOp_result d rfl (decodeInt_signed 2)
  case refine_3 => exact loadOp_result d rfl (decodeInt_signed 4)
  case refine_4 => exact loadOp_result d rfl (decodeInt_signed 8)
  case refine_5 => exact loadOp_result d rfl (decodeInt_unsigned 1)
  case refine_6 => exact loadOp_result d rfl (decodeInt_unsigned 2)
  case refine_7 => exact loadOp_result d rfl (decodeInt_unsigned 4)
  all_goals exact storeOp_result inv d rfl

end Sys2Proof.Machine

namespace Sys2Proof.Machine
open Sys2Proof

/-! ## Accesses that fail (R92, R93, R256, R258) -/

/-- A scalar instruction whose access fails takes the fault of the access from the state that its translations have left. -/
theorem trapsFrom_of_mem {i : Instr} {m : M Unit} {s t : State} {f : MemFault} {cause : Nat} {tval : Word}
    (run : exec i s = runScalar m s) (h : m s = .error (.mem f) t) (kept : s.keepWalks t = t) (hart : t.hart = s.hart)
    (fault : f.trap = { cause := cause, tval := tval, vf := none }) (here : s.trapsHere cause tval) :
    trapsFrom i s t cause tval := by
  have there : t.trapsHere cause tval := by rwa [State.trapsHere, hart]
  refine ⟨t.fault { cause := cause, tval := tval, vf := none } t.hart.pc, ?_, fault_entersS t cause tval there⟩
  rw [run, runScalar_error h, State.ended, kept, fault]

theorem pieces_first (va : Word) {n : Nat} (h0 : 0 < n) : ∃ k l, pieces va n = (va, k) :: l := by
  unfold pieces piecesFrom
  rw [if_neg (by omega)]
  exact ⟨_, _, rfl⟩

theorem locate_failed {s t : State} {p : Party} {va : Word} {a : Access} {n : Nat} {f : MemFault} (natural : Bool)
    (h0 : 0 < n) (h : translate s p.ctx va a = .error (f, t)) : locate p a natural (pieces va n) s = .error (.mem f) t := by
  obtain ⟨k, l, first⟩ := pieces_first va h0
  rw [first, locate]
  exact M.bind_error (translateM_error h)

theorem loadVa_failed {s t : State} {va : Word} {n : Nat} {f : MemFault} (d : s.direct) (h0 : 0 < n)
    (h : translate s s.hart.ctx va .load = .error (f, t)) : loadVa s.party va .load n s = .error (.mem f) t := by
  unfold loadVa
  rw [M.bind_ok (settleStreams_idle d.idle)]
  exact M.bind_error (locate_failed _ h0 h)

theorem storeVa_failed {s t : State} {va : Word} {n v : Nat} {f : MemFault} (d : s.direct) (h0 : 0 < n)
    (h : translate s s.hart.ctx va .store = .error (f, t)) : storeVa s.party va n v s = .error (.mem f) t := by
  unfold storeVa
  rw [M.bind_ok (settleStreams_idle d.idle), M.bind_ok (dropAhead_idle d.idle)]
  exact M.bind_error (locate_failed _ h0 h)

theorem loadOp_traps {i : Instr} {s t : State} {rd rs1 : Reg} {imm : BitVec 12} {n : Nat} {signed : Bool} {f : MemFault}
    {cause : Nat} (d : s.direct) (h0 : 0 < n) (run : exec i s = runScalar (loadOp rd rs1 imm n signed) s)
    (h : translate s s.hart.ctx (s.addressOf rs1 imm) .load = .error (f, t))
    (fault : f.trap = { cause := cause, tval := s.addressOf rs1 imm, vf := none })
    (here : s.trapsHere cause (s.addressOf rs1 imm)) : trapsFrom i s t cause (s.addressOf rs1 imm) := by
  obtain ⟨kept, hart⟩ := translate_failed_keeps h
  refine trapsFrom_of_mem run ?_ kept hart fault here
  unfold loadOp
  rw [M.bind_ok (waitOlder_ok d.older), M.bind_ok (ownParty_apply s), M.bind_ok (readX_apply rs1 s), addressOf_eq]
  exact M.bind_error (loadVa_failed d h0 h)

theorem storeOp_traps {i : Instr} {s t : State} {rs1 rs2 : Reg} {imm : BitVec 12} {n : Nat} {f : MemFault}
    {cause : Nat} (d : s.direct) (h0 : 0 < n) (run : exec i s = runScalar (storeOp rs1 rs2 imm n) s)
    (h : translate s s.hart.ctx (s.addressOf rs1 imm) .store = .error (f, t))
    (fault : f.trap = { cause := cause, tval := s.addressOf rs1 imm, vf := none })
    (here : s.trapsHere cause (s.addressOf rs1 imm)) : trapsFrom i s t cause (s.addressOf rs1 imm) := by
  obtain ⟨kept, hart⟩ := translate_failed_keeps h
  refine trapsFrom_of_mem run ?_ kept hart fault here
  unfold storeOp
  rw [M.bind_ok (waitOlder_ok d.older), M.bind_ok (ownParty_apply s), M.bind_ok (readX_apply rs1 s), addressOf_eq,
    M.bind_ok (readX_apply rs2 s)]
  exact M.bind_error (storeVa_failed d h0 h)

theorem lrOp_misaligned {s : State} {rl w : BitVec 1} {rd rs1 : Reg} (d : s.direct)
    (h : (s.hart.rx rs1).toNat % amoBytes w ≠ 0) :
    lrOp rl w rd rs1 s = .error (.mem (.misaligned .load (s.hart.rx rs1))) s := by
  unfold lrOp
  rw [M.bind_ok (abortIfTx_outside d.outside), M.bind_ok (waitOlder_ok d.older), M.bind_ok (ownParty_apply s),
    M.bind_ok (readX_apply rs1 s), if_pos h]
  rfl

theorem amoOp_misaligned {s : State} {rl w : BitVec 1} {rd rs1 rs2 : Reg} {op : Nat} {f : Nat → Nat → Nat → Nat}
    (d : s.direct) (h : (s.hart.rx rs1).toNat % amoBytes w ≠ 0) :
    amoOp rl w rd rs1 rs2 op f s = .error (.mem (.misaligned .store (s.hart.rx rs1))) s := by
  unfold amoOp
  rw [M.bind_ok (waitOlder_ok d.older), M.bind_ok (ownParty_apply s), M.bind_ok (readX_apply rs1 s),
    M.bind_ok (readX_apply rs2 s), if_pos h]
  rfl

/-- Settles O11: the access ends in the fault of its first translation, and what that has dropped stays dropped. -/
theorem failedAccessesTrap : Obligations.FailedAccessesTrap := by
  unfold Obligations.FailedAccessesTrap
  refine fun s t rd rs1 rs2 imm d => ⟨fun fails here => ⟨?_, ?_⟩, fun fails here => ⟨?_, ?_⟩, fun fails here => ⟨?_, ?_⟩,
    fun fails here => ?_, fun odd here => ?_, fun odd here => ?_⟩
  case refine_1 => exact loadOp_traps d (by decide) rfl fails rfl here
  case refine_2 => exact loadOp_traps d (by decide) rfl fails rfl here
  case refine_3 => exact loadOp_traps d (by decide) rfl fails rfl here
  case refine_4 => exact loadOp_traps d (by decide) rfl fails rfl here
  case refine_5 => exact storeOp_traps d (by decide) rfl fails rfl here
  case refine_6 => exact storeOp_traps d (by decide) rfl fails rfl here
  case refine_7 => exact storeOp_traps d (by decide) rfl fails rfl here
  case refine_8 => exact trapsFrom_of_mem rfl (lrOp_misaligned d odd) (keepWalks_self s) rfl rfl here
  case refine_9 => exact trapsFrom_of_mem rfl (amoOp_misaligned d odd) (keepWalks_self s) rfl rfl here

end Sys2Proof.Machine

namespace Sys2Proof.Machine
open Sys2Proof

/-! ## LR and SC (R93, R94) -/

theorem reservable_served {t : State} {pa : Nat} (va : Word) (a : Access) (h : t.served pa) : reservable va pa a t = .ok () t := by
  unfold reservable
  unfold State.served at h
  split at h
  · next e => simp [e]
  · next e => simp [e, h, M.bind_ok (M.get_apply t)]
  · exact h.elim

theorem plainRead_clean {t : State} {pa n : Nat} (va : Word) (a : Access) (h : t.poisoned pa n = false) :
    plainRead va a pa n t = .ok (t.mem.read pa n) t := by
  unfold plainRead
  rw [M.bind_ok (M.get_apply t)]
  simp [h, State.physLoad]

theorem plainWrite_direct {t : State} {p : Party} {pa n : Nat} (v : Nat) (own : p.self = some t.hart.id)
    (tx : t.hart.tx = none) (h0 : 0 < n) (h1 : pa % 128 + n ≤ 128) (free : t.lineHeld p.self (pa / 128) = false) :
    plainWrite p pa n v t = .ok () (t.stored pa n v) := by
  have open_ : awaitLines p pa n t = .ok () t := by
    unfold awaitLines
    rw [M.bind_ok (M.get_apply t)]
    simp [linesOf_one h0 h1, free]
  unfold plainWrite
  rw [M.bind_ok open_, M.modify_apply, own, physStore_direct v tx h0 h1]

/-- The state with the hart's reservation replaced. -/
def State.withReservation (t : State) (r : Option Reservation) : State := { t with hart := { t.hart with reservation := r } }

/-- The reservation that LR makes and SC asks for. -/
def reservationAt (va : Word) (n pa : Nat) : Reservation := { line := pa / 128, addr := va, size := n }

theorem State.withReservation_self {t : State} {r : Option Reservation} (h : t.hart.reservation = r) :
    t.withReservation r = t := by
  subst h
  rfl

/-- How SC ends, whether it has stored or not: rd is written and the reservation is gone. -/
theorem scOp_ends (t : State) (rd : Reg) (x : Word) :
    (do writeX rd x; modH fun h => { h with reservation := none }; advance 4 : M Unit) t =
      .ok () (((t.withReservation none).wx rd x).advance 4) := by
  rw [M.bind_ok (writeX_apply rd x t), M.bind_ok (modH_apply _ _), advance_apply]
  unfold State.wx Hart.wx
  split <;> rfl

section
variable {s t : State} {aq rl w : BitVec 1} {rd rs1 rs2 : Reg} {pa : Nat}

theorem lr_effect (d : s.direct) (rel : rl = 0#1 ∨ s.released) (aligned : (s.hart.rx rs1).toNat % amoBytes w = 0)
    (r : s.readable (s.hart.rx rs1) (amoBytes w) pa t) :
    reaches (exec (.lr aq rl w rd rs1) s) fun u =>
      setsReg s u rd (signedBytes (amoBytes w) (t.mem.read pa (amoBytes w))) ∧ movesOn s u 4 ∧
      scalarOnly (t.withReservation (some (reservationAt (s.hart.rx rs1) (amoBytes w) pa))) u := by
  obtain ⟨m, clean⟩ := r
  have hart := (maps_kept m).1
  obtain ⟨skew, tr⟩ := maps_translateM m
  obtain ⟨-, -, -, -, served⟩ := m
  have idle : t.hart.streamsIdle := hart ▸ d.idle
  refine runScalar_writes_from (by rw [← hart]; rfl) (by rw [← hart]; rfl) ?_
  unfold lrOp
  rw [M.bind_ok (abortIfTx_outside d.outside), M.bind_ok (waitOlder_ok d.older), M.bind_ok (ownParty_apply s),
    M.bind_ok (readX_apply rs1 s), if_neg (not_not.mpr aligned)]
  beta_reduce
  rw [M.bind_ok (releaseBit_ok d (rel.imp_right .inr)), M.bind_ok tr,
    M.bind_ok (reservable_served _ _ served), M.bind_ok (settleStreams_idle idle),
    M.bind_ok (plainRead_clean _ _ clean), decodeInt_signed]
  rfl

/-- SC up to the question whether its reservation stands. -/
theorem scOp_asks (d : s.direct) (rel : rl = 0#1 ∨ s.released) (aligned : (s.hart.rx rs1).toNat % amoBytes w = 0)
    (m : s.maps .store (s.hart.rx rs1) (amoBytes w) pa t) :
    scOp rl w rd rs1 rs2 s = (do
      if s.hart.reservation = some (reservationAt (s.hart.rx rs1) (amoBytes w) pa) then
        dropAhead s.party
        plainWrite s.party pa (amoBytes w) ((← readX rs2).toNat % 2 ^ (8 * amoBytes w))
        writeX rd 0#64
      else writeX rd 1#64
      modH fun h => { h with reservation := none }
      advance 4 : M Unit) t := by
  have hart := (maps_kept m).1
  obtain ⟨skew, tr⟩ := maps_translateM m
  obtain ⟨-, -, -, -, served⟩ := m
  have idle : t.hart.streamsIdle := hart ▸ d.idle
  unfold scOp
  rw [M.bind_ok (abortIfTx_outside d.outside), M.bind_ok (waitOlder_ok d.older), M.bind_ok (ownParty_apply s),
    M.bind_ok (readX_apply rs1 s), if_neg (not_not.mpr aligned)]
  beta_reduce
  rw [M.bind_ok (releaseBit_ok d (rel.imp_right .inr)), M.bind_ok tr,
    M.bind_ok (reservable_served _ _ served), M.bind_ok (settleStreams_idle idle), M.bind_ok (getH_apply t), hart]
  rfl

theorem sc_succeeds (i : s.Inv) (d : s.direct) (rel : rl = 0#1 ∨ s.released)
    (aligned : (s.hart.rx rs1).toNat % amoBytes w = 0) (wr : s.writable (s.hart.rx rs1) (amoBytes w) pa t)
    (held : s.hart.reservation = some (reservationAt (s.hart.rx rs1) (amoBytes w) pa)) :
    reaches (exec (.sc aq rl w rd rs1 rs2) s) fun u =>
      setsReg s u rd 0#64 ∧ movesOn s u 4 ∧ u.mem.read pa (amoBytes w) = (s.hart.rx rs2).toNat % 256 ^ amoBytes w ∧
      sameBytesBut t u pa (amoBytes w) ∧ storeOnly t u (pa / 128) := by
  obtain ⟨m, free⟩ := wr
  obtain ⟨hart, keeps⟩ := maps_kept m
  have idle : t.hart.streamsIdle := hart ▸ d.idle
  have outside : t.hart.tx = none := hart ▸ d.outside
  obtain ⟨h0, h1, line, -, -⟩ := id m
  have wrote := plainWrite_direct (p := s.party) ((s.hart.rx rs2).toNat % 2 ^ (8 * amoBytes w)) (by rw [hart]; rfl)
    outside h0 (by omega) free
  have ended : (t.stored pa (amoBytes w) ((s.hart.rx rs2).toNat % 2 ^ (8 * amoBytes w))).hart.reservation = none := by
    show t.hart.reservation.filter _ = none
    rw [hart, held]
    simp [reservationAt]
  have value : (s.hart.rx rs2).toNat % 256 ^ amoBytes w =
      (s.hart.rx rs2).toNat % 2 ^ (8 * amoBytes w) % 256 ^ amoBytes w := by
    rw [Nat.pow_mul, Nat.mod_mod]
  rw [value]
  refine runScalar_stores hart (keeps i) ?_
  rw [scOp_asks d rel aligned m, if_pos held]
  rw [M.bind_ok (dropAhead_idle idle), M.bind_ok (readX_apply rs2 t), hart, M.bind_ok wrote, scOp_ends,
    State.withReservation_self ended]

theorem sc_fails (d : s.direct) (rel : rl = 0#1 ∨ s.released) (aligned : (s.hart.rx rs1).toNat % amoBytes w = 0)
    (wr : s.writable (s.hart.rx rs1) (amoBytes w) pa t)
    (lost : s.hart.reservation ≠ some (reservationAt (s.hart.rx rs1) (amoBytes w) pa)) :
    reaches (exec (.sc aq rl w rd rs1 rs2) s) fun u =>
      setsReg s u rd 1#64 ∧ movesOn s u 4 ∧ sameBytes t u ∧ scalarOnly (t.withReservation none) u := by
  obtain ⟨m, -⟩ := wr
  have hart := (maps_kept m).1
  have ran : scOp rl w rd rs1 rs2 s = .ok () (((t.withReservation none).wx rd 1#64).advance 4) := by
    rw [scOp_asks d rel aligned m, if_neg lost, scOp_ends]
  obtain ⟨u, next, regs, pc, rest⟩ := runScalar_writes_from (by rw [← hart]; rfl) (by rw [← hart]; rfl) ran
  refine ⟨u, next, regs, pc, fun a => ?_, rest⟩
  rw [rest]
  rfl

end

/-! ## Atomics (R93, R188, R189) -/

theorem Memory.read_lt (m : Memory) (a n : Nat) : m.read a n < 256 ^ n := by
  induction n generalizing a with
  | zero => exact Nat.one_pos
  | succ n ih =>
    have byte : (m.get a).toNat < 256 := (m.get a).isLt
    have rest := ih (a + 1)
    rw [Memory.read, Nat.pow_succ']
    omega

/-- The state after an atomic that writes what there is to write, if anything. -/
def State.replaced (t : State) (pa n : Nat) (new : Option Nat) : State := new.elim t fun v => t.stored pa n v

theorem State.replaced_x (t : State) (pa n : Nat) (new : Option Nat) : (t.replaced pa n new).hart.x = t.hart.x := by
  cases new <;> rfl
theorem State.replaced_pc (t : State) (pa n : Nat) (new : Option Nat) : (t.replaced pa n new).hart.pc = t.hart.pc := by
  cases new <;> rfl

/-- The read-modify-write at the home of n bytes, outside any transaction. -/
def replaceAt (p : Party) (va : Word) (pa n : Nat) (f : Rmw) : M Nat := do
  let s ← get
  if s.consumes p pa n then throw (.mem (.poison .store va))
  if s.inTx p then do
    let old ← txRead p va pa n
    match f old with
    | some new => txWrite p va pa n new
    | none => pure ()
    return old
  else do
    let old := s.physLoad pa n
    match f old with
    | some new => plainWrite p pa n new
    | none => pure ()
    return old

/-- An atomic that is mapped to memory is the read-modify-write there. -/
theorem atomicVa_served {s t : State} {p : Party} {va : Word} {n pa skew : Nat} (f : Rmw) (op : Nat) (v w : Word)
    (idle : s.hart.streamsIdle) (aligned : va.toNat % n = 0)
    (tr : translateM p.ctx va .store s = .ok { pa := pa, skew := skew } t) (served : t.served pa) :
    atomicVa p va n f op v w s = replaceAt p va pa n f t := by
  unfold atomicVa
  rw [if_neg (not_not.mpr aligned)]
  beta_reduce
  rw [M.bind_ok (settleStreams_idle idle), M.bind_ok (dropAhead_idle idle), M.bind_ok tr, M.bind_ok (M.get_apply t)]
  unfold State.served at served
  split at served
  · next e =>
    simp only [e]
    rfl
  · next e =>
    simp only [e, if_pos served]
    rfl
  · exact served.elim

/-- An atomic of the hart's own on bytes that are mapped, free of poison and nobody else's. -/
theorem atomicVa_direct {s t : State} {va : Word} {n pa : Nat} (f : Rmw) (op : Nat) (v w : Word) (d : s.direct)
    (aligned : va.toNat % n = 0) (wr : s.writable va n pa t) (clean : t.poisoned pa n = false) :
    atomicVa s.party va n f op v w s = .ok (t.mem.read pa n) (t.replaced pa n (f (t.mem.read pa n))) := by
  obtain ⟨-, idle, tx⟩ := d
  obtain ⟨m, free⟩ := wr
  have hart := (maps_kept m).1
  obtain ⟨skew, tr⟩ := maps_translateM m
  obtain ⟨h0, h1, line, -, served⟩ := m
  have outside : t.hart.tx = none := hart ▸ tx
  have notx : t.inTx s.party = false := inTx_outside _ outside
  have unpoisoned : t.consumes s.party pa n = false := by simp [State.consumes, State.txOf, notx, clean]
  rw [atomicVa_served f op v w idle aligned tr served, replaceAt, M.bind_ok (M.get_apply t)]
  simp only [unpoisoned, notx, Bool.false_eq_true, if_false, State.physLoad]
  cases f (t.mem.read pa n) with
  | none => rfl
  | some new =>
    exact M.bind_ok (plainWrite_direct (p := s.party) new (by rw [hart]; rfl) outside h0 (by omega) free)

/-- What the statements ask of an atomic, from its effect. -/
theorem atomicResult_of {i : Instr} {m : M Unit} {s : State} {rd : Reg} {va : Word} {n : Nat} {f : Nat → Option Nat}
    {g : Nat → Word} (inv : s.Inv) (run : exec i s = runScalar m s)
    (small : ∀ old new, old < 256 ^ n → f old = some new → new < 256 ^ n)
    (ran : ∀ pa t, va.toNat % n = 0 → s.writable va n pa t → t.poisoned pa n = false →
      m s = .ok () (((t.replaced pa n (f (t.mem.read pa n))).wx rd (g (t.mem.read pa n))).advance 4)) :
    atomicResult i s rd va n f g := by
  intro pa t aligned wr clean
  obtain ⟨hart, keeps⟩ := maps_kept wr.1
  obtain ⟨u, next, regs, pc, rest⟩ := runScalar_writes_from ((State.replaced_x ..).trans (congrArg Hart.x hart))
    ((State.replaced_pc ..).trans (congrArg Hart.pc hart)) (ran pa t aligned wr clean)
  refine ⟨u, run.trans next, regs, pc, ?_⟩
  cases new : f (t.mem.read pa n) with
  | none => rwa [new] at rest
  | some v =>
    rw [new] at rest
    obtain ⟨bytes, others, marks⟩ := scalarOnly_stored (keeps inv) rest
    exact ⟨bytes.trans (Nat.mod_eq_of_lt (small _ v (Memory.read_lt ..) new)), others, marks⟩

section
variable {s : State} {rl : BitVec 1} {rd rs1 rs2 : Reg} {n : Nat}

/-- The atomic memory operations, whose new value f computes from the old one. -/
theorem amo_atomicResult {i : Instr} {w : BitVec 1} {op : Nat} {k : Nat → Nat → Nat → Nat} {f : Nat → Nat}
    (inv : s.Inv) (d : s.direct) (rel : rl = 0#1 ∨ s.released) (run : exec i s = runScalar (amoOp rl w rd rs1 rs2 op k) s)
    (value : ∀ old, old < 256 ^ amoBytes w →
      k (8 * amoBytes w) old ((s.hart.rx rs2).toNat % 256 ^ amoBytes w) = f old ∧ f old < 256 ^ amoBytes w) :
    atomicResult i s rd (s.hart.rx rs1) (amoBytes w) (fun old => some (f old)) (signedBytes (amoBytes w)) := by
  refine atomicResult_of inv run (fun old new lt e => ?_) fun pa t aligned wr clean => ?_
  · cases e
    exact (value old lt).2
  · have same : k (8 * amoBytes w) (t.mem.read pa (amoBytes w)) ((s.hart.rx rs2).toNat % 2 ^ (8 * amoBytes w)) =
        f (t.mem.read pa (amoBytes w)) := by
      rw [Nat.pow_mul]
      exact (value _ (Memory.read_lt ..)).1
    unfold amoOp
    rw [M.bind_ok (waitOlder_ok d.older), M.bind_ok (ownParty_apply s), M.bind_ok (readX_apply rs1 s),
      M.bind_ok (readX_apply rs2 s), if_neg (not_not.mpr aligned)]
    beta_reduce
    rw [M.bind_ok (releaseBit_ok d (rel.imp_right .inr)), M.bind_ok (atomicVa_direct _ _ _ _ d aligned wr clean), same,
      decodeInt_signed]
    rfl

theorem wordOf_old (t : State) (pa n : Nat) : wordOf (t.mem.read pa n) = unsignedBytes n (t.mem.read pa n) := by
  rw [unsignedBytes, Nat.mod_eq_of_lt (Memory.read_lt ..), wordOf]

/-- AMOINCW wraps to 0 at its bound (R188). -/
theorem amoincw_atomicResult (aq : BitVec 1) {scope : BitVec 3} (width : BitVec 2) (inv : s.Inv) (d : s.direct)
    (rel : rl = 0#1 ∨ scope ≠ 5#3 ∨ s.released) :
    atomicResult (.amoincw aq rl scope width rd rs1 rs2) s rd (s.hart.rx rs1) (2 ^ width.toNat)
      (fun old => some (if (s.hart.rx rs2).toNat % 256 ^ 2 ^ width.toNat ≤ old then 0 else old + 1))
      (unsignedBytes (2 ^ width.toNat)) := by
  have bound : (s.hart.rx rs2).toNat % 256 ^ 2 ^ width.toNat < 256 ^ 2 ^ width.toNat :=
    Nat.mod_lt _ (Nat.pow_pos (by decide))
  have narrow : rl = 0#1 ∨ scope.toNat ≠ 5 ∨ s.released :=
    rel.imp_right (.imp_left fun h e => h (BitVec.eq_of_toNat_eq e))
  refine atomicResult_of inv rfl (fun old new lt e => ?_) fun pa t aligned wr clean => ?_
  · cases e
    split
    · omega
    · omega
  · rw [M.bind_ok (waitOlder_ok d.older), M.bind_ok (ownParty_apply s), M.bind_ok (readX_apply rs1 s),
      M.bind_ok (readX_apply rs2 s), if_neg (not_not.mpr aligned)]
    beta_reduce
    rw [M.bind_ok (releaseBit_ok d narrow), M.bind_ok (atomicVa_direct _ _ _ _ d aligned wr clean), Nat.pow_mul, wordOf_old]
    rfl

/-- AMOADDB writes only a sum within its bound (R189). -/
theorem amoaddb_atomicResult (width : BitVec 2) (rs3 : Reg) (inv : s.Inv) (d : s.direct) :
    atomicResult (.amoaddb width rd rs1 rs2 rs3) s rd (s.hart.rx rs1) (2 ^ width.toNat)
      (fun old => if old + (s.hart.rx rs2).toNat % 256 ^ 2 ^ width.toNat ≤ (s.hart.rx rs3).toNat % 256 ^ 2 ^ width.toNat
        then some (old + (s.hart.rx rs2).toNat % 256 ^ 2 ^ width.toNat) else none)
      (unsignedBytes (2 ^ width.toNat)) := by
  have bound : (s.hart.rx rs3).toNat % 256 ^ 2 ^ width.toNat < 256 ^ 2 ^ width.toNat :=
    Nat.mod_lt _ (Nat.pow_pos (by decide))
  refine atomicResult_of inv rfl (fun old new lt e => ?_) fun pa t aligned wr clean => ?_
  · split at e <;> cases e
    omega
  · rw [M.bind_ok (waitOlder_ok d.older), M.bind_ok (ownParty_apply s), M.bind_ok (readX_apply rs1 s),
      M.bind_ok (readX_apply rs2 s), M.bind_ok (readX_apply rs3 s), M.bind_ok (atomicVa_direct _ _ _ _ d aligned wr clean),
      Nat.pow_mul, wordOf_old]
    rfl
end

/-! ## The values of the atomic memory operations -/

theorem signed_le_iff (n a b : Nat) : Int.bmod a (256 ^ n) ≤ Int.bmod b (256 ^ n) ↔
    ¬decodeInt true (8 * n) b < decodeInt true (8 * n) a := by
  rw [decodeInt_signed_eq_bmod, decodeInt_signed_eq_bmod, Nat.pow_mul, Int.not_lt]

theorem amoMin_eq (n old d : Nat) :
    amoMin (8 * n) old d = if Int.bmod old (256 ^ n) ≤ Int.bmod d (256 ^ n) then old else d := by
  simp only [amoMin, signed_le_iff, ite_not]

theorem ite_lt_of {c : Prop} [Decidable c] {a b m : Nat} (ha : a < m) (hb : b < m) : (if c then a else b) < m := by
  split <;> assumption

/-- Two patterns of n bytes are the same if they are the same signed number. -/
theorem eq_of_bmod_eq {m a b : Nat} (ha : a < m) (hb : b < m) (h : Int.bmod a m = Int.bmod b m) : a = b := by
  have residues := congrArg (· % (m : Int)) h
  simp only [Int.bmod_emod] at residues
  rw [Int.emod_eq_of_lt (by omega) (by omega), Int.emod_eq_of_lt (by omega) (by omega)] at residues
  exact Int.ofNat_inj.mp residues

theorem amoMax_eq {n old d : Nat} (ho : old < 256 ^ n) (hd : d < 256 ^ n) :
    amoMax (8 * n) old d = if Int.bmod old (256 ^ n) ≤ Int.bmod d (256 ^ n) then d else old := by
  rw [amoMax, decodeInt_signed_eq_bmod, decodeInt_signed_eq_bmod, Nat.pow_mul]
  by_cases lt : Int.bmod old (256 ^ n) < Int.bmod d (256 ^ n)
  · rw [if_pos lt, if_pos lt.le]
  · by_cases le : Int.bmod old (256 ^ n) ≤ Int.bmod d (256 ^ n)
    · rw [if_neg lt, if_pos le]
      exact eq_of_bmod_eq ho hd (le_antisymm le (not_lt.mp lt))
    · rw [if_neg lt, if_neg le]

/-- Settles O12: LR and SC by their effects, the atomics by the one read-modify-write that they share. -/
theorem atomicAccesses : Obligations.AtomicAccesses := by
  unfold Obligations.AtomicAccesses
  refine ⟨fun s t aq rl w rd rs1 rs2 pa inv d rel aligned => ⟨?_, ?_, ?_⟩,
    fun s aq rl w rd rs1 rs2 inv d rel => ?_, fun s aq rl scope width rd rs1 rs2 rs3 inv d rel => ⟨?_, ?_⟩⟩
  case refine_1 => exact fun r => lr_effect d rel aligned r
  case refine_2 => exact fun wr held => sc_succeeds inv d rel aligned wr held
  case refine_3 => exact fun wr lost => sc_fails d rel aligned wr lost
  case refine_5 => exact amoincw_atomicResult aq width inv d rel
  case refine_6 => exact amoaddb_atomicResult width rs3 inv d
  case refine_4 =>
    have pow : 256 ^ amoBytes w = 2 ^ (8 * amoBytes w) := (Nat.pow_mul 2 8 _).symm
    have pos : 0 < 256 ^ amoBytes w := Nat.pow_pos (by decide)
    have hd : (s.hart.rx rs2).toNat % 256 ^ amoBytes w < 256 ^ amoBytes w := Nat.mod_lt _ pos
    refine ⟨?_, ?_, ?_, ?_, ?_, ?_, ?_, ?_, ?_⟩
    · exact amo_atomicResult inv d rel rfl fun old ho => ⟨rfl, hd⟩
    · exact amo_atomicResult inv d rel rfl fun old ho => ⟨congrArg (_ % ·) pow.symm, Nat.mod_lt _ pos⟩
    · exact amo_atomicResult inv d rel rfl fun old ho => ⟨rfl, pow ▸ Nat.xor_lt_two_pow (pow ▸ ho) (pow ▸ hd)⟩
    · exact amo_atomicResult inv d rel rfl fun old ho => ⟨rfl, pow ▸ Nat.and_lt_two_pow _ (pow ▸ hd)⟩
    · exact amo_atomicResult inv d rel rfl fun old ho => ⟨rfl, pow ▸ Nat.or_lt_two_pow (pow ▸ ho) (pow ▸ hd)⟩
    · exact amo_atomicResult inv d rel rfl fun old ho => ⟨amoMin_eq .., ite_lt_of ho hd⟩
    · exact amo_atomicResult inv d rel rfl fun old ho => ⟨amoMax_eq ho hd, ite_lt_of hd ho⟩
    · exact amo_atomicResult inv d rel rfl fun old ho => ⟨rfl, (min_le_left _ _).trans_lt ho⟩
    · exact amo_atomicResult inv d rel rfl fun old ho => ⟨rfl, max_lt ho hd⟩

end Sys2Proof.Machine

namespace Sys2Proof.Machine
open Sys2Proof

/-! ## A translation made twice (R261) -/

theorem leafEntry_hits {asid level : Nat} {va pte : Word} {e : TlbEntry} (h : leafEntry asid va level pte = some e) :
    e.hits asid va = true := by
  simp only [leafEntry, Option.ite_none_left_eq_some, Option.some.injEq] at h
  obtain ⟨-, -, -, -, -, rfl⟩ := h
  simp [TlbEntry.hits]

theorem walkStep_hits {m : Memory} {asid : Nat} {va : Word} {level table addr : Nat} {e : TlbEntry} {pte : Word}
    (h : walkStep m asid va level table = .leaf e addr pte) : e.hits asid va = true := by
  unfold walkStep at h
  dsimp only at h
  split at h
  · split at h
    · cases h
    split at h
    · cases h
    split at h
    · split at h
      · next found =>
        cases h
        exact leafEntry_hits found
      · cases h
    split at h
    · cases h
    split at h <;> cases h
  · cases h

/-- The entry that a walk ends in serves the address walked for. -/
theorem walkFrom_hits {m : Memory} {asid : Nat} {va : Word} {addr : Nat} {e : TlbEntry} {pte : Word} :
    ∀ {level table : Nat}, walkFrom m asid va level table = .leaf e addr pte → e.hits asid va = true := by
  intro level
  induction level with
  | zero => exact fun h => walkStep_hits h
  | succ level ih =>
    intro table h
    unfold walkFrom at h
    split at h
    · exact ih h
    · exact walkStep_hits h

theorem modTlbs_core (s : State) (k : CoreId) (m : Option ClusterId) (f g : List TlbEntry → List TlbEntry) :
    ((s.modTlbs (some k) m f g).core k).tlb = f (s.core k).tlb := by
  have own : (s.modCore k fun v => { v with tlb := f v.tlb }).core k = { s.core k with tlb := f (s.core k).tlb } :=
    assocGet_assocSet_same k _ _ _
  cases m <;> exact congrArg Core.tlb own

theorem find_fillSlice {p : TlbEntry → Bool} {e : TlbEntry} (serves : p e = true) (l : List TlbEntry) :
    ((fillSlice e l).filter fun f => f.slice == e.slice).find? p = some e := by
  rw [fillSlice, List.take_succ_cons, List.cons_append, List.filter_cons_of_pos (by simp), List.find?_cons_of_pos serves]

/-- An entry that a walk has just brought is the first that serves its address (R261). -/
theorem find_filled (s : State) {c : TransCtx} {k : CoreId} {p : TlbEntry → Bool} {e : TlbEntry} (core : c.core = some k)
    (slice : e.slice = c.slice) (serves : p e = true) (addr : Nat) (bits : Word) :
    ((s.noteTlb (.fill c.core c.cluster e addr bits c.self)).tlb c).find? p = some e := by
  have filled : ∃ l, ((s.noteTlb (.fill c.core c.cluster e addr bits c.self)).core k).tlb = fillSlice e l := by
    rw [core, State.noteTlb, if_neg (by simp [State.idleNote])]
    exact ⟨_, modTlbs_core ..⟩
  obtain ⟨l, filled⟩ := filled
  have first := find_fillSlice serves l
  rw [slice] at first
  simp only [State.tlb, core] at filled ⊢
  rw [filled, List.find?_append, first]
  rfl

theorem walk_again {s t : State} {c : TransCtx} {k : CoreId} {l : Nat} {va : Word} {a : Access} {x : Translation}
    (core : c.core = some k) (h : walk s c l va a = .ok (x, t)) :
    ∃ e, (t.tlb c).find? (fun e => e.hits (fieldOf c.satp 44 16) va) = some e ∧
      (permits c a e.read e.write e.exec e.user e.dup = true ∧ (a = .store → e.dirty = true)) ∧
      x = { pa := e.target c.die va, skew := e.skew } := by
  unfold walk at h
  dsimp only at h
  split at h
  · next e addr pte found =>
    split at h
    · next permitted =>
      cases h
      exact ⟨{ e with slice := c.slice, dirty := e.dirty || a == .store }, find_filled s core rfl (walkFrom_hits found) _ _,
        ⟨permitted, fun store => by simp [store]⟩, rfl⟩
    · cases h
  · cases h
  · cases h

/-- A translation made again at once finds what it has found, and changes nothing more. -/
theorem translate_again {s t : State} {c : TransCtx} {k : CoreId} {va : Word} {a : Access} {x : Translation}
    (core : c.core = some k) (h : translate s c va a = .ok (x, t)) : translate t c va a = .ok (x, t) := by
  have kept := h
  have held : ∀ {r : State} {l : Nat}, satpLevels c.satp = some l → canonical l va = true → c.windowOff va = none →
      walk r c l va a = .ok (x, t) → translate t c va a = .ok (x, t) := by
    intro r l levels canon outside ran
    obtain ⟨e, found, usable, rfl⟩ := walk_again core ran
    simp only [translate, outside, levels, if_pos canon, found, if_pos usable]
  unfold translate at h
  split at h
  · split at h
    · cases h
      exact kept
    · cases h
  · next outside =>
    split at h
    · cases h
    · next levels =>
      split at h
      · next canon =>
        split at h
        · split at h
          · cases h
            exact kept
          · exact held levels canon outside h
        · exact held levels canon outside h
      · cases h

/-! ## Cache-block operations (R95, R254) -/

theorem blockOf_eq (va : Word) : blockOf va = BitVec.ofNat 64 (va.toNat / 128 * 128) := by
  have low : ∀ k, k < 64 → (!(0x7F#64).getLsbD k) = decide (7 ≤ k) := by decide
  refine BitVec.eq_of_getLsbD_eq fun k hk => ?_
  have high : (va.toNat / 128 * 128).testBit k = (decide (7 ≤ k) && va.getLsbD k) := by
    rw [show va.toNat / 128 * 128 = va.toNat / 2 ^ 7 * 2 ^ 7 from rfl, Nat.testBit_mul_two_pow, Nat.testBit_div_two_pow]
    by_cases above : 7 ≤ k
    · rw [Nat.sub_add_cancel above, BitVec.testBit_toNat]
    · simp only [above, decide_false, Bool.false_and]
  rw [blockOf, BitVec.getLsbD_and, BitVec.getLsbD_not, low k hk, BitVec.getLsbD_ofNat, high]
  simp [hk, Bool.and_comm]

theorem cboOp_ok {s t : State} {i : Instr} {rs1 : Reg} {allowed : Bool} {act : Party → Word → M Unit} (d : s.direct)
    (may : s.hart.priv = .supervisor ∨ allowed = true) (ran : act s.party (s.hart.rx rs1) s = .ok () t) :
    cboOp i rs1 allowed act s = .ok () (t.advance 4) := by
  have permitted : ¬(s.hart.priv = .user ∧ (!allowed) = true) := by
    rintro ⟨user, no⟩
    rcases may with super | yes
    · rw [user] at super
      cases super
    · simp [yes] at no
  have acted : asStoreFault (s.hart.rx rs1) (act s.party (s.hart.rx rs1)) s = .ok () t := by
    rw [asStoreFault, ran]
  unfold cboOp
  rw [M.bind_ok (abortIfTx_outside d.outside), M.bind_ok (getH_apply s), if_neg permitted]
  beta_reduce
  rw [M.bind_ok (waitOlder_ok d.older), M.bind_ok (ownParty_apply s), M.bind_ok (settleStreams_idle d.idle),
    M.bind_ok (readX_apply rs1 s), M.bind_ok acted]
  rfl

theorem cboTarget_served {t : State} {pa : Nat} (va : Word) (h : t.served pa) : cboTarget va pa t = .ok () t := by
  unfold cboTarget
  unfold State.served at h
  split at h
  · next e => simp [e]
  · next e => simp [e]
  · exact h.elim

theorem cboManage_ok {s t : State} {va : Word} {pa : Nat} (m : s.maps .load (blockOf va) 128 pa t) :
    cboManage s.party va s = .ok () t := by
  obtain ⟨skew, tr⟩ := maps_translateM m
  obtain ⟨-, -, -, -, served⟩ := m
  have found : cboTranslate s.party.ctx (blockOf va) s = .ok { pa := pa, skew := skew } t := by
    rw [cboTranslate, tr]
  unfold cboManage
  rw [M.bind_ok found, cboTarget_served va served]

/-- The store of CBO.ZERO translates its block once more, to the same place. -/
theorem cboZero_ok {s t : State} {va : Word} {pa : Nat} (d : s.direct) (wr : s.writable (blockOf va) 128 pa t) :
    cboZero s.party va s = .ok () (t.stored pa 128 0) := by
  obtain ⟨m, free⟩ := wr
  have hart := (maps_kept m).1
  obtain ⟨skew, tr⟩ := maps_translateM m
  obtain ⟨h0, h1, line, ⟨skew', once⟩, served⟩ := m
  have twice : translate t t.hart.ctx (blockOf va) .store = .ok ({ pa := pa, skew := skew' }, t) := by
    rw [hart]
    exact translate_again rfl once
  have again : t.writable (blockOf va) 128 pa t := ⟨⟨h0, h1, line, ⟨skew', twice⟩, served⟩, by rwa [hart]⟩
  have direct : t.direct := by rwa [State.direct, hart]
  have wrote := storeVa_direct 0 direct again
  have same : t.party = s.party := by rw [State.party, hart]; rfl
  rw [same] at wrote
  unfold cboZero
  rw [M.bind_ok tr]
  unfold State.served at served
  split at served
  · next e => simp only [e, wrote]
  · next e => simp only [e, wrote]
  · exact served.elim

theorem cbo_kept {i : Instr} {s t : State} {rs1 : Reg} {allowed : Bool} {pa : Nat} (d : s.direct)
    (run : exec i s = runScalar (cboOp i rs1 allowed cboManage) s) (may : s.hart.priv = .supervisor ∨ allowed = true)
    (m : s.maps .load (blockOf (s.hart.rx rs1)) 128 pa t) :
    reaches (exec i s) fun u => sameRegs s u ∧ movesOn s u 4 ∧ scalarOnly t u := by
  have hart := (maps_kept m).1
  rw [run]
  exact runScalar_moves_from (congrArg Hart.x hart) (congrArg Hart.pc hart) (cboOp_ok d may (cboManage_ok m))

/-- Settles O13: where its block is mapped, each operation is its translation, and CBO.ZERO is a store as well. -/
theorem cacheBlockOperations : Obligations.CacheBlockOperations := by
  unfold Obligations.CacheBlockOperations
  intro s t rs1 pa inv d
  dsimp only
  rw [← blockOf_eq]
  refine ⟨fun m => ⟨fun may => ?_, fun may => ?_, fun may => ?_⟩, fun wr may => ?_⟩
  · exact cbo_kept d rfl may m
  · exact cbo_kept d rfl may m
  · exact cbo_kept d rfl may m
  · obtain ⟨hart, keeps⟩ := maps_kept wr.1
    exact runScalar_stores_only hart (keeps inv) (cboOp_ok d may (cboZero_ok d wr))

end Sys2Proof.Machine

namespace Sys2Proof.Machine
open Sys2Proof

/-! ## Waits (R12, R90) -/

theorem wfi_effect {s : State} (h : s.hart.mstatusTw = false) :
    reaches (exec .wfi s) fun t => sameRegs s t ∧ movesOn s t 4 ∧ scalarOnly s t := by
  refine runScalar_moves s ?_
  rw [M.bind_ok (getH_apply s), if_neg (by simp [h])]
  rfl

theorem pause_effect (s : State) : reaches (exec .pause s) fun t => movesOn s t 4 ∧ t = { s with hart := { s.hart with
    run := .paused, deadline := some (s.clock + 32), pc := t.hart.pc, instret := s.hart.instret + 1, held := none } } :=
  ⟨_, rfl, rfl, rfl⟩

/-! ## SFENCE.VMA (R12, R261) -/

theorem supervisorOnly_ok {i : Instr} {s : State} (super : s.hart.priv = .supervisor) (tx : s.hart.tx = none) :
    supervisorOnly i s = .ok () s := by
  unfold supervisorOnly
  rw [M.bind_ok (abortIfTx_outside tx), M.bind_ok (getH_apply s), if_neg (by rw [super]; decide)]
  rfl

theorem modCore_same (s : State) (c : CoreId) (f : Core → Core) : (s.modCore c f).core c = f (s.core c) :=
  assocGet_assocSet_same c _ _ _

theorem modCore_other (s : State) {c k : CoreId} (other : k ≠ c) (f : Core → Core) : (s.modCore c f).core k = s.core k :=
  assocGet_assocSet_other other _ _ _

/-- The TLB entries that SFENCE.VMA's operands name. -/
def State.sfenceNames (s : State) (rs1 rs2 : Reg) (e : TlbEntry) : Bool :=
  sfenceCovers (if rs1 = 0#5 then none else some (s.hart.rx rs1)) (if rs2 = 0#5 then none else some (s.hart.rx rs2)) e

/-- The hart's own core without the entries named. -/
def State.sfenced (s : State) (rs1 rs2 : Reg) : State :=
  s.modCore s.hart.id.coreId fun c => { c with tlb := c.tlb.filter fun e => !s.sfenceNames rs1 rs2 e }

/-- x0 names every address and every ASID. -/
theorem sfenceNames_iff (s : State) (rs1 rs2 : Reg) (e : TlbEntry) : s.sfenceNames rs1 rs2 e = true ↔
    (rs1 = 0#5 ∨ (s.hart.rx rs1).toNat / 2 ^ e.bits * 2 ^ e.bits = e.va) ∧
    (rs2 = 0#5 ∨ (e.glob = false ∧ e.asid = (s.hart.rx rs2).toNat % 2 ^ 16)) := by
  have asid : fieldOf (s.hart.rx rs2) 0 16 = (s.hart.rx rs2).toNat % 2 ^ 16 := BitVec.extractLsb'_toNat ..
  by_cases any1 : rs1 = 0#5 <;> by_cases any2 : rs2 = 0#5 <;> simp [State.sfenceNames, sfenceCovers, any1, any2, asid]

theorem sfenceVma_effect {s : State} (rs1 rs2 : Reg) (super : s.hart.priv = .supervisor) (tx : s.hart.tx = none) :
    reaches (exec (.sfenceVma rs1 rs2) s) fun t =>
      sameRegs s t ∧ movesOn s t 4 ∧ scalarOnly { s with cores := t.cores } t ∧
      (∀ c, c ≠ s.hart.id.coreId → t.core c = s.core c) ∧
      ∀ e, e ∈ (t.core s.hart.id.coreId).tlb ↔ e ∈ (s.core s.hart.id.coreId).tlb ∧
        ¬((rs1 = 0#5 ∨ (s.hart.rx rs1).toNat / 2 ^ e.bits * 2 ^ e.bits = e.va) ∧
          (rs2 = 0#5 ∨ (e.glob = false ∧ e.asid = (s.hart.rx rs2).toNat % 2 ^ 16))) := by
  have ran : exec (.sfenceVma rs1 rs2) s = .next ((s.sfenced rs1 rs2).advance 4).goesOn := by
    refine runScalar_ok ?_
    rw [M.bind_ok (supervisorOnly_ok super tx)]
    rfl
  refine ⟨_, ran, rfl, rfl, rfl, fun c other => ?_, fun e => ?_⟩
  · show (s.sfenced rs1 rs2).core c = s.core c
    exact modCore_other s other _
  · show e ∈ ((s.sfenced rs1 rs2).core s.hart.id.coreId).tlb ↔ _
    rw [State.sfenced, modCore_same, List.mem_filter, ← sfenceNames_iff, Bool.not_eq_true, Bool.not_eq_true']

theorem runScalar_congr {m k : M Unit} {s : State} (h : m s = k s) : runScalar m s = runScalar k s := by
  simp only [runScalar, h]

/-! ## Fences (R91, R179, R253) -/

/-- A fence with an empty set orders nothing. -/
theorem fenceOp_empty {s : State} {pred succ : BitVec 4} (scope : Nat) (h : pred = 0#4 ∨ succ = 0#4) :
    fenceOp pred succ scope s = .ok () s := by
  unfold fenceOp
  rw [if_neg fun both => h.elim both.1 both.2]
  rfl

theorem fenceOp_idle {s : State} {pred : BitVec 4} (succ : BitVec 4) {scope : Nat} (older : s.hart.queuedIn pred = false)
    (idle : s.hart.streamsIdle) (free : s.released ∨ pred &&& 5#4 = 0#4 ∨ scope ≠ 5) :
    fenceOp pred succ scope s = .ok () s := by
  unfold fenceOp
  split
  · rw [M.bind_ok (getH_apply s), if_neg (by simp [older])]
    beta_reduce
    rw [M.bind_ok (ownParty_apply s), M.bind_ok (settleStreams_idle idle)]
    split
    · next writes =>
      refine releaseOf_ok _ ?_
      rcases free with released | reads | narrow
      · exact .inr released
      · exact absurd reads writes
      · exact .inl narrow
    · rfl
  · rfl

theorem fenceOp_waits {s : State} {pred succ : BitVec 4} (scope : Nat) (p0 : pred ≠ 0#4) (s0 : succ ≠ 0#4)
    (queued : s.hart.queuedIn pred = true) : fenceOp pred succ scope s = .error (.held .older) s := by
  unfold fenceOp
  rw [if_pos ⟨p0, s0⟩, M.bind_ok (getH_apply s), if_pos queued]
  rfl

section
variable {s : State} {pred succ fm : BitVec 4} {scope : BitVec 3} {rs1 rd : Reg}

theorem fence_done (tx : s.hart.tx = none) (plain : fm ≠ 8#4) (ran : fenceOp pred succ 5 s = .ok () s) :
    reaches (exec (.fence fm pred succ rs1 rd) s) fun t => sameRegs s t ∧ movesOn s t 4 ∧ scalarOnly s t := by
  refine runScalar_moves s ?_
  rw [M.bind_ok (abortIfTx_outside tx), if_neg plain, M.bind_ok ran]
  rfl

/-- FENCE.TSO is the fence from reads and writes to reads and writes, whatever its sets say. -/
theorem fenceTso_done (tx : s.hart.tx = none) (ran : fenceOp 3#4 3#4 5 s = .ok () s) :
    reaches (exec (.fence 8#4 pred succ rs1 rd) s) fun t => sameRegs s t ∧ movesOn s t 4 ∧ scalarOnly s t := by
  refine runScalar_moves s ?_
  rw [M.bind_ok (abortIfTx_outside tx), if_pos rfl, M.bind_ok ran]
  rfl

/-- FENCE.S outside a transaction is its fence. -/
theorem execFenceS_outside (tx : s.hart.tx = none) : exec (.fenceS scope succ pred) s =
    runScalar (do fenceOp pred succ scope.toNat; advance 4) s := by
  have closed : s.hart.tx.isNone = true := by rw [tx]; rfl
  refine runScalar_congr ?_
  by_cases system : scope = 5#3
  · rw [if_pos system, M.bind_ok (abortIfTx_outside tx)]
    beta_reduce
    rw [M.bind_ok (getH_apply s), if_pos closed]
  · rw [if_neg system]
    beta_reduce
    rw [M.bind_ok (getH_apply s), if_pos closed]

theorem fenceS_done (tx : s.hart.tx = none) (ran : fenceOp pred succ scope.toNat s = .ok () s) :
    reaches (exec (.fenceS scope succ pred) s) fun t => sameRegs s t ∧ movesOn s t 4 ∧ scalarOnly s t := by
  rw [execFenceS_outside tx]
  refine runScalar_moves s ?_
  rw [M.bind_ok ran]
  rfl

theorem fenceI_effect (imm : BitVec 12) (d : s.direct) : reaches (exec (.fenceI imm rs1 rd) s) fun t =>
    sameRegs s t ∧ movesOn s t 4 ∧ scalarOnly { s with hart := { s.hart with fetchBuf := [] } } t := by
  obtain ⟨older, idle, tx⟩ := d
  refine runScalar_moves (s.buffered []) ?_
  rw [M.bind_ok (abortIfTx_outside tx), M.bind_ok (waitOlder_ok older), M.bind_ok (ownParty_apply s),
    M.bind_ok (settleStreams_idle idle)]
  rfl
end

/-- Settles O9: a wait or a fence that finds nothing to wait for moves on, and one that does is Held. -/
theorem waitsAndFences : Obligations.WaitsAndFences := by
  unfold Obligations.WaitsAndFences
  refine ⟨fun s rs1 rs2 => ⟨fun h => wfi_effect h, pause_effect s, fun super tx => sfenceVma_effect rs1 rs2 super tx⟩,
    fun s fm pred succ rs1 rd scope imm tx => ⟨fun h plain => ?_, fun h => ?_, fun idle plain free => ?_, fun idle free => ?_,
      fun idle free => ?_, fun p0 s0 queued => ⟨fun plain => ?_, ?_⟩, fun d => fenceI_effect imm d⟩⟩
  case refine_1 => exact fence_done tx plain (fenceOp_empty 5 h)
  case refine_2 => exact fenceS_done tx (fenceOp_empty _ h)
  case refine_3 => exact fence_done tx plain (fenceOp_idle succ idle.1 idle.2 (free.imp_right .inl))
  case refine_4 => exact fenceTso_done tx (fenceOp_idle 3#4 idle.1 idle.2 (.inl free))
  case refine_5 =>
    refine fenceS_done tx (fenceOp_idle succ idle.1 idle.2 (free.imp_right (.imp_right fun h e => ?_)))
    exact h (BitVec.eq_of_toNat_eq e)
  case refine_6 =>
    refine waitsFor_of_scalar (i := .fence fm pred succ rs1 rd) tx rfl ?_
    rw [M.bind_ok (abortIfTx_outside tx), if_neg plain]
    exact M.bind_error (fenceOp_waits 5 p0 s0 queued)
  case refine_7 => exact waitsFor_of_scalar tx (execFenceS_outside tx) (M.bind_error (fenceOp_waits _ p0 s0 queued))

end Sys2Proof.Machine

namespace Sys2Proof.Machine
open Sys2Proof

/-! ## VSPTR (R99) -/

/-- The word of an instruction of the R layout, field by field. -/
theorem word_toNat (x : Fields) : x.word.toNat =
    2 ^ 25 * x.f7.toNat + 2 ^ 20 * x.b.toNat + 2 ^ 15 * x.a.toNat + 2 ^ 12 * x.f3.toNat + 2 ^ 7 * x.d.toNat + x.opc.toNat := by
  have append : ∀ {v w : Nat} (p : BitVec v) (q : BitVec w), (p ++ q).toNat = 2 ^ w * p.toNat + q.toNat := fun p q => by
    rw [BitVec.toNat_append, ← Nat.shiftLeft_add_eq_or_of_lt q.isLt, Nat.shiftLeft_eq, Nat.mul_comm]
  simp only [Fields.word, append]
  omega

/-- Settles O58: VSPTR is the shared result of a scalar instruction, in the state with the new steps and no elements. -/
theorem vectorStepPointer : Obligations.VectorStepPointer := by
  unfold Obligations.VectorStepPointer
  refine fun s rd rs1 => ⟨?_, ?_⟩
  · have fields : encodeFields (.vsptr rd rs1) = some (.r 0x0B#7 1#3 5#7 rd rs1 0#5) := rfl
    have short : (Fields.r 0x0B#7 1#3 5#7 rd rs1 0#5).word.toNat < 256 ^ 4 := (BitVec.isLt _).trans_eq (by norm_num)
    rw [encode_of_fields fields, bytesToNat_natToBytes, Nat.mod_eq_of_lt short, word_toNat]
    simp [Fields.r]
  · obtain ⟨regs, pc, rest⟩ := wx_advance_goesOn
      { s with hart := { s.hart with vsptr := s.hart.rx rs1, vl := 0 } } rd s.hart.vsptr 4
    exact ⟨_, rfl, regs, pc, rest⟩

end Sys2Proof.Machine

namespace Sys2Proof.Machine
open Sys2Proof

/-! ## OWNSET on a ring whose descriptor leaves memory (O40)

R288 and R289 give the ring of a slot as a ring-table entry of the hart's gang, whose handle the model puts together from the
numbers of the entry. The statement takes every state, also one whose gang has a bank that no cluster has: the handle is then
that of a ring in memory. Of its descriptor the statement asks that it opens and that its first byte is served; here its
fourth word lies behind the last byte of HBM, so the commit's write of it is an access fault. -/

/-- The entries 2 b and 2 b + 1 of this bank b come to 0x2040 once 2^56 is added to them in a word. -/
def farBank : Nat := 255 * 2 ^ 55 + 0x1020

def farGang : Gang :=
  { number := 0, launch := 0, index := 0, die := 0, cluster := 0, units := [], banks := [farBank], hctx := 0, harts := [] }

/-- The entry's descriptor: a work ring of loc 1 with two slots of 8 bytes at offset 0 of the gang's FIFO storage. -/
def entryRing : RingDesc :=
  { ctl := 0x3_0001_0010#64, base := 0#64, head := 0, acq := 0, tail := 0, resv := 0, cmask := 0#64, rmask := 0#64,
    notify := 0#64, eosidx := 0, window := 0, last := 0 }

/-- The ring that the handle names: loc 0, its slot 0 reserved. -/
def edgeRing : RingDesc := { entryRing with ctl := 0x3_0001_0000#64, resv := 1 }

/-- The address of the entry's descriptor, and that of the ring's: the last 8 bytes of HBM and 56 bytes behind them. -/
def entryPa : Nat := ringTableEntry 0 (2 * farBank)
def edgePa : Nat := 0xCF_FFFF_FFF8

def entryRef : RingRef :=
  { handle := 0x2040#64, va := wordOf entryPa, pa := entryPa, cluster := 0, gang := some farGang }

def edgeRef : RingRef := { handle := 0x2040#64, va := 0x2040#64, pa := edgePa, cluster := 0, gang := none }

/-- The hart's own reservation of slot 0. -/
def edgeSlot : SlotEntry := { handle := 0x2040#64, consumer := false, counter := 0 }

/-- Memory holds the bytes of the two descriptors that are not 0. The TLB has a page over the ring's descriptor, x1 is the
window address of the slot, and x2 asks for its commit. -/
def edgeState : State := { State.reset with
  mem := [(edgePa + 2, 1#8), (edgePa + 4, 3#8), (edgePa + 28, 1#8), (entryPa, 0x10#8), (entryPa + 2, 1#8), (entryPa + 4, 3#8)]
  hart := { State.reset.hart with
    satp := oneByteSatp, sbase := 0x4000_0000#64, stvec := 0x4000#64
    x := (State.reset.hart.x.set 1 0x4040_0000#64).set 2 1#64
    slots := [edgeSlot]
    placed := some { launch := 0, gang := 0, ctx := false, number := 0, stage := 0, vclass := 0, prio := 0, bclass := 0, tiles := 0,
                     groups := [] } }
  cores := [(State.reset.hart.id.coreId, { Core.reset with tlb := [{ hbmPage with pa := edgePa - 0x2040 }] })]
  dev := { State.reset.dev with gangs := [farGang] } }

set_option maxRecDepth 100000 in
set_option exponentiation.threshold 5000 in
theorem edgeState_slot :
    ringAtAddr edgeState.party (edgeState.hart.rx 1#5) edgeState = .ok (some (entryRef, entryRing, 0)) edgeState :=
  rfl

set_option maxRecDepth 100000 in
set_option exponentiation.threshold 5000 in
theorem edgeState_opens : openRing edgeState.party edgeRef.handle edgeState = .ok (edgeRef, edgeRing) edgeState :=
  rfl

theorem edgeState_ringAt : edgeState.ringAt edgeRef.handle edgeRef edgeRing :=
  ⟨(by decide +kernel : edgeState.mem.wf = true), ⟨rfl, rfl, rfl⟩, edgeState_opens, Tests.open_of rfl, rfl,
    fun _ => by simp [State.served, region, edgeRef, edgePa]⟩

/-- Where a run leaves the pc. -/
def pcAfter (o : Host.Outcome State Fault Refusal) : Option Word :=
  match o with
  | .next t => some t.hart.pc
  | _ => none

/-- The fourth word of the descriptor cannot be written: the instruction traps to stvec. -/
theorem pcAfter_ownset : pcAfter (exec (.ownset 1#5 2#5) edgeState) = some 0x4000#64 := by
  decide +kernel

/-- Refutes O40: in edgeState, which meets every premise of OWNSET's clause, the commit traps, where the statement has the
instruction complete and the pc move on. -/
theorem not_panelsAndOwners : ¬ Obligations.PanelsAndOwners := by
  unfold Obligations.PanelsAndOwners
  intro h
  obtain ⟨-, -, -, own⟩ := h edgeState 0#5 1#5 2#5 rfl
  obtain ⟨t, ran, -, committed, -⟩ := own entryRef entryRing 0 edgeRef edgeRing edgeSlot edgeState_slot edgeState_ringAt
    (by decide) (by decide) (.inr rfl) (by decide)
  obtain ⟨hart, -⟩ := committed rfl
  have trapped := pcAfter_ownset
  have moved : t.hart.pc = 0x4#64 := by rw [hart]; rfl
  rw [ran, pcAfter, moved] at trapped
  exact absurd trapped (by decide)

end Sys2Proof.Machine

namespace Sys2Proof.Machine
open Sys2Proof

/-! ## Fields as parts of a word -/

theorem fieldOf_high_zero_iff {v : Word} : fieldOf v 5 59 = 0 ↔ v.toNat < 32 := by
  simp only [fieldOf, BitVec.extractLsb'_toNat, Nat.shiftRight_eq_div_pow]
  omega

theorem fieldOf_low (v : Word) (len : Nat) : fieldOf v 0 len = v.toNat % 2 ^ len := by
  simp [fieldOf]

theorem fieldOf_eq_zero_iff {v : Word} {lo len : Nat} : fieldOf v lo len = 0 ↔ v.extractLsb' lo len = 0#len :=
  ⟨fun h => BitVec.eq_of_toNat_eq h, fun h => congrArg BitVec.toNat h⟩

/-! ## What arrivals leave of a hart (R164) -/

theorem physStore_marks (s : State) (self : Option HartId) (pa n v : Nat) :
    marksOnly s.hart (s.physStore self pa n v).hart := by
  unfold State.physStore
  suffices h : ∀ (l : List Nat) (t : State), marksOnly t.hart (l.foldl (fun t k => t.noteLine self k) t).hart from h _ _
  intro l
  induction l with
  | nil => exact fun t => .refl _
  | cons k l ih => exact fun t => (seesWrite_marksOnly t.dev.coarse t.hart self k).trans (ih _)

/-- To look whether a run can start posts an event at most. -/
theorem startChannel_eq (s : State) (core : CoreId) (c : Nat) :
    s.startChannel core c = { s with inbox := (s.startChannel core c).inbox } := by
  unfold State.startChannel
  split
  · dsimp only
    split <;> rfl
  · rfl

section
variable (s : State) (core : CoreId) (c : Nat)

@[simp] theorem startChannel_hart : (s.startChannel core c).hart = s.hart := by rw [startChannel_eq]
@[simp] theorem startChannel_others : (s.startChannel core c).others = s.others := by rw [startChannel_eq]
@[simp] theorem startChannel_mem : (s.startChannel core c).mem = s.mem := by rw [startChannel_eq]
@[simp] theorem startChannel_cores : (s.startChannel core c).cores = s.cores := by rw [startChannel_eq]
end

@[simp] theorem modCore_hart (s : State) (c : CoreId) (f : Core → Core) : (s.modCore c f).hart = s.hart := rfl
@[simp] theorem modCore_others (s : State) (c : CoreId) (f : Core → Core) : (s.modCore c f).others = s.others := rfl
@[simp] theorem modCore_mem (s : State) (c : CoreId) (f : Core → Core) : (s.modCore c f).mem = s.mem := rfl

theorem arrive_marks (s : State) (core : CoreId) (a : Arrival) : marksOnly s.hart (s.arrive core a).1.hart := by
  unfold State.arrive
  split
  · exact .refl _
  · dsimp only
    split
    · exact (physStore_marks s none _ _ _).trans (physStore_marks _ none _ _ _)
    · exact physStore_marks s none _ _ _
  · dsimp only
    rw [startChannel_hart]
    exact physStore_marks s none _ _ _
  · split
    · exact .refl _
    · rw [startChannel_hart]
      exact .refl _

end Sys2Proof.Machine

namespace Sys2Proof.Machine
open Sys2Proof

/-! ## HBIND (R162, R163) -/

section Assoc
variable {α β : Type} [DecidableEq α]

theorem find?_assocSet_same (k : α) (v : β) (l : List (α × β)) : (assocSet k v l).find? (fun x => x.1 == k) = some (k, v) := by
  induction l with
  | nil => simp [assocSet]
  | cons e l ih => by_cases here : e.1 = k <;> simp [assocSet, here, ih]

theorem find?_assocSet_other {k j : α} (other : j ≠ k) (v : β) (l : List (α × β)) :
    (assocSet k v l).find? (fun x => x.1 == j) = l.find? fun x => x.1 == j := by
  induction l with
  | nil => simp [assocSet, Ne.symm other]
  | cons e l ih => by_cases here : e.1 = k <;> simp [assocSet, here, List.find?_cons, Ne.symm other, ih]

end Assoc

theorem bind_channels (k : Core) (c gang : Nat) (entry : Word) : ∃ n, (k.bind c gang entry).channels =
    assocSet c { entry := entry, gang := gang, overflow := n } k.channels := by
  unfold Core.bind
  split
  · exact ⟨_, rfl⟩
  · exact ⟨0, rfl⟩

theorem bind_channel_other {n c : Nat} (other : n ≠ c) (k : Core) (gang : Nat) (entry : Word) :
    (k.bind c gang entry).channel n = k.channel n := by
  obtain ⟨lost, table⟩ := bind_channels k c gang entry
  rw [Core.channel, table, find?_assocSet_other other, Core.channel]

theorem bind_channel_same (k : Core) (c gang : Nat) (entry : Word) : ∃ n, (k.bind c gang entry).channel c =
    if entry.getLsbD 57 = true then some { entry := entry, gang := gang, overflow := n } else none := by
  obtain ⟨lost, table⟩ := bind_channels k c gang entry
  refine ⟨lost, ?_⟩
  rw [Core.channel, table, find?_assocSet_same]
  rfl

/-- The gang for which a hart binds channels. -/
def Hart.gang (h : Hart) : Nat := (h.placed.map Placed.gang).getD 0

/-- Why HBIND faults, the first reason that applies (R163). -/
def State.bindReason (s : State) (chan entry : Word) : Option Nat :=
  if 32 ≤ chan.toNat then some 1
  else if s.isContext (s.hart.id.coreId.hart (entry.extractLsb' 61 3).toNat) s.hart.gang = false then some 2
  else if s.boundElsewhere s.hart.id.coreId chan.toNat s.hart.gang = true then some 3
  else if entry.toNat % 4 ≠ 0 then some 4
  else none

/-- The state with the entry in the handler table of the hart's core. -/
def State.bound (s : State) (chan entry : Word) : State :=
  (s.modCore s.hart.id.coreId fun k => k.bind chan.toNat s.hart.gang entry).startChannel s.hart.id.coreId chan.toNat

/-- HBIND faults with its reason, or binds and moves on. -/
theorem exec_hbind {s : State} (rs1 rs2 : Reg) (tx : s.hart.tx = none) :
    exec (.hbind rs1 rs2) s = runScalar (match s.bindReason (s.hart.rx rs1) (s.hart.rx rs2) with
      | some n => channelFault n
      | none => do set (s.bound (s.hart.rx rs1) (s.hart.rx rs2)); advance 4) s := by
  show execHbind rs1 rs2 s = _
  unfold execHbind
  refine runScalar_congr ?_
  rw [M.bind_ok (abortIfTx_outside tx), M.bind_ok (readX_apply rs1 s), M.bind_ok (readX_apply rs2 s), M.bind_ok (M.get_apply s)]
  generalize s.hart.rx rs1 = chan
  generalize s.hart.rx rs2 = entry
  unfold State.bindReason
  by_cases far : 32 ≤ chan.toNat
  · rw [if_pos far, if_pos fun z => absurd (fieldOf_high_zero_iff.mp z) (Nat.not_lt.mpr far)]
    rfl
  · have near : fieldOf chan 0 5 = chan.toNat := by rw [fieldOf_low]; omega
    rw [if_neg far, if_neg (not_not.mpr (fieldOf_high_zero_iff.mpr (Nat.lt_of_not_le far)))]
    have names : entryCtx entry = (entry.extractLsb' 61 3).toNat := rfl
    have low : fieldOf entry 0 2 = entry.toNat % 4 := fieldOf_low entry 2
    have gang : (s.hart.placed.map Placed.gang).getD 0 = s.hart.gang := rfl
    dsimp only
    rw [near, names, gang]
    by_cases foreign : s.isContext (s.hart.id.coreId.hart (entry.extractLsb' 61 3).toNat) s.hart.gang = false
    · rw [if_pos foreign, if_pos (by rw [foreign]; rfl)]
      rfl
    rw [if_neg foreign, if_neg fun n => foreign (by simpa using n)]
    by_cases taken : s.boundElsewhere s.hart.id.coreId chan.toNat s.hart.gang = true
    · rw [if_pos taken, if_pos taken]
      rfl
    rw [if_neg taken, if_neg taken, low]
    by_cases odd : entry.toNat % 4 ≠ 0
    · rw [if_pos odd, if_pos odd]
      rfl
    · rw [if_neg odd, if_neg odd]
      rfl

/-- The reasons left for a channel of the core and a context of the hart's gang. -/
theorem bindReason_inside {s : State} {chan entry : Word} (near : chan.toNat < 32)
    (own : s.isContext (s.hart.id.coreId.hart (entry.extractLsb' 61 3).toNat) s.hart.gang = true) :
    s.bindReason chan entry = if s.boundElsewhere s.hart.id.coreId chan.toNat s.hart.gang = true then some 3
      else if entry.toNat % 4 ≠ 0 then some 4 else none := by
  rw [State.bindReason, if_neg (Nat.not_le.mpr near), if_neg (by rw [own]; decide)]

theorem bindReason_free {s : State} {chan entry : Word} (near : chan.toNat < 32)
    (own : s.isContext (s.hart.id.coreId.hart (entry.extractLsb' 61 3).toNat) s.hart.gang = true)
    (free : s.boundElsewhere s.hart.id.coreId chan.toNat s.hart.gang = false) :
    s.bindReason chan entry = if entry.toNat % 4 ≠ 0 then some 4 else none := by
  rw [bindReason_inside near own, if_neg (by rw [free]; decide)]

theorem hbind_faults {s : State} {rs1 rs2 : Reg} {n : Nat} (tx : s.hart.tx = none)
    (reason : s.bindReason (s.hart.rx rs1) (s.hart.rx rs2) = some n) (here : s.trapsHere 29 (BitVec.ofNat 64 n)) :
    trapsWith (.hbind rs1 rs2) s 29 (BitVec.ofNat 64 n) :=
  trapsWith_of_scalar (exec_hbind rs1 rs2 tx) (by rw [reason]; rfl) here

theorem bound_core (s : State) (chan entry : Word) :
    (s.bound chan entry).core s.hart.id.coreId = (s.core s.hart.id.coreId).bind chan.toNat s.hart.gang entry := by
  unfold State.bound State.core
  rw [startChannel_cores]
  exact modCore_same s _ _

theorem hbind_binds {s : State} {rs1 rs2 : Reg} (tx : s.hart.tx = none)
    (reason : s.bindReason (s.hart.rx rs1) (s.hart.rx rs2) = none) :
    let chan := s.hart.rx rs1
    let entry := s.hart.rx rs2
    let core := s.hart.id.coreId
    reaches (exec (.hbind rs1 rs2) s) fun t =>
      sameRegs s t ∧ movesOn s t 4 ∧ t.mem = s.mem ∧ t.others = s.others ∧
      (∀ n, n ≠ chan.toNat → (t.core core).channel n = (s.core core).channel n) ∧
      (entry.getLsbD 57 = false → (t.core core).channel chan.toNat = none) ∧
      (entry.getLsbD 57 = true → ∃ c, (t.core core).channel chan.toNat = some c ∧ c.entry = entry ∧ c.gang = s.hart.gang) := by
  intro chan entry core
  obtain ⟨lost, here⟩ := bind_channel_same (s.core core) chan.toNat s.hart.gang entry
  rw [exec_hbind rs1 rs2 tx, reason]
  have table : (((s.bound chan entry).advance 4).goesOn).core core = (s.core core).bind chan.toNat s.hart.gang entry :=
    bound_core s chan entry
  refine ⟨_, runScalar_ok (t := (s.bound chan entry).advance 4) rfl, ?_, ?_, ?_, ?_, fun n other => ?_, fun invalid => ?_,
    fun valid => ?_⟩
  · simp [sameRegs, State.bound]
  · simp [movesOn, State.bound]
  · simp [State.bound]
  · simp [State.bound]
  · rw [table, bind_channel_other other]
  · rw [table, here, if_neg (by rw [invalid]; decide)]
  · exact ⟨_, by rw [table, here, if_pos valid], rfl, rfl⟩

end Sys2Proof.Machine

namespace Sys2Proof.Machine
open Sys2Proof

/-! ## HSEND (R165) -/

/-- HSEND's arrival at its channel. -/
def sendArrival (target : Word) (payload : List Byte) : Arrival :=
  { chan := targetChan target, kind := 0, source := none, len := payload.length, record := payload }

/-- An arrival that finds no line held is recorded. -/
theorem deliverArrival_free {s : State} (free : s.linesFree) (core : CoreId) (a : Arrival) :
    deliverArrival core a s = .ok (s.arrive core a).2 (s.arrive core a).1 := by
  unfold deliverArrival
  rw [M.bind_ok (M.get_apply s)]
  cases s.arrivalPlace core a with
  | unbound => rfl
  | full => rfl
  | merged pa =>
    dsimp only
    rw [free (lineOf pa)]
    rfl
  | fresh ctx slot pa =>
    dsimp only
    rw [free (lineOf pa)]
    rfl

theorem lowBytes_length (n v : Nat) : (lowBytes n v).length = n := by simp [lowBytes]

/-- The status of an arrival is one of three. -/
theorem arrive_status (s : State) (core : CoreId) (a : Arrival) : (s.arrive core a).2 ≤ 2 := by
  unfold State.arrive
  split
  · exact Nat.le_refl 2
  · exact Nat.zero_le 2
  · exact Nat.zero_le 2
  · split <;> exact Nat.le_succ 1

/-- hinfo with the status of the last HSEND. -/
theorem setField_sstat (v : Word) {st : Nat} (h : st ≤ 2) :
    setField v 8 3 st = (v &&& ~~~0x700#64) ||| BitVec.ofNat 64 (256 * st) := by
  have small : st % 2 ^ 3 * 2 ^ 8 = 256 * st := by omega
  rw [setField, small]
  rfl

/-- A target word that HSEND takes (R165). -/
theorem hsendTarget_ok {target : Word} (zero : target.extractLsb' 22 42 = 0#42) (cluster : (target.extractLsb' 8 6).toNat ≤ 47) :
    ¬(fieldOf target 22 42 ≠ 0 ∨ 47 < fieldOf target 8 6) :=
  fun h => h.elim (fun n => n (fieldOf_eq_zero_iff.mpr zero)) fun far => Nat.not_lt.mpr cluster far

section
variable {s : State} {rs1 rs2 : Reg} {target va : Word} (ht : s.hart.rx rs1 = target) (hv : s.hart.rx rs2 = va)
include ht hv

theorem hsend_targetFault (bad : target.extractLsb' 22 42 ≠ 0#42 ∨ 47 < (target.extractLsb' 8 6).toNat)
    (here : s.trapsHere 29 5#64) : trapsWith (.hsend rs1 rs2) s 29 5#64 := by
  have faulty : fieldOf target 22 42 ≠ 0 ∨ 47 < fieldOf target 8 6 := bad.imp_left fun h z => h (fieldOf_eq_zero_iff.mp z)
  refine trapsWith_of_scalar rfl ?_ here
  rw [M.bind_ok (readX_apply rs1 s), M.bind_ok (readX_apply rs2 s), ht, hv]
  dsimp only
  rw [if_pos faulty]
  rfl

theorem hsend_misaligned (ok : ¬(fieldOf target 22 42 ≠ 0 ∨ 47 < fieldOf target 8 6))
    (crosses : 128 < va.toNat % 128 + (fieldOf target 16 6 + 1)) (here : s.trapsHere 4 va) :
    trapsWith (.hsend rs1 rs2) s 4 va := by
  refine trapsFrom_of_mem (f := .misaligned .load va) rfl ?_ (keepWalks_self s) rfl rfl here
  rw [M.bind_ok (readX_apply rs1 s), M.bind_ok (readX_apply rs2 s), ht, hv]
  dsimp only
  rw [if_neg ok, if_pos crosses]
  rfl

end

/-- The state after a payload has been sent: the arrival, its status in hinfo, and the hart at its next instruction. -/
def State.sent (s u : State) (target : Word) (payload : List Byte) : State :=
  let r := u.arrive (targetCore target) (sendArrival target payload)
  { r.1 with hart := { r.1.hart with
      hinfo := (s.hart.hinfo &&& ~~~0x700#64) ||| BitVec.ofNat 64 (256 * r.2),
      pc := s.hart.pc + 4#64, instret := s.hart.instret + 1, held := none } }

theorem deliverSend_sent {s u : State} (hart : u.hart = s.hart) (free : u.linesFree) (target : Word) (payload : List Byte) :
    ∃ t, deliverSend target payload u = .ok () t ∧ (t.advance 4).goesOn = s.sent u target payload := by
  let r := u.arrive (targetCore target) (sendArrival target payload)
  refine ⟨_, M.bind_ok (deliverArrival_free free (targetCore target) (sendArrival target payload)), ?_⟩
  have marks : marksOnly s.hart r.1.hart := hart ▸ arrive_marks u _ _
  have info : setField r.1.hart.hinfo 8 3 r.2 = (s.hart.hinfo &&& ~~~0x700#64) ||| BitVec.ofNat 64 (256 * r.2) := by
    rw [setField_sstat _ (arrive_status u _ _), marks.1]
  have pc : r.1.hart.pc = s.hart.pc := marks.pc_eq
  have count : r.1.hart.instret = s.hart.instret := by rw [marks.1]
  show ({ r.1 with hart := { r.1.hart with
    hinfo := setField r.1.hart.hinfo 8 3 r.2, pc := r.1.hart.pc + 4#64, instret := r.1.hart.instret + 1, held := none } } : State) = _
  rw [info, pc, count]
  rfl

theorem loadBytes_direct {s u : State} {va : Word} {n pa : Nat} (d : s.direct) (r : s.readable va n pa u) :
    loadBytes s.party va n s = .ok (lowBytes n (u.mem.read pa n)) u :=
  M.bind_ok (loadVa_direct d r)

theorem scalarRelease_ok {s : State} {scope : Nat} (d : s.direct) (narrow : scope ≠ 5) : scalarRelease scope s = .ok () s := by
  unfold scalarRelease
  rw [M.bind_ok (waitOlder_ok d.older), M.bind_ok (ownParty_apply s), M.bind_ok (settleStreams_idle d.idle)]
  exact releaseOf_ok true (.inl narrow)

theorem hsend_delivers {s u : State} {rs1 rs2 : Reg} {target va : Word} {pa len : Nat} (d : s.direct)
    (ht : s.hart.rx rs1 = target) (hv : s.hart.rx rs2 = va) (hlen : fieldOf target 16 6 + 1 = len)
    (ok : ¬(fieldOf target 22 42 ≠ 0 ∨ 47 < fieldOf target 8 6)) (bytes : s.readable va len pa u) (free : u.linesFree) :
    exec (.hsend rs1 rs2) s = .next (s.sent u target (lowBytes len (u.mem.read pa len))) := by
  have hart : u.hart = s.hart := (maps_kept bytes.1).1
  have here : u.direct := by rwa [State.direct, hart]
  have line : ¬ 128 < va.toNat % 128 + len := Nat.not_lt.mpr bytes.1.2.1
  obtain ⟨t, sent, eq⟩ := deliverSend_sent hart free target (lowBytes len (u.mem.read pa len))
  rw [← eq]
  refine runScalar_ok ?_
  rw [M.bind_ok (readX_apply rs1 s), M.bind_ok (readX_apply rs2 s), ht, hv]
  dsimp only
  rw [hlen, if_neg ok, if_neg line, M.bind_ok (waitOlder_ok d.older), M.bind_ok (ownParty_apply s),
    M.bind_ok (loadBytes_direct d bytes), M.bind_ok (getH_apply u), here.outside]
  dsimp only
  rw [M.bind_ok (scalarRelease_ok here (by decide)), M.bind_ok sent]
  rfl

end Sys2Proof.Machine

namespace Sys2Proof.Machine
open Sys2Proof

/-! ## HDONE (R168) -/

theorem appendedTo_empty {h : Hart} (empty : ∀ k : Fin 16, h.st[k].appended = []) : h.appendedTo = [] := by
  unfold Hart.appendedTo
  rw [List.filter_eq_nil_iff]
  intro k hk
  have small : k < 16 := List.mem_range.mp hk
  have entry : h.st.toList[k]? = some h.st[k] := by simp [small]
  have none_ : h.st[k].appended = [] := empty ⟨k, small⟩
  rw [entry, Option.map_some, none_]
  decide

theorem settleStreams_empty {s : State} (p : Party) (empty : ∀ k : Fin 16, s.hart.st[k].appended = []) :
    settleStreams p s = .ok () s := by
  unfold settleStreams
  rw [M.bind_ok (M.get_apply s), appendedTo_empty empty]
  simp

/-- A graph that is looked at changes in the device's record of it, and may post an event. -/
theorem noteGraph_eq (s : State) (g : Nat) :
    s.noteGraph g = { s with dev := (s.noteGraph g).dev, inbox := (s.noteGraph g).inbox } := by
  unfold State.noteGraph
  split
  · split <;> rfl
  · rfl

theorem noteGraphs_eq (l : List Nat) (s : State) : l.foldl State.noteGraph s =
    { s with dev := (l.foldl State.noteGraph s).dev, inbox := (l.foldl State.noteGraph s).inbox } := by
  induction l generalizing s with
  | nil => rfl
  | cons g l ih =>
    rw [List.foldl_cons, ih, noteGraph_eq]

/-- The hart whose turn it is leaves all its graphs. -/
theorem leaveGraphs_own (s : State) : (s.leaveGraphs s.hart.id s.hart.graphs).hart = { s.hart with graphs := [] } ∧
    (s.leaveGraphs s.hart.id s.hart.graphs).mem = s.mem ∧ (s.leaveGraphs s.hart.id s.hart.graphs).cores = s.cores := by
  have gone : (s.hart.graphs.filter fun g => !s.hart.graphs.contains g) = [] := by simp
  have own : (s.modHart s.hart.id fun h => { h with graphs := h.graphs.filter fun g => !s.hart.graphs.contains g }).hart =
      { s.hart with graphs := [] } := by
    show (if s.hart.id = s.hart.id then _ else s.hart) = _
    rw [if_pos rfl, gone]
  have rest := noteGraphs_eq s.hart.graphs
    (s.modHart s.hart.id fun h => { h with graphs := h.graphs.filter fun g => !s.hart.graphs.contains g })
  unfold State.leaveGraphs
  rw [rest]
  exact ⟨own, rfl, rfl⟩

theorem checkGang_eq (s : State) (gang : Nat) : s.checkGang gang = { s with inbox := (s.checkGang gang).inbox } := by
  unfold State.checkGang
  split
  · split <;> rfl
  · rfl

/-- The hart as every HDONE leaves it: no binding, no window, no tile, active in no graph. -/
def Hart.left (h : Hart) : Hart :=
  { h with bindings := [], window := none, tiles := Vector.replicate 8 none, graphs := [], instret := h.instret + 1 }

/-- The state as every HDONE makes it, before the end of the run or the thread. -/
def State.leftGraphs (s : State) : State :=
  { s with hart := { s.hart.unbound with tiles := Vector.replicate 8 none } }.leaveGraphs s.hart.id s.hart.graphs

theorem leftGraphs_keeps (s : State) :
    s.leftGraphs.hart = { s.hart with bindings := [], window := none, tiles := Vector.replicate 8 none, graphs := [] } ∧
      s.leftGraphs.mem = s.mem ∧ s.leftGraphs.cores = s.cores :=
  leaveGraphs_own { s with hart := { s.hart.unbound with tiles := Vector.replicate 8 none } }

/-- HDONE ends a thread. -/
theorem finishRun_thread {s : State} (thread : s.hart.serving = none) : ∃ t, finishRun s = .ok () t ∧
    t.hart = { s.hart.left with run := .ended } ∧ t.mem = s.mem := by
  obtain ⟨hart, mem, -⟩ := leftGraphs_keeps s
  have here : s.leftGraphs.hart.serving = none := by rw [hart]; exact thread
  let done : State := { s.leftGraphs with hart := { s.leftGraphs.hart with run := .ended, instret := s.leftGraphs.hart.instret + 1 } }
  refine ⟨done.checkGang s.leftGraphs.hart.gang, ?_, ?_, ?_⟩
  · refine (M.bind_ok (modH_apply _ s)).trans ((M.bind_ok (M.modify_apply _ _)).trans ?_)
    refine (M.bind_ok (getH_apply s.leftGraphs)).trans ?_
    rw [here]
    rfl
  · rw [checkGang_eq]
    show { s.leftGraphs.hart with run := .ended, instret := s.leftGraphs.hart.instret + 1 } = _
    rw [hart]
    rfl
  · rw [checkGang_eq]
    exact mem

/-- HDONE ends a handler run: the context is dormant, and its record is gone. -/
theorem finishRun_context {s : State} {c area slot : Nat} (serving : s.hart.serving = some (c, area, slot)) :
    ∃ t, finishRun s = .ok () t ∧
      t.hart = { s.hart.left with run := .dormant, serving := none, hinfo := setField s.hart.hinfo 7 1 0 } ∧ t.mem = s.mem ∧
      (t.core s.hart.id.coreId).arrivals =
        (s.core s.hart.id.coreId).arrivals.filter fun a => !(a.1 == area && a.2.slot == slot) := by
  obtain ⟨hart, mem, cores⟩ := leftGraphs_keeps s
  have here : s.leftGraphs.hart.serving = some (c, area, slot) := by rw [hart]; exact serving
  have id : s.leftGraphs.hart.id = s.hart.id := by rw [hart]
  let u := s.leftGraphs.modCore s.leftGraphs.hart.id.coreId fun k =>
    { k with arrivals := k.arrivals.filter fun a => !(a.1 == area && a.2.slot == slot) }
  let done : State := { u with hart := { u.hart with
    run := .dormant, serving := none, hinfo := setField u.hart.hinfo 7 1 0, instret := u.hart.instret + 1 } }
  refine ⟨(done.post [.handlerRunStart s.leftGraphs.hart.id]).checkGang s.leftGraphs.hart.gang, ?_, ?_, ?_, ?_⟩
  · refine (M.bind_ok (modH_apply _ s)).trans ((M.bind_ok (M.modify_apply _ _)).trans ?_)
    refine (M.bind_ok (getH_apply s.leftGraphs)).trans ?_
    rw [here]
    rfl
  · rw [checkGang_eq]
    show { s.leftGraphs.hart with
      run := .dormant, serving := none, hinfo := setField s.leftGraphs.hart.hinfo 7 1 0, instret := s.leftGraphs.hart.instret + 1 } = _
    rw [hart]
    rfl
  · rw [checkGang_eq]
    exact mem
  · rw [checkGang_eq, ← id]
    show (u.core s.leftGraphs.hart.id.coreId).arrivals = _
    rw [modCore_same, State.core, cores]
    rfl

/-- The slot list of a hart that has no slot to retire. -/
theorem retireSlots_nil {s : State} (p : Party) (empty : s.hart.slots = []) : retireSlots p false [] s = .ok true s := by
  show EStateM.Result.ok true { s with hart := { s.hart with slots := [] } } = _
  rw [← empty]

/-- A hart with nothing queued, appended or held in a ring comes to the end of its run at once. -/
theorem exec_hdone {s t : State} (tx : s.hart.tx = none) (vq : s.hart.vq = []) (mq : s.hart.mq = []) (slots : s.hart.slots = [])
    (empty : ∀ k : Fin 16, s.hart.st[k].appended = []) (ran : finishRun s = .ok () t) : exec .hdone s = .next t.goesOn := by
  have drained : s.hart.drained = true := by simp [Hart.drained, vq, mq]
  have left : leaveRun s = .ok true t := by
    unfold leaveRun
    rw [M.bind_ok (drain_drained drained), M.bind_ok (ownParty_apply s), M.bind_ok (settleStreams_empty _ empty),
      M.bind_ok (show release 4 s = .ok () s from releaseOf_ok true (.inl (by decide))), M.bind_ok (ownParty_apply s),
      M.bind_ok (getH_apply s), slots, M.bind_ok (retireSlots_nil _ slots)]
    exact M.bind_ok ran
  refine runScalar_ok ?_
  rw [M.bind_ok (abortIfTx_outside tx), M.bind_ok left]
  rfl

/-- hinfo outside a run. -/
theorem setField_inRun (v : Word) : setField v 7 1 0 = v &&& ~~~0x80#64 := by
  rw [setField, show (0 % 2 ^ 1 * 2 ^ 7 : Nat) = 0 from rfl]
  exact BitVec.or_zero

/-- What HDONE leaves: of the hart what Hart.left keeps, asleep after a run and ended after a thread. -/
theorem hdone_done {s : State} (tx : s.hart.tx = none) (vq : s.hart.vq = []) (mq : s.hart.mq = []) (slots : s.hart.slots = [])
    (empty : ∀ k : Fin 16, s.hart.st[k].appended = []) : reaches (exec .hdone s) fun t =>
      sameRegs s t ∧ t.hart.v = s.hart.v ∧ t.hart.p = s.hart.p ∧ t.mem = s.mem ∧ t.hart.bindings = [] ∧
      t.hart.window = none ∧ (∀ n, t.hart.tile n = none) ∧ t.hart.graphs = [] ∧ t.hart.instret = s.hart.instret + 1 ∧
      (s.hart.serving = none → t.hart.run = .ended) ∧
      ∀ c area slot, s.hart.serving = some (c, area, slot) → t.hart.run = .dormant ∧ t.hart.serving = none ∧
        t.hart.hinfo = s.hart.hinfo &&& ~~~0x80#64 ∧
        ∀ x, x ∈ (t.core s.hart.id.coreId).arrivals ↔
          x ∈ (s.core s.hart.id.coreId).arrivals ∧ ¬(x.1 = area ∧ x.2.slot = slot) := by
  cases serving : s.hart.serving with
  | none =>
    obtain ⟨t, ran, hart, mem⟩ := finishRun_thread serving
    have after : t.goesOn.hart = { s.hart.left with run := .ended, held := none } := by rw [State.goesOn_hart, hart]
    refine ⟨_, exec_hdone tx vq mq slots empty ran, ?_⟩
    beta_reduce
    rw [sameRegs, after]
    exact ⟨rfl, rfl, rfl, mem, rfl, rfl, fun n => getD_replicate_same 8 n none, rfl, rfl, fun _ => rfl, fun _ _ _ h => nomatch h⟩
  | some run =>
    obtain ⟨c, area, slot⟩ := run
    obtain ⟨t, ran, hart, mem, arrivals⟩ := finishRun_context serving
    have after : t.goesOn.hart = { s.hart.left with
        run := .dormant, serving := none, hinfo := setField s.hart.hinfo 7 1 0, held := none } := by rw [State.goesOn_hart, hart]
    refine ⟨_, exec_hdone tx vq mq slots empty ran, ?_⟩
    beta_reduce
    rw [sameRegs, after]
    refine ⟨rfl, rfl, rfl, mem, rfl, rfl, fun n => getD_replicate_same 8 n none, rfl, rfl, (nomatch ·), fun c' area' slot' same => ?_⟩
    cases same
    refine ⟨rfl, rfl, setField_inRun _, fun x => ?_⟩
    show x ∈ (t.core s.hart.id.coreId).arrivals ↔ _
    rw [arrivals, List.mem_filter]
    simp [imp_iff_not_or]

/-- Settles O39: HBIND faults with the first reason that applies or writes the handler table, HSEND is an arrival of what it
has loaded, and HDONE finds nothing to wait for and ends the run or the thread. -/
theorem handlerInstructions : Obligations.HandlerInstructions := by
  unfold Obligations.HandlerInstructions
  intro s rs1 rs2 tx
  dsimp only
  refine ⟨fun far here => ?_, fun near foreign here => ?_, fun near own taken here => ?_,
    fun near own free => ⟨fun odd here => ?_, fun even => ?_⟩, fun d => ⟨fun bad here => ?_, fun zero cluster =>
      ⟨fun crosses here => ?_, fun pa u bytes free => ?_⟩⟩, fun vq mq slots empty => ?_⟩
  case refine_1 => exact hbind_faults tx (if_pos far) here
  case refine_2 => exact hbind_faults tx ((if_neg (Nat.not_le.mpr near)).trans (if_pos foreign)) here
  case refine_3 => exact hbind_faults tx ((bindReason_inside near own).trans (if_pos taken)) here
  case refine_4 => exact hbind_faults tx ((bindReason_free near own free).trans (if_pos odd)) here
  case refine_5 => exact hbind_binds tx ((bindReason_free near own free).trans (if_neg (not_not.mpr even)))
  case refine_6 => exact hsend_targetFault rfl rfl bad here
  case refine_7 => exact hsend_misaligned rfl rfl (hsendTarget_ok zero cluster) crosses here
  case refine_8 =>
    refine ⟨_, hsend_delivers d rfl rfl rfl (hsendTarget_ok zero cluster) bytes free, ?_⟩
    rw [State.sent, sendArrival, lowBytes_length]
    rfl
  case refine_9 => exact hdone_done tx vq mq slots empty

end Sys2Proof.Machine

namespace Sys2Proof.Machine
open Sys2Proof

/-! ## Harts by their names -/

theorem hartAt_congr {s t : State} (h : t.harts = s.harts) (g : HartId) : t.hartAt g = s.hartAt g := by
  unfold State.hartAt State.findHart
  rw [h]

/-- Another hart than the one whose turn it is stands among the others. -/
theorem hartAt_of_others {s : State} {g : HartId} (other : s.hart.id ≠ g) :
    s.hartAt g = (s.others.find? fun h => h.id == g).getD (Hart.reset g) := by
  simp [State.hartAt, State.findHart, State.harts, other]

/-- Giving the turn to a hart changes no hart. -/
theorem hartAt_focus (s : State) (id g : HartId) : (s.focus id).hartAt g = s.hartAt g := by
  by_cases here : g = id
  · rw [here, hartAt_of_hart (focus_id s id), focus_hart]
  · by_cases turn : s.hart.id = g
    · rw [focus_hartAt id turn, hartAt_of_hart turn]
    · have front : (s.focus id).hart.id ≠ g := by rw [focus_id]; exact Ne.symm here
      rw [hartAt_of_others front, hartAt_of_others turn]
      congr 1
      unfold State.focus
      split
      · rfl
      · have kept : (fun h : Hart => decide ((h.id != id) = true ∧ (h.id == g) = true)) = fun h => h.id == g := by
          funext h
          by_cases there : h.id = g <;> simp [there, here]
        split
        · rw [List.find?_cons_of_neg (by simpa using turn), List.find?_filter, kept]
        · rw [List.find?_cons_of_neg (by simpa using turn)]

/-- A hart that is not idle holds work. -/
theorem findHart_of_run {s : State} {id : HartId} (h : (s.hartAt id).run ≠ .idle) : s.findHart id = some (s.hartAt id) := by
  unfold State.hartAt at h ⊢
  cases found : s.findHart id with
  | some k => rfl
  | none => rw [found] at h; exact absurd rfl h

/-- A change of one hart that keeps its name. -/
theorem modHart_becomes {s : State} {id : HartId} {f : Hart → Hart} (named : ∀ h, (f h).id = h.id)
    (runs : (s.hartAt id).run ≠ .idle) : hartBecomes s (s.modHart id f) id (f (s.hartAt id)) :=
  ⟨modHart_same named (findHart_of_run runs), fun _ other => modHart_other named other⟩

theorem hartBecomes.of_harts {s t u : State} {id : HartId} {k : Hart} (h : hartBecomes s t id k) (same : u.harts = t.harts) :
    hartBecomes s u id k :=
  ⟨(hartAt_congr same id).trans h.1, fun g other => (hartAt_congr same g).trans (h.2 g other)⟩

theorem hartBecomes.from_harts {s t u : State} {id : HartId} {k : Hart} (h : hartBecomes s t id k) (same : s.harts = u.harts) :
    hartBecomes u t id k :=
  ⟨h.1, fun g other => (h.2 g other).trans (hartAt_congr same g)⟩

/-- A change of the hart whose turn it is, and of no other. -/
theorem hartBecomes_turn {s t : State} {id : HartId} (here : s.hart.id = id) (named : t.hart.id = id) (others : t.others = s.others) :
    hartBecomes s t id t.hart := by
  refine ⟨hartAt_of_hart named, fun g other => ?_⟩
  rw [hartAt_of_others (named ▸ Ne.symm other), hartAt_of_others (here ▸ Ne.symm other), others]

/-- A function of the state with another hart's turn, which changes no hart but that one. -/
theorem asHart_becomes {s : State} {id : HartId} {f : State → State} (named : (f (s.focus id)).hart.id = id)
    (others : (f (s.focus id)).others = (s.focus id).others) :
    hartBecomes s (s.asHart id f) id (f (s.focus id)).hart ∧ (s.asHart id f).mem = (f (s.focus id)).mem := by
  obtain ⟨here, rest⟩ := hartBecomes_turn (focus_id s id) named others
  refine ⟨⟨?_, fun g other => ?_⟩, focus_mem _ _⟩
  · exact (hartAt_focus _ _ _).trans here
  · exact (hartAt_focus _ _ _).trans ((rest g other).trans (hartAt_focus s id g))

end Sys2Proof.Machine

namespace Sys2Proof.Machine
open Sys2Proof

/-! ## The passing of time (R25, R90, R171, R172) -/

theorem reach_harts (s : State) (n : Nat) : (s.reach n).harts = s.harts ∧ (s.reach n).mem = s.mem := by
  unfold State.reach
  split
  · exact ⟨rfl, rfl⟩
  · split <;> exact ⟨rfl, rfl⟩

theorem reach_clock (s : State) (n : Nat) : (s.reach n).clock = max s.clock n := by
  unfold State.reach
  split
  · next past => exact (Nat.max_eq_left past).symm
  · next ahead =>
    split <;> exact (Nat.max_eq_right (Nat.le_of_not_le ahead)).symm

/-- A hart one age step later (R171). -/
def Hart.aged (h : Hart) : Hart := { h with age := min 3 (h.age + 1), unselected := 0 }

theorem ageStep_effect {s : State} {h : HartId} (running : (s.hartAt h).run = .running) :
    reaches (exec (.ageStep h) s) fun t => t.mem = s.mem ∧ hartBecomes s t h (s.hartAt h).aged := by
  have named : ∀ k : Hart, (if k.runnable = true then k.aged else k).id = k.id := fun k => by split <;> rfl
  obtain ⟨here, rest⟩ := modHart_becomes named (s := s) (id := h) (by rw [running]; decide)
  refine ⟨_, rfl, rfl, here.trans (if_pos ?_), rest⟩
  rw [Hart.runnable, running]
  rfl

/-- A hart whose pause is over (R90). -/
def Hart.unpaused (h : Hart) : Hart := { h with run := .running, deadline := none }

theorem pauseExpiry_effect {s : State} {h : HartId} (paused : (s.hartAt h).run = .paused) :
    reaches (exec (.pauseExpiry h) s) fun t => t.mem = s.mem ∧ (s.hartAt h).deadline.getD 0 ≤ t.clock ∧ s.clock ≤ t.clock ∧
      hartBecomes s t h (s.hartAt h).unpaused := by
  obtain ⟨harts, mem⟩ := reach_harts s ((s.hartAt h).deadline.getD 0)
  have clock := reach_clock s ((s.hartAt h).deadline.getD 0)
  have same : (s.reach ((s.hartAt h).deadline.getD 0)).hartAt h = s.hartAt h := hartAt_congr harts h
  have becomes := modHart_becomes (f := Hart.unpaused) (fun _ => rfl)
    (s := s.reach ((s.hartAt h).deadline.getD 0)) (id := h) (by rw [same, paused]; decide)
  rw [same] at becomes
  refine ⟨(s.reach ((s.hartAt h).deadline.getD 0)).modHart h Hart.unpaused, ?_, mem, ?_, ?_, becomes.from_harts harts⟩
  · show execPauseExpiry h s = _
    unfold execPauseExpiry
    dsimp only
    rw [if_pos paused]
    rfl
  · exact Nat.le_trans (Nat.le_max_right ..) (Nat.le_of_eq clock.symm)
  · exact Nat.le_trans (Nat.le_max_left ..) (Nat.le_of_eq clock.symm)

theorem assocGet_map {α β : Type} [DecidableEq α] (f : β → β) (k : α) (d : β) (l : List (α × β)) (fixed : f d = d) :
    assocGet k d (l.map fun x => (x.1, f x.2)) = f (assocGet k d l) := by
  induction l with
  | nil => exact fixed.symm
  | cons e l ih => by_cases here : e.1 = k <;> simp [assocGet, here, ih]

/-- A budget after a tick, in one form (R172, R434). -/
theorem Budget.tick_eq (b : Budget) : b.tick =
    { b with used := 0, pending := none, limit := (b.pending.map Prod.fst).getD b.limit,
             slack := (b.pending.map Prod.snd).getD b.slack } := by
  obtain ⟨_, _, _, _, _, pending, _⟩ := b
  cases pending <;> rfl

theorem tickBoundary_effect (s : State) : reaches (exec .tickBoundary s) fun t =>
    t.clock = (s.clock / 65536 + 1) * 65536 ∧ t.hart = s.hart ∧ t.others = s.others ∧ t.mem = s.mem ∧ t.dev = s.dev ∧
    (∀ c, t.core c = { s.core c with used := [] }) ∧
    ∀ c, t.cluster c = { s.cluster c with budgets := (s.cluster c).budgets.map Budget.tick } := by
  have ran : exec .tickBoundary s = .next ({ s with clock := (s.clock / 65536 + 1) * 65536 } : State).newTick := by
    show Host.Outcome.next (s.reach ((s.clock / 65536 + 1) * 65536)) = _
    unfold State.reach
    rw [if_neg (by omega), if_pos (by omega)]
  exact ⟨_, ran, rfl, rfl, rfl, rfl, rfl, fun c => assocGet_map (fun k : Core => { k with used := [] }) c _ _ rfl,
    fun c => assocGet_map (fun k : Cluster => { k with budgets := k.budgets.map Budget.tick }) c _ _ rfl⟩

end Sys2Proof.Machine

namespace Sys2Proof.Machine
open Sys2Proof

/-! ## A trap at a boundary (R13, R364, R366, R368, R382) -/

theorem Hart.detach_id (h : Hart) : h.detach.id = h.id := by unfold Hart.detach; split <;> rfl

/-- What a trap of the scalar stream leaves of the pending work of a hart that had no frame: it stands in the frame. -/
def Hart.setAside (h : Hart) (interrupt : Bool) (t : Trap) (sepc : Word) : Hart :=
  let r : Hart := { h.detach with held := none, reservation := none, acquiring := [] }.recordTrap interrupt t sepc (!h.faults.isEmpty)
  { r with frame := r.frame.map fun f => f.atTrap r t }

/-- What a hart keeps while an interrupt sets its pending work aside. -/
theorem Hart.setAside_interrupt (h : Hart) (code : Nat) (sepc : Word) :
    let r := h.setAside true { cause := code, tval := 0#64, vf := none } sepc
    r.id = h.id ∧ r.priv = h.priv ∧ r.sstatus = h.sstatus ∧ r.stvec = h.stvec ∧ r.x = h.x ∧ r.sepc = sepc ∧
    r.scause = wordOf code ||| 0x8000_0000_0000_0000#64 := by
  obtain ⟨priv, status, vec, x, -⟩ := h.detach_keeps
  exact ⟨h.detach_id, priv, status, vec, x, rfl, rfl⟩

/-- An interrupt of a hart without a frame never goes to the Lantern (R370). -/
theorem takeTrap_interrupt (s : State) (code : Nat) (sepc : Word) (frame : s.hart.frame = none) :
    s.takeTrap true { cause := code, tval := 0#64, vf := none } sepc =
      { s.dropReads s.hart.id with
        hart := (s.hart.setAside true { cause := code, tval := 0#64, vf := none } sepc).enterS true code } := by
  have own : s.hart.toLantern true { cause := code, tval := 0#64, vf := none } = false := by
    simp [Hart.toLantern, frame]
  unfold State.takeTrap
  simp only [frame, own, Option.isSome_none, Bool.false_eq_true, if_false]
  rfl

/-- The program counter and the status of a hart that has entered S mode for an interrupt (R13). -/
theorem Hart.enterS_interrupt (h : Hart) (code : Nat) :
    (h.enterS true code).pc = (h.stvec &&& ~~~3#64) +
      (if h.stvec.extractLsb' 0 2 = 1#2 then BitVec.ofNat 64 (4 * code) else 0#64) ∧
    (h.enterS true code).sstatus = (h.enterS false code).sstatus := by
  refine ⟨?_, rfl⟩
  have direct : (fieldOf h.stvec 0 2 == 1) = decide (h.stvec.extractLsb' 0 2 = 1#2) := by
    rw [Bool.eq_iff_iff, beq_iff_eq, decide_eq_true_iff]
    exact BitVec.toNat_inj (y := 1#2)
  unfold Hart.enterS
  simp only [direct, Bool.true_and, decide_eq_true_eq]
  split
  · rfl
  · exact (BitVec.add_zero _).symm

/-- The hart after the interrupt `code` taken at its boundary, outside a transaction. -/
def Hart.interrupted (h : Hart) (code : Nat) : Hart :=
  (({ h with marks := [], sleepTarget := none, deadline := none } : Hart).setAside true
    { cause := code, tval := 0#64, vf := none } h.pc).enterS true code

theorem takeInterrupt_eq {s : State} {code : Nat} (tx : s.hart.tx = none) (frame : s.hart.frame = none) :
    s.takeInterrupt code = { s.dropReads s.hart.id with hart := s.hart.interrupted code } := by
  have outside : ¬ s.hart.tx.isSome = true := by simp [tx]
  unfold State.takeInterrupt
  dsimp only
  rw [if_neg outside, takeTrap_interrupt _ _ _ (by exact frame)]
  rfl

theorem trapEntry_runs {s : State} {h : HartId} (error : Bool)
    (awake : (s.hartAt h).run = .running ∨ (s.hartAt h).run = .paused ∨ (s.hartAt h).run = .sleeping) :
    exec (.trapEntry { hart := h, error := error }) s =
      .next (s.asHart h fun t => if error then t.storageError else t.boundary.getD t) := by
  show execTrapEntry _ s = _
  unfold execTrapEntry
  exact if_pos (by rcases awake with r | r | r <;> simp [r])

theorem focus_dev (s : State) (id : HartId) : (s.focus id).dev = s.dev := by
  unfold State.focus
  split
  · rfl
  · split <;> rfl

theorem pendingInterrupt_congr {s t : State} (hart : s.hart = t.hart) (dev : s.dev = t.dev) :
    s.pendingInterrupt = t.pendingInterrupt := by
  unfold State.pendingInterrupt
  rw [hart, dev]

theorem trapEntry_interrupt {s : State} {h : HartId} {code : Nat}
    (awake : (s.hartAt h).run = .running ∨ (s.hartAt h).run = .paused ∨ (s.hartAt h).run = .sleeping)
    (faults : (s.hartAt h).faults = []) (frame : (s.hartAt h).frame = none) (tx : (s.hartAt h).tx = none)
    (due : ({ s with hart := s.hartAt h } : State).pendingInterrupt = some code) :
    reaches (exec (.trapEntry { hart := h, error := false }) s) fun t =>
      hartBecomes s t h ((s.hartAt h).interrupted code) ∧ t.mem = s.mem := by
  have boundary : (s.focus h).boundary = some ((s.focus h).takeInterrupt code) := by
    unfold State.boundary
    rw [focus_hart, faults, pendingInterrupt_congr (t := { s with hart := s.hartAt h }) (focus_hart s h) (focus_dev s h), due]
    rfl
  have taken : (s.focus h).boundary.getD (s.focus h) =
      { (s.focus h).dropReads h with hart := (s.hartAt h).interrupted code } := by
    rw [boundary, Option.getD_some, takeInterrupt_eq (by rw [focus_hart]; exact tx) (by rw [focus_hart]; exact frame),
      focus_hart, hartAt_id]
  obtain ⟨named, -⟩ := ({ s.hartAt h with marks := [], sleepTarget := none, deadline := none } : Hart).setAside_interrupt
    code (s.hartAt h).pc
  refine ⟨_, trapEntry_runs false awake, ?_⟩
  obtain ⟨becomes, mem⟩ := asHart_becomes (s := s) (id := h) (f := fun t => t.boundary.getD t)
    (by rw [taken]; exact named.trans (hartAt_id s h)) (by rw [taken]; rfl)
  rw [taken] at becomes mem
  exact ⟨becomes, mem.trans (focus_mem s h)⟩

theorem Hart.interrupted_effect (k : Hart) (code : Nat) :
    let u := k.interrupted code
    u.priv = .supervisor ∧ u.sepc = k.pc ∧ u.scause = 0x8000_0000_0000_0000#64 ||| BitVec.ofNat 64 code ∧
    u.pc = (k.stvec &&& ~~~3#64) + (if k.stvec.extractLsb' 0 2 = 1#2 then BitVec.ofNat 64 (4 * code) else 0#64) ∧
    u.run = .running ∧ u.x = k.x ∧ u.sstatus.getLsbD 1 = false ∧ u.sstatus.getLsbD 5 = k.sstatus.getLsbD 1 ∧
    u.sstatus.getLsbD 8 = decide (k.priv = .supervisor) := by
  obtain ⟨-, priv, status, vec, x, sepc, cause⟩ :=
    ({ k with marks := [], sleepTarget := none, deadline := none } : Hart).setAside_interrupt code k.pc
  obtain ⟨pc, same⟩ := (({ k with marks := [], sleepTarget := none, deadline := none } : Hart).setAside true
    { cause := code, tval := 0#64, vf := none } k.pc).enterS_interrupt code
  obtain ⟨-, bits⟩ := (({ k with marks := [], sleepTarget := none, deadline := none } : Hart).setAside true
    { cause := code, tval := 0#64, vf := none } k.pc).enterS_exception code
  rw [← same, priv, status] at bits
  rw [vec] at pc
  exact ⟨rfl, sepc, cause.trans (BitVec.or_comm ..), pc, rfl, x, bits 1 (by decide), bits 5 (by decide), bits 8 (by decide)⟩

/-- The trap of an error in a hart's storage (R382). -/
def storageTrap : Trap :=
  { cause := 48, tval := 0#64, vf := some { pc := 0#64, stream := 0, sub := 5, addr := 0#64, vstart := none } }

/-- A hart that is parked for an error in its storage: what it records, and what it keeps. -/
def Hart.storageFailed (h k : Hart) (sepc : Word) : Prop :=
  k.id = h.id ∧ k.run = .parked ∧ k.resumePc = sepc ∧ k.parkCause = 48 ∧ k.scause = 48#64 ∧
  k.vfcause.extractLsb' 0 8 = 5#8 ∧ k.x = h.x

theorem recordTrap_storage (h d : Hart) (sepc : Word) (other : Bool) (named : d.id = h.id) (kept : d.x = h.x) :
    h.storageFailed { d.recordTrap false storageTrap sepc other with run := .parked, resumePc := sepc, parkCause := 48 } sepc := by
  refine ⟨named, rfl, rfl, rfl, ?_, extractLsb'_setField_same _ 5 (by decide), kept⟩
  exact BitVec.or_zero

/-- A poisoned value always parks the hart (R382). -/
theorem takeTrap_storage (s : State) (sepc : Word) :
    s.hart.storageFailed (s.takeTrap false storageTrap sepc).hart sepc ∧
    (s.takeTrap false storageTrap sepc).others = s.others ∧ (s.takeTrap false storageTrap sepc).mem = s.mem := by
  have lantern : s.hart.toLantern false storageTrap = true := by simp [Hart.toLantern, storageTrap]
  unfold State.takeTrap
  dsimp only
  rw [if_pos lantern]
  refine ⟨?_, rfl, rfl⟩
  by_cases framed : s.hart.frame.isSome = true
  · rw [if_pos framed, if_pos framed]
    exact recordTrap_storage s.hart { s.hart with held := none, reservation := none, acquiring := [] } sepc _ rfl rfl
  · rw [if_neg framed, if_neg framed]
    obtain ⟨-, -, -, x, -⟩ := s.hart.detach_keeps
    exact recordTrap_storage s.hart { s.hart.detach with held := none, reservation := none, acquiring := [] } sepc _
      s.hart.detach_id x

theorem storageError_effect (s : State) (tx : s.hart.tx = none) :
    s.hart.storageFailed s.storageError.hart s.hart.pc ∧ s.storageError.others = s.others ∧ s.storageError.mem = s.mem := by
  have outside : ¬ s.hart.tx.isSome = true := by simp [tx]
  unfold State.storageError State.fault
  dsimp only
  rw [if_neg (by exact outside)]
  exact takeTrap_storage _ s.hart.pc

theorem trapEntry_error {s : State} {h : HartId}
    (awake : (s.hartAt h).run = .running ∨ (s.hartAt h).run = .paused ∨ (s.hartAt h).run = .sleeping)
    (tx : (s.hartAt h).tx = none) :
    reaches (exec (.trapEntry { hart := h, error := true }) s) fun t =>
      let u := t.hartAt h
      u.run = .parked ∧ u.resumePc = (s.hartAt h).pc ∧ u.parkCause = 48 ∧ u.scause = 48#64 ∧
      u.vfcause.extractLsb' 0 8 = 5#8 ∧ u.x = (s.hartAt h).x ∧ t.mem = s.mem ∧ ∀ g, g ≠ h → t.hartAt g = s.hartAt g := by
  obtain ⟨failed, others, mem⟩ := storageError_effect (s.focus h) (by rw [focus_hart]; exact tx)
  rw [focus_hart] at failed
  obtain ⟨named, run, pc, cause, scause, vfcause, x⟩ := failed
  obtain ⟨⟨here, rest⟩, kept⟩ := asHart_becomes (s := s) (id := h) (f := State.storageError)
    (named.trans (hartAt_id s h)) others
  refine ⟨_, trapEntry_runs true awake, ?_⟩
  rw [← here] at run pc cause scause vfcause x
  exact ⟨run, pc, cause, scause, vfcause, x, kept.trans (mem.trans (focus_mem s h)), rest⟩

end Sys2Proof.Machine

namespace Sys2Proof.Machine
open Sys2Proof

/-! ## The end of a sleep, and the abort of a doomed attempt (R198, R207, R211) -/

theorem runEvent_ok {i : Instr} {m : M Unit} {s t : State} (h : m s = .ok () t) : runEvent i m s = .next t := by
  unfold runEvent
  rw [h]

/-- A mark on a line is found by a write to that line. -/
theorem hitMark_isSome {coarse : List Nat} {marks : List Mark} {line : Nat} (h : ∃ m, m ∈ marks ∧ m.line = line) :
    (hitMark coarse marks line).isSome = true := by
  obtain ⟨m, listed, here⟩ := h
  have found : (marks.find? fun m => m.line == line).isSome = true :=
    List.find?_isSome.mpr ⟨m, listed, by simpa using here⟩
  rw [hitMark, Option.isSome_or, found, Bool.true_or]

theorem registration_none {α : Type} {s : State} {id : HartId} (f : WakeReg → Option α)
    (alone : ∀ w, w ∈ (s.core id.coreId).wakes → w.ctx ≠ id.hart) : s.registration id f = none := by
  unfold State.registration
  rw [List.filter_eq_nil_iff.mpr fun w hw => by simpa using alone w hw]
  rfl

theorem transactionWake_effect {s : State} {h : HartId} {line : Nat} (asleep : (s.hartAt h).run = .sleeping)
    (marked : ∃ m, m ∈ (s.hartAt h).marks ∧ m.line = line) (alone : ∀ w, w ∈ (s.core h.coreId).wakes → w.ctx ≠ h.hart) :
    reaches (exec (.transactionWake h line) s) fun t => t.mem = s.mem ∧ hartBecomes s t h (s.hartAt h).wake := by
  refine ⟨s.modHart h Hart.wake, runEvent_ok ?_, rfl, modHart_becomes (fun _ => rfl) (by rw [asleep]; decide)⟩
  have hit : ((s.hartAt h).run == .sleeping && (hitMark s.dev.coarse (s.hartAt h).marks line).isSome) = true := by
    rw [asleep, hitMark_isSome marked]; rfl
  have quiet : (s.modHart h Hart.wake).registration h (fun w => hitMark s.dev.coarse w.lines line) = none :=
    registration_none _ alone
  rw [M.bind_ok (M.modify_apply _ s), if_pos hit, M.bind_ok (M.get_apply _)]
  exact congrArg (fun r : Option (WakeReg × Mark) => (match r with
    | some (w, m) => if m.line = line then deliverWake h w (some m.va) 0 else deliverWake h w none 1
    | none => pure () : M Unit) (s.modHart h Hart.wake)) quiet

theorem txdeadlineExpiry_effect {s : State} {h : HartId} {d : Nat} {w : SleepTarget} (asleep : (s.hartAt h).run = .sleeping)
    (due : (s.hartAt h).deadline = some d) (target : (s.hartAt h).sleepTarget = some w) :
    reaches (exec (.txdeadlineExpiry h) s) fun t =>
      d ≤ t.clock ∧ t.mem = s.mem ∧ hartBecomes s t h ((s.hartAt h).timeout w) := by
  obtain ⟨harts, mem⟩ := reach_harts s d
  have same : (s.reach d).hartAt h = s.hartAt h := hartAt_congr harts h
  have named : ∀ k : Hart, (k.timeout w).id = k.id := fun k => Hart.wx_id ..
  have becomes := modHart_becomes named (s := s.reach d) (id := h) (by rw [same, asleep]; decide)
  rw [same] at becomes
  refine ⟨(s.reach d).modHart h fun k => k.timeout w, ?_, ?_, mem, becomes.from_harts harts⟩
  · show execTxdeadlineExpiry h s = _
    unfold execTxdeadlineExpiry
    dsimp only
    rw [asleep, due, target]
  · exact Nat.le_trans (Nat.le_max_right ..) (Nat.le_of_eq (reach_clock s d).symm)

theorem Hart.timeout_effect (k : Hart) (w : SleepTarget) :
    let u := k.timeout w
    u.run = .running ∧ u.pc = w.target ∧ u.txstat.extractLsb' 0 8 = 12#8 ∧ u.txstat.getLsbD 23 = w.ordered ∧ u.vstart = 0 ∧
    u.rx w.rd = (if w.rd = 0#5 then 0#64 else u.txstat) ∧ ∀ r, r ≠ w.rd → u.rx r = k.rx r := by
  unfold Hart.timeout
  dsimp only
  rw [Hart.wx_txstat]
  refine ⟨Hart.wx_run .., Hart.wx_pc .., extractLsb'_setField_same _ 12 (by decide), ?_, Hart.wx_vstart ..,
    Hart.rx_wx_same _ w.rd _, fun r other => Hart.rx_wx_other _ w.rd r _ other⟩
  rw [setField_getLsbD _ _ _ _ _ (by decide), setField_getLsbD _ _ _ _ _ (by decide), setField_bit _ _ _ _ (by decide)]
  cases w.ordered <;> rfl

/-- A hart after the abort of its attempt, before the status is in its register (R198, R199). -/
def Hart.restored (h : Hart) (tr : Tx) (cp : TxLevel) (stat : Word) : Hart :=
  { h with tx := none, txstat := stat, x := cp.x, vl := min cp.vl h.vlmax, vstart := 0, pc := cp.target, held := none,
           vq := [], mq := [], faults := [], lastBegin := some tr.begin_, footprint := tr.lines }

theorem abortTx_doomed {s : State} {tr : Tx} {cp : TxLevel} (tx : s.hart.tx = some tr) (doomed : tr.doomed = true)
    (last : tr.levels.getLast? = some cp) : ∃ stat : Word, stat.extractLsb' 0 8 = 1#8 ∧
      s.abortTx 1 0 = { s with hart := (s.hart.restored tr cp stat).wx tr.rd stat } := by
  unfold State.abortTx
  dsimp only
  rw [tx]
  simp only [doomed, last, if_true, Option.getD_some]
  exact ⟨_, extractLsb'_setField_same _ 1 (by decide), rfl⟩

theorem abortTx_effect {s : State} {tr : Tx} {cp : TxLevel} (tx : s.hart.tx = some tr) (doomed : tr.doomed = true)
    (last : tr.levels.getLast? = some cp) :
    let t := s.abortTx 1 0
    let u := t.hart
    (u.id = s.hart.id ∧ t.others = s.others ∧ t.mem = s.mem) ∧
    u.tx = none ∧ u.pc = cp.target ∧ u.txstat.extractLsb' 0 8 = 1#8 ∧ u.vl = min cp.vl s.hart.vlmax ∧
    u.rx tr.rd = (if tr.rd = 0#5 then 0#64 else u.txstat) ∧
    ∀ r, r ≠ tr.rd → u.rx r = if r = 0#5 then 0#64 else cp.x[r.toNat] := by
  obtain ⟨stat, cause, ran⟩ := abortTx_doomed tx doomed last
  dsimp only
  rw [ran, Hart.wx_txstat]
  exact ⟨⟨Hart.wx_id .., rfl, rfl⟩, Hart.wx_tx .., Hart.wx_pc .., cause, Hart.wx_vl .., Hart.rx_wx_same _ tr.rd stat,
    fun r other => Hart.rx_wx_other _ tr.rd r stat other⟩

theorem transactionAbort_effect {s : State} {h : HartId} {tr : Tx} {cp : TxLevel} (tx : (s.hartAt h).tx = some tr)
    (doomed : tr.doomed = true) (last : tr.levels.getLast? = some cp) :
    reaches (exec (.transactionAbort h) s) fun t =>
      let u := t.hartAt h
      u.tx = none ∧ u.pc = cp.target ∧ u.txstat.extractLsb' 0 8 = 1#8 ∧ u.vl = min cp.vl (s.hartAt h).vlmax ∧
      u.rx tr.rd = (if tr.rd = 0#5 then 0#64 else u.txstat) ∧
      (∀ r, r ≠ tr.rd → u.rx r = if r = 0#5 then 0#64 else cp.x[r.toNat]) ∧ t.mem = s.mem ∧
      ∀ g, g ≠ h → t.hartAt g = s.hartAt g := by
  obtain ⟨⟨named, others, mem⟩, effect⟩ := abortTx_effect (s := s.focus h) (by rw [focus_hart]; exact tx) doomed last
  rw [focus_hart] at effect named
  obtain ⟨⟨here, rest⟩, kept⟩ := asHart_becomes (s := s) (id := h) (f := fun t => t.abortTx 1 0)
    (named.trans (hartAt_id s h)) others
  obtain ⟨out, pc, stat, vl, rd, x⟩ := effect
  refine ⟨s.asHart h fun t => t.abortTx 1 0, ?_, ?_⟩
  · show execTransactionAbort h s = _
    unfold execTransactionAbort
    rw [tx, if_pos (by exact doomed)]
  · rw [← here] at out pc stat vl rd x
    exact ⟨out, pc, stat, vl, rd, x, kept.trans (mem.trans (focus_mem s h)), rest⟩

end Sys2Proof.Machine

namespace Sys2Proof.Machine
open Sys2Proof

/-! ## What writes of lines leave of every hart -/

/-- No hart has changed but by what writes of lines do to it. -/
def marksEach (s t : State) : Prop := ∀ g, marksOnly (s.hartAt g) (t.hartAt g)

theorem marksEach.trans {s t u : State} (h : marksEach s t) (k : marksEach t u) : marksEach s u :=
  fun g => (h g).trans (k g)

theorem marksEach.of_harts {s t : State} (h : t.harts = s.harts) : marksEach s t := fun g => by
  rw [hartAt_congr h]
  exact .refl _

theorem marksOnly.run_eq {h k : Hart} (m : marksOnly h k) : k.run = h.run := by rw [m.1]

theorem noteLine_marksEach (s : State) (self : Option HartId) (line : Nat) : marksEach s (s.noteLine self line) := by
  intro g
  have kept : ∀ h : Hart, marksOnly h (h.seesWrite s.dev.coarse self line) := fun h => seesWrite_marksOnly ..
  have found : (s.noteLine self line).findHart g = (s.findHart g).map fun h => h.seesWrite s.dev.coarse self line :=
    findHart_mapHarts s _ (fun h => (kept h).id_eq) g
  unfold State.hartAt
  rw [found]
  cases s.findHart g with
  | none => exact .refl _
  | some h => exact kept h

/-- A store to memory, and what it leaves: the units of the machine, and of each hart all but its marks. -/
theorem physStore_keeps (s : State) (self : Option HartId) (pa n v : Nat) :
    (s.physStore self pa n v).cores = s.cores ∧ marksEach s (s.physStore self pa n v) := by
  unfold State.physStore
  suffices h : ∀ (l : List Nat) (t : State), (l.foldl (fun t k => t.noteLine self k) t).cores = t.cores ∧
      marksEach t (l.foldl (fun t k => t.noteLine self k) t) from h _ _
  intro l
  induction l with
  | nil => exact fun t => ⟨rfl, fun g => .refl _⟩
  | cons k l ih =>
    intro t
    obtain ⟨cores, marks⟩ := ih (t.noteLine self k)
    exact ⟨cores, (noteLine_marksEach t self k).trans marks⟩

end Sys2Proof.Machine

namespace Sys2Proof.Machine
open Sys2Proof

/-! ## Arrivals on a channel (R164) -/

theorem arrivalPlace_unbound {s : State} {c : CoreId} {a : Arrival} (free : (s.core c).channel a.chan = none) :
    s.arrivalPlace c a = .unbound := by
  unfold State.arrivalPlace
  simp only [free]

theorem channelArrival_unbound {s : State} {c : CoreId} {a : Arrival} (free : (s.core c).channel a.chan = none) :
    exec (.channelArrival c a) s = .next s := by
  have lost : deliverArrival c a s = .ok 2 s := by
    unfold deliverArrival State.arrive
    rw [M.bind_ok (M.get_apply s), arrivalPlace_unbound free]
    rfl
  exact runEvent_ok (M.bind_ok lost)

theorem channelArrival_arrives {s : State} (free : s.linesFree) (c : CoreId) (a : Arrival) :
    exec (.channelArrival c a) s = .next (s.arrive c a).1 :=
  runEvent_ok (M.bind_ok (deliverArrival_free free c a))

theorem sameSource_plain {k : Core} {a : Arrival} (plain : a.kind = 0) : k.sameSource a = none := by
  unfold Core.sameSource
  exact List.find?_eq_none.mpr fun r _ => by simp [plain]

section Arrive
variable {s : State} {c : CoreId} {a : Arrival} {n : Nat} {ch : Channel} {p : Placed} {g : Gang}
variable (bound : (s.core c).channel a.chan = some ch) (ctx : entryCtx ch.entry = n)
variable (placed : (s.hartAt (c.hart n)).placed = some p) (gang : s.gang p.gang = some g) (runs : s.preempted g = false)
variable (plain : a.kind = 0)

include placed gang in
theorem areaPa_placed (slot : Nat) : s.areaPa (c.hart n) slot = arrivalPa g p.number slot := by
  unfold State.areaPa
  rw [placed]
  dsimp only
  rw [gang, Option.bind_some]

include bound ctx placed gang runs plain

/-- An HSEND's record goes to a free slot of the context's area. -/
theorem arrivalPlace_fresh {slot pa : Nat} (slotFree : (s.core c).freeSlot n = some slot)
    (at_ : arrivalPa g p.number slot = some pa) : s.arrivalPlace c a = .fresh n slot pa := by
  have ours : ((s.hartAt (c.hart n)).placed.map Placed.gang).bind s.gang = some g := by
    rw [placed, Option.map_some, Option.bind_some, gang]
  unfold State.arrivalPlace
  simp only [bound, ctx, ours, sameSource_plain plain, runs, Bool.false_eq_true, if_false, slotFree,
    areaPa_placed placed gang, at_, Option.map_some, Option.getD_some]

theorem arrivalPlace_full (none_ : (s.core c).freeSlot n = none) : s.arrivalPlace c a = .full := by
  have ours : ((s.hartAt (c.hart n)).placed.map Placed.gang).bind s.gang = some g := by
    rw [placed, Option.map_some, Option.bind_some, gang]
  unfold State.arrivalPlace
  simp only [bound, ctx, ours, sameSource_plain plain, runs, Bool.false_eq_true, if_false, none_]

theorem channelArrival_full (none_ : (s.core c).freeSlot n = none) (free : s.linesFree) :
    exec (.channelArrival c a) s = .next s := by
  have stays : (s.arrive c a).1 = s := by
    unfold State.arrive
    rw [arrivalPlace_full bound ctx placed gang runs plain none_]
    exact congrArg Prod.fst (if_pos plain)
  rw [channelArrival_arrives free, stays]

/-- The bytes of an HSEND's record in its slot. -/
def slotBytes (a : Arrival) : List Byte := a.record ++ List.replicate (64 - a.record.length) 0#8

/-- An HSEND's record as the core keeps it. -/
def slotEntry (a : Arrival) (n slot : Nat) : Nat × ArrivalSlot :=
  (n, { slot := slot, chan := a.chan, kind := 0, source := a.source, len := a.len, running := false })

theorem arrive_fresh {slot pa : Nat} (slotFree : (s.core c).freeSlot n = some slot)
    (at_ : arrivalPa g p.number slot = some pa) : (s.arrive c a).1 =
      ((s.physStore none pa 64 (bytesToNat (slotBytes a))).modCore c fun k =>
        { k with arrivals := k.arrivals ++ [slotEntry a n slot] }).startChannel c a.chan := by
  have stamp : s.stamp a = a.record := by
    unfold State.stamp
    rw [plain]
    rfl
  unfold State.arrive
  rw [arrivalPlace_fresh bound ctx placed gang runs plain slotFree at_]
  simp only [stamp, plain, slotBytes, slotEntry]

end Arrive

/-- A dormant context of a bound channel with an unserved record has a run to start. -/
theorem startChannel_posts {s : State} {c : CoreId} {chan : Nat} {ch : Channel} {e : Nat × ArrivalSlot}
    (bound : (s.core c).channel chan = some ch) (pending : e ∈ (s.core c).unserved chan)
    (dormant : (s.hartAt (c.hart (entryCtx ch.entry))).run = .dormant) :
    .handlerRunStart (c.hart (entryCtx ch.entry)) ∈ (s.startChannel c chan).inbox := by
  have some_ : (s.core c).pending chan ≠ 0 := by
    have := List.length_pos_of_mem pending
    unfold Core.pending
    simp only [bound]
    omega
  unfold State.startChannel
  simp only [bound]
  rw [if_pos ⟨some_, dormant⟩]
  exact List.mem_append_right _ (List.mem_singleton.mpr rfl)

/-- An HSEND's record that finds a free slot: it stands there, and a dormant context has a run to start. -/
theorem channelArrival_fresh {s : State} {c : CoreId} {a : Arrival} {n slot pa : Nat} {ch : Channel} {p : Placed} {g : Gang}
    (inv : s.Inv) (bound : (s.core c).channel a.chan = some ch) (ctx : entryCtx ch.entry = n)
    (placed : (s.hartAt (c.hart n)).placed = some p) (gang : s.gang p.gang = some g) (runs : s.preempted g = false)
    (plain : a.kind = 0) (short : a.record.length ≤ 64) (free : s.linesFree) (slotFree : (s.core c).freeSlot n = some slot)
    (at_ : arrivalPa g p.number slot = some pa) :
    reaches (exec (.channelArrival c a) s) fun t =>
      bytesBecome s t pa (slotBytes a) ∧ (t.core c).arrivals = (s.core c).arrivals ++ [slotEntry a n slot] ∧
      ((s.hartAt (c.hart n)).run = .dormant → .handlerRunStart (c.hart n) ∈ t.inbox) := by
  subst ctx
  have length : (slotBytes a).length = 64 := by
    rw [slotBytes, List.length_append, List.length_replicate]
    omega
  refine ⟨_, (channelArrival_arrives free c a).trans
    (congrArg Host.Outcome.next (arrive_fresh bound rfl placed gang runs plain slotFree at_)), ?_⟩
  obtain ⟨cores, marks⟩ := physStore_keeps s none pa 64 (bytesToNat (slotBytes a))
  have own := physStore_marks s none pa 64 (bytesToNat (slotBytes a))
  have mem := physStore_mem s none pa 64 (bytesToNat (slotBytes a))
  have core : (s.physStore none pa 64 (bytesToNat (slotBytes a))).core c = s.core c := by
    rw [State.core, cores]
    rfl
  generalize s.physStore none pa 64 (bytesToNat (slotBytes a)) = u at *
  have held : (u.modCore c fun k => { k with arrivals := k.arrivals ++ [slotEntry a (entryCtx ch.entry) slot] }).core c =
      { s.core c with arrivals := (s.core c).arrivals ++ [slotEntry a (entryCtx ch.entry) slot] } := by
    rw [modCore_same, core]
  refine ⟨⟨fun j hj => ?_, fun b apart => ?_, ?_, ?_, ?_, ?_⟩, ?_, fun dormant => ?_⟩
  · rw [startChannel_mem, modCore_mem, mem, ← length]
    exact Memory.get_write_bytes pa (slotBytes a) inv j hj
  · rw [startChannel_mem, modCore_mem, mem]
    exact Memory.get_write_outside pa 64 _ b (length ▸ apart) inv
  · rw [startChannel_hart]
    exact own.x_eq
  · rw [startChannel_hart]
    exact own.pc_eq
  · rw [startChannel_hart]
    exact own.v_eq
  · rw [startChannel_hart]
    exact own.p_eq
  · rw [State.core, startChannel_cores]
    exact congrArg Core.arrivals held
  · refine startChannel_posts (e := slotEntry a (entryCtx ch.entry) slot) ?_ ?_ ?_
    · rw [held]
      exact bound
    · rw [held]
      refine List.mem_filter.mpr ⟨List.mem_append_right _ (List.mem_singleton.mpr rfl), ?_⟩
      simp [slotEntry]
    · exact (marks _).run_eq.trans dormant

end Sys2Proof.Machine

namespace Sys2Proof.Machine
open Sys2Proof

/-! ## The start of a handler run (R166, R167) -/

/-- hinfo as a run finds it. -/
theorem runInfo_fields (old : Word) (pending b kind len : Nat) (ovf : Bool) :
    let info := runInfo old pending b kind len ovf
    info.getLsbD 7 = true ∧ (info.extractLsb' 16 5).toNat = b % 32 ∧ (info.extractLsb' 24 3).toNat = kind % 8 := by
  unfold runInfo
  dsimp only
  refine ⟨?_, ?_, ?_⟩
  · rw [setField_getLsbD _ _ _ _ _ (by decide), setField_getLsbD _ _ _ _ _ (by decide)]
    rfl
  · rw [extractLsb'_setField_other _ _ (by decide) (by decide), extractLsb'_setField_other _ _ (by decide) (by decide),
      extractLsb'_setField_other _ _ (by decide) (by decide), extractLsb'_setField_same _ _ (by decide), BitVec.toNat_ofNat]
  · rw [extractLsb'_setField_other _ _ (by decide) (by decide), extractLsb'_setField_other _ _ (by decide) (by decide),
      extractLsb'_setField_other _ _ (by decide) (by decide), extractLsb'_setField_other _ _ (by decide) (by decide),
      extractLsb'_setField_same _ _ (by decide), BitVec.toNat_ofNat]

/-- What a run finds in its hart: its registers, and in hinfo the channel b and the kind of what it serves. -/
def runStarted (u : Hart) (pc a0 coord : Word) (b kind : Nat) (served : Nat × Nat × Nat) : Prop :=
  u.run = .running ∧ u.vl = 0 ∧ u.vstart = 0 ∧ u.vmsp = 0 ∧ u.serving = some served ∧ u.pc = pc ∧
  u.rx 10#5 = a0 ∧ u.rx 11#5 = u.hinfo ∧ u.rx 17#5 = coord ∧
  u.hinfo.getLsbD 7 = true ∧ (u.hinfo.extractLsb' 16 5).toNat = b % 32 ∧ (u.hinfo.extractLsb' 24 3).toNat = kind % 8

/-- The argument registers of a run (R166). -/
theorem startRun_rx (h : Hart) (pc a0 info : Word) (prio : Nat) (served : Nat × Nat × Nat) :
    let u := h.startRun pc a0 info prio served
    u.rx 10#5 = a0 ∧ u.rx 11#5 = info ∧ u.rx 17#5 = h.coord := by
  have regs : ∀ q, (h.startRun pc a0 info prio served).rx q = (((h.wx 10#5 a0).wx 11#5 info).wx 17#5 h.coord).rx q :=
    fun q => Hart.rx_of_x _ _ q rfl
  refine ⟨?_, ?_, ?_⟩
  · rw [regs, Hart.rx_wx_other _ _ _ _ (by decide), Hart.rx_wx_other _ _ _ _ (by decide), Hart.rx_wx_same, if_neg (by decide)]
  · rw [regs, Hart.rx_wx_other _ _ _ _ (by decide), Hart.rx_wx_same, if_neg (by decide)]
  · rw [regs, Hart.rx_wx_same, if_neg (by decide)]

theorem startRun_started (h : Hart) (pc a0 : Word) (prio : Nat) (served : Nat × Nat × Nat) (pending b kind len : Nat) (ovf : Bool) :
    runStarted (h.startRun pc a0 (runInfo h.hinfo pending b kind len ovf) prio served) pc a0 h.coord b kind served := by
  obtain ⟨inRun, chan, kinds⟩ := runInfo_fields h.hinfo pending b kind len ovf
  obtain ⟨first, second, coord⟩ := startRun_rx h pc a0 (runInfo h.hinfo pending b kind len ovf) prio served
  exact ⟨rfl, rfl, rfl, rfl, rfl, rfl, first, second, coord, inRun, chan, kinds⟩

theorem runStarted.marks {u w : Hart} {pc a0 coord : Word} {b kind : Nat} {served : Nat × Nat × Nat}
    (h : runStarted u pc a0 coord b kind served) (m : marksOnly u w) : runStarted w pc a0 coord b kind served := by
  rw [m.1]
  exact h

theorem clearQuiet_marksEach (s : State) (graph : Nat) : marksEach s (s.clearQuiet graph) := by
  suffices h : marksEach s (s.setQuiet graph fun v => v &&& ~~~1#64) from h.trans (.of_harts rfl)
  unfold State.setQuiet
  split
  · dsimp only
    split
    · exact .of_harts rfl
    · obtain ⟨-, marks⟩ := physStore_keeps ({ s with dev := _ } : State) none _ 8 _
      exact marks
  · exact .of_harts rfl

/-- A run that enters a graph (R346, R349). -/
theorem enterGraph_started {t : State} {id : HartId} {pc a0 coord : Word} {b kind : Nat} {served : Nat × Nat × Nat}
    (graph : Nat) (h : runStarted (t.hartAt id) pc a0 coord b kind served) :
    runStarted ((t.enterGraph id graph).hartAt id) pc a0 coord b kind served := by
  unfold State.enterGraph
  split
  · exact h
  · have runs : (t.hartAt id).run ≠ .idle := by rw [h.1]; decide
    obtain ⟨here, -⟩ := modHart_becomes (s := t) (id := id) (f := fun h => { h with graphs := h.graphs ++ [graph] })
      (fun _ => rfl) runs
    refine runStarted.marks ?_ (clearQuiet_marksEach _ graph id)
    rw [here]
    exact h

section Start
variable {s : State} {c : CoreId} {n b : Nat} {ch : Channel}
variable (dormant : (s.hartAt (c.hart n)).run = .dormant) (next : (s.core c).nextChannel n = some b)
variable (bound : (s.core c).channel b = some ch)
include dormant

/-- A change of the core, and the start of a run on one of its harts. -/
theorem startRun_becomes (k : Core) (pc a0 info : Word) (prio : Nat) (served : Nat × Nat × Nat) :
    hartBecomes s ((s.setCore c k).modHart (c.hart n) fun h => h.startRun pc a0 info prio served) (c.hart n)
      ((s.hartAt (c.hart n)).startRun pc a0 info prio served) := by
  have runs : ((s.setCore c k).hartAt (c.hart n)).run ≠ .idle := by
    rw [show (s.setCore c k).hartAt (c.hart n) = s.hartAt (c.hart n) from rfl, dormant]
    decide
  exact (modHart_becomes (f := fun h => h.startRun pc a0 info prio served) (fun h => rfl) runs).from_harts rfl

include next bound

theorem startRun_overflow (empty : (s.core c).unserved b = []) :
    let t := s.startRun (c.hart n)
    runStarted (t.hartAt (c.hart n)) (entryPc ch.entry) 0#64 (s.hartAt (c.hart n)).coord b 7 (b, n, 64) ∧
    t.mem = s.mem ∧ ∀ g, g ≠ c.hart n → t.hartAt g = s.hartAt g := by
  have awake : ¬ (s.hartAt (c.hart n)).run ≠ .dormant := not_not_intro dormant
  have core : (c.hart n).coreId = c := rfl
  have ctx : (c.hart n).hart = n := rfl
  dsimp only
  unfold State.startRun
  simp only [if_neg awake, core, ctx, next, bound, empty]
  obtain ⟨here, rest⟩ := startRun_becomes dormant _ (entryPc ch.entry) 0#64 _ (entryPrio ch.entry) (b, n, 64)
  refine ⟨?_, rfl, rest⟩
  rw [here]
  exact startRun_started ..

theorem startRun_record {area : Nat} {r : ArrivalSlot} {l : List (Nat × ArrivalSlot)}
    (oldest : (s.core c).unserved b = (area, r) :: l) :
    let t := s.startRun (c.hart n)
    runStarted (t.hartAt (c.hart n)) (entryPc ch.entry)
      ((s.hartAt (c.hart area)).hbase + BitVec.ofNat 64 (64 * r.slot)) (s.hartAt (c.hart n)).coord b r.kind (b, area, r.slot) ∧
    (r.kind ≠ 2 → t.mem = s.mem ∧ ∀ g, g ≠ c.hart n → t.hartAt g = s.hartAt g) := by
  have awake : ¬ (s.hartAt (c.hart n)).run ≠ .dormant := not_not_intro dormant
  have core : (c.hart n).coreId = c := rfl
  have ctx : (c.hart n).hart = n := rfl
  dsimp only
  unfold State.startRun
  simp only [if_neg awake, core, ctx, next, bound, oldest]
  obtain ⟨here, rest⟩ := startRun_becomes dormant _ (entryPc ch.entry)
    ((s.hartAt (c.hart area)).hbase + wordOf (64 * r.slot)) _ (entryPrio ch.entry) (b, area, r.slot)
  split
  · next m found =>
    refine ⟨enterGraph_started _ ?_, fun other => ?_⟩
    · rw [here]
      exact startRun_started ..
    · rw [if_neg other] at found
      cases found
  · refine ⟨?_, fun _ => ⟨rfl, rest⟩⟩
    rw [here]
    exact startRun_started ..

end Start

end Sys2Proof.Machine

namespace Sys2Proof.Machine
open Sys2Proof

/-! ## The hart that waited for a ring goes on (R232) -/

theorem focus_clusters (s : State) (id : HartId) : (s.focus id).clusters = s.clusters := by
  unfold State.focus
  split
  · rfl
  · split <;> rfl

/-- A parked hart without a frame goes on at its resume pc. -/
def Hart.resumed (h : Hart) : Hart := { h with run := .running, held := none, fetchBuf := [], pc := h.resumePc }

theorem resumeParked_ok {s : State} (frame : s.hart.frame = none) :
    resumeParked s = .ok () (({ s with hart := s.hart.resumed } : State).restartCopies s.hart.id) := by
  have attached : reattach s = .ok () s := by
    unfold reattach
    rw [M.bind_ok (getH_apply s), frame]
    rfl
  unfold resumeParked
  rw [attached]
  rfl

/-- The waits of a cluster's parked RRES without those of one hart. -/
def Cluster.wakeupBut (k : Cluster) (h : HartId) : Cluster := { k with wakeup := k.wakeup.filter fun w => w.1 != h }

theorem ringServiceResume_effect {s : State} {id : HartId} (parked : (s.hartAt id).run = .parked)
    (frame : (s.hartAt id).frame = none) (waits : ∃ line, (id, line) ∈ (s.cluster id.clusterId).wakeup) :
    reaches (exec (.ringServiceResume id) s) fun t => hartBecomes s t id (s.hartAt id).resumed ∧
      (∀ x, x ∈ (t.cluster id.clusterId).wakeup ↔ x ∈ (s.cluster id.clusterId).wakeup ∧ x.1 ≠ id) ∧ t.mem = s.mem := by
  let u := s.asHart id fun t => ({ t with hart := t.hart.resumed } : State).restartCopies t.hart.id
  have ran : onHart id resumeParked s = .ok () u := onHart_ok (resumeParked_ok (by rw [focus_hart]; exact frame))
  have listed : (s.cluster id.clusterId).wakeup.any (fun w => w.1 == id) = true := by
    obtain ⟨line, waits⟩ := waits
    exact List.any_eq_true.mpr ⟨_, waits, beq_self_eq_true id⟩
  obtain ⟨becomes, mem⟩ := asHart_becomes (s := s) (id := id)
    (f := fun t => ({ t with hart := t.hart.resumed } : State).restartCopies t.hart.id) (focus_id s id) rfl
  have turned : (({ s.focus id with hart := (s.focus id).hart.resumed } : State).restartCopies (s.focus id).hart.id).hart =
      (s.hartAt id).resumed := congrArg Hart.resumed (focus_hart s id)
  refine ⟨u.modCluster id.clusterId fun k => k.wakeupBut id, ?_, ?_, fun x => ?_, ?_⟩
  · show execRingServiceResume id s = _
    unfold execRingServiceResume
    dsimp only
    rw [if_pos ⟨parked, listed⟩]
    exact runEvent_ok (M.bind_ok ran)
  · exact (turned ▸ becomes).of_harts rfl
  · have clusters : u.cluster id.clusterId = s.cluster id.clusterId :=
      congrArg (assocGet id.clusterId Cluster.reset) ((focus_clusters _ _).trans (focus_clusters s id))
    rw [modCluster_same, clusters]
    simp [Cluster.wakeupBut, List.mem_filter]
  · exact mem.trans (focus_mem s id)

end Sys2Proof.Machine

namespace Sys2Proof.Machine
open Sys2Proof

/-! ## The events of harts -/

/-- Settles O51, event by event: each changes one hart as a function of that hart, or the core and the line it stores to. -/
theorem hartEvents : Obligations.HartEvents := by
  unfold Obligations.HartEvents
  refine ⟨fun s h line => ⟨ageStep_effect, pauseExpiry_effect, ?_, fun code awake faults frame tx due => ?_,
    transactionWake_effect, trapEntry_error, fun d w asleep due target => ?_, fun tr cp => transactionAbort_effect⟩,
    fun s c a n inv => ⟨fun unbound => ⟨s, channelArrival_unbound unbound, rfl⟩, ?_, ?_, ringServiceResume_effect⟩⟩
  · obtain ⟨t, ran, clock, hart, others, mem, dev, cores, clusters⟩ := tickBoundary_effect s
    refine ⟨t, ran, clock, hart, others, mem, dev, cores, fun c => (clusters c).trans ?_⟩
    rw [funext Budget.tick_eq]
  · obtain ⟨t, ran, ⟨here, rest⟩, mem⟩ := trapEntry_interrupt awake faults frame tx due
    have effect := (s.hartAt h).interrupted_effect code
    rw [← here] at effect
    obtain ⟨priv, sepc, cause, pc, run, x, sie, spie, spp⟩ := effect
    exact ⟨t, ran, priv, sepc, cause, pc, run, x, sie, spie, spp, mem, rest⟩
  · obtain ⟨t, ran, clock, mem, here, rest⟩ := txdeadlineExpiry_effect asleep due target
    have effect := (s.hartAt h).timeout_effect w
    rw [← here] at effect
    obtain ⟨run, pc, cause, ordered, start, rd, x⟩ := effect
    exact ⟨t, ran, run, pc, cause, ordered, start, clock, rd, x, mem, rest⟩
  · intro ch p g slot pa bound ctx placed gang runs plain short free
    exact ⟨fun slotFree at_ => channelArrival_fresh inv bound ctx placed gang runs plain short free slotFree at_,
      fun none_ => ⟨s, channelArrival_full bound ctx placed gang runs plain none_ free, rfl⟩⟩
  · intro ch b _ dormant next bound starts apart
    refine ⟨fun area r l oldest => ?_, fun empty => ?_⟩
    · obtain ⟨⟨run, vl, start, msp, serving, pc, a0, a1, a7, inRun, chan, kind⟩, rest⟩ :=
        startRun_record dormant next bound oldest
      exact ⟨_, rfl, run, vl, start, msp, serving, pc, a0, a1, a7, inRun, chan, kind, rest⟩
    · obtain ⟨⟨run, vl, start, msp, serving, pc, a0, a1, a7, inRun, chan, kind⟩, rest⟩ :=
        startRun_overflow dormant next bound empty
      exact ⟨_, rfl, run, vl, start, msp, serving, pc, a0, a1, a7, inRun, chan, kind, rest⟩

end Sys2Proof.Machine

namespace Sys2Proof.Machine
open Sys2Proof

/-! ## Association lists without a key twice -/

theorem nodup_of_eq_eraseDups {α : Type} [BEq α] [LawfulBEq α] {l : List α} (h : l = l.eraseDups) : l.Nodup := by
  induction l with
  | nil => exact List.nodup_nil
  | cons a l ih =>
    rw [List.eraseDups_cons] at h
    have rest : l = (l.filter fun b => !b == a).eraseDups := (List.cons.inj h).2
    have other : ∀ b, b ∈ l → (!b == a) = true := fun b hb => by
      rw [rest, List.mem_eraseDups] at hb
      exact (List.mem_filter.mp hb).2
    rw [List.filter_eq_self.mpr other] at rest
    exact List.nodup_cons.mpr ⟨fun here => by simpa using other a here, ih rest⟩

theorem assocGet_of_mem {α β : Type} [DecidableEq α] {l : List (α × β)} (once : (l.map Prod.fst).Nodup) {e : α × β}
    (h : e ∈ l) (d : β) : assocGet e.1 d l = e.2 := by
  induction l with
  | nil => cases h
  | cons x l ih =>
    obtain ⟨fresh, rest⟩ := List.nodup_cons.mp once
    rcases List.mem_cons.mp h with rfl | later
    · exact if_pos rfl
    · have other : x.1 ≠ e.1 := fun same => fresh (same ▸ List.mem_map_of_mem later)
      exact (if_neg other).trans (ih rest later)

end Sys2Proof.Machine

namespace Sys2Proof.Machine
open Sys2Proof

/-! ## What placement leaves of the gangs (R173, R174) -/

/-- No gang has left the machine. -/
def gangsKept (s t : State) : Prop := s.dev.gangs ⊆ t.dev.gangs

theorem gangsKept.refl (s : State) : gangsKept s s := List.Subset.refl _

theorem gangsKept.trans {s t u : State} (h : gangsKept s t) (k : gangsKept t u) : gangsKept s u := List.Subset.trans h k

theorem gangsKept.of_eq {s t : State} (h : t.dev.gangs = s.dev.gangs) : gangsKept s t := fun _ hg => h ▸ hg

/-- A fold of steps that keep the device keeps it. -/
theorem foldl_dev {α : Type} {f : State → α → State} (h : ∀ t a, (f t a).dev = t.dev) (l : List α) (s : State) :
    (l.foldl f s).dev = s.dev := by
  induction l generalizing s with
  | nil => rfl
  | cons a l ih => exact (ih _).trans (h s a)

theorem wipeUnit_dev (s : State) (c : ClusterId) (u : Nat × Nat) : (s.wipeUnit c u).dev = s.dev := by
  refine foldl_dev (fun t k => ?_) _ s
  rfl

theorem wipeBank_dev (s : State) (c : ClusterId) (b : Nat) : (s.wipeBank c b).dev = s.dev := rfl

theorem modShare_kept (s : State) (die launch : Nat) (f : Share → Share) : gangsKept s (s.modShare die launch f) := .of_eq rfl

theorem setHart_dev (s : State) (h : Hart) : (s.setHart h).dev = s.dev := by
  unfold State.setHart
  split <;> rfl

/-- The gang that placement makes of a fit. -/
def placedGang (s : State) (l : Launch) (n : Nat) (v : View) (f : Fit) : Gang :=
  { number := s.dev.nextId, launch := l.number, index := gangIndex l v.cluster.die n, die := v.cluster.die,
    cluster := v.cluster.cluster, units := f.units, banks := (List.range 32).filter f.banks.contains, hctx := l.hctx,
    harts := f.harts.map fun x => { die := v.cluster.die, cluster := v.cluster.cluster, core := x.1, hart := x.2.1 } }

theorem placeGang_gangs (s : State) (l : Launch) (n : Nat) (v : View) (f : Fit) :
    (s.placeGang l n v f).dev.gangs = s.dev.gangs ++ [placedGang s l n v f] := by
  unfold State.placeGang
  dsimp only
  rw [foldl_dev (fun t k => by split; exacts [setHart_dev .., rfl])]
  dsimp only
  rw [foldl_dev (fun t u => wipeUnit_dev t _ u), foldl_dev (fun t b => wipeBank_dev t _ b)]
  rfl

theorem beginLaunch_dev (s : State) (l : Launch) : (s.beginLaunch l).dev = s.dev := by
  unfold State.beginLaunch
  split <;> rfl

theorem dropShare_dev (p : Prop) [Decidable p] (s : State) (die launch : Nat) :
    (if p then s.dropShare die launch else s).dev = s.dev := by
  split <;> rfl

theorem queueDone_dev (s : State) (die : Nat) (tag : Word) (asid : Nat) (ring : Word) (bytes : List Byte) :
    (s.queueDone die tag asid ring bytes).dev = s.dev := by
  unfold State.queueDone
  split <;> rfl

theorem checkLaunch_gangs (s : State) (launch : Nat) : (s.checkLaunch launch).dev.gangs = s.dev.gangs := by
  unfold State.checkLaunch
  split
  · rfl
  · split
    · rfl
    · dsimp only
      rw [State.post_dev, queueDone_dev]
      rfl

theorem withSlot_gangs {s t : State} {l l1 : Launch} (h : s.withSlot l = some (t, l1)) : t.dev.gangs = s.dev.gangs := by
  unfold State.withSlot at h
  split at h
  · cases h; rfl
  · dsimp only at h
    split at h
    · cases h; rfl
    · cases h

theorem placeAll_kept (l : Launch) (fits : List (View × Fit)) (acc : State × Nat) :
    gangsKept acc.1 (fits.foldl (fun (acc : State × Nat) x => (acc.1.placeGang l acc.2 x.1 x.2, acc.2 + 1)) acc).1 := by
  induction fits generalizing acc with
  | nil => exact .refl _
  | cons x fits ih =>
    refine gangsKept.trans (fun g hg => ?_) (ih _)
    rw [placeGang_gangs]
    exact List.mem_append_left _ hg

theorem placeNext_kept {s t : State} {die launch : Nat} (h : s.placeNext die launch = some t) : gangsKept s t := by
  unfold State.placeNext at h
  split at h
  · next e l _ _ =>
    split at h
    · cases h
    · next s1 l1 slot =>
      dsimp only at h
      split at h
      · cases h
      · next fits _ =>
        cases h
        refine (gangsKept.of_eq (withSlot_gangs slot)).trans ((placeAll_kept l1 fits (s1, e.gangs)).trans (.of_eq ?_))
        rw [beginLaunch_dev, dropShare_dev]
        rfl
  · cases h

theorem endFill_kept {s t : State} {die : Nat} {e : Share} (h : s.endFill die e = some t) : gangsKept s t := by
  refine .of_eq ?_
  unfold State.endFill at h
  split at h
  · split at h
    · cases h
      rw [checkLaunch_gangs, beginLaunch_dev]
      rfl
    · cases h
  · cases h; rfl

theorem placeHead_kept (die n : Nat) (s : State) : gangsKept s (placeHead die n s) := by
  induction n generalizing s with
  | zero => exact .refl _
  | succ n ih =>
    unfold placeHead
    split
    · exact .refl _
    · split
      · next t placed => exact (placeNext_kept placed).trans ((modShare_kept ..).trans (ih _))
      · split
        · next t ended => exact (endFill_kept ended).trans (ih _)
        · exact .refl _

theorem backfillEntry_kept (die head e n : Nat) (s : State) : gangsKept s (backfillEntry die head e n s) := by
  induction n generalizing s with
  | zero => exact .refl _
  | succ n ih =>
    unfold backfillEntry
    split
    · split
      · exact .refl _
      · split
        · next t placed => exact (placeNext_kept placed).trans ((modShare_kept ..).trans (ih _))
        · split
          · next x _ =>
            cases ended : s.endFill die x with
            | none => exact .refl _
            | some t => exact endFill_kept ended
          · exact .refl _
    · exact .refl _

/-- Backfill keeps every gang that the head's part has placed. -/
theorem place_kept (die : Nat) (s : State) : gangsKept (placeHead die 4096 s) (s.place die) := by
  unfold State.place
  dsimp only
  split
  · exact .refl _
  · next h l _ =>
    split
    · suffices fold : ∀ (es : List Share) (t : State),
          gangsKept t (es.foldl (fun t e => backfillEntry die h.launch e.launch 4096 t) t) from fold _ _
      intro es
      induction es with
      | nil => exact fun t => .refl _
      | cons e es ih => exact fun t => (backfillEntry_kept ..).trans (ih _)
    · exact .refl _

theorem placeHead_empty {die : Nat} (n : Nat) {s : State} (empty : (s.die die).queue = []) : placeHead die n s = s := by
  cases n with
  | zero => rfl
  | succ n => rw [placeHead, empty]

theorem place_empty {die : Nat} {s : State} (empty : (s.die die).queue = []) : s.place die = s := by
  unfold State.place
  rw [placeHead_empty 4096 empty]
  dsimp only
  rw [empty]

theorem placeHead_first {die : Nat} (n : Nat) {s t : State} {e : Share} {rest : List Share} (head : (s.die die).queue = e :: rest)
    (placed : s.placeNext die e.launch = some t) : gangsKept t (placeHead die (n + 1) s) := by
  rw [placeHead, head]
  dsimp only
  rw [placed]
  exact (modShare_kept ..).trans (placeHead_kept die n _)

end Sys2Proof.Machine

namespace Sys2Proof.Machine
open Sys2Proof

/-! ## The head of a queue is placed where it fits (R173, R174) -/

/-- A fold of steps that keep a view's cluster keeps it. -/
theorem foldl_cluster {α β : Type} {f : View × α → β → View × α} (h : ∀ acc b, (f acc b).1.cluster = acc.1.cluster)
    (l : List β) (acc : View × α) : (l.foldl f acc).1.cluster = acc.1.cluster := by
  induction l generalizing acc with
  | nil => rfl
  | cons b l ih => exact (ih _).trans (h acc b)

theorem takeHarts_cluster {v w : View} {n lanes tiles : Nat} {hs : List (Nat × Nat × List Nat)}
    (h : v.takeHarts n lanes tiles = some (w, hs)) : w.cluster = v.cluster := by
  unfold View.takeHarts at h
  obtain ⟨-, same⟩ := Option.ite_none_right_eq_some.mp h
  have reached : _ = w := congrArg Prod.fst (Option.some.inj same)
  rw [← reached]
  refine foldl_cluster (fun acc k => ?_) _ _
  split
  · rfl
  · split <;> rfl

theorem takeUnit_cluster {v w : View} {u : Nat × Nat} (h : v.takeUnit = some (w, u)) : w.cluster = v.cluster := by
  unfold View.takeUnit at h
  dsimp only at h
  split at h
  · cases h; rfl
  · split at h
    · cases h; rfl
    · cases h

theorem takeUnits_cluster {v w : View} {n : Nat} {acc us : List (Nat × Nat)} (h : v.takeUnits n acc = some (w, us)) :
    w.cluster = v.cluster := by
  induction n generalizing v acc with
  | zero => cases h; rfl
  | succ n ih =>
    unfold View.takeUnits at h
    split at h
    · next taken => exact (ih h).trans (takeUnit_cluster taken)
    · cases h

theorem takeAside_cluster {v w : View} {n : Nat} {acc bs : List Nat} (h : v.takeAside n acc = some (w, bs)) :
    w.cluster = v.cluster := by
  induction n generalizing v acc with
  | zero => cases h; rfl
  | succ n ih =>
    unfold View.takeAside at h
    split at h
    · have same := ih h
      exact same
    · cases h

theorem takeBanks_cluster {v w : View} {n : Nat} {acc bs : List Nat} (h : v.takeBanks n acc = some (w, bs)) :
    w.cluster = v.cluster := by
  induction n generalizing v acc with
  | zero => cases h; rfl
  | succ n ih =>
    unfold View.takeBanks at h
    split at h
    · have same := ih h
      exact same
    · cases h

theorem fit_cluster {v w : View} {l : Launch} {f : Fit} (h : v.fit l = some (w, f)) : w.cluster = v.cluster := by
  unfold View.fit at h
  obtain ⟨⟨v1, hs⟩, harts, h⟩ := Option.bind_eq_some_iff.mp h
  obtain ⟨⟨v2, us⟩, units, h⟩ := Option.bind_eq_some_iff.mp h
  obtain ⟨⟨v3, bs⟩, aside, h⟩ := Option.bind_eq_some_iff.mp h
  obtain ⟨⟨v4, cs⟩, banks, h⟩ := Option.bind_eq_some_iff.mp h
  cases h
  exact (takeBanks_cluster banks).trans ((takeAside_cluster aside).trans ((takeUnits_cluster units).trans (takeHarts_cluster harts)))

/-! The equations of `fitFirst` are taken from its compiled recursion: `rfl`, `simp` and `unfold` would evaluate `View.fit` on
an unknown view. -/

theorem fitFirst_nil (l : Launch) : fitFirst l [] = none := by
  delta fitFirst fitFirst._f
  dsimp only

theorem fitFirst_cons_some {l : Launch} {v w : View} {f : Fit} (vs : List View) (fits : v.fit l = some (w, f)) :
    fitFirst l (v :: vs) = some (w :: vs, w, f) := by
  delta fitFirst fitFirst._f
  dsimp only
  rw [fits]

theorem fitFirst_cons_none {l : Launch} {v : View} (vs : List View) (none_ : v.fit l = none) :
    fitFirst l (v :: vs) = (fitFirst l vs).map fun x => (v :: x.1, x.2.1, x.2.2) := by
  have step : ∀ below, fitFirst._f l (v :: vs) below = below.1.map fun x => (v :: x.1, x.2.1, x.2.2) := fun below => by
    delta fitFirst._f
    dsimp only
    rw [none_]
  delta fitFirst
  exact step _

/-- The view that takes a gang is one of those offered. -/
theorem fitFirst_cluster {l : Launch} {views vs : List View} {v : View} {f : Fit} (h : fitFirst l views = some (vs, v, f)) :
    ∃ w, w ∈ views ∧ v.cluster = w.cluster := by
  induction views generalizing vs with
  | nil =>
    rw [fitFirst_nil] at h
    cases h
  | cons w views ih =>
    cases found : w.fit l with
    | some x =>
      rw [fitFirst_cons_some views found] at h
      cases h
      exact ⟨w, List.mem_cons_self, fit_cluster found⟩
    | none =>
      rw [fitFirst_cons_none views found] at h
      obtain ⟨⟨vs1, v1, f1⟩, later, same⟩ := Option.map_eq_some_iff.mp h
      cases same
      obtain ⟨x, listed, cluster⟩ := ih later
      exact ⟨x, List.mem_cons_of_mem _ listed, cluster⟩

/-- The views that a placement unit looks at for a share. -/
def State.viewsOf (s : State) (die : Nat) (high : Bool) : List View :=
  ((s.die die).clusters high).map fun k => s.view { die := die, cluster := k }

theorem placeNext_places {s : State} {die : Nat} {e : Share} {l : Launch} {vs : List View} {v : View} {f : Fit}
    (share : s.shareOf die e.launch = some e) (launch : s.launch e.launch = some l) (slot : l.slot.isSome = true)
    (alone : l.corez = false ∨ l.gcount = 0) (fits : fitFirst l (s.viewsOf die e.high) = some (vs, v, f)) :
    ∃ t, s.placeNext die e.launch = some t ∧ placedGang s l e.gangs v f ∈ t.dev.gangs := by
  have one : (l.corez && l.gcount != 0) = false := by rcases alone with h | h <;> simp [h]
  have held : s.withSlot l = some (s, l) := by
    obtain ⟨k, slot⟩ := Option.isSome_iff_exists.mp slot
    unfold State.withSlot
    rw [slot]
  have all : fitAll l 1 (s.viewsOf die e.high) = some [(v, f)] := by
    rw [fitAll, fits]
    rfl
  unfold State.viewsOf at all
  unfold State.placeNext
  rw [share, launch]
  dsimp only
  rw [held]
  dsimp only
  rw [one, if_neg Bool.false_ne_true, all]
  refine ⟨_, rfl, ?_⟩
  rw [beginLaunch_dev, dropShare_dev]
  show _ ∈ (s.placeGang l e.gangs v f).dev.gangs
  rw [placeGang_gangs]
  exact List.mem_append_right _ (List.mem_singleton.mpr rfl)

theorem place_places {s : State} {die : Nat} {e : Share} {rest : List Share} {l : Launch} {vs : List View} {v : View} {f : Fit}
    (head : (s.die die).queue = e :: rest) (launch : s.launch e.launch = some l) (slot : l.slot.isSome = true)
    (alone : l.corez = false ∨ l.gcount = 0) (fits : fitFirst l (s.viewsOf die e.high) = some (vs, v, f)) :
    placedGang s l e.gangs v f ∈ (s.place die).dev.gangs ∧ v.cluster.die = die := by
  have share : s.shareOf die e.launch = some e := by
    unfold State.shareOf
    rw [head]
    exact List.find?_cons_of_pos (beq_self_eq_true _)
  obtain ⟨t, placed, here⟩ := placeNext_places share launch slot alone fits
  obtain ⟨w, listed, cluster⟩ := fitFirst_cluster fits
  obtain ⟨k, -, view⟩ := List.mem_map.mp listed
  refine ⟨place_kept die s (placeHead_first 4095 head placed here), ?_⟩
  rw [cluster, ← view]
  rfl

end Sys2Proof.Machine

namespace Sys2Proof.Machine
open Sys2Proof

/-! ## Packets and launch rings (R155, R157, R233) -/

/-- A malformed packet of a known address space gets its completion record. -/
theorem takePacket_malformed {s : State} {die : Nat} {b : List Byte} {p : Party}
    (party : s.spaceParty (pkt b 24 2) die = some p) (bad : packetOk s.dev.dies b = false) :
    takePacket die b s = .ok () (s.queueDone die (wordOf (pkt b 112 8)) (pkt b 24 2) (wordOf (pkt b 56 8))
      (doneBytes (wordOf (pkt b 112 8)) 1 0 0)) := by
  obtain ⟨x, space, -⟩ := Option.map_eq_some_iff.mp party
  unfold takePacket
  rw [M.bind_ok (M.get_apply s)]
  dsimp only
  rw [space, party]
  dsimp only
  rw [bad, if_neg Bool.false_ne_true]
  rfl

section Ring
variable {s : State} {die n : Nat} {r : LaunchRing} {p : Party} {q : RingRef} {d : RingDesc}
variable (listed : (s.die die).rings.find? (fun r => r.ring == n) = some r) (room : (s.die die).done.length < 64)
variable (party : s.spaceParty r.asid die = some p) (opens : openRing p r.handle s = .ok (q, d) s) (kind : d.kind = 3)
include listed room party opens kind

theorem launchRingService_empty (empty : d.acquire.1.st ≠ 0) : exec (.launchRingService die n) s = .next s := by
  show execLaunchRingService die n s = _
  unfold execLaunchRingService
  rw [listed]
  dsimp only
  rw [if_neg (Nat.not_le.mpr room)]
  refine runEvent_ok ?_
  rw [party]
  dsimp only
  rw [M.bind_ok opens]
  dsimp only
  rw [if_neg (not_not_intro kind), if_neg (show ¬ d.acquire.1.st = stOk from empty)]
  rfl

theorem launchRingService_takes {s1 s2 s3 s4 s5 : State} {b : List Byte} {x : Nat} (some_ : d.acquire.1.st = 0)
    (save : saveRing p q d d.acquire.2 s = .ok () s1)
    (load : loadBytes p (slotAddr p.ctx d d.acquire.1.counter) 128 s1 = .ok b s2) (take : takePacket die b s2 = .ok () s3)
    (bytes : ringBytes p q s3 = .ok x s4) (release : releaseSlot p q (RingDesc.ofNat x) d.acquire.1.counter s4 = .ok () s5) :
    exec (.launchRingService die n) s = .next { s5 with inbox := s5.inbox ++ [.launchRingService die n] } := by
  show execLaunchRingService die n s = _
  unfold execLaunchRingService
  rw [listed]
  dsimp only
  rw [if_neg (Nat.not_le.mpr room)]
  refine runEvent_ok ?_
  rw [party]
  dsimp only
  rw [M.bind_ok opens]
  dsimp only
  rw [if_neg (not_not_intro kind), if_pos (show d.acquire.1.st = stOk from some_), M.bind_ok save, M.bind_ok load,
    M.bind_ok take, M.bind_ok bytes, M.bind_ok release]
  rfl

end Ring

/-! ## Completion records (R159) -/

section Done
variable {s u : State} {die : Nat} {r : DoneRecord} (one : (s.die die).done = [r])
include one

/-- A drain of one record: what is left of the list is what the unit holds after it. -/
theorem doneRecordDrain_one {l : List DoneRecord} (drained : drainDone die [r] [] s = .ok l u) :
    exec (.doneRecordDrain die) s = .next (u.modDie die fun d => { d with done := l }) := by
  have few : ¬ (64 ≤ (s.die die).done.length ∧ l.length < 64) := by rw [one]; simp
  refine runEvent_ok ?_
  rw [M.bind_ok (M.get_apply s), one, M.bind_ok drained, M.bind_ok (M.modify_apply _ u)]
  rfl

theorem doneRecordDrain_written (written : writeDone die r s = .ok .written u) :
    exec (.doneRecordDrain die) s = .next (u.modDie die fun d => { d with done := [] }) := by
  refine doneRecordDrain_one one ?_
  unfold drainDone
  rw [if_neg (by simp), M.bind_ok written]
  rfl

theorem doneRecordDrain_full {line : Nat} (full : writeDone die r s = .ok (.full line) u) :
    exec (.doneRecordDrain die) s = .next (u.modDie die fun d => { d with done := [{ r with line := line }] }) := by
  refine doneRecordDrain_one one ?_
  unfold drainDone
  rw [if_neg (by simp), M.bind_ok full]
  rfl

end Done

end Sys2Proof.Machine

namespace Sys2Proof.Machine
open Sys2Proof

/-! ## A gang that is done leaves the machine (R159) -/

/-- The gangs and the launches of the machine stay as they are. -/
def rollKept (s t : State) : Prop := t.dev.gangs = s.dev.gangs ∧ t.dev.launches = s.dev.launches

theorem rollKept.trans {s t u : State} (h : rollKept s t) (k : rollKept t u) : rollKept s u :=
  ⟨k.1.trans h.1, k.2.trans h.2⟩

theorem rollKept.of_dev {s t : State} (h : t.dev = s.dev) : rollKept s t := by
  unfold rollKept
  rw [h]
  exact ⟨rfl, rfl⟩

theorem noteGraph_rollKept (s : State) (graph : Nat) : rollKept s (s.noteGraph graph) := by
  unfold State.noteGraph
  split
  · split <;> exact ⟨rfl, rfl⟩
  · exact ⟨rfl, rfl⟩

theorem dropRings_rollKept (s : State) (g : Gang) : rollKept s (s.dropRings g) := by
  unfold State.dropRings
  generalize g.entries = l
  induction l generalizing s with
  | nil => exact ⟨rfl, rfl⟩
  | cons pa l ih =>
    refine rollKept.trans ?_ (ih _)
    dsimp only
    split
    · exact rollKept.trans (t := { s with dev := { s.dev with rings := _, members := _ } }) ⟨rfl, rfl⟩ (noteGraph_rollKept _ _)
    · exact ⟨rfl, rfl⟩

/-- A fold of wipes changes no hart and nothing of the device. -/
theorem foldl_keeps {α : Type} {f : State → α → State} (h : ∀ t a, (f t a).harts = t.harts ∧ (f t a).dev = t.dev) (l : List α)
    (s : State) : (l.foldl f s).harts = s.harts ∧ (l.foldl f s).dev = s.dev := by
  induction l generalizing s with
  | nil => exact ⟨rfl, rfl⟩
  | cons a l ih =>
    obtain ⟨harts, dev⟩ := ih (f s a)
    exact ⟨harts.trans (h s a).1, dev.trans (h s a).2⟩

theorem wipeUnit_harts (s : State) (c : ClusterId) (u : Nat × Nat) : (s.wipeUnit c u).harts = s.harts := by
  refine (foldl_keeps (fun t k => ?_) _ s).1
  exact ⟨rfl, rfl⟩

theorem wipes_keep (s : State) (c : ClusterId) (banks : List Nat) (units : List (Nat × Nat)) :
    let t := units.foldl (fun t u => t.wipeUnit c u) (banks.foldl (fun t b => t.wipeBank c b) s)
    t.harts = s.harts ∧ t.dev = s.dev := by
  obtain ⟨harts, dev⟩ := foldl_keeps (f := fun t b => t.wipeBank c b) (fun t b => ⟨rfl, rfl⟩) banks s
  obtain ⟨harts2, dev2⟩ := foldl_keeps (f := fun t u => t.wipeUnit c u) (fun t u => ⟨wipeUnit_harts t c u, wipeUnit_dev t c u⟩)
    units (banks.foldl (fun t b => t.wipeBank c b) s)
  exact ⟨harts2.trans harts, dev2.trans dev⟩

theorem freeGang_keeps (s : State) (g : Gang) :
    (s.freeGang g).harts = ((s.dropRings g).removeHarts g.harts).harts ∧
    (s.freeGang g).dev.gangs = s.dev.gangs.filter (fun x => x.number != g.number) ∧
    (s.freeGang g).dev.launches = s.dev.launches := by
  obtain ⟨gangs, launches⟩ := dropRings_rollKept s g
  obtain ⟨harts, dev⟩ := wipes_keep _ { die := g.die, cluster := g.cluster } _ g.units
  refine ⟨harts, ?_, ?_⟩
  · refine (congrArg Device.gangs dev).trans ?_
    exact congrArg (List.filter fun x => x.number != g.number) gangs
  · exact (congrArg Device.launches dev).trans launches

theorem removeHarts_reset {s : State} {ids : List HartId} {h : HartId} (gone : h ∈ ids) :
    (s.removeHarts ids).hartAt h = Hart.reset h := by
  have absent : (s.others.filter fun x => !ids.contains x.id).find? (fun x => x.id == h) = none :=
    List.find?_eq_none.mpr fun x hx here => by
      rw [beq_iff_eq] at here
      simpa [here, gone] using (List.mem_filter.mp hx).2
  unfold State.removeHarts
  by_cases turn : s.hart.id = h
  · rw [hartAt_of_hart] <;> rw [if_pos (List.contains_iff_mem.mpr (turn ▸ gone)), turn]
    rfl
  · have named : (if ids.contains s.hart.id then Hart.reset s.hart.id else s.hart).id = s.hart.id := by
      split <;> rfl
    rw [hartAt_of_others (by rw [named]; exact turn), absent]
    rfl

theorem queueDone_harts (s : State) (die : Nat) (tag : Word) (asid : Nat) (ring : Word) (bytes : List Byte) :
    (s.queueDone die tag asid ring bytes).harts = s.harts := by
  unfold State.queueDone
  split <;> rfl

theorem checkLaunch_harts (s : State) (launch : Nat) : (s.checkLaunch launch).harts = s.harts := by
  unfold State.checkLaunch
  split
  · rfl
  · split
    · rfl
    · exact queueDone_harts ..

/-- A launch of which a gang remains goes on. -/
theorem checkLaunch_placed {s : State} {launch : Nat} (h : ∃ x, x ∈ s.dev.gangs ∧ x.launch = launch) :
    s.checkLaunch launch = s := by
  obtain ⟨x, placed, same⟩ := h
  have more : (s.launchQueued launch || s.dev.gangs.any fun g => g.launch == launch) = true := by
    rw [Bool.or_eq_true]
    exact .inr (List.any_eq_true.mpr ⟨x, placed, by simpa using same⟩)
  unfold State.checkLaunch
  split
  · rfl
  · exact if_pos more

theorem setLaunch_same {s : State} {l k : Launch} (h : s.launch k.number = some l) :
    (s.setLaunch k).launch k.number = some k := by
  have found : s.dev.launches.find? (fun m => m.number == k.number) = some l := h
  have same : l.number = k.number := by simpa using List.find?_some found
  have named : ((fun m : Launch => m.number == k.number) ∘ fun m => if m.number = k.number then k else m) =
      fun m => m.number == k.number := by
    funext m
    by_cases here : m.number = k.number <;> simp [here]
  show List.find? _ (s.dev.launches.map _) = _
  rw [List.find?_map, named, found, Option.map_some, if_pos same]

/-- What the end of a gang makes of its launch: the state before the launch is looked at. -/
theorem gangCompletion_run {s : State} {g : Gang} (placed : s.gang g.number = some g) (done : s.gangDone g = true)
    (still : ∀ c x, x ∈ (s.core c).copies → x.gang ≠ some g.number) (once : (s.cores.map Prod.fst).Nodup) :
    ∃ u : State, exec (.gangCompletion g.number) s = .next ((u.checkLaunch g.launch).post [.place g.die]) ∧
      u.harts = (s.freeGang g).harts ∧ u.dev.gangs = (s.freeGang g).dev.gangs ∧
      ∀ l, s.launch g.launch = some l →
        u.launch g.launch = some { l with complete := l.complete + 1, lost := l.lost + s.pendingOf g } := by
  have idle : (s.cores.any fun c => c.2.copies.any fun x => x.gang == some g.number) = false := by
    refine List.any_eq_false.mpr fun c hc => ?_
    rw [Bool.not_eq_true]
    refine List.any_eq_false.mpr fun x hx => ?_
    have listed : x ∈ (s.core c.1).copies := by
      rw [State.core, assocGet_of_mem once hc]
      exact hx
    simpa using still c.1 x listed
  obtain ⟨-, -, launches⟩ := freeGang_keeps s g
  have kept : (s.freeGang g).launch g.launch = s.launch g.launch := by
    unfold State.launch
    rw [launches]
  have ran : exec (.gangCompletion g.number) s = execGangCompletion g.number s := rfl
  rw [ran]
  unfold execGangCompletion
  rw [placed]
  dsimp only
  rw [if_neg (by simp [done]), if_neg (by rw [idle]; decide), kept]
  cases launch : s.launch g.launch with
  | none => exact ⟨_, rfl, rfl, rfl, fun l other => nomatch other⟩
  | some l =>
    let k : Launch := { l with complete := l.complete + 1, lost := l.lost + s.pendingOf g }
    have number : k.number = g.launch := by
      simpa using List.find?_some (show s.dev.launches.find? (fun l => l.number == g.launch) = some l from launch)
    have counted : ((s.freeGang g).setLaunch k).launch g.launch = some k := by
      rw [← number]
      exact setLaunch_same (by rw [number]; exact kept.trans launch)
    dsimp only
    refine ⟨_, rfl, ?_, ?_, fun m same => ?_⟩
    · split
      · exact queueDone_harts ..
      · rfl
    · split
      · rw [queueDone_dev]
        rfl
      · rfl
    · obtain rfl := Option.some.inj same
      split
      · rw [State.launch, queueDone_dev]
        exact counted
      · exact counted

theorem gangCompletion_effect {s : State} {g : Gang} (placed : s.gang g.number = some g) (done : s.gangDone g = true)
    (still : ∀ c x, x ∈ (s.core c).copies → x.gang ≠ some g.number) (once : (s.cores.map Prod.fst).Nodup) :
    reaches (exec (.gangCompletion g.number) s) fun t =>
      (∀ x, x ∈ t.dev.gangs ↔ x ∈ s.dev.gangs ∧ x.number ≠ g.number) ∧
      (∀ h, h ∈ g.harts → t.hartAt h = Hart.reset h) ∧ .place g.die ∈ t.inbox ∧
      ∀ l, s.launch g.launch = some l → (∃ x, x ∈ t.dev.gangs ∧ x.launch = g.launch) →
        t.launch g.launch = some { l with complete := l.complete + 1, lost := l.lost + s.pendingOf g } := by
  obtain ⟨u, ran, harts, gangs, counted⟩ := gangCompletion_run placed done still once
  obtain ⟨freed, left, -⟩ := freeGang_keeps s g
  refine ⟨_, ran, fun x => ?_, fun h gone => ?_, List.mem_append_right _ (List.mem_singleton.mpr rfl), fun l launch more => ?_⟩
  · rw [State.post_dev, checkLaunch_gangs, gangs, left, List.mem_filter, bne_iff_ne]
  · have same : ((u.checkLaunch g.launch).post [.place g.die]).harts = ((s.dropRings g).removeHarts g.harts).harts :=
      (checkLaunch_harts u g.launch).trans (harts.trans freed)
    exact (hartAt_congr same h).trans (removeHarts_reset gone)
  · have goesOn : u.checkLaunch g.launch = u := by
      rw [State.post_dev, checkLaunch_gangs] at more
      exact checkLaunch_placed more
    rw [goesOn]
    exact counted l launch

end Sys2Proof.Machine

namespace Sys2Proof.Machine
open Sys2Proof

/-! ## Launches and placement -/

/-- Settles O52, unit by unit: placement, launch rings, the end of a gang, and completion records. -/
theorem launchesAndPlacement : Obligations.LaunchesAndPlacement := by
  unfold Obligations.LaunchesAndPlacement
  refine fun s die => ⟨fun empty => ⟨s, congrArg Host.Outcome.next (place_empty empty), rfl⟩, ?_,
    fun b x p _ party bad => takePacket_malformed party bad, ?_,
    fun g placed done still keys => gangCompletion_effect placed done still (nodup_of_eq_eraseDups keys), ?_⟩
  · intro e rest l vs v f head launch slot alone fits
    obtain ⟨here, cluster⟩ := place_places head launch slot alone fits
    refine ⟨_, rfl, _, here, rfl, rfl, ?_, cluster, rfl, rfl, ?_⟩
    · rw [← cluster]
      rfl
    · rw [← cluster]
      rfl
  · intro n r p q d listed room party opens kind
    refine ⟨fun empty => ⟨s, launchRingService_empty listed room party opens kind empty, rfl⟩, ?_⟩
    intro b s1 s2 s3 s4 s5 x some_ save load take bytes release
    exact ⟨_, launchRingService_takes listed room party opens kind some_ save load take bytes release, rfl⟩
  · intro r u one
    refine ⟨fun written => ⟨_, doneRecordDrain_written one written, ?_, rfl, rfl⟩,
      fun line full => ⟨_, doneRecordDrain_full one full, ?_, rfl, rfl⟩⟩
    · rw [modDie_same]
    · rw [modDie_same]

end Sys2Proof.Machine
